-- ==== Sys2Proof/Word.lean ====
section
/-! DEFINITION. Words, bytes, the plainest arithmetic on them, and the names of the coded fields of
instructions and events (spec/02, 03). Every enumeration lists its names in the order of their codes. -/

namespace Sys2Proof

/-- A 64-bit scalar (R11). -/
abbrev Word := BitVec 64
/-- A byte of memory. -/
abbrev Byte := BitVec 8

/-- Bits [lo+n-1 : lo] of a number. -/
def bitsAt (w lo n : Nat) : Nat := w / 2 ^ lo % 2 ^ n

/-- One bit of a number. -/
def bitAt (w k : Nat) : Bool := bitsAt w k 1 == 1

/-- A value read as a two's complement number of b bits. -/
def toSigned (v b : Nat) : Int :=
  if b = 0 then 0 else if v % 2 ^ b < 2 ^ (b - 1) then ((v % 2 ^ b : Nat) : Int) else ((v % 2 ^ b : Nat) : Int) - (2 ^ b : Nat)

/-- The low b bits of an integer, as a number. -/
def wrapInt (i : Int) (b : Nat) : Nat := (i % ((2 ^ b : Nat) : Int)).toNat

/-- SExt(v, b) of R41, to 64 bits. -/
def sext64 (v b : Nat) : Word := BitVec.ofInt 64 (toSigned v b)

/-- ZExt(v, b) of R41, to 64 bits. -/
def zext64 (v b : Nat) : Word := BitVec.ofNat 64 (v % 2 ^ b)

/-- Quotient rounded up. -/
def ceilDiv (a b : Nat) : Nat := (a + b - 1) / b

/-- The little-endian number a list of bytes holds (R2). -/
def leNat : List Byte → Nat
  | [] => 0
  | b :: r => b.toNat + 256 * leNat r

/-- The n little-endian bytes of a number (R2). -/
def leBytes : Nat → Nat → List Byte
  | 0, _ => []
  | n + 1, v => BitVec.ofNat 8 v :: leBytes n (v / 256)

/-- The 14 element types of R17, in code order. -/
inductive EType where
  | i8 | i16 | i32 | i64 | n8 | n16 | n32 | n64 | f32 | bf16 | f16 | e4 | e5 | f4
deriving DecidableEq, Repr, Inhabited

def EType.all : List EType := [.i8, .i16, .i32, .i64, .n8, .n16, .n32, .n64, .f32, .bf16, .f16, .e4, .e5, .f4]
def EType.code (t : EType) : Nat := EType.all.idxOf t
def EType.ofCode (n : Nat) : Option EType := EType.all[n]?

/-- EBits of R41. -/
def EType.bits : EType → Nat
  | .i8 | .n8 | .e4 | .e5 => 8
  | .i16 | .n16 | .bf16 | .f16 => 16
  | .i32 | .n32 | .f32 => 32
  | .i64 | .n64 => 64
  | .f4 => 4

/-- Whether the type is one of the signed integers of R4. -/
def EType.signed : EType → Bool
  | .i8 | .i16 | .i32 | .i64 => true
  | _ => false

/-- Whether the type is an integer type (R42). -/
def EType.isInt : EType → Bool
  | .i8 | .i16 | .i32 | .i64 | .n8 | .n16 | .n32 | .n64 => true
  | _ => false

/-- Operand signs of `mulh` (R87). -/
inductive MulK where | ss | uu | su
deriving DecidableEq, Repr, Inhabited
def MulK.all : List MulK := [.ss, .uu, .su]
def MulK.code (k : MulK) : Nat := MulK.all.idxOf k
def MulK.ofCode (n : Nat) : Option MulK := MulK.all[n]?

/-- Shifts of `shi` (R89). -/
inductive ShK where | sll | srl | sra | srr
deriving DecidableEq, Repr, Inhabited
def ShK.all : List ShK := [.sll, .srl, .sra, .srr]
def ShK.code (k : ShK) : Nat := ShK.all.idxOf k
def ShK.ofCode (n : Nat) : Option ShK := ShK.all[n]?

/-- Conditions of `pcmp` (R91); `pcmpi` has the first four. -/
inductive CmpK where | eq | ne | lt | ge | ltu | geu
deriving DecidableEq, Repr, Inhabited
def CmpK.all : List CmpK := [.eq, .ne, .lt, .ge, .ltu, .geu]
def CmpK.code (k : CmpK) : Nat := CmpK.all.idxOf k
def CmpK.ofCode (n : Nat) : Option CmpK := CmpK.all[n]?

/-- Conditions of `br` (R98). -/
inductive BrK where | eqz | nez | ltz | gez
deriving DecidableEq, Repr, Inhabited
def BrK.all : List BrK := [.eqz, .nez, .ltz, .gez]
def BrK.code (k : BrK) : Nat := BrK.all.idxOf k
def BrK.ofCode (n : Nat) : Option BrK := BrK.all[n]?

/-- The read-modify-write operations of R122. -/
inductive AmoK where | swap | add | and | or | xor | min | max | minu | maxu | fadd
deriving DecidableEq, Repr, Inhabited
def AmoK.all : List AmoK := [.swap, .add, .and, .or, .xor, .min, .max, .minu, .maxu, .fadd]
def AmoK.code (k : AmoK) : Nat := AmoK.all.idxOf k
def AmoK.ofCode (n : Nat) : Option AmoK := AmoK.all[n]?

/-- Floating rounding modes (R53). -/
inductive Rm where | rne | rz | rd | ru
deriving DecidableEq, Repr, Inhabited
def Rm.all : List Rm := [.rne, .rz, .rd, .ru]
def Rm.code (k : Rm) : Nat := Rm.all.idxOf k
def Rm.ofCode (n : Nat) : Option Rm := Rm.all[n]?

/-- Integer right-shift rounding modes (R19, R55). -/
inductive IRm where | hu | he | tr | jam
deriving DecidableEq, Repr, Inhabited
def IRm.all : List IRm := [.hu, .he, .tr, .jam]
def IRm.code (k : IRm) : Nat := IRm.all.idxOf k
def IRm.ofCode (n : Nat) : Option IRm := IRm.all[n]?

/-- Overflow policies (R56). -/
inductive Ov where | sat | inf | nan | trap
deriving DecidableEq, Repr, Inhabited
def Ov.all : List Ov := [.sat, .inf, .nan, .trap]
def Ov.code (k : Ov) : Nat := Ov.all.idxOf k
def Ov.ofCode (n : Nat) : Option Ov := Ov.all[n]?

/-- Element conditions of `vcmp`, `csel`, `cselp` (R162, R196). -/
inductive VCond where | eq | ne | lt | le | gt | ge
deriving DecidableEq, Repr, Inhabited
def VCond.all : List VCond := [.eq, .ne, .lt, .le, .gt, .ge]
def VCond.code (k : VCond) : Nat := VCond.all.idxOf k
def VCond.ofCode (n : Nat) : Option VCond := VCond.all[n]?

/-- Where a vector instruction's second operand comes from: a vector, a scalar (`.vx`) or imm8 (`.vi`) (R154). -/
inductive Src2 where | vv | vx | vi
deriving DecidableEq, Repr, Inhabited

/-- Operations of `vred` (R166). -/
inductive RedK where | sum | min | max | and | or | xor
deriving DecidableEq, Repr, Inhabited
def RedK.all : List RedK := [.sum, .min, .max, .and, .or, .xor]
def RedK.code (k : RedK) : Nat := RedK.all.idxOf k
def RedK.ofCode (n : Nat) : Option RedK := RedK.all[n]?

/-- Functions of `vsfu` (R169). -/
inductive SfuK where | rcp | rsqrt | sqrt | exp2 | log2 | tanh | sigm
deriving DecidableEq, Repr, Inhabited
def SfuK.all : List SfuK := [.rcp, .rsqrt, .sqrt, .exp2, .log2, .tanh, .sigm]
def SfuK.code (k : SfuK) : Nat := SfuK.all.idxOf k
def SfuK.ofCode (n : Nat) : Option SfuK := SfuK.all[n]?

/-- Index types of `vldx` and `vstx` (R147). -/
inductive IdxT where | n16 | n32 | n64
deriving DecidableEq, Repr, Inhabited
def IdxT.all : List IdxT := [.n16, .n32, .n64]
def IdxT.code (k : IdxT) : Nat := IdxT.all.idxOf k
def IdxT.ofCode (n : Nat) : Option IdxT := IdxT.all[n]?
def IdxT.etype : IdxT → EType
  | .n16 => .n16
  | .n32 => .n32
  | .n64 => .n64

/-- Operand types of the matrix engine (R180). -/
inductive MType where | e4 | e5 | f4 | i8 | bf16
deriving DecidableEq, Repr, Inhabited
def MType.all : List MType := [.e4, .e5, .f4, .i8, .bf16]
def MType.code (k : MType) : Nat := MType.all.idxOf k
def MType.ofCode (n : Nat) : Option MType := MType.all[n]?
def MType.etype : MType → EType
  | .e4 => .e4
  | .e5 => .e5
  | .f4 => .f4
  | .i8 => .i8
  | .bf16 => .bf16

/-- Sources an operand FIFO may be bound to (R182). -/
inductive BindK where | none | push | heddle | fill
deriving DecidableEq, Repr, Inhabited
def BindK.all : List BindK := [.none, .push, .heddle, .fill]
def BindK.code (k : BindK) : Nat := BindK.all.idxOf k
def BindK.ofCode (n : Nat) : Option BindK := BindK.all[n]?

/-- Kinds of `cjoin` (R196). -/
inductive JoinK where | inner | semi | anti
deriving DecidableEq, Repr, Inhabited
def JoinK.all : List JoinK := [.inner, .semi, .anti]
def JoinK.code (k : JoinK) : Nat := JoinK.all.idxOf k
def JoinK.ofCode (n : Nat) : Option JoinK := JoinK.all[n]?

/-- Operations of `cagg` (R196). -/
inductive AggK where | sum | min | max | cnt
deriving DecidableEq, Repr, Inhabited
def AggK.all : List AggK := [.sum, .min, .max, .cnt]
def AggK.code (k : AggK) : Nat := AggK.all.idxOf k
def AggK.ofCode (n : Nat) : Option AggK := AggK.all[n]?

/-- Modes of `xco` (R237). -/
inductive ReedM where | and | or | one | none
deriving DecidableEq, Repr, Inhabited
def ReedM.all : List ReedM := [.and, .or, .one, .none]
def ReedM.code (k : ReedM) : Nat := ReedM.all.idxOf k
def ReedM.ofCode (n : Nat) : Option ReedM := ReedM.all[n]?

/-- The counters of `cnt` (R245). -/
inductive CntK where | cycles | aDone | xIssued | xWaiting | wlBytes | hedBytes | fabBytes
deriving DecidableEq, Repr, Inhabited
def CntK.all : List CntK := [.cycles, .aDone, .xIssued, .xWaiting, .wlBytes, .hedBytes, .fabBytes]
def CntK.sel : CntK → Nat
  | .cycles => 0
  | .aDone => 1
  | .xIssued => 2
  | .xWaiting => 3
  | .wlBytes => 16
  | .hedBytes => 17
  | .fabBytes => 18
def CntK.ofSel (n : Nat) : Option CntK := CntK.all.find? (fun k => k.sel == n)

/-- The state registers `srd` and `swr` name, in the order of their selectors 0x001 to 0x013 (R76). -/
inductive SReg where
  | vlen | vtype | vstart | redst | fill | sat | fflags | rnd | frm | ccurLo | ccurHi | xcurLo | xcurHi
  | hcsum | tvec | tcause | apc | xpc | wlbud
deriving DecidableEq, Repr, Inhabited
def SReg.all : List SReg :=
  [.vlen, .vtype, .vstart, .redst, .fill, .sat, .fflags, .rnd, .frm, .ccurLo, .ccurHi, .xcurLo, .xcurHi,
   .hcsum, .tvec, .tcause, .apc, .xpc, .wlbud]
def SReg.sel (k : SReg) : Nat := SReg.all.idxOf k + 1
def SReg.ofSel (n : Nat) : Option SReg := if n = 0 then none else SReg.all[n - 1]?

/-- A write-lane port (R110, R117). -/
inductive Port where | ns | cs | ds | mm
deriving DecidableEq, Repr, Inhabited
def Port.all : List Port := [.ns, .cs, .ds, .mm]
def Port.code (k : Port) : Nat := Port.all.idxOf k

/-- Kinds of access (R111, R339). -/
inductive Acc where | read | write | fetch
deriving DecidableEq, Repr, Inhabited

/-- The fields every instruction has beside its operands: guard predicate (63: unguarded), negate bit, and the
issue wait of an X-class instruction (R69). -/
structure Hd where
  gd : Fin 64
  ng : Bool
  w  : Fin 8
deriving DecidableEq, Repr, Inhabited

/-- A shuttle's place in the module: its core, 0 to 511 (die × 16 + core within the die), and its position (R8, R305). -/
structure Ref where
  core : Nat
  pos  : Nat
deriving DecidableEq, Repr, Inhabited

/-- A management request (R348): the session it came on, its partition byte, identifier and argument words 1 to 7, and what stands in the
status byte and the reserved byte of its word 0. -/
structure MgmtReq where
  session : Nat
  part    : Nat
  id      : Nat
  args    : List Word
  resv    : Nat := 0
deriving DecidableEq, Repr, Inhabited

/-- A gang message (R318): sequence, incoming and outgoing gang, switch time, refuse reason, the module it came from, and what stands
in its reserved fields. -/
structure GangMsg where
  seq      : Nat
  incoming : Nat
  outgoing : Nat
  time     : Nat
  reason   : Nat
  sender   : Nat
  resv     : Nat := 0
deriving DecidableEq, Repr, Inhabited

/-- A transport access to a partition endpoint (R346): connection, whether it is reliable ordered, partition, virtual
address, the port it arrives on (R272, R345), and which bytes of what it carries are poisoned: first byte and count (R334). -/
structure NetAcc where
  conn    : Nat
  ordered : Bool
  pid     : Nat
  va      : Word
  port    : Nat := 0
  bad     : List (Nat × Nat) := []
deriving DecidableEq, Repr, Inhabited

/-- Transport atomics (R344). -/
inductive NetAtom where | fetchAdd | swap | cas
deriving DecidableEq, Repr, Inhabited

/-- What an upset strikes (R274, R334): a memory line by its place; a 64-bit word of a vector register, an x register, or a word of a
predicate register; logic, whose parity corrects it (R336, counter 4); a run of an operand FIFO (R183); a word of the state registers, loop
counters and records, arena word or descriptors, by its word of the frame (`sat`, `fflags`, `rnd`, `frm`: 100 to 103); a word of an entry of a
queue; a word of an accumulator tile, 4096 its band scale; a tile-table entry; or a barrier slot of a die. -/
inductive Upset where
  | line (place : Nat) (correctable : Bool)
  | vword (reg lane word : Nat) (correctable : Bool)
  | xword (reg : Nat) (correctable : Bool)
  | pword (reg word : Nat) (correctable : Bool)
  | logic
  | run (fb : Bool) (k : Nat) (correctable : Bool)
  | sword (k : Nat) (correctable : Bool)
  | qword (q e word : Nat) (correctable : Bool)
  | tword (tile word : Nat) (correctable : Bool)
  | ent (k : Nat) (correctable : Bool)
  | bar (die k : Nat) (correctable : Bool)
deriving DecidableEq, Repr, Inhabited

end Sys2Proof
end

