-- ==== Sys2Proof/Machine/Hash.lean ====
section
/-! DEFINITION. The two hashes of the part: CRC-32C (R228) and SHA3-256 (R235, R374), on lists of bytes. -/

namespace Sys2Proof.Machine

/-- Eight steps of the reflected CRC polynomial (R228). -/
def crcByte (c : Nat) : Nat → Nat
  | 0 => c
  | k + 1 => crcByte (if c % 2 = 1 then (c / 2) ^^^ 0x82F63B78 else c / 2) k

/-- CrcFold(h, bytes) of R228. -/
def crcFold (h : BitVec 32) (bs : List Byte) : BitVec 32 :=
  BitVec.ofNat 32 ((bs.foldl (fun c b => crcByte (c ^^^ b.toNat) 8) (h.toNat ^^^ 0xFFFFFFFF)) ^^^ 0xFFFFFFFF)

/-! SHA3-256 is taken as FIPS 202 builds it, from its own recurrences: neither the offsets of rho nor the constants
of iota are tabulated. A sponge state is its five sheets (x = 0 to 4), each the list of its five lanes (y = 0 to 4). -/

/-- Lane (x, y) of a state of sheets. -/
def laneAt (a : List (List (BitVec 64))) (x y : Nat) : BitVec 64 := (a.getD (x % 5) []).getD (y % 5) 0

/-- The state whose lane (x, y) is f x y. -/
def sheets (f : Nat → Nat → BitVec 64) : List (List (BitVec 64)) :=
  (List.range 5).map (fun x => (List.range 5).map (f x))

/-- Theta: each sheet takes in the parity of the sheet before it and, turned by one, of the sheet after it. -/
def sheetMix (a : List (List (BitVec 64))) : List (List (BitVec 64)) :=
  let par := a.map (fun sh => sh.foldl (· ^^^ ·) 0)
  a.mapIdx (fun x sh => sh.map (· ^^^ (par.getD ((x + 4) % 5) 0 ^^^ (par.getD ((x + 1) % 5) 0).rotateLeft 1)))

/-- Rho's walk from (1, 0): n pairs (position, offset), the offset of step t being the triangular number t + 1. -/
def offsetWalk (x y t : Nat) : Nat → List (Nat × Nat)
  | 0 => []
  | n + 1 => (5 * x + y, (t + 1) * (t + 2) / 2) :: offsetWalk y ((2 * x + 3 * y) % 5) (t + 1) n

/-- Rho's offset of lane (x, y). -/
def laneTurn (x y : Nat) : Nat := (((offsetWalk 1 0 0 24).lookup (5 * x + y)).getD 0) % 64

/-- Rho and pi together: the lane that comes to (x, y) stood at (x + 3 y, x). -/
def laneMove (a : List (List (BitVec 64))) : List (List (BitVec 64)) :=
  sheets (fun x y => (laneAt a (x + 3 * y) x).rotateLeft (laneTurn ((x + 3 * y) % 5) x))

/-- Chi: the one step that is not linear, along each row. -/
def rowMix (a : List (List (BitVec 64))) : List (List (BitVec 64)) :=
  sheets (fun x y => laneAt a x y ^^^ (~~~ laneAt a (x + 1) y &&& laneAt a (x + 2) y))

/-- The register of FIPS 202's rc after t steps: the powers of x modulo x^8 + x^6 + x^5 + x^4 + 1. -/
def rcReg : Nat → Nat
  | 0 => 1
  | t + 1 => let v := 2 * rcReg t; v ^^^ (v / 256 * 0x171)

/-- Iota's constant of round r: bit 2^j - 1 is rc(j + 7 r), for j = 0 to 6. -/
def roundConst (r : Nat) : BitVec 64 :=
  (List.range 7).foldl (fun k j => if rcReg (j + 7 * r) % 2 = 1 then k ^^^ (1 <<< (2 ^ j - 1)) else k) 0

/-- Round r of the permutation; iota touches lane (0, 0) alone. -/
def spongeRound (a : List (List (BitVec 64))) (r : Nat) : List (List (BitVec 64)) :=
  (rowMix (laneMove (sheetMix a))).modify 0 (fun sh => sh.modify 0 (· ^^^ roundConst r))

/-- The 24 rounds. -/
def spongePerm (a : List (List (BitVec 64))) : List (List (BitVec 64)) := (List.range 24).foldl spongeRound a

/-- Take in n blocks of 136 bytes: 17 lanes, lane k at (k mod 5, k / 5). -/
def spongeIn (a : List (List (BitVec 64))) (msg : List Byte) : Nat → List (List (BitVec 64))
  | 0 => a
  | n + 1 =>
    let lane (x y : Nat) : BitVec 64 :=
      if x + 5 * y < 17 then BitVec.ofNat 64 (leNat ((msg.drop (8 * (x + 5 * y))).take 8)) else 0
    spongeIn (spongePerm (sheets (fun x y => laneAt a x y ^^^ lane x y))) (msg.drop 136) n

/-- A message with SHA3's suffix 01 and the padding 10*1, to a multiple of 136 bytes. -/
def sha3Padded (msg : List Byte) : List Byte :=
  let gap := 135 - msg.length % 136
  msg ++ (if gap = 0 then [0x86] else 0x06 :: (List.replicate (gap - 1) 0 ++ [0x80]))

/-- SHA3-256 of a byte string: the first four lanes of the row y = 0. -/
def sha3 (msg : List Byte) : List Byte :=
  let m := sha3Padded msg
  let a := spongeIn (sheets (fun _ _ => 0)) m (m.length / 136)
  (List.range 4).flatMap (fun x => leBytes 8 (laneAt a x 0).toNat)

end Sys2Proof.Machine
end

