-- ==== Sys2Proof/Syntax.lean ====
section
/-! DEFINITION. The steps of the part (spec/opcode_table.json): one constructor for every row, in the order of the
table. An instruction carries its guard and issue wait `Hd` (R69) and the operands of its entry; a heddle micro-op
(R82) carries its fields; a step that no program word names (an event of the module) carries what it acts on. -/

namespace Sys2Proof

/-- One row of the opcode table each. Register fields are the 6-bit fields of R70; `d`, `a`, `b`, `e` are the fields
d, a, s2, s3 of R69 and R72; `y` is the yield register and `pm`, `pp` the optional predicates, 63 for none. -/
inductive Instr where
  /-- ADD, R87. -/
  | add (h : Hd) (d : Fin 64) (a : Fin 64) (b : Fin 64)
  /-- SUB, R87. -/
  | sub (h : Hd) (d : Fin 64) (a : Fin 64) (b : Fin 64)
  /-- MUL, R87. -/
  | mul (h : Hd) (d : Fin 64) (a : Fin 64) (b : Fin 64)
  /-- MULH, R87. -/
  | mulh (h : Hd) (k : MulK) (d : Fin 64) (a : Fin 64) (b : Fin 64)
  /-- DIV, R88. -/
  | div (h : Hd) (u : Bool) (d : Fin 64) (a : Fin 64) (b : Fin 64)
  /-- REM, R88. -/
  | rem (h : Hd) (u : Bool) (d : Fin 64) (a : Fin 64) (b : Fin 64)
  /-- AND, R87. -/
  | and (h : Hd) (d : Fin 64) (a : Fin 64) (b : Fin 64)
  /-- OR, R87. -/
  | or (h : Hd) (d : Fin 64) (a : Fin 64) (b : Fin 64)
  /-- XOR, R87. -/
  | xor (h : Hd) (d : Fin 64) (a : Fin 64) (b : Fin 64)
  /-- SLL, R87. -/
  | sll (h : Hd) (d : Fin 64) (a : Fin 64) (b : Fin 64)
  /-- SRL, R87. -/
  | srl (h : Hd) (d : Fin 64) (a : Fin 64) (b : Fin 64)
  /-- SRA, R87. -/
  | sra (h : Hd) (r : Bool) (d : Fin 64) (a : Fin 64) (b : Fin 64)
  /-- MIN, R87. -/
  | min (h : Hd) (u : Bool) (d : Fin 64) (a : Fin 64) (b : Fin 64)
  /-- MAX, R87. -/
  | max (h : Hd) (u : Bool) (d : Fin 64) (a : Fin 64) (b : Fin 64)
  /-- CLZ, R87. -/
  | clz (h : Hd) (d : Fin 64) (a : Fin 64)
  /-- CTZ, R87. -/
  | ctz (h : Hd) (d : Fin 64) (a : Fin 64)
  /-- POPC, R87. -/
  | popc (h : Hd) (d : Fin 64) (a : Fin 64)
  /-- ADDI, R89. -/
  | addi (h : Hd) (d : Fin 64) (a : Fin 64) (imm : BitVec 32)
  /-- ANDI, R89. -/
  | andi (h : Hd) (d : Fin 64) (a : Fin 64) (imm : BitVec 32)
  /-- ORI, R89. -/
  | ori (h : Hd) (d : Fin 64) (a : Fin 64) (imm : BitVec 32)
  /-- XORI, R89. -/
  | xori (h : Hd) (d : Fin 64) (a : Fin 64) (imm : BitVec 32)
  /-- SHI, R89. -/
  | shi (h : Hd) (k : ShK) (d : Fin 64) (a : Fin 64) (n : BitVec 6)
  /-- LI, R89. -/
  | li (h : Hd) (z : Bool) (d : Fin 64) (imm : BitVec 32)
  /-- LIH, R89. -/
  | lih (h : Hd) (d : Fin 64) (a : Fin 64) (imm : BitVec 32)
  /-- ADDPC, R89. -/
  | addpc (h : Hd) (d : Fin 64) (imm : BitVec 32)
  /-- SEL, R90. -/
  | sel (h : Hd) (d : Fin 64) (a : Fin 64) (b : Fin 64) (e : Fin 64)
  /-- PCMP, R91. -/
  | pcmp (h : Hd) (k : CmpK) (d : Fin 64) (a : Fin 64) (b : Fin 64)
  /-- PCMPI, R91. -/
  | pcmpi (h : Hd) (k : CmpK) (d : Fin 64) (a : Fin 64) (imm : BitVec 32)
  /-- PLOG, R94. -/
  | plog (h : Hd) (f : BitVec 4) (d : Fin 64) (a : Fin 64) (b : Fin 64)
  /-- PSET_ALL, R95. -/
  | psetAll (h : Hd) (v : Bool) (d : Fin 64)
  /-- PSET_LT, R95. -/
  | psetLt (h : Hd) (d : Fin 64) (a : Fin 64) (imm : BitVec 32)
  /-- PSET_MOD, R95. -/
  | psetMod (h : Hd) (d : Fin 64) (imm : BitVec 32)
  /-- PSET_BITS, R95. -/
  | psetBits (h : Hd) (d : Fin 64) (a : Fin 64)
  /-- PCNT, R96. -/
  | pcnt (h : Hd) (d : Fin 64) (a : Fin 64)
  /-- PFIRST, R96. -/
  | pfirst (h : Hd) (d : Fin 64) (a : Fin 64)
  /-- BR, R98. -/
  | br (h : Hd) (k : BrK) (a : Fin 64) (disp : BitVec 32)
  /-- JMP, R98. -/
  | jmp (h : Hd) (disp : BitVec 32)
  /-- CALL, R98. -/
  | call (h : Hd) (d : Fin 64) (disp : BitVec 32)
  /-- RET, R99. -/
  | ret (h : Hd) (a : Fin 64)
  /-- JR, R99. -/
  | jr (h : Hd) (d : Fin 64) (a : Fin 64)
  /-- LOOP, R101. -/
  | loop (h : Hd) (im : Bool) (d : Fin 64) (a : Fin 64) (disp : BitVec 32)
  /-- LOOPX, R102. -/
  | loopx (h : Hd) (k : BitVec 2) (d : Fin 64) (a : Fin 64) (disp : BitVec 32)
  /-- LOOP_END, R103. -/
  | loopEnd
  /-- XSYNC, R107. -/
  | xsync (h : Hd)
  /-- XSYNC_I, R107. -/
  | xsyncI (h : Hd)
  /-- XNOP, R108. -/
  | xnop (h : Hd) (n : BitVec 16)
  /-- NOP, R109. -/
  | nop (h : Hd)
  /-- LD, R117. -/
  | ld (h : Hd) (aq : Bool) (sz : BitVec 2) (sx : Bool) (d : Fin 64) (a : Fin 64) (off : BitVec 20)
  /-- ST, R117. -/
  | st (h : Hd) (rl : Bool) (sz : BitVec 2) (d : Fin 64) (a : Fin 64) (off : BitVec 20)
  /-- STNB, R117. -/
  | stnb (h : Hd) (sz : BitVec 2) (d : Fin 64) (a : Fin 64) (off : BitVec 20)
  /-- LDQ, R120. -/
  | ldq (h : Hd) (sz : BitVec 2) (sx : Bool) (d : Fin 64) (a : Fin 64) (off : BitVec 20)
  /-- LDQ_G, R120. -/
  | ldqG (h : Hd) (d : Fin 64) (a : Fin 64) (off : BitVec 20)
  /-- LDQ_X, R120. -/
  | ldqX (h : Hd) (d : Fin 64) (a : Fin 64)
  /-- LDQ_R, R120. -/
  | ldqR (h : Hd) (d : Fin 64) (a : Fin 64)
  /-- QMOV_XQ, R121. -/
  | qmovXq (h : Hd) (d : Fin 64) (a : Fin 64)
  /-- QMOV_QX, R121. -/
  | qmovQx (h : Hd) (d : Fin 64) (a : Fin 64)
  /-- QMOV_QQ, R121. -/
  | qmovQq (h : Hd) (d : Fin 64) (a : Fin 64)
  /-- AMO, R122. -/
  | amo (h : Hd) (k : AmoK) (dw : Bool) (sx : Bool) (d : Fin 64) (a : Fin 64) (b : Fin 64) (off : BitVec 20)
  /-- AMOCAS, R123. -/
  | amocas (h : Hd) (dw : Bool) (sx : Bool) (d : Fin 64) (a : Fin 64) (b : Fin 64) (off : BitVec 20)
  /-- RED, R124. -/
  | red (h : Hd) (k : AmoK) (dw : Bool) (d : Fin 64) (a : Fin 64) (off : BitVec 20)
  /-- FAS, R125. -/
  | fas (h : Hd) (t : EType) (d : Fin 64) (a : Fin 64) (b : Fin 64) (off : BitVec 14)
  /-- FENCE, R129. -/
  | fence (h : Hd)
  /-- FENCE_WL, R129. -/
  | fenceWl (h : Hd)
  /-- FENCE_XA, R129. -/
  | fenceXa (h : Hd)
  /-- BAR_INIT, R134. -/
  | barInit (h : Hd) (a : Fin 64) (b : Fin 64)
  /-- BAR_ARV, R134. -/
  | barArv (h : Hd) (n : Bool) (d : Fin 64) (a : Fin 64) (b : Fin 64)
  /-- BAR_EXP, R134. -/
  | barExp (h : Hd) (a : Fin 64) (b : Fin 64)
  /-- BAR_WT, R135. -/
  | barWt (h : Hd) (d : Fin 64) (a : Fin 64) (b : Fin 64)
  /-- BAR_TWT, R136. -/
  | barTwt (h : Hd) (d : Fin 64) (a : Fin 64) (b : Fin 64) (e : Fin 64)
  /-- BAR_TWT_DEADLINE, R136. -/
  | barTwtDeadline
  /-- TILE_ST_RD, R139. -/
  | tileStRd (h : Hd) (d : Fin 64) (t : BitVec 8)
  /-- TILE_ST_ARM, R139. -/
  | tileStArm (h : Hd) (d : Fin 64) (a : Fin 64) (t : BitVec 8)
  /-- TILE_ST_DONE, R139. -/
  | tileStDone (h : Hd) (d : Fin 64) (t : BitVec 8)
  /-- TILE_ST_ABORT, R139. -/
  | tileStAbort (h : Hd) (d : Fin 64) (t : BitVec 8)
  /-- TILE_ST_REL, R139. -/
  | tileStRel (h : Hd) (d : Fin 64) (t : BitVec 8)
  /-- TILE_WT, R140. -/
  | tileWt (h : Hd) (d : Fin 64) (t : BitVec 8)
  /-- WLB, R116. -/
  | wlb (h : Hd) (d : Fin 64) (a : Fin 64)
  /-- WLB_WT, R116. -/
  | wlbWt (h : Hd) (a : Fin 64) (b : Fin 64)
  /-- WRITE_LANE_PERFORM, R115. -/
  | writeLanePerform (port : Port)
  /-- WLBUD_REFILL, R271. -/
  | wlbudRefill
  /-- VSETL, R144. -/
  | vsetl (h : Hd) (g : BitVec 2) (mx : Bool) (t : EType) (live : BitVec 8) (d : Fin 64) (a : Fin 64)
  /-- VLD, R149. -/
  | vld (h : Hd) (t : EType) (d : Fin 64) (a : Fin 64) (off : BitVec 14)
  /-- VLDS, R149. -/
  | vlds (h : Hd) (t : EType) (d : Fin 64) (a : Fin 64) (b : Fin 64) (off : BitVec 14)
  /-- VLDX, R150. -/
  | vldx (h : Hd) (t : EType) (it : IdxT) (s : BitVec 2) (d : Fin 64) (a : Fin 64) (b : Fin 64) (pm : Fin 64) (off : BitVec 14)
  /-- VST, R149. -/
  | vst (h : Hd) (t : EType) (d : Fin 64) (a : Fin 64) (off : BitVec 14)
  /-- VSTS, R149. -/
  | vsts (h : Hd) (t : EType) (d : Fin 64) (a : Fin 64) (b : Fin 64) (off : BitVec 14)
  /-- VSTX, R151. -/
  | vstx (h : Hd) (t : EType) (it : IdxT) (s : BitVec 2) (d : Fin 64) (a : Fin 64) (b : Fin 64) (off : BitVec 14)
  /-- VLDQ, R152. -/
  | vldq (h : Hd) (t : EType) (d : Fin 64) (a : Fin 64)
  /-- VADD, R155. -/
  | vadd (h : Hd) (s : Bool) (vx : Bool) (rm : Rm) (d : Fin 64) (a : Fin 64) (b : Fin 64)
  /-- VSUB, R155. -/
  | vsub (h : Hd) (s : Bool) (vx : Bool) (rm : Rm) (d : Fin 64) (a : Fin 64) (b : Fin 64)
  /-- VMUL, R155. -/
  | vmul (h : Hd) (s : Bool) (vx : Bool) (rm : Rm) (d : Fin 64) (a : Fin 64) (b : Fin 64)
  /-- VFMA, R155. -/
  | vfma (h : Hd) (vx : Bool) (rm : Rm) (d : Fin 64) (a : Fin 64) (b : Fin 64) (e : Fin 64)
  /-- VFMS, R155. -/
  | vfms (h : Hd) (vx : Bool) (rm : Rm) (d : Fin 64) (a : Fin 64) (b : Fin 64) (e : Fin 64)
  /-- VMIN, R155. -/
  | vmin (h : Hd) (vx : Bool) (d : Fin 64) (a : Fin 64) (b : Fin 64)
  /-- VMAX, R155. -/
  | vmax (h : Hd) (vx : Bool) (d : Fin 64) (a : Fin 64) (b : Fin 64)
  /-- VABS, R155. -/
  | vabs (h : Hd) (s : Bool) (d : Fin 64) (a : Fin 64)
  /-- VNEG, R155. -/
  | vneg (h : Hd) (s : Bool) (d : Fin 64) (a : Fin 64)
  /-- VAND, R155. -/
  | vand (h : Hd) (vx : Bool) (d : Fin 64) (a : Fin 64) (b : Fin 64)
  /-- VOR, R155. -/
  | vor (h : Hd) (vx : Bool) (d : Fin 64) (a : Fin 64) (b : Fin 64)
  /-- VXOR, R155. -/
  | vxor (h : Hd) (vx : Bool) (d : Fin 64) (a : Fin 64) (b : Fin 64)
  /-- VSLL, R156. -/
  | vsll (h : Hd) (k : Src2) (d : Fin 64) (a : Fin 64) (b : Fin 64) (imm : BitVec 8)
  /-- VSRL, R156. -/
  | vsrl (h : Hd) (k : Src2) (d : Fin 64) (a : Fin 64) (b : Fin 64) (imm : BitVec 8)
  /-- VSRA, R156. -/
  | vsra (h : Hd) (k : Src2) (r : Bool) (rm : IRm) (d : Fin 64) (a : Fin 64) (b : Fin 64) (imm : BitVec 8)
  /-- VMULH, R155. -/
  | vmulh (h : Hd) (vx : Bool) (d : Fin 64) (a : Fin 64) (b : Fin 64)
  /-- VDOT2, R157. -/
  | vdot2 (h : Hd) (s : Bool) (vx : Bool) (d : Fin 64) (a : Fin 64) (b : Fin 64)
  /-- VMACW, R158. -/
  | vmacw (h : Hd) (s : Bool) (rm : Rm) (d : Fin 64) (a : Fin 64) (b : Fin 64)
  /-- VNARROW, R159. -/
  | vnarrow (h : Hd) (s : Bool) (t2 : EType) (rm : IRm) (n : BitVec 8) (d : Fin 64) (a : Fin 64)
  /-- VWIDEN, R160. -/
  | vwiden (h : Hd) (t2 : EType) (d : Fin 64) (a : Fin 64)
  /-- VCVT, R161. -/
  | vcvt (h : Hd) (t2 : EType) (rm : Rm) (ov : Ov) (d : Fin 64) (a : Fin 64)
  /-- VCMP, R162. -/
  | vcmp (h : Hd) (k : VCond) (vx : Bool) (d : Fin 64) (a : Fin 64) (b : Fin 64)
  /-- VSEL, R163. -/
  | vsel (h : Hd) (d : Fin 64) (a : Fin 64) (b : Fin 64) (e : Fin 64)
  /-- VSLIDE, R163. -/
  | vslide (h : Hd) (dn : Bool) (vi : Bool) (d : Fin 64) (a : Fin 64) (b : Fin 64) (imm : BitVec 8)
  /-- VPERM, R164. -/
  | vperm (h : Hd) (t2 : EType) (d : Fin 64) (a : Fin 64) (b : Fin 64)
  /-- VBCAST, R164. -/
  | vbcast (h : Hd) (d : Fin 64) (a : Fin 64)
  /-- VBCAST_EL, R164. -/
  | vbcastEl (h : Hd) (d : Fin 64) (a : Fin 64) (b : Fin 64)
  /-- VMOVX, R164. -/
  | vmovx (h : Hd) (d : Fin 64) (a : Fin 64) (b : Fin 64)
  /-- VMOVX_V, R164. -/
  | vmovxV (h : Hd) (d : Fin 64) (a : Fin 64) (b : Fin 64)
  /-- VRED, R166. -/
  | vred (h : Hd) (k : RedK) (d : Fin 64) (a : Fin 64) (b : Fin 64)
  /-- VREDO, R167. -/
  | vredo (h : Hd) (d : Fin 64) (a : Fin 64) (b : Fin 64)
  /-- VSCAN, R168. -/
  | vscan (h : Hd) (ex : Bool) (d : Fin 64) (a : Fin 64)
  /-- VIOTA, R168. -/
  | viota (h : Hd) (d : Fin 64) (a : Fin 64)
  /-- VIOTA_IDX, R168. -/
  | viotaIdx (h : Hd) (d : Fin 64)
  /-- VCOMPRESS, R165. -/
  | vcompress (h : Hd) (d : Fin 64) (a : Fin 64) (b : Fin 64)
  /-- VEXPAND, R165. -/
  | vexpand (h : Hd) (d : Fin 64) (a : Fin 64) (b : Fin 64)
  /-- VSFU, R169. -/
  | vsfu (h : Hd) (k : SfuK) (rm : Rm) (d : Fin 64) (a : Fin 64)
  /-- VSCL, R170. -/
  | vscl (h : Hd) (rm : Rm) (k : BitVec 8) (d : Fin 64) (a : Fin 64) (b : Fin 64)
  /-- VPUSH, R171. -/
  | vpush (h : Hd) (fb : Bool) (sc : Bool) (a : Fin 64) (b : Fin 64)
  /-- MTL, R181. -/
  | mtl (h : Hd) (d : Fin 64) (a : Fin 64) (b : Fin 64) (e : Fin 64)
  /-- MBIND, R182. -/
  | mbind (h : Hd) (fb : Bool) (src : BindK) (t : MType) (a : Fin 64)
  /-- MFILL, R183. -/
  | mfill (h : Hd) (fb : Bool) (fr : Bool) (ff : Bool) (d : Fin 64) (a : Fin 64) (b : Fin 64) (e : Fin 64)
  /-- MMA, R184. -/
  | mma (h : Hd) (z : Bool) (ta : MType) (tb : MType) (t : BitVec 8) (a : Fin 64) (b : Fin 64) (e : Fin 64)
  /-- MZERO, R188. -/
  | mzero (h : Hd) (t : BitVec 8)
  /-- MRD, R187. -/
  | mrd (h : Hd) (rm : Rm) (ov : Ov) (t : BitVec 8) (d : Fin 64) (a : Fin 64)
  /-- MWR, R188. -/
  | mwr (h : Hd) (t : BitVec 8) (d : Fin 64) (a : Fin 64)
  /-- MBS, R188. -/
  | mbs (h : Hd) (t : BitVec 8) (a : Fin 64)
  /-- MBS_RD, R188. -/
  | mbsRd (h : Hd) (t : BitVec 8) (d : Fin 64)
  /-- MDRAIN, R189. -/
  | mdrain (h : Hd) (ty : EType) (rm : Rm) (ov : Ov) (t : BitVec 8) (d : Fin 64) (a : Fin 64) (b : Fin 64) (e : Fin 64)
  /-- MOWN_ACQ, R190. -/
  | mownAcq (h : Hd) (d : Fin 64)
  /-- MOWN_TRY, R190. -/
  | mownTry (h : Hd) (d : Fin 64)
  /-- MOWN_REL, R190. -/
  | mownRel (h : Hd)
  /-- MOWN_RD, R190. -/
  | mownRd (h : Hd) (d : Fin 64)
  /-- HOLD_LIMIT, R312. -/
  | holdLimit
  /-- CDEF_ARENA, R206. -/
  | cdefArena (h : Hd) (a : Fin 64) (b : Fin 64) (e : Fin 64)
  /-- CDEF_T, R206. -/
  | cdefT (h : Hd) (t : EType) (d : Fin 64) (a : Fin 64) (b : Fin 64)
  /-- CDEF_LEN, R206. -/
  | cdefLen (h : Hd) (d : Fin 64) (a : Fin 64)
  /-- CLEN, R207. -/
  | clen (h : Hd) (d : Fin 64) (a : Fin 64)
  /-- CLEN_CAP, R207. -/
  | clenCap (h : Hd) (d : Fin 64) (a : Fin 64)
  /-- CLEN_DESC, R207. -/
  | clenDesc (h : Hd) (d : Fin 64) (a : Fin 64)
  /-- CLEN_ARENA, R207. -/
  | clenArena (h : Hd) (d : Fin 64)
  /-- CLD, R208. -/
  | cld (h : Hd) (d : Fin 64) (a : Fin 64) (b : Fin 64) (y : Fin 64) (pp : Fin 64)
  /-- CLD_ST, R208. -/
  | cldSt (h : Hd) (d : Fin 64) (a : Fin 64) (y : Fin 64)
  /-- CSEL, R209. -/
  | csel (h : Hd) (k : VCond) (cc : Bool) (d : Fin 64) (a : Fin 64) (b : Fin 64) (y : Fin 64) (pp : Fin 64)
  /-- CSELP, R209. -/
  | cselp (h : Hd) (k : VCond) (d : Fin 64) (a : Fin 64) (b : Fin 64) (e : Fin 64) (y : Fin 64) (pp : Fin 64)
  /-- CGATH, R210. -/
  | cgath (h : Hd) (d : Fin 64) (a : Fin 64) (b : Fin 64) (y : Fin 64) (pp : Fin 64)
  /-- CSCAT, R211. -/
  | cscat (h : Hd) (k : AmoK) (d : Fin 64) (a : Fin 64) (b : Fin 64) (y : Fin 64)
  /-- CJOIN, R212. -/
  | cjoin (h : Hd) (k : JoinK) (d : Fin 64) (a : Fin 64) (b : Fin 64) (y : Fin 64) (pp : Fin 64)
  /-- CSORT, R213. -/
  | csort (h : Hd) (p : Bool) (dn : Bool) (d : Fin 64) (a : Fin 64) (y : Fin 64)
  /-- CGRP, R214. -/
  | cgrp (h : Hd) (d : Fin 64) (a : Fin 64) (y : Fin 64) (pp : Fin 64)
  /-- CAGG, R215. -/
  | cagg (h : Hd) (k : AggK) (s : Bool) (d : Fin 64) (a : Fin 64) (b : Fin 64) (y : Fin 64) (pp : Fin 64)
  /-- CUNIQ, R214. -/
  | cuniq (h : Hd) (p : Bool) (d : Fin 64) (a : Fin 64) (y : Fin 64) (pp : Fin 64)
  /-- CRES, R202. -/
  | cres (h : Hd) (o : BitVec 4) (f : BitVec 4) (d : Fin 64) (a : Fin 64) (b : Fin 64) (e : Fin 64) (y : Fin 64) (pp : Fin 64)
  /-- CCUR_CLR, R216. -/
  | ccurClr (h : Hd)
  /-- CCUR_RD, R216. -/
  | ccurRd (h : Hd) (d : Fin 64)
  /-- CCUR_WR, R216. -/
  | ccurWr (h : Hd) (a : Fin 64)
  /-- CVEC_LD, R217. -/
  | cvecLd (h : Hd) (d : Fin 64) (a : Fin 64) (b : Fin 64) (y : Fin 64)
  /-- CVEC_APP, R217. -/
  | cvecApp (h : Hd) (d : Fin 64) (a : Fin 64) (y : Fin 64) (pp : Fin 64)
  /-- HCOPY, R222. -/
  | hcopy (h : Hd) (ck : BitVec 3) (ts : Bool) (bar : Bool) (crc : Bool) (nb : Bool) (d : Fin 64) (a : Fin 64) (b : Fin 64) (e : Fin 64) (pm : Fin 64) (t : BitVec 8)
  /-- HXFM, R231. -/
  | hxfm (h : Hd) (ts : Bool) (bar : Bool) (nb : Bool) (d : Fin 64) (a : Fin 64) (pm : Fin 64) (t : BitVec 8)
  /-- HPROG, R230. -/
  | hprog (h : Hd) (d : Fin 64) (a : Fin 64)
  /-- HFAB, R229. -/
  | hfab (h : Hd) (ck : BitVec 3) (get : Bool) (bar : Bool) (crc : Bool) (nb : Bool) (fold : Bool) (d : Fin 64) (a : Fin 64) (b : Fin 64) (e : Fin 64) (pm : Fin 64) (peer : BitVec 8)
  /-- CHUNK_FINISH, R224. -/
  | chunkFinish (slot : Nat) (chunk : Nat)
  /-- PEER_TIMEOUT, R352. -/
  | peerTimeout (slot : Nat)
  /-- HSTAT_RD, R227. -/
  | hstatRd (h : Hd) (d : Fin 64) (a : Fin 64)
  /-- HSTAT_WT, R227. -/
  | hstatWt (h : Hd) (d : Fin 64) (a : Fin 64)
  /-- HSTAT_REL, R227. -/
  | hstatRel (h : Hd) (d : Fin 64) (a : Fin 64)
  /-- HSTAT_ABORT, R227. -/
  | hstatAbort (h : Hd) (d : Fin 64) (a : Fin 64)
  /-- HCSUM_RD, R228. -/
  | hcsumRd (h : Hd) (d : Fin 64)
  /-- HCSUM_SET, R228. -/
  | hcsumSet (h : Hd) (a : Fin 64)
  /-- HCSUM_CHK, R228. -/
  | hcsumChk (h : Hd) (d : Fin 64) (a : Fin 64)
  /-- XCO, R237. -/
  | xco (h : Hd) (m : ReedM) (a : Fin 64)
  /-- XNEXT, R238. -/
  | xnext (h : Hd) (d : Fin 64) (b : Fin 64)
  /-- XCUR_RDL, R239. -/
  | xcurRdl (h : Hd) (d : Fin 64)
  /-- XCUR_RDH, R239. -/
  | xcurRdh (h : Hd) (d : Fin 64)
  /-- XCUR_WRL, R239. -/
  | xcurWrl (h : Hd) (a : Fin 64)
  /-- XCUR_WRH, R239. -/
  | xcurWrh (h : Hd) (a : Fin 64)
  /-- XCUR_CLR, R239. -/
  | xcurClr (h : Hd)
  /-- TNOW, R240. -/
  | tnow (h : Hd) (d : Fin 64)
  /-- TNOW_ST, R240. -/
  | tnowSt (h : Hd) (d : Fin 64)
  /-- TARM, R241. -/
  | tarm (h : Hd) (d : Fin 64) (a : Fin 64)
  /-- TARM_CLR, R241. -/
  | tarmClr (h : Hd) (d : Fin 64)
  /-- TIMER_FIRE, R241. -/
  | timerFire
  /-- TRAP, R242. -/
  | trap (h : Hd) (n : BitVec 16)
  /-- ERET, R326. -/
  | eret (h : Hd)
  /-- SRD, R242. -/
  | srd (h : Hd) (k : SReg) (d : Fin 64)
  /-- SWR, R16. -/
  | swr (h : Hd) (k : SReg) (a : Fin 64)
  /-- HALT, R244. -/
  | halt (h : Hd) (n : BitVec 16)
  /-- BKPT, R242. -/
  | bkpt (h : Hd) (n : BitVec 16)
  /-- YIELD, R242. -/
  | yield (h : Hd)
  /-- XINV_PG, R242. -/
  | xinvPg (h : Hd) (a : Fin 64) (b : Fin 64)
  /-- XINV_ALL, R242. -/
  | xinvAll (h : Hd) (a : Fin 64)
  /-- KEYZ, R371. -/
  | keyz (h : Hd) (a : Fin 64)
  /-- SCRUB_ST, R372. -/
  | scrubSt (h : Hd) (a : Fin 64)
  /-- SCRUB_RD, R372. -/
  | scrubRd (h : Hd) (d : Fin 64) (a : Fin 64)
  /-- SCRUB_WT, R372. -/
  | scrubWt (h : Hd) (a : Fin 64)
  /-- SCRUB_GRANULE, R373. -/
  | scrubGranule (die : Nat) (pid : Nat)
  /-- SCRUB_PENDING_START, R402. -/
  | scrubPendingStart (die : Nat)
  /-- FRQ_N, R242. -/
  | frqN (h : Hd) (d : Fin 64)
  /-- FRQ_POP, R242. -/
  | frqPop (h : Hd) (d : Fin 64) (a : Fin 64)
  /-- WFE, R243. -/
  | wfe (h : Hd) (m : BitVec 16) (d : Fin 64)
  /-- CNT, R245. -/
  | cnt (h : Hd) (k : CntK) (d : Fin 64)
  /-- RD, R235. -/
  | hrd (d : Fin 8) (i : BitVec 12)
  /-- WR, R235. -/
  | hwr (s : Fin 8) (i : BitVec 12)
  /-- CVT, R235. -/
  | hcvt (d : Fin 8) (s : Fin 8) (f : BitVec 5) (rm : Rm) (ov : Ov) (src : BitVec 5)
  /-- QNT, R235. -/
  | hqnt (d : Fin 8) (s : Fin 8) (f : BitVec 5) (rm : Rm) (ov : Ov) (src : BitVec 5) (mx : Bool)
  /-- FRM, R235. -/
  | hfrm (d : Fin 8) (s : Fin 8) (f : BitVec 5) (co : BitVec 8) (mx : Bool)
  /-- UNF, R235. -/
  | hunf (d : Fin 8) (s : Fin 8) (f : BitVec 5) (rm : Rm) (ov : Ov) (run : Bool)
  /-- XPS, R235. -/
  | hxps (d : Fin 8) (s : Fin 8) (f : BitVec 5) (i : BitVec 12)
  /-- PRM, R235. -/
  | hprm (d : Fin 8) (s : Fin 8) (f : BitVec 5) (i : BitVec 12)
  /-- PAK, R235. -/
  | hpak (d : Fin 8) (s : Fin 8) (pad : Bool)
  /-- FOLD, R235. -/
  | hfold (d : Fin 8) (s : Fin 8)
  /-- UNFOLD, R282. -/
  | hunfold (d : Fin 8) (s : Fin 8)
  /-- CRC, R235. -/
  | hcrc (s : Fin 8)
  /-- HSH, R235. -/
  | hhsh (s : Fin 8)
  /-- HEDDLE_LOOP, R235. -/
  | hloop (l : BitVec 6) (n : BitVec 6)
  /-- END, R233. -/
  | endPass
  /-- HEDDLE_NOP, R235. -/
  | hnop
  /-- QUEUE_DEADLOCK, R28. -/
  | queueDeadlock
  /-- TRAP_ENTRY, R325. -/
  | trapEntry
  /-- TRANSLATION_WALK, R339. -/
  | translationWalk (pid : Nat) (acc : Acc) (va : Nat)
  /-- BP_HIT, R342. -/
  | bpHit
  /-- DEBUG_HALT, R342. -/
  | debugHalt
  /-- DEBUG_RESUME, R342. -/
  | debugResume
  /-- STEP_A, R342. -/
  | stepA
  /-- STEP_X, R342. -/
  | stepX
  /-- DEBUG_READ, R342. -/
  | debugRead (off : Nat) (n : Nat)
  /-- DEBUG_WRITE, R343. -/
  | debugWrite (off : Nat) (val : Word)
  /-- BP, R342. -/
  | bp (k : Fin 4) (addr : Option Nat)
  /-- QUEUE_TAIL_READ, R299. -/
  | queueTailRead (q : Nat)
  /-- RECORD_PLACE, R305. -/
  | recordPlace
  /-- ALLOC_PREEMPT, R308. -/
  | allocPreempt
  /-- TIMED_LAUNCH, R313. -/
  | timedLaunch (id : Nat)
  /-- PREEMPT_REQUEST, R314. -/
  | preemptRequest (id : Nat)
  /-- PREEMPT_TIMEOUT, R314. -/
  | preemptTimeout
  /-- SAVE_COMPLETE, R315. -/
  | saveComplete (id : Nat)
  /-- RECORD_RESUME, R316. -/
  | recordResume (id : Nat)
  /-- KILL, R317. -/
  | kill (id : Nat)
  /-- TOKEN_REFILL, R309. -/
  | tokenRefill
  /-- TOKEN_CHARGE, R309. -/
  | tokenCharge
  /-- TRANSPORT_WRITE, R347. -/
  | transportWrite (n : NetAcc) (data : List Byte) (bar : Option (Word × Bool)) (unit : Option Nat)
  /-- TRANSPORT_READ, R347. -/
  | transportRead (n : NetAcc) (len : Nat) (unit : Option Nat)
  /-- TRANSPORT_ATOMIC, R347. -/
  | transportAtomic (n : NetAcc) (k : NetAtom) (size : Nat) (v : Word) (c : Word)
  /-- FABRIC_WRITE_PERFORM, R272. -/
  | fabricWritePerform (die : Nat) (k : Nat)
  /-- PORT_DOWN, R345. -/
  | portDown (port : Nat)
  /-- FEATURE_OFFER, R350. -/
  | featureOffer (m : MgmtReq)
  /-- FEATURE_ACCEPT, R350. -/
  | featureAccept (m : MgmtReq)
  /-- QUEUE_REG, R349. -/
  | queueReg (m : MgmtReq)
  /-- QUEUE_DEREG, R349. -/
  | queueDereg (m : MgmtReq)
  /-- FABRIC_MAP, R349. -/
  | fabricMap (m : MgmtReq)
  /-- XLAT_ROOT, R337. -/
  | xlatRoot (m : MgmtReq)
  /-- BAR_GRANT, R304. -/
  | barGrant (m : MgmtReq)
  /-- BAR_FREE, R349. -/
  | barFree (m : MgmtReq)
  /-- GANG_REG, R349. -/
  | gangReg (m : MgmtReq)
  /-- GANG_REQ, R349. -/
  | gangReq (m : MgmtReq)
  /-- TELE_RD, R349. -/
  | teleRd (m : MgmtReq)
  /-- SWITCH, R319. -/
  | gangSwitch (g : GangMsg)
  /-- CONFIRM, R319. -/
  | confirm (g : GangMsg)
  /-- GANG_STOP, R320. -/
  | gangStop (g : GangMsg)
  /-- GO, R321. -/
  | gangGo (g : GangMsg)
  /-- ACK, R320. -/
  | gangAck (g : GangMsg)
  /-- REFUSE, R320. -/
  | gangRefuse (g : GangMsg)
  /-- SWITCHED, R320. -/
  | gangSwitched (g : GangMsg)
  /-- LAPSED, R318. -/
  | gangLapsed (g : GangMsg)
  /-- GANG_WINDOW_LAPSE, R319. -/
  | gangWindowLapse (k : Nat)
  /-- GANG_SWITCH_TIME, R319. -/
  | gangSwitchTime (k : Nat)
  /-- SWITCHING_DONE, R319. -/
  | switchingDone (k : Nat)
  /-- STRAGGLER_TIMEOUT, R320. -/
  | stragglerTimeout (seq : Nat)
  /-- PTP_OFFSET, R357. -/
  | ptpOffset (port : Nat) (o : Int)
  /-- SYNC_TIMEOUT, R357. -/
  | syncTimeout
  /-- ANNOUNCE_TIMEOUT, R356. -/
  | announceTimeout (port : Nat)
  /-- HOLDOVER_EXPIRY, R357. -/
  | holdoverExpiry
  /-- PATROL_SCRUB, R274. -/
  | patrolScrub (line : Nat)
  /-- CREATE, R365. -/
  | create (pid : Nat)
  /-- STOP, R367. -/
  | stop (pid : Nat)
  /-- STOP_DRAINED, R367. -/
  | stopDrained (pid : Nat)
  /-- TEARDOWN, R369. -/
  | teardown (pid : Nat)
  /-- TEARDOWN_DONE, R369. -/
  | teardownDone (pid : Nat)
  /-- HARVEST, R368. -/
  | harvest (pid : Nat)
  /-- MEASURE, R374. -/
  | measure (pid : Nat)
  /-- RESUME, R364. -/
  | resume (pid : Nat)
  /-- ATTEST, R375. -/
  | attest (pid : Nat)
  /-- REPAIR, R377. -/
  | repair
  /-- REPAIR_TIMEOUT, R377. -/
  | repairTimeout (die : Nat)
  /-- MODULE_RESET, R380. -/
  | moduleReset
  /-- POWER_ON, R378. -/
  | powerOn
  /-- WATCHDOG_RESET, R380. -/
  | watchdogReset
  /-- THERMAL_RESET, R383. -/
  | thermalReset
  /-- BOOT_GO, R379. -/
  | bootGo (session : Nat)
  /-- THROTTLE, R382. -/
  | throttle (die : Nat)
  /-- THROTTLE_RECOVER, R382. -/
  | throttleRecover (die : Nat)
  /-- SOFT_ERROR, R274. -/
  | softError (u : Upset)
  /-- SESSION_BIND, R366. -/
  | sessionBind (session : Nat) (src4 : Nat) (src6 : Nat)
  /-- UNSUPPORTED_PACKET, R344. -/
  | unsupportedPacket (port : Nat)
deriving DecidableEq, Repr, Inhabited

end Sys2Proof
end

