-- ==== Sys2Proof/Config.lean ====
section
/-! DEFINITION. What an implementation fixes, and the values the spec leaves open. A constant without a body is a
free value: nothing can be proved of it but that it is there, so a claim holds whatever it is. -/

namespace Sys2Proof

/-- Who moves next. The module's agents run side by side and the spec gives no order among them beyond its ordering
rules, so the order is data of the state (log entry 1). -/
inductive Turn where
  /-- The A-pipe of a shuttle does one word: executes it, or dispatches it (R22). -/
  | apipe (r : Ref)
  /-- The A-pipe of a shuttle does one word, and a load it starts reads later (R118, R283). -/
  | apipeLate (r : Ref)
  /-- A load that has started reads: a core's, by its place in the list of those under way (R126). -/
  | loadReturn (core k : Nat)
  /-- The X-pipe of a shuttle tries to issue the oldest entry of its X queue (R22, R30). -/
  | xpipe (r : Ref)
  /-- The same, and a vector load it issues reads later (R149, R153, R283). -/
  | xpipeLate (r : Ref)
  /-- The same as `xpipe`, and a column instruction puts out so many elements at most in this turn (R218, R219). -/
  | xpipePart (r : Ref) (n : Nat)
  /-- The heddle of a core moves the next piece of a chunk of a command, or runs its next micro-op (R224, R233). -/
  | heddle (core slot chunk : Nat)
  /-- One cycle of a core passes. -/
  | clock (core : Nat)
  /-- The gnomon counts on by some quarters of a nanosecond (R240). -/
  | gnomon (dt : Nat)
  /-- The engine of a core is reset (R138, R225). -/
  | engineReset (core : Nat)
  /-- A translation that is installed is dropped by the device on its own (R341 lets it walk anew at any time). -/
  | dropXlat (k : Nat)
  /-- A peer module answers for a chunk, or a unit of a chunk, of an `hfab` command (R352): the port it comes in on, the cause and detail of
  its error response, 0 for none (R347), whether the barrier was refused (R229), the bytes of a get, and which of them are poisoned. -/
  | ack (core slot chunk port cause detail : Nat) (refused : Bool) (data : List Byte) (bad : List (Nat × Nat))
  /-- The management profile, over a connection, sets a port's IPv4 address and its IPv6 address, high half and low half (R344). -/
  | portIp (conn port : Nat) (v4 hi lo : Word)
  /-- The management profile, over a connection, sets the PTP domain number and the ports of the primary and the backup time source (R356). -/
  | ptpSet (conn domain primary backup : Nat)
  /-- A gang message comes from a module over a connection, as its 4 words (R318). -/
  | gang (conn sender : Nat) (words : List Word)
  /-- A debug request (opcode 0x60 of R349) comes, at a shuttle or its core: the event of the opcode table it asks for, with the session, the
  partition and the identity it came with. -/
  | debug (r : Ref) (m : MgmtReq) (i : Instr)
  /-- A management request of an opcode that R349 does not list. -/
  | request (op : Nat) (m : MgmtReq)
  /-- A step of the opcode table that no program word names, at a shuttle (its core, for a step of the core). -/
  | event (r : Ref) (i : Instr)
deriving DecidableEq, Repr, Inhabited

namespace Config

/-- Who moves next once the schedule of the state is used up: free, one choice for every count. -/
opaque freeTurn : Nat → Turn

/-- What a byte reads whose contents the spec leaves undefined, by the count of the event that left it so and its address
(R139 rule on chunks, R213, R224, R225, R276, R306). -/
opaque freeByte : Nat → Nat → Byte

/-- The signature of attestation (R375), as bytes: the module's identity key is inside the part. -/
opaque signature : List Byte → List Byte

/-- The public key of the module's identity (R375). -/
opaque identityKey : Nat → Byte

/-- Whether a firmware image, given as its bytes, verifies against the fused root key and minimum version (R379). -/
opaque imageVerifies : List Byte → Bool

/-- Whether the reset, self-test and firmware load of a die under repair succeed (R377), by the count of the repair. -/
opaque repairSucceeds : Nat → Bool

/-- Values read by telemetry that only the device's sensors and ports know (R349 group 2, R383): one for every count and word, for the ports
they are of (R376), and for those ports' counts of packets dropped, which they hold (R344). -/
opaque telemetry : Nat → Nat → List Nat → List (Nat × Nat) → Word

end Config

end Sys2Proof
end

