-- ==== Sys2Proof/WellFormed.lean ====
section
/-! DEFINITION. Which terms of `Instr` are instructions: the register files of R70, the ranges of the entries and the
coded values they define. -/

namespace Sys2Proof

/-- The guard is a predicate 0 to 47, or 63 for none (R14). -/
def optPred (p : Fin 64) : Bool := decide (p.val < 48 ∨ p.val = 63)

/-- Guard of an X-class instruction. -/
def Hd.wf (h : Hd) : Bool := optPred h.gd

/-- Guard and wait of an A-class instruction, whose wait is zero (R30). -/
def Hd.wfA (h : Hd) : Bool := optPred h.gd && decide (h.w.val = 0)

/-- An unguarded instruction with no wait. -/
def Hd.free : Hd := { gd := 63, ng := false, w := 0 }

/-- What `cres` may continue (R196): the op of R74 less 0xA0 and the fn of an instruction that stops at capacity, with
operands that instruction could have. -/
def cresWf (o f : BitVec 4) (d a b e : Fin 64) : Bool :=
  match o.toNat with
  | 2 => f == 0 && decide (d.val < 16) && e == 0
  | 3 => decide (f.toNat % 8 ≤ 5 ∧ d.val < 16 ∧ a.val < 16) && (decide (f.toNat < 8) || decide (b.val < 16)) && e == 0
  | 4 => decide (f.toNat ≤ 5 ∧ d.val < 16 ∧ a.val < 16 ∧ b.val < 16)
  | 5 => f == 0 && decide (d.val < 16 ∧ a.val < 16 ∧ b.val < 16) && e == 0
  | 7 => decide (f.toNat ≤ 2 ∧ d.val < 16 ∧ a.val < 16 ∧ b.val < 16) && (f != 0 || d != 15) && e == 0
  | 9 => f == 0 && decide (d.val < 16 ∧ a.val < 16) && b == 0 && e == 0
  | 10 => decide (f.toNat % 8 ≤ 3 ∧ d.val < 16 ∧ a.val < 16 ∧ b.val < 16) && e == 0
  | 11 => decide (f.toNat ≤ 1 ∧ d.val < 16 ∧ a.val < 16) && b == 0 && e == 0
  | 14 => f == 1 && decide (d.val < 16) && b == 0 && e == 0
  | _ => false

/-- Whether a term is an instruction, micro-op or event of the part. A micro-op's coded formats are those its entry
defines (R83, R235). -/
def Instr.wf : Instr → Bool
  | .add h _ _ _ => h.wfA
  | .sub h _ _ _ => h.wfA
  | .mul h _ _ _ => h.wfA
  | .mulh h _ _ _ _ => h.wfA
  | .div h _ _ _ _ => h.wfA
  | .rem h _ _ _ _ => h.wfA
  | .and h _ _ _ => h.wfA
  | .or h _ _ _ => h.wfA
  | .xor h _ _ _ => h.wfA
  | .sll h _ _ _ => h.wfA
  | .srl h _ _ _ => h.wfA
  | .sra h _ _ _ _ => h.wfA
  | .min h _ _ _ _ => h.wfA
  | .max h _ _ _ _ => h.wfA
  | .clz h _ _ => h.wfA
  | .ctz h _ _ => h.wfA
  | .popc h _ _ => h.wfA
  | .addi h _ _ _ => h.wfA
  | .andi h _ _ _ => h.wfA
  | .ori h _ _ _ => h.wfA
  | .xori h _ _ _ => h.wfA
  | .shi h _ _ _ _ => h.wfA
  | .li h _ _ _ => h.wfA
  | .lih h _ _ _ => h.wfA
  | .addpc h _ _ => h.wfA
  | .sel h _ _ _ e => h.wfA && decide (e.val < 48)
  | .pcmp h _ d _ _ => h.wfA && decide (d.val < 48)
  | .pcmpi h k d _ _ => h.wfA && decide (d.val < 48) && k.code < 4
  | .plog h _ d a b => h.wf && decide (d.val < 48) && decide (a.val < 48) && decide (b.val < 48)
  | .psetAll h _ d => h.wf && decide (d.val < 48)
  | .psetLt h d _ _ => h.wf && decide (d.val < 48)
  | .psetMod h d imm => h.wf && decide (d.val < 48) && decide (1 ≤ imm.toNat ∧ imm.toNat ≤ 4096)
  | .psetBits h d _ => h.wf && decide (d.val < 48)
  | .pcnt h _ a => h.wf && decide (a.val < 48)
  | .pfirst h _ a => h.wf && decide (a.val < 48)
  | .br h _ _ _ => h.wfA
  | .jmp h _ => h.wfA
  | .call h _ _ => h.wfA
  | .ret h _ => h.wfA
  | .jr h _ _ => h.wfA
  | .loop h _ d _ disp => h.wfA && decide (d.val < 3) && decide (2 ≤ disp.toNat ∧ disp.toNat ≤ 257)
  | .loopx h k d _ disp => h.wfA && decide (d.val < 48) && decide (k.toNat ≤ 2 ∧ 2 ≤ disp.toNat ∧ disp.toNat ≤ 257)
  | .loopEnd => true
  | .xsync h => h.wfA
  | .xsyncI h => h.wfA
  | .xnop h _ => h.wf
  | .nop h => h.wfA
  | .ld h _ _ _ _ _ _ => h.wfA
  | .st h _ _ _ _ _ => h.wfA
  | .stnb h _ _ _ _ => h.wfA
  | .ldq h _ _ d _ _ => h.wfA && decide (d.val < 6)
  | .ldqG h d _ _ => h.wfA && decide (d.val < 6)
  | .ldqX h d _ => h.wfA && decide (d.val < 6)
  | .ldqR h _ a => h.wfA && decide (a.val = 6 ∨ a.val = 7)
  | .qmovXq h _ a => h.wf && decide (a.val < 6)
  | .qmovQx h d _ => h.wf && decide (d.val = 6 ∨ d.val = 7)
  | .qmovQq h d a => h.wf && decide (d.val = 6 ∨ d.val = 7) && decide (a.val < 6)
  | .amo h k dw _ _ _ _ _ => h.wfA && (k != .fadd || !dw)
  | .amocas h _ _ _ _ _ _ => h.wfA
  | .red h k dw _ _ _ => h.wfA && (k != .swap && (k != .fadd || !dw))
  | .fas h t _ _ _ _ => h.wf && [EType.i32, .i64, .n32, .n64, .f32].contains t
  | .fence h => h.wfA
  | .fenceWl h => h.wfA
  | .fenceXa h => h.wfA
  | .barInit h _ _ => h.wfA
  | .barArv h n _ _ b => h.wfA && (n || b == 0)
  | .barExp h _ _ => h.wfA
  | .barWt h _ _ _ => h.wf
  | .barTwt h _ _ _ _ => h.wf
  | .barTwtDeadline => true
  | .tileStRd h _ _ => h.wfA
  | .tileStArm h _ _ _ => h.wfA
  | .tileStDone h _ _ => h.wfA
  | .tileStAbort h _ _ => h.wfA
  | .tileStRel h _ _ => h.wfA
  | .tileWt h _ _ => h.wf
  | .wlb h _ _ => h.wfA
  | .wlbWt h _ _ => h.wfA
  | .writeLanePerform _ => true
  | .wlbudRefill => true
  | .vsetl h _ mx _ _ _ a => h.wf && (!mx || a == 0)
  | .vld h _ _ _ _ => h.wf
  | .vlds h t _ _ _ _ => h.wf && t != .f4
  | .vldx h t _ _ _ _ _ pm _ => h.wf && optPred pm && t != .f4
  | .vst h _ _ _ _ => h.wf
  | .vsts h t _ _ _ _ => h.wf && t != .f4
  | .vstx h t _ _ _ _ _ _ => h.wf && t != .f4
  | .vldq h _ _ a => h.wf && decide (a.val < 6)
  | .vadd h _ _ _ _ _ _ => h.wf
  | .vsub h _ _ _ _ _ _ => h.wf
  | .vmul h _ _ _ _ _ _ => h.wf
  | .vfma h _ _ _ _ _ _ => h.wf
  | .vfms h _ _ _ _ _ _ => h.wf
  | .vmin h _ _ _ _ => h.wf
  | .vmax h _ _ _ _ => h.wf
  | .vabs h _ _ _ => h.wf
  | .vneg h _ _ _ => h.wf
  | .vand h _ _ _ _ => h.wf
  | .vor h _ _ _ _ => h.wf
  | .vxor h _ _ _ _ => h.wf
  | .vsll h k _ _ b imm => h.wf && ((k == .vi || imm == 0) && (k != .vi || b == 0))
  | .vsrl h k _ _ b imm => h.wf && ((k == .vi || imm == 0) && (k != .vi || b == 0))
  | .vsra h k r rm _ _ b imm => h.wf && ((k == .vi || imm == 0) && (k != .vi || b == 0)) && (r || rm == .hu)
  | .vmulh h _ _ _ _ => h.wf
  | .vdot2 h _ _ _ _ _ => h.wf
  | .vmacw h _ _ _ _ _ => h.wf
  | .vnarrow h _ _ _ n _ _ => h.wf && decide (n.toNat ≤ 127)
  | .vwiden h _ _ _ => h.wf
  | .vcvt h _ _ _ _ _ => h.wf
  | .vcmp h _ _ d _ _ => h.wf && decide (d.val < 48)
  | .vsel h _ _ _ e => h.wf && decide (e.val < 48)
  | .vslide h _ vi _ _ b imm => h.wf && ((vi || imm == 0) && (!vi || b == 0))
  | .vperm h t2 _ _ _ => h.wf && [EType.n8, .n16, .n32, .n64].contains t2
  | .vbcast h _ _ => h.wf
  | .vbcastEl h _ _ _ => h.wf
  | .vmovx h _ _ _ => h.wf
  | .vmovxV h _ _ _ => h.wf
  | .vred h _ _ _ _ => h.wf
  | .vredo h _ _ _ => h.wf
  | .vscan h _ _ _ => h.wf
  | .viota h _ a => h.wf && decide (a.val < 48)
  | .viotaIdx h _ => h.wf
  | .vcompress h _ _ b => h.wf && decide (b.val < 48)
  | .vexpand h _ _ b => h.wf && decide (b.val < 48)
  | .vsfu h _ _ _ _ => h.wf
  | .vscl h _ k _ _ _ => h.wf && decide (k.toNat ≤ 12)
  | .vpush h _ sc _ b => h.wf && (sc || b == 0)
  | .mtl h d _ _ _ => h.wf && decide (1 ≤ d.val ∧ d.val ≤ 61)
  | .mbind h _ src t a => h.wf && ((src != .none || t == .e4) && (src == .heddle || a == 0))
  | .mfill h _ _ _ _ _ _ _ => h.wf
  | .mma h _ ta tb _ _ _ _ => h.wf && (ta == tb || ([MType.e4, .e5].contains ta && [MType.e4, .e5].contains tb))
  | .mzero h _ => h.wf
  | .mrd h _ _ _ _ _ => h.wf
  | .mwr h _ _ _ => h.wf
  | .mbs h _ _ => h.wf
  | .mbsRd h _ _ => h.wf
  | .mdrain h ty _ _ _ _ _ _ _ => h.wf && (ty != .i64 && ty != .n64)
  | .mownAcq h _ => h.wf
  | .mownTry h _ => h.wf
  | .mownRel h => h.wf
  | .mownRd h _ => h.wf
  | .holdLimit => true
  | .cdefArena h _ _ _ => h.wf
  | .cdefT h t d _ _ => h.wf && decide (d.val < 16) && t != .f4
  | .cdefLen h d _ => h.wf && decide (d.val < 16)
  | .clen h _ a => h.wf && decide (a.val < 16)
  | .clenCap h _ a => h.wf && decide (a.val < 16)
  | .clenDesc h _ a => h.wf && decide (a.val < 16)
  | .clenArena h _ => h.wf
  | .cld h d _ _ _ pp => h.wf && decide (d.val < 16) && optPred pp
  | .cldSt h d _ _ => h.wf && decide (d.val < 16)
  | .csel h _ cc d a b _ pp => h.wf && decide (d.val < 16) && decide (a.val < 16) && optPred pp && (!cc || decide (b.val < 16))
  | .cselp h _ d a b _ _ pp => h.wf && decide (d.val < 16) && decide (a.val < 16) && decide (b.val < 16) && optPred pp
  | .cgath h d a b _ pp => h.wf && decide (d.val < 16) && decide (a.val < 16) && decide (b.val < 16) && optPred pp
  | .cscat h _ d _ b _ => h.wf && decide (d.val < 16) && decide (b.val < 16)
  | .cjoin h k d a b _ pp => h.wf && decide (d.val < 16) && decide (a.val < 16) && decide (b.val < 16) && optPred pp && (k != .inner || d != 15)
  | .csort h _ _ d a _ => h.wf && decide (d.val < 16) && decide (a.val < 16)
  | .cgrp h d a _ pp => h.wf && decide (d.val < 16) && decide (a.val < 16) && optPred pp
  | .cagg h _ _ d a b _ pp => h.wf && decide (d.val < 16) && decide (a.val < 16) && decide (b.val < 16) && optPred pp
  | .cuniq h _ d a _ pp => h.wf && decide (d.val < 16) && decide (a.val < 16) && optPred pp
  | .cres h o f d a b e _ pp => h.wf && optPred pp && cresWf o f d a b e
  | .ccurClr h => h.wf
  | .ccurRd h _ => h.wf
  | .ccurWr h _ => h.wf
  | .cvecLd h _ a _ _ => h.wf && decide (a.val < 16)
  | .cvecApp h d _ _ pp => h.wf && decide (d.val < 16) && optPred pp
  | .hcopy h _ ts _ _ _ _ _ _ _ pm t => h.wfA && optPred pm && (ts || t == 0)
  | .hxfm h ts _ _ _ _ pm t => h.wfA && optPred pm && (ts || t == 0)
  | .hprog h _ _ => h.wfA
  | .hfab h _ _ _ _ _ _ _ _ _ _ pm _ => h.wfA && optPred pm
  | .chunkFinish _ _ => true
  | .peerTimeout _ => true
  | .hstatRd h _ _ => h.wfA
  | .hstatWt h _ _ => h.wfA
  | .hstatRel h _ _ => h.wfA
  | .hstatAbort h _ _ => h.wfA
  | .hcsumRd h _ => h.wfA
  | .hcsumSet h _ => h.wfA
  | .hcsumChk h _ _ => h.wfA
  | .xco h _ _ => h.wf
  | .xnext h _ _ => h.wf
  | .xcurRdl h _ => h.wf
  | .xcurRdh h _ => h.wf
  | .xcurWrl h _ => h.wf
  | .xcurWrh h _ => h.wf
  | .xcurClr h => h.wf
  | .tnow h _ => h.wfA
  | .tnowSt h _ => h.wfA
  | .tarm h _ _ => h.wfA
  | .tarmClr h _ => h.wfA
  | .timerFire => true
  | .trap h _ => h.wfA
  | .eret h => h.wfA
  | .srd h _ _ => h.wfA
  | .swr h _ _ => h.wfA
  | .halt h _ => h.wfA
  | .bkpt h _ => h.wfA
  | .yield h => h.wfA
  | .xinvPg h _ _ => h.wfA
  | .xinvAll h _ => h.wfA
  | .keyz h _ => h.wfA
  | .scrubSt h _ => h.wfA
  | .scrubRd h _ _ => h.wfA
  | .scrubWt h _ => h.wfA
  | .scrubGranule _ _ => true
  | .scrubPendingStart _ => true
  | .frqN h _ => h.wfA
  | .frqPop h _ _ => h.wfA
  | .wfe h _ _ => h.wfA
  | .cnt h _ _ => h.wfA
  | .hrd _ _ => true
  | .hwr _ _ => true
  | .hcvt _ _ f _ _ src => decide (f.toNat ≤ 15 ∧ src.toNat ≤ 15)
  | .hqnt _ _ f _ _ src _ => ([0, 11, 12, 13].contains f.toNat && [8, 9, 10].contains src.toNat)
  | .hfrm _ _ f _ _ => [0, 9, 11, 12, 13].contains f.toNat
  | .hunf _ _ f _ _ run => (decide (f.toNat ≤ 13) && (!run || f.toNat == 0))
  | .hxps _ _ f _ => decide (f.toNat ≤ 15)
  | .hprm _ _ f _ => decide (f.toNat ≤ 15)
  | .hpak _ _ _ => true
  | .hfold _ _ => true
  | .hunfold _ _ => true
  | .hcrc _ => true
  | .hhsh _ => true
  | .hloop l _ => decide (1 ≤ l.toNat ∧ l.toNat ≤ 31)
  | .endPass => true
  | .hnop => true
  | .queueDeadlock => true
  | .trapEntry => true
  | .translationWalk _ _ _ => true
  | .bpHit => true
  | .debugHalt => true
  | .debugResume => true
  | .stepA => true
  | .stepX => true
  | .debugRead _ _ => true
  | .debugWrite _ _ => true
  | .bp _ _ => true
  | .queueTailRead _ => true
  | .recordPlace => true
  | .allocPreempt => true
  | .timedLaunch _ => true
  | .preemptRequest _ => true
  | .preemptTimeout => true
  | .saveComplete _ => true
  | .recordResume _ => true
  | .kill _ => true
  | .tokenRefill => true
  | .tokenCharge => true
  | .transportWrite _ _ _ _ => true
  | .transportRead _ _ _ => true
  | .transportAtomic _ _ _ _ _ => true
  | .fabricWritePerform _ _ => true
  | .portDown _ => true
  | .featureOffer _ => true
  | .featureAccept _ => true
  | .queueReg _ => true
  | .queueDereg _ => true
  | .fabricMap _ => true
  | .xlatRoot _ => true
  | .barGrant _ => true
  | .barFree _ => true
  | .gangReg _ => true
  | .gangReq _ => true
  | .teleRd _ => true
  | .gangSwitch _ => true
  | .confirm _ => true
  | .gangStop _ => true
  | .gangGo _ => true
  | .gangAck _ => true
  | .gangRefuse _ => true
  | .gangSwitched _ => true
  | .gangLapsed _ => true
  | .gangWindowLapse _ => true
  | .gangSwitchTime _ => true
  | .switchingDone _ => true
  | .stragglerTimeout _ => true
  | .ptpOffset _ _ => true
  | .syncTimeout => true
  | .announceTimeout _ => true
  | .holdoverExpiry => true
  | .patrolScrub _ => true
  | .create _ => true
  | .stop _ => true
  | .stopDrained _ => true
  | .teardown _ => true
  | .teardownDone _ => true
  | .harvest _ => true
  | .measure _ => true
  | .resume _ => true
  | .attest _ => true
  | .repair => true
  | .repairTimeout _ => true
  | .moduleReset => true
  | .powerOn => true
  | .watchdogReset => true
  | .thermalReset => true
  | .bootGo _ => true
  | .throttle _ => true
  | .throttleRecover _ => true
  | .softError _ => true
  | .sessionBind _ _ _ => true
  | .unsupportedPacket _ => true

end Sys2Proof
end

