-- ==== Sys2Proof/Decode.lean ====
section
/-! DEFINITION. The words of instructions and micro-ops (R69 to R76, R82, R83 and the entries), both ways: `encode` lays
the fields out, `decode` reads a word, and `scanReason` says why a word is refused (R79, reasons 1 to 7). -/

namespace Sys2Proof

/-- The fields every word has (R69), and bits [33:0]. -/
structure Raw where
  op : Nat
  h  : Hd
  d  : Nat
  a  : Nat
  lo : Nat
deriving DecidableEq, Repr

/-- What a row of the opcode table is. -/
inductive Kind where | aClass | xClass | micro | event
deriving DecidableEq, Repr

/-- What a field of a word must be (R70, R71, R79): zero; a predicate, column or loop counter; a data or return queue;
an optional predicate; the first of three registers of `mtl`; a column with a next one. -/
inductive FieldRule where | zero | pr | col | lc | dq | rq | opt | mtlD | pairD
deriving DecidableEq, Repr

/-- A 6-bit field as a register number. -/
def reg (n : Nat) : Fin 64 := Fin.ofNat 64 n

/-- The 64-bit word of the fields of R69 over bits [33:0]. -/
def pack (op : Nat) (h : Hd) (d a lo : Nat) : Nat :=
  lo + 2 ^ 34 * (a + 2 ^ 6 * (d + 2 ^ 6 * (h.ng.toNat + 2 * (h.gd.val + 2 ^ 6 * (h.w.val + 2 ^ 3 * op)))))

/-- The fields of a word (R69). -/
def unpack (w : Nat) : Raw :=
  { op := bitsAt w 56 8
    h := { gd := reg (bitsAt w 47 6), ng := bitAt w 46, w := Fin.ofNat 8 (bitsAt w 53 3) }
    d := bitsAt w 40 6
    a := bitsAt w 34 6
    lo := bitsAt w 0 34 }

/-- Format S (R72). -/
def loS (s2 s3 fn : Nat) : Nat := fn * 2 ^ 14 + s3 * 2 ^ 22 + s2 * 2 ^ 28
/-- Format I (R72). -/
def loI (fn imm : Nat) : Nat := imm + fn * 2 ^ 32
/-- Format M (R72). -/
def loM (s2 sz sx fn off : Nat) : Nat := off + fn * 2 ^ 20 + sx * 2 ^ 24 + sz * 2 ^ 25 + s2 * 2 ^ 28
/-- Format V (R72). -/
def loV (s2 s3 rm ov et2 fn imm8 : Nat) : Nat :=
  imm8 + fn * 2 ^ 8 + et2 * 2 ^ 14 + ov * 2 ^ 18 + rm * 2 ^ 20 + s3 * 2 ^ 22 + s2 * 2 ^ 28
/-- Format W (R72). -/
def loW (s2 pm et fn off : Nat) : Nat := off + fn * 2 ^ 14 + et * 2 ^ 18 + pm * 2 ^ 22 + s2 * 2 ^ 28
/-- Format C (R72). -/
def loC (s2 s3 pp fn imm8 : Nat) : Nat := imm8 + fn * 2 ^ 8 + pp * 2 ^ 16 + s3 * 2 ^ 22 + s2 * 2 ^ 28
/-- Format E (R72). -/
def loE (s2 s3 pm tile fn : Nat) : Nat := fn + tile * 2 ^ 8 + pm * 2 ^ 16 + s3 * 2 ^ 22 + s2 * 2 ^ 28
/-- Format B (R72). -/
def loB (fn disp : Nat) : Nat := disp + fn * 2 ^ 32
/-- Format Y (R72). -/
def loY (s2 sel imm16 : Nat) : Nat := imm16 + sel * 2 ^ 16 + s2 * 2 ^ 28

/-- fn bits of the second source of a shift: [0] `.vx`, [2] `.vi` (R154). -/
def src2Fn : Src2 → Nat
  | .vv => 0
  | .vx => 1
  | .vi => 4

/-- The second source a shift's fn names. -/
def src2Of (fn : Nat) : Option Src2 :=
  if bitAt fn 0 && bitAt fn 2 then none else if bitAt fn 0 then some .vx else if bitAt fn 2 then some .vi else some .vv

/-- Fields of a shift that its second source leaves unused (R154). -/
def shiftRules (r : Raw) : List (Nat × Nat × FieldRule) :=
  if bitAt r.lo 10 then [(28, 6, .zero)] else [(0, 8, .zero)]

/-- Fields of a `cres`, which are those of the instruction it continues (R196). -/
def cresFieldRules (r : Raw) : List (Nat × Nat × FieldRule) :=
  let o := bitsAt r.lo 12 4
  let f := bitsAt r.lo 8 4
  (6, 2, .zero) :: (16, 6, .opt) ::
    (if o = 2 then [(40, 6, .col), (22, 6, .zero)]
     else if o = 3 then [(40, 6, .col), (34, 6, .col), (22, 6, .zero)] ++ (if f < 8 then [] else [(28, 6, .col)])
     else if o = 4 then [(40, 6, .col), (34, 6, .col), (28, 6, .col)]
     else if o = 5 || o = 7 || o = 10 then
       [(40, 6, .col), (34, 6, .col), (28, 6, .col), (22, 6, .zero)] ++ (if o = 7 && f = 0 then [(40, 6, .pairD)] else [])
     else if o = 9 || o = 11 then [(40, 6, .col), (34, 6, .col), (28, 6, .zero), (22, 6, .zero)]
     else if o = 14 then [(40, 6, .col), (28, 6, .zero), (22, 6, .zero)]
     else [])

/-- What a row of the opcode table is: an instruction of class A or X (R21, R75), a micro-op or an event. -/
def Instr.kind : Instr → Kind
  | .add _ _ _ _ => .aClass
  | .sub _ _ _ _ => .aClass
  | .mul _ _ _ _ => .aClass
  | .mulh _ _ _ _ _ => .aClass
  | .div _ _ _ _ _ => .aClass
  | .rem _ _ _ _ _ => .aClass
  | .and _ _ _ _ => .aClass
  | .or _ _ _ _ => .aClass
  | .xor _ _ _ _ => .aClass
  | .sll _ _ _ _ => .aClass
  | .srl _ _ _ _ => .aClass
  | .sra _ _ _ _ _ => .aClass
  | .min _ _ _ _ _ => .aClass
  | .max _ _ _ _ _ => .aClass
  | .clz _ _ _ => .aClass
  | .ctz _ _ _ => .aClass
  | .popc _ _ _ => .aClass
  | .addi _ _ _ _ => .aClass
  | .andi _ _ _ _ => .aClass
  | .ori _ _ _ _ => .aClass
  | .xori _ _ _ _ => .aClass
  | .shi _ _ _ _ _ => .aClass
  | .li _ _ _ _ => .aClass
  | .lih _ _ _ _ => .aClass
  | .addpc _ _ _ => .aClass
  | .sel _ _ _ _ _ => .aClass
  | .pcmp _ _ _ _ _ => .aClass
  | .pcmpi _ _ _ _ _ => .aClass
  | .plog _ _ _ _ _ => .xClass
  | .psetAll _ _ _ => .xClass
  | .psetLt _ _ _ _ => .xClass
  | .psetMod _ _ _ => .xClass
  | .psetBits _ _ _ => .xClass
  | .pcnt _ _ _ => .xClass
  | .pfirst _ _ _ => .xClass
  | .br _ _ _ _ => .aClass
  | .jmp _ _ => .aClass
  | .call _ _ _ => .aClass
  | .ret _ _ => .aClass
  | .jr _ _ _ => .aClass
  | .loop _ _ _ _ _ => .aClass
  | .loopx _ _ _ _ _ => .aClass
  | .loopEnd => .event
  | .xsync _ => .aClass
  | .xsyncI _ => .aClass
  | .xnop _ _ => .xClass
  | .nop _ => .aClass
  | .ld _ _ _ _ _ _ _ => .aClass
  | .st _ _ _ _ _ _ => .aClass
  | .stnb _ _ _ _ _ => .aClass
  | .ldq _ _ _ _ _ _ => .aClass
  | .ldqG _ _ _ _ => .aClass
  | .ldqX _ _ _ => .aClass
  | .ldqR _ _ _ => .aClass
  | .qmovXq _ _ _ => .xClass
  | .qmovQx _ _ _ => .xClass
  | .qmovQq _ _ _ => .xClass
  | .amo _ _ _ _ _ _ _ _ => .aClass
  | .amocas _ _ _ _ _ _ _ => .aClass
  | .red _ _ _ _ _ _ => .aClass
  | .fas _ _ _ _ _ _ => .xClass
  | .fence _ => .aClass
  | .fenceWl _ => .aClass
  | .fenceXa _ => .aClass
  | .barInit _ _ _ => .aClass
  | .barArv _ _ _ _ _ => .aClass
  | .barExp _ _ _ => .aClass
  | .barWt _ _ _ _ => .xClass
  | .barTwt _ _ _ _ _ => .xClass
  | .barTwtDeadline => .event
  | .tileStRd _ _ _ => .aClass
  | .tileStArm _ _ _ _ => .aClass
  | .tileStDone _ _ _ => .aClass
  | .tileStAbort _ _ _ => .aClass
  | .tileStRel _ _ _ => .aClass
  | .tileWt _ _ _ => .xClass
  | .wlb _ _ _ => .aClass
  | .wlbWt _ _ _ => .aClass
  | .writeLanePerform _ => .event
  | .wlbudRefill => .event
  | .vsetl _ _ _ _ _ _ _ => .xClass
  | .vld _ _ _ _ _ => .xClass
  | .vlds _ _ _ _ _ _ => .xClass
  | .vldx _ _ _ _ _ _ _ _ _ => .xClass
  | .vst _ _ _ _ _ => .xClass
  | .vsts _ _ _ _ _ _ => .xClass
  | .vstx _ _ _ _ _ _ _ _ => .xClass
  | .vldq _ _ _ _ => .xClass
  | .vadd _ _ _ _ _ _ _ => .xClass
  | .vsub _ _ _ _ _ _ _ => .xClass
  | .vmul _ _ _ _ _ _ _ => .xClass
  | .vfma _ _ _ _ _ _ _ => .xClass
  | .vfms _ _ _ _ _ _ _ => .xClass
  | .vmin _ _ _ _ _ => .xClass
  | .vmax _ _ _ _ _ => .xClass
  | .vabs _ _ _ _ => .xClass
  | .vneg _ _ _ _ => .xClass
  | .vand _ _ _ _ _ => .xClass
  | .vor _ _ _ _ _ => .xClass
  | .vxor _ _ _ _ _ => .xClass
  | .vsll _ _ _ _ _ _ => .xClass
  | .vsrl _ _ _ _ _ _ => .xClass
  | .vsra _ _ _ _ _ _ _ _ => .xClass
  | .vmulh _ _ _ _ _ => .xClass
  | .vdot2 _ _ _ _ _ _ => .xClass
  | .vmacw _ _ _ _ _ _ => .xClass
  | .vnarrow _ _ _ _ _ _ _ => .xClass
  | .vwiden _ _ _ _ => .xClass
  | .vcvt _ _ _ _ _ _ => .xClass
  | .vcmp _ _ _ _ _ _ => .xClass
  | .vsel _ _ _ _ _ => .xClass
  | .vslide _ _ _ _ _ _ _ => .xClass
  | .vperm _ _ _ _ _ => .xClass
  | .vbcast _ _ _ => .xClass
  | .vbcastEl _ _ _ _ => .xClass
  | .vmovx _ _ _ _ => .xClass
  | .vmovxV _ _ _ _ => .xClass
  | .vred _ _ _ _ _ => .xClass
  | .vredo _ _ _ _ => .xClass
  | .vscan _ _ _ _ => .xClass
  | .viota _ _ _ => .xClass
  | .viotaIdx _ _ => .xClass
  | .vcompress _ _ _ _ => .xClass
  | .vexpand _ _ _ _ => .xClass
  | .vsfu _ _ _ _ _ => .xClass
  | .vscl _ _ _ _ _ _ => .xClass
  | .vpush _ _ _ _ _ => .xClass
  | .mtl _ _ _ _ _ => .xClass
  | .mbind _ _ _ _ _ => .xClass
  | .mfill _ _ _ _ _ _ _ _ => .xClass
  | .mma _ _ _ _ _ _ _ _ => .xClass
  | .mzero _ _ => .xClass
  | .mrd _ _ _ _ _ _ => .xClass
  | .mwr _ _ _ _ => .xClass
  | .mbs _ _ _ => .xClass
  | .mbsRd _ _ _ => .xClass
  | .mdrain _ _ _ _ _ _ _ _ _ => .xClass
  | .mownAcq _ _ => .xClass
  | .mownTry _ _ => .xClass
  | .mownRel _ => .xClass
  | .mownRd _ _ => .xClass
  | .holdLimit => .event
  | .cdefArena _ _ _ _ => .xClass
  | .cdefT _ _ _ _ _ => .xClass
  | .cdefLen _ _ _ => .xClass
  | .clen _ _ _ => .xClass
  | .clenCap _ _ _ => .xClass
  | .clenDesc _ _ _ => .xClass
  | .clenArena _ _ => .xClass
  | .cld _ _ _ _ _ _ => .xClass
  | .cldSt _ _ _ _ => .xClass
  | .csel _ _ _ _ _ _ _ _ => .xClass
  | .cselp _ _ _ _ _ _ _ _ => .xClass
  | .cgath _ _ _ _ _ _ => .xClass
  | .cscat _ _ _ _ _ _ => .xClass
  | .cjoin _ _ _ _ _ _ _ => .xClass
  | .csort _ _ _ _ _ _ => .xClass
  | .cgrp _ _ _ _ _ => .xClass
  | .cagg _ _ _ _ _ _ _ _ => .xClass
  | .cuniq _ _ _ _ _ _ => .xClass
  | .cres _ _ _ _ _ _ _ _ _ => .xClass
  | .ccurClr _ => .xClass
  | .ccurRd _ _ => .xClass
  | .ccurWr _ _ => .xClass
  | .cvecLd _ _ _ _ _ => .xClass
  | .cvecApp _ _ _ _ _ => .xClass
  | .hcopy _ _ _ _ _ _ _ _ _ _ _ _ => .aClass
  | .hxfm _ _ _ _ _ _ _ _ => .aClass
  | .hprog _ _ _ => .aClass
  | .hfab _ _ _ _ _ _ _ _ _ _ _ _ _ => .aClass
  | .chunkFinish _ _ => .event
  | .peerTimeout _ => .event
  | .hstatRd _ _ _ => .aClass
  | .hstatWt _ _ _ => .aClass
  | .hstatRel _ _ _ => .aClass
  | .hstatAbort _ _ _ => .aClass
  | .hcsumRd _ _ => .aClass
  | .hcsumSet _ _ => .aClass
  | .hcsumChk _ _ _ => .aClass
  | .xco _ _ _ => .xClass
  | .xnext _ _ _ => .xClass
  | .xcurRdl _ _ => .xClass
  | .xcurRdh _ _ => .xClass
  | .xcurWrl _ _ => .xClass
  | .xcurWrh _ _ => .xClass
  | .xcurClr _ => .xClass
  | .tnow _ _ => .aClass
  | .tnowSt _ _ => .aClass
  | .tarm _ _ _ => .aClass
  | .tarmClr _ _ => .aClass
  | .timerFire => .event
  | .trap _ _ => .aClass
  | .eret _ => .aClass
  | .srd _ _ _ => .aClass
  | .swr _ _ _ => .aClass
  | .halt _ _ => .aClass
  | .bkpt _ _ => .aClass
  | .yield _ => .aClass
  | .xinvPg _ _ _ => .aClass
  | .xinvAll _ _ => .aClass
  | .keyz _ _ => .aClass
  | .scrubSt _ _ => .aClass
  | .scrubRd _ _ _ => .aClass
  | .scrubWt _ _ => .aClass
  | .scrubGranule _ _ => .event
  | .scrubPendingStart _ => .event
  | .frqN _ _ => .aClass
  | .frqPop _ _ _ => .aClass
  | .wfe _ _ _ => .aClass
  | .cnt _ _ _ => .aClass
  | .hrd _ _ => .micro
  | .hwr _ _ => .micro
  | .hcvt _ _ _ _ _ _ => .micro
  | .hqnt _ _ _ _ _ _ _ => .micro
  | .hfrm _ _ _ _ _ => .micro
  | .hunf _ _ _ _ _ _ => .micro
  | .hxps _ _ _ _ => .micro
  | .hprm _ _ _ _ => .micro
  | .hpak _ _ _ => .micro
  | .hfold _ _ => .micro
  | .hunfold _ _ => .micro
  | .hcrc _ => .micro
  | .hhsh _ => .micro
  | .hloop _ _ => .micro
  | .endPass => .micro
  | .hnop => .micro
  | .queueDeadlock => .event
  | .trapEntry => .event
  | .translationWalk _ _ _ => .event
  | .bpHit => .event
  | .debugHalt => .event
  | .debugResume => .event
  | .stepA => .event
  | .stepX => .event
  | .debugRead _ _ => .event
  | .debugWrite _ _ => .event
  | .bp _ _ => .event
  | .queueTailRead _ => .event
  | .recordPlace => .event
  | .allocPreempt => .event
  | .timedLaunch _ => .event
  | .preemptRequest _ => .event
  | .preemptTimeout => .event
  | .saveComplete _ => .event
  | .recordResume _ => .event
  | .kill _ => .event
  | .tokenRefill => .event
  | .tokenCharge => .event
  | .transportWrite _ _ _ _ => .event
  | .transportRead _ _ _ => .event
  | .transportAtomic _ _ _ _ _ => .event
  | .fabricWritePerform _ _ => .event
  | .portDown _ => .event
  | .featureOffer _ => .event
  | .featureAccept _ => .event
  | .queueReg _ => .event
  | .queueDereg _ => .event
  | .fabricMap _ => .event
  | .xlatRoot _ => .event
  | .barGrant _ => .event
  | .barFree _ => .event
  | .gangReg _ => .event
  | .gangReq _ => .event
  | .teleRd _ => .event
  | .gangSwitch _ => .event
  | .confirm _ => .event
  | .gangStop _ => .event
  | .gangGo _ => .event
  | .gangAck _ => .event
  | .gangRefuse _ => .event
  | .gangSwitched _ => .event
  | .gangLapsed _ => .event
  | .gangWindowLapse _ => .event
  | .gangSwitchTime _ => .event
  | .switchingDone _ => .event
  | .stragglerTimeout _ => .event
  | .ptpOffset _ _ => .event
  | .syncTimeout => .event
  | .announceTimeout _ => .event
  | .holdoverExpiry => .event
  | .patrolScrub _ => .event
  | .create _ => .event
  | .stop _ => .event
  | .stopDrained _ => .event
  | .teardown _ => .event
  | .teardownDone _ => .event
  | .harvest _ => .event
  | .measure _ => .event
  | .resume _ => .event
  | .attest _ => .event
  | .repair => .event
  | .repairTimeout _ => .event
  | .moduleReset => .event
  | .powerOn => .event
  | .watchdogReset => .event
  | .thermalReset => .event
  | .bootGo _ => .event
  | .throttle _ => .event
  | .throttleRecover _ => .event
  | .softError _ => .event
  | .sessionBind _ _ _ => .event
  | .unsupportedPacket _ => .event

/-- The guard and issue wait of an instruction (R69). -/
def Instr.hd : Instr → Hd
  | .add h _ _ _ => h
  | .sub h _ _ _ => h
  | .mul h _ _ _ => h
  | .mulh h _ _ _ _ => h
  | .div h _ _ _ _ => h
  | .rem h _ _ _ _ => h
  | .and h _ _ _ => h
  | .or h _ _ _ => h
  | .xor h _ _ _ => h
  | .sll h _ _ _ => h
  | .srl h _ _ _ => h
  | .sra h _ _ _ _ => h
  | .min h _ _ _ _ => h
  | .max h _ _ _ _ => h
  | .clz h _ _ => h
  | .ctz h _ _ => h
  | .popc h _ _ => h
  | .addi h _ _ _ => h
  | .andi h _ _ _ => h
  | .ori h _ _ _ => h
  | .xori h _ _ _ => h
  | .shi h _ _ _ _ => h
  | .li h _ _ _ => h
  | .lih h _ _ _ => h
  | .addpc h _ _ => h
  | .sel h _ _ _ _ => h
  | .pcmp h _ _ _ _ => h
  | .pcmpi h _ _ _ _ => h
  | .plog h _ _ _ _ => h
  | .psetAll h _ _ => h
  | .psetLt h _ _ _ => h
  | .psetMod h _ _ => h
  | .psetBits h _ _ => h
  | .pcnt h _ _ => h
  | .pfirst h _ _ => h
  | .br h _ _ _ => h
  | .jmp h _ => h
  | .call h _ _ => h
  | .ret h _ => h
  | .jr h _ _ => h
  | .loop h _ _ _ _ => h
  | .loopx h _ _ _ _ => h
  | .loopEnd => Hd.free
  | .xsync h => h
  | .xsyncI h => h
  | .xnop h _ => h
  | .nop h => h
  | .ld h _ _ _ _ _ _ => h
  | .st h _ _ _ _ _ => h
  | .stnb h _ _ _ _ => h
  | .ldq h _ _ _ _ _ => h
  | .ldqG h _ _ _ => h
  | .ldqX h _ _ => h
  | .ldqR h _ _ => h
  | .qmovXq h _ _ => h
  | .qmovQx h _ _ => h
  | .qmovQq h _ _ => h
  | .amo h _ _ _ _ _ _ _ => h
  | .amocas h _ _ _ _ _ _ => h
  | .red h _ _ _ _ _ => h
  | .fas h _ _ _ _ _ => h
  | .fence h => h
  | .fenceWl h => h
  | .fenceXa h => h
  | .barInit h _ _ => h
  | .barArv h _ _ _ _ => h
  | .barExp h _ _ => h
  | .barWt h _ _ _ => h
  | .barTwt h _ _ _ _ => h
  | .barTwtDeadline => Hd.free
  | .tileStRd h _ _ => h
  | .tileStArm h _ _ _ => h
  | .tileStDone h _ _ => h
  | .tileStAbort h _ _ => h
  | .tileStRel h _ _ => h
  | .tileWt h _ _ => h
  | .wlb h _ _ => h
  | .wlbWt h _ _ => h
  | .writeLanePerform _ => Hd.free
  | .wlbudRefill => Hd.free
  | .vsetl h _ _ _ _ _ _ => h
  | .vld h _ _ _ _ => h
  | .vlds h _ _ _ _ _ => h
  | .vldx h _ _ _ _ _ _ _ _ => h
  | .vst h _ _ _ _ => h
  | .vsts h _ _ _ _ _ => h
  | .vstx h _ _ _ _ _ _ _ => h
  | .vldq h _ _ _ => h
  | .vadd h _ _ _ _ _ _ => h
  | .vsub h _ _ _ _ _ _ => h
  | .vmul h _ _ _ _ _ _ => h
  | .vfma h _ _ _ _ _ _ => h
  | .vfms h _ _ _ _ _ _ => h
  | .vmin h _ _ _ _ => h
  | .vmax h _ _ _ _ => h
  | .vabs h _ _ _ => h
  | .vneg h _ _ _ => h
  | .vand h _ _ _ _ => h
  | .vor h _ _ _ _ => h
  | .vxor h _ _ _ _ => h
  | .vsll h _ _ _ _ _ => h
  | .vsrl h _ _ _ _ _ => h
  | .vsra h _ _ _ _ _ _ _ => h
  | .vmulh h _ _ _ _ => h
  | .vdot2 h _ _ _ _ _ => h
  | .vmacw h _ _ _ _ _ => h
  | .vnarrow h _ _ _ _ _ _ => h
  | .vwiden h _ _ _ => h
  | .vcvt h _ _ _ _ _ => h
  | .vcmp h _ _ _ _ _ => h
  | .vsel h _ _ _ _ => h
  | .vslide h _ _ _ _ _ _ => h
  | .vperm h _ _ _ _ => h
  | .vbcast h _ _ => h
  | .vbcastEl h _ _ _ => h
  | .vmovx h _ _ _ => h
  | .vmovxV h _ _ _ => h
  | .vred h _ _ _ _ => h
  | .vredo h _ _ _ => h
  | .vscan h _ _ _ => h
  | .viota h _ _ => h
  | .viotaIdx h _ => h
  | .vcompress h _ _ _ => h
  | .vexpand h _ _ _ => h
  | .vsfu h _ _ _ _ => h
  | .vscl h _ _ _ _ _ => h
  | .vpush h _ _ _ _ => h
  | .mtl h _ _ _ _ => h
  | .mbind h _ _ _ _ => h
  | .mfill h _ _ _ _ _ _ _ => h
  | .mma h _ _ _ _ _ _ _ => h
  | .mzero h _ => h
  | .mrd h _ _ _ _ _ => h
  | .mwr h _ _ _ => h
  | .mbs h _ _ => h
  | .mbsRd h _ _ => h
  | .mdrain h _ _ _ _ _ _ _ _ => h
  | .mownAcq h _ => h
  | .mownTry h _ => h
  | .mownRel h => h
  | .mownRd h _ => h
  | .holdLimit => Hd.free
  | .cdefArena h _ _ _ => h
  | .cdefT h _ _ _ _ => h
  | .cdefLen h _ _ => h
  | .clen h _ _ => h
  | .clenCap h _ _ => h
  | .clenDesc h _ _ => h
  | .clenArena h _ => h
  | .cld h _ _ _ _ _ => h
  | .cldSt h _ _ _ => h
  | .csel h _ _ _ _ _ _ _ => h
  | .cselp h _ _ _ _ _ _ _ => h
  | .cgath h _ _ _ _ _ => h
  | .cscat h _ _ _ _ _ => h
  | .cjoin h _ _ _ _ _ _ => h
  | .csort h _ _ _ _ _ => h
  | .cgrp h _ _ _ _ => h
  | .cagg h _ _ _ _ _ _ _ => h
  | .cuniq h _ _ _ _ _ => h
  | .cres h _ _ _ _ _ _ _ _ => h
  | .ccurClr h => h
  | .ccurRd h _ => h
  | .ccurWr h _ => h
  | .cvecLd h _ _ _ _ => h
  | .cvecApp h _ _ _ _ => h
  | .hcopy h _ _ _ _ _ _ _ _ _ _ _ => h
  | .hxfm h _ _ _ _ _ _ _ => h
  | .hprog h _ _ => h
  | .hfab h _ _ _ _ _ _ _ _ _ _ _ _ => h
  | .chunkFinish _ _ => Hd.free
  | .peerTimeout _ => Hd.free
  | .hstatRd h _ _ => h
  | .hstatWt h _ _ => h
  | .hstatRel h _ _ => h
  | .hstatAbort h _ _ => h
  | .hcsumRd h _ => h
  | .hcsumSet h _ => h
  | .hcsumChk h _ _ => h
  | .xco h _ _ => h
  | .xnext h _ _ => h
  | .xcurRdl h _ => h
  | .xcurRdh h _ => h
  | .xcurWrl h _ => h
  | .xcurWrh h _ => h
  | .xcurClr h => h
  | .tnow h _ => h
  | .tnowSt h _ => h
  | .tarm h _ _ => h
  | .tarmClr h _ => h
  | .timerFire => Hd.free
  | .trap h _ => h
  | .eret h => h
  | .srd h _ _ => h
  | .swr h _ _ => h
  | .halt h _ => h
  | .bkpt h _ => h
  | .yield h => h
  | .xinvPg h _ _ => h
  | .xinvAll h _ => h
  | .keyz h _ => h
  | .scrubSt h _ => h
  | .scrubRd h _ _ => h
  | .scrubWt h _ => h
  | .scrubGranule _ _ => Hd.free
  | .scrubPendingStart _ => Hd.free
  | .frqN h _ => h
  | .frqPop h _ _ => h
  | .wfe h _ _ => h
  | .cnt h _ _ => h
  | .hrd _ _ => Hd.free
  | .hwr _ _ => Hd.free
  | .hcvt _ _ _ _ _ _ => Hd.free
  | .hqnt _ _ _ _ _ _ _ => Hd.free
  | .hfrm _ _ _ _ _ => Hd.free
  | .hunf _ _ _ _ _ _ => Hd.free
  | .hxps _ _ _ _ => Hd.free
  | .hprm _ _ _ _ => Hd.free
  | .hpak _ _ _ => Hd.free
  | .hfold _ _ => Hd.free
  | .hunfold _ _ => Hd.free
  | .hcrc _ => Hd.free
  | .hhsh _ => Hd.free
  | .hloop _ _ => Hd.free
  | .endPass => Hd.free
  | .hnop => Hd.free
  | .queueDeadlock => Hd.free
  | .trapEntry => Hd.free
  | .translationWalk _ _ _ => Hd.free
  | .bpHit => Hd.free
  | .debugHalt => Hd.free
  | .debugResume => Hd.free
  | .stepA => Hd.free
  | .stepX => Hd.free
  | .debugRead _ _ => Hd.free
  | .debugWrite _ _ => Hd.free
  | .bp _ _ => Hd.free
  | .queueTailRead _ => Hd.free
  | .recordPlace => Hd.free
  | .allocPreempt => Hd.free
  | .timedLaunch _ => Hd.free
  | .preemptRequest _ => Hd.free
  | .preemptTimeout => Hd.free
  | .saveComplete _ => Hd.free
  | .recordResume _ => Hd.free
  | .kill _ => Hd.free
  | .tokenRefill => Hd.free
  | .tokenCharge => Hd.free
  | .transportWrite _ _ _ _ => Hd.free
  | .transportRead _ _ _ => Hd.free
  | .transportAtomic _ _ _ _ _ => Hd.free
  | .fabricWritePerform _ _ => Hd.free
  | .portDown _ => Hd.free
  | .featureOffer _ => Hd.free
  | .featureAccept _ => Hd.free
  | .queueReg _ => Hd.free
  | .queueDereg _ => Hd.free
  | .fabricMap _ => Hd.free
  | .xlatRoot _ => Hd.free
  | .barGrant _ => Hd.free
  | .barFree _ => Hd.free
  | .gangReg _ => Hd.free
  | .gangReq _ => Hd.free
  | .teleRd _ => Hd.free
  | .gangSwitch _ => Hd.free
  | .confirm _ => Hd.free
  | .gangStop _ => Hd.free
  | .gangGo _ => Hd.free
  | .gangAck _ => Hd.free
  | .gangRefuse _ => Hd.free
  | .gangSwitched _ => Hd.free
  | .gangLapsed _ => Hd.free
  | .gangWindowLapse _ => Hd.free
  | .gangSwitchTime _ => Hd.free
  | .switchingDone _ => Hd.free
  | .stragglerTimeout _ => Hd.free
  | .ptpOffset _ _ => Hd.free
  | .syncTimeout => Hd.free
  | .announceTimeout _ => Hd.free
  | .holdoverExpiry => Hd.free
  | .patrolScrub _ => Hd.free
  | .create _ => Hd.free
  | .stop _ => Hd.free
  | .stopDrained _ => Hd.free
  | .teardown _ => Hd.free
  | .teardownDone _ => Hd.free
  | .harvest _ => Hd.free
  | .measure _ => Hd.free
  | .resume _ => Hd.free
  | .attest _ => Hd.free
  | .repair => Hd.free
  | .repairTimeout _ => Hd.free
  | .moduleReset => Hd.free
  | .powerOn => Hd.free
  | .watchdogReset => Hd.free
  | .thermalReset => Hd.free
  | .bootGo _ => Hd.free
  | .throttle _ => Hd.free
  | .throttleRecover _ => Hd.free
  | .softError _ => Hd.free
  | .sessionBind _ _ _ => Hd.free
  | .unsupportedPacket _ => Hd.free

/-- The word of an instruction (R69, R72 and the entries), or of a micro-op (R82); 0 for an event, which has none. -/
def encode : Instr → Nat
  | .add h d a b => pack 0x00 h d.val a.val (loS b.val 0 0)
  | .sub h d a b => pack 0x01 h d.val a.val (loS b.val 0 0)
  | .mul h d a b => pack 0x02 h d.val a.val (loS b.val 0 0)
  | .mulh h k d a b => pack 0x03 h d.val a.val (loS b.val 0 k.code)
  | .div h u d a b => pack 0x04 h d.val a.val (loS b.val 0 u.toNat)
  | .rem h u d a b => pack 0x05 h d.val a.val (loS b.val 0 u.toNat)
  | .and h d a b => pack 0x06 h d.val a.val (loS b.val 0 0)
  | .or h d a b => pack 0x07 h d.val a.val (loS b.val 0 0)
  | .xor h d a b => pack 0x08 h d.val a.val (loS b.val 0 0)
  | .sll h d a b => pack 0x09 h d.val a.val (loS b.val 0 0)
  | .srl h d a b => pack 0x0a h d.val a.val (loS b.val 0 0)
  | .sra h r d a b => pack 0x0b h d.val a.val (loS b.val 0 (r.toNat * 2))
  | .min h u d a b => pack 0x0c h d.val a.val (loS b.val 0 u.toNat)
  | .max h u d a b => pack 0x0d h d.val a.val (loS b.val 0 u.toNat)
  | .clz h d a => pack 0x0e h d.val a.val (loS 0 0 0)
  | .ctz h d a => pack 0x0f h d.val a.val (loS 0 0 0)
  | .popc h d a => pack 0x10 h d.val a.val (loS 0 0 0)
  | .addi h d a imm => pack 0x11 h d.val a.val (loI 0 imm.toNat)
  | .andi h d a imm => pack 0x12 h d.val a.val (loI 0 imm.toNat)
  | .ori h d a imm => pack 0x13 h d.val a.val (loI 0 imm.toNat)
  | .xori h d a imm => pack 0x14 h d.val a.val (loI 0 imm.toNat)
  | .shi h k d a n => pack 0x15 h d.val a.val (loI k.code n.toNat)
  | .li h z d imm => pack 0x16 h d.val 0 (loI z.toNat imm.toNat)
  | .lih h d a imm => pack 0x17 h d.val a.val (loI 0 imm.toNat)
  | .addpc h d imm => pack 0x18 h d.val 0 (loI 0 imm.toNat)
  | .sel h d a b e => pack 0x19 h d.val a.val (loS b.val e.val 0)
  | .pcmp h k d a b => pack 0x1a h d.val a.val (loS b.val 0 k.code)
  | .pcmpi h k d a imm => pack 0x1b h d.val a.val (loI k.code imm.toNat)
  | .plog h f d a b => pack 0x1c h d.val a.val (loS b.val 0 f.toNat)
  | .psetAll h v d => pack 0x1d h d.val 0 (loI 0 v.toNat)
  | .psetLt h d a imm => pack 0x1d h d.val a.val (loI 1 imm.toNat)
  | .psetMod h d imm => pack 0x1d h d.val 0 (loI 2 imm.toNat)
  | .psetBits h d a => pack 0x1d h d.val a.val (loI 3 0)
  | .pcnt h d a => pack 0x1e h d.val a.val (loS 0 0 0)
  | .pfirst h d a => pack 0x1f h d.val a.val (loS 0 0 0)
  | .br h k a disp => pack 0x20 h 0 a.val (loB k.code disp.toNat)
  | .jmp h disp => pack 0x21 h 0 0 (loB 0 disp.toNat)
  | .call h d disp => pack 0x22 h d.val 0 (loB 0 disp.toNat)
  | .ret h a => pack 0x23 h 0 a.val (loS 0 0 0)
  | .jr h d a => pack 0x24 h d.val a.val (loS 0 0 0)
  | .loop h im d a disp => pack 0x25 h d.val a.val (loB im.toNat disp.toNat)
  | .loopx h k d a disp => pack 0x26 h d.val a.val (loB k.toNat disp.toNat)
  | .loopEnd => 0
  | .xsync h => pack 0x27 h 0 0 (loS 0 0 0)
  | .xsyncI h => pack 0x27 h 0 0 (loS 0 0 1)
  | .xnop h n => pack 0x28 h 0 0 (loI 0 n.toNat)
  | .nop h => pack 0x29 h 0 0 (loS 0 0 0)
  | .ld h aq sz sx d a off => pack 0x30 h d.val a.val (loM 0 sz.toNat sx.toNat aq.toNat off.toNat)
  | .st h rl sz d a off => pack 0x31 h d.val a.val (loM 0 sz.toNat 0 rl.toNat off.toNat)
  | .stnb h sz d a off => pack 0x34 h d.val a.val (loM 0 sz.toNat 0 0 off.toNat)
  | .ldq h sz sx d a off => pack 0x32 h d.val a.val (loM 0 sz.toNat sx.toNat 0 off.toNat)
  | .ldqG h d a off => pack 0x32 h d.val a.val (loM 0 0 0 1 off.toNat)
  | .ldqX h d a => pack 0x32 h d.val a.val (loM 0 0 0 2 0)
  | .ldqR h d a => pack 0x32 h d.val a.val (loM 0 0 0 3 0)
  | .qmovXq h d a => pack 0x33 h d.val a.val (loS 0 0 0)
  | .qmovQx h d a => pack 0x33 h d.val a.val (loS 0 0 1)
  | .qmovQq h d a => pack 0x33 h d.val a.val (loS 0 0 2)
  | .amo h k dw sx d a b off => pack 0x35 h d.val a.val (loM b.val ((2 + dw.toNat)) sx.toNat k.code off.toNat)
  | .amocas h dw sx d a b off => pack 0x36 h d.val a.val (loM b.val ((2 + dw.toNat)) sx.toNat 0 off.toNat)
  | .red h k dw d a off => pack 0x37 h d.val a.val (loM 0 ((2 + dw.toNat)) 0 k.code off.toNat)
  | .fas h t d a b off => pack 0x38 h d.val a.val (loW b.val 0 t.code 0 off.toNat)
  | .fence h => pack 0x39 h 0 0 (loS 0 0 0)
  | .fenceWl h => pack 0x39 h 0 0 (loS 0 0 1)
  | .fenceXa h => pack 0x39 h 0 0 (loS 0 0 2)
  | .barInit h a b => pack 0x3a h 0 a.val (loS b.val 0 0)
  | .barArv h n d a b => pack 0x3b h d.val a.val (loS b.val 0 n.toNat)
  | .barExp h a b => pack 0x3c h 0 a.val (loS b.val 0 0)
  | .barWt h d a b => pack 0x3d h d.val a.val (loS b.val 0 0)
  | .barTwt h d a b e => pack 0x3e h d.val a.val (loS b.val e.val 0)
  | .barTwtDeadline => 0
  | .tileStRd h d t => pack 0x3f h d.val 0 (loE 0 0 0 t.toNat 0)
  | .tileStArm h d a t => pack 0x3f h d.val a.val (loE 0 0 0 t.toNat 1)
  | .tileStDone h d t => pack 0x3f h d.val 0 (loE 0 0 0 t.toNat 2)
  | .tileStAbort h d t => pack 0x3f h d.val 0 (loE 0 0 0 t.toNat 3)
  | .tileStRel h d t => pack 0x3f h d.val 0 (loE 0 0 0 t.toNat 4)
  | .tileWt h d t => pack 0x40 h d.val 0 (loE 0 0 0 t.toNat 0)
  | .wlb h d a => pack 0x41 h d.val a.val (loS 0 0 0)
  | .wlbWt h a b => pack 0x41 h 0 a.val (loS b.val 0 1)
  | .writeLanePerform _ => 0
  | .wlbudRefill => 0
  | .vsetl h g mx t live d a => pack 0x50 h d.val a.val (loV 0 0 0 0 t.code (g.toNat + mx.toNat * 4) live.toNat)
  | .vld h t d a off => pack 0x51 h d.val a.val (loW 0 0 t.code 0 off.toNat)
  | .vlds h t d a b off => pack 0x52 h d.val a.val (loW b.val 0 t.code 0 off.toNat)
  | .vldx h t it s d a b pm off => pack 0x53 h d.val a.val (loW b.val pm.val t.code (it.code * 4 + s.toNat) off.toNat)
  | .vst h t d a off => pack 0x54 h d.val a.val (loW 0 0 t.code 0 off.toNat)
  | .vsts h t d a b off => pack 0x55 h d.val a.val (loW b.val 0 t.code 0 off.toNat)
  | .vstx h t it s d a b off => pack 0x56 h d.val a.val (loW b.val 0 t.code (it.code * 4 + s.toNat) off.toNat)
  | .vldq h t d a => pack 0x57 h d.val a.val (loW 0 0 t.code 0 0)
  | .vadd h s vx rm d a b => pack 0x58 h d.val a.val (loV b.val 0 rm.code 0 0 (s.toNat * 2 + vx.toNat) 0)
  | .vsub h s vx rm d a b => pack 0x59 h d.val a.val (loV b.val 0 rm.code 0 0 (s.toNat * 2 + vx.toNat) 0)
  | .vmul h s vx rm d a b => pack 0x5a h d.val a.val (loV b.val 0 rm.code 0 0 (s.toNat * 2 + vx.toNat) 0)
  | .vfma h vx rm d a b e => pack 0x5b h d.val a.val (loV b.val e.val rm.code 0 0 vx.toNat 0)
  | .vfms h vx rm d a b e => pack 0x5c h d.val a.val (loV b.val e.val rm.code 0 0 vx.toNat 0)
  | .vmin h vx d a b => pack 0x5d h d.val a.val (loV b.val 0 0 0 0 vx.toNat 0)
  | .vmax h vx d a b => pack 0x5e h d.val a.val (loV b.val 0 0 0 0 vx.toNat 0)
  | .vabs h s d a => pack 0x5f h d.val a.val (loV 0 0 0 0 0 (s.toNat * 2) 0)
  | .vneg h s d a => pack 0x60 h d.val a.val (loV 0 0 0 0 0 (s.toNat * 2) 0)
  | .vand h vx d a b => pack 0x61 h d.val a.val (loV b.val 0 0 0 0 vx.toNat 0)
  | .vor h vx d a b => pack 0x62 h d.val a.val (loV b.val 0 0 0 0 vx.toNat 0)
  | .vxor h vx d a b => pack 0x63 h d.val a.val (loV b.val 0 0 0 0 vx.toNat 0)
  | .vsll h k d a b imm => pack 0x64 h d.val a.val (loV b.val 0 0 0 0 (src2Fn k) imm.toNat)
  | .vsrl h k d a b imm => pack 0x65 h d.val a.val (loV b.val 0 0 0 0 (src2Fn k) imm.toNat)
  | .vsra h k r rm d a b imm => pack 0x66 h d.val a.val (loV b.val 0 rm.code 0 0 (src2Fn k + r.toNat * 8) imm.toNat)
  | .vmulh h vx d a b => pack 0x67 h d.val a.val (loV b.val 0 0 0 0 vx.toNat 0)
  | .vdot2 h s vx d a b => pack 0x68 h d.val a.val (loV b.val 0 0 0 0 (s.toNat * 2 + vx.toNat) 0)
  | .vmacw h s rm d a b => pack 0x69 h d.val a.val (loV b.val 0 rm.code 0 0 (s.toNat * 2) 0)
  | .vnarrow h s t2 rm n d a => pack 0x6a h d.val a.val (loV 0 0 rm.code 0 t2.code (s.toNat * 2) n.toNat)
  | .vwiden h t2 d a => pack 0x6b h d.val a.val (loV 0 0 0 0 t2.code 0 0)
  | .vcvt h t2 rm ov d a => pack 0x6c h d.val a.val (loV 0 0 rm.code ov.code t2.code 0 0)
  | .vcmp h k vx d a b => pack 0x6d h d.val a.val (loV b.val 0 0 0 0 (k.code + vx.toNat * 8) 0)
  | .vsel h d a b e => pack 0x6e h d.val a.val (loV b.val e.val 0 0 0 0 0)
  | .vslide h dn vi d a b imm => pack 0x6f h d.val a.val (loV b.val 0 0 0 0 (dn.toNat + vi.toNat * 2) imm.toNat)
  | .vperm h t2 d a b => pack 0x70 h d.val a.val (loV b.val 0 0 0 t2.code 0 0)
  | .vbcast h d a => pack 0x71 h d.val a.val (loV 0 0 0 0 0 0 0)
  | .vbcastEl h d a b => pack 0x71 h d.val a.val (loV b.val 0 0 0 0 1 0)
  | .vmovx h d a b => pack 0x72 h d.val a.val (loV b.val 0 0 0 0 0 0)
  | .vmovxV h d a b => pack 0x72 h d.val a.val (loV b.val 0 0 0 0 1 0)
  | .vred h k d a b => pack 0x73 h d.val a.val (loV b.val 0 0 0 0 k.code 0)
  | .vredo h d a b => pack 0x74 h d.val a.val (loV b.val 0 0 0 0 0 0)
  | .vscan h ex d a => pack 0x75 h d.val a.val (loV 0 0 0 0 0 ex.toNat 0)
  | .viota h d a => pack 0x76 h d.val a.val (loV 0 0 0 0 0 0 0)
  | .viotaIdx h d => pack 0x76 h d.val 0 (loV 0 0 0 0 0 1 0)
  | .vcompress h d a b => pack 0x77 h d.val a.val (loV b.val 0 0 0 0 0 0)
  | .vexpand h d a b => pack 0x78 h d.val a.val (loV b.val 0 0 0 0 0 0)
  | .vsfu h k rm d a => pack 0x79 h d.val a.val (loV 0 0 rm.code 0 0 k.code 0)
  | .vscl h rm k d a b => pack 0x7a h d.val a.val (loV b.val 0 rm.code 0 0 0 k.toNat)
  | .vpush h fb sc a b => pack 0x7b h 0 a.val (loV b.val 0 0 0 0 (fb.toNat + sc.toNat * 2) 0)
  | .mtl h d a b e => pack 0x90 h d.val a.val (loE b.val e.val 0 0 0)
  | .mbind h fb src t a => pack 0x91 h 0 a.val (loE 0 0 0 0 (fb.toNat + src.code * 2 + t.code * 8))
  | .mfill h fb fr ff d a b e => pack 0x92 h d.val a.val (loE b.val e.val 0 0 (fb.toNat + fr.toNat * 2 + ff.toNat * 4))
  | .mma h z ta tb t a b e => pack 0x93 h 0 a.val (loE b.val e.val 0 t.toNat (z.toNat * 64 + ta.code + tb.code * 8))
  | .mzero h t => pack 0x94 h 0 0 (loE 0 0 0 t.toNat 0)
  | .mrd h rm ov t d a => pack 0x95 h d.val a.val (loE 0 0 0 t.toNat (rm.code + ov.code * 4))
  | .mwr h t d a => pack 0x96 h d.val a.val (loE 0 0 0 t.toNat 0)
  | .mbs h t a => pack 0x97 h 0 a.val (loE 0 0 0 t.toNat 0)
  | .mbsRd h t d => pack 0x97 h d.val 0 (loE 0 0 0 t.toNat 1)
  | .mdrain h ty rm ov t d a b e => pack 0x98 h d.val a.val (loE b.val e.val 0 t.toNat (ty.code + rm.code * 16 + ov.code * 64))
  | .mownAcq h d => pack 0x99 h d.val 0 (loE 0 0 0 0 0)
  | .mownTry h d => pack 0x99 h d.val 0 (loE 0 0 0 0 1)
  | .mownRel h => pack 0x99 h 0 0 (loE 0 0 0 0 2)
  | .mownRd h d => pack 0x99 h d.val 0 (loE 0 0 0 0 3)
  | .holdLimit => 0
  | .cdefArena h a b e => pack 0xa0 h 0 a.val (loC b.val e.val 0 0 0)
  | .cdefT h t d a b => pack 0xa0 h d.val a.val (loC b.val 0 0 1 t.code)
  | .cdefLen h d a => pack 0xa0 h d.val a.val (loC 0 0 0 2 0)
  | .clen h d a => pack 0xa1 h d.val a.val (loC 0 0 0 0 0)
  | .clenCap h d a => pack 0xa1 h d.val a.val (loC 0 0 0 1 0)
  | .clenDesc h d a => pack 0xa1 h d.val a.val (loC 0 0 0 2 0)
  | .clenArena h d => pack 0xa1 h d.val 0 (loC 0 0 0 3 0)
  | .cld h d a b y pp => pack 0xa2 h d.val a.val (loC b.val 0 pp.val 0 y.val)
  | .cldSt h d a y => pack 0xa2 h d.val a.val (loC 0 0 0 1 y.val)
  | .csel h k cc d a b y pp => pack 0xa3 h d.val a.val (loC b.val 0 pp.val (k.code + cc.toNat * 8) y.val)
  | .cselp h k d a b e y pp => pack 0xa4 h d.val a.val (loC b.val e.val pp.val k.code y.val)
  | .cgath h d a b y pp => pack 0xa5 h d.val a.val (loC b.val 0 pp.val 0 y.val)
  | .cscat h k d a b y => pack 0xa6 h d.val a.val (loC b.val 0 0 k.code y.val)
  | .cjoin h k d a b y pp => pack 0xa7 h d.val a.val (loC b.val 0 pp.val k.code y.val)
  | .csort h p dn d a y => pack 0xa8 h d.val a.val (loC 0 0 0 (p.toNat + dn.toNat * 2) y.val)
  | .cgrp h d a y pp => pack 0xa9 h d.val a.val (loC 0 0 pp.val 0 y.val)
  | .cagg h k s d a b y pp => pack 0xaa h d.val a.val (loC b.val 0 pp.val (k.code + s.toNat * 8) y.val)
  | .cuniq h p d a y pp => pack 0xab h d.val a.val (loC 0 0 pp.val p.toNat y.val)
  | .cres h o f d a b e y pp => pack 0xac h d.val a.val (loC b.val e.val pp.val (o.toNat * 16 + f.toNat) y.val)
  | .ccurClr h => pack 0xad h 0 0 (loC 0 0 0 0 0)
  | .ccurRd h d => pack 0xad h d.val 0 (loC 0 0 0 1 0)
  | .ccurWr h a => pack 0xad h 0 a.val (loC 0 0 0 2 0)
  | .cvecLd h d a b y => pack 0xae h d.val a.val (loC b.val 0 0 0 y.val)
  | .cvecApp h d a y pp => pack 0xae h d.val a.val (loC 0 0 pp.val 1 y.val)
  | .hcopy h ck ts bar crc nb d a b e pm t => pack 0xb0 h d.val a.val (loE b.val e.val pm.val t.toNat (ck.toNat + ts.toNat * 8 + bar.toNat * 16 + crc.toNat * 32 + nb.toNat * 64))
  | .hxfm h ts bar nb d a pm t => pack 0xb1 h d.val a.val (loE 0 0 pm.val t.toNat (ts.toNat * 8 + bar.toNat * 16 + nb.toNat * 64))
  | .hprog h d a => pack 0xb2 h d.val a.val (loE 0 0 0 0 0)
  | .hfab h ck get bar crc nb fold d a b e pm peer => pack 0xb3 h d.val a.val (loE b.val e.val pm.val peer.toNat (ck.toNat + get.toNat * 8 + bar.toNat * 16 + crc.toNat * 32 + nb.toNat * 64 + fold.toNat * 128))
  | .chunkFinish _ _ => 0
  | .peerTimeout _ => 0
  | .hstatRd h d a => pack 0xb4 h d.val a.val (loE 0 0 0 0 0)
  | .hstatWt h d a => pack 0xb4 h d.val a.val (loE 0 0 0 0 1)
  | .hstatRel h d a => pack 0xb4 h d.val a.val (loE 0 0 0 0 2)
  | .hstatAbort h d a => pack 0xb4 h d.val a.val (loE 0 0 0 0 3)
  | .hcsumRd h d => pack 0xb5 h d.val 0 (loE 0 0 0 0 0)
  | .hcsumSet h a => pack 0xb5 h 0 a.val (loE 0 0 0 0 1)
  | .hcsumChk h d a => pack 0xb5 h d.val a.val (loE 0 0 0 0 2)
  | .xco h m a => pack 0xb6 h 0 a.val (loE 0 0 0 0 m.code)
  | .xnext h d b => pack 0xb7 h d.val 0 (loE b.val 0 0 0 0)
  | .xcurRdl h d => pack 0xb8 h d.val 0 (loE 0 0 0 0 0)
  | .xcurRdh h d => pack 0xb8 h d.val 0 (loE 0 0 0 0 1)
  | .xcurWrl h a => pack 0xb8 h 0 a.val (loE 0 0 0 0 2)
  | .xcurWrh h a => pack 0xb8 h 0 a.val (loE 0 0 0 0 3)
  | .xcurClr h => pack 0xb8 h 0 0 (loE 0 0 0 0 4)
  | .tnow h d => pack 0xb9 h d.val 0 (loE 0 0 0 0 0)
  | .tnowSt h d => pack 0xb9 h d.val 0 (loE 0 0 0 0 1)
  | .tarm h d a => pack 0xba h d.val a.val (loE 0 0 0 0 0)
  | .tarmClr h d => pack 0xba h d.val 0 (loE 0 0 0 0 1)
  | .timerFire => 0
  | .trap h n => pack 0xc0 h 0 0 (loY 0 0 n.toNat)
  | .eret h => pack 0xc1 h 0 0 (loY 0 0 0)
  | .srd h k d => pack 0xc2 h d.val 0 (loY 0 k.sel 0)
  | .swr h k a => pack 0xc3 h 0 a.val (loY 0 k.sel 0)
  | .halt h n => pack 0xc4 h 0 0 (loY 0 0 n.toNat)
  | .bkpt h n => pack 0xc5 h 0 0 (loY 0 0 n.toNat)
  | .yield h => pack 0xc6 h 0 0 (loY 0 0 0)
  | .xinvPg h a b => pack 0xc7 h 0 a.val (loY b.val 0 0)
  | .xinvAll h a => pack 0xc7 h 0 a.val (loY 0 0 1)
  | .keyz h a => pack 0xc8 h 0 a.val (loY 0 0 0)
  | .scrubSt h a => pack 0xc9 h 0 a.val (loY 0 0 0)
  | .scrubRd h d a => pack 0xc9 h d.val a.val (loY 0 0 1)
  | .scrubWt h a => pack 0xc9 h 0 a.val (loY 0 0 2)
  | .scrubGranule _ _ => 0
  | .scrubPendingStart _ => 0
  | .frqN h d => pack 0xca h d.val 0 (loY 0 0 0)
  | .frqPop h d a => pack 0xca h d.val a.val (loY 0 0 1)
  | .wfe h m d => pack 0xcb h d.val 0 (loY 0 0 m.toNat)
  | .cnt h k d => pack 0xcc h d.val 0 (loY 0 k.sel 0)
  | .hrd d i => 0 * 134217728 + d.val * 16777216 + i.toNat
  | .hwr s i => 1 * 134217728 + s.val * 2097152 + i.toNat
  | .hcvt d s f rm ov src => 2 * 134217728 + d.val * 16777216 + s.val * 2097152 + f.toNat * 65536 + rm.code * 16384 + ov.code * 4096 + src.toNat
  | .hqnt d s f rm ov src mx => 3 * 134217728 + d.val * 16777216 + s.val * 2097152 + f.toNat * 65536 + rm.code * 16384 + ov.code * 4096 + src.toNat + mx.toNat * 32
  | .hfrm d s f co mx => 4 * 134217728 + d.val * 16777216 + s.val * 2097152 + f.toNat * 65536 + co.toNat + mx.toNat * 256
  | .hunf d s f rm ov run => 5 * 134217728 + d.val * 16777216 + s.val * 2097152 + f.toNat * 65536 + rm.code * 16384 + ov.code * 4096 + run.toNat
  | .hxps d s f i => 6 * 134217728 + d.val * 16777216 + s.val * 2097152 + f.toNat * 65536 + i.toNat
  | .hprm d s f i => 7 * 134217728 + d.val * 16777216 + s.val * 2097152 + f.toNat * 65536 + i.toNat
  | .hpak d s pad => 8 * 134217728 + d.val * 16777216 + s.val * 2097152 + pad.toNat
  | .hfold d s => 9 * 134217728 + d.val * 16777216 + s.val * 2097152
  | .hunfold d s => 10 * 134217728 + d.val * 16777216 + s.val * 2097152
  | .hcrc s => 11 * 134217728 + s.val * 2097152
  | .hhsh s => 12 * 134217728 + s.val * 2097152
  | .hloop l n => 13 * 134217728 + l.toNat * 64 + n.toNat
  | .endPass => 14 * 134217728
  | .hnop => 15 * 134217728
  | .queueDeadlock => 0
  | .trapEntry => 0
  | .translationWalk _ _ _ => 0
  | .bpHit => 0
  | .debugHalt => 0
  | .debugResume => 0
  | .stepA => 0
  | .stepX => 0
  | .debugRead _ _ => 0
  | .debugWrite _ _ => 0
  | .bp _ _ => 0
  | .queueTailRead _ => 0
  | .recordPlace => 0
  | .allocPreempt => 0
  | .timedLaunch _ => 0
  | .preemptRequest _ => 0
  | .preemptTimeout => 0
  | .saveComplete _ => 0
  | .recordResume _ => 0
  | .kill _ => 0
  | .tokenRefill => 0
  | .tokenCharge => 0
  | .transportWrite _ _ _ _ => 0
  | .transportRead _ _ _ => 0
  | .transportAtomic _ _ _ _ _ => 0
  | .fabricWritePerform _ _ => 0
  | .portDown _ => 0
  | .featureOffer _ => 0
  | .featureAccept _ => 0
  | .queueReg _ => 0
  | .queueDereg _ => 0
  | .fabricMap _ => 0
  | .xlatRoot _ => 0
  | .barGrant _ => 0
  | .barFree _ => 0
  | .gangReg _ => 0
  | .gangReq _ => 0
  | .teleRd _ => 0
  | .gangSwitch _ => 0
  | .confirm _ => 0
  | .gangStop _ => 0
  | .gangGo _ => 0
  | .gangAck _ => 0
  | .gangRefuse _ => 0
  | .gangSwitched _ => 0
  | .gangLapsed _ => 0
  | .gangWindowLapse _ => 0
  | .gangSwitchTime _ => 0
  | .switchingDone _ => 0
  | .stragglerTimeout _ => 0
  | .ptpOffset _ _ => 0
  | .syncTimeout => 0
  | .announceTimeout _ => 0
  | .holdoverExpiry => 0
  | .patrolScrub _ => 0
  | .create _ => 0
  | .stop _ => 0
  | .stopDrained _ => 0
  | .teardown _ => 0
  | .teardownDone _ => 0
  | .harvest _ => 0
  | .measure _ => 0
  | .resume _ => 0
  | .attest _ => 0
  | .repair => 0
  | .repairTimeout _ => 0
  | .moduleReset => 0
  | .powerOn => 0
  | .watchdogReset => 0
  | .thermalReset => 0
  | .bootGo _ => 0
  | .throttle _ => 0
  | .throttleRecover _ => 0
  | .softError _ => 0
  | .sessionBind _ _ _ => 0
  | .unsupportedPacket _ => 0

/-- Row 0x0_ of R74: the instruction of the fields, where op, fn and the coded fields name one. -/
def build0 (r : Raw) : Option Instr :=
  if r.op = 0x00 then some (.add r.h (reg r.d) (reg r.a) (reg (bitsAt r.lo 28 6))) else
  if r.op = 0x01 then some (.sub r.h (reg r.d) (reg r.a) (reg (bitsAt r.lo 28 6))) else
  if r.op = 0x02 then some (.mul r.h (reg r.d) (reg r.a) (reg (bitsAt r.lo 28 6))) else
  if r.op = 0x03 then (MulK.ofCode (bitsAt (bitsAt r.lo 14 8) 0 8)).bind fun k => some (.mulh r.h k (reg r.d) (reg r.a) (reg (bitsAt r.lo 28 6))) else
  if r.op = 0x04 then some (.div r.h (bitAt (bitsAt r.lo 14 8) 0) (reg r.d) (reg r.a) (reg (bitsAt r.lo 28 6))) else
  if r.op = 0x05 then some (.rem r.h (bitAt (bitsAt r.lo 14 8) 0) (reg r.d) (reg r.a) (reg (bitsAt r.lo 28 6))) else
  if r.op = 0x06 then some (.and r.h (reg r.d) (reg r.a) (reg (bitsAt r.lo 28 6))) else
  if r.op = 0x07 then some (.or r.h (reg r.d) (reg r.a) (reg (bitsAt r.lo 28 6))) else
  if r.op = 0x08 then some (.xor r.h (reg r.d) (reg r.a) (reg (bitsAt r.lo 28 6))) else
  if r.op = 0x09 then some (.sll r.h (reg r.d) (reg r.a) (reg (bitsAt r.lo 28 6))) else
  if r.op = 0x0a then some (.srl r.h (reg r.d) (reg r.a) (reg (bitsAt r.lo 28 6))) else
  if r.op = 0x0b then some (.sra r.h (bitAt (bitsAt r.lo 14 8) 1) (reg r.d) (reg r.a) (reg (bitsAt r.lo 28 6))) else
  if r.op = 0x0c then some (.min r.h (bitAt (bitsAt r.lo 14 8) 0) (reg r.d) (reg r.a) (reg (bitsAt r.lo 28 6))) else
  if r.op = 0x0d then some (.max r.h (bitAt (bitsAt r.lo 14 8) 0) (reg r.d) (reg r.a) (reg (bitsAt r.lo 28 6))) else
  if r.op = 0x0e then some (.clz r.h (reg r.d) (reg r.a)) else
  if r.op = 0x0f then some (.ctz r.h (reg r.d) (reg r.a)) else
  none

/-- Row 0x1_ of R74: the instruction of the fields, where op, fn and the coded fields name one. -/
def build1 (r : Raw) : Option Instr :=
  if r.op = 0x10 then some (.popc r.h (reg r.d) (reg r.a)) else
  if r.op = 0x11 then some (.addi r.h (reg r.d) (reg r.a) (BitVec.ofNat 32 (bitsAt r.lo 0 32))) else
  if r.op = 0x12 then some (.andi r.h (reg r.d) (reg r.a) (BitVec.ofNat 32 (bitsAt r.lo 0 32))) else
  if r.op = 0x13 then some (.ori r.h (reg r.d) (reg r.a) (BitVec.ofNat 32 (bitsAt r.lo 0 32))) else
  if r.op = 0x14 then some (.xori r.h (reg r.d) (reg r.a) (BitVec.ofNat 32 (bitsAt r.lo 0 32))) else
  if r.op = 0x15 then (ShK.ofCode (bitsAt (bitsAt r.lo 32 2) 0 2)).bind fun k => some (.shi r.h k (reg r.d) (reg r.a) (BitVec.ofNat 6 (bitsAt r.lo 0 32))) else
  if r.op = 0x16 then some (.li r.h (bitAt (bitsAt r.lo 32 2) 0) (reg r.d) (BitVec.ofNat 32 (bitsAt r.lo 0 32))) else
  if r.op = 0x17 then some (.lih r.h (reg r.d) (reg r.a) (BitVec.ofNat 32 (bitsAt r.lo 0 32))) else
  if r.op = 0x18 then some (.addpc r.h (reg r.d) (BitVec.ofNat 32 (bitsAt r.lo 0 32))) else
  if r.op = 0x19 then some (.sel r.h (reg r.d) (reg r.a) (reg (bitsAt r.lo 28 6)) (reg (bitsAt r.lo 22 6))) else
  if r.op = 0x1a then (CmpK.ofCode (bitsAt (bitsAt r.lo 14 8) 0 8)).bind fun k => some (.pcmp r.h k (reg r.d) (reg r.a) (reg (bitsAt r.lo 28 6))) else
  if r.op = 0x1b then (CmpK.ofCode (bitsAt (bitsAt r.lo 32 2) 0 2)).bind fun k => some (.pcmpi r.h k (reg r.d) (reg r.a) (BitVec.ofNat 32 (bitsAt r.lo 0 32))) else
  if r.op = 0x1c then some (.plog r.h (BitVec.ofNat 4 (bitsAt r.lo 14 8)) (reg r.d) (reg r.a) (reg (bitsAt r.lo 28 6))) else
  if r.op = 0x1d then if (bitsAt r.lo 32 2) = 0 then some (.psetAll r.h (bitAt (bitsAt r.lo 0 32) 0) (reg r.d)) else if (bitsAt r.lo 32 2) = 1 then some (.psetLt r.h (reg r.d) (reg r.a) (BitVec.ofNat 32 (bitsAt r.lo 0 32))) else if (bitsAt r.lo 32 2) = 2 then some (.psetMod r.h (reg r.d) (BitVec.ofNat 32 (bitsAt r.lo 0 32))) else if (bitsAt r.lo 32 2) = 3 then some (.psetBits r.h (reg r.d) (reg r.a)) else none else
  if r.op = 0x1e then some (.pcnt r.h (reg r.d) (reg r.a)) else
  if r.op = 0x1f then some (.pfirst r.h (reg r.d) (reg r.a)) else
  none

/-- Row 0x2_ of R74: the instruction of the fields, where op, fn and the coded fields name one. -/
def build2 (r : Raw) : Option Instr :=
  if r.op = 0x20 then (BrK.ofCode (bitsAt (bitsAt r.lo 32 2) 0 2)).bind fun k => some (.br r.h k (reg r.a) (BitVec.ofNat 32 (bitsAt r.lo 0 32))) else
  if r.op = 0x21 then some (.jmp r.h (BitVec.ofNat 32 (bitsAt r.lo 0 32))) else
  if r.op = 0x22 then some (.call r.h (reg r.d) (BitVec.ofNat 32 (bitsAt r.lo 0 32))) else
  if r.op = 0x23 then some (.ret r.h (reg r.a)) else
  if r.op = 0x24 then some (.jr r.h (reg r.d) (reg r.a)) else
  if r.op = 0x25 then some (.loop r.h (bitAt (bitsAt r.lo 32 2) 0) (reg r.d) (reg r.a) (BitVec.ofNat 32 (bitsAt r.lo 0 32))) else
  if r.op = 0x26 then some (.loopx r.h (BitVec.ofNat 2 (bitsAt r.lo 32 2)) (reg r.d) (reg r.a) (BitVec.ofNat 32 (bitsAt r.lo 0 32))) else
  if r.op = 0x27 then if (bitsAt r.lo 14 8) = 0 then some (.xsync r.h) else if (bitsAt r.lo 14 8) = 1 then some (.xsyncI r.h) else none else
  if r.op = 0x28 then some (.xnop r.h (BitVec.ofNat 16 (bitsAt r.lo 0 32))) else
  if r.op = 0x29 then some (.nop r.h) else
  none

/-- Row 0x3_ of R74: the instruction of the fields, where op, fn and the coded fields name one. -/
def build3 (r : Raw) : Option Instr :=
  if r.op = 0x30 then some (.ld r.h (bitAt (bitsAt r.lo 20 4) 0) (BitVec.ofNat 2 (bitsAt r.lo 25 3)) (bitAt (bitsAt r.lo 24 1) 0) (reg r.d) (reg r.a) (BitVec.ofNat 20 (bitsAt r.lo 0 20))) else
  if r.op = 0x31 then some (.st r.h (bitAt (bitsAt r.lo 20 4) 0) (BitVec.ofNat 2 (bitsAt r.lo 25 3)) (reg r.d) (reg r.a) (BitVec.ofNat 20 (bitsAt r.lo 0 20))) else
  if r.op = 0x32 then if (bitsAt r.lo 20 4) = 0 then some (.ldq r.h (BitVec.ofNat 2 (bitsAt r.lo 25 3)) (bitAt (bitsAt r.lo 24 1) 0) (reg r.d) (reg r.a) (BitVec.ofNat 20 (bitsAt r.lo 0 20))) else if (bitsAt r.lo 20 4) = 1 then some (.ldqG r.h (reg r.d) (reg r.a) (BitVec.ofNat 20 (bitsAt r.lo 0 20))) else if (bitsAt r.lo 20 4) = 2 then some (.ldqX r.h (reg r.d) (reg r.a)) else if (bitsAt r.lo 20 4) = 3 then some (.ldqR r.h (reg r.d) (reg r.a)) else none else
  if r.op = 0x33 then if (bitsAt r.lo 14 8) = 0 then some (.qmovXq r.h (reg r.d) (reg r.a)) else if (bitsAt r.lo 14 8) = 1 then some (.qmovQx r.h (reg r.d) (reg r.a)) else if (bitsAt r.lo 14 8) = 2 then some (.qmovQq r.h (reg r.d) (reg r.a)) else none else
  if r.op = 0x34 then some (.stnb r.h (BitVec.ofNat 2 (bitsAt r.lo 25 3)) (reg r.d) (reg r.a) (BitVec.ofNat 20 (bitsAt r.lo 0 20))) else
  if r.op = 0x35 then (AmoK.ofCode (bitsAt (bitsAt r.lo 20 4) 0 4)).bind fun k => some (.amo r.h k (bitAt (bitsAt r.lo 25 3) 0) (bitAt (bitsAt r.lo 24 1) 0) (reg r.d) (reg r.a) (reg (bitsAt r.lo 28 6)) (BitVec.ofNat 20 (bitsAt r.lo 0 20))) else
  if r.op = 0x36 then some (.amocas r.h (bitAt (bitsAt r.lo 25 3) 0) (bitAt (bitsAt r.lo 24 1) 0) (reg r.d) (reg r.a) (reg (bitsAt r.lo 28 6)) (BitVec.ofNat 20 (bitsAt r.lo 0 20))) else
  if r.op = 0x37 then (AmoK.ofCode (bitsAt (bitsAt r.lo 20 4) 0 4)).bind fun k => some (.red r.h k (bitAt (bitsAt r.lo 25 3) 0) (reg r.d) (reg r.a) (BitVec.ofNat 20 (bitsAt r.lo 0 20))) else
  if r.op = 0x38 then (EType.ofCode (bitsAt r.lo 18 4)).bind fun t => some (.fas r.h t (reg r.d) (reg r.a) (reg (bitsAt r.lo 28 6)) (BitVec.ofNat 14 (bitsAt r.lo 0 14))) else
  if r.op = 0x39 then if (bitsAt r.lo 14 8) = 0 then some (.fence r.h) else if (bitsAt r.lo 14 8) = 1 then some (.fenceWl r.h) else if (bitsAt r.lo 14 8) = 2 then some (.fenceXa r.h) else none else
  if r.op = 0x3a then some (.barInit r.h (reg r.a) (reg (bitsAt r.lo 28 6))) else
  if r.op = 0x3b then some (.barArv r.h (bitAt (bitsAt r.lo 14 8) 0) (reg r.d) (reg r.a) (reg (bitsAt r.lo 28 6))) else
  if r.op = 0x3c then some (.barExp r.h (reg r.a) (reg (bitsAt r.lo 28 6))) else
  if r.op = 0x3d then some (.barWt r.h (reg r.d) (reg r.a) (reg (bitsAt r.lo 28 6))) else
  if r.op = 0x3e then some (.barTwt r.h (reg r.d) (reg r.a) (reg (bitsAt r.lo 28 6)) (reg (bitsAt r.lo 22 6))) else
  if r.op = 0x3f then if (bitsAt r.lo 0 8) = 0 then some (.tileStRd r.h (reg r.d) (BitVec.ofNat 8 (bitsAt r.lo 8 8))) else if (bitsAt r.lo 0 8) = 1 then some (.tileStArm r.h (reg r.d) (reg r.a) (BitVec.ofNat 8 (bitsAt r.lo 8 8))) else if (bitsAt r.lo 0 8) = 2 then some (.tileStDone r.h (reg r.d) (BitVec.ofNat 8 (bitsAt r.lo 8 8))) else if (bitsAt r.lo 0 8) = 3 then some (.tileStAbort r.h (reg r.d) (BitVec.ofNat 8 (bitsAt r.lo 8 8))) else if (bitsAt r.lo 0 8) = 4 then some (.tileStRel r.h (reg r.d) (BitVec.ofNat 8 (bitsAt r.lo 8 8))) else none else
  none

/-- Row 0x4_ of R74: the instruction of the fields, where op, fn and the coded fields name one. -/
def build4 (r : Raw) : Option Instr :=
  if r.op = 0x40 then some (.tileWt r.h (reg r.d) (BitVec.ofNat 8 (bitsAt r.lo 8 8))) else
  if r.op = 0x41 then if (bitsAt r.lo 14 8) = 0 then some (.wlb r.h (reg r.d) (reg r.a)) else if (bitsAt r.lo 14 8) = 1 then some (.wlbWt r.h (reg r.a) (reg (bitsAt r.lo 28 6))) else none else
  none

/-- Row 0x5_ of R74: the instruction of the fields, where op, fn and the coded fields name one. -/
def build5 (r : Raw) : Option Instr :=
  if r.op = 0x50 then (EType.ofCode (bitsAt r.lo 14 4)).bind fun t => some (.vsetl r.h (BitVec.ofNat 2 (bitsAt r.lo 8 6)) (bitAt (bitsAt r.lo 8 6) 2) t (BitVec.ofNat 8 (bitsAt r.lo 0 8)) (reg r.d) (reg r.a)) else
  if r.op = 0x51 then (EType.ofCode (bitsAt r.lo 18 4)).bind fun t => some (.vld r.h t (reg r.d) (reg r.a) (BitVec.ofNat 14 (bitsAt r.lo 0 14))) else
  if r.op = 0x52 then (EType.ofCode (bitsAt r.lo 18 4)).bind fun t => some (.vlds r.h t (reg r.d) (reg r.a) (reg (bitsAt r.lo 28 6)) (BitVec.ofNat 14 (bitsAt r.lo 0 14))) else
  if r.op = 0x53 then (EType.ofCode (bitsAt r.lo 18 4)).bind fun t => (IdxT.ofCode (bitsAt (bitsAt r.lo 14 4) 2 2)).bind fun it => some (.vldx r.h t it (BitVec.ofNat 2 (bitsAt r.lo 14 4)) (reg r.d) (reg r.a) (reg (bitsAt r.lo 28 6)) (reg (bitsAt r.lo 22 6)) (BitVec.ofNat 14 (bitsAt r.lo 0 14))) else
  if r.op = 0x54 then (EType.ofCode (bitsAt r.lo 18 4)).bind fun t => some (.vst r.h t (reg r.d) (reg r.a) (BitVec.ofNat 14 (bitsAt r.lo 0 14))) else
  if r.op = 0x55 then (EType.ofCode (bitsAt r.lo 18 4)).bind fun t => some (.vsts r.h t (reg r.d) (reg r.a) (reg (bitsAt r.lo 28 6)) (BitVec.ofNat 14 (bitsAt r.lo 0 14))) else
  if r.op = 0x56 then (EType.ofCode (bitsAt r.lo 18 4)).bind fun t => (IdxT.ofCode (bitsAt (bitsAt r.lo 14 4) 2 2)).bind fun it => some (.vstx r.h t it (BitVec.ofNat 2 (bitsAt r.lo 14 4)) (reg r.d) (reg r.a) (reg (bitsAt r.lo 28 6)) (BitVec.ofNat 14 (bitsAt r.lo 0 14))) else
  if r.op = 0x57 then (EType.ofCode (bitsAt r.lo 18 4)).bind fun t => some (.vldq r.h t (reg r.d) (reg r.a)) else
  if r.op = 0x58 then (Rm.ofCode (bitsAt r.lo 20 2)).bind fun rm => some (.vadd r.h (bitAt (bitsAt r.lo 8 6) 1) (bitAt (bitsAt r.lo 8 6) 0) rm (reg r.d) (reg r.a) (reg (bitsAt r.lo 28 6))) else
  if r.op = 0x59 then (Rm.ofCode (bitsAt r.lo 20 2)).bind fun rm => some (.vsub r.h (bitAt (bitsAt r.lo 8 6) 1) (bitAt (bitsAt r.lo 8 6) 0) rm (reg r.d) (reg r.a) (reg (bitsAt r.lo 28 6))) else
  if r.op = 0x5a then (Rm.ofCode (bitsAt r.lo 20 2)).bind fun rm => some (.vmul r.h (bitAt (bitsAt r.lo 8 6) 1) (bitAt (bitsAt r.lo 8 6) 0) rm (reg r.d) (reg r.a) (reg (bitsAt r.lo 28 6))) else
  if r.op = 0x5b then (Rm.ofCode (bitsAt r.lo 20 2)).bind fun rm => some (.vfma r.h (bitAt (bitsAt r.lo 8 6) 0) rm (reg r.d) (reg r.a) (reg (bitsAt r.lo 28 6)) (reg (bitsAt r.lo 22 6))) else
  if r.op = 0x5c then (Rm.ofCode (bitsAt r.lo 20 2)).bind fun rm => some (.vfms r.h (bitAt (bitsAt r.lo 8 6) 0) rm (reg r.d) (reg r.a) (reg (bitsAt r.lo 28 6)) (reg (bitsAt r.lo 22 6))) else
  if r.op = 0x5d then some (.vmin r.h (bitAt (bitsAt r.lo 8 6) 0) (reg r.d) (reg r.a) (reg (bitsAt r.lo 28 6))) else
  if r.op = 0x5e then some (.vmax r.h (bitAt (bitsAt r.lo 8 6) 0) (reg r.d) (reg r.a) (reg (bitsAt r.lo 28 6))) else
  if r.op = 0x5f then some (.vabs r.h (bitAt (bitsAt r.lo 8 6) 1) (reg r.d) (reg r.a)) else
  none

/-- Row 0x6_ of R74: the instruction of the fields, where op, fn and the coded fields name one. -/
def build6 (r : Raw) : Option Instr :=
  if r.op = 0x60 then some (.vneg r.h (bitAt (bitsAt r.lo 8 6) 1) (reg r.d) (reg r.a)) else
  if r.op = 0x61 then some (.vand r.h (bitAt (bitsAt r.lo 8 6) 0) (reg r.d) (reg r.a) (reg (bitsAt r.lo 28 6))) else
  if r.op = 0x62 then some (.vor r.h (bitAt (bitsAt r.lo 8 6) 0) (reg r.d) (reg r.a) (reg (bitsAt r.lo 28 6))) else
  if r.op = 0x63 then some (.vxor r.h (bitAt (bitsAt r.lo 8 6) 0) (reg r.d) (reg r.a) (reg (bitsAt r.lo 28 6))) else
  if r.op = 0x64 then (src2Of (bitsAt r.lo 8 6)).bind fun k => some (.vsll r.h k (reg r.d) (reg r.a) (reg (bitsAt r.lo 28 6)) (BitVec.ofNat 8 (bitsAt r.lo 0 8))) else
  if r.op = 0x65 then (src2Of (bitsAt r.lo 8 6)).bind fun k => some (.vsrl r.h k (reg r.d) (reg r.a) (reg (bitsAt r.lo 28 6)) (BitVec.ofNat 8 (bitsAt r.lo 0 8))) else
  if r.op = 0x66 then (src2Of (bitsAt r.lo 8 6)).bind fun k => (IRm.ofCode (bitsAt r.lo 20 2)).bind fun rm => some (.vsra r.h k (bitAt (bitsAt r.lo 8 6) 3) rm (reg r.d) (reg r.a) (reg (bitsAt r.lo 28 6)) (BitVec.ofNat 8 (bitsAt r.lo 0 8))) else
  if r.op = 0x67 then some (.vmulh r.h (bitAt (bitsAt r.lo 8 6) 0) (reg r.d) (reg r.a) (reg (bitsAt r.lo 28 6))) else
  if r.op = 0x68 then some (.vdot2 r.h (bitAt (bitsAt r.lo 8 6) 1) (bitAt (bitsAt r.lo 8 6) 0) (reg r.d) (reg r.a) (reg (bitsAt r.lo 28 6))) else
  if r.op = 0x69 then (Rm.ofCode (bitsAt r.lo 20 2)).bind fun rm => some (.vmacw r.h (bitAt (bitsAt r.lo 8 6) 1) rm (reg r.d) (reg r.a) (reg (bitsAt r.lo 28 6))) else
  if r.op = 0x6a then (EType.ofCode (bitsAt r.lo 14 4)).bind fun t2 => (IRm.ofCode (bitsAt r.lo 20 2)).bind fun rm => some (.vnarrow r.h (bitAt (bitsAt r.lo 8 6) 1) t2 rm (BitVec.ofNat 8 (bitsAt r.lo 0 8)) (reg r.d) (reg r.a)) else
  if r.op = 0x6b then (EType.ofCode (bitsAt r.lo 14 4)).bind fun t2 => some (.vwiden r.h t2 (reg r.d) (reg r.a)) else
  if r.op = 0x6c then (EType.ofCode (bitsAt r.lo 14 4)).bind fun t2 => (Rm.ofCode (bitsAt r.lo 20 2)).bind fun rm => (Ov.ofCode (bitsAt r.lo 18 2)).bind fun ov => some (.vcvt r.h t2 rm ov (reg r.d) (reg r.a)) else
  if r.op = 0x6d then (VCond.ofCode (bitsAt (bitsAt r.lo 8 6) 0 3)).bind fun k => some (.vcmp r.h k (bitAt (bitsAt r.lo 8 6) 3) (reg r.d) (reg r.a) (reg (bitsAt r.lo 28 6))) else
  if r.op = 0x6e then some (.vsel r.h (reg r.d) (reg r.a) (reg (bitsAt r.lo 28 6)) (reg (bitsAt r.lo 22 6))) else
  if r.op = 0x6f then some (.vslide r.h (bitAt (bitsAt r.lo 8 6) 0) (bitAt (bitsAt r.lo 8 6) 1) (reg r.d) (reg r.a) (reg (bitsAt r.lo 28 6)) (BitVec.ofNat 8 (bitsAt r.lo 0 8))) else
  none

/-- Row 0x7_ of R74: the instruction of the fields, where op, fn and the coded fields name one. -/
def build7 (r : Raw) : Option Instr :=
  if r.op = 0x70 then (EType.ofCode (bitsAt r.lo 14 4)).bind fun t2 => some (.vperm r.h t2 (reg r.d) (reg r.a) (reg (bitsAt r.lo 28 6))) else
  if r.op = 0x71 then if (bitsAt r.lo 8 6) = 0 then some (.vbcast r.h (reg r.d) (reg r.a)) else if (bitsAt r.lo 8 6) = 1 then some (.vbcastEl r.h (reg r.d) (reg r.a) (reg (bitsAt r.lo 28 6))) else none else
  if r.op = 0x72 then if (bitsAt r.lo 8 6) = 0 then some (.vmovx r.h (reg r.d) (reg r.a) (reg (bitsAt r.lo 28 6))) else if (bitsAt r.lo 8 6) = 1 then some (.vmovxV r.h (reg r.d) (reg r.a) (reg (bitsAt r.lo 28 6))) else none else
  if r.op = 0x73 then (RedK.ofCode (bitsAt (bitsAt r.lo 8 6) 0 6)).bind fun k => some (.vred r.h k (reg r.d) (reg r.a) (reg (bitsAt r.lo 28 6))) else
  if r.op = 0x74 then some (.vredo r.h (reg r.d) (reg r.a) (reg (bitsAt r.lo 28 6))) else
  if r.op = 0x75 then some (.vscan r.h (bitAt (bitsAt r.lo 8 6) 0) (reg r.d) (reg r.a)) else
  if r.op = 0x76 then if (bitsAt r.lo 8 6) = 0 then some (.viota r.h (reg r.d) (reg r.a)) else if (bitsAt r.lo 8 6) = 1 then some (.viotaIdx r.h (reg r.d)) else none else
  if r.op = 0x77 then some (.vcompress r.h (reg r.d) (reg r.a) (reg (bitsAt r.lo 28 6))) else
  if r.op = 0x78 then some (.vexpand r.h (reg r.d) (reg r.a) (reg (bitsAt r.lo 28 6))) else
  if r.op = 0x79 then (SfuK.ofCode (bitsAt (bitsAt r.lo 8 6) 0 6)).bind fun k => (Rm.ofCode (bitsAt r.lo 20 2)).bind fun rm => some (.vsfu r.h k rm (reg r.d) (reg r.a)) else
  if r.op = 0x7a then (Rm.ofCode (bitsAt r.lo 20 2)).bind fun rm => some (.vscl r.h rm (BitVec.ofNat 8 (bitsAt r.lo 0 8)) (reg r.d) (reg r.a) (reg (bitsAt r.lo 28 6))) else
  if r.op = 0x7b then some (.vpush r.h (bitAt (bitsAt r.lo 8 6) 0) (bitAt (bitsAt r.lo 8 6) 1) (reg r.a) (reg (bitsAt r.lo 28 6))) else
  none

/-- Row 0x9_ of R74: the instruction of the fields, where op, fn and the coded fields name one. -/
def build9 (r : Raw) : Option Instr :=
  if r.op = 0x90 then some (.mtl r.h (reg r.d) (reg r.a) (reg (bitsAt r.lo 28 6)) (reg (bitsAt r.lo 22 6))) else
  if r.op = 0x91 then (BindK.ofCode (bitsAt (bitsAt r.lo 0 8) 1 2)).bind fun src => (MType.ofCode (bitsAt (bitsAt r.lo 0 8) 3 5)).bind fun t => some (.mbind r.h (bitAt (bitsAt r.lo 0 8) 0) src t (reg r.a)) else
  if r.op = 0x92 then some (.mfill r.h (bitAt (bitsAt r.lo 0 8) 0) (bitAt (bitsAt r.lo 0 8) 1) (bitAt (bitsAt r.lo 0 8) 2) (reg r.d) (reg r.a) (reg (bitsAt r.lo 28 6)) (reg (bitsAt r.lo 22 6))) else
  if r.op = 0x93 then (MType.ofCode (bitsAt (bitsAt r.lo 0 8) 0 3)).bind fun ta => (MType.ofCode (bitsAt (bitsAt r.lo 0 8) 3 3)).bind fun tb => some (.mma r.h (bitAt (bitsAt r.lo 0 8) 6) ta tb (BitVec.ofNat 8 (bitsAt r.lo 8 8)) (reg r.a) (reg (bitsAt r.lo 28 6)) (reg (bitsAt r.lo 22 6))) else
  if r.op = 0x94 then some (.mzero r.h (BitVec.ofNat 8 (bitsAt r.lo 8 8))) else
  if r.op = 0x95 then (Rm.ofCode (bitsAt (bitsAt r.lo 0 8) 0 2)).bind fun rm => (Ov.ofCode (bitsAt (bitsAt r.lo 0 8) 2 2)).bind fun ov => some (.mrd r.h rm ov (BitVec.ofNat 8 (bitsAt r.lo 8 8)) (reg r.d) (reg r.a)) else
  if r.op = 0x96 then some (.mwr r.h (BitVec.ofNat 8 (bitsAt r.lo 8 8)) (reg r.d) (reg r.a)) else
  if r.op = 0x97 then if (bitsAt r.lo 0 8) = 0 then some (.mbs r.h (BitVec.ofNat 8 (bitsAt r.lo 8 8)) (reg r.a)) else if (bitsAt r.lo 0 8) = 1 then some (.mbsRd r.h (BitVec.ofNat 8 (bitsAt r.lo 8 8)) (reg r.d)) else none else
  if r.op = 0x98 then (EType.ofCode (bitsAt (bitsAt r.lo 0 8) 0 4)).bind fun ty => (Rm.ofCode (bitsAt (bitsAt r.lo 0 8) 4 2)).bind fun rm => (Ov.ofCode (bitsAt (bitsAt r.lo 0 8) 6 2)).bind fun ov => some (.mdrain r.h ty rm ov (BitVec.ofNat 8 (bitsAt r.lo 8 8)) (reg r.d) (reg r.a) (reg (bitsAt r.lo 28 6)) (reg (bitsAt r.lo 22 6))) else
  if r.op = 0x99 then if (bitsAt r.lo 0 8) = 0 then some (.mownAcq r.h (reg r.d)) else if (bitsAt r.lo 0 8) = 1 then some (.mownTry r.h (reg r.d)) else if (bitsAt r.lo 0 8) = 2 then some (.mownRel r.h) else if (bitsAt r.lo 0 8) = 3 then some (.mownRd r.h (reg r.d)) else none else
  none

/-- Row 0xA_ of R74: the instruction of the fields, where op, fn and the coded fields name one. -/
def buildA (r : Raw) : Option Instr :=
  if r.op = 0xa0 then if (bitsAt r.lo 8 8) = 0 then some (.cdefArena r.h (reg r.a) (reg (bitsAt r.lo 28 6)) (reg (bitsAt r.lo 22 6))) else if (bitsAt r.lo 8 8) = 1 then (EType.ofCode (bitsAt (bitsAt r.lo 0 8) 0 8)).bind fun t => some (.cdefT r.h t (reg r.d) (reg r.a) (reg (bitsAt r.lo 28 6))) else if (bitsAt r.lo 8 8) = 2 then some (.cdefLen r.h (reg r.d) (reg r.a)) else none else
  if r.op = 0xa1 then if (bitsAt r.lo 8 8) = 0 then some (.clen r.h (reg r.d) (reg r.a)) else if (bitsAt r.lo 8 8) = 1 then some (.clenCap r.h (reg r.d) (reg r.a)) else if (bitsAt r.lo 8 8) = 2 then some (.clenDesc r.h (reg r.d) (reg r.a)) else if (bitsAt r.lo 8 8) = 3 then some (.clenArena r.h (reg r.d)) else none else
  if r.op = 0xa2 then if (bitsAt r.lo 8 8) = 0 then some (.cld r.h (reg r.d) (reg r.a) (reg (bitsAt r.lo 28 6)) (reg (bitsAt r.lo 0 8)) (reg (bitsAt r.lo 16 6))) else if (bitsAt r.lo 8 8) = 1 then some (.cldSt r.h (reg r.d) (reg r.a) (reg (bitsAt r.lo 0 8))) else none else
  if r.op = 0xa3 then (VCond.ofCode (bitsAt (bitsAt r.lo 8 8) 0 3)).bind fun k => some (.csel r.h k (bitAt (bitsAt r.lo 8 8) 3) (reg r.d) (reg r.a) (reg (bitsAt r.lo 28 6)) (reg (bitsAt r.lo 0 8)) (reg (bitsAt r.lo 16 6))) else
  if r.op = 0xa4 then (VCond.ofCode (bitsAt (bitsAt r.lo 8 8) 0 8)).bind fun k => some (.cselp r.h k (reg r.d) (reg r.a) (reg (bitsAt r.lo 28 6)) (reg (bitsAt r.lo 22 6)) (reg (bitsAt r.lo 0 8)) (reg (bitsAt r.lo 16 6))) else
  if r.op = 0xa5 then some (.cgath r.h (reg r.d) (reg r.a) (reg (bitsAt r.lo 28 6)) (reg (bitsAt r.lo 0 8)) (reg (bitsAt r.lo 16 6))) else
  if r.op = 0xa6 then (AmoK.ofCode (bitsAt (bitsAt r.lo 8 8) 0 8)).bind fun k => some (.cscat r.h k (reg r.d) (reg r.a) (reg (bitsAt r.lo 28 6)) (reg (bitsAt r.lo 0 8))) else
  if r.op = 0xa7 then (JoinK.ofCode (bitsAt (bitsAt r.lo 8 8) 0 8)).bind fun k => some (.cjoin r.h k (reg r.d) (reg r.a) (reg (bitsAt r.lo 28 6)) (reg (bitsAt r.lo 0 8)) (reg (bitsAt r.lo 16 6))) else
  if r.op = 0xa8 then some (.csort r.h (bitAt (bitsAt r.lo 8 8) 0) (bitAt (bitsAt r.lo 8 8) 1) (reg r.d) (reg r.a) (reg (bitsAt r.lo 0 8))) else
  if r.op = 0xa9 then some (.cgrp r.h (reg r.d) (reg r.a) (reg (bitsAt r.lo 0 8)) (reg (bitsAt r.lo 16 6))) else
  if r.op = 0xaa then (AggK.ofCode (bitsAt (bitsAt r.lo 8 8) 0 3)).bind fun k => some (.cagg r.h k (bitAt (bitsAt r.lo 8 8) 3) (reg r.d) (reg r.a) (reg (bitsAt r.lo 28 6)) (reg (bitsAt r.lo 0 8)) (reg (bitsAt r.lo 16 6))) else
  if r.op = 0xab then some (.cuniq r.h (bitAt (bitsAt r.lo 8 8) 0) (reg r.d) (reg r.a) (reg (bitsAt r.lo 0 8)) (reg (bitsAt r.lo 16 6))) else
  if r.op = 0xac then some (.cres r.h (BitVec.ofNat 4 ((bitsAt r.lo 8 8) / 16)) (BitVec.ofNat 4 (bitsAt r.lo 8 8)) (reg r.d) (reg r.a) (reg (bitsAt r.lo 28 6)) (reg (bitsAt r.lo 22 6)) (reg (bitsAt r.lo 0 8)) (reg (bitsAt r.lo 16 6))) else
  if r.op = 0xad then if (bitsAt r.lo 8 8) = 0 then some (.ccurClr r.h) else if (bitsAt r.lo 8 8) = 1 then some (.ccurRd r.h (reg r.d)) else if (bitsAt r.lo 8 8) = 2 then some (.ccurWr r.h (reg r.a)) else none else
  if r.op = 0xae then if (bitsAt r.lo 8 8) = 0 then some (.cvecLd r.h (reg r.d) (reg r.a) (reg (bitsAt r.lo 28 6)) (reg (bitsAt r.lo 0 8))) else if (bitsAt r.lo 8 8) = 1 then some (.cvecApp r.h (reg r.d) (reg r.a) (reg (bitsAt r.lo 0 8)) (reg (bitsAt r.lo 16 6))) else none else
  none

/-- Row 0xB_ of R74: the instruction of the fields, where op, fn and the coded fields name one. -/
def buildB (r : Raw) : Option Instr :=
  if r.op = 0xb0 then some (.hcopy r.h (BitVec.ofNat 3 (bitsAt r.lo 0 8)) (bitAt (bitsAt r.lo 0 8) 3) (bitAt (bitsAt r.lo 0 8) 4) (bitAt (bitsAt r.lo 0 8) 5) (bitAt (bitsAt r.lo 0 8) 6) (reg r.d) (reg r.a) (reg (bitsAt r.lo 28 6)) (reg (bitsAt r.lo 22 6)) (reg (bitsAt r.lo 16 6)) (BitVec.ofNat 8 (bitsAt r.lo 8 8))) else
  if r.op = 0xb1 then some (.hxfm r.h (bitAt (bitsAt r.lo 0 8) 3) (bitAt (bitsAt r.lo 0 8) 4) (bitAt (bitsAt r.lo 0 8) 6) (reg r.d) (reg r.a) (reg (bitsAt r.lo 16 6)) (BitVec.ofNat 8 (bitsAt r.lo 8 8))) else
  if r.op = 0xb2 then some (.hprog r.h (reg r.d) (reg r.a)) else
  if r.op = 0xb3 then some (.hfab r.h (BitVec.ofNat 3 (bitsAt r.lo 0 8)) (bitAt (bitsAt r.lo 0 8) 3) (bitAt (bitsAt r.lo 0 8) 4) (bitAt (bitsAt r.lo 0 8) 5) (bitAt (bitsAt r.lo 0 8) 6) (bitAt (bitsAt r.lo 0 8) 7) (reg r.d) (reg r.a) (reg (bitsAt r.lo 28 6)) (reg (bitsAt r.lo 22 6)) (reg (bitsAt r.lo 16 6)) (BitVec.ofNat 8 (bitsAt r.lo 8 8))) else
  if r.op = 0xb4 then if (bitsAt r.lo 0 8) = 0 then some (.hstatRd r.h (reg r.d) (reg r.a)) else if (bitsAt r.lo 0 8) = 1 then some (.hstatWt r.h (reg r.d) (reg r.a)) else if (bitsAt r.lo 0 8) = 2 then some (.hstatRel r.h (reg r.d) (reg r.a)) else if (bitsAt r.lo 0 8) = 3 then some (.hstatAbort r.h (reg r.d) (reg r.a)) else none else
  if r.op = 0xb5 then if (bitsAt r.lo 0 8) = 0 then some (.hcsumRd r.h (reg r.d)) else if (bitsAt r.lo 0 8) = 1 then some (.hcsumSet r.h (reg r.a)) else if (bitsAt r.lo 0 8) = 2 then some (.hcsumChk r.h (reg r.d) (reg r.a)) else none else
  if r.op = 0xb6 then (ReedM.ofCode (bitsAt (bitsAt r.lo 0 8) 0 8)).bind fun m => some (.xco r.h m (reg r.a)) else
  if r.op = 0xb7 then some (.xnext r.h (reg r.d) (reg (bitsAt r.lo 28 6))) else
  if r.op = 0xb8 then if (bitsAt r.lo 0 8) = 0 then some (.xcurRdl r.h (reg r.d)) else if (bitsAt r.lo 0 8) = 1 then some (.xcurRdh r.h (reg r.d)) else if (bitsAt r.lo 0 8) = 2 then some (.xcurWrl r.h (reg r.a)) else if (bitsAt r.lo 0 8) = 3 then some (.xcurWrh r.h (reg r.a)) else if (bitsAt r.lo 0 8) = 4 then some (.xcurClr r.h) else none else
  if r.op = 0xb9 then if (bitsAt r.lo 0 8) = 0 then some (.tnow r.h (reg r.d)) else if (bitsAt r.lo 0 8) = 1 then some (.tnowSt r.h (reg r.d)) else none else
  if r.op = 0xba then if (bitsAt r.lo 0 8) = 0 then some (.tarm r.h (reg r.d) (reg r.a)) else if (bitsAt r.lo 0 8) = 1 then some (.tarmClr r.h (reg r.d)) else none else
  none

/-- Row 0xC_ of R74: the instruction of the fields, where op, fn and the coded fields name one. -/
def buildC (r : Raw) : Option Instr :=
  if r.op = 0xc0 then some (.trap r.h (BitVec.ofNat 16 (bitsAt r.lo 0 16))) else
  if r.op = 0xc1 then some (.eret r.h) else
  if r.op = 0xc2 then (SReg.ofSel (bitsAt r.lo 16 12)).bind fun k => some (.srd r.h k (reg r.d)) else
  if r.op = 0xc3 then (SReg.ofSel (bitsAt r.lo 16 12)).bind fun k => some (.swr r.h k (reg r.a)) else
  if r.op = 0xc4 then some (.halt r.h (BitVec.ofNat 16 (bitsAt r.lo 0 16))) else
  if r.op = 0xc5 then some (.bkpt r.h (BitVec.ofNat 16 (bitsAt r.lo 0 16))) else
  if r.op = 0xc6 then some (.yield r.h) else
  if r.op = 0xc7 then if (bitsAt r.lo 0 16) = 0 then some (.xinvPg r.h (reg r.a) (reg (bitsAt r.lo 28 6))) else if (bitsAt r.lo 0 16) = 1 then some (.xinvAll r.h (reg r.a)) else none else
  if r.op = 0xc8 then some (.keyz r.h (reg r.a)) else
  if r.op = 0xc9 then if (bitsAt r.lo 0 16) = 0 then some (.scrubSt r.h (reg r.a)) else if (bitsAt r.lo 0 16) = 1 then some (.scrubRd r.h (reg r.d) (reg r.a)) else if (bitsAt r.lo 0 16) = 2 then some (.scrubWt r.h (reg r.a)) else none else
  if r.op = 0xca then if (bitsAt r.lo 0 16) = 0 then some (.frqN r.h (reg r.d)) else if (bitsAt r.lo 0 16) = 1 then some (.frqPop r.h (reg r.d) (reg r.a)) else none else
  if r.op = 0xcb then some (.wfe r.h (BitVec.ofNat 16 (bitsAt r.lo 0 16)) (reg r.d)) else
  if r.op = 0xcc then (CntK.ofSel (bitsAt r.lo 16 12)).bind fun k => some (.cnt r.h k (reg r.d)) else
  none

/-- The instruction a word's fields name (R74). -/
def build (r : Raw) : Option Instr :=
  if r.op / 16 = 0 then build0 r else
  if r.op / 16 = 1 then build1 r else
  if r.op / 16 = 2 then build2 r else
  if r.op / 16 = 3 then build3 r else
  if r.op / 16 = 4 then build4 r else
  if r.op / 16 = 5 then build5 r else
  if r.op / 16 = 6 then build6 r else
  if r.op / 16 = 7 then build7 r else
  if r.op / 16 = 9 then build9 r else
  if r.op / 16 = 10 then buildA r else
  if r.op / 16 = 11 then buildB r else
  if r.op / 16 = 12 then buildC r else
  none

/-- The micro-op a 32-bit word names (R82, R83). -/
def buildMicro (w : Nat) : Option Instr :=
  if bitsAt w 27 5 = 0 then some (.hrd (Fin.ofNat 8 (bitsAt w 24 3)) (BitVec.ofNat 12 (bitsAt w 0 12))) else
  if bitsAt w 27 5 = 1 then some (.hwr (Fin.ofNat 8 (bitsAt w 21 3)) (BitVec.ofNat 12 (bitsAt w 0 12))) else
  if bitsAt w 27 5 = 2 then (Rm.ofCode (bitsAt w 14 2)).bind fun rm => (Ov.ofCode (bitsAt w 12 2)).bind fun ov => some (.hcvt (Fin.ofNat 8 (bitsAt w 24 3)) (Fin.ofNat 8 (bitsAt w 21 3)) (BitVec.ofNat 5 (bitsAt w 16 5)) rm ov (BitVec.ofNat 5 (bitsAt w 0 5))) else
  if bitsAt w 27 5 = 3 then (Rm.ofCode (bitsAt w 14 2)).bind fun rm => (Ov.ofCode (bitsAt w 12 2)).bind fun ov => some (.hqnt (Fin.ofNat 8 (bitsAt w 24 3)) (Fin.ofNat 8 (bitsAt w 21 3)) (BitVec.ofNat 5 (bitsAt w 16 5)) rm ov (BitVec.ofNat 5 (bitsAt w 0 5)) (bitAt w 5)) else
  if bitsAt w 27 5 = 4 then some (.hfrm (Fin.ofNat 8 (bitsAt w 24 3)) (Fin.ofNat 8 (bitsAt w 21 3)) (BitVec.ofNat 5 (bitsAt w 16 5)) (BitVec.ofNat 8 (bitsAt w 0 8)) (bitAt w 8)) else
  if bitsAt w 27 5 = 5 then (Rm.ofCode (bitsAt w 14 2)).bind fun rm => (Ov.ofCode (bitsAt w 12 2)).bind fun ov => some (.hunf (Fin.ofNat 8 (bitsAt w 24 3)) (Fin.ofNat 8 (bitsAt w 21 3)) (BitVec.ofNat 5 (bitsAt w 16 5)) rm ov (bitAt w 0)) else
  if bitsAt w 27 5 = 6 then some (.hxps (Fin.ofNat 8 (bitsAt w 24 3)) (Fin.ofNat 8 (bitsAt w 21 3)) (BitVec.ofNat 5 (bitsAt w 16 5)) (BitVec.ofNat 12 (bitsAt w 0 12))) else
  if bitsAt w 27 5 = 7 then some (.hprm (Fin.ofNat 8 (bitsAt w 24 3)) (Fin.ofNat 8 (bitsAt w 21 3)) (BitVec.ofNat 5 (bitsAt w 16 5)) (BitVec.ofNat 12 (bitsAt w 0 12))) else
  if bitsAt w 27 5 = 8 then some (.hpak (Fin.ofNat 8 (bitsAt w 24 3)) (Fin.ofNat 8 (bitsAt w 21 3)) (bitAt w 0)) else
  if bitsAt w 27 5 = 9 then some (.hfold (Fin.ofNat 8 (bitsAt w 24 3)) (Fin.ofNat 8 (bitsAt w 21 3))) else
  if bitsAt w 27 5 = 10 then some (.hunfold (Fin.ofNat 8 (bitsAt w 24 3)) (Fin.ofNat 8 (bitsAt w 21 3))) else
  if bitsAt w 27 5 = 11 then some (.hcrc (Fin.ofNat 8 (bitsAt w 21 3))) else
  if bitsAt w 27 5 = 12 then some (.hhsh (Fin.ofNat 8 (bitsAt w 21 3))) else
  if bitsAt w 27 5 = 13 then some (.hloop (BitVec.ofNat 6 (bitsAt w 6 6)) (BitVec.ofNat 6 (bitsAt w 0 6))) else
  if bitsAt w 27 5 = 14 then some (.endPass) else
  if bitsAt w 27 5 = 15 then some (.hnop) else
  none

/-- Whether the major opcode is listed in R74, and whether it is of class A. -/
def opListed (op : Nat) : Bool := [0x00, 0x01, 0x02, 0x03, 0x04, 0x05, 0x06, 0x07, 0x08, 0x09, 0x0a, 0x0b, 0x0c, 0x0d, 0x0e, 0x0f, 0x10, 0x11, 0x12, 0x13, 0x14, 0x15, 0x16, 0x17, 0x18, 0x19, 0x1a, 0x1b, 0x1c, 0x1d, 0x1e, 0x1f, 0x20, 0x21, 0x22, 0x23, 0x24, 0x25, 0x26, 0x27, 0x28, 0x29, 0x30, 0x31, 0x32, 0x33, 0x34, 0x35, 0x36, 0x37, 0x38, 0x39, 0x3a, 0x3b, 0x3c, 0x3d, 0x3e, 0x3f, 0x40, 0x41, 0x50, 0x51, 0x52, 0x53, 0x54, 0x55, 0x56, 0x57, 0x58, 0x59, 0x5a, 0x5b, 0x5c, 0x5d, 0x5e, 0x5f, 0x60, 0x61, 0x62, 0x63, 0x64, 0x65, 0x66, 0x67, 0x68, 0x69, 0x6a, 0x6b, 0x6c, 0x6d, 0x6e, 0x6f, 0x70, 0x71, 0x72, 0x73, 0x74, 0x75, 0x76, 0x77, 0x78, 0x79, 0x7a, 0x7b, 0x90, 0x91, 0x92, 0x93, 0x94, 0x95, 0x96, 0x97, 0x98, 0x99, 0xa0, 0xa1, 0xa2, 0xa3, 0xa4, 0xa5, 0xa6, 0xa7, 0xa8, 0xa9, 0xaa, 0xab, 0xac, 0xad, 0xae, 0xb0, 0xb1, 0xb2, 0xb3, 0xb4, 0xb5, 0xb6, 0xb7, 0xb8, 0xb9, 0xba, 0xc0, 0xc1, 0xc2, 0xc3, 0xc4, 0xc5, 0xc6, 0xc7, 0xc8, 0xc9, 0xca, 0xcb, 0xcc].contains op

/-- The A-class major opcodes of R74. -/
def opA (op : Nat) : Bool := [0x00, 0x01, 0x02, 0x03, 0x04, 0x05, 0x06, 0x07, 0x08, 0x09, 0x0a, 0x0b, 0x0c, 0x0d, 0x0e, 0x0f, 0x10, 0x11, 0x12, 0x13, 0x14, 0x15, 0x16, 0x17, 0x18, 0x19, 0x1a, 0x1b, 0x20, 0x21, 0x22, 0x23, 0x24, 0x25, 0x26, 0x27, 0x29, 0x30, 0x31, 0x32, 0x34, 0x35, 0x36, 0x37, 0x39, 0x3a, 0x3b, 0x3c, 0x3f, 0x41, 0xb0, 0xb1, 0xb2, 0xb3, 0xb4, 0xb5, 0xb9, 0xba, 0xc0, 0xc1, 0xc2, 0xc3, 0xc4, 0xc5, 0xc6, 0xc7, 0xc8, 0xc9, 0xca, 0xcb, 0xcc].contains op

/-- The rules of row 0x0_ of R74. -/
def fieldRules0 (r : Raw) : List (Nat × Nat × FieldRule) :=
  if r.op = 0x00 then [(22, 6, .zero), (0, 14, .zero)] else
  if r.op = 0x01 then [(22, 6, .zero), (0, 14, .zero)] else
  if r.op = 0x02 then [(22, 6, .zero), (0, 14, .zero)] else
  if r.op = 0x03 then [(22, 6, .zero), (0, 14, .zero)] else
  if r.op = 0x04 then [(22, 6, .zero), (0, 14, .zero)] else
  if r.op = 0x05 then [(22, 6, .zero), (0, 14, .zero)] else
  if r.op = 0x06 then [(22, 6, .zero), (0, 14, .zero)] else
  if r.op = 0x07 then [(22, 6, .zero), (0, 14, .zero)] else
  if r.op = 0x08 then [(22, 6, .zero), (0, 14, .zero)] else
  if r.op = 0x09 then [(22, 6, .zero), (0, 14, .zero)] else
  if r.op = 0x0a then [(22, 6, .zero), (0, 14, .zero)] else
  if r.op = 0x0b then [(22, 6, .zero), (0, 14, .zero)] else
  if r.op = 0x0c then [(22, 6, .zero), (0, 14, .zero)] else
  if r.op = 0x0d then [(22, 6, .zero), (0, 14, .zero)] else
  if r.op = 0x0e then [(28, 6, .zero), (22, 6, .zero), (0, 14, .zero)] else
  if r.op = 0x0f then [(28, 6, .zero), (22, 6, .zero), (0, 14, .zero)] else
  []

/-- The rules of row 0x1_ of R74. -/
def fieldRules1 (r : Raw) : List (Nat × Nat × FieldRule) :=
  if r.op = 0x10 then [(28, 6, .zero), (22, 6, .zero), (0, 14, .zero)] else
  if r.op = 0x11 then [] else
  if r.op = 0x12 then [] else
  if r.op = 0x13 then [] else
  if r.op = 0x14 then [] else
  if r.op = 0x15 then [(6, 26, .zero)] else
  if r.op = 0x16 then [(34, 6, .zero)] else
  if r.op = 0x17 then [] else
  if r.op = 0x18 then [(34, 6, .zero)] else
  if r.op = 0x19 then [(22, 6, .pr), (0, 14, .zero)] else
  if r.op = 0x1a then [(40, 6, .pr), (22, 6, .zero), (0, 14, .zero)] else
  if r.op = 0x1b then [(40, 6, .pr)] else
  if r.op = 0x1c then [(40, 6, .pr), (34, 6, .pr), (28, 6, .pr), (22, 6, .zero), (0, 14, .zero)] else
  if r.op = 0x1d then if bitsAt r.lo 32 2 = 1 then [(40, 6, .pr)] else if bitsAt r.lo 32 2 = 2 then [(40, 6, .pr), (34, 6, .zero)] else if bitsAt r.lo 32 2 = 3 then [(40, 6, .pr), (0, 32, .zero)] else [(40, 6, .pr), (34, 6, .zero)] else
  if r.op = 0x1e then [(34, 6, .pr), (28, 6, .zero), (22, 6, .zero), (0, 14, .zero)] else
  if r.op = 0x1f then [(34, 6, .pr), (28, 6, .zero), (22, 6, .zero), (0, 14, .zero)] else
  []

/-- The rules of row 0x2_ of R74. -/
def fieldRules2 (r : Raw) : List (Nat × Nat × FieldRule) :=
  if r.op = 0x20 then [(40, 6, .zero)] else
  if r.op = 0x21 then [(40, 6, .zero), (34, 6, .zero)] else
  if r.op = 0x22 then [(34, 6, .zero)] else
  if r.op = 0x23 then [(40, 6, .zero), (28, 6, .zero), (22, 6, .zero), (0, 14, .zero)] else
  if r.op = 0x24 then [(28, 6, .zero), (22, 6, .zero), (0, 14, .zero)] else
  if r.op = 0x25 then [(40, 6, .lc)] else
  if r.op = 0x26 then [(40, 6, .pr)] else
  if r.op = 0x27 then [(40, 6, .zero), (34, 6, .zero), (28, 6, .zero), (22, 6, .zero), (0, 14, .zero)] else
  if r.op = 0x28 then [(40, 6, .zero), (34, 6, .zero), (16, 16, .zero)] else
  if r.op = 0x29 then [(40, 6, .zero), (34, 6, .zero), (28, 6, .zero), (22, 6, .zero), (0, 14, .zero)] else
  []

/-- The rules of row 0x3_ of R74. -/
def fieldRules3 (r : Raw) : List (Nat × Nat × FieldRule) :=
  if r.op = 0x30 then [(28, 6, .zero)] else
  if r.op = 0x31 then [(28, 6, .zero), (24, 1, .zero)] else
  if r.op = 0x32 then if bitsAt r.lo 20 4 = 1 then [(40, 6, .dq), (28, 6, .zero), (25, 3, .zero), (24, 1, .zero)] else if bitsAt r.lo 20 4 = 2 then [(40, 6, .dq), (28, 6, .zero), (25, 3, .zero), (24, 1, .zero), (0, 20, .zero)] else if bitsAt r.lo 20 4 = 3 then [(34, 6, .rq), (28, 6, .zero), (25, 3, .zero), (24, 1, .zero), (0, 20, .zero)] else [(40, 6, .dq), (28, 6, .zero)] else
  if r.op = 0x33 then if bitsAt r.lo 14 8 = 1 then [(40, 6, .rq), (28, 6, .zero), (22, 6, .zero), (0, 14, .zero)] else if bitsAt r.lo 14 8 = 2 then [(40, 6, .rq), (34, 6, .dq), (28, 6, .zero), (22, 6, .zero), (0, 14, .zero)] else [(34, 6, .dq), (28, 6, .zero), (22, 6, .zero), (0, 14, .zero)] else
  if r.op = 0x34 then [(28, 6, .zero), (24, 1, .zero)] else
  if r.op = 0x35 then [] else
  if r.op = 0x36 then [] else
  if r.op = 0x37 then [(28, 6, .zero), (24, 1, .zero)] else
  if r.op = 0x38 then [(22, 6, .zero)] else
  if r.op = 0x39 then [(40, 6, .zero), (34, 6, .zero), (28, 6, .zero), (22, 6, .zero), (0, 14, .zero)] else
  if r.op = 0x3a then [(40, 6, .zero), (22, 6, .zero), (0, 14, .zero)] else
  if r.op = 0x3b then ([(22, 6, .zero), (0, 14, .zero)]) ++ (if bitAt r.lo 14 then [] else [(28, 6, .zero)]) else
  if r.op = 0x3c then [(40, 6, .zero), (22, 6, .zero), (0, 14, .zero)] else
  if r.op = 0x3d then [(22, 6, .zero), (0, 14, .zero)] else
  if r.op = 0x3e then [(0, 14, .zero)] else
  if r.op = 0x3f then if bitsAt r.lo 0 8 = 1 then [(28, 6, .zero), (22, 6, .zero), (16, 6, .zero)] else if bitsAt r.lo 0 8 = 2 then [(34, 6, .zero), (28, 6, .zero), (22, 6, .zero), (16, 6, .zero)] else if bitsAt r.lo 0 8 = 3 then [(34, 6, .zero), (28, 6, .zero), (22, 6, .zero), (16, 6, .zero)] else if bitsAt r.lo 0 8 = 4 then [(34, 6, .zero), (28, 6, .zero), (22, 6, .zero), (16, 6, .zero)] else [(34, 6, .zero), (28, 6, .zero), (22, 6, .zero), (16, 6, .zero)] else
  []

/-- The rules of row 0x4_ of R74. -/
def fieldRules4 (r : Raw) : List (Nat × Nat × FieldRule) :=
  if r.op = 0x40 then [(34, 6, .zero), (28, 6, .zero), (22, 6, .zero), (16, 6, .zero)] else
  if r.op = 0x41 then if bitsAt r.lo 14 8 = 1 then [(40, 6, .zero), (22, 6, .zero), (0, 14, .zero)] else [(28, 6, .zero), (22, 6, .zero), (0, 14, .zero)] else
  []

/-- The rules of row 0x5_ of R74. -/
def fieldRules5 (r : Raw) : List (Nat × Nat × FieldRule) :=
  if r.op = 0x50 then ([(28, 6, .zero), (22, 6, .zero), (20, 2, .zero), (18, 2, .zero)]) ++ (if bitAt r.lo 10 then [(34, 6, .zero)] else []) else
  if r.op = 0x51 then [(28, 6, .zero), (22, 6, .zero), (14, 4, .zero)] else
  if r.op = 0x52 then [(22, 6, .zero), (14, 4, .zero)] else
  if r.op = 0x53 then [(22, 6, .opt)] else
  if r.op = 0x54 then [(28, 6, .zero), (22, 6, .zero), (14, 4, .zero)] else
  if r.op = 0x55 then [(22, 6, .zero), (14, 4, .zero)] else
  if r.op = 0x56 then [(22, 6, .zero)] else
  if r.op = 0x57 then [(34, 6, .dq), (28, 6, .zero), (22, 6, .zero), (14, 4, .zero), (0, 14, .zero)] else
  if r.op = 0x58 then [(22, 6, .zero), (18, 2, .zero), (14, 4, .zero), (0, 8, .zero)] else
  if r.op = 0x59 then [(22, 6, .zero), (18, 2, .zero), (14, 4, .zero), (0, 8, .zero)] else
  if r.op = 0x5a then [(22, 6, .zero), (18, 2, .zero), (14, 4, .zero), (0, 8, .zero)] else
  if r.op = 0x5b then [(18, 2, .zero), (14, 4, .zero), (0, 8, .zero)] else
  if r.op = 0x5c then [(18, 2, .zero), (14, 4, .zero), (0, 8, .zero)] else
  if r.op = 0x5d then [(22, 6, .zero), (20, 2, .zero), (18, 2, .zero), (14, 4, .zero), (0, 8, .zero)] else
  if r.op = 0x5e then [(22, 6, .zero), (20, 2, .zero), (18, 2, .zero), (14, 4, .zero), (0, 8, .zero)] else
  if r.op = 0x5f then [(28, 6, .zero), (22, 6, .zero), (20, 2, .zero), (18, 2, .zero), (14, 4, .zero), (0, 8, .zero)] else
  []

/-- The rules of row 0x6_ of R74. -/
def fieldRules6 (r : Raw) : List (Nat × Nat × FieldRule) :=
  if r.op = 0x60 then [(28, 6, .zero), (22, 6, .zero), (20, 2, .zero), (18, 2, .zero), (14, 4, .zero), (0, 8, .zero)] else
  if r.op = 0x61 then [(22, 6, .zero), (20, 2, .zero), (18, 2, .zero), (14, 4, .zero), (0, 8, .zero)] else
  if r.op = 0x62 then [(22, 6, .zero), (20, 2, .zero), (18, 2, .zero), (14, 4, .zero), (0, 8, .zero)] else
  if r.op = 0x63 then [(22, 6, .zero), (20, 2, .zero), (18, 2, .zero), (14, 4, .zero), (0, 8, .zero)] else
  if r.op = 0x64 then ([(22, 6, .zero), (20, 2, .zero), (18, 2, .zero), (14, 4, .zero)]) ++ shiftRules r else
  if r.op = 0x65 then ([(22, 6, .zero), (20, 2, .zero), (18, 2, .zero), (14, 4, .zero)]) ++ shiftRules r else
  if r.op = 0x66 then ([(22, 6, .zero), (18, 2, .zero), (14, 4, .zero)]) ++ shiftRules r ++ (if bitAt r.lo 11 then [] else [(20, 2, .zero)]) else
  if r.op = 0x67 then [(22, 6, .zero), (20, 2, .zero), (18, 2, .zero), (14, 4, .zero), (0, 8, .zero)] else
  if r.op = 0x68 then [(22, 6, .zero), (20, 2, .zero), (18, 2, .zero), (14, 4, .zero), (0, 8, .zero)] else
  if r.op = 0x69 then [(22, 6, .zero), (18, 2, .zero), (14, 4, .zero), (0, 8, .zero)] else
  if r.op = 0x6a then [(28, 6, .zero), (22, 6, .zero), (18, 2, .zero)] else
  if r.op = 0x6b then [(28, 6, .zero), (22, 6, .zero), (20, 2, .zero), (18, 2, .zero), (0, 8, .zero)] else
  if r.op = 0x6c then [(28, 6, .zero), (22, 6, .zero), (0, 8, .zero)] else
  if r.op = 0x6d then [(40, 6, .pr), (22, 6, .zero), (20, 2, .zero), (18, 2, .zero), (14, 4, .zero), (0, 8, .zero)] else
  if r.op = 0x6e then [(22, 6, .pr), (20, 2, .zero), (18, 2, .zero), (14, 4, .zero), (0, 8, .zero)] else
  if r.op = 0x6f then ([(22, 6, .zero), (20, 2, .zero), (18, 2, .zero), (14, 4, .zero)]) ++ (if bitAt r.lo 9 then [(28, 6, .zero)] else [(0, 8, .zero)]) else
  []

/-- The rules of row 0x7_ of R74. -/
def fieldRules7 (r : Raw) : List (Nat × Nat × FieldRule) :=
  if r.op = 0x70 then [(22, 6, .zero), (20, 2, .zero), (18, 2, .zero), (0, 8, .zero)] else
  if r.op = 0x71 then if bitsAt r.lo 8 6 = 1 then [(22, 6, .zero), (20, 2, .zero), (18, 2, .zero), (14, 4, .zero), (0, 8, .zero)] else [(28, 6, .zero), (22, 6, .zero), (20, 2, .zero), (18, 2, .zero), (14, 4, .zero), (0, 8, .zero)] else
  if r.op = 0x72 then [(22, 6, .zero), (20, 2, .zero), (18, 2, .zero), (14, 4, .zero), (0, 8, .zero)] else
  if r.op = 0x73 then [(22, 6, .zero), (20, 2, .zero), (18, 2, .zero), (14, 4, .zero), (0, 8, .zero)] else
  if r.op = 0x74 then [(22, 6, .zero), (20, 2, .zero), (18, 2, .zero), (14, 4, .zero), (0, 8, .zero)] else
  if r.op = 0x75 then [(28, 6, .zero), (22, 6, .zero), (20, 2, .zero), (18, 2, .zero), (14, 4, .zero), (0, 8, .zero)] else
  if r.op = 0x76 then if bitsAt r.lo 8 6 = 1 then [(34, 6, .zero), (28, 6, .zero), (22, 6, .zero), (20, 2, .zero), (18, 2, .zero), (14, 4, .zero), (0, 8, .zero)] else [(34, 6, .pr), (28, 6, .zero), (22, 6, .zero), (20, 2, .zero), (18, 2, .zero), (14, 4, .zero), (0, 8, .zero)] else
  if r.op = 0x77 then [(28, 6, .pr), (22, 6, .zero), (20, 2, .zero), (18, 2, .zero), (14, 4, .zero), (0, 8, .zero)] else
  if r.op = 0x78 then [(28, 6, .pr), (22, 6, .zero), (20, 2, .zero), (18, 2, .zero), (14, 4, .zero), (0, 8, .zero)] else
  if r.op = 0x79 then [(28, 6, .zero), (22, 6, .zero), (18, 2, .zero), (14, 4, .zero), (0, 8, .zero)] else
  if r.op = 0x7a then [(22, 6, .zero), (18, 2, .zero), (14, 4, .zero)] else
  if r.op = 0x7b then ([(40, 6, .zero), (22, 6, .zero), (20, 2, .zero), (18, 2, .zero), (14, 4, .zero), (0, 8, .zero)]) ++ (if bitAt r.lo 9 then [] else [(28, 6, .zero)]) else
  []

/-- The rules of row 0x9_ of R74. -/
def fieldRules9 (r : Raw) : List (Nat × Nat × FieldRule) :=
  if r.op = 0x90 then ([(16, 6, .zero), (8, 8, .zero)]) ++ [(40, 6, .mtlD)] else
  if r.op = 0x91 then ([(40, 6, .zero), (28, 6, .zero), (22, 6, .zero), (16, 6, .zero), (8, 8, .zero)]) ++ (if bitsAt r.lo 1 2 = 2 then [] else [(34, 6, .zero)]) else
  if r.op = 0x92 then [(16, 6, .zero), (8, 8, .zero)] else
  if r.op = 0x93 then [(40, 6, .zero), (16, 6, .zero)] else
  if r.op = 0x94 then [(40, 6, .zero), (34, 6, .zero), (28, 6, .zero), (22, 6, .zero), (16, 6, .zero)] else
  if r.op = 0x95 then [(28, 6, .zero), (22, 6, .zero), (16, 6, .zero)] else
  if r.op = 0x96 then [(28, 6, .zero), (22, 6, .zero), (16, 6, .zero)] else
  if r.op = 0x97 then if bitsAt r.lo 0 8 = 1 then [(34, 6, .zero), (28, 6, .zero), (22, 6, .zero), (16, 6, .zero)] else [(40, 6, .zero), (28, 6, .zero), (22, 6, .zero), (16, 6, .zero)] else
  if r.op = 0x98 then [(16, 6, .zero)] else
  if r.op = 0x99 then if bitsAt r.lo 0 8 = 1 then [(34, 6, .zero), (28, 6, .zero), (22, 6, .zero), (16, 6, .zero), (8, 8, .zero)] else if bitsAt r.lo 0 8 = 2 then [(40, 6, .zero), (34, 6, .zero), (28, 6, .zero), (22, 6, .zero), (16, 6, .zero), (8, 8, .zero)] else if bitsAt r.lo 0 8 = 3 then [(34, 6, .zero), (28, 6, .zero), (22, 6, .zero), (16, 6, .zero), (8, 8, .zero)] else [(34, 6, .zero), (28, 6, .zero), (22, 6, .zero), (16, 6, .zero), (8, 8, .zero)] else
  []

/-- The rules of row 0xA_ of R74. -/
def fieldRulesA (r : Raw) : List (Nat × Nat × FieldRule) :=
  if r.op = 0xa0 then if bitsAt r.lo 8 8 = 1 then [(40, 6, .col), (22, 6, .zero), (16, 6, .zero)] else if bitsAt r.lo 8 8 = 2 then [(40, 6, .col), (28, 6, .zero), (22, 6, .zero), (16, 6, .zero), (0, 8, .zero)] else [(40, 6, .zero), (16, 6, .zero), (0, 8, .zero)] else
  if r.op = 0xa1 then if bitsAt r.lo 8 8 = 1 then [(34, 6, .col), (28, 6, .zero), (22, 6, .zero), (16, 6, .zero), (0, 8, .zero)] else if bitsAt r.lo 8 8 = 2 then [(34, 6, .col), (28, 6, .zero), (22, 6, .zero), (16, 6, .zero), (0, 8, .zero)] else if bitsAt r.lo 8 8 = 3 then [(34, 6, .zero), (28, 6, .zero), (22, 6, .zero), (16, 6, .zero), (0, 8, .zero)] else [(34, 6, .col), (28, 6, .zero), (22, 6, .zero), (16, 6, .zero), (0, 8, .zero)] else
  if r.op = 0xa2 then if bitsAt r.lo 8 8 = 1 then [(40, 6, .col), (28, 6, .zero), (22, 6, .zero), (16, 6, .zero), (6, 2, .zero)] else [(40, 6, .col), (22, 6, .zero), (16, 6, .opt), (6, 2, .zero)] else
  if r.op = 0xa3 then ([(40, 6, .col), (34, 6, .col), (22, 6, .zero), (16, 6, .opt), (6, 2, .zero)]) ++ (if bitAt r.lo 11 then [(28, 6, .col)] else []) else
  if r.op = 0xa4 then [(40, 6, .col), (34, 6, .col), (28, 6, .col), (16, 6, .opt), (6, 2, .zero)] else
  if r.op = 0xa5 then [(40, 6, .col), (34, 6, .col), (28, 6, .col), (22, 6, .zero), (16, 6, .opt), (6, 2, .zero)] else
  if r.op = 0xa6 then [(40, 6, .col), (28, 6, .col), (22, 6, .zero), (16, 6, .zero), (6, 2, .zero)] else
  if r.op = 0xa7 then ([(40, 6, .col), (34, 6, .col), (28, 6, .col), (22, 6, .zero), (16, 6, .opt), (6, 2, .zero)]) ++ (if bitsAt r.lo 8 8 = 0 then [(40, 6, .pairD)] else []) else
  if r.op = 0xa8 then [(40, 6, .col), (34, 6, .col), (28, 6, .zero), (22, 6, .zero), (16, 6, .zero), (6, 2, .zero)] else
  if r.op = 0xa9 then [(40, 6, .col), (34, 6, .col), (28, 6, .zero), (22, 6, .zero), (16, 6, .opt), (6, 2, .zero)] else
  if r.op = 0xaa then [(40, 6, .col), (34, 6, .col), (28, 6, .col), (22, 6, .zero), (16, 6, .opt), (6, 2, .zero)] else
  if r.op = 0xab then [(40, 6, .col), (34, 6, .col), (28, 6, .zero), (22, 6, .zero), (16, 6, .opt), (6, 2, .zero)] else
  if r.op = 0xac then cresFieldRules r else
  if r.op = 0xad then if bitsAt r.lo 8 8 = 1 then [(34, 6, .zero), (28, 6, .zero), (22, 6, .zero), (16, 6, .zero), (0, 8, .zero)] else if bitsAt r.lo 8 8 = 2 then [(40, 6, .zero), (28, 6, .zero), (22, 6, .zero), (16, 6, .zero), (0, 8, .zero)] else [(40, 6, .zero), (34, 6, .zero), (28, 6, .zero), (22, 6, .zero), (16, 6, .zero), (0, 8, .zero)] else
  if r.op = 0xae then if bitsAt r.lo 8 8 = 1 then [(40, 6, .col), (28, 6, .zero), (22, 6, .zero), (16, 6, .opt), (6, 2, .zero)] else [(34, 6, .col), (22, 6, .zero), (16, 6, .zero), (6, 2, .zero)] else
  []

/-- The rules of row 0xB_ of R74. -/
def fieldRulesB (r : Raw) : List (Nat × Nat × FieldRule) :=
  if r.op = 0xb0 then ([(16, 6, .opt)]) ++ (if bitAt r.lo 3 then [] else [(8, 8, .zero)]) else
  if r.op = 0xb1 then ([(28, 6, .zero), (22, 6, .zero), (16, 6, .opt)]) ++ (if bitAt r.lo 3 then [] else [(8, 8, .zero)]) else
  if r.op = 0xb2 then [(28, 6, .zero), (22, 6, .zero), (16, 6, .zero), (8, 8, .zero)] else
  if r.op = 0xb3 then [(16, 6, .opt)] else
  if r.op = 0xb4 then [(28, 6, .zero), (22, 6, .zero), (16, 6, .zero), (8, 8, .zero)] else
  if r.op = 0xb5 then if bitsAt r.lo 0 8 = 1 then [(40, 6, .zero), (28, 6, .zero), (22, 6, .zero), (16, 6, .zero), (8, 8, .zero)] else if bitsAt r.lo 0 8 = 2 then [(28, 6, .zero), (22, 6, .zero), (16, 6, .zero), (8, 8, .zero)] else [(34, 6, .zero), (28, 6, .zero), (22, 6, .zero), (16, 6, .zero), (8, 8, .zero)] else
  if r.op = 0xb6 then [(40, 6, .zero), (28, 6, .zero), (22, 6, .zero), (16, 6, .zero), (8, 8, .zero)] else
  if r.op = 0xb7 then [(34, 6, .zero), (22, 6, .zero), (16, 6, .zero), (8, 8, .zero)] else
  if r.op = 0xb8 then if bitsAt r.lo 0 8 = 1 then [(34, 6, .zero), (28, 6, .zero), (22, 6, .zero), (16, 6, .zero), (8, 8, .zero)] else if bitsAt r.lo 0 8 = 2 then [(40, 6, .zero), (28, 6, .zero), (22, 6, .zero), (16, 6, .zero), (8, 8, .zero)] else if bitsAt r.lo 0 8 = 3 then [(40, 6, .zero), (28, 6, .zero), (22, 6, .zero), (16, 6, .zero), (8, 8, .zero)] else if bitsAt r.lo 0 8 = 4 then [(40, 6, .zero), (34, 6, .zero), (28, 6, .zero), (22, 6, .zero), (16, 6, .zero), (8, 8, .zero)] else [(34, 6, .zero), (28, 6, .zero), (22, 6, .zero), (16, 6, .zero), (8, 8, .zero)] else
  if r.op = 0xb9 then [(34, 6, .zero), (28, 6, .zero), (22, 6, .zero), (16, 6, .zero), (8, 8, .zero)] else
  if r.op = 0xba then if bitsAt r.lo 0 8 = 1 then [(34, 6, .zero), (28, 6, .zero), (22, 6, .zero), (16, 6, .zero), (8, 8, .zero)] else [(28, 6, .zero), (22, 6, .zero), (16, 6, .zero), (8, 8, .zero)] else
  []

/-- The rules of row 0xC_ of R74. -/
def fieldRulesC (r : Raw) : List (Nat × Nat × FieldRule) :=
  if r.op = 0xc0 then [(40, 6, .zero), (34, 6, .zero), (28, 6, .zero), (16, 12, .zero)] else
  if r.op = 0xc1 then [(40, 6, .zero), (34, 6, .zero), (28, 6, .zero), (16, 12, .zero), (0, 16, .zero)] else
  if r.op = 0xc2 then [(34, 6, .zero), (28, 6, .zero), (0, 16, .zero)] else
  if r.op = 0xc3 then [(40, 6, .zero), (28, 6, .zero), (0, 16, .zero)] else
  if r.op = 0xc4 then [(40, 6, .zero), (34, 6, .zero), (28, 6, .zero), (16, 12, .zero)] else
  if r.op = 0xc5 then [(40, 6, .zero), (34, 6, .zero), (28, 6, .zero), (16, 12, .zero)] else
  if r.op = 0xc6 then [(40, 6, .zero), (34, 6, .zero), (28, 6, .zero), (16, 12, .zero), (0, 16, .zero)] else
  if r.op = 0xc7 then if bitsAt r.lo 0 16 = 1 then [(40, 6, .zero), (28, 6, .zero), (16, 12, .zero)] else [(40, 6, .zero), (16, 12, .zero)] else
  if r.op = 0xc8 then [(40, 6, .zero), (28, 6, .zero), (16, 12, .zero), (0, 16, .zero)] else
  if r.op = 0xc9 then if bitsAt r.lo 0 16 = 1 then [(28, 6, .zero), (16, 12, .zero)] else if bitsAt r.lo 0 16 = 2 then [(40, 6, .zero), (28, 6, .zero), (16, 12, .zero)] else [(40, 6, .zero), (28, 6, .zero), (16, 12, .zero)] else
  if r.op = 0xca then if bitsAt r.lo 0 16 = 1 then [(28, 6, .zero), (16, 12, .zero)] else [(34, 6, .zero), (28, 6, .zero), (16, 12, .zero)] else
  if r.op = 0xcb then [(34, 6, .zero), (28, 6, .zero), (16, 12, .zero)] else
  if r.op = 0xcc then [(34, 6, .zero), (28, 6, .zero), (0, 16, .zero)] else
  []

/-- What R70 to R72 and the entry ask of each field of a word beside its fn and its coded fields: (low bit, width,
what it must be). Fields that are a plain register or an immediate are not listed. A word whose fn the entry does not
list takes the row of the first form. -/
def fieldRules (r : Raw) : List (Nat × Nat × FieldRule) :=
  if r.op / 16 = 0 then fieldRules0 r else
  if r.op / 16 = 1 then fieldRules1 r else
  if r.op / 16 = 2 then fieldRules2 r else
  if r.op / 16 = 3 then fieldRules3 r else
  if r.op / 16 = 4 then fieldRules4 r else
  if r.op / 16 = 5 then fieldRules5 r else
  if r.op / 16 = 6 then fieldRules6 r else
  if r.op / 16 = 7 then fieldRules7 r else
  if r.op / 16 = 9 then fieldRules9 r else
  if r.op / 16 = 10 then fieldRulesA r else
  if r.op / 16 = 11 then fieldRulesB r else
  if r.op / 16 = 12 then fieldRulesC r else
  []

/-- Whether a field value meets its rule, but for predicate values 48 to 62 (reason 4) and a queue's direction (reason 6). -/
def FieldRule.inFile (k : FieldRule) (v : Nat) : Bool :=
  match k with
  | .zero | .opt => true
  | .pr => v < 48
  | .col => v < 16
  | .lc => v < 3
  | .dq | .rq => v < 8
  | .mtlD => 1 ≤ v && v ≤ 61
  | .pairD => v != 15

/-- Whether a queue field names a queue of its direction (R25). -/
def FieldRule.direction (k : FieldRule) (v : Nat) : Bool :=
  match k with
  | .dq => v < 6
  | .rq => 6 ≤ v
  | _ => true

/-- The instruction a 64-bit word is, when it passes reasons 1 to 7 of R79: the fields name a well-formed instruction
whose word this is, so every field the entry does not use is zero. -/
def decode (w : Nat) : Option Instr :=
  match build (unpack w) with
  | some i => if i.wf && encode i == w then some i else none
  | none => none

/-- The micro-op a 32-bit word is (R82, R83): a listed op, a listed format, unused fields zero. -/
def decodeMicro (w : Nat) : Option Instr :=
  match buildMicro w with
  | some i => if encode i == w && decide (bitsAt w 16 5 ≤ 17) then some i else none
  | none => none

/-- The first of reasons 1 to 7 of R79 that applies to a word, or none when it is an instruction. An imm16 that `xinv`, `scrub` or `frq` does
not list is taken as a coded field with a reserved value: reason 7. DESIGN CHOICE (log entry 114). -/
def scanReason (w : Nat) : Option Nat :=
  match decode w with
  | some _ => none
  | none =>
    let r := unpack w
    let fs := fieldRules r
    let pred (v : Nat) : Bool := 48 ≤ v && v ≤ 62
    if !opListed r.op then some 1
    else if fs.any (fun f => f.2.2 == .zero && bitsAt w f.1 f.2.1 != 0) then some 2
    else if fs.any (fun f => !f.2.2.inFile (bitsAt w f.1 f.2.1)) then some 3
    else if pred r.h.gd.val || fs.any (fun f => f.2.2 == .opt && pred (bitsAt w f.1 f.2.1)) then some 4
    else if opA r.op && r.h.w.val != 0 then some 5
    else if fs.any (fun f => !f.2.2.direction (bitsAt w f.1 f.2.1)) then some 6
    else some 7

/-- The element types an instruction's et and et2 fields and FP4 operand codes name (R77, bit 1). -/
def Instr.usesFp4 : Instr → Bool
  | .vsetl _ _ _ t _ _ _ | .vld _ t _ _ _ | .vst _ t _ _ _ | .vldq _ t _ _ => t == .f4
  | .vnarrow _ _ t _ _ _ _ | .vwiden _ t _ _ | .vcvt _ t _ _ _ _ => t == .f4
  | .mbind _ _ _ t _ => t == .f4
  | .mma _ _ ta tb _ _ _ _ => ta == .f4 || tb == .f4
  | .mdrain _ ty _ _ _ _ _ _ _ => ty == .f4
  | _ => false

/-- The feature bit an encoding belongs to (R77). -/
def Instr.feature (i : Instr) : Nat :=
  let op := bitsAt (encode i) 56 8
  match i.kind with
  | .micro => match i with
    | .hfold _ _ | .hunfold _ _ => 6
    | .hhsh _ => 7
    | _ => 0
  | .event => 0
  | _ =>
    if 0xa0 ≤ op && op ≤ 0xae then 2
    else if 0xb6 ≤ op && op ≤ 0xb8 then 3
    else if op = 0xb3 then 4
    else if op = 0xb9 || op = 0xba || op = 0x3e then 5
    else 0

/-- Whether every feature an encoding belongs to is in an accepted set (R77). -/
def Instr.accepted (i : Instr) (feat : Nat) : Bool := bitAt feat i.feature && (!i.usesFp4 || bitAt feat 1)

/-- The scanner's verdict on a word under the feature state (R79): the reason it fails, or none. -/
def scanWord (feat : Option Nat) (w : Nat) : Option Nat :=
  match decode w with
  | none => scanReason w
  | some i =>
    match feat with
    | none => some 9
    | some f => if i.accepted f then none else some 8

/-- The instruction the decoder reads from an instruction of `nbits` bits laid out in memory in order: a heddle
micro-op word of 4 bytes, or an instruction word of 8. -/
def decodeTableWord (nbits w : Nat) : Option Instr := if nbits ≤ 32 then decodeMicro (w % 2 ^ 32) else decode (w % 2 ^ 64)

end Sys2Proof
end

