-- ==== Sys2Proof/Machine/State.lean ====
section
/-! DEFINITION. The state of the module: every register, queue, table and memory the spec gives it (the list is in
INVENTORY.md, with the rule that names each), as plain data. One shuttle and its core are in focus (`sh`, `co`); the
other shuttles of that core stand in `co.shs`, the other cores in `cores` (sparse: a core not listed is as at reset). -/

namespace Sys2Proof.Machine

/-- Bytes by address. `cells` lists addresses strictly rising and never a byte equal to what the address reads as
when unlisted; `undef` lists ranges [lo, hi) whose contents the spec leaves undefined, newest first: lo, hi, the count of the
event that left them so (0: the range was zeroed), and the address the first byte's free value is taken at (log entry 3). -/
structure Memory where
  cells : List Host.Cell
  undef : List (Nat × Nat × Nat × Nat)
deriving DecidableEq, Repr, Inhabited

/-- An entry of a data queue: a scalar or an element group of 16 bytes a lane (R26). -/
structure QEntry where
  scalar : Bool
  data   : BitVec 4096
  /-- Its poisoned 64-bit words (R334): a scalar's is word 0. -/
  pois   : List Nat := []
  /-- Its data is still to come: the number of the load that brings it (R118, R120). -/
  due    : Option Nat := none
deriving DecidableEq, Repr, Inhabited

/-- A scalar source of a dispatched instruction (R23). -/
inductive Opnd where
  | none
  | cap (v : Word)
  | bound (r : Nat)
deriving DecidableEq, Repr, Inhabited

/-- An entry of the X queue (R22, R330). -/
structure XEntry where
  instr : Instr
  addr  : Nat
  opA   : Opnd
  opB   : Opnd
  opC   : Opnd
  opD   : Opnd
  /-- The arena word as it stood at dispatch (R220). -/
  arena : Word
  /-- Cycles it must leave after the issue before it: its w field, or what a frame gave (R30, R38, R330). -/
  wait  : Nat := instr.hd.w.val
  /-- The captured operands that are poisoned, 0 to 3 (R334, R335). -/
  pois  : List Nat := []
  /-- How many the shuttle had dispatched before it, for R226. -/
  no    : Nat := 0
deriving DecidableEq, Repr, Inhabited

/-- A loop record (R105). -/
structure LoopRec where
  act   : Bool
  kind  : Bool
  pred  : Nat
  seq   : Nat
  len   : Nat
  start : Nat
deriving DecidableEq, Repr, Inhabited

/-- A register in a shadow (R29): files x, p, v or an accumulator tile. -/
inductive RegId where
  | x (n : Nat) | p (n : Nat) | v (n : Nat) | z (n : Nat) | c (n : Nat)
  /-- A state register, as it stands in `Shuttle.spois`. -/
  | s (n : Nat)
deriving DecidableEq, Repr, Inhabited

/-- An issued instruction whose write has not landed: its destinations, the cycle at whose end it lands, the flags
that land with it, and the tile an `mma` writes (R29, R141, R185). -/
structure Flight where
  dests  : List RegId
  lands  : Nat
  fflags : BitVec 5
  sat    : Bool
  mma    : Option Nat
deriving DecidableEq, Repr, Inhabited

/-- A fault record (R329). -/
structure FRec where
  cause  : Nat
  source : Nat
  lost   : Nat
  level  : Nat
  detail : Nat
  addr   : Nat
  va     : Nat
  index  : Nat
  pa     : Nat
  t      : Nat
  die    : Nat
  core   : Nat
  pos    : Nat
  handle : Nat
  seq    : Nat
deriving DecidableEq, Repr, Inhabited

/-- A fault to be reported: what `tcause` and the record take (R20, R329). `pipe`: reported at `xpc`. -/
structure Flt where
  cause  : Nat
  detail : Nat
  pipe   : Bool
  va     : Nat
  index  : Nat
  pa     : Nat
  level  : Nat
  source : Nat
  /-- The faulting instruction has been taken out of the X queue (an `vldx` with a mask, R150). -/
  pushed : Bool
  /-- The instruction's address where the counters have moved past it (R242). -/
  at' : Option Nat := none
deriving DecidableEq, Repr, Inhabited

/-- Why a pipe's last attempt waited (the model's own record, for R28). -/
inductive Wait where
  | none
  /-- A-pipe: full X queue, full data queue, empty return queue, a register pending on an instruction not issued,
  `xsync`, `fence`, `halt` or a fault's drain while an X-class instruction has not issued (first list of R28). -/
  | onX
  /-- X-pipe: empty data queue or full return queue (second list of R28). -/
  | queue
  /-- X-pipe: an operand FIFO, by the FIFO (false fa, true fb). -/
  | fifo (fb : Bool)
  /-- Any wait that can end without the other pipe. -/
  | other
deriving DecidableEq, Repr, Inhabited

/-- What a shuttle is doing. -/
inductive SStat where
  /-- No shuttle holds this place. -/
  | absent
  /-- Placed, not begun: a timed launch or a gang switch is awaited (R313, R319). -/
  | waiting
  | running
  /-- Ended by `halt` with its exit code (R244). -/
  | halted (exit : Nat)
  /-- Ended by a fault without a handler (R317). -/
  | faulted
  /-- Killed (R317). -/
  | killed
  /-- Saved (R315); its record waits as a resumption. -/
  | saved
deriving DecidableEq, Repr, Inhabited

/-- A column instruction under way, between its turns (R201, R219): its outputs, the cursor word a stop would leave, the positions, the elements
emitted, the flags raised, the code before position i where the unit holds it, and what the copy phase of `csort` has still to write. -/
structure CProg where
  outs : List Nat
  word : Nat
  i    : Nat
  j    : Nat
  k    : Nat
  fl   : Nat
  held : Nat
  vals : List Nat
deriving DecidableEq, Repr, Inhabited

/-- What an instruction took as it issued and goes on with while it is part-way (R23, R141, R197, R391): its active elements, `vstart`, `fill`,
its scalar sources and `ccur`. -/
structure AtIssue where
  act    : List Nat
  vstart : BitVec 13
  fill   : Word
  src    : List Word
  cur    : BitVec 128
deriving DecidableEq, Repr, Inhabited

/-- What a trap has put into its frame of the X queue and stays with the device until the return: the numbers of the entries, the spans they
reach, and how many commands the record had started (R226). -/
structure Parked where
  nos   : List Nat
  spans : List (Nat × Int × Int)
  cmds  : Nat
deriving DecidableEq, Repr, Inhabited

/-- A shuttle: what R9, R11, R16, R23, R28, R37, R105, R193, R237, R241, R243, R325, R331 give it. -/
structure Shuttle where
  pos     : Nat
  status  : SStat
  lanes   : Nat
  pid     : Nat
  priv    : Bool
  handle  : Nat
  ceil    : Nat
  nearLen : Nat
  nTiles  : Nat
  nEnts   : Nat
  x : Vector Word 64
  p : Vector (BitVec 512) 48
  v : Vector (BitVec 16384) 64
  c : Vector Word 16
  arena : Word
  dq : Vector (List QEntry) 6
  rq : Vector (List Word) 2
  lc : Vector (BitVec 32) 3
  loops : Vector LoopRec 3
  vlen   : BitVec 13
  vtype  : Word
  vstart : BitVec 13
  redst  : Word
  fill   : Word
  sat    : Bool
  fflags : BitVec 5
  rnd    : BitVec 2
  frm    : BitVec 2
  ccur   : BitVec 128
  xcur   : BitVec 128
  hcsum  : BitVec 32
  tvec   : Word
  tcause : Word
  apc    : BitVec 56
  /-- Bits [63:56] of the address the A-pipe goes to next: none of R68's pages where they are not 0 (R97, R110). -/
  pcHi   : BitVec 8
  xq     : List XEntry
  level  : Nat
  events : BitVec 4
  frq    : List FRec
  lost   : Nat
  timer  : Word
  armed  : Bool
  prog   : List Nat
  progOk : Bool
  reed   : List Byte
  vdirty : BitVec 64
  /-- Poisoned register words (R334): vector words by register, lane and word; x registers; words of p registers by
  register and word; return-queue entries by queue and place. -/
  vpoison : List (Nat × Nat × Nat)
  xpois  : List Nat
  ppois  : List (Nat × Nat)
  rqPois : List (Nat × Nat)
  /-- Poisoned words of state registers, loop counters and records, the arena word and column descriptors, by their word of the frame (R326,
  R328); of its word 8, `sat`, `fflags`, `rnd` and `frm` are 100 to 103. -/
  spois  : List Nat
  flight : List Flight
  lastIssue : Nat
  issueFrom : Nat
  units  : List (Nat × Nat)
  pre    : Option Nat
  /-- The numbers of the queue entries of the `vsetl` instructions dispatched as yield points of a pre-emption that is pending (R40). -/
  preNos : List Nat
  saveDue : Option Nat
  budgetDue : Bool
  due    : Option Flt
  endDue : Option Nat
  endSaved : List Nat
  xProg  : Nat
  /-- Memory addresses of the elements of a part-way `vstx` or `mdrain`, as its check found them (R296). -/
  xLocs  : List Nat
  /-- What the instruction at the head of the X queue took at its issue, once it has issued and is part-way (R141, R153). -/
  xIss   : Option AtIssue
  /-- Known spans of X-class accesses that have left the X queue with an entry of them to perform or a load to read, by their numbers (R128). -/
  reach  : List (Nat × Int × Int)
  /-- The column instruction under way at the head of the X queue. -/
  cprog  : Option CProg
  /-- A `halt` has begun (R314). -/
  halting : Bool
  aWait  : Wait
  xWait  : Wait
  nA     : Nat
  nX     : Nat
  nWait  : Nat
  /-- X-class instructions dispatched so far, and what each frame on the way holds of the X queue (R226). -/
  nD     : Nat
  parked : List Parked
deriving DecidableEq, Repr, Inhabited

/-- Where the value of an atomic goes (R118, R125): a scalar register with its size and sign, or the elements of a `fas` group. -/
inductive Ret where
  | none
  | x (pos d bits : Nat) (sx : Bool)
  | fas (pos : Nat) (et : EType) (d : Nat) (idx : List Nat)
deriving DecidableEq, Repr, Inhabited

/-- The word operation of an entry (R113): a reduction or an atomic, at a byte offset of the line, of some bytes. -/
structure WOp where
  off   : Nat
  size  : Nat
  fn    : AmoK
  val   : Word
deriving DecidableEq, Repr, Inhabited

/-- What an atomic with return does when it performs (R122, R123, R125). -/
inductive AtomK where
  | amo (k : AmoK) (v : Word)
  | cas (cmp new : Word)
  | fas (t : EType) (incs : List Nat)
deriving DecidableEq, Repr, Inhabited

/-- A write-lane entry (R113): a 64-byte line by its memory address, plain bytes, word operations, or one atomic; the
shuttles and pipes it is an access of, and the heddle chunks it belongs to. -/
structure LaneEnt where
  line  : Nat
  bytes : List (Nat × Byte)
  ops   : List WOp
  atom  : Option (Nat × Nat × AtomK × Ret)
  poison : Bool
  aBy   : List Nat
  /-- Of the X-pipe's, with the number of the X queue entry. -/
  xBy   : List (Nat × Nat)
  /-- Chunks of heddle commands: slot and chunk. -/
  tags  : List (Nat × Nat)
  /-- Of commands whose slot has been released since: record and position (R227, R295). -/
  left  : List (Nat × Nat) := []
deriving DecidableEq, Repr, Inhabited

/-- A tile-table entry (R137). -/
structure TEnt where
  state  : Nat
  abort  : Nat
  expect : Nat
  done   : Nat
  /-- An error of its bits has been found (R274). -/
  bad    : Bool := false
deriving DecidableEq, Repr, Inhabited

/-- An accumulator tile and its band scale (R177). -/
structure Tile where
  data  : BitVec 262144
  scale : BitVec 16
  /-- Its poisoned 64-bit words, 4096 the band scale's (R274, R334). -/
  pois  : List Nat := []
deriving DecidableEq, Repr, Inhabited

/-- A run of an operand FIFO (R177). -/
structure FRun where
  codes  : List Nat
  scale  : Nat
  poison : Bool
deriving DecidableEq, Repr, Inhabited

/-- An operand FIFO with its binding (R177, R182). -/
structure Fifo where
  src  : BindK
  ty   : MType
  tag  : Nat
  runs : List FRun
deriving DecidableEq, Repr, Inhabited

/-- What a heddle command does (R222, R229, R231). -/
inductive CKind where | copy | put | get | xfm
deriving DecidableEq, Repr, Inhabited

/-- A heddle command in its slot (R222 to R227, R233). -/
structure Cmd where
  seq    : Nat
  kind   : CKind
  run    : Bool
  err    : Nat
  first  : Nat
  expect : Nat
  done   : Nat
  /-- The shuttle that started it: record and position, its lanes, partition, near grant base and length. -/
  recId  : Nat
  pos    : Nat
  lanes  : Nat
  pid    : Nat
  nearLo : Nat
  nearLen : Nat
  pm     : Nat
  tile   : Option Nat
  bar    : Option Word
  crc    : Bool
  fold   : Bool
  dst    : Word
  src    : Word
  len    : Nat
  chunk  : Nat
  /-- Bytes of each chunk read and admitted so far; chunks not listed have not started. -/
  moved  : List (Nat × Nat)
  /-- Chunks sent to a peer and not answered. -/
  sent   : List Nat
  fin    : List Nat
  /-- Bytes read or received by chunk, in order: what a put sends, a get writes, or a CRC folds (R228). -/
  gather : List (Nat × List Byte)
  /-- Place in the order of the shuttle's commands (R228). -/
  order  : Nat
  /-- X-class instructions of the shuttle dispatched before the command (R226). -/
  xAfter : Nat
  peer   : Nat
  ppid   : Nat
  ports  : Nat
  rod    : Bool
  /-- `hstat.abort` has been used: no further chunk starts (R227). -/
  stop   : Bool
  shape  : List Word
  prog   : List Nat
  pc     : Nat
  /-- Loops under way: first word of the body, word after it, rounds left. -/
  loops  : List (Nat × Nat × Nat)
  bufs   : List (List Byte)
  runFmt : List (Option Nat)
  /-- Buffers that hold poisoned bytes (R334). -/
  bpois  : List Bool
  /-- Places of runs of fewer than 8 elements in the buffers that hold runs, by buffer (R52). -/
  short  : List (Nat × List Nat) := []
  r      : Nat
  w      : Nat
  h      : Nat
  r0     : Nat
  chunkNo : Nat
  /-- Pieces of the `wr` under way admitted, or its runs delivered; 0: none is under way. -/
  wrAt   : Nat
  /-- Memory a program has written: chunk, memory address, length. -/
  wrote  : List (Nat × Nat × Nat)
  /-- The FIFO a `wr` under way delivers to: false fa, true fb (R182). -/
  wrTo   : Option Bool := none
  /-- Poisoned bytes of what stands in `gather`, for a peer or from one: chunk, first byte, count (R334). -/
  bad    : List (Nat × Nat × Nat) := []
  /-- T64 when the oldest message not yet answered went out (R352). -/
  sentAt : Nat := 0
  /-- Units of a folded put acknowledged, by chunk, and lines of a folded get's units performed, by unit (R353). -/
  acks   : List (Nat × Nat) := []
  lines  : List (Nat × Nat) := []
  /-- The port a get's bytes came in on, by chunk (R272). -/
  inPort : List (Nat × Nat) := []
  /-- Source bytes a copy has read with their line and not moved yet, by chunk, each with its poison (R286). -/
  ahead  : List (Nat × List (Byte × Bool)) := []
deriving DecidableEq, Repr, Inhabited

/-- Where a load under way brings its value: an x register or a data queue, extended from some bits, bytes of a group entry of a data queue, or an
element of a vector group (R117, R120, R149, R150). -/
inductive LDst where
  | x (d bits : Nat) (sx : Bool)
  | q (q bits : Nat) (sx : Bool)
  | group (q off : Nat)
  | v (et : EType) (d i : Nat)
deriving DecidableEq, Repr, Inhabited

/-- A load that has started and not read (R118, R126, R283): its shuttle, the number its instruction has among those of the core, where the
value goes, the vector and predicate registers that are busy until it comes (R153), the memory address and the bytes it reads. -/
structure Load where
  pos  : Nat
  no   : Nat
  dst  : LDst
  busy : List RegId
  key  : Nat
  size : Nat
  /-- An element of a `vldx`, which has no place among the shuttle's other reads (R128, R285). -/
  free : Bool
  /-- How many X-class instructions the shuttle had dispatched before it, itself among them: what comes after it in program order (R126). -/
  after : Nat
deriving DecidableEq, Repr, Inhabited

/-- A core (R8, R9, R113, R137, R177, R223, R245, R329, R342). -/
structure Core where
  id     : Nat
  recId  : Option Nat
  lanes  : Nat
  shs    : List (Nat × Shuttle)
  cycle  : Nat
  qNS : List LaneEnt
  qCS : List LaneEnt
  qDS : List LaneEnt
  qMM : List LaneEnt
  /-- Loads under way, oldest first. -/
  loads : List Load
  /-- How many instructions have started loads that read later. -/
  loadNo : Nat
  wlbud  : Nat
  refill : Nat
  tents  : List (Nat × TEnt)
  tiles  : List (Nat × Tile)
  owner  : Option Nat
  acqs   : List Nat
  ownAt  : Nat
  overHold : Nat
  holdLim : Nat
  fa : Fifo
  fb : Fifo
  engFree  : Nat
  portFree : Nat
  /-- Tiles an `mdrain` reads, with the cycle in which each is free again (R33, R189). -/
  tileBusy : List (Nat × Nat)
  /-- The position each arbiter of R311 served last: 0 the column unit, 1 the reed, 2 the tile port, 3 the heddle's intake. -/
  served : List (Nat × Nat)
  cmds   : List (Nat × Cmd)
  seqs   : List (Nat × Nat)
  /-- The slot whose micro-op the heddle executes (the model's own: set by the turn that runs it, R233). -/
  hslot  : Nat
  wlBytes  : Nat
  hedBytes : Nat
  /-- Shared counters as they were last noted, and at least 1 ms before (R245). -/
  snapWl  : Nat × Nat
  snapHed : Nat × Nat
  frUsed : Nat
  frSeq  : Nat
  bps    : List (Nat × Nat)
  dbg    : Bool
  halted : Bool
  /-- A halt for the debugger is asked for: no pipe moves, and the core halts once every value an atomic or a load returns has come (R39, R342). -/
  haltDue : Bool
  stepping : Option (Nat × Bool)
  /-- A record has been placed on the core since its near scratchpad was last cleared (R306, R399). -/
  nearUsed : Bool
  /-- Positions whose next instruction passes the breakpoints: the core went on from a halt at it (R342). -/
  bpPass : List Nat
deriving DecidableEq, Repr, Inhabited

/-- A barrier slot (R132); `granted`: the region it is granted to (partition and handle, R304). -/
structure Bar where
  gen     : BitVec 12
  phase   : BitVec 20
  count   : Nat
  arr     : Nat
  bytes   : Word
  granted : Option (Nat × Nat)
  /-- An error of its bits has been found (R274). -/
  bad     : Bool := false
deriving DecidableEq, Repr, Inhabited

/-- A bank-map entry (R264). -/
structure BankEnt where
  key   : Nat
  pid   : Nat
  pbase : Nat
  pcap  : Nat
  mask  : BitVec 48
deriving DecidableEq, Repr, Inhabited

/-- A scrub progress register (R370). -/
structure Scrub where
  pid   : Nat
  fin   : Bool
  total : Nat
  done  : Nat
  /-- The near and cluster scratchpad have been cleared (R399). -/
  cleared : Bool
deriving DecidableEq, Repr, Inhabited

/-- What a fabric write queue entry does (R272, R347): plain bytes, or an atomic of a number of bytes. -/
inductive FabOp where
  | bytes (d : List Byte)
  | atom (k : NetAtom) (size : Nat) (v c : Word)
deriving DecidableEq, Repr, Inhabited

/-- A fabric write queue entry: where, what, its connection and whether that is reliable ordered, its partition, a
local command's chunk it lands for, its message, and the barrier the message counts down once performed: handle and bytes. -/
structure FabEnt where
  line : Nat
  addr : Nat
  op   : FabOp
  conn : Nat
  rod  : Bool
  pid  : Nat
  tag  : Option (Nat × Nat × Nat)
  msg  : Nat
  bar  : Option (Word × Nat)
  poison : Bool
  /-- The unit of a folded get the line is of (R353). -/
  unit : Option Nat := none
  /-- Of a command whose slot has been released since: record and position (R227, R295). -/
  left : Option (Nat × Nat) := none
deriving DecidableEq, Repr, Inhabited

/-- A die (R132, R264, R270, R272, R275, R336, R370, R377, R382, R402). -/
structure Die where
  banks   : List BankEnt
  /-- Key slots that hold keys. -/
  keys    : List Nat
  scrubs  : List Scrub
  pend    : List Nat
  bars    : List (Nat × Bar)
  errs    : List (Nat × Nat)
  fabq    : List FabEnt
  fabBud  : Nat
  fabRefill : Nat
  clock   : Nat
  /-- T64 when the condition of a slower clock was last there, or the clock last stepped back (R382). -/
  hotAt   : Nat
  /-- 0 serving, 1 under repair, 2 fenced (R377). -/
  repair  : Nat
  repairAt : Nat
  /-- Sequence of the repair command the die is under (R377). -/
  repairSeq : Nat
deriving DecidableEq, Repr, Inhabited

/-- An installed translation (R339): partition, page base and log2 size, physical base, permissions and attributes. -/
structure Xlat where
  pid : Nat
  va  : Nat
  bits : Nat
  pa  : Nat
  r : Bool
  w : Bool
  x : Bool
  cmp : Bool
  frm : Bool
  /-- Of a page whose scan was refused: the reason and the offset it ended with (R78 to R80). -/
  ref : Option (Nat × Nat) := none
deriving DecidableEq, Repr, Inhabited

/-- What a partition uses on a die (R362). -/
structure DieUse where
  die   : Nat
  cores : BitVec 16
  mask  : BitVec 48
  key   : Nat
  pbase : Nat
  pcap  : Nat
  clus  : List (Nat × Nat)
deriving DecidableEq, Repr, Inhabited

/-- A partition as firmware holds it (R361, R362, R364): state 1 active, 2 stopping, 3 stopped, 4 scrubbing. -/
structure Part where
  state : Nat
  tblBase  : Nat
  tblSlots : Nat
  sup   : Nat
  mmBase : Nat
  mmSize : Nat
  src4  : Nat
  src6  : Nat
  uses  : List DieUse
  root  : Option Nat
  meas  : BitVec 256
  fabBytes : Nat
  snapFab : Nat × Nat
  seq   : Nat
  /-- Result and sequence of the last command that completed, as word 1 of its block shows them (R361). -/
  last  : Nat × Nat
  /-- Ports that have carried its traffic (R376). -/
  ports : List Nat := []
deriving DecidableEq, Repr, Inhabited

/-- A registered host queue (R298, R299). -/
structure HQueue where
  no    : Nat
  pid   : Nat
  hdr   : Nat
  dies  : Nat
  next  : Nat
  done  : List Nat
  head  : Nat
  stop  : Nat
deriving DecidableEq, Repr, Inhabited

/-- The values of a region's control block, through its chain, as an admission or resumption read them (R302, R303). -/
structure Region where
  slot  : Nat
  priv  : Bool
  domain : Nat
  tiles : Nat
  ents  : Nat
  near  : Nat
  barQ  : Nat
  frQ   : Nat
  cmdQ  : Nat
  frR   : Nat
  cmdR  : Nat
  clus  : Nat
  hold  : Nat
  refill : Nat
  shapeBase : Nat
  shapeN : Nat
  peerBase : Nat
  peerN : Nat
  saveBase : Nat
  saveN : Nat
  tenant : Nat
  /-- Priority as it stood when the block was read (R307). -/
  prio : Nat
  /-- The region and its ancestors: slot, fault-record, command-slot and barrier-slot quota (R303). -/
  chain : List (Nat × Nat × Nat × Nat)
deriving DecidableEq, Repr, Inhabited

/-- Where a start record stands. -/
inductive RStat where
  | waiting | placed | running | saved | ending (status : Nat)
deriving DecidableEq, Repr, Inhabited

/-- What stays with the device while a record is saved (R40, R245, R315, R331 and log entry 14): a position's fault records, lost
count, dirty marks, whether it owned the matrix engine and had configured the reed, its loop-end
tests due, and its counters. -/
structure Kept where
  pos : Nat
  frq : List FRec
  lost : Nat
  dirty : BitVec 64
  owned : Bool
  reed  : Bool
  endDue : Option Nat
  endSaved : List Nat
  nA : Nat
  nX : Nat
  nWait : Nat
  nD : Nat
  parked : List Parked
  /-- A BUDGET fault is due at the next yield point (R312). -/
  budgetDue : Bool
  /-- Numbers of the entries of the saved X queue, and the spans they reach, by number (R226). -/
  nos : List Nat
  /-- Tags of the FIFOs it owned and had bound to the heddle (R178). -/
  tags : List Nat
  spans : List (Nat × Int × Int)
deriving DecidableEq, Repr, Inhabited

/-- What an engine command does to its shuttle, held while the shuttle is saved (R224, R315): a chunk bit, a finished chunk or
an abort code of a tile entry, event bits, a fault record. -/
inductive Held where
  | bit (pm c : Nat)
  | done (k : Nat)
  | fail (k code : Nat)
  | event (b : BitVec 4)
  | frec (f : FRec)
deriving DecidableEq, Repr, Inhabited

/-- A start record taken from a queue (R300), with its placement (R304, R305, R327). -/
structure Rec where
  id     : Nat
  pid    : Nat
  queue  : Nat
  index  : Nat
  entry  : Nat
  arg    : Word
  ceil   : Nat
  lanes  : Nat
  k      : Nat
  timed  : Bool
  gang   : Nat
  handle : Nat
  launch : Nat
  cookie : Word
  stat   : RStat
  region : Region
  core   : Nat
  startT : Nat
  /-- Its place in the order in which the records there are first started (R308). -/
  startNo : Nat
  late   : Bool
  begun  : Bool
  gangIn : Bool
  home   : Nat
  save   : Option Nat
  exits  : List (Nat × Nat)
  preAt  : Option Nat
  atOnce : Bool
  /-- Commands' slots kept on the core that started them while the record is saved (R316). -/
  cmdCore : Nat
  kept : List Kept
  /-- Effects of commands held for saved shuttles, by position, in order. -/
  held : List (Nat × Held)
  /-- CRC folds due, by the order of their commands: position and bytes (R228). -/
  folds : List (Nat × Nat × List Byte)
  /-- Commands the record's shuttles have started. -/
  cmdNo : Nat
  /-- Its arrival among those of all records: records read at one T64 share a number (R307). -/
  arrNo : Nat
deriving DecidableEq, Repr, Inhabited

/-- A tenant's token budget (R309). -/
structure Tenant where
  pid  : Nat
  slot : Nat
  gen  : Nat
  bal  : Int
  debt : Nat
deriving DecidableEq, Repr, Inhabited

/-- A registered gang (R349). -/
structure Gang where
  id : Nat
  pid : Nat
  coord : Nat
  members : List Nat
  handle : Nat
  /-- The gang is switched in on this module (R319). -/
  isIn : Bool
deriving DecidableEq, Repr, Inhabited

/-- State of a member's token (R319). -/
inductive TokSt where | armed | bound | switching
deriving DecidableEq, Repr, Inhabited

/-- A member's token for a gang pair (R319). -/
structure Token where
  st  : TokSt
  seq : Nat
  inG : Nat
  outG : Nat
  t   : Nat
  coord : Nat
deriving DecidableEq, Repr, Inhabited

/-- A switch as its coordinator follows it (R320). -/
structure CoSwitch where
  seq : Nat
  inG : Nat
  outG : Nat
  t   : Nat
  go  : Bool
  acks : List Nat
  bad  : Bool
  sentConfirm : Bool
  switched : List Nat
  late : Bool
deriving DecidableEq, Repr, Inhabited

/-- A management session (R366); scope 256 is module scope. -/
structure Session where
  id : Nat
  scope : Nat
deriving DecidableEq, Repr, Inhabited

/-- What the last step sent out of the module. -/
inductive Out where
  /-- A management answer: session, the 8 words (R348). -/
  | answer (session : Nat) (words : List Word)
  /-- A gang message to a module: its kind and fields (R318). -/
  | gang (dest kind : Nat) (m : GangMsg)
  /-- A transport response: connection, cause and detail (0, 0: performed), data (R347). -/
  | net (conn cause detail : Nat) (data : List Byte)
  /-- A semantic write or read to a peer (R352): module, partition, address, bytes or the count asked, the fold unit's
  number from that address (R353), a put's barrier and whether the message is of its first chunk (R229); the mode (reliable ordered: one
  path for the whole command), the ports that may carry it, and which of the bytes are poisoned (R334). -/
  | fab (peer pid : Nat) (va : Word) (data : List Byte) (want : Nat) (unit : Option Nat) (bar : Option (Word × Bool))
      (rod : Bool) (ports : List Nat) (bad : List (Nat × Nat))
deriving DecidableEq, Repr, Inhabited

/-- The gnomon (R240, R356, R357). -/
structure Gnomon where
  /-- The time kept, in quarters of a nanosecond: its low 64 bits (T64), and how many times they have wrapped (R240). -/
  t64   : Word
  wraps : Nat
  /-- What has been slewed or has passed of the next quarter, in millionths; the slew that remains, likewise (R357). -/
  frac  : Int
  lock  : Nat
  holdFrom : Word
  good  : Nat
  offset : Int
  slew  : Int
  /-- The PTP domain followed (R356). -/
  domain : Nat
  port  : Nat
  primary : Nat
  backup : Nat
  back  : Nat
  annP  : Bool
  annB  : Bool
  /-- Last multiples of 4,000 for which budgets were refilled and tokens charged, and of 400,000 for which tokens were refilled, so
  counted (R358). -/
  lastUs : Nat
  lastChg : Nat
  lastTok : Nat
  /-- What has been counted since the shared counters were last noted, in quarters of a nanosecond (R245). -/
  sinceSnap : Nat
deriving DecidableEq, Repr, Inhabited

/-- The module. -/
structure State where
  sh     : Shuttle
  co     : Core
  cores  : List (Nat × Core)
  dies   : List (Nat × Die)
  mem    : Memory
  tlb    : List Xlat
  /-- Translations dropped or replaced by a walk while accesses admitted through them had yet to read or perform (R341). -/
  evicted : List Xlat
  /-- Lines whose error the dirty-bit write of a walk has met in this step, with the partition: the next step begins with their records
  (R274, R334). -/
  met : List (Nat × Nat)
  granules : List (Nat × Bool)
  poison : List Nat
  /-- The poisoned lines whose uncorrectable error no read has met yet (R274): an engine that meets one poisons the line. -/
  latent : List Nat
  feature : Option Nat
  offered : Bool
  bootStep : Nat
  /-- The connection that wrote the go word since the reset (R366, R378). -/
  goConn : Option Nat
  cause  : Nat
  modNo  : Nat
  fmap   : List (Nat × List Word)
  portsDown : List Nat
  drops  : List (Nat × Nat)
  /-- What group 2 of the telemetry is read from as last noted, and at least 1 ms before: the count of its values, and `drops` (R376). -/
  snapTele : (Nat × List (Nat × Nat)) × (Nat × List (Nat × Nat))
  /-- Each port's IPv4 and IPv6 address, as the management profile has set them (R344). -/
  portIps : List (Nat × Word × Word × Word)
  /-- T64 when a port last received an answer of a peer, by 48 times its module number and the port (R352). -/
  heard  : List (Nat × Nat)
  sessions : List Session
  queues : List HQueue
  nextRec : Nat
  recs   : List Rec
  /-- The pre-emptions the allocator has requested and that are not saved yet: the waiting record, and the one to be saved (R308). -/
  saving : List (Nat × Nat)
  /-- The number of the last arrival, and T64 then, while time has not been stepped since (R307). -/
  lastArr : Nat × Option Nat
  tenants : List Tenant
  parts  : List (Nat × Part)
  gangs  : List Gang
  tokens : List Token
  /-- The greatest sequence number seen, by coordinator (R319). -/
  seen   : List (Nat × Nat)
  coords : List CoSwitch
  gangSeq : Nat
  heldRecs : List (Nat × Nat × FRec)
  gn     : Gnomon
  digest : List Byte
  out    : List Out
  turns  : List Turn
  /-- The debug request under way (R348): what its event does not name. -/
  dreq   : MgmtReq
  /-- The most elements the column unit may put out in this turn, where it is bounded (R218, R219). -/
  share  : Option Nat
  freeCount : Nat
deriving DecidableEq, Repr, Inhabited

/-- How a step stops for good. -/
inductive Fault where
  /-- Raised by a fetch that finds a word no scan has passed at a passed granule (R81 says none can be): only a state
  no run reaches has one. Safe: the machine stops where the spec has no behaviour. -/
  | unscannedWord
deriving DecidableEq, Repr, Inhabited

/-- Why a step has no meaning. -/
inductive Refusal where
  /-- Raised by an arm of `exec` for a row without its meaning yet. Safe: nothing is claimed of it. -/
  | notModelled (mnemonic : String)
  /-- Raised by a turn that gives as an event a row a program word names. Safe: no such turn exists in the part. -/
  | notAnEvent
deriving DecidableEq, Repr, Inhabited

/-- The region of a record not admitted. -/
def Region.none : Region :=
  { slot := 0, priv := false, domain := 0, tiles := 0, ents := 0, near := 0, barQ := 0, frQ := 0, cmdQ := 0, frR := 0,
    cmdR := 0, clus := 0, hold := 0, refill := 0, shapeBase := 0, shapeN := 0, peerBase := 0, peerN := 0, saveBase := 0,
    saveN := 0, tenant := 0, prio := 0, chain := [] }

/-- The reset value of a loop record (R105). -/
def LoopRec.reset : LoopRec := { act := false, kind := false, pred := 63, seq := 0, len := 0, start := 0 }

/-- A shuttle's registers at reset (R10, R11, R16), with no record: position 0, absent. -/
def Shuttle.reset : Shuttle :=
  { pos := 0, status := .absent, lanes := 32, pid := 0, priv := false, handle := 0, ceil := 4096, nearLen := 0,
    nTiles := 0, nEnts := 0,
    x := Vector.replicate 64 0, p := Vector.replicate 48 0, v := Vector.replicate 64 0, c := Vector.replicate 16 0,
    arena := 0, dq := Vector.replicate 6 [], rq := Vector.replicate 2 [], lc := Vector.replicate 3 0,
    loops := Vector.replicate 3 LoopRec.reset, vlen := 0, vtype := 0, vstart := 0, redst := 0, fill := 0, sat := false,
    fflags := 0, rnd := 0, frm := 0, ccur := 0, xcur := 0, hcsum := 0, tvec := 0, tcause := 0, apc := 0, pcHi := 0, xq := [],
    level := 0, events := 0, frq := [], lost := 0, timer := 0, armed := false, prog := [], progOk := false, reed := [],
    vdirty := 0, vpoison := [], xpois := [], ppois := [], rqPois := [], spois := [], flight := [], lastIssue := 0, issueFrom := 0, units := [], pre := none, preNos := [], saveDue := none,
    budgetDue := false, due := none, endDue := none, endSaved := [], xProg := 0, xLocs := [], xIss := none, reach := [], cprog := none, halting := false, aWait := .none, xWait := .none,
    nA := 0, nX := 0, nWait := 0, nD := 0, parked := [] }

/-- An operand FIFO at reset (R177). -/
def Fifo.reset : Fifo := { src := .none, ty := .e4, tag := 0, runs := [] }

/-- A tile at reset (R177): +0 with band scale 1.0. -/
def Tile.reset : Tile := { data := 0, scale := 0x3F80 }

/-- A tile-table entry at reset (R137). -/
def TEnt.reset : TEnt := { state := 0, abort := 0, expect := 0, done := 0 }

/-- A core at reset (R16, R113, R177, R270). -/
def Core.reset (k : Nat) : Core :=
  { id := k, recId := none, lanes := 32, shs := [], cycle := 0, qNS := [], qCS := [], qDS := [], qMM := [], loads := [], loadNo := 0,
    wlbud := 249984, refill := 3906, tents := [], tiles := [], owner := none, acqs := [], ownAt := 0, overHold := 0,
    holdLim := 0, fa := Fifo.reset, fb := Fifo.reset, engFree := 0, portFree := 0, tileBusy := [], served := [], cmds := [], seqs := [], hslot := 0,
    wlBytes := 0, hedBytes := 0, snapWl := (0, 0), snapHed := (0, 0), frUsed := 0, frSeq := 0, bps := [], dbg := false,
    halted := false, haltDue := false, stepping := none, nearUsed := false, bpPass := [] }

/-- A barrier slot at reset (R132). -/
def Bar.reset : Bar := { gen := 0, phase := 0, count := 0, arr := 0, bytes := 0, granted := none }

/-- A die at reset (R132, R264, R272, R370). -/
def Die.reset : Die :=
  { banks := [], keys := [], scrubs := [], pend := [], bars := [], errs := [], fabq := [], fabBud := 299584,
    fabRefill := 4681, clock := 0, hotAt := 0, repair := 0, repairAt := 0, repairSeq := 0 }

/-- The gnomon at reset: time 0, never locked (R240, R378). -/
def Gnomon.reset : Gnomon :=
  { t64 := 0, wraps := 0, frac := 0, lock := 3, holdFrom := 0, good := 0, offset := 0, slew := 0, domain := 0, port := 0, primary := 0, backup := 1,
    back := 0, annP := false, annB := false, lastUs := 0, lastChg := 0, lastTok := 0, sinceSnap := 0 }

/-- The module right after power-on reset: steps 1 and 2 of R378 are done and step 3 waits for the host's image; no record runs. -/
def State.reset : State :=
  { sh := Shuttle.reset, co := Core.reset 0, cores := [], dies := [], mem := { cells := [], undef := [] }, tlb := [], evicted := [], met := [],
    granules := [], poison := [], latent := [], feature := none, offered := false, bootStep := 3, goConn := none, cause := 0, modNo := 0, fmap := [],
    portsDown := [], drops := [], snapTele := ((0, []), (0, [])), portIps := [], heard := [], sessions := [], queues := [], nextRec := 0, recs := [], saving := [], lastArr := (0, none), tenants := [],
    parts := [], gangs := [], tokens := [], seen := [], coords := [], gangSeq := 0, heldRecs := [], gn := Gnomon.reset,
    digest := [], out := [], turns := [], dreq := { session := 0, part := 0, id := 0, args := [] }, share := none, freeCount := 0 }

end Sys2Proof.Machine
end

