-- ==== Sys2Proof/Machine/Mem.lean ====
section
/-! DEFINITION. Sparse tables by number, and the bytes of memory: reading, writing, clearing a range and leaving a range
undefined. Memory addresses are physical addresses (R263); near and cluster scratchpads, which have none, lie above them
(log entry 4). -/

namespace Sys2Proof.Machine

/-- The entry of a table sorted by number, or what stands for an entry not listed. -/
def aget {α : Type} (d : α) (l : List (Nat × α)) (k : Nat) : α :=
  match l with
  | [] => d
  | (n, v) :: r => if n = k then v else aget d r k

/-- A table with one entry set. -/
def aput {α : Type} (l : List (Nat × α)) (k : Nat) (v : α) : List (Nat × α) :=
  match l with
  | [] => [(k, v)]
  | (n, w) :: r => if k < n then (k, v) :: (n, w) :: r else if k = n then (k, v) :: r else (n, w) :: aput r k v

/-- A table without one entry. -/
def adel {α : Type} (l : List (Nat × α)) (k : Nat) : List (Nat × α) := l.filter (fun e => e.1 != k)

/-- The entry of a table, if it is listed. -/
def afind? {α : Type} (l : List (Nat × α)) (k : Nat) : Option α := (l.find? (fun e => e.1 == k)).map Prod.snd

/-- What an address reads as when no byte is listed at it: zero (R365), or a free value in a range left undefined. -/
def Memory.blank (u : List (Nat × Nat × Nat × Nat)) (a : Nat) : Byte :=
  match u.find? (fun r => r.1 ≤ a && a < r.2.1) with
  | some (lo, _, e, base) => if e = 0 then 0 else Config.freeByte e (base + (a - lo))
  | none => 0

/-- The byte at an address. -/
def Memory.read (m : Memory) (a : Nat) : Byte := aget (Memory.blank m.undef a) m.cells a

/-- Cells with the byte at one address replaced: an address holding what it reads as when unlisted is not listed. -/
def cellsPut (bl : Byte) : List Host.Cell → Nat → Byte → List Host.Cell
  | [], a, b => if b = bl then [] else [(a, b)]
  | (n, w) :: r, a, b =>
    if a < n then (if b = bl then (n, w) :: r else (a, b) :: (n, w) :: r)
    else if a = n then (if b = bl then r else (a, b) :: r)
    else (n, w) :: cellsPut bl r a b

/-- Memory with one byte written. -/
def Memory.write (m : Memory) (a : Nat) (b : Byte) : Memory :=
  { m with cells := cellsPut (Memory.blank m.undef a) m.cells a b }

/-- Whether addresses rise strictly from a bound. -/
def cellsRise : Nat → List Host.Cell → Bool
  | _, [] => true
  | lo, (a, _) :: r => decide (lo ≤ a) && cellsRise (a + 1) r

/-- The canonical form: addresses strictly rising, no byte listed that its address reads as when unlisted. -/
def Memory.wf (m : Memory) : Bool :=
  cellsRise 0 m.cells && m.cells.all (fun c => decide (c.2 ≠ Memory.blank m.undef c.1))

/-- Cells below and from an address. -/
def cellsBelow (l : List Host.Cell) (a : Nat) : List Host.Cell := l.filter (fun c => c.1 < a)
def cellsFrom (l : List Host.Cell) (a : Nat) : List Host.Cell := l.filter (fun c => a ≤ c.1)

/-- Memory with the bytes of [lo, hi) replaced by the contents of an epoch: 0 for zero, else free bytes. -/
def Memory.cover (m : Memory) (lo hi epoch : Nat) : Memory :=
  if hi ≤ lo then m
  else
    let u := m.undef.filter (fun r => !(lo ≤ r.1 && r.2.1 ≤ hi))
    let plain := epoch = 0 && !(u.any (fun r => r.1 < hi && lo < r.2.1))
    { cells := cellsBelow m.cells lo ++ cellsFrom m.cells hi
      undef := if plain then u else (lo, hi, epoch, lo) :: u }

/-- Memory with n bytes copied from one place to another that it does not meet, undefined bytes as they are. -/
def Memory.copy (m : Memory) (src dst n : Nat) : Memory :=
  if n = 0 then m
  else
    let mv := (cellsBelow (cellsFrom m.cells src) (src + n)).map (fun c => (c.1 - src + dst, c.2))
    let ov := m.undef.filterMap (fun r =>
      let lo := Nat.max r.1 src
      let hi := Nat.min r.2.1 (src + n)
      if lo < hi then some (lo - src + dst, hi - src + dst, r.2.2.1, r.2.2.2 + (lo - r.1)) else none)
    { cells := cellsBelow m.cells dst ++ mv ++ cellsFrom m.cells (dst + n)
      undef := ov ++ (dst, dst + n, 0, dst) :: m.undef }

/-- The bytes from an address on. -/
def Memory.readN (m : Memory) (a n : Nat) : List Byte := (List.range n).map (fun k => m.read (a + k))

/-- The little-endian number of n bytes at an address (R2). -/
def Memory.readLe (m : Memory) (a n : Nat) : Nat := leNat (m.readN a n)

/-- Memory with bytes written from an address on. -/
def Memory.writeN (m : Memory) (a : Nat) : List Byte → Memory
  | [] => m
  | b :: r => (m.write a b).writeN (a + 1) r

/-- Memory with the n little-endian bytes of a number written. -/
def Memory.writeLe (m : Memory) (a n v : Nat) : Memory := m.writeN a (leBytes n v)

/-- Where the near scratchpad of a core stands among memory addresses. -/
def nearKey (core off : Nat) : Nat := 2 ^ 44 + core * 2 ^ 24 + off

/-- Where the cluster scratchpad of a core's cluster stands (four cores a cluster, R261). -/
def clusKey (cl off : Nat) : Nat := 2 ^ 45 + cl * 2 ^ 24 + off

/-- Main memory starts here (R263). -/
def mmBase : Nat := 0x010000000000

/-- Whether a physical address is die scratchpad (R263). -/
def isDS (pa : Nat) : Bool := pa < 0x002000000000

/-- Whether a physical address is main memory (R263). -/
def isMM (pa : Nat) : Bool := mmBase ≤ pa && pa ≤ 0x027FFFFFFFFF

/-- The write-lane port that serves a memory address (R110, R263). -/
def portOf (key : Nat) : Port := if 2 ^ 45 ≤ key then .cs else if 2 ^ 44 ≤ key then .ns else if isDS key then .ds else .mm

namespace State

/-- A core, wherever it stands. -/
def core (s : State) (k : Nat) : Core := if k = s.co.id then s.co else aget (Core.reset k) s.cores k

/-- A state with one core replaced. -/
def setCore (s : State) (c : Core) : State :=
  if c.id = s.co.id then { s with co := c } else { s with cores := aput s.cores c.id c }

/-- A shuttle, wherever it stands. -/
def shuttle (s : State) (r : Ref) : Shuttle :=
  if r.core = s.co.id ∧ r.pos = s.sh.pos then s.sh else aget { Shuttle.reset with pos := r.pos } (s.core r.core).shs r.pos

/-- A state with one shuttle replaced. -/
def setShuttle (s : State) (k : Nat) (t : Shuttle) : State :=
  if k = s.co.id ∧ t.pos = s.sh.pos then { s with sh := t }
  else s.setCore { s.core k with shs := aput (s.core k).shs t.pos t }

/-- The state with another shuttle, and its core, in focus. Nothing of the machine changes. -/
def refocus (s : State) (r : Ref) : State :=
  if r.core = s.co.id ∧ r.pos = s.sh.pos then s
  else
    let co := { s.co with shs := aput s.co.shs s.sh.pos s.sh }
    let nc := if r.core = co.id then co else aget (Core.reset r.core) s.cores r.core
    let cores := if r.core = co.id then s.cores else adel (aput s.cores co.id co) r.core
    { s with
      sh := aget { Shuttle.reset with pos := r.pos } nc.shs r.pos
      co := { nc with shs := adel nc.shs r.pos }
      cores := cores }

/-- A die. -/
def die (s : State) (d : Nat) : Die := aget Die.reset s.dies d

/-- A state with one die replaced. -/
def setDie (s : State) (d : Nat) (x : Die) : State := { s with dies := aput s.dies d x }

/-- A partition that is not free. -/
def part? (s : State) (pid : Nat) : Option Part := afind? s.parts pid

/-- A state with one partition replaced. -/
def setPart (s : State) (pid : Nat) (p : Part) : State := { s with parts := aput s.parts pid p }

/-- The shuttles of a core, by position. -/
def shuttlesOf (s : State) (k : Nat) : List Shuttle :=
  let c := s.core k
  (List.range 8).filterMap (fun p =>
    if k = s.co.id && p = s.sh.pos then some s.sh else afind? c.shs p)

/-- A count for the next free value, and the state past it. -/
def fresh (s : State) : Nat × State := (s.freeCount + 1, { s with freeCount := s.freeCount + 1 })

end State

/-- The die of a core, its place on the die, and its cluster (R8, R261). -/
def dieOf (core : Nat) : Nat := core / 16

end Sys2Proof.Machine
end

