-- ==== Sys2Proof/Machine/Access.lean ====
section
/-! DEFINITION. Addresses: windows and ports (R110), the checks of an access (R111), translation (R337 to R341), and
the code scanner (R78 to R81). -/

namespace Sys2Proof.Machine

/-- Where an access goes: its memory address, and the page's marks. -/
structure Loc where
  key : Nat
  frm : Bool
  cmp : Bool
deriving DecidableEq, Repr

/-- What checking an access finds: where it goes, the fault with its detail and translation level, or a die under
repair, for which it waits (R377). -/
inductive Chk where
  | ok (l : Loc)
  | bad (cause detail level : Nat)
  | hold
deriving DecidableEq, Repr

/-- Cause codes of R322. -/
def cSCHED : Nat := 0x01
def cXLAT : Nat := 0x02
def cPERM : Nat := 0x03
def cALIGN : Nat := 0x04
def cCODESCAN : Nat := 0x05
def cUNSORTED : Nat := 0x06
def cCOLCAP : Nat := 0x07
def cPOOL : Nat := 0x08
def cWBP : Nat := 0x09
def cHANDLE : Nat := 0x0A
def cINTEG : Nat := 0x0B
def cECC : Nat := 0x0C
def cCOMPR : Nat := 0x0D
def cBUDGET : Nat := 0x0E
def cSTRAGGLER : Nat := 0x0F
def cCLOCK : Nat := 0x10
def cNUMOVF : Nat := 0x11
def cSWTRAP : Nat := 0x12
def cBKPT : Nat := 0x13

/-- Width of a level's index field and its low bit in the virtual address (R337). -/
def xlatIndex (va lv : Nat) : Nat :=
  match lv with
  | 0 => bitsAt va 48 8
  | 1 => bitsAt va 39 9
  | 2 => bitsAt va 30 9
  | 3 => bitsAt va 21 9
  | _ => bitsAt va 16 5

/-- log2 of a level's page (R337). -/
def pageBits (lv : Nat) : Nat := if lv = 2 then 30 else if lv = 3 then 21 else 16

/-- log2 of a level's table size in bytes. -/
def tableBits (lv : Nat) : Nat := if lv = 0 then 11 else if lv = 4 then 8 else 12

/-- Whether n bytes from a physical address lie wholly in one range of R263, and in one die where it is die scratchpad. -/
def inRanges (pa n : Nat) : Bool :=
  (isDS pa && isDS (pa + n - 1) && pa / 2 ^ 32 == (pa + n - 1) / 2 ^ 32) || (isMM pa && isMM (pa + n - 1))

/-- Whether an entry at a level is malformed (R338). -/
def entryBad (e lv : Nat) : Bool :=
  let leaf := bitAt e 62
  let pa := bitsAt e 16 40 * 2 ^ 16
  bitsAt e 56 6 != 0 || bitsAt e 8 8 != 0 || bitAt e 2 || bitAt e 0 ||
  (leaf && lv ≤ 1) || (!leaf && lv == 4) ||
  (leaf && (pa % 2 ^ pageBits lv != 0 || !inRanges pa (2 ^ pageBits lv))) ||
  (!leaf && (bitsAt e 1 7 != 0 || !inRanges pa (2 ^ tableBits (lv + 1))))

/-- A walk from a level on (R339): the leaf's address, the leaf and its level, or the fault. -/
def walkFrom (m : Memory) (va base : Nat) : Nat → Nat → Except (Nat × Nat × Nat) (Nat × Nat × Nat)
  | 0, lv => .error (cXLAT, 1, lv)
  | fuel + 1, lv =>
    let a := base + 8 * xlatIndex va lv
    let e := m.readLe a 8
    if !bitAt e 63 then .error (cXLAT, 0, lv)
    else if entryBad e lv then .error (cXLAT, 1, lv)
    else if bitAt e 62 then .ok (a, e, lv)
    else walkFrom m va (bitsAt e 16 40 * 2 ^ 16) fuel (lv + 1)

/-- The addresses of the entries a walk reads from a level on. -/
def walkPath (m : Memory) (va base : Nat) : Nat → Nat → List Nat
  | 0, _ => []
  | fuel + 1, lv =>
    let a := base + 8 * xlatIndex va lv
    let e := m.readLe a 8
    a :: (if !bitAt e 63 || entryBad e lv || bitAt e 62 then [] else walkPath m va (bitsAt e 16 40 * 2 ^ 16) fuel (lv + 1))

/-- Whether a physical page may be reached by a partition: its bank-map windows with loaded keys on a die's
scratchpad (R267, R276), its main-memory window (R362). -/
def physOwned (s : State) (pid pa : Nat) : Bool :=
  if isDS pa then
    let d := s.die (pa / 2 ^ 32)
    let o := pa % 2 ^ 32 / 65536
    d.banks.any (fun b => b.pid == pid && b.pbase ≤ o && o < b.pbase + b.pcap && d.keys.contains b.key)
  else
    match s.part? pid with
    | some p =>
      let g := (pa - mmBase) / 2 ^ 30
      p.mmBase ≤ g && g < p.mmBase + p.mmSize
    | none => false

/-- The level at which a walk meets a table in die scratchpad that no window of the partition with a loaded key reaches (R267, R276). -/
def walkBarred (s : State) (pid va root : Nat) : Option Nat :=
  (walkPath s.mem va root 5 0).findIdx? (fun a => isDS a && !physOwned s pid a)

/-- The walk of a partition's tables (R339): each entry is read at its array, as any read is. -/
def walkOf (s : State) (pid va : Nat) : Except (Nat × Nat × Nat) (Nat × Nat × Nat) :=
  match (s.part? pid).bind (fun p => p.root) with
  | none => .error (cXLAT, 0, 0)
  | some root =>
    match walkBarred s pid va root with
    | some lv => .error (cPERM, 5, lv)
    | none => walkFrom s.mem va root 5 0

/-- An installed translation covers a page address. -/
def Xlat.covers (t : Xlat) (pid va : Nat) : Bool := t.pid == pid && t.va == va / 2 ^ t.bits * 2 ^ t.bits

/-- A translation installed for data. One that permits nothing marks a page whose scan was refused (R78, R81). -/
def Xlat.data (t : Xlat) : Bool := !t.x && (t.r || t.w)

/-- An installed translation permits a kind of access. -/
def Xlat.permits (t : Xlat) : Acc → Bool
  | .read => t.r
  | .write => t.w
  | .fetch => t.x

/-- Translations removed (R341): a locked granule of their pages that no fetch translation, and no mark of a refused page, covers any
more returns to open (R81). -/
def dropXlats (s : State) (sel : Xlat → Bool) : State :=
  let gone := s.tlb.filter sel
  let kept := s.tlb.filter (fun t => !sel t)
  let inPage (g : Nat) (t : Xlat) : Bool := !t.data && t.pa / 65536 ≤ g && g < t.pa / 65536 + 2 ^ (t.bits - 16)
  { s with tlb := kept, granules := s.granules.filter (fun g => !gone.any (inPage g.1) || kept.any (inPage g.1)) }

/-- The granules of a page (R78). -/
def granulesOf (pa bits : Nat) : List Nat := (List.range (2 ^ (bits - 16))).map (fun k => pa / 65536 + k)

/-- Whether a granule is locked: passed or refused (R78). -/
def locked (s : State) (pa : Nat) : Bool := s.granules.any (fun g => g.1 == pa / 65536)

/-- Whether a write into a page has yet to perform: a queue entry of any core or die (R80), or an element of a part-way `vstx` or `mdrain`,
which its check has admitted (R151, R189, R296). -/
def pendingWrites (s : State) (lo hi : Nat) : Bool :=
  let inC (c : Core) : Bool := (c.qDS ++ c.qMM).any (fun e => lo ≤ e.line && e.line < hi) ||
    c.shs.any (fun t => t.2.xLocs.any (fun k => lo ≤ k && k < hi))
  s.sh.xLocs.any (fun k => lo ≤ k && k < hi) || inC s.co || s.cores.any (fun c => inC c.2) ||
    s.dies.any (fun d => d.2.fabq.any (fun e => lo ≤ e.line && e.line < hi))

/-- Whether a load under way on any core reads in a range. -/
def pendingReads (s : State) (lo hi : Nat) : Bool :=
  let inC (c : Core) : Bool := c.loads.any (fun l => lo < l.key + l.size && l.key < hi)
  inC s.co || s.cores.any (fun c => inC c.2)

/-- Whether an access admitted through a translation has yet to read or perform (R341). -/
def xlatBusy (s : State) (t : Xlat) : Bool := pendingWrites s t.pa (t.pa + 2 ^ t.bits) || pendingReads s t.pa (t.pa + 2 ^ t.bits)

/-- Whether an access admitted through some translations, installed or gone since, has yet to read or perform (R341). -/
def xlatsBusy (s : State) (sel : Xlat → Bool) : Bool := ((s.tlb ++ s.evicted).filter sel).any (xlatBusy s)

/-- The translations gone whose accesses are still awaited, with more of them. -/
def evict (s : State) (gone : List Xlat) : List Xlat := (gone ++ s.evicted).filter (xlatBusy s)

/-- A data translation installed in the place of those that cover its page. -/
def installData (s : State) (pid va : Nat) (t : Xlat) : State :=
  let old (u : Xlat) : Bool := u.covers pid va && u.data
  { s with tlb := t :: s.tlb.filter (fun u => !old u), evicted := evict s (s.tlb.filter old) }

/-- Whether every listed word of a page from its base passes the scan, and if not the first reason with its offset (R79).
Memory that lists no byte of a word reads it as zero there. The bytes are scanned as they are stored, poisoned or not, and raise no ECC: a
fetch does. DESIGN CHOICE (log entry 129). -/
def scanPage (s : State) (pa n : Nat) : Option (Nat × Nat) :=
  (List.range (n / 8)).findSome? (fun k => (scanWord s.feature (s.mem.readLe (pa + 8 * k) 8)).map (fun r => (r, 8 * k)))

/-- How the scan of a page that stays refused ended (R80): a page is refused when its own scan was. DEDUCED (log entry 63). -/
def refusedPage (s : State) (pa bits : Nat) : Option (Nat × Nat) :=
  s.tlb.findSome? (fun u => if u.pa == pa && u.bits == bits then u.ref else none)

/-- A walk (R339): the state with the translation installed, its dirty bit set and its granules scanned, and what it
found. A fetch that finds a refused page faults with CODESCAN; `level` then carries the byte offset of R79. The dirty bit is set at the array
(R339) where the entry lies in a locked granule too: R78 lists the writes that perform nothing there, and a walker's is not among them.
DESIGN CHOICE (log entry 112). -/
def walk (s : State) (pid va : Nat) (acc : Acc) : State × Except (Nat × Nat × Nat) (Option Xlat) :=
    match walkOf s pid va with
    | .error e => (s, .error e)
    | .ok (a, e, lv) =>
      let r := bitAt e 7
      let w := bitAt e 6
      let x := bitAt e 5
      let cmp := bitAt e 4
      let frm := bitAt e 3
      let d := bitAt e 1
      let pa := bitsAt e 16 40 * 2 ^ 16
      let bits := pageBits lv
      let base := va / 2 ^ bits * 2 ^ bits
      if x && (w || cmp) then (s, .error (cPERM, 14, lv))
      else
        match acc with
        | .fetch =>
          if !x then (s, .error (cPERM, 13, lv))
          else
            let gs := granulesOf pa bits
            let t : Xlat := { pid := pid, va := base, bits := bits, pa := pa, r := r, w := false, x := true, cmp := cmp, frm := frm }
            if gs.all (fun g => s.granules.contains (g, true)) then
              ({ s with tlb := t :: s.tlb.filter (fun u => !(u.covers pid va && u.x)) }, .ok (some t))
            else
              match refusedPage s pa bits with
              | some (why, off) => (s, .error (cCODESCAN, why, off))
              | none =>
                if pendingWrites s pa (pa + 2 ^ bits) then (s, .ok none)
                else
                  let rest := s.granules.filter (fun g => !gs.contains g.1)
                  match scanPage s pa (2 ^ bits) with
                  | none =>
                    ({ s with granules := gs.map (fun g => (g, true)) ++ rest
                              tlb := t :: s.tlb.filter (fun u => !(u.covers pid va && u.x)) }, .ok (some t))
                  | some (why, off) =>
                    ({ s with granules := gs.map (fun g => (g, false)) ++ rest
                              tlb := { t with r := false, x := false, ref := some (why, off) } :: s.tlb }, .error (cCODESCAN, why, off))
        | .read =>
          if !r then (s, .error (cPERM, 5, lv))
          else
            let t : Xlat := { pid := pid, va := base, bits := bits, pa := pa, r := r, w := w && d, x := false, cmp := cmp, frm := frm }
            (installData s pid va t, .ok (some t))
        | .write =>
          if !w then (s, .error (cPERM, 5, lv))
          else
            let m := if d then s.mem else s.mem.writeLe a 8 (e + 2)
            let line := a / 64 * 64
            let meets := !d && s.latent.contains line
            let t : Xlat := { pid := pid, va := base, bits := bits, pa := pa, r := r, w := true, x := false, cmp := cmp, frm := frm }
            ({ installData s pid va t with mem := m
                                           met := if meets then (pid, line) :: s.met else s.met
                                           latent := if meets then s.latent.filter (fun l => l != line) else s.latent }, .ok (some t))

/-- The physical address of a virtual one for a kind of access, by an installed translation or a walk. -/
def translate (s : State) (pid va : Nat) (acc : Acc) : State × Except (Nat × Nat × Nat) (Option Xlat) :=
  match s.tlb.find? (fun t => t.covers pid va && t.permits acc) with
  | some t => (s, .ok (some t))
  | none => walk s pid va acc

/-- Whether a walk an access needs reads an entry in a die of a state of repair, from another die (R377): 1 under repair, 2 fenced. -/
def walkMeets (s : State) (core pid va : Nat) (acc : Acc) (st : Nat) : Bool :=
  s.dies.any (fun d => d.2.repair == st) && !(s.tlb.any (fun t => t.covers pid va && t.permits acc)) &&
  (match (s.part? pid).bind (fun p => p.root) with
    | none => false
    | some root => (walkPath s.mem va root 5 0).any (fun a => isDS a && (s.die (a / 2 ^ 32)).repair == st && a / 2 ^ 32 != dieOf core))

/-- The three windows of R110. -/
inductive Window where | near | cluster | xlat | none
deriving DecidableEq, Repr

/-- The window an address lies in (R110). -/
def windowOf (ea : Nat) : Window :=
  if ea ≤ 0x17FFFF then .near
  else if 0x1000000 ≤ ea && ea ≤ 0x1FFFFFF then .cluster
  else if 0x100000000 ≤ ea && ea ≤ 0x00FFFFFFFFFFFFFF then .xlat
  else .none

/-- Whether a byte of the cluster window lies in the partition's cluster grant of a core's cluster (R362). -/
def clusGranted (s : State) (pid core off : Nat) : Bool :=
  match s.part? pid with
  | none => false
  | some p => p.uses.any (fun u => u.die == dieOf core &&
      match u.clus[core % 16 / 4]? with
      | some (b, n) => b * 65536 ≤ off && off < (b + n) * 65536
      | none => false)

/-- Who makes an access: partition, core, near grant (R111). -/
structure Who where
  pid  : Nat
  core : Nat
  lo   : Nat
  len  : Nat
deriving DecidableEq, Repr

/-- The shuttle in focus as the maker of an access: its near grant lies at pos × L × 48 KiB (R306). -/
def State.who (s : State) : Who :=
  { pid := s.sh.pid, core := s.co.id, lo := s.sh.pos * s.sh.lanes * 49152, len := s.sh.nearLen }

/-- The detail of an ECC fault of a read: 0 for an uncorrectable error met there (R111), 1 for a line poisoned before (R335). -/
def State.eccDetail (s : State) (key n : Nat) : Nat := if s.latent.any (fun l => l < key + n && key < l + 64) then 0 else 1

/-- The poisoned lines replaced; an error not yet met goes with its line's poison. -/
def State.putPoison (s : State) (l : List Nat) : State := { s with poison := l, latent := s.latent.filter (fun k => l.contains k) }

/-- The poison of a line after a write to it: a write of every byte clears it, a poisoned source sets it (R334). -/
def State.linePoison (s : State) (line : Nat) (whole poison : Bool) : State :=
  let s1 := if whole then s.putPoison (s.poison.filter (fun k => k != line)) else s
  if poison && !s1.poison.contains line then { s1 with poison := line :: s1.poison } else s1

/-- Checks 5 to 7 of R111 on a translated page, with R267, R276, R278, R362 and R377. `raw`: an engine's access, to
which check 6 and the instructions' rule for framed pages do not apply (R224, R278); `ecc`: a read of poisoned data
faults (R334, R335). -/
def checkPhys (s : State) (t : Xlat) (core pid va size : Nat) (acc : Acc) (raw ecc : Bool) : Chk :=
  let pa := t.pa + va % 2 ^ t.bits
  let die := pa / 2 ^ 32
  if !physOwned s pid pa then .bad cPERM 5 0
  else if acc == .write && locked s pa then .bad cPERM 5 0
  else if acc == .write && t.frm && !raw then .bad cPERM 5 0
  else if t.cmp && !raw then .bad cCOMPR 0 0
  else if isDS pa && (s.die die).repair == 1 && die != dieOf core then .hold
  else if isDS pa && (s.die die).repair == 2 then .bad cECC 1 0
  else if acc != .write && s.poison.any (fun l => l < pa + size && pa < l + 64) && ecc then .bad cECC (s.eccDetail pa size) 0
  else .ok { key := pa, frm := t.frm, cmp := t.cmp }

/-- The checks of R111 on one access, in order, with the state after any walk they make. -/
def check (s : State) (w : Who) (ea size : Nat) (acc : Acc) (raw ecc : Bool) : State × Chk :=
  if ea % size ≠ 0 then (s, .bad cALIGN 3 0)
  else
    match windowOf ea with
    | .none => (s, .bad cPERM 3 0)
    | .near =>
      if w.lo ≤ ea && ea + size ≤ w.lo + w.len then
        let k := nearKey w.core ea
        if acc == .read && ecc && s.poison.any (fun l => l < k + size && k < l + 64) then (s, .bad cECC (s.eccDetail k size) 0)
        else (s, .ok { key := k, frm := false, cmp := false })
      else (s, .bad cPERM 4 0)
    | .cluster =>
      let off := ea - 0x1000000
      if clusGranted s w.pid w.core off && clusGranted s w.pid w.core (off + size - 1) then
        let k := clusKey (w.core / 4) off
        if acc == .read && ecc && s.poison.any (fun l => l < k + size && k < l + 64) then (s, .bad cECC (s.eccDetail k size) 0)
        else (s, .ok { key := k, frm := false, cmp := false })
      else (s, .bad cPERM 4 0)
    | .xlat =>
      if walkMeets s w.core w.pid ea acc 1 then (s, .hold)
      else if walkMeets s w.core w.pid ea acc 2 then (s, .bad cECC 1 0)
      else
      match translate s w.pid ea acc with
      | (s', .error (c, d, l)) => (s', .bad c d l)
      | (s', .ok none) => (s', .hold)
      | (s', .ok (some t)) => (s', checkPhys s' t w.core w.pid ea size acc raw ecc)

end Sys2Proof.Machine
end

