-- ==== Sys2Proof/Machine/Num.lean ====
section
/-! DEFINITION. Number formats (R42 to R47), rounding and overflow (R53 to R60), exact arithmetic on values, and the
summation orders (R61 to R66). A value is exact; every result code is formed by one rounding of an exact value. Flags are
a number: 16 nv, 8 dz, 4 of, 2 uf, 1 nx (R18) and 32 for `sat`. -/

namespace Sys2Proof.Machine

/-- A value: NaN, an infinity, or (−1)^neg × m × 2^e, exact (R44); zero keeps its sign. -/
inductive FVal where
  | nan
  | inf (neg : Bool)
  | fin (neg : Bool) (m : Nat) (e : Int)
deriving DecidableEq, Repr, Inhabited

/-- A floating format (R43, R46): exponent and mantissa widths, bias, whether it is signed, has infinities, has NaNs.
Without infinities the top exponent is a normal one (R44) but for the all-ones code where there are NaNs. -/
structure FFmt where
  eb   : Nat
  mb   : Nat
  bias : Nat
  sgn  : Bool
  inf  : Bool
  nan  : Bool
deriving DecidableEq, Repr

def fp32 : FFmt := { eb := 8, mb := 23, bias := 127, sgn := true, inf := true, nan := true }
def fbf16 : FFmt := { eb := 8, mb := 7, bias := 127, sgn := true, inf := true, nan := true }
def fp16 : FFmt := { eb := 5, mb := 10, bias := 15, sgn := true, inf := true, nan := true }
def fe4m3 : FFmt := { eb := 4, mb := 3, bias := 7, sgn := true, inf := false, nan := true }
def fe5m2 : FFmt := { eb := 5, mb := 2, bias := 15, sgn := true, inf := true, nan := true }
def fp4 : FFmt := { eb := 2, mb := 1, bias := 1, sgn := true, inf := false, nan := false }
/-- The coarse scale of R46. -/
def fe5m3 : FFmt := { eb := 5, mb := 3, bias := 15, sgn := false, inf := false, nan := true }
/-- The effective scale of R46. Its NaN is any code with the top exponent, so its largest is 0xFEFF. -/
def fe8m8 : FFmt := { eb := 8, mb := 8, bias := 127, sgn := false, inf := true, nan := true }

/-- What a code is: a floating number, or an integer of a width (R42). -/
inductive NKind where
  | flt (f : FFmt)
  | int (signed : Bool) (bits : Nat)
deriving DecidableEq, Repr

/-- The format of an element type (R17). -/
def EType.kind : EType → NKind
  | .f32 => .flt fp32
  | .bf16 => .flt fbf16
  | .f16 => .flt fp16
  | .e4 => .flt fe4m3
  | .e5 => .flt fe5m2
  | .f4 => .flt fp4
  | t => .int t.signed t.bits

/-- The floating format of a floating element type, FP32 for others. -/
def EType.fmt (t : EType) : FFmt :=
  match EType.kind t with
  | .flt f => f
  | .int _ _ => fp32

/-- The canonical NaN of a format (R43, R46). -/
def FFmt.nanCode (f : FFmt) : Nat :=
  if f.inf then (2 ^ f.eb - 1) * 2 ^ f.mb + 2 ^ (f.mb - 1) else 2 ^ (f.eb + f.mb) - 1

/-- The code of +∞ (R45). -/
def FFmt.infCode (f : FFmt) : Nat := (2 ^ f.eb - 1) * 2 ^ f.mb

/-- The code of the largest finite magnitude (R45). -/
def FFmt.maxCode (f : FFmt) : Nat :=
  if f.inf then (2 ^ f.eb - 1) * 2 ^ f.mb - 1 else if f.nan then 2 ^ (f.eb + f.mb) - 2 else 2 ^ (f.eb + f.mb) - 1

/-- The sign bit of a format in place. -/
def FFmt.signBit (f : FFmt) (neg : Bool) : Nat := if neg then 2 ^ (f.eb + f.mb) else 0

/-- Val of a floating code (R43, R44, R46). -/
def FFmt.val (f : FFmt) (code : Nat) : FVal :=
  let e := bitsAt code f.mb f.eb
  let m := code % 2 ^ f.mb
  let neg := f.sgn && bitAt code (f.eb + f.mb)
  if f.inf && e == 2 ^ f.eb - 1 then (if m = 0 && f.sgn then .inf neg else .nan)
  else if f.nan && !f.inf && e == 2 ^ f.eb - 1 && m == 2 ^ f.mb - 1 then .nan
  else if e = 0 then .fin neg m (1 - (f.bias : Int) - f.mb)
  else .fin neg (2 ^ f.mb + m) ((e : Int) - f.bias - f.mb)

/-- Val of a code (R60). -/
def NKind.val (k : NKind) (code : Nat) : FVal :=
  match k with
  | .flt f => f.val code
  | .int s b =>
    let v : Int := if s then toSigned code b else ((code % 2 ^ b : Nat) : Int)
    .fin (v < 0) v.natAbs 0

/-- The width of a code. -/
def NKind.bits : NKind → Nat
  | .flt f => f.eb + f.mb + (if f.sgn then 1 else 0)
  | .int _ b => b

/-- floor(log2 (num / den)) of a positive fraction. -/
def flog2 (num den : Nat) : Int :=
  let k : Int := (num.log2 : Int) - den.log2
  if 0 ≤ k then (if den * 2 ^ k.toNat ≤ num then k else k - 1)
  else (if den ≤ num * 2 ^ (-k).toNat then k else k - 1)

/-- Whether a magnitude is rounded up, from its last bit and what is cut off: rem / den of a unit (R53). -/
def roundUp (rm : Rm) (neg : Bool) (odd : Bool) (rem den : Nat) : Bool :=
  match rm with
  | .rne => den < 2 * rem || (den == 2 * rem && odd)
  | .rz => false
  | .rd => neg && rem != 0
  | .ru => !neg && rem != 0

/-- A fraction num / den in units of 2^q: the quotient rounded, and whether it is exact. -/
def roundAt (rm : Rm) (neg : Bool) (num den : Nat) (q : Int) : Nat × Bool :=
  let n := if 0 ≤ q then num else num * 2 ^ (-q).toNat
  let d := if 0 ≤ q then den * 2 ^ q.toNat else den
  let c := n / d
  let r := n % d
  (if roundUp rm neg (c % 2 == 1) r d then c + 1 else c, r == 0)

/-- Round of R53 on a floating grid: the integer significand, its exponent, and whether it is exact. -/
def FFmt.round (f : FFmt) (rm : Rm) (neg : Bool) (num den : Nat) : Nat × Int × Bool :=
  if num = 0 then (0, 1 - (f.bias : Int) - f.mb, true)
  else
    let k := flog2 num den
    let q := (if k < 1 - (f.bias : Int) then 1 - (f.bias : Int) else k) - f.mb
    let (c, ex) := roundAt rm neg num den q
    (c, q, ex)

/-- Whether c × 2^q exceeds the largest finite magnitude (R56). -/
def FFmt.over (f : FFmt) (c : Nat) (q : Int) : Bool :=
  match f.val f.maxCode with
  | .fin _ m e => if e ≤ q then m < c * 2 ^ (q - e).toNat else m * 2 ^ (e - q).toNat < c
  | _ => false

/-- Enc of a finite magnitude on the grid (R60). A negative value that rounds to 0 gives −0. DESIGN CHOICE (log entry 113). -/
def FFmt.enc (f : FFmt) (neg : Bool) (c : Nat) (q : Int) : Nat :=
  let (c, q) := if 2 ^ (f.mb + 1) ≤ c then (c / 2, q + 1) else (c, q)
  f.signBit neg + (if c < 2 ^ f.mb then c else (q + f.mb + f.bias).toNat * 2 ^ f.mb + (c - 2 ^ f.mb))

/-- Whether a magnitude num / den is below the smallest normal number (R54). -/
def FFmt.tiny (f : FFmt) (num den : Nat) : Bool := num != 0 && flog2 num den < 1 - (f.bias : Int)

/-- ArithRound of R143 on a fraction, with its flags. -/
def FFmt.arithFrac (f : FFmt) (rm : Rm) (neg : Bool) (num den : Nat) : Nat × Nat :=
  let (c, q, ex) := f.round rm neg num den
  let fl := if ex then 0 else if f.tiny num den then 3 else 1
  if f.over c q then
    let toInf := f.inf && (rm == .rne || (rm == .rd && neg) || (rm == .ru && !neg))
    (f.signBit neg + (if toInf then f.infCode else f.maxCode), fl ||| 5)
  else (f.enc neg c q, fl)

/-- m × 2^e as a fraction. -/
def frac (m : Nat) (e : Int) : Nat × Nat := if 0 ≤ e then (m * 2 ^ e.toNat, 1) else (m, 2 ^ (-e).toNat)

/-- The code of a value rounded once as R143 says, NaN and infinities as R59. -/
def FFmt.arith (f : FFmt) (rm : Rm) : FVal → Nat × Nat
  | .nan => (f.nanCode, 0)
  | .inf neg => (f.signBit neg + f.infCode, 0)
  | .fin neg m e => let (n, d) := frac m e; f.arithFrac rm neg n d

/-- Negation of a value. -/
def FVal.negate : FVal → FVal
  | .nan => .nan
  | .inf n => .inf !n
  | .fin n m e => .fin (!n) m e

/-- An exact sum (R59), with its flags; the rounding mode decides the sign of an exact zero sum. -/
def FVal.add (rm : Rm) : FVal → FVal → FVal × Nat
  | .nan, _ => (.nan, 0)
  | _, .nan => (.nan, 0)
  | .inf a, .inf b => if a = b then (.inf a, 0) else (.nan, 16)
  | .inf a, .fin _ _ _ => (.inf a, 0)
  | .fin _ _ _, .inf b => (.inf b, 0)
  | .fin a m e, .fin b n g =>
    let q := if e ≤ g then e else g
    let x : Int := (m * 2 ^ (e - q).toNat : Nat)
    let y : Int := (n * 2 ^ (g - q).toNat : Nat)
    let s := (if a then -x else x) + (if b then -y else y)
    if s = 0 then (.fin (if a = b then a else rm == .rd) 0 q, 0)
    else (.fin (s < 0) s.natAbs q, 0)

/-- An exact product (R54, R59), with its flags. -/
def FVal.mul : FVal → FVal → FVal × Nat
  | .nan, _ => (.nan, 0)
  | _, .nan => (.nan, 0)
  | .inf a, .inf b => (.inf (a != b), 0)
  | .inf a, .fin b n _ => if n = 0 then (.nan, 16) else (.inf (a != b), 0)
  | .fin a m _, .inf b => if m = 0 then (.nan, 16) else (.inf (a != b), 0)
  | .fin a m e, .fin b n g => (.fin (a != b) (m * n) (e + g), 0)

/-- Whether a value is zero. -/
def FVal.isZero : FVal → Bool
  | .fin _ m _ => m == 0
  | _ => false

/-- Order of two values that are no NaN: by value, −0 equal to +0. -/
def FVal.lt : FVal → FVal → Bool
  | .nan, _ => false
  | _, .nan => false
  | .inf a, .inf b => a && !b
  | .inf a, .fin _ _ _ => a
  | .fin _ _ _, .inf b => !b
  | .fin a m e, .fin b n g =>
    let q := if e ≤ g then e else g
    let x : Int := (m * 2 ^ (e - q).toNat : Nat)
    let y : Int := (n * 2 ^ (g - q).toNat : Nat)
    decide ((if a then -x else x) < (if b then -y else y))

/-- What a conversion gives: the code, its flags, whether it overflowed under the trap policy, and whether the block that
encloses an FP4 result takes the coarse scale 0xFF (R56, R57). -/
structure Conv where
  code  : Nat
  flags : Nat
  trap  : Bool
  blk   : Bool
deriving DecidableEq, Repr

/-- Overflow of R56 for a floating destination; `blk`: an FP4 result stands in a framed block. Under the trap policy the nx or uf
that Convert set for the overflowing element is dropped with it. DESIGN CHOICE (log entry 92). -/
def FFmt.overflow (f : FFmt) (neg : Bool) (ov : Ov) (fl : Nat) (blk : Bool) : Conv :=
  let mx := f.signBit neg + f.maxCode
  match ov with
  | .sat => { code := mx, flags := fl ||| 5, trap := false, blk := false }
  | .inf => { code := if f.inf then f.signBit neg + f.infCode else mx, flags := fl ||| 5, trap := false, blk := false }
  | .nan =>
    if f.nan then { code := f.nanCode, flags := fl ||| 5, trap := false, blk := false }
    else { code := mx, flags := fl ||| 5 ||| (if blk then 0 else 16), trap := false, blk := blk }
  | .trap => { code := mx, flags := 0, trap := true, blk := false }

/-- The least and greatest value of an integer format (R42). -/
def intMin (s : Bool) (b : Nat) : Int := if s then -((2 ^ (b - 1) : Nat) : Int) else 0
def intMax (s : Bool) (b : Nat) : Int := if s then ((2 ^ (b - 1) : Nat) : Int) - 1 else ((2 ^ b : Nat) : Int) - 1

/-- Overflow of R56 for an integer destination: `of` as R54 and R18 have it for every overflow under a policy but trap, beside
the `sat` and `nv` of R56's table. DEDUCED (log entry 91). Under the trap policy the element leaves no flag. DESIGN CHOICE
(log entry 92). -/
def intOverflow (s : Bool) (b : Nat) (neg : Bool) (ov : Ov) (fl : Nat) : Conv :=
  let code := wrapInt (if neg then intMin s b else intMax s b) b
  match ov with
  | .nan => { code := code, flags := fl ||| 52, trap := false, blk := false }
  | .trap => { code := code, flags := 0, trap := true, blk := false }
  | _ => { code := code, flags := fl ||| 36, trap := false, blk := false }

/-- Convert of R60 on a finite fraction. -/
def NKind.convFrac (k : NKind) (rm : Rm) (ov : Ov) (blk : Bool) (neg : Bool) (num den : Nat) : Conv :=
  match k with
  | .flt f =>
    let (c, q, ex) := f.round rm neg num den
    let fl := if ex then 0 else if f.tiny num den then 3 else 1
    if f.over c q then f.overflow neg ov fl blk
    else { code := f.enc neg c q, flags := fl, trap := false, blk := false }
  | .int s b =>
    let (c, ex) := roundAt rm neg num den 0
    let fl := if ex then 0 else 1
    let v : Int := if neg then -(c : Int) else c
    if v < intMin s b || intMax s b < v then intOverflow s b neg ov fl
    else { code := wrapInt v b, flags := fl, trap := false, blk := false }

/-- Convert(x, F, rm, ov) of R60, with R56 and R57. -/
def NKind.convert (k : NKind) (rm : Rm) (ov : Ov) (blk : Bool) : FVal → Conv
  | .nan =>
    match k with
    | .flt f => if f.nan then { code := f.nanCode, flags := 0, trap := false, blk := false }
                else { code := 0, flags := if blk then 0 else 16, trap := false, blk := blk }
    | .int _ _ => { code := 0, flags := 16, trap := false, blk := false }
  | .inf neg =>
    match k with
    | .flt f => if f.inf then { code := f.signBit neg + f.infCode, flags := 0, trap := false, blk := false }
                else f.overflow neg ov 0 blk
    | .int s b => intOverflow s b neg ov 0
  | .fin neg m e => let (n, d) := frac m e; k.convFrac rm ov blk neg n d

/-- SatI and SatN of R60: the code, and flag 32 where it saturated. -/
def satInt (s : Bool) (b : Nat) (v : Int) : Nat × Nat :=
  if v < intMin s b then (wrapInt (intMin s b) b, 32)
  else if intMax s b < v then (wrapInt (intMax s b) b, 32)
  else (wrapInt v b, 0)

/-- ShiftRound of R55. -/
def shiftRound (v : Int) (s : Nat) (md : IRm) : Int :=
  if s = 0 then v
  else
    let p : Int := (2 ^ s : Nat)
    let q := v / p
    let r := v % p
    match md with
    | .hu => (v + (2 ^ (s - 1) : Nat)) / p
    | .he => if p < 2 * r || (2 * r = p && q % 2 = 1) then q + 1 else q
    | .tr => q
    | .jam => if r = 0 then q else if q % 2 = 0 then q + 1 else q

/-- The rounding mode a two-bit register holds (R19). -/
def rmOf (b : BitVec 2) : Rm := (Rm.ofCode b.toNat).getD .rne
def irmOf (b : BitVec 2) : IRm := (IRm.ofCode b.toNat).getD .hu

/-- Val of an E3M5 micro-scale: m × 2^(e − 8) (R46). -/
def microVal (u : Nat) : FVal := .fin false (u % 32) ((u / 32 % 8 : Nat) - 8)

/-- Eff(c, u) of R47. -/
def eff (c u : Nat) : Nat :=
  if c % 256 = 0xFF then 0xFF80
  else
    match (fe5m3.val (c % 256)).mul (microVal u) with
    | (.fin _ m e, _) => if m = 0 then 0 else (fe8m8.arith .rne (.fin false m e)).1
    | _ => 0xFF80

/-- One FP32 addition, nearest-even, on codes (R64, R66). -/
def addF32 (a b : Nat) : Nat × Nat :=
  let (s, f) := FVal.add .rne (fp32.val a) (fp32.val b)
  let (c, g) := fp32.arith .rne s
  (c, f ||| g)

/-- One level of TreeSum (R63): neighbours added in pairs, an odd one with −0. -/
def treeLevel : List Nat → List Nat × Nat
  | [] => ([], 0)
  | [a] => let (c, f) := addF32 a 0x80000000; ([c], f)
  | a :: b :: r =>
    let (c, f) := addF32 a b
    let (l, g) := treeLevel r
    (c :: l, f ||| g)

/-- TreeSum of R63 on FP32 codes, with the flags of its additions; −0 for an empty list. -/
def treeSum : Nat → List Nat → Nat × Nat
  | _, [] => (0x80000000, 0)
  | _, [a] => (a, 0)
  | 0, a :: _ => (a, 0)
  | k + 1, l => let (m, f) := treeLevel l; let (c, g) := treeSum k m; (c, f ||| g)

/-- Widen of R60: a narrow floating code as an FP32 code. -/
def widenF (f : FFmt) (code : Nat) : Nat := (fp32.arith .rne (f.val code)).1

/-- Val(a) × Val(b) × Val(sa) × Val(sb) of R61, with the nv of a 0 × ∞. The operands are paired, and the scales, before the two products meet:
where a factor is NaN, it is this pairing that says whether a 0 × ∞ is met and sets nv. DESIGN CHOICE (log entry 113). -/
def scaledProduct (p : FVal × FVal × FVal × FVal) : FVal × Nat :=
  let (u, f) := p.1.mul p.2.1
  let (v, g) := p.2.2.1.mul p.2.2.2
  let (w, h) := u.mul v
  (w, f ||| g ||| h)

/-- The exact sum of scaled products of R61. Its conditions are on the whole sum: infinities of both signs set nv wherever they
stand and whatever else is there. The sum starts from +0, so products that are all −0 give +0. DESIGN CHOICE (log entry 93). -/
def exactSum (ps : List (FVal × FVal × FVal × FVal)) : FVal × Nat :=
  let ts := ps.map scaledProduct
  let vs := ts.map Prod.fst
  let fl := ts.foldl (fun a t => a ||| t.2) 0
  let pos := vs.contains (.inf false)
  let neg := vs.contains (.inf true)
  let fl := if pos && neg then fl ||| 16 else fl
  if vs.contains .nan || (pos && neg) then (.nan, fl)
  else (vs.foldl (fun a v => (FVal.add .rne a v).1) (.fin false 0 0), fl)

/-- Chunk of R61 for FP8, FP4 and INT8: the accumulator code after one chunk, and its flags. -/
def chunk61 (acc : Nat) (ps : List (FVal × FVal × FVal × FVal)) : Nat × Nat :=
  let (s, f) := exactSum ps
  let (c, g) := fp32.arith .rne s
  let (r, h) := addF32 acc c
  (r, f ||| g ||| h)

/-- Chunk of R62 for BF16: products rounded to FP32, summed by the tree, added to the accumulator. -/
def chunk62 (acc : Nat) (ps : List (FVal × FVal × FVal × FVal)) : Nat × Nat :=
  let one (p : FVal × FVal × FVal × FVal) : Nat × Nat :=
    let (v, f) := scaledProduct p
    let (c, g) := fp32.arith .rne v
    (c, f ||| g)
  let cs := ps.map one
  let fl := cs.foldl (fun a c => a ||| c.2) 0
  let (t, g) := treeSum cs.length (cs.map Prod.fst)
  let (r, h) := addF32 acc t
  (r, fl ||| g ||| h)

/-- The signed value of a type's code, for integer types (R42). -/
def EType.ival (t : EType) (code : Nat) : Int := if t.signed then toSigned code t.bits else ((code % 2 ^ t.bits : Nat) : Int)

end Sys2Proof.Machine
end

