-- ==== Sys2Proof/Machine/Lane.lean ====
section
/-! DEFINITION. The write lane: the four queues of a core, admission and merging (R113, R114), and the operations of
reductions and atomics (R122 to R124). -/

namespace Sys2Proof.Machine

/-- AmoOp of R122 on b-bit words, with the flags of `fadd`. -/
def amoOp (k : AmoK) (old v b : Nat) : Nat × Nat :=
  let so := toSigned old b
  let sv := toSigned v b
  match k with
  | .swap => (v, 0)
  | .add => ((old + v) % 2 ^ b, 0)
  | .and => (old &&& v, 0)
  | .or => (old ||| v, 0)
  | .xor => (old ^^^ v, 0)
  | .min => (if so < sv then old else v, 0)
  | .max => (if so < sv then v else old, 0)
  | .minu => (if old < v then old else v, 0)
  | .maxu => (if old < v then v else old, 0)
  | .fadd => addF32 old v

/-- The queue of a port (R113). -/
def Core.queue (c : Core) : Port → List LaneEnt
  | .ns => c.qNS
  | .cs => c.qCS
  | .ds => c.qDS
  | .mm => c.qMM

/-- A core with one queue replaced. -/
def Core.setQueue (c : Core) (p : Port) (q : List LaneEnt) : Core :=
  match p with
  | .ns => { c with qNS := q }
  | .cs => { c with qCS := q }
  | .ds => { c with qDS := q }
  | .mm => { c with qMM := q }

/-- Every entry of a core's queues. -/
def Core.entries (c : Core) : List LaneEnt := c.qNS ++ c.qCS ++ c.qDS ++ c.qMM

/-- Whether an entry of the core covers a line, so that a read of it waits (R126). -/
def Core.covers (c : Core) (line : Nat) : Bool := c.entries.any (fun e => e.line == line)

/-- Whether an entry of the core covers a line of [lo, hi). -/
def Core.coversSpan (c : Core) (lo hi : Nat) : Bool := c.entries.any (fun e => e.line < hi && lo < e.line + 64)

/-- Whose access an entry is: a position in the A-pipe, a position in the X-pipe with the number of the instruction's entry, a chunk of a command. -/
structure By where
  a : List Nat
  x : List (Nat × Nat)
  t : List (Nat × Nat)
deriving DecidableEq, Repr

def By.none : By := { a := [], x := [], t := [] }

/-- Union of two lists without repeats. -/
def joinL {α : Type} [BEq α] (l m : List α) : List α := l ++ m.filter (fun e => !l.contains e)

/-- An entry with more makers. -/
def LaneEnt.join (e : LaneEnt) (b : By) : LaneEnt :=
  { e with aBy := joinL e.aBy b.a, xBy := joinL e.xBy b.x, tags := joinL e.tags b.t }

/-- Bytes of an entry with later ones put over them. -/
def overBytes (l : List (Nat × Byte)) : List (Nat × Byte) → List (Nat × Byte)
  | [] => l
  | (k, b) :: r => overBytes (aput l k b) r

/-- The bytes of a write as places in its line. -/
def lineBytes (off : Nat) (bs : List Byte) : List (Nat × Byte) := bs.mapIdx (fun k b => (off + k, b))

/-- A plain write of bytes of one line into a queue: merged into the youngest entry or as a new one; none when the queue
is full for it (R114). A clean write of the whole line clears the poison of the entry it merges into (R334). -/
def admitPlain (q : List LaneEnt) (key : Nat) (bs : List Byte) (poison : Bool) (b : By) : Option (List LaneEnt) :=
  let line := key / 64 * 64
  let nb := lineBytes (key % 64) bs
  let new : LaneEnt :=
    { line := line, bytes := nb, ops := [], atom := none, poison := poison, aBy := b.a, xBy := b.x, tags := b.t }
  match q.getLast? with
  | some e =>
    if e.line = line ∧ e.ops = [] ∧ e.atom = none then
      some (q.dropLast ++ [{ (e.join b) with bytes := overBytes e.bytes nb, poison := poison || (e.poison && bs.length != 64) }])
    else if q.length < 64 then some (q ++ [new]) else none
  | none => some [new]

/-- Whether a reduction may join the operations of an entry (R114): on each 8-byte word it touches, none, or the same
operation at the same size on the same bytes, and never `fadd`. -/
def redFits (ops : List WOp) (o : WOp) : Bool :=
  ops.all (fun p => p.off / 8 != o.off / 8 || (p.fn == o.fn && p.off == o.off && p.size == o.size && o.fn != .fadd))

/-- Operations with a reduction joined: combined with one on the same word, or added. -/
def redJoin : List WOp → WOp → List WOp
  | [], o => [o]
  | p :: r, o =>
    if p.off = o.off then { p with val := BitVec.ofNat 64 (amoOp o.fn p.val.toNat o.val.toNat (8 * o.size)).1 } :: r
    else p :: redJoin r o

/-- The queue with a reduction merged into its youngest entry for the line, if that entry holds only reductions that
it fits (R114). -/
def redMerge (q : List LaneEnt) (line : Nat) (o : WOp) (b : By) : Option (List LaneEnt) :=
  match q.reverse.findIdx? (fun e => e.line == line) with
  | none => none
  | some k =>
    let i := q.length - 1 - k
    match q[i]? with
    | none => none
    | some e =>
      if e.bytes = [] ∧ e.atom = none ∧ redFits e.ops o then
        some (q.set i { (e.join b) with ops := redJoin e.ops o })
      else none

/-- A reduction into a queue; none when it is full for it (R114, R124). -/
def admitRed (q : List LaneEnt) (key size : Nat) (fn : AmoK) (v : Word) (b : By) : Option (List LaneEnt) :=
  let line := key / 64 * 64
  let o : WOp := { off := key % 64, size := size, fn := fn, val := BitVec.ofNat 64 (v.toNat % 2 ^ (8 * size)) }
  match redMerge q line o b with
  | some q' => some q'
  | none =>
    if q.length < 64 then
      some (q ++ [{ line := line, bytes := [], ops := [o], atom := none, poison := false, aBy := b.a, xBy := b.x, tags := b.t }])
    else none

/-- An atomic with return into a queue, always an entry of its own (R113, R114). -/
def admitAtom (q : List LaneEnt) (key size : Nat) (k : AtomK) (r : Ret) (b : By) : Option (List LaneEnt) :=
  if q.length < 64 then
    some (q ++ [{ line := key / 64 * 64, bytes := [], ops := [], atom := some (key % 64, size, k, r), poison := false,
                  aBy := b.a, xBy := b.x, tags := b.t }])
  else none

/-- The core with a plain write admitted at a memory address. -/
def Core.plain (c : Core) (key : Nat) (bs : List Byte) (poison : Bool) (b : By) : Option Core :=
  (admitPlain (c.queue (portOf key)) key bs poison b).map (c.setQueue (portOf key))

/-- The core with a reduction admitted. -/
def Core.red (c : Core) (key size : Nat) (fn : AmoK) (v : Word) (b : By) : Option Core :=
  (admitRed (c.queue (portOf key)) key size fn v b).map (c.setQueue (portOf key))

/-- The core with an atomic admitted. -/
def Core.atom (c : Core) (key size : Nat) (k : AtomK) (r : Ret) (b : By) : Option Core :=
  (admitAtom (c.queue (portOf key)) key size k r b).map (c.setQueue (portOf key))

/-- Whether a load of a shuttle is under way (R118, R149). -/
def Core.loading (c : Core) (pos : Nat) : Bool := c.loads.any (fun l => l.pos == pos)

/-- The load is of a vector load, an X-class access (R146, R153). -/
def Load.xClass (l : Load) : Bool :=
  match l.dst with
  | .v _ _ _ => true
  | _ => false

/-- An entry of an X-class access of a shuttle has yet to perform, by the number of its X queue entry. -/
def Core.writesLeft (c : Core) (pos no : Nat) : Bool := c.entries.any (fun e => e.xBy.contains (pos, no))

/-- A load of it has yet to read. -/
def Core.readsLeft (c : Core) (pos no : Nat) : Bool := c.loads.any (fun l => l.pos == pos && l.xClass && l.after == no + 1)

/-- The x register a load brings its value to. -/
def Load.xReg? (l : Load) : Option Nat :=
  match l.dst with
  | .x d _ _ => some d
  | _ => none

/-- Whether a value is still to return to a shuttle of the core (R118, R125). -/
def Core.returning (c : Core) (pos : Nat) : Bool :=
  c.loading pos || c.entries.any (fun e => match e.atom with
    | some (_, _, _, .x p _ _ _) => p == pos
    | some (_, _, _, .fas p _ _ _) => p == pos
    | _ => false)

/-- Whether an x register of a shuttle waits for the value of a load or an atomic (R118). -/
def Core.xReturning (c : Core) (pos d : Nat) : Bool :=
  c.loads.any (fun l => l.pos == pos && l.xReg? == some d && d != 0) || c.entries.any (fun e => match e.atom with
    | some (_, _, _, .x p r _ _) => p == pos && r == d
    | _ => false)

/-- Memory with one word operation of an entry done (R115). -/
def WOp.apply (m : Memory) (line : Nat) (o : WOp) : Memory :=
  let a := line + o.off
  m.writeLe a o.size (amoOp o.fn (m.readLe a o.size) o.val.toNat (8 * o.size)).1

/-- Memory with the plain bytes of an entry, then its word operations (R115). -/
def LaneEnt.apply (m : Memory) (e : LaneEnt) : Memory :=
  let m1 := e.bytes.foldl (fun m b => m.write (e.line + b.1) b.2) m
  e.ops.foldl (fun m o => o.apply m e.line) m1

end Sys2Proof.Machine
end

