-- ==== Sys2Proof/Machine/Operands.lean ====
section
/-! DEFINITION. Register files and operand forms: scalars and captured operands (R11, R23), predicates and guards (R14,
R41), vector elements and groups (R12, R13, R142), queues (R25 to R27), and immediates (R71). -/

namespace Sys2Proof.Machine

/-- XRead of R41. -/
def Shuttle.xget (t : Shuttle) (n : Fin 64) : Word := if n.val = 0 then 0 else t.x[n.val]'n.isLt

/-- XWrite of R41: a write to x0 is discarded; a write of a whole poisoned register clears its poison (R334). -/
def Shuttle.xset (t : Shuttle) (n : Fin 64) (v : Word) : Shuttle :=
  if n.val = 0 then t else { t with x := t.x.set n.val v n.isLt, xpois := t.xpois.filter (fun k => k != n.val) }

/-- XWrite to a register by its number; numbers beyond the file name none. -/
def Shuttle.xsetN (t : Shuttle) (n : Nat) (v : Word) : Shuttle := if h : n < 64 then t.xset ⟨n, h⟩ v else t

/-- XRead of a register by its number. -/
def Shuttle.xgetN (t : Shuttle) (n : Nat) : Word := if h : n < 64 then t.xget ⟨n, h⟩ else 0

/-- Words of state registers written whole: their poison goes (R334). -/
def Shuttle.wash (t : Shuttle) (ks : List Nat) : Shuttle := { t with spois := t.spois.filter (fun k => !ks.contains k) }

/-- A predicate register, zero beyond the file. -/
def Shuttle.preg (t : Shuttle) (n : Nat) : BitVec 512 := t.p.getD n 0

/-- PBit of R41: element i of a predicate group, none beyond p47. -/
def Shuttle.pbit (t : Shuttle) (n i : Nat) : Option Bool :=
  if n + i / 512 ≤ 47 then some ((t.preg (n + i / 512)).getLsbD (i % 512)) else none

/-- A predicate element read as an operand: none reads 0 (R406). -/
def Shuttle.pval (t : Shuttle) (n i : Nat) : Bool := (t.pbit n i).getD false

/-- A predicate register written whole. -/
def Shuttle.pset (t : Shuttle) (n : Nat) (b : BitVec 512) : Shuttle := { t with p := t.p.setIfInBounds n b }

/-- A predicate register written whole: none of its words is poisoned any more (R334). -/
def Shuttle.pput (t : Shuttle) (n : Nat) (b : BitVec 512) : Shuttle := { t.pset n b with ppois := t.ppois.filter (fun q => q.1 != n) }

/-- One bit of a word of w bits set to a value. -/
def setBit {w : Nat} (b : BitVec w) (i : Nat) (v : Bool) : BitVec w :=
  if v then b ||| BitVec.ofNat w (2 ^ i) else b &&& ~~~ BitVec.ofNat w (2 ^ i)

/-- Element i of a predicate group written; nothing beyond p47 (R406). -/
def Shuttle.psetBit (t : Shuttle) (n i : Nat) (v : Bool) : Shuttle :=
  if n + i / 512 ≤ 47 then t.pset (n + i / 512) (setBit (t.preg (n + i / 512)) (i % 512) v) else t

/-- All bits of a predicate register. -/
def pFill (b : Bool) : BitVec 512 := if b then BitVec.allOnes 512 else 0

/-- GuardPass of R41 (R14). -/
def Shuttle.guard (t : Shuttle) (h : Hd) : Bool :=
  h.gd.val == 63 || ((t.preg h.gd.val).getLsbD 0 != h.ng)

/-- Active of R41 without its lower bound: element i is below `vlen` and its guard passes. -/
def Shuttle.activeAt (t : Shuttle) (h : Hd) (i : Nat) : Bool :=
  decide (i < t.vlen.toNat) &&
    (h.gd.val == 63 || (match t.pbit h.gd.val i with
      | none => false
      | some b => b != h.ng))

/-- Active of R41. -/
def Shuttle.active (t : Shuttle) (h : Hd) (i : Nat) : Bool := decide (t.vstart.toNat ≤ i) && t.activeAt h i

/-- The active elements, in increasing order. -/
def Shuttle.actives (t : Shuttle) (h : Hd) : List Nat :=
  (List.range t.vlen.toNat).filter (t.active h)

/-- The active elements of the instruction at the head of the X queue: as they were when it issued, where it is part-way (R141, R153). -/
def Shuttle.acts (t : Shuttle) (h : Hd) : List Nat := (t.xIss.map AtIssue.act).getD (t.actives h)

/-- Element i is one of them. -/
def Shuttle.isAct (t : Shuttle) (h : Hd) (i : Nat) : Bool :=
  match t.xIss with
  | none => t.active h i
  | some a => a.act.contains i

/-- `vstart` as the instruction at the head of the X queue took it at its issue (R141). -/
def Shuttle.startAt (t : Shuttle) : Nat := ((t.xIss.map AtIssue.vstart).getD t.vstart).toNat

/-- `fill` as it took it at its issue (R141, R391). -/
def Shuttle.fillAt (t : Shuttle) : Word := (t.xIss.map AtIssue.fill).getD t.fill

/-- `ccur` as it took it at its issue (R199). -/
def Shuttle.curAt (t : Shuttle) : BitVec 128 := (t.xIss.map AtIssue.cur).getD t.ccur

/-- The element type of `vtype` (R17). -/
def Shuttle.et (t : Shuttle) : EType := (EType.ofCode (bitsAt t.vtype.toNat 0 4)).getD .i8

/-- The group size of `vtype` (R17). -/
def Shuttle.grp (t : Shuttle) : Nat := 2 ^ bitsAt t.vtype.toNat 12 2

/-- EPerReg of R41. -/
def Shuttle.eper (t : Shuttle) (e : EType) : Nat := t.lanes * 512 / e.bits

/-- VLMax of R41. -/
def Shuttle.vlmax (t : Shuttle) (e : EType) (g : Nat) : Nat := Nat.min (g * t.eper e) 4096

/-- Elements of an element group, EG(t). -/
def Shuttle.eg (t : Shuttle) (e : EType) : Nat := t.lanes * 128 / e.bits

/-- Group size of an operand of another type: max(1, g × EBits(t2) / EBits(t)) (R142). -/
def Shuttle.grp2 (t : Shuttle) (e2 : EType) : Nat := Nat.max 1 (t.grp * e2.bits / t.et.bits)

/-- A vector register, zero beyond the file. -/
def Shuttle.vreg (t : Shuttle) (n : Nat) : BitVec 16384 := t.v.getD n 0

/-- Where element j of a register lies: lane j mod L, bits (j div L) × b of its 512 (R12). -/
def Shuttle.elemOff (t : Shuttle) (e : EType) (j : Nat) : Nat := j % t.lanes * 512 + j / t.lanes * e.bits

/-- ElemGet of R41. -/
def Shuttle.elem (t : Shuttle) (n i : Nat) (e : EType) : Nat :=
  bitsAt (t.vreg (n + i / t.eper e)).toNat (t.elemOff e (i % t.eper e)) e.bits

/-- VRead of R41: at or beyond `vlen`, the low bits of `fill`. -/
def Shuttle.vread (t : Shuttle) (n i : Nat) (e : EType) : Nat :=
  if t.vlen.toNat ≤ i then t.fillAt.toNat % 2 ^ e.bits else t.elem n i e

/-- A field of bits of a wide word replaced. -/
def putBits {w : Nat} (b : BitVec w) (off n v : Nat) : BitVec w :=
  (b &&& ~~~ BitVec.ofNat w ((2 ^ n - 1) * 2 ^ off)) ||| BitVec.ofNat w (v % 2 ^ n * 2 ^ off)

/-- An element written, with its register marked dirty (R40). -/
def Shuttle.elemSet (t : Shuttle) (n i : Nat) (e : EType) (v : Nat) : Shuttle :=
  let r := n + i / t.eper e
  { t with
    v := t.v.setIfInBounds r (putBits (t.vreg r) (t.elemOff e (i % t.eper e)) e.bits v)
    vdirty := setBit t.vdirty r true }

/-- VWrite of R41. -/
def Shuttle.vwrite (t : Shuttle) (n i : Nat) (e : EType) (v : Nat) : Shuttle :=
  if i < t.vlen.toNat then t.elemSet n i e v else t

/-- Elements written in order. -/
def Shuttle.vputs (t : Shuttle) (n : Nat) (e : EType) : List (Nat × Nat) → Shuttle
  | [] => t
  | (i, v) :: r => (t.vwrite n i e v).vputs n e r

/-- Poisoned words of which a write of elements covers every byte are poisoned no more (R334). -/
def Shuttle.unpoison (t : Shuttle) (n : Nat) (e : EType) (is : List Nat) : Shuttle :=
  if t.vpoison = [] then t
  else
    let all (q : Nat × Nat × Nat) : Bool := decide (n ≤ q.1) && (List.range (64 / e.bits)).all (fun k =>
      is.contains ((q.1 - n) * t.eper e + (q.2.2 * (64 / e.bits) + k) * t.lanes + q.2.1))
    { t with vpoison := t.vpoison.filter (fun q => !all q) }

/-- The elements an instruction writes, in order. -/
def Shuttle.vwrites (t : Shuttle) (n : Nat) (e : EType) (l : List (Nat × Nat)) : Shuttle :=
  (t.vputs n e l).unpoison n e ((l.map Prod.fst).filter (fun i => decide (i < t.vlen.toNat)))

/-- Whether an element lies in a poisoned register word (R335). -/
def Shuttle.vpoisoned (t : Shuttle) (n i : Nat) (e : EType) : Bool :=
  let off := t.elemOff e (i % t.eper e)
  t.vpoison.contains (n + i / t.eper e, off / 512, off % 512 / 64)

/-- The first element an instruction reads that lies in a poisoned register word (R335): reads are given as register, element
and type. -/
def Shuttle.poisonRead (t : Shuttle) (l : List (Nat × Nat × EType)) : Option Nat :=
  if t.vpoison = [] then none else (l.find? (fun r => t.vpoisoned r.1 r.2.1 r.2.2)).map (fun r => r.2.1)

/-- Reads of every active element of some operands. -/
def Shuttle.readsOf (t : Shuttle) (h : Hd) (ops : List (Fin 64 × EType)) : List (Nat × Nat × EType) :=
  (t.acts h).flatMap (fun i => ops.map (fun o => (o.1.val, i, o.2)))

/-- Flags of the numeric helpers put into `fflags` and `sat` (R18). -/
def Shuttle.flag (t : Shuttle) (f : Nat) : Shuttle :=
  { t with fflags := t.fflags ||| BitVec.ofNat 5 f, sat := t.sat || bitAt f 5 }

/-- An element group: lane l at bits 128 l. -/
def QEntry.lane0 (q : QEntry) : Word := BitVec.ofNat 64 (q.data.toNat % 2 ^ 64)

/-- A data queue. -/
def Shuttle.dqOf (t : Shuttle) (n : Nat) : List QEntry := t.dq.getD n []

/-- A return queue, by its number 6 or 7. -/
def Shuttle.rqOf (t : Shuttle) (n : Nat) : List Word := t.rq.getD (n - 6) []

def Shuttle.setDq (t : Shuttle) (n : Nat) (q : List QEntry) : Shuttle := { t with dq := t.dq.setIfInBounds n q }
def Shuttle.setRq (t : Shuttle) (n : Nat) (q : List Word) : Shuttle := { t with rq := t.rq.setIfInBounds (n - 6) q }

/-- A scalar entry (R26). -/
def QEntry.ofScalar (w : Word) : QEntry := { scalar := true, data := BitVec.ofNat 4096 w.toNat }

/-- The A-pipe stands behind a `vsetl` that is a yield point of a pending pre-emption and has not issued (R40). -/
def Shuttle.preVset (t : Shuttle) : Bool := t.xq.any (fun e => t.preNos.contains e.no)

/-- The head of the X queue is such a `vsetl`. -/
def Shuttle.atYield (t : Shuttle) : Bool := t.pre.isSome && (t.xq.head?.map (fun e => t.preNos.contains e.no)).getD false

/-- The value of an operand at issue: captured, bound to a register read now (R23), or none. A bound operand reads the register
file at issue: an A-class write that has come between the producer's landing and this issue is seen. DESIGN CHOICE (log entry 94). -/
def Shuttle.opnd (t : Shuttle) (o : Opnd) : Word :=
  match o with
  | .none => 0
  | .cap v => v
  | .bound r => t.xgetN r

/-- Scalar source k of the instruction at issue: what it took then where it is part-way (R23), else what its X queue entry holds, or the
register itself when it is issued with no entry. -/
def Shuttle.source (t : Shuttle) (k : Nat) (f : XEntry → Opnd) (r : Fin 64) : Word :=
  match t.xIss with
  | some a => a.src.getD k 0
  | none => match t.xq with | [] => t.xget r | e :: _ => t.opnd (f e)

/-- The scalar sources of the instruction at issue, in its fields a, s2, s3 and d. -/
def Shuttle.srcA (t : Shuttle) (a : Fin 64) : Word := t.source 0 XEntry.opA a
def Shuttle.srcB (t : Shuttle) (b : Fin 64) : Word := t.source 1 XEntry.opB b
def Shuttle.srcC (t : Shuttle) (c : Fin 64) : Word := t.source 2 XEntry.opC c
def Shuttle.srcD (t : Shuttle) (d : Fin 64) : Word := t.source 3 XEntry.opD d

/-- What the head of the X queue goes on with when it stops part-way through a turn: what it took at its issue, or takes now, with these active
elements. -/
def Shuttle.atIssue (t : Shuttle) (act : List Nat) : AtIssue :=
  t.xIss.getD { act := act, vstart := t.vstart, fill := t.fill, cur := t.ccur
                src := match t.xq with | [] => [] | e :: _ => [e.opA, e.opB, e.opC, e.opD].map t.opnd }

/-- A sign-extended immediate (R71). -/
def simm {w : Nat} (i : BitVec w) : Word := i.signExtend 64

/-- The effective address X[a] + SExt(off) of R110. -/
def effAddr {w : Nat} (base : Word) (off : BitVec w) : Nat := (base + simm off).toNat

/-- The registers a group of g takes. -/
def vGroup (n : Fin 64) (g : Nat) : List RegId := (List.range g).map (fun k => .v (n.val + k))

/-- The predicate registers of a group over n elements (at least one). -/
def pGroup (n : Fin 64) (elems : Nat) : List RegId :=
  ((List.range (Nat.max 1 (ceilDiv elems 512))).filter (fun k => n.val + k ≤ 47)).map (fun k => .p (n.val + k))

/-! ## Column registers and their cursors -/

/-- The descriptor of a column register. -/
def Shuttle.cword (t : Shuttle) (n : Nat) : Word := t.c.getD n 0

/-- A column register with its length set. -/
def Shuttle.setLen (t : Shuttle) (n k : Nat) : Shuttle :=
  { t with c := t.c.setIfInBounds n ((t.cword n &&& ~~~ BitVec.ofNat 64 (0xFFFFF * 2 ^ 36)) ||| BitVec.ofNat 64 (k % 2 ^ 20 * 2 ^ 36)) }

/-- The two cursors of `ccur` as words (R200). -/
def Shuttle.curHi (t : Shuttle) : Nat := bitsAt t.ccur.toNat 64 64
def Shuttle.curLo (t : Shuttle) : Nat := bitsAt t.ccur.toNat 0 64
def Shuttle.setCur (t : Shuttle) (hi lo : Nat) : Shuttle := { t with ccur := BitVec.ofNat 128 (hi * 2 ^ 64 + lo % 2 ^ 64) }

/-- No column instruction is under way. -/
def Shuttle.colDone (t : Shuttle) : Shuttle := { t with cprog := none, xIss := none }

/-- The outputs' length set. -/
def Shuttle.setLens (t : Shuttle) (outs : List Nat) (k : Nat) : Shuttle := outs.foldl (fun t o => t.setLen o k) t

/-- A column instruction under way stops between its output elements (R201, R219): lengths, flags and the progress cursor take what it has
done. One that has put out nothing yet issues anew; the copy phase of `csort` does not stop. -/
def Shuttle.stopCol (t : Shuttle) : Shuttle :=
  match t.cprog with
  | some p => if p.vals = [] then (((t.setLens p.outs p.k).flag p.fl).setCur p.word t.curLo).colDone else t
  | none => t.colDone

end Sys2Proof.Machine
end

