-- ==== Sys2Proof/Machine/Regs.lean ====
section
/-! DEFINITION. Which registers an X-class instruction reads and writes (for R24, R31, R92, R175), and its latency and
unit occupancy (R93, R121, R172, R186, R191, R239). -/

namespace Sys2Proof.Machine

/-- Registers an X-class instruction reads and writes. -/
structure RW where
  r : List RegId
  w : List RegId
deriving DecidableEq, Repr

/-- The guard of an instruction that does not work element by element: one predicate register. -/
def guard1 (h : Hd) : List RegId := if h.gd.val = 63 then [] else [.p h.gd.val]

/-- The guard of an element-wise instruction: a predicate group over n elements. -/
def guardN (h : Hd) (n : Nat) : List RegId := if h.gd.val = 63 then [] else pGroup h.gd n

/-- An optional predicate operand. -/
def optP (p : Fin 64) : List RegId := if p.val = 63 then [] else [.p p.val]

/-- The scalar destination a register field names; x0 is none. -/
def xDst (d : Fin 64) : List RegId := if d.val = 0 then [] else [.x d.val]

/-- Registers an X-class instruction names, but for captured scalar sources: `n` elements span its predicate groups. -/
def xRegs (t : Shuttle) (n : Nat) (i : Instr) : RW :=
  let g := t.grp
  let V (r : Fin 64) : List RegId := vGroup r g
  let V2 (r : Fin 64) (e : EType) : List RegId := vGroup r (t.grp2 e)
  let P (r : Fin 64) : List RegId := pGroup r n
  let rw (h : Hd) (r w : List RegId) : RW := { r := guardN h n ++ r, w := w }
  let rw1 (h : Hd) (r w : List RegId) : RW := { r := guard1 h ++ r, w := w }
  match i with
  | .plog h _ d a b => rw h (P a ++ P b) (P d)
  | .psetAll h _ d | .psetLt h d _ _ | .psetMod h d _ | .psetBits h d _ => rw h [] (P d)
  | .pcnt h d a | .pfirst h d a => rw h (P a) (xDst d)
  | .xnop h _ => rw1 h [] []
  | .qmovXq h d _ => rw1 h [] (xDst d)
  | .qmovQx h _ _ | .qmovQq h _ _ => rw1 h [] []
  | .fas h _ d _ b _ => rw h (V b) (V d)
  | .barWt h d _ _ | .barTwt h d _ _ _ | .tileWt h d _ => rw1 h [] (xDst d)
  | .vsetl h _ _ _ _ d _ => rw1 h [] (xDst d)
  | .vld h _ d _ _ | .vlds h _ d _ _ _ | .vldq h _ d _ => rw h [] (V d)
  | .vldx h _ it _ d _ b pm _ => rw h (V2 b it.etype) (V d ++ (if pm.val = 63 then [] else P pm))
  | .vst h _ d _ _ | .vsts h _ d _ _ _ => rw h (V d) []
  | .vstx h _ it _ d _ b _ => rw h (V d ++ V2 b it.etype) []
  | .vadd h _ vx _ d a b | .vsub h _ vx _ d a b | .vmul h _ vx _ d a b => rw h (V a ++ if vx then [] else V b) (V d)
  | .vfma h vx _ d a b e | .vfms h vx _ d a b e => rw h (V a ++ (if vx then [] else V b) ++ V e) (V d)
  | .vmin h vx d a b | .vmax h vx d a b | .vand h vx d a b | .vor h vx d a b | .vxor h vx d a b | .vmulh h vx d a b =>
    rw h (V a ++ if vx then [] else V b) (V d)
  | .vabs h _ d a | .vneg h _ d a => rw h (V a) (V d)
  | .vsll h k d a b _ | .vsrl h k d a b _ | .vsra h k _ _ d a b _ => rw h (V a ++ if k = .vv then V b else []) (V d)
  | .vdot2 h _ vx d a b => rw h (V d ++ V a ++ if vx then [] else V b) (V d)
  | .vmacw h _ _ d a b => rw h (vGroup d (2 * g) ++ V a ++ V b) (vGroup d (2 * g))
  | .vnarrow h _ t2 _ _ d a | .vwiden h t2 d a | .vcvt h t2 _ _ d a => rw h (V2 a t2) (V d)
  | .vcmp h _ vx d a b => rw h (V a ++ if vx then [] else V b) (P d)
  | .vsel h d a b e => rw h (V a ++ V b ++ P e) (V d)
  | .vslide h _ _ d a _ _ => rw h (V a) (V d)
  | .vperm h t2 d a b => rw h (V a ++ V2 b t2) (V d)
  | .vbcast h d _ => rw h [] (V d)
  | .vbcastEl h d a _ => rw h (V a) (V d)
  | .vmovx h d a _ => rw h (V a) (xDst d)
  | .vmovxV h d _ _ => rw h [] (V d)
  | .vred h _ d a b => rw h (V a ++ if t.et = .f4 then V2 b .i8 else []) (xDst d)
  | .vredo h d a _ => rw h (V a) (xDst d)
  | .vscan h _ d a => rw h (V a) (V d)
  | .viota h d a => rw h (P a) (V d)
  | .viotaIdx h d => rw h [] (V d)
  | .vcompress h d a b | .vexpand h d a b => rw h (V a ++ P b) (V d)
  | .vsfu h _ _ d a => rw h (V a) (V d)
  | .vscl h _ _ d a b => rw h (V a ++ V2 b .bf16) (V d)
  | .vpush h _ sc a b => rw h (V a ++ if sc then V2 b .n16 else []) []
  | .mtl h d _ _ _ => rw1 h [] [.x d.val, .x (d.val + 1), .x (d.val + 2)]
  | .mbind h _ _ _ _ => rw1 h [] []
  | .mfill h _ _ _ d _ _ _ => rw1 h [] (xDst d)
  | .mma h _ _ _ z _ _ _ => rw1 h [.z z.toNat] [.z z.toNat]
  | .mzero h z => rw1 h [] [.z z.toNat]
  | .mrd h _ _ z d _ => rw h [.z z.toNat] (V d)
  | .mwr h z d _ => rw h (V d) [.z z.toNat]
  | .mbs h z _ => rw1 h [] [.z z.toNat]
  | .mbsRd h z d => rw1 h [.z z.toNat] (xDst d)
  | .mdrain h _ _ _ z _ _ _ _ => rw1 h [.z z.toNat] []
  | .mownAcq h d | .mownTry h d | .mownRd h d => rw1 h [] (xDst d)
  | .mownRel h => rw1 h [] []
  | .cdefArena h _ _ _ => rw1 h [] []
  | .cdefT h _ d _ _ | .cdefLen h d _ => rw1 h [] [.c d.val]
  | .clen h d a | .clenCap h d a | .clenDesc h d a => rw1 h [.c a.val] (xDst d)
  | .clenArena h d => rw1 h [] (xDst d)
  | .cld h d _ _ y pp => rw1 h [] (.c d.val :: xDst y ++ optP pp)
  | .cldSt h d _ y => rw1 h [.c d.val] (xDst y)
  | .csel h _ cc d a b y pp => rw1 h (.c a.val :: if cc then [.c b.val] else []) (.c d.val :: xDst y ++ optP pp)
  | .cselp h _ d a b _ y pp => rw1 h [.c a.val, .c b.val] (.c d.val :: xDst y ++ optP pp)
  | .cgath h d a b y pp => rw1 h [.c a.val, .c b.val] (.c d.val :: xDst y ++ optP pp)
  | .cscat h _ d _ b y => rw1 h [.c d.val, .c b.val] (xDst y)
  | .cjoin h k d a b y pp =>
    rw1 h [.c a.val, .c b.val] (.c d.val :: (if k = .inner then [.c (d.val + 1)] else []) ++ xDst y ++ optP pp)
  | .csort h _ _ d a y => rw1 h [.c a.val] (.c d.val :: xDst y)
  | .cgrp h d a y pp | .cuniq h _ d a y pp => rw1 h [.c a.val] (.c d.val :: xDst y ++ optP pp)
  | .cagg h _ _ d a b y pp => rw1 h [.c a.val, .c b.val] (.c d.val :: xDst y ++ optP pp)
  | .cres h o _ d a _ _ y pp =>
    if o.toNat = 14 then rw h (V a) (.c d.val :: xDst y ++ optP pp)
    else rw1 h [] (.c d.val :: xDst y ++ optP pp)
  | .ccurClr h | .ccurWr h _ => rw1 h [] []
  | .ccurRd h d => rw1 h [] (xDst d)
  | .cvecLd h d a _ y => rw h [.c a.val] (V d ++ xDst y)
  | .cvecApp h d a y pp => rw h (V a) (.c d.val :: xDst y ++ optP pp)
  | .xco h _ _ => rw1 h [] []
  | .xnext h d b => rw1 h [] (vGroup d 4 ++ xDst b)
  | .xcurRdl h d | .xcurRdh h d => rw1 h [] (xDst d)
  | .xcurWrl h _ | .xcurWrh h _ | .xcurClr h => rw1 h [] []
  | _ => { r := [], w := [] }

/-- The scalar source registers an X-class instruction reads in its fields a, s2, s3, d (R23, R330). -/
def xSrcs : Instr → Option (Fin 64) × Option (Fin 64) × Option (Fin 64) × Option (Fin 64)
  | .psetLt _ _ a _ | .psetBits _ _ a | .qmovQx _ _ a | .fas _ _ _ a _ _ | .vld _ _ _ a _ | .vldx _ _ _ _ _ a _ _ _
  | .vst _ _ _ a _ | .vstx _ _ _ _ _ a _ _ | .vbcast _ _ a | .mrd _ _ _ _ _ a | .mbs _ _ a
  | .cdefLen _ _ a | .cldSt _ _ a _ | .cscat _ _ _ a _ _ | .ccurWr _ a | .xco _ _ a | .xcurWrl _ a | .xcurWrh _ a =>
    (some a, none, none, none)
  | .mwr _ _ _ a => (some a, none, none, none)
  | .vsetl _ _ mx _ _ _ a => (if mx then none else some a, none, none, none)
  | .mbind _ _ src _ a => (if src = .heddle then some a else none, none, none, none)
  | .barWt _ _ a b | .vlds _ _ _ a b _ | .vsts _ _ _ a b _ | .vmovxV _ _ a b | .cdefT _ _ _ a b => (some a, some b, none, none)
  | .cld _ _ a b _ _ => (some a, some b, none, none)
  | .barTwt _ _ a b e | .mtl _ _ a b e | .mma _ _ _ _ _ a b e | .cdefArena _ a b e => (some a, some b, some e, none)
  | .mfill _ _ _ _ d a b e => (some a, some b, some e, some d)
  | .mdrain _ _ _ _ _ d a b e => (some a, some b, some e, some d)
  | .vadd _ _ vx _ _ _ b | .vsub _ _ vx _ _ _ b | .vmul _ _ vx _ _ _ b => (none, if vx then some b else none, none, none)
  | .vfma _ vx _ _ _ b _ | .vfms _ vx _ _ _ b _ => (none, if vx then some b else none, none, none)
  | .vmin _ vx _ _ b | .vmax _ vx _ _ b | .vand _ vx _ _ b | .vor _ vx _ _ b | .vxor _ vx _ _ b | .vmulh _ vx _ _ b
  | .vdot2 _ _ vx _ _ b | .vcmp _ _ vx _ _ b => (none, if vx then some b else none, none, none)
  | .vsll _ k _ _ b _ | .vsrl _ k _ _ b _ | .vsra _ k _ _ _ _ b _ => (none, if k = .vx then some b else none, none, none)
  | .vslide _ _ vi _ _ b _ => (none, if vi then none else some b, none, none)
  | .vbcastEl _ _ _ b | .vmovx _ _ _ b | .vredo _ _ _ b | .cvecLd _ _ _ b _ => (none, some b, none, none)
  | .csel _ _ cc _ _ b _ _ => (none, if cc then none else some b, none, none)
  | .cselp _ _ _ _ _ e _ _ => (none, none, some e, none)
  | .cres _ o f _ a b e _ _ =>
    match o.toNat with
    | 2 => (some a, some b, none, none)
    | 3 => (none, if bitAt f.toNat 3 then none else some b, none, none)
    | 4 => (none, none, some e, none)
    | _ => (none, none, none, none)
  | _ => (none, none, none, none)

/-- The units of R172 whose occupancy delays a later instruction (R173): 0 simple, 1 multiply, 2 permute, 3 function. -/
structure Tim where
  unit : Option Nat
  lat  : Nat
  occ  : Nat
deriving DecidableEq, Repr

/-- G1 of R172 on a number of elements. -/
def Shuttle.g1 (t : Shuttle) (n : Nat) (e : EType) : Nat := Nat.max 1 (ceilDiv n (t.eg e))

/-- The wider of two types. -/
def wider (a b : EType) : EType := if a.bits < b.bits then b else a

/-- The type of double width of `vmacw` (R158). -/
def doubleType : EType → EType
  | .i8 => .i16
  | .i16 => .i32
  | .i32 => .i64
  | .n8 => .n16
  | .n16 => .n32
  | .n32 => .n64
  | .bf16 | .f16 => .f32
  | t => t

/-- Latency and occupancy of a shadowed X-class instruction, evaluated on `vlen` (R172: the write lands then); none for an
interlocked one. Where an instruction that changes width has more elements than its wider type has in a group, the write lands at
its published latency (R32, R390). DEDUCED (log entry 95). `mrd` and `mwr` take the G1 that R172 defines, on VLMax (R191). -/
def xTiming (t : Shuttle) (i : Instr) : Option Tim :=
  let e := t.et
  let n := t.vlen.toNat
  let simple (e : EType) (k : Nat) : Option Tim := let g4 := ceilDiv (t.g1 n e) 4; some ⟨some 0, k + g4, g4⟩
  let mult (e : EType) : Option Tim := some ⟨some 1, 2 + t.g1 n e, t.g1 n e⟩
  let multW (e : EType) : Option Tim := some ⟨some 1, 2 + Nat.min (t.g1 n e) (t.g1 (t.vlmax e t.grp) e), t.g1 n e⟩
  let perm : Option Tim := some ⟨some 2, 4 + 2 * t.g1 n e, 2 * t.g1 n e⟩
  match i with
  | .plog _ _ _ _ _ | .psetAll _ _ _ | .psetLt _ _ _ _ | .psetMod _ _ _ | .psetBits _ _ _ => some ⟨none, 2, 0⟩
  | .pcnt _ _ _ | .pfirst _ _ _ => some ⟨none, 3, 0⟩
  | .qmovXq _ _ _ | .qmovQx _ _ _ | .qmovQq _ _ _ => some ⟨none, 2, 0⟩
  | .vadd _ _ _ _ _ _ _ | .vsub _ _ _ _ _ _ _ | .vmin _ _ _ _ _ | .vmax _ _ _ _ _ | .vabs _ _ _ _ | .vneg _ _ _ _
  | .vand _ _ _ _ _ | .vor _ _ _ _ _ | .vxor _ _ _ _ _ | .vsll _ _ _ _ _ _ | .vsrl _ _ _ _ _ _ | .vsra _ _ _ _ _ _ _ _
  | .vsel _ _ _ _ _ | .vbcast _ _ _ | .vbcastEl _ _ _ _ | .viota _ _ _ | .viotaIdx _ _ => simple e 1
  | .vcmp _ _ _ _ _ _ => simple e 2
  | .vmul _ _ _ _ _ _ _ | .vfma _ _ _ _ _ _ _ | .vfms _ _ _ _ _ _ _ | .vmulh _ _ _ _ _ | .vdot2 _ _ _ _ _ _
  | .vscl _ _ _ _ _ _ => mult e
  | .vmacw _ _ _ _ _ _ => multW (doubleType e)
  | .vcvt _ t2 _ _ _ _ | .vnarrow _ _ t2 _ _ _ _ | .vwiden _ t2 _ _ => multW (wider e t2)
  | .vslide _ _ _ _ _ _ _ | .vperm _ _ _ _ _ | .vcompress _ _ _ _ | .vexpand _ _ _ _ | .vscan _ _ _ _ => perm
  | .vred _ _ _ _ _ => some ⟨some 2, (if e.isInt then 6 else 12) + t.g1 n e, t.g1 n e⟩
  | .vredo _ _ _ _ => some ⟨some 2, 0, t.g1 n e⟩
  | .vsfu _ _ _ _ _ => some ⟨some 3, 8 + 4 * t.g1 n e, 4 * t.g1 n e⟩
  | .vmovx _ _ _ _ | .vmovxV _ _ _ _ => some ⟨some 0, 3, 1⟩
  | .vsetl _ _ _ _ _ _ _ => some ⟨some 0, 2, 1⟩
  | .mtl _ _ _ _ _ => some ⟨none, 2, 0⟩
  | .mzero _ _ => some ⟨none, 4, 2⟩
  | .mrd _ _ _ _ _ _ | .mwr _ _ _ _ => let g1 := t.g1 (t.vlmax e t.grp) e; some ⟨none, 4 + g1, g1⟩
  | .mbs _ _ _ | .mbsRd _ _ _ => some ⟨none, 2, 1⟩
  | .xcurRdl _ _ | .xcurRdh _ _ => some ⟨none, 2, 0⟩
  | _ => none

/-- Whether an instruction is interlocked: its completion depends on data, and it has no shadow (R33). -/
def interlocked (t : Shuttle) (i : Instr) : Bool :=
  match xTiming t i with
  | some m => m.lat == 0
  | none => true

/-- The tile an instruction names (R179). -/
def tileOf? : Instr → Option Nat
  | .mma _ _ _ _ z _ _ _ | .mzero _ z | .mrd _ _ _ z _ _ | .mwr _ z _ _ | .mbs _ z _ | .mbsRd _ z _ | .mdrain _ _ _ _ z _ _ _ _ => some z.toNat
  | _ => none

/-- Whether the instruction uses the tile port (R191). -/
def usesTilePort : Instr → Bool
  | .mzero _ _ | .mwr _ _ _ _ | .mrd _ _ _ _ _ _ | .mbs _ _ _ | .mbsRd _ _ _ | .mbind _ _ _ _ _ | .mdrain _ _ _ _ _ _ _ _ _ => true
  | .mtl _ _ _ _ _ => true
  | _ => false

/-- Whether an instruction applies its guard element by element (R14, R93, R141, R217). -/
def elementWise : Instr → Bool
  | .plog _ _ _ _ _ | .psetAll _ _ _ | .psetLt _ _ _ _ | .psetMod _ _ _ | .psetBits _ _ _ | .pcnt _ _ _ | .pfirst _ _ _
  | .fas _ _ _ _ _ _ | .vld _ _ _ _ _ | .vlds _ _ _ _ _ _ | .vldx _ _ _ _ _ _ _ _ _ | .vst _ _ _ _ _ | .vsts _ _ _ _ _ _
  | .vstx _ _ _ _ _ _ _ _ | .vldq _ _ _ _ | .vadd _ _ _ _ _ _ _ | .vsub _ _ _ _ _ _ _ | .vmul _ _ _ _ _ _ _
  | .vfma _ _ _ _ _ _ _ | .vfms _ _ _ _ _ _ _ | .vmin _ _ _ _ _ | .vmax _ _ _ _ _ | .vabs _ _ _ _ | .vneg _ _ _ _
  | .vand _ _ _ _ _ | .vor _ _ _ _ _ | .vxor _ _ _ _ _ | .vsll _ _ _ _ _ _ | .vsrl _ _ _ _ _ _ | .vsra _ _ _ _ _ _ _ _
  | .vmulh _ _ _ _ _ | .vdot2 _ _ _ _ _ _ | .vmacw _ _ _ _ _ _ | .vnarrow _ _ _ _ _ _ _ | .vwiden _ _ _ _ | .vcvt _ _ _ _ _ _
  | .vcmp _ _ _ _ _ _ | .vsel _ _ _ _ _ | .vslide _ _ _ _ _ _ _ | .vperm _ _ _ _ _ | .vbcast _ _ _ | .vbcastEl _ _ _ _
  | .vmovxV _ _ _ _ | .vred _ _ _ _ _ | .vredo _ _ _ _ | .vscan _ _ _ _ | .viota _ _ _ | .viotaIdx _ _
  | .vcompress _ _ _ _ | .vexpand _ _ _ _ | .vsfu _ _ _ _ _ | .vscl _ _ _ _ _ _ | .vpush _ _ _ _ _
  | .mrd _ _ _ _ _ _ | .mwr _ _ _ _ | .cvecLd _ _ _ _ _ | .cvecApp _ _ _ _ _ => true
  | .cres _ o _ _ _ _ _ _ _ => o.toNat == 14
  | _ => false

end Sys2Proof.Machine
end

