-- ==== Sys2Proof/Machine/Cmds.lean ====
section
/-! DEFINITION. What several families share about records, fault records and heddle commands: the region of a record,
pushing a fault record (R329, R331), and ending a command (R225, R227). -/

namespace Sys2Proof.Machine

namespace State

/-- A start record by its number. -/
def rec? (s : State) (id : Nat) : Option Rec := s.recs.find? (fun r => r.id == id)

/-- A state with one record replaced. -/
def setRec (s : State) (r : Rec) : State := { s with recs := s.recs.map (fun q => if q.id = r.id then r else q) }

/-- The record the core in focus holds. -/
def myRec? (s : State) : Option Rec := s.co.recId.bind s.rec?

/-- The region values of the record the core in focus holds. -/
def region (s : State) : Region := (s.myRec?.map (fun r => r.region)).getD Region.none

/-- Where a record's shuttle now is, if it is resident. -/
def place? (s : State) (id pos : Nat) : Option Ref :=
  match s.rec? id with
  | some r => if (s.core r.core).recId = some id then some { core := r.core, pos := pos } else none
  | none => none

end State

/-- The address of the oldest X-class instruction not issued, or `apc` (R34). -/
def Shuttle.xpc (t : Shuttle) : Nat := match t.xq with | [] => t.apc.toNat | e :: _ => e.addr

/-- The 8 words of a fault record (R329). -/
def FRec.words (f : FRec) : List Word :=
  [f.cause * 2 ^ 56 + f.source * 2 ^ 48 + f.lost * 2 ^ 40 + f.level * 2 ^ 32 + f.detail % 2 ^ 32,
   f.addr, f.va, f.index, f.pa, f.t,
   f.die * 2 ^ 58 + f.core * 2 ^ 54 + f.pos * 2 ^ 48 + f.handle, f.seq].map (BitVec.ofNat 64)

/-- A record has its reservations on a core (R304): the one it was placed on, and the one it stands on. -/
def holdsRes (r : Rec) (k : Nat) : Bool := r.stat != .waiting && (r.cmdCore == k || (r.stat != .saved && r.core == k))

/-- Fault records that a record's shuttles hold: of a resident one, those its core counts; of a saved one, those kept (R331). -/
def recFrs (s : State) (r : Rec) : Nat :=
  if r.stat = .saved then (r.kept.map (fun k => k.frq.length)).sum
  else if (s.core r.core).recId = some r.id then (s.core r.core).frUsed else 0

/-- Fault records that a region and the regions under it hold on a core: those of their record that stands there, and of the saved ones whose
records the core's pool keeps (R303, R331). -/
def frsUnder (s : State) (k pid slot : Nat) : Nat :=
  ((s.recs.filter (fun r => r.pid == pid && r.region.chain.any (fun q => q.1 == slot) &&
    (if r.stat = .saved then r.cmdCore == k else r.core == k))).map (recFrs s)).sum

/-- The slots of a core's commands that a record started. -/
def cmdsOf (c : Core) (id : Nat) : List (Nat × Cmd) := c.cmds.filter (fun e => e.2.recId == id)

/-- A program's destination is an operand FIFO, and the FIFO's tag (R232). -/
def Cmd.toFifo (c : Cmd) : Bool := bitsAt (c.shape.getD 5 0).toNat 0 2 == 1
def Cmd.tag (c : Cmd) : Nat := bitsAt (c.shape.getD 1 0).toNat 0 16

/-- A `wr` of a program is under way: part of its chunk is written or delivered, or it waits at a full FIFO. -/
def Cmd.writing (c : Cmd) : Bool := c.wrAt != 0 || c.wrTo.isSome

/-- What other records than one hold of a core's command slots and of its fault records: each its reservation, or what it uses beyond it,
on the core it was placed on and the one it stands on, until it completes (R304, R316, log entry 104). -/
def heldOn (s : State) (k : Nat) (but : Nat) : Nat × Nat :=
  let c := s.core k
  let rs := s.recs.filter (fun r => r.id != but && holdsRes r k)
  ((rs.map (fun r => Nat.max r.region.cmdR (cmdsOf c r.id).length)).sum +
     (c.cmds.filter (fun e => e.2.recId != but && !rs.any (fun r => r.id == e.2.recId))).length,
   (rs.map (fun r => Nat.max r.region.frR (recFrs s r))).sum)

/-- Whether a core's record may take one more fault record (R303, R304, R331): within its region's quota and every ancestor's, and within its
reservation or what the other records' reservations leave of the pool. -/
def frFree (s : State) (k : Nat) : Bool :=
  let c := s.core k
  match c.recId.bind s.rec? with
  | none => decide (c.frUsed < 1024)
  | some q =>
    let others := ((s.recs.filter (fun r => r.id != q.id && holdsRes r k)).map (fun r => Nat.max r.region.frR (recFrs s r))).sum
    q.region.chain.all (fun a => decide (frsUnder s k q.pid a.1 < a.2.1)) && (decide (c.frUsed < q.region.frR) || decide (c.frUsed + others < 1024))

/-- The physical address of a memory line: 0 for the scratchpads of cores and clusters, which have none (R262, R263). -/
def physAddr (key : Nat) : Nat := if key < 2 ^ 44 then key else 0

/-- The physical address of a fault met after translation, where it is not given: that of its virtual address (R111, R329). -/
def knownPa (s : State) (pid : Nat) (f : Flt) : Nat :=
  let after := [cECC, cCOMPR, cCODESCAN, cWBP, cINTEG].contains f.cause || (f.cause == cPERM && [5, 13, 14].contains f.detail)
  if f.pa ≠ 0 ∨ f.va = 0 ∨ !after ∨ windowOf f.va ≠ .xlat then f.pa
  else
    match s.tlb.find? (fun t => t.covers pid f.va) with
    | some t => t.pa + f.va % 2 ^ t.bits
    | none =>
      match walkOf s pid f.va with
      | .ok (_, e, lv) => bitsAt e 16 40 * 2 ^ 16 + f.va % 2 ^ pageBits lv
      | .error _ => 0

/-- A fault record of a shuttle of a core: pushed to its queue with event bit 2 set, or dropped and counted as lost when
no record can be taken (R243, R331). -/
def pushRecord (s : State) (r : Ref) (f : Flt) (addr : Nat) : State × FRec :=
  let t := s.shuttle r
  let c := s.core r.core
  let rc : FRec :=
    { cause := f.cause, source := f.source, lost := Nat.min t.lost 255, level := f.level, detail := f.detail, addr := addr,
      va := f.va, index := f.index, pa := knownPa s t.pid f, t := s.gn.t64.toNat, die := dieOf r.core, core := r.core % 16, pos := r.pos,
      handle := t.handle, seq := c.frSeq }
  if frFree s r.core then
    let s1 := s.setCore { c with frUsed := c.frUsed + 1, frSeq := c.frSeq + 1 }
    (s1.setShuttle r.core { s1.shuttle r with frq := t.frq ++ [rc], lost := 0, events := t.events ||| 4 }, rc)
  else (s.setShuttle r.core { t with lost := t.lost + 1 }, rc)

/-- Event bits set in a shuttle (R243). -/
def setEvent (s : State) (r : Ref) (b : BitVec 4) : State :=
  let t := s.shuttle r
  s.setShuttle r.core { t with events := t.events ||| b }

/-- A die's error counter counted up, saturating (R336). -/
def countErr (s : State) (die k : Nat) : State :=
  let d := s.die die
  s.setDie die { d with errs := aput d.errs k (Nat.min (aget 0 d.errs k + 1) (2 ^ 32 - 1)) }

/-- A tile-table entry of a core. -/
def Core.tent (c : Core) (k : Nat) : TEnt := aget TEnt.reset c.tents k
def Core.setTent (c : Core) (k : Nat) (e : TEnt) : Core := { c with tents := aput c.tents k e }

/-- Events of R138 on a tile-table entry; an event not listed for the state changes nothing. -/
def TEnt.arm (e : TEnt) (n : Nat) : TEnt :=
  if e.state = 0 ∧ 1 ≤ n ∧ n ≤ 65535 then { state := 1, abort := 0, expect := n, done := 0 } else e
def TEnt.finish (e : TEnt) : TEnt :=
  if e.state = 1 then { e with done := e.done + 1, state := if e.done + 1 = e.expect then 2 else 1 } else e
def TEnt.fail (e : TEnt) (code : Nat) : TEnt := if e.state = 1 then { e with state := 0, abort := code } else e
def TEnt.release (e : TEnt) : TEnt :=
  if e.state = 2 then { e with state := 0, abort := 0 } else if e.state = 0 ∧ e.abort ≠ 0 then { e with abort := 0 } else e

/-- The entry as a word (R137). -/
def TEnt.word (e : TEnt) : Word :=
  BitVec.ofNat 64 (e.state % 4 * 2 ^ 62 + e.abort % 256 * 2 ^ 48 + e.expect % 65536 * 2 ^ 16 + e.done % 65536)

/-- The status word of a command (R227). -/
def Cmd.word (c : Cmd) : Word :=
  BitVec.ofNat 64 ((if c.run then 1 else 2) * 2 ^ 62 + c.err % 256 * 2 ^ 48 + c.first % 65536 * 2 ^ 32 +
    c.expect % 65536 * 2 ^ 16 + c.done % 65536)

/-- A command handle (R223). -/
def cmdHandle (core slot seq : Nat) : Word :=
  BitVec.ofNat 64 (dieOf core * 2 ^ 40 + core % 16 * 2 ^ 32 + seq * 2 ^ 8 + slot)

/-- The sequence number a slot gives next: it starts at 1 and skips 0 (R223). -/
def nextSeq (c : Core) (slot : Nat) : Nat :=
  let n := aget 0 c.seqs slot
  if n = 0xFFFFFF then 1 else n + 1

/-- Who a command's accesses are made by. -/
def Cmd.who (c : Cmd) (core : Nat) : Who := { pid := c.pid, core := core, lo := c.nearLo, len := c.nearLen }

/-- Bytes of a chunk of a copy: first offset and length (R224). -/
def Cmd.span (c : Cmd) (k : Nat) : Nat × Nat := (k * c.chunk, Nat.min ((k + 1) * c.chunk) c.len - k * c.chunk)

/-- The memory ranges a virtual range covers where a write may go, by 64 KiB of a page, or by the 64 bytes in which near and cluster
grants are given (R306, R362); those it may not go to are left out. -/
def writable (s : State) (w : Who) : Nat → Nat → Nat → List (Nat × Nat)
  | 0, _, _ => []
  | fuel + 1, va, n =>
    if n = 0 then []
    else
      let step := if windowOf va = .xlat then 65536 else 64
      let m := Nat.min n (step - va % step)
      let rest := writable s w fuel (va + m) (n - m)
      match check s w va 1 .write true false with
      | (_, .ok l) => (l.key, l.key + m) :: rest
      | _ => rest

/-- Memory ranges left with undefined contents, at a fresh count. -/
def havoc (s : State) (rs : List (Nat × Nat)) : State :=
  let (n, s1) := s.fresh
  { s1 with mem := rs.foldl (fun m r => m.cover r.1 r.2 n) s1.mem }

/-- Destination contents of the chunks of a command whose bit is clear: undefined (R225). A chunk that has moved nothing
is one of them. -/
def havocChunks (s : State) (core : Nat) (c : Cmd) : State :=
  if c.kind = .put then s
  else if c.kind = .xfm then
    havoc s ((c.wrote.filter (fun e => !c.fin.contains e.1 && !locked s e.2.1)).map (fun e => (e.2.1, e.2.1 + e.2.2)))
  else
    let ks := (List.range c.expect).filter (fun k => !c.fin.contains k)
    havoc s (ks.flatMap (fun k => let (o, n) := c.span k; writable s (c.who core) (n / 64 + 2) ((c.dst.toNat + o) % 2 ^ 64) n))

/-- A tile-table entry put in place: as it leaves filling, chunks of a running command that names it and has not finished them have
undefined contents (R138). -/
def setEntry (s : State) (core k : Nat) (e : TEnt) : State :=
  let c := s.core core
  let s1 := s.setCore (c.setTent k e)
  if (c.tent k).state = 1 ∧ e.state ≠ 1 then
    (s1.co :: s1.cores.map Prod.snd).foldl (fun s b => (cmdsOf b (c.recId.getD 0)).foldl (fun s q =>
      if q.2.run && q.2.tile == some k && decide (q.2.fin.length < q.2.expect) then havocChunks s b.id q.2 else s) s) s1
  else s1

/-- Where a shuttle a command acts on stands, unless it is saved. -/
def State.live? (s : State) (id pos : Nat) : Option Ref :=
  match s.place? id pos with
  | some r => if (s.shuttle r).status = .saved then none else some r
  | none => none

/-- A fault record pushed as it stands (R331). -/
def pushFRec (s : State) (r : Ref) (rc : FRec) : State :=
  let t := s.shuttle r
  let c := s.core r.core
  if frFree s r.core then
    let s1 := s.setCore { c with frUsed := c.frUsed + 1 }
    s1.setShuttle r.core { s1.shuttle r with frq := t.frq ++ [{ rc with lost := Nat.min t.lost 255 }], lost := 0, events := t.events ||| 4 }
  else s.setShuttle r.core { t with lost := t.lost + 1 }

/-- An effect of a command on its shuttle (R224, R225). A chunk bit is set with an OR. -/
def applyHeld (s : State) (r : Ref) : Held → State
  | .bit pm c => s.setShuttle r.core ((s.shuttle r).psetBit pm c true)
  | .done k => setEntry s r.core k ((s.core r.core).tent k).finish
  | .fail k code => setEntry s r.core k (((s.core r.core).tent k).fail code)
  | .event b => setEvent s r b
  | .frec f => pushFRec s r f

/-- An effect of a command, made at once or held while its shuttle is saved (R224, R315). -/
def deliver (s : State) (id pos : Nat) (x : Held) : State :=
  match s.live? id pos with
  | some r => applyHeld s r x
  | none =>
    match s.rec? id with
    | some q => s.setRec { q with held := q.held ++ [(pos, x)] }
    | none => s

/-- Running commands aside, the tile-table entries of the core that a record holds leave filling with the code of a context kill (R137, R138). -/
def killEntries (s : State) (r : Rec) : State :=
  if (s.core r.core).recId = some r.id then
    (s.core r.core).tents.foldl (fun s e => setEntry s r.core e.1 (((s.core r.core).tent e.1).fail 2)) s
  else s

/-- An uncorrectable error met by an engine, or by the merge of a partial write, poisons its line (R274, R334): one record with source 2
to the shuttle it is met for (none for an `id` no record has), and no trap. -/
def meetLatent (s : State) (id pos key n : Nat) : State :=
  let hit (l : Nat) : Bool := l < key + n && key < l + 64
  (s.latent.filter hit).foldl (fun s l =>
    match s.rec? id with
    | none => countErr s (if isDS l then l / 2 ^ 32 else 0) 5
    | some r =>
      let c := s.core r.core
      let s1 := countErr (s.setCore { c with frSeq := c.frSeq + 1 }) (dieOf r.core) 5
      let f : FRec :=
        { cause := cECC, source := 2, lost := 0, level := 0, detail := 1, addr := 0, va := 0, index := 0, pa := physAddr l, t := s.gn.t64.toNat,
          die := dieOf r.core, core := r.core % 16, pos := pos, handle := r.handle, seq := c.frSeq }
      deliver s1 id pos (.frec f))
    { s with latent := s.latent.filter (fun l => !hit l) }

/-- The same for a write that belongs to a partition and to no shuttle: the record goes to position 0 of the partition's oldest resident
record. DESIGN CHOICE (log entry 105). -/
def meetPart (s : State) (pid key n : Nat) : State :=
  match s.recs.find? (fun r => r.pid == pid && (s.core r.core).recId == some r.id) with
  | some r => meetLatent s r.id 0 key n
  | none => meetLatent s s.nextRec 0 key n

/-- The records of the errors that the dirty-bit writes of walks have met (R274, R334). -/
def settleMet (s : State) : State :=
  s.met.foldl (fun s m => meetPart { s with latent := m.2 :: s.latent } m.1 m.2 64) { s with met := [] }

/-- The running commands of a shuttle that fold a CRC, by their order, on whichever core holds them. -/
def crcOrders (s : State) (id pos : Nat) : List Nat :=
  (s.co :: s.cores.map Prod.snd).flatMap (fun c => c.cmds.filterMap (fun e =>
    if e.2.run && e.2.crc && e.2.recId == id && e.2.pos == pos then some e.2.order else none))

/-- The folds of a shuttle that are due, applied in the order of their commands up to one still running (R228). -/
def settleFolds (s : State) (id pos : Nat) : State :=
  match s.live? id pos, s.rec? id with
  | some r, some q =>
    let os := crcOrders s id pos
    let ready (e : Nat × Nat × List Byte) : Bool := e.2.1 == pos && os.all (fun o => e.1 < o)
    let t := s.shuttle r
    let sum := (q.folds.filter ready).foldl (fun h e => crcFold h e.2.2) t.hcsum
    (s.setShuttle r.core { t with hcsum := sum }).setRec { q with folds := q.folds.filter (fun e => !ready e) }
  | _, _ => s

/-- The lowest chunk of a command that has not finished. -/
def Cmd.firstOpen (c : Cmd) : Nat := ((List.range c.expect).find? (fun k => !c.fin.contains k)).getD 0

/-- The fault record of a command (R225, R329): its handle as the address. -/
def cmdRecord (s : State) (core slot : Nat) (c : Cmd) (f : Flt) : FRec :=
  let co := s.core core
  { cause := f.cause, source := 1, lost := 0, level := f.level, detail := f.detail, addr := (cmdHandle core slot c.seq).toNat,
    va := f.va, index := f.index, pa := knownPa s c.pid f, t := s.gn.t64.toNat, die := dieOf core, core := core % 16, pos := c.pos,
    handle := ((s.rec? c.recId).map (fun r => r.handle)).getD 0, seq := co.frSeq }

/-- A command of a core ends with an error (R225): its slot keeps the word, the tile entry is aborted with the error,
event bit 1 is set, a fault pushes a record and an ECC is counted by the core's die (R336), unfinished chunks are left undefined, and it
folds nothing (R228). -/
def endCmdErr (s : State) (core slot err first : Nat) (f : Option Flt) : State :=
  let co := s.core core
  match afind? co.cmds slot with
  | none => s
  | some c =>
    let s1 := havocChunks (s.setCore { co with cmds := aput co.cmds slot { c with run := false, err := err, first := first } }) core c
    let s2 := match c.tile with
      | some k => deliver s1 c.recId c.pos (.fail k err)
      | none => s1
    let s3 := match f with
      | some g =>
        let s2 := if g.cause = cECC then countErr s2 (dieOf core) 6 else s2
        let co := s2.core core
        deliver (s2.setCore { co with frSeq := co.frSeq + 1 }) c.recId c.pos (.frec (cmdRecord s2 core slot c g))
      | none => s2
    settleFolds (deliver s3 c.recId c.pos (.event 2)) c.recId c.pos

/-- A command of a core ends without error: its slot is free at once, its fold is due, event bit 1 is set (R227, R228, R243). -/
def endCmdOk (s : State) (core slot : Nat) : State :=
  let co := s.core core
  match afind? co.cmds slot with
  | none => s
  | some c =>
    let s1 := s.setCore { co with cmds := adel co.cmds slot }
    let s2 := match c.crc, s1.rec? c.recId with
      | true, some q => s1.setRec { q with folds := aput q.folds c.order (c.pos, (c.gather.map Prod.snd).flatten) }
      | _, _ => s1
    settleFolds (deliver s2 c.recId c.pos (.event 2)) c.recId c.pos

/-- Whether an entry of any queue of the core belongs to a command's chunk. -/
def Core.tagged (c : Core) (slot chunk : Nat) : Bool := c.entries.any (fun e => e.tags.contains (slot, chunk))

/-- Whether an entry of the core belongs to a command. -/
def Core.taggedCmd (c : Core) (slot : Nat) : Bool := c.entries.any (fun e => e.tags.any (fun t => t.1 == slot))

/-- Whether an entry of the core is an access of a shuttle, in either pipe. -/
def Core.admittedBy (c : Core) (pos : Nat) : Bool := c.entries.any (fun e => e.aBy.contains pos || e.xBy.any (fun p => p.1 == pos))

/-- Whether an access of a shuttle has yet to read or perform (R129). -/
def Core.outstanding (c : Core) (pos : Nat) : Bool := c.loading pos || c.admittedBy pos

/-- Whether an entry of the core is an X-class access of a shuttle. -/
def Core.admittedX (c : Core) (pos : Nat) : Bool :=
  c.entries.any (fun e => e.xBy.any (fun p => p.1 == pos)) || c.loads.any (fun l => l.pos == pos && l.xClass)

end Sys2Proof.Machine
end

