-- ==== Sys2Proof/Machine/Frame.lean ====
section
/-! DEFINITION. The image of a shuttle in memory: the trap frame (R328, R330), which is also the frame of a pre-emption
save and of the debugger's view (R327), written as words by offset, and read back (R38, R326). -/

namespace Sys2Proof.Machine

/-- The memory address of an access by the die controller's own path (R325, R315), with the state after its walk: none when a check does
not permit it. Those who make it wait while it lies in a die under repair (`devHeld`, R377), of which it is none. -/
def devAt (s : State) (pid : Nat) (acc : Acc) (va : Nat) : State × Option Nat :=
  let fits (k : Nat) : Option Nat := if 2 ^ 44 ≤ k then none else some k
  match check s { pid := pid, core := 512, lo := 0, len := 0 } va 1 acc true false with
  | (s1, .ok l) => (s1, fits l.key)
  | (s1, .bad _ _ _) => (s1, none)
  | (s1, .hold) =>
    match translate s1 pid va acc with
    | (s2, .ok (some t)) => (s2, fits (t.pa + va % 2 ^ t.bits))
    | (s2, _) => (s2, none)

/-- Memory ranges of a virtual range for the die controller's own path, with the state after its walks: none when a page
does not permit it. Pieces are (virtual address, length, memory address). -/
def devSpan (s : State) (pid : Nat) (acc : Acc) : Nat → Nat → Nat → State × Option (List (Nat × Nat × Nat))
  | 0, _, n => (s, if n = 0 then some [] else none)
  | fuel + 1, va, n =>
    if n = 0 then (s, some [])
    else
      let m := Nat.min n (65536 - va % 65536)
      match devAt s pid acc va with
      | (s1, none) => (s1, none)
      | (s1, some k) =>
        match devSpan s1 pid acc fuel (va + m) (n - m) with
        | (s2, some r) => (s2, some ((va, m, k) :: r))
        | (s2, none) => (s2, none)

/-- The memory address of a virtual one among pieces. -/
def pieceKey (ps : List (Nat × Nat × Nat)) (va : Nat) : Option Nat :=
  (ps.find? (fun p => p.1 ≤ va && va < p.1 + p.2.1)).map (fun p => p.2.2 + (va - p.1))

/-- A write of the die controller's path to some ranges merges with the lines it covers in part: an error there is met (R273, R274). -/
def meetEdges (s : State) (pid : Nat) (ps : List (Nat × Nat × Nat)) : State :=
  ps.foldl (fun s p =>
    let s1 := if p.2.2 % 64 = 0 then s else meetPart s pid (p.2.2 / 64 * 64) 64
    if (p.2.2 + p.2.1) % 64 = 0 then s1 else meetPart s1 pid ((p.2.2 + p.2.1) / 64 * 64) 64) s

/-- Words written at offsets of a zeroed virtual range, whole or not at all. -/
def devWrite (s : State) (pid va len : Nat) (ws : List (Nat × Word)) : State × Bool :=
  match devSpan s pid .write (len / 65536 + 2) va len with
  | (s1, some ps) =>
    let s2 := meetEdges s1 pid ps
    let m1 := ps.foldl (fun m p => m.cover p.2.2 (p.2.2 + p.2.1) 0) s2.mem
    let m2 := ws.foldl (fun m w => match pieceKey ps (va + w.1) with
      | some k => m.writeLe k 8 w.2.toNat
      | none => m) m1
    let pl := s2.poison.filter (fun l => !(ps.any (fun p => p.2.2 ≤ l && l + 64 ≤ p.2.2 + p.2.1)))
    (({ s2 with mem := m2 } : State).putPoison pl, true)
  | (s1, none) => (s1, false)

/-- One word read through the die controller's path. -/
def devRead (s : State) (pid va : Nat) : State × Option Word :=
  match devSpan s pid .read 2 va 8 with
  | (s1, some ps) => (s1, (pieceKey ps va).map (fun k => BitVec.ofNat 64 (s1.mem.readLe k 8)))
  | (s1, none) => (s1, none)

/-- One word written through the die controller's path. -/
def devPut (s : State) (pid va : Nat) (w : Word) : State × Bool :=
  match devSpan s pid .write 2 va 8 with
  | (s1, some ps) =>
    match pieceKey ps va with
    | some k => let s2 := meetPart s1 pid (k / 64 * 64) 64; ({ s2 with mem := s2.mem.writeLe k 8 w.toNat }, true)
    | none => (s1, false)
  | (s1, none) => (s1, false)

/-- An access to a virtual range by the own path of a core's die controller would wait for another die under repair (R377). -/
def devHeldBy (s : State) (core pid va n : Nat) : Bool :=
  s.dies.any (fun d => d.2.repair == 1) && (List.range (n / 65536 + 2)).any (fun k =>
    match check s { pid := pid, core := core, lo := 0, len := 0 } (Nat.min (va + 65536 * k) (va + n - 1)) 1 .read true false with
    | (_, .hold) => true
    | _ => false)

/-- The same for the module's own accesses, which come from no die: 512 is no core. -/
def devHeld (s : State) (pid va n : Nat) : Bool := devHeldBy s 512 pid va n

/-- Bits of a list of numbers. -/
def maskOf (l : List Nat) : Nat := (l.eraseDups).foldl (fun a k => a + 2 ^ k) 0

/-- The predicate elements a queued instruction's predicate destinations may span: those of `vlen`, or of the greatest
length while a `vsetl` waits in the queue. -/
def Shuttle.pendSpan (t : Shuttle) : Nat :=
  if t.xq.any (fun e => match e.instr with | .vsetl _ _ _ _ _ _ _ => true | _ => false) then 4096 else t.vlen.toNat

/-- Scalar and predicate destinations pending on X-class instructions: dispatched and not issued, or in flight (R24). -/
def Shuttle.pendingQ (t : Shuttle) : List RegId := t.xq.flatMap (fun e => (xRegs t t.pendSpan e.instr).w)
def Shuttle.pendingF (t : Shuttle) (cycle : Nat) : List RegId :=
  (t.flight.filter (fun f => cycle ≤ f.lands)).flatMap (fun f => f.dests)

/-- The loop record as its two words, low first (R105). -/
def LoopRec.words (l : LoopRec) : Nat × Nat :=
  (l.start % 2 ^ 56, l.len % 512 + (if l.act then 2 ^ 63 else 0) + (if l.kind then 2 ^ 62 else 0) + l.pred % 64 * 2 ^ 56 + l.seq % 4 * 2 ^ 54)

/-- A loop record from its words. -/
def LoopRec.ofWords (lo hi : Nat) : LoopRec :=
  { act := bitAt hi 63, kind := bitAt hi 62, pred := bitsAt hi 56 6, seq := bitsAt hi 54 2, len := bitsAt hi 0 9, start := bitsAt lo 0 56 }

/-- Registers marked busy: destinations of interlocked instructions of the X queue, as long as they are pending (R33, R37, R135,
R140, R190). DEDUCED (log entry 96). -/
def Shuttle.busyQ (t : Shuttle) : List RegId :=
  t.xq.flatMap (fun e => if interlocked t e.instr then (xRegs t t.pendSpan e.instr).w else [])

/-- The issue wait of the head of the X queue: its entry's, or the word's own for an instruction issued with no entry (R30, R38). -/
def Shuttle.headWait (t : Shuttle) (i : Instr) : Nat :=
  match t.xq with
  | [] => i.hd.w.val
  | e :: _ => e.wait

/-- The cycle from which the head of the X queue may issue: one a cycle, w + 1 after the last issue, and not before an
`xnop`'s wait is over (R22, R30, R108). -/
def Shuttle.issueAt (t : Shuttle) (i : Instr) : Nat := Nat.max (t.lastIssue + 1 + t.headWait i) t.issueFrom

/-- An operand as its word, and whether it is bound (R330). -/
def Opnd.word : Opnd → Nat × Nat
  | .none => (0, 0)
  | .cap v => (v.toNat, 0)
  | .bound r => (r, 1)

/-- The 8 words of an X queue entry; `k` its place, the head's remaining wait counted from a cycle (R330). -/
def XEntry.words (t : Shuttle) (cycle k : Nat) (e : XEntry) : List Nat :=
  let wait := if k = 0 then t.issueAt e.instr - cycle else e.wait
  let (a, ab) := e.opA.word
  let (b, bb) := e.opB.word
  let (c, cb) := e.opC.word
  let (d, db) := e.opD.word
  [encode e.instr, e.addr, a, b, c, d, Nat.min wait 65535 + (ab + 2 * bb + 4 * cb + 8 * db) * 2 ^ 16, 0]

/-- Numbers laid out as consecutive words from an offset. -/
def layWords (off : Nat) (l : List Nat) : List (Nat × Nat) := l.mapIdx (fun k w => (off + 8 * k, w))

/-- A frame as its words by offset (R328): kind 0 trap, 1 pre-emption, 2 debug; `frec` the trap's fault record. -/
def frameWords (s : State) (kind : Nat) (frec : List Word) : List (Nat × Word) :=
  let t := s.sh
  let L := t.lanes
  let head : List Nat :=
    [kind * 2 ^ 56 + t.level * 2 ^ 48 + L, t.apc.toNat, t.xpc, t.vlen.toNat, t.vtype.toNat, t.vstart.toNat, t.redst.toNat,
     t.fill.toNat,
     t.sat.toNat + t.fflags.toNat * 2 ^ 8 + t.rnd.toNat * 2 ^ 16 + t.frm.toNat * 2 ^ 24,
     bitsAt t.ccur.toNat 0 64, bitsAt t.ccur.toNat 64 64, bitsAt t.xcur.toNat 0 64, bitsAt t.xcur.toNat 64 64,
     t.hcsum.toNat, t.tvec.toNat, t.tcause.toNat, s.co.wlbud]
  let lcs := t.lc.toList.map (fun c => c.toNat)
  let loops := t.loops.toList.flatMap (fun l => [l.words.1, l.words.2])
  let pend := t.pendingQ ++ t.pendingF s.co.cycle
  let px := maskOf (pend.filterMap (fun r => match r with | .x n => some n | _ => none))
  let pp := maskOf (pend.filterMap (fun r => match r with | .p n => some n | _ => none))
  let bx := maskOf (t.busyQ.filterMap (fun r => match r with | .x n => some n | _ => none))
  let bp := maskOf (t.busyQ.filterMap (fun r => match r with | .p n => some n | _ => none))
  let bv := maskOf (t.busyQ.filterMap (fun r => match r with | .v n => if n < 64 then some n else none | _ => none))
  let bc := maskOf (t.busyQ.filterMap (fun r => match r with | .c n => if n < 16 then some n else none | _ => none))
  let counts := (t.dq.toList.map List.length ++ t.rq.toList.map List.length)
  let cw := (counts.mapIdx (fun k n => n * 2 ^ (8 * k))).sum
  let scal := ((t.dq.toList.mapIdx (fun k q => (q.mapIdx (fun e x => if x.scalar then 2 ^ (16 * k + e) else 0)).sum))).sum
  let fixed := layWords 0 (head ++ lcs ++ loops ++ [t.arena.toNat] ++ t.c.toList.map (fun c => c.toNat) ++ [t.events.toNat, cw, t.xq.length]
    ++ [px, bx, pp, bp, bv, bc, scal % 2 ^ 64, scal / 2 ^ 64, t.timer.toNat,
        t.armed.toNat + 2 * t.progOk.toNat + t.prog.length * 2 ^ 8] ++ frec.map (fun w => w.toNat))
  let xs := layWords 0x200 (t.x.toList.map (fun w => w.toNat))
  let ps := t.p.toList.mapIdx (fun n b => layWords (0x400 + 64 * n) ((List.range 8).map (fun k => bitsAt b.toNat (64 * k) 64)))
  let xq := t.xq.mapIdx (fun k e => layWords (0x1000 + 64 * k) (e.words t s.co.cycle k))
  let rqs := t.rq.toList.mapIdx (fun k q => layWords (0x2000 + 64 * k) (q.map (fun w => w.toNat)))
  let dqs := t.dq.toList.mapIdx (fun k q => (q.mapIdx (fun e x =>
    layWords (0x2100 + (16 * k + e) * 16 * L) ((List.range (2 * L)).map (fun j => bitsAt x.data.toNat (64 * j) 64)))).flatten)
  let vs := t.v.toList.mapIdx (fun n b =>
    if b = 0 then [] else layWords (0x2100 + 1536 * L + n * L * 64) ((List.range (8 * L)).map (fun j => bitsAt b.toNat (64 * j) 64)))
  (fixed ++ xs ++ ps.flatten ++ xq.flatten ++ rqs.flatten ++ dqs.flatten ++ vs.flatten).filterMap
    (fun w => if w.2 = 0 then none else some (w.1, BitVec.ofNat 64 w.2))

/-- The size of a frame (R328). -/
def frameSize (L : Nat) : Nat := 0x2100 + 5632 * L

/-- An operand read back from a frame: its word where the field is a source, bound where its mask bit says so (R330). -/
def opndOf (src : Option (Fin 64)) (w : Nat) (bound : Bool) : Opnd :=
  match src with
  | none => .none
  | some _ => if bound then .bound (w % 64) else .cap (BitVec.ofNat 64 w)

/-- An X queue entry read back from its words, with the arena word that stands then; none when the word is no X-class instruction that the
scan accepts under a feature set: no other is ever executed (R81). -/
def xentryOf (feature : Option Nat) (arena : Word) (w : Nat → Nat) (off : Nat) : Option XEntry :=
  match decode (w off) with
  | none => none
  | some i =>
    if i.kind ≠ .xClass ∨ (scanWord feature (w off)).isSome then none
    else
      let (a, b, c, d) := xSrcs i
      let m := bitsAt (w (off + 48)) 16 4
      some { instr := i, addr := w (off + 8) % 2 ^ 56, opA := opndOf a (w (off + 16)) (bitAt m 0),
             opB := opndOf b (w (off + 24)) (bitAt m 1), opC := opndOf c (w (off + 32)) (bitAt m 2),
             opD := opndOf d (w (off + 40)) (bitAt m 3), arena := arena, wait := bitsAt (w (off + 48)) 0 16 }

/-- Masks of the fields that are not reserved (R17, R20, R200, R239). -/
def tcauseMask : Word := 0xFFFFFFFF000100FF
def vtypeMask : Word := 0x0000000000FF300F
def ccurMask : BitVec 128 := BitVec.ofNat 128 (0xFFC000FFFFFFFFFF * 2 ^ 64 + 0xBFC000FFFFFFFFFF)
def xcurMask : BitVec 128 := BitVec.ofNat 128 (0xF0000000FFFFFFFF * 2 ^ 64 + 0xFFFFFFFFFFFFFFFF)

/-- A shuttle restored from a frame given as its words by offset (R38, R326); `full`: a resumption, which also takes the
level, the timer and the heddle program (R328). None when an X queue entry holds no X-class instruction of the feature set. With entries in the X
queue, `xpc`'s word is the address of the oldest (R34, log entry 97). A `vtype` with etype 14 or 15 and a `vlen` above 4,096, which
never occur (R17), are restored as they stand. DESIGN CHOICE (log entry 98). -/
def restoreFrame (feature : Option Nat) (t : Shuttle) (cycle : Nat) (full : Bool) (w : Nat → Nat) : Option Shuttle :=
  let L := t.lanes
  let k := w 0x40
  let n := Nat.min (w 0x168 % 128) 64
  let arena := BitVec.ofNat 64 (w 0xD0) &&& 0x7FFFFFFFFFFFFFFF
  let es := (List.range n).map (fun j => xentryOf feature arena w (0x1000 + 64 * j))
  if es.any (fun e => e.isNone) then none
  else
    let xq := match es.filterMap id with
      | [] => []
      | e :: r => { e with addr := w 0x10 % 2 ^ 56, wait := 0 } :: r
    let wait := if n = 0 then 0 else w (0x1000 + 48) % 65536
    let cnt (q : Nat) : Nat := bitsAt (w 0x160) (8 * q) 8
    let sc := w 0x1A0 + w 0x1A8 * 2 ^ 64
    let t1 := { t with
      apc := BitVec.ofNat 56 (w 0x8)
      pcHi := 0
      vlen := BitVec.ofNat 13 (w 0x18)
      vtype := BitVec.ofNat 64 (w 0x20) &&& vtypeMask
      vstart := BitVec.ofNat 13 (w 0x28)
      redst := BitVec.ofNat 64 (w 0x30)
      fill := BitVec.ofNat 64 (w 0x38)
      sat := bitAt k 0
      fflags := BitVec.ofNat 5 (bitsAt k 8 5)
      rnd := BitVec.ofNat 2 (bitsAt k 16 2)
      frm := BitVec.ofNat 2 (bitsAt k 24 2)
      ccur := BitVec.ofNat 128 (w 0x48 + w 0x50 * 2 ^ 64) &&& ccurMask
      xcur := BitVec.ofNat 128 (w 0x58 + w 0x60 * 2 ^ 64) &&& xcurMask
      hcsum := BitVec.ofNat 32 (w 0x68)
      tvec := BitVec.ofNat 64 (w 0x70 / 8 * 8)
      tcause := BitVec.ofNat 64 (w 0x78) &&& tcauseMask
      lc := Vector.ofFn (fun j : Fin 3 => BitVec.ofNat 32 (w (0x88 + 8 * j.val)))
      loops := Vector.ofFn (fun j : Fin 3 => LoopRec.ofWords (w (0xA0 + 16 * j.val)) (w (0xA8 + 16 * j.val)))
      arena := arena
      c := Vector.ofFn (fun j : Fin 16 => BitVec.ofNat 64 (w (0xD8 + 8 * j.val)) &&& 0xF0FFFFFFFFFFFFFF)
      events := BitVec.ofNat 4 (w 0x158)
      x := Vector.ofFn (fun j : Fin 64 => if j.val = 0 then 0 else BitVec.ofNat 64 (w (0x200 + 8 * j.val)))
      p := Vector.ofFn (fun j : Fin 48 => BitVec.ofNat 512 (((List.range 8).map (fun b => w (0x400 + 64 * j.val + 8 * b) * 2 ^ (64 * b))).sum))
      v := Vector.ofFn (fun j : Fin 64 => BitVec.ofNat 16384
        (((List.range (8 * L)).map (fun b => w (0x2100 + 1536 * L + j.val * L * 64 + 8 * b) * 2 ^ (64 * b))).sum))
      rq := Vector.ofFn (fun j : Fin 2 => (List.range (Nat.min (cnt (6 + j.val)) 8)).map (fun e => BitVec.ofNat 64 (w (0x2000 + 64 * j.val + 8 * e))))
      dq := Vector.ofFn (fun j : Fin 6 => (List.range (Nat.min (cnt j.val) 16)).map (fun e =>
        { scalar := bitAt sc (16 * j.val + e)
          data := BitVec.ofNat 4096 (((List.range (2 * L)).map (fun b => w (0x2100 + (16 * j.val + e) * 16 * L + 8 * b) * 2 ^ (64 * b))).sum) }))
      xq := xq
      xIss := none
      flight := []
      lastIssue := cycle - 1
      issueFrom := cycle + wait
      vdirty := t.vdirty ||| BitVec.ofNat 64 (((List.range 64).map (fun j =>
        if (List.range (8 * L)).any (fun b => w (0x2100 + 1536 * L + j * L * 64 + 8 * b) * 2 ^ (64 * b) != (t.vreg j).toNat / 2 ^ (64 * b) % 2 ^ 64 * 2 ^ (64 * b)) then 2 ^ j else 0)).sum) }
    if full then
      some { t1 with level := bitsAt (w 0) 48 8, timer := BitVec.ofNat 64 (w 0x1B0), armed := bitAt (w 0x1B8) 0,
                     progOk := bitAt (w 0x1B8) 1 }
    else some t1

/-- The save slot's address for a shuttle's area (R327). -/
def slotBase (g : Region) (slot : Nat) : Nat := g.saveBase + slot * 0x01400000
def areaBase (g : Region) (slot pos L : Nat) : Nat := slotBase g slot + pos * 524288 * L

/-- The words of a frame read back through the die controller's path: a lookup by offset, none when a page does not permit it. -/
def frameReader (s : State) (pid va len : Nat) : State × Option (Nat → Nat) :=
  match devSpan s pid .read (len / 65536 + 2) va len with
  | (s1, some ps) => (s1, some (fun off => match pieceKey ps (va + off) with
      | some k => s1.mem.readLe k 8
      | none => 0))
  | (s1, none) => (s1, none)

/-- Offsets of a frame of poisoned register words (R325, R334). -/
def Shuttle.poisonOffs (t : Shuttle) : List Nat :=
  let L := t.lanes
  t.vpoison.map (fun q => 0x2100 + 1536 * L + (q.1 * L + q.2.1) * 64) ++ t.xpois.map (fun n => 0x200 + 8 * n) ++
  t.spois.map (fun k => if 100 ≤ k then 64 else 8 * k) ++ t.ppois.map (fun q => 0x400 + 64 * q.1) ++ t.rqPois.map (fun q => 0x2000 + 64 * (q.1 - 6)) ++
  (t.dq.toList.mapIdx (fun k q => (q.mapIdx (fun e x => x.pois.map (fun w => 0x2100 + (16 * k + e) * 16 * L + 8 * w))).flatten)).flatten ++
  (t.xq.mapIdx (fun k e => if e.pois ≠ [] then [0x1000 + 64 * k] else [])).flatten

/-- A restored X queue whose entries have their numbers again. -/
def Shuttle.numbered (t : Shuttle) (nos : List Nat) : Shuttle :=
  { t with xq := t.xq.mapIdx (fun k e => { e with no := nos.getD k 0 }) }

/-- A shuttle whose registers have the poison of a frame's lines: `bad` says whether the line of an offset is poisoned (R326). -/
def Shuttle.poisonedBy (t : Shuttle) (bad : Nat → Bool) : Shuttle :=
  let L := t.lanes
  { t with
    vpoison := (List.range 64).flatMap (fun n => (List.range L).flatMap (fun l =>
      if bad (0x2100 + 1536 * L + (n * L + l) * 64) then (List.range 8).map (fun w => (n, l, w)) else []))
    xpois := (List.range 64).filter (fun n => n != 0 && bad (0x200 + 8 * n))
    spois := (((List.range 43).filter (fun k => 3 ≤ k && k != 8 && k != 16)).filter (fun k => bad (8 * k))) ++ (if bad 64 then [100, 101, 102, 103] else [])
    ppois := (List.range 48).flatMap (fun n => if bad (0x400 + 64 * n) then (List.range 8).map (fun w => (n, w)) else [])
    rqPois := (List.range 2).flatMap (fun k =>
      if bad (0x2000 + 64 * k) then (List.range (t.rq.toList.getD k []).length).map (fun e => (6 + k, e)) else [])
    dq := Vector.ofFn (fun k : Fin 6 => t.dq[k].mapIdx (fun e x =>
      { x with pois := (List.range (2 * L)).filter (fun w => bad (0x2100 + (16 * k.val + e) * 16 * L + 8 * w)) }))
    xq := t.xq.mapIdx (fun k e => { e with pois := if bad (0x1000 + 64 * k) then [0, 1, 2, 3] else [] }) }

/-- The lines of some offsets of a virtual range the die controller's path writes. -/
def spanLines (s : State) (pid va len : Nat) (offs : List Nat) : List Nat :=
  match devSpan s pid .write (len / 65536 + 2) va len with
  | (_, some ps) => offs.filterMap (fun o => (pieceKey ps (va + o)).map (fun k => k / 64 * 64))
  | _ => []

/-- Whether the line of an offset of a virtual range is poisoned. -/
def spanBad (s : State) (pid va len : Nat) : Nat → Bool :=
  if s.poison = [] then fun _ => false
  else match devSpan s pid .read (len / 65536 + 2) va len with
  | (_, some ps) => fun o =>
    match pieceKey ps (va + o) with
    | some k => s.poison.contains (k / 64 * 64)
    | none => false
  | _ => fun _ => false

/-- Lines of a frame that hold a poisoned register word (R325, R334). -/
def framePoison (s : State) (va : Nat) : List Nat := spanLines s s.sh.pid va (frameSize s.sh.lanes) s.sh.poisonOffs

/-- Whether the line of an offset of a frame in memory is poisoned. -/
def frameBad (s : State) (va : Nat) : Nat → Bool := spanBad s s.sh.pid va (frameSize s.sh.lanes)

end Sys2Proof.Machine
end

