-- ==== Sys2Proof/Machine/Region.lean ====
section
/-! DEFINITION. Region control blocks (R302, R303): reading a region through its chain, privilege, and the completion
ring of a host queue (R298, R299, R301). -/

namespace Sys2Proof.Machine

/-- The 16 software and device words of a region control block at an address. -/
def readBlock (s : State) (pid addr : Nat) : State × Option (List Nat) :=
  match frameReader s pid addr 128 with
  | (s1, some rd) => (s1, some ((List.range 16).map (fun k => rd (8 * k))))
  | (s1, none) => (s1, none)

/-- A block and its ancestors up to a tenant, at most 16 levels, with their addresses (R303). -/
def readChain (s : State) (pid : Nat) : Nat → Nat → State × Option (List (Nat × List Nat))
  | 0, _ => (s, none)
  | n + 1, addr =>
    match readBlock s pid addr with
    | (s1, none) => (s1, none)
    | (s1, some b) =>
      let parent := bitsAt (b.getD 0 0) 0 56
      if parent = 0 then (s1, some [(addr, b)])
      else
        match readChain s1 pid n parent with
        | (s2, some r) => (s2, some ((addr, b) :: r))
        | (s2, none) => (s2, none)

/-- The block of a chain that yields a group: the first whose override bit is set (R303). -/
def yields (ch : List (Nat × List Nat)) (g : Nat) : List Nat :=
  match ch.find? (fun e => bitAt (e.2.getD 1 0) (40 + g)) with
  | some e => e.2
  | none => []

/-- The fault-record, command-slot and barrier-slot quota each block of a chain yields, with its table slot. -/
def chainQuotas (tbl : Nat) : List (Nat × List Nat) → List (Nat × Nat × Nat × Nat)
  | [] => []
  | e :: r =>
    let q := (yields (e :: r) 3).getD 5 0
    ((e.1 - tbl) / 256, bitsAt q 40 8, bitsAt q 32 8, bitsAt q 48 16) :: chainQuotas tbl r

/-- A region by its handle (R302): its values, or the completion status it is refused with (1 or 2). -/
def readRegion (s : State) (pid handle : Nat) : State × Except Nat Region :=
  match s.part? pid with
  | none => (s, .error 2)
  | some p =>
    let slot := handle % 2 ^ 20
    if p.tblSlots ≤ slot then (s, .error 2)
    else
      match readChain s pid 16 (p.tblBase + 256 * slot) with
      | (s1, none) => (s1, .error 2)
      | (s1, some ch) =>
        let b0 := (ch.headD (0, [])).2
        let top := (ch.getLast?.getD (0, []))
        if !bitAt (b0.getD 1 0) 63 || bitsAt (b0.getD 1 0) 0 12 != bitsAt handle 20 12 then (s1, .error 2)
        else if bitsAt (top.2.getD 1 0) 40 8 != 0xFF then (s1, .error 1)
        else
          let f (g k : Nat) : Nat := (yields ch g).getD k 0
          (s1, .ok
            { slot := slot
              priv := bitAt (b0.getD 1 0) 62
              domain := bitsAt (f 0 1) 16 16
              tiles := bitsAt (f 2 4) 32 9
              ents := bitsAt (f 2 4) 48 9
              near := bitsAt (f 2 4) 0 21
              barQ := bitsAt (f 3 5) 48 16
              frQ := bitsAt (f 3 5) 40 8
              cmdQ := bitsAt (f 3 5) 32 8
              frR := bitsAt (f 3 5) 8 8
              cmdR := bitsAt (f 3 5) 0 8
              clus := bitsAt (f 4 6) 48 16
              hold := bitsAt (f 4 6) 32 16
              refill := bitsAt (f 4 6) 6 26
              shapeBase := bitsAt (f 5 7) 0 56
              shapeN := bitsAt (f 5 8) 0 20
              peerBase := bitsAt (f 6 9) 0 56
              peerN := bitsAt (f 6 10) 0 16
              saveBase := bitsAt (f 7 11) 0 56
              saveN := bitsAt (f 7 12) 0 16
              tenant := (top.1 - p.tblBase) / 256
              prio := bitsAt (f 1 2) 0 8
              chain := chainQuotas p.tblBase ch })

/-- A registered queue. -/
def State.queue? (s : State) (no : Nat) : Option HQueue := s.queues.find? (fun q => q.no == no)
def State.setQueueRec (s : State) (q : HQueue) : State := { s with queues := s.queues.map (fun r => if r.no = q.no then q else r) }

/-- The eight words of a queue header (R298). -/
def readHeader (s : State) (q : HQueue) : State × Option (List Nat) :=
  match frameReader s q.pid q.hdr 64 with
  | (s1, some rd) => (s1, some ((List.range 8).map (fun k => rd (8 * k))))
  | (s1, none) => (s1, none)

/-- A queue's header, or what the device reads and writes at its rings, lies in a die under repair (R377). -/
def queueHeldBy (s : State) (core : Nat) (q : HQueue) : Bool :=
  devHeldBy s core q.pid q.hdr 64 || (match (readHeader s q).2 with
    | some h =>
      let e := 2 ^ bitsAt (h.getD 4 0) 0 5
      devHeldBy s core q.pid (bitsAt (h.getD 2 0) 0 56) (64 * e) || devHeldBy s core q.pid (bitsAt (h.getD 3 0) 0 56) (16 * e)
    | none => false)
def queueHeld (s : State) (q : HQueue) : Bool := queueHeldBy s 512 q

/-- The completion entry of a record waits for a die under repair (R377): that of a resident one is written from its die. -/
def complHeld (s : State) (r : Rec) : Bool :=
  match s.queue? r.queue with
  | some q => queueHeldBy s (if (s.core r.core).recId = some r.id then r.core else 512) q
  | none => false

/-- A queue stops with a reason and writes word 5 of its header (R299). -/
def stopQueue (s : State) (q : HQueue) (why : Nat) : State :=
  let s1 := s.setQueueRec { q with stop := why }
  (devPut s1 q.pid (q.hdr + 40) (BitVec.ofNat 64 (2 ^ 63 + why))).1

/-- How far a queue's head may move: past every record completed in order, modulo 2^64. -/
def headAfter (done : List Nat) : Nat → Nat → Nat
  | 0, h => h
  | n + 1, h => if done.contains h then headAfter done n ((h + 1) % 2 ^ 64) else h

/-- The completion entry of a record (R301), the head moved after it (R299). A failed write stops the queue with reason 2. -/
def writeCompletion (s : State) (r : Rec) (status : Nat) : State :=
  match s.queue? r.queue with
  | none => s
  | some q =>
    match readHeader s q with
    | (s1, none) => stopQueue s1 q 2
    | (s1, some h) =>
      let e := 2 ^ bitsAt (h.getD 4 0) 0 5
      let a := bitsAt (h.getD 3 0) 0 56 + 16 * (r.index % e)
      let started := if r.begun then r.k else 0
      let nz := (r.exits.filter (fun x => x.2 != 0)).length
      let w1 := ((r.index / e + 1) % 2) * 2 ^ 63 + status * 2 ^ 48 + r.late.toNat * 2 ^ 47 + started * 2 ^ 32 + nz * 2 ^ 16
        + aget 0 r.exits 0 % 65536
      match devPut s1 q.pid a r.cookie with
      | (s2, false) => stopQueue s2 q 2
      | (s2, true) =>
        match devPut s2 q.pid (a + 8) (BitVec.ofNat 64 w1) with
        | (s3, false) => stopQueue s3 q 2
        | (s3, true) =>
          let done := r.index :: q.done
          let hd := headAfter done (done.length + 1) q.head
          let s4 := s3.setQueueRec { q with done := done.filter (fun k => (k + 2 ^ 64 - hd) % 2 ^ 64 < 2 ^ 63), head := hd }
          if hd = q.head then s4 else (devPut s4 q.pid (q.hdr + 8) (BitVec.ofNat 64 hd)).1

end Sys2Proof.Machine
end

