-- ==== Sys2Proof/Machine/XSpan.lean ====
section
/-! DEFINITION. The address spans of X-class accesses still in the X queue (R128, R192, R220). -/

namespace Sys2Proof.Machine

/-- The captured value of an operand; none when it is bound. -/
def Opnd.known : Opnd → Option Word
  | .cap v => some v
  | .none => Option.none
  | .bound _ => Option.none

/-- An X-class instruction that accesses memory: R129, R146 and R220 order it. -/
def xAccess : Instr → Bool
  | .vld _ _ _ _ _ | .vlds _ _ _ _ _ _ | .vldx _ _ _ _ _ _ _ _ _ | .vst _ _ _ _ _ | .vsts _ _ _ _ _ _
  | .vstx _ _ _ _ _ _ _ _ | .fas _ _ _ _ _ _ | .mfill _ _ _ _ _ _ _ _ | .mdrain _ _ _ _ _ _ _ _ _
  | .cld _ _ _ _ _ _ | .cldSt _ _ _ _ | .csel _ _ _ _ _ _ _ _ | .cselp _ _ _ _ _ _ _ _ | .cgath _ _ _ _ _ _
  | .cscat _ _ _ _ _ _ | .cjoin _ _ _ _ _ _ _ | .csort _ _ _ _ _ _ | .cgrp _ _ _ _ _ | .cagg _ _ _ _ _ _ _ _
  | .cuniq _ _ _ _ _ _ | .cres _ _ _ _ _ _ _ _ _ | .cvecLd _ _ _ _ _ | .cvecApp _ _ _ _ _ => true
  | .xnext _ _ _ | .xco _ _ _ => true
  | _ => false

/-- Bytes of one element access (R148). -/
def elemBytes (t : EType) : Nat := Nat.max 1 (t.bits / 8)

/-- Address of element i at unit stride (R148). -/
def unitAddr (base : Nat) (t : EType) (i : Nat) : Nat := (base + i * t.bits / 8) % 2 ^ 64
/-- Address of element i at a signed byte stride. -/
def strideAddr (base : Nat) (k : Word) (i : Nat) : Nat := (BitVec.ofInt 64 (base + i * k.toInt)).toNat
/-- Address of element i through an index. -/
def indexAddr (base idx sh : Nat) : Nat := (base + idx * 2 ^ sh) % 2 ^ 64

/-- The addresses of the active elements of the vector access at the head of the X queue; none for another access. -/
def Shuttle.elemAddrs (t : Shuttle) (i : Instr) : Option (List Nat) :=
  match i with
  | .vld h _ _ a off | .vst h _ _ a off => some ((t.acts h).map (unitAddr (effAddr (t.srcA a) off) t.et))
  | .vlds h _ _ a b off | .vsts h _ _ a b off => some ((t.acts h).map (strideAddr (effAddr (t.srcA a) off) (t.srcB b)))
  | .vstx h _ it sf _ a b off => some ((t.acts h).map (fun k => indexAddr (effAddr (t.srcA a) off) (t.elem b.val k it.etype) sf.toNat))
  | _ => none

/-- The entry at the head of the X queue with its bound sources as it takes them at its issue (R23). -/
def Shuttle.resolve (t : Shuttle) (e : XEntry) : XEntry :=
  let fix (k : Nat) (f : XEntry → Opnd) : Opnd := if f e = .none then .none else .cap (t.source k f 0)
  { e with opA := fix 0 XEntry.opA, opB := fix 1 XEntry.opB, opC := fix 2 XEntry.opC, opD := fix 3 XEntry.opD }

/-- The number of the entry at the head of the X queue. -/
def State.headNo (s : State) : Nat := (s.sh.xq.head?.map XEntry.no).getD 0

/-- A span that takes in two addresses and the bytes from the higher. -/
def cover (x y : Int) (size : Nat) : Int × Int := (Min.min x y, Max.max x y + size - 1)

/-- The span of a vector access of elements of `e` bits at a byte stride, for the largest length (R128). -/
def vecSpan (L : Nat) (gs : List Nat) (base : Nat) (e : EType) (stride : Option Word) : Int × Int :=
  let n := gs.foldl (fun m g => Nat.max m (Nat.min (g * (L * 512 / e.bits)) 4096)) 1
  let sz := Nat.max 1 (e.bits / 8)
  match stride with
  | some k => cover base (base + (n - 1 : Nat) * k.toInt) sz
  | none => cover base (base + ((n - 1) * e.bits / 8 : Nat)) sz

/-- The span of rows at a stride (R192). -/
def rowSpan (base : Word) (stride : Word) (rows row : Nat) : List (Int × Int) :=
  if rows = 0 ∨ row = 0 ∨ 128 < rows then [] else [cover base.toNat (base.toNat + (rows - 1 : Nat) * stride.toInt) row]

/-- The whole address space: the span of an access of which an address operand is bound, and so not known before it issues. DEDUCED (log
entry 25). -/
def anySpan : List (Int × Int) := [(0, 2 ^ 64 - 1)]

/-- Spans from operands that are captured; the whole space where one is bound. -/
def knownSpan (l : List Opnd) (f : List Word → List (Int × Int)) : List (Int × Int) :=
  if l.any (fun o => match o with | .bound _ => true | _ => false) then anySpan else f (l.filterMap Opnd.known)

/-- The groups and the FIFO types in force, of which those of instructions in the X queue are not known yet (R128, R192). -/
structure InForce where
  gs  : List Nat
  fas : List MType
  fbs : List MType
deriving DecidableEq, Repr

/-- What may be in force after an X queue entry: a guarded instruction may leave what was. -/
def InForce.after (f : InForce) (i : Instr) : InForce :=
  match i with
  | .vsetl h g _ _ _ _ _ => { f with gs := if h.gd.val = 63 then [2 ^ g.toNat] else 2 ^ g.toNat :: f.gs }
  | .mbind h fb _ ty _ =>
    let put (l : List MType) : List MType := if h.gd.val = 63 then [ty] else ty :: l
    if fb then { f with fbs := put f.fbs } else { f with fas := put f.fas }
  | _ => f

/-- The span of the arena word of an entry (R220). -/
def arenaSpan (w : Word) : List (Int × Int) :=
  let n := bitsAt w.toNat 21 21
  let b := bitsAt w.toNat 0 21
  if n = 0 then [] else [((b : Int), (b : Int) + n - 1)]

/-- Spans of an X queue entry, as effective addresses, first and last byte. -/
def entrySpans (s : State) (f : InForce) (e : XEntry) : List (Int × Int) :=
  let L := s.sh.lanes
  let words (b n : Word) : List (Int × Int) := if n = 0 then [] else [((b.toNat : Int), (b.toNat : Int) + 8 * n.toNat - 1)]
  let bytes (b n : Nat) : Int × Int := ((b : Int), (b : Int) + n - 1)
  match e.instr with
  | .vld _ t _ _ off | .vst _ t _ _ off => knownSpan [e.opA] (fun l => l.map (fun v => vecSpan L f.gs (effAddr v off) t none))
  | .vlds _ t _ _ _ off | .vsts _ t _ _ _ off =>
    knownSpan [e.opA, e.opB] (fun l => match l with
      | [v, k] => [vecSpan L f.gs (effAddr v off) t (some k)]
      | _ => [])
  | .fas _ t _ _ _ off => knownSpan [e.opA] (fun l => l.map (fun v => bytes (effAddr v off) (t.bits / 8)))
  | .mfill _ fb fr _ _ _ _ _ =>
    knownSpan [e.opA, e.opB, e.opC, e.opD] (fun l => match l with
      | [b, k, kk, rows] =>
        (if fb then f.fbs else f.fas).flatMap (fun ty =>
          let row := if fr then ceilDiv kk.toNat 8 * 64 else ceilDiv (kk.toNat * ty.etype.bits) 8
          if 1024 < kk.toNat then [] else rowSpan b k rows.toNat row)
      | _ => [])
  | .mdrain _ ty _ _ _ _ _ _ _ =>
    knownSpan [e.opA, e.opB, e.opC, e.opD] (fun l => match l with
      | [b, k, cols, rows] => if 128 < cols.toNat then [] else rowSpan b k rows.toNat (ceilDiv (cols.toNat * ty.bits) 8)
      | _ => [])
  | .cld _ _ _ _ _ _ => arenaSpan e.arena ++ knownSpan [e.opA, e.opB] (fun l => words (l.getD 0 0) (l.getD 1 0))
  | .cres _ o _ _ _ _ _ _ _ =>
    arenaSpan e.arena ++ (if o.toNat = 2 then knownSpan [e.opA, e.opB] (fun l => words (l.getD 0 0) (l.getD 1 0)) else [])
  | .xco _ _ _ => knownSpan [e.opA] (fun l => l.map (fun v => bytes v.toNat 64))
  | .cdefArena _ _ _ _ | .cdefT _ _ _ _ _ | .cdefLen _ _ _ | .clen _ _ _ | .clenCap _ _ _ | .clenDesc _ _ _ | .clenArena _ _
  | .cldSt _ _ _ _ | .csel _ _ _ _ _ _ _ _ | .cselp _ _ _ _ _ _ _ _ | .cgath _ _ _ _ _ _ | .cscat _ _ _ _ _ _
  | .cjoin _ _ _ _ _ _ _ | .csort _ _ _ _ _ _ | .cgrp _ _ _ _ _ | .cagg _ _ _ _ _ _ _ _ | .cuniq _ _ _ _ _ _
  | .ccurClr _ | .ccurRd _ _ | .ccurWr _ _ | .cvecLd _ _ _ _ _ | .cvecApp _ _ _ _ _ => arenaSpan e.arena
  | _ => []

/-- Spans of X queue entries, oldest first. -/
def queueSpans (s : State) : InForce → List XEntry → List (Int × Int)
  | _, [] => []
  | f, e :: r => entrySpans s f e ++ queueSpans s (f.after e.instr) r

/-- What is in force at the head of the X queue. -/
def inForce (s : State) : InForce := { gs := [s.sh.grp], fas := [s.co.fa.ty], fbs := [s.co.fb.ty] }

/-- The same with the number of each entry. -/
def numberedSpans (s : State) : InForce → List XEntry → List (Nat × Int × Int)
  | _, [] => []
  | f, e :: r => (entrySpans s f e).map (fun p => (e.no, p)) ++ numberedSpans s (f.after e.instr) r

/-- n bytes at an effective address touch a line of a span: effective addresses wrap at 2^64 (R110, R128). -/
def touches (p : Int × Int) (ea n : Nat) : Bool :=
  let lo := p.1 / 64 * 64
  let first : Int := ((ea / 64 * 64 : Nat) : Int)
  let last : Int := (((ea + n - 1) / 64 * 64 + 63 : Nat) : Int)
  decide ((last - lo) % 2 ^ 64 ≤ p.2 / 64 * 64 + 63 - lo + (last - first))

/-- An X-class access that reads memory and whose place among the reads of its port is not left open by R285: `vldx` and `xnext` are, and the
read of a `fas` is one entry with its write (R125). -/
def xReads : Instr → Bool
  | .vld _ _ _ _ _ | .vlds _ _ _ _ _ _ | .mfill _ _ _ _ _ _ _ _ | .cld _ _ _ _ _ _ | .cldSt _ _ _ _ | .csel _ _ _ _ _ _ _ _
  | .cselp _ _ _ _ _ _ _ _ | .cgath _ _ _ _ _ _ | .cscat _ _ _ _ _ _ | .cjoin _ _ _ _ _ _ _ | .csort _ _ _ _ _ _ | .cgrp _ _ _ _ _
  | .cagg _ _ _ _ _ _ _ _ | .cuniq _ _ _ _ _ _ | .cres _ _ _ _ _ _ _ _ _ | .cvecLd _ _ _ _ _ | .xco _ _ _ => true
  | _ => false

end Sys2Proof.Machine
end

