-- ==== Sys2Proof/Machine/Ops.lean ====
section
/-! DEFINITION. The operations every instruction is built from: waiting and going on, transfers of control (R97 to R104),
ending a record (R244, R301, R317), taking a trap and returning from one (R325, R326), saving a shuttle (R315), and the
issue of an X-class instruction under the schedule contract (R30 to R33). -/

namespace Sys2Proof.Machine

/-- The outcome of a step of this machine. -/
abbrev Out3 := Host.Outcome State Fault Refusal

/-! ## Waiting and going on -/

/-- The A-pipe waits: the instruction stays at `apc`. -/
def waitA (s : State) (w : Wait) : Out3 := .next { s with sh := { s.sh with aWait := w } }

/-- The X-pipe waits at issue (R27). -/
def waitX (s : State) (w : Wait) : Out3 := .next { s with sh := { s.sh with xWait := w, nWait := s.sh.nWait + 1 } }

/-- A pipe has moved: neither's last wait stands. -/
def Shuttle.moved (t : Shuttle) : Shuttle := { t with aWait := .none, xWait := .none }

/-- The record of an active loop that ends at an address, newest first, with its counter (R103). -/
def Shuttle.loopAt (t : Shuttle) (pc : Nat) : Option (Fin 3 × LoopRec) :=
  let l := (List.finRange 3).map (fun k => (k, t.loops[k]))
  let hit := l.filter (fun e => e.2.act && e.2.start + 8 * (e.2.len - 1) == pc)
  hit.foldl (fun b e => match b with
    | none => some e
    | some c => if c.2.seq < e.2.seq then some e else b) none

/-- Past a word that did not transfer control: the next word, or the loop-end test due at this end word (R103). -/
def Shuttle.fallThrough (t : Shuttle) : Shuttle :=
  { t with endDue := if (t.loopAt t.apc.toNat).isSome then some t.apc.toNat else none, apc := t.apc + 8
           pcHi := BitVec.ofNat 8 ((t.apc.toNat + 8) / 2 ^ 56) }

/-- An A-class instruction has completed and control falls through. -/
def doneA (s : State) : Out3 :=
  .next { s with sh := { s.sh.moved.fallThrough with nA := s.sh.nA + 1 } }

/-- Loop records left by a taken transfer that lies in their body and whose target does not become inactive (R104). -/
def Shuttle.leaveLoops (t : Shuttle) (src dst : Nat) : Shuttle :=
  { t with loops := t.loops.map (fun l =>
      let inBody (a : Nat) : Bool := l.start ≤ a && a < l.start + 8 * l.len
      if l.act && inBody src && !inBody dst then { l with act := false } else l) }

/-- An A-class instruction has completed and transfers control (R97): to an address beyond R110's windows too, at which the next
fetch faults (R68). -/
def jumpA (s : State) (dst : Nat) : Out3 :=
  .next { s with sh := { s.sh.moved with apc := BitVec.ofNat 56 dst, pcHi := BitVec.ofNat 8 (dst / 2 ^ 56), endDue := none, nA := s.sh.nA + 1 } }

/-- The value of an A-class instruction written, and the instruction completed. -/
def writeA (s : State) (d : Fin 64) (v : Word) : Out3 := doneA { s with sh := s.sh.xset d v }

/-! ## Pending registers (R24, R118) -/

/-- Why the A-pipe waits for some registers: an X-class instruction that has not issued, or a value that will come. -/
def aBlocked (s : State) (rs : List RegId) : Option Wait :=
  let q := s.sh.pendingQ
  let f := s.sh.pendingF s.co.cycle
  if rs.any (fun r => q.contains r) then some .onX
  else if rs.any (fun r => f.contains r) then some .other
  else if rs.any (fun r => match r with
    | .x n => s.co.xReturning s.sh.pos n
    | r => s.co.loads.any (fun l => l.pos == s.sh.pos && l.busy.contains r)) then some .other
  else none

/-- An A-class instruction: it waits for its guard, has no effect when the guard fails, and waits for the registers it
reads and writes (R14, R24, R86, R118). -/
def aInstr (h : Hd) (rs : List RegId) (s : State) (body : State → Out3) : Out3 :=
  match aBlocked s (guard1 h) with
  | some w => waitA s w
  | none =>
    if s.sh.guard h then
      match aBlocked s rs with
      | some w => waitA s w
      | none => body s
    else doneA s

/-- Scalar registers as register names; x0 is always ready. -/
def xs (l : List (Fin 64)) : List RegId := l.flatMap xDst

/-- The word of `Shuttle.spois` of a state register (R328). -/
def SReg.poisonNo : SReg → Option Nat
  | .vlen => some 3
  | .vtype => some 4
  | .vstart => some 5
  | .redst => some 6
  | .fill => some 7
  | .sat => some 100
  | .fflags => some 101
  | .rnd => some 102
  | .frm => some 103
  | .ccurLo => some 9
  | .ccurHi => some 10
  | .xcurLo => some 11
  | .xcurHi => some 12
  | .hcsum => some 13
  | .tvec => some 14
  | .tcause => some 15
  | .apc | .xpc | .wlbud => none

/-- The rounding mode, where a scalar shift rounds by it. -/
def rounds : Instr → List RegId
  | .sra _ true _ _ _ | .shi _ .srr _ _ _ => [.s 102]
  | _ => []

/-- The registers an A-class instruction reads once it executes: its guard and its sources (R335). -/
def aReads (i : Instr) : List RegId :=
  guard1 i.hd ++ rounds i ++ match i with
  | .add _ _ a b | .sub _ _ a b | .mul _ _ a b | .mulh _ _ _ a b | .div _ _ _ a b | .rem _ _ _ a b | .and _ _ a b | .or _ _ a b
  | .xor _ _ a b | .sll _ _ a b | .srl _ _ a b | .sra _ _ _ a b | .min _ _ _ a b | .max _ _ _ a b | .pcmp _ _ _ a b
  | .barInit _ a b | .barExp _ a b | .wlbWt _ a b | .xinvPg _ a b => xs [a, b]
  | .clz _ _ a | .ctz _ _ a | .popc _ _ a | .addi _ _ a _ | .andi _ _ a _ | .ori _ _ a _ | .xori _ _ a _ | .shi _ _ _ a _
  | .lih _ _ a _ | .pcmpi _ _ _ a _ | .br _ _ a _ | .ret _ a | .jr _ _ a | .loopx _ _ _ a _ | .ld _ _ _ _ _ a _ | .ldq _ _ _ _ a _
  | .ldqG _ _ a _ | .ldqX _ _ a | .tileStArm _ _ a _ | .wlb _ _ a | .hprog _ _ a | .hstatRd _ _ a | .hstatWt _ _ a | .hstatRel _ _ a
  | .hstatAbort _ _ a | .hcsumSet _ a | .tarm _ _ a | .swr _ _ a | .keyz _ a | .scrubSt _ a | .scrubRd _ _ a
  | .scrubWt _ a | .frqPop _ _ a => xs [a]
  | .sel _ _ a b e => .p e.val :: xs [a, b]
  | .hcsumChk _ _ a => .s 13 :: xs [a]
  | .loop _ im _ a _ => if im then [] else xs [a]
  | .st _ _ _ d a _ | .stnb _ _ d a _ | .red _ _ _ d a _ => xs [d, a]
  | .amo _ _ _ _ _ a b _ => xs [a, b]
  | .amocas _ _ _ d a b _ => xs [d, a, b]
  | .barArv _ n _ a b => xs (if n then [a, b] else [a])
  | .srd _ k _ => ((SReg.poisonNo k).map RegId.s).toList
  | .hcsumRd _ _ => [.s 13]
  | .hcopy _ _ _ bar _ _ d a b e _ _ | .hfab _ _ _ bar _ _ _ d a b e _ _ => xs (if bar then [d, a, b, e] else [a, b, e])
  | .hxfm _ _ bar _ d a _ _ => xs (if bar then [d, a] else [a])
  | _ => []

/-- An A-class instruction about to execute reads a poisoned scalar or predicate word (R334, R335): its guard's word alone when the guard
fails. A predicate register is read at element 0. -/
def aPoisoned (i : Instr) (s : State) : Bool :=
  !(s.sh.xpois.isEmpty && s.sh.ppois.isEmpty && s.sh.spois.isEmpty) && i.kind == .aClass && (aBlocked s (guard1 i.hd)).isNone &&
  (let rs := if s.sh.guard i.hd then aReads i else guard1 i.hd
   (aBlocked s rs).isNone && rs.any (fun r => match r with
     | .x n => s.sh.xpois.contains n
     | .p n => s.sh.ppois.contains (n, 0)
     | .s n => s.sh.spois.contains n
     | _ => false))

/-- Every issued X-class instruction has completed: in the cycle after the last one lands its flags stand (R37, R141). -/
def Shuttle.landAll (t : Shuttle) : Shuttle :=
  t.flight.foldl (fun t f => { t with fflags := t.fflags ||| f.fflags, sat := t.sat || f.sat }) { t with flight := [] }

/-- What has landed by a cycle. -/
def Shuttle.settle (t : Shuttle) (cycle : Nat) : Shuttle :=
  let done := t.flight.filter (fun f => f.lands < cycle)
  done.foldl (fun t f => { t with fflags := t.fflags ||| f.fflags, sat := t.sat || f.sat })
    { t with flight := t.flight.filter (fun f => cycle ≤ f.lands) }

/-- The cycle in which every write of the shuttle has landed. -/
def Shuttle.landedAt (t : Shuttle) (cycle : Nat) : Nat := t.flight.foldl (fun c f => Nat.max c (f.lands + 1)) cycle

/-- A pipe of the shuttle in focus may move: the shuttle runs, no trap and no save stands due, and its core is not halted but for a step of
this pipe (R37, R315, R342). -/
def pipeMoves (s : State) (isX : Bool) : Bool :=
  s.sh.status == .running && !s.co.haltDue && (!s.co.halted || s.co.stepping == some (s.sh.pos, isX)) && s.sh.due.isNone && s.sh.saveDue.isNone

/-! ## Ending a record -/

/-- A core emptied of its record: no shuttle is resident (R305). Command slots that are still held stay (R316). -/
def clearCore (s : State) (k : Nat) : State :=
  let c := s.core k
  let s1 := s.setCore { c with recId := none, shs := [], loads := [], tiles := [], owner := none, acqs := [], overHold := 0,
                               fa := Fifo.reset, fb := Fifo.reset, frUsed := 0, halted := false, haltDue := false, stepping := none, bpPass := [] }
  if k = s.co.id then { s1 with sh := { Shuttle.reset with pos := s.sh.pos } } else s1

/-- Every core that may hold a command. -/
def State.allCores (s : State) : List Core := s.co :: s.cores.map Prod.snd

/-- A slot of a core is that of a command of a shuttle; `pos` none: any of the record's shuttles. -/
def slotOf (c : Core) (id : Nat) (pos : Option Nat) (slot : Nat) : Bool :=
  (afind? c.cmds slot).any (fun m => m.recId == id && pos.all (fun p => m.pos == p))

/-- A write of an engine command of a shuttle, or of some shuttle of a record, is admitted and has yet to perform: in a write lane or in a
die's fabric write queue, whether or not the command's slot has been released (R224, R227, R295). -/
def cmdWrites (s : State) (id : Nat) (pos : Option Nat) : Bool :=
  let mine (q : Nat × Nat) : Bool := q.1 == id && pos.all (fun p => q.2 == p)
  s.allCores.any (fun c => c.entries.any (fun e => e.tags.any (fun q => slotOf c id pos q.1) || e.left.any mine)) ||
  s.dies.any (fun d => d.2.fabq.any (fun e => e.tag.any (fun q => slotOf (s.core q.1) id pos q.2.1) || e.left.any mine))

/-- Some shuttle of a record has been killed with an instruction that had issued and has yet to complete (R317). -/
def killedBusy (s : State) (r : Rec) : Bool :=
  (List.range r.k).any (fun p => match s.place? r.id p with
    | some f => (s.shuttle f).status == .killed && !(s.shuttle f).xq.isEmpty
    | none => false)

/-- Whether an access a record's shuttles or commands have admitted has yet to perform, on any core, an instruction that issued has yet to
complete, or its completion entry waits for a die under repair. -/
def recBusy (s : State) (id : Nat) : Bool :=
  s.allCores.any (fun c => c.recId == some id && c.entries.any (fun e => !(e.aBy.isEmpty && e.xBy.isEmpty))) ||
  cmdWrites s id none || ((s.rec? id).map (fun r => killedBusy s r || complHeld s r)).getD false

/-- A record completes (R301): its completion entry is written, its commands' slots and its core are freed. -/
def completeRec (s : State) (r : Rec) (status : Nat) : State :=
  let s1 := writeCompletion s r status
  let s2 := s1.allCores.foldl (fun s c => s.setCore { (s.core c.id) with cmds := (s.core c.id).cmds.filter (fun e => e.2.recId != r.id) }) s1
  let s3 := if (s2.core r.core).recId = some r.id then clearCore s2 r.core else s2
  { s3 with recs := s3.recs.filter (fun q => q.id != r.id) }

/-- The head of the X queue has issued and goes on by itself to its end (R317): not one that stands at a queue, an operand FIFO or the engine's
ownership, which nothing moves for it once its shuttle has stopped. DESIGN CHOICE (log entry 124). -/
def Shuttle.finishing (t : Shuttle) : Bool :=
  match t.xq with
  | [] => false
  | e :: _ =>
    match e.instr with
    | .vldq _ _ _ _ | .vpush _ _ _ _ _ | .mfill _ _ _ _ _ _ _ _ | .mownAcq _ _ => false
    | _ => t.xIss.isSome

/-- A shuttle killed (R317): it stops at once, and of its X queue only an instruction that has issued stays, to complete. -/
def Shuttle.kill (t : Shuttle) : Shuttle :=
  { t.landAll with status := .killed, xq := if t.finishing then t.xq.take 1 else [], due := none, saveDue := none }

/-- Heddle transfers of a record that still deliver to the operand FIFOs of its shuttles, by their tags, end with PERM status (R178). -/
def dropDeliveries (s : State) (id : Nat) (tags : List Nat) : State :=
  s.allCores.foldl (fun s b => (cmdsOf b id).foldl (fun s e =>
    if e.2.run && e.2.kind == .xfm && e.2.toFifo && (e.2.wrTo.isSome || tags.contains e.2.tag)
    then endCmdErr s b.id e.1 5 (if e.2.wrTo.isSome then e.2.chunkNo else e.2.firstOpen) none else s) s) s

/-- Ends the work of a shuttle at the matrix engine: its ownership, with both FIFOs emptied and unbound, and heddle
transfers that still deliver to them ended with PERM status (R178). -/
def dropEngine (s : State) (k pos : Nat) : State :=
  let c := s.core k
  if c.owner = some pos then
    let tags := (if c.fa.src = .heddle then [c.fa.tag] else []) ++ (if c.fb.src = .heddle then [c.fb.tag] else [])
    dropDeliveries (s.setCore { c with owner := none, overHold := 0, fa := Fifo.reset, fb := Fifo.reset }) (c.recId.getD 0) tags
  else s

/-- The shuttles of a record that have not ended are killed (R317), and what a heddle still delivers to their operand FIFOs, a saved one's
too, ends (R178). -/
def killShuttles (s : State) (r : Rec) : State :=
  (List.range r.k).foldl (fun s p =>
    match s.place? r.id p with
    | none => s
    | some f =>
      match (s.shuttle f).status with
      | .running | .waiting => dropEngine (s.setShuttle f.core (s.shuttle f).kill) f.core p
      | _ => s) (if r.kept = [] then s else dropDeliveries s r.id (r.kept.flatMap (fun k => k.tags)))

/-- The running commands of a record end with the error of a context kill (R225, R317). -/
def killCmds (s : State) (id : Nat) : State :=
  s.allCores.foldl (fun s c => (cmdsOf c id).foldl (fun s e => if e.2.run then endCmdErr s c.id e.1 2 0 none else s) s) s

/-- A record is killed or ends by a fault: its shuttles and commands stop, and it completes with a status once its
write-lane entries have performed (R317). One that ends already keeps its status. -/
def endRec (s : State) (id status : Nat) : State :=
  match s.rec? id with
  | none => s
  | some r =>
    match r.stat with
    | .ending _ => s
    | _ =>
      let s1 := killEntries (killCmds (killShuttles s r) id) r
      let r1 := { (s1.rec? id).getD r with stat := .ending status }
      let s2 := s1.setRec r1
      if recBusy s2 id then s2 else completeRec s2 r1 status

/-- The region of a record: as it was read, or as its handle now gives it while the record waits. -/
def regionOf (s : State) (r : Rec) : Option Region :=
  if r.stat = .waiting then
    match readRegion s r.pid r.handle with
    | (_, .ok g) => some g
    | _ => none
  else some r.region

/-- Whether two records share tenant and fault domain (R317). -/
def sameDomain (s : State) (a b : Rec) : Bool :=
  match regionOf s a, regionOf s b with
  | some g, some h => a.pid == b.pid && g.tenant == h.tenant && g.domain == h.domain
  | _, _ => false

/-- The shuttle in focus ends by a fault no handler takes (R317, R325): its record completes with status 5 and the other
records of its tenant and fault domain with status 4. -/
def faultEnd (s : State) : State :=
  let s1 := dropEngine { s with sh := { s.sh.landAll with status := .faulted, xq := [], due := none } } s.co.id s.sh.pos
  match s1.myRec? with
  | none => s1
  | some r =>
    let others := s1.recs.filter (fun q => q.id != r.id && sameDomain s1 q r)
    endRec (others.foldl (fun s q => endRec s q.id 4) s1) r.id 5

/-! ## Taking a trap (R325) and returning from one (R326) -/

/-- The low 64 bits of `tcause` for a fault (R20). -/
def tcauseOf (f : Flt) : Word := BitVec.ofNat 64 (f.detail % 2 ^ 32 * 2 ^ 32 + f.pipe.toNat * 2 ^ 16 + f.cause)

/-- The address of the frame of the current level in the record's home slot (R327). -/
def frameAddr (s : State) (level : Nat) : Nat :=
  let home := (s.myRec?.map (fun r => r.home)).getD 0
  areaBase s.region home s.sh.pos s.sh.lanes + level * 8192 * s.sh.lanes

/-- The shuttle as a trap leaves it (R325, steps 3 and 4): `tcause`, both counters at the handler, the level, x1 at the
frame, `vstart` and `ccur.hi` zero, queues empty, loop records inactive. -/
def Shuttle.enterTrap (t : Shuttle) (f : Flt) (frame : Nat) (pk : Parked) : Shuttle :=
  { t with
    tcause := tcauseOf f
    apc := BitVec.ofNat 56 t.tvec.toNat
    pcHi := BitVec.ofNat 8 (t.tvec.toNat / 2 ^ 56)
    level := t.level + 1
    x := t.x.set 1 (BitVec.ofNat 64 frame)
    xpois := t.xpois.filter (fun k => k != 1)
    spois := t.spois.filter (fun k => !([5, 10, 15].contains k))
    vstart := 0
    ccur := t.ccur &&& BitVec.ofNat 128 (2 ^ 64 - 1)
    xq := []
    dq := Vector.replicate 6 []
    rq := Vector.replicate 2 []
    loops := t.loops.map (fun l => { l with act := false })
    endSaved := (match t.endDue with | some a => a + 1 | none => 0) :: t.endSaved
    endDue := none
    parked := pk :: t.parked
    xProg := 0
    xLocs := []
    xIss := none
    cprog := none
    rqPois := []
    halting := false
    issueFrom := 0
    due := none
    aWait := .none
    xWait := .none }

/-- What stays with the device of an X queue that goes into a frame (R226). -/
def State.toPark (s : State) : Parked :=
  { nos := s.sh.xq.map (fun e => e.no), spans := numberedSpans s (inForce s) s.sh.xq, cmds := (s.myRec?.map (fun r => r.cmdNo)).getD 0 }

/-- Trap entry of the shuttle in focus, its pipes drained (R325). A fault with no handler, at level 2, or whose frame
cannot be written ends the shuttle. -/
def trapEntry (f : Flt) (s : State) : State :=
  let t := s.sh.landAll
  let s0 := { s with sh := t, co := { s.co with cycle := s.sh.landedAt s.co.cycle } }
  if t.tvec = 0 ∨ 2 ≤ t.level then faultEnd s0
  else
    let addr := f.at'.getD (if f.pipe then t.xpc else t.apc.toNat)
    let (s1, rc) := pushRecord s0 { core := s0.co.id, pos := t.pos } f addr
    let fr := frameAddr s1 t.level
    let (s2, ok) := devWrite s1 t.pid fr (frameSize t.lanes) (frameWords s1 0 rc.words)
    if ok then
      let s3 := { s2 with poison := joinL s2.poison (framePoison s2 fr) }
      { s3 with sh := s3.sh.enterTrap f fr s3.toPark }
    else faultEnd s2

/-- A fault with no address, index or level. -/
def flt (cause detail : Nat) (pipe : Bool) : Flt :=
  { cause := cause, detail := detail, pipe := pipe, va := 0, index := 0, pa := 0, level := 0, source := 0, pushed := false }

/-- The frame a trap of the shuttle in focus would write lies in a die under repair (R377). -/
def frameHeld (s : State) : Bool :=
  s.sh.tvec != 0 && decide (s.sh.level < 2) && devHeldBy s s.co.id s.sh.pid (frameAddr s s.sh.level) (frameSize s.sh.lanes)

/-- A fault is taken, or stands due until every value an atomic returns to the shuttle has come (R35 to R37) and its frame waits for no die
under repair. An ECC fault is counted by the core's die (R336). -/
def takeFault (f : Flt) (s0 : State) : Out3 :=
  let s := if f.cause = cECC then countErr s0 (dieOf s0.co.id) 6 else s0
  if s.co.returning s.sh.pos || frameHeld s then .next { s with sh := { s.sh.moved with due := some f } }
  else .next (trapEntry f s)

/-- The head of the X queue is not part-way any more. -/
def Shuttle.unissued (t : Shuttle) : Shuttle := { t with xProg := 0, xLocs := [], xIss := none }

/-- An X-class fault (R35). A column instruction under way keeps what it has done (R201). A shuttle that has been killed takes none: the
instruction it was completing has ended (R317). -/
def faultX (f : Flt) (s : State) : Out3 :=
  if s.sh.status = .killed then .next { s with sh := { s.sh with xq := [] } }
  else takeFault { f with pipe := true } { s with sh := s.sh.stopCol.unissued }

/-- An A-class fault: reported once every X-class instruction dispatched before has completed (R36). -/
def faultA (f : Flt) (s : State) : Out3 :=
  if s.sh.xq = [] then takeFault { f with pipe := false } s else waitA s .onX

/-- A-class and X-class faults by cause and detail. -/
def raiseA (cause detail : Nat) (s : State) : Out3 := faultA (flt cause detail false) s
def raiseX (cause detail : Nat) (s : State) : Out3 := faultX (flt cause detail true) s

/-- What still holds up a return: an X-class instruction that has not completed, as it would a `fence`, else an access that has not read or
performed, or a frame in a die under repair (R129, R326, R377). -/
def returnWait (s : State) : Option Wait :=
  if !s.sh.xq.isEmpty then some .onX
  else if s.co.outstanding s.sh.pos || devHeldBy s s.co.id s.sh.pid (frameAddr s (s.sh.level - 1)) (frameSize s.sh.lanes) then some .other
  else none

/-- The return from a trap (R326): with level 0 refused (R242), after every access the frame one level down is restored. A
misaligned target raises ALIGN 2 with no effect (R73); a frame that cannot be read ends the shuttle. -/
def trapReturn (s : State) : Out3 :=
  let t := s.sh
  if t.level = 0 then raiseA cPERM 10 s
  else if let some w := returnWait s then waitA s w
  else
    let fr := frameAddr s (t.level - 1)
    match frameReader s t.pid fr (frameSize t.lanes) with
    | (s1, none) => .next (faultEnd s1)
    | (s1, some rd) =>
      if rd 8 % 8 ≠ 0 then raiseA cALIGN 2 s1
      else
      match restoreFrame s1.feature s1.sh.landAll s1.co.cycle false rd with
      | none => .fault .unscannedWord
      | some t1 =>
        .next { s1 with
          sh := { ((t1.numbered (t.parked.headD default).nos).poisonedBy (frameBad s1 fr)).moved with
            parked := t.parked.tail
            level := t.level - 1
            nA := t.nA + 1
            endDue := (match t.endSaved with | [] => none | k :: _ => if k ≠ 0 ∧ t1.apc.toNat = k + 7 then some (k - 1) else none)
            endSaved := t.endSaved.tail
            xProg := 0
            xLocs := []
            xIss := none
            cprog := none } }

/-! ## Saving a shuttle (R40, R315, R327) -/

/-- The instructions of the column unit, and of the reed's `cjoin`, that R219 lets stop between output elements. -/
def columnRuns : Instr → Bool
  | .cld _ _ _ _ _ _ | .cldSt _ _ _ _ | .csel _ _ _ _ _ _ _ _ | .cselp _ _ _ _ _ _ _ _ | .cgath _ _ _ _ _ _ | .cscat _ _ _ _ _ _
  | .cjoin _ _ _ _ _ _ _ | .csort _ _ _ _ _ _ | .cgrp _ _ _ _ _ | .cagg _ _ _ _ _ _ _ _ | .cuniq _ _ _ _ _ _
  | .cres _ _ _ _ _ _ _ _ _ | .cvecLd _ _ _ _ _ | .cvecApp _ _ _ _ _ => true
  | _ => false

/-- A stop part-way between elements (R174, R219): `vstart` takes the first element not done. A `mown.acq` gives up its place and issues anew.
Every other instruction completes once it has issued. -/
def Shuttle.stopPart (t : Shuttle) : Shuttle :=
  match t.xq with
  | [] => t
  | e :: _ =>
    match e.instr with
    | .vld _ _ _ _ _ | .vlds _ _ _ _ _ _ | .vst _ _ _ _ _ | .vsts _ _ _ _ _ _ | .vldq _ _ _ _ | .vpush _ _ _ _ _ =>
      if t.xIss.isSome then { t.unissued with vstart := BitVec.ofNat 13 (Nat.max t.startAt t.xProg) } else t
    | .mownAcq _ _ => t.unissued
    | i => if columnRuns i then t.stopCol else t

/-- The head of the X queue is part-way and cannot stop there (R174, R189, R219, R296). -/
def Shuttle.midway (t : Shuttle) : Bool := t.stopPart.xIss.isSome

/-- A vector file with registers that a save leaves out read as zero: `keep` decides. -/
def Shuttle.maskV (t : Shuttle) (keep : Nat → Bool) : Shuttle :=
  { t with v := Vector.ofFn (fun j : Fin 64 => if keep j.val then t.v[j] else 0) }

/-- The shuttle as a save between element groups takes it (R40): vector registers marked dirty, and of those the elements
below `vlen`, numbered by `vtype`. -/
def Shuttle.maskDirty (t : Shuttle) : Shuttle :=
  let e := t.et
  let E := t.eper e
  { t with v := Vector.ofFn (fun j : Fin 64 =>
      if t.vdirty.getLsbD j.val then
        let base := j.val % t.grp * E
        (List.range E).foldl (fun b k => if base + k < t.vlen.toNat then b else putBits b (t.elemOff e k) e.bits 0) t.v[j]
      else 0) }

/-- A run as its 4 words of 32 bytes (R327). -/
def FRun.words (r : FRun) : List Nat :=
  let b := (r.codes.mapIdx (fun k c => c * 2 ^ (16 * k))).sum
  [b % 2 ^ 64, b / 2 ^ 64, r.scale + r.poison.toNat * 2 ^ 16, 0]

/-- A run from its words. -/
def FRun.ofWords (w : List Nat) : FRun :=
  let b := w.getD 0 0 + w.getD 1 0 * 2 ^ 64
  { codes := (List.range 8).map (fun k => bitsAt b (16 * k) 16), scale := bitsAt (w.getD 2 0) 0 16, poison := bitAt (w.getD 2 0) 16 }

/-- Owner, bindings and tags as words (R327, log entry 22): owner plus one, then for each FIFO its source and type, tag and length. -/
def engineWords (c : Core) (pos : Nat) : List Nat :=
  let f (q : Fifo) : List Nat := [q.src.code + 256 * q.ty.code, q.tag, q.runs.length]
  (if c.owner = some pos then pos + 1 else 0) :: f c.fa ++ f c.fb

/-- A reed descriptor with its reserved bits zero, as they read (R3, R237), and bits [63:56] of word 1 with them, which R237 gives to no field.
DESIGN CHOICE (log entry 125). -/
def reedMask (d : List Byte) : List Byte :=
  d.mapIdx (fun k b =>
    let o := k % 32
    if o = 7 then b &&& 0xC0 else if o = 15 ∨ 24 ≤ o then 0 else b)

/-- The core area of a save slot (R327): owner, bindings, runs, reed descriptor of the shuttle. -/
def coreAreaWords (s : State) : List (Nat × Nat) :=
  let t := s.sh
  let c := s.co
  let base := 0x1000000
  (if c.owner = some t.pos then
    layWords base (engineWords c t.pos) ++
    (c.fa.runs.mapIdx (fun k r => layWords (base + 0x10000 + 32 * k) r.words)).flatten ++
    (c.fb.runs.mapIdx (fun k r => layWords (base + 0x50000 + 32 * k) r.words)).flatten
   else []) ++
  layWords (base + 0xD0000 + 64 * t.pos) (if t.reed = [] then [] else blockOf t.reed)
where
  /-- The 8 words of 64 bytes. -/
  blockOf (b : List Byte) : List Nat := (List.range 8).map (fun k => leNat ((b.drop (8 * k)).take 8))

/-- The tiles and tile-table entries granted to a shuttle: their first number (R306). -/
def Shuttle.firstTile (t : Shuttle) : Nat := 8 * t.lanes * t.pos

/-- A tile-table entry, and an accumulator tile, are granted to the shuttle in focus (R9, R306). -/
def entGranted (t : Shuttle) (k : Nat) : Bool := decide (t.firstTile ≤ k ∧ k < t.firstTile + t.nEnts)
def tileGranted (t : Shuttle) (k : Nat) : Bool := decide (t.firstTile ≤ k ∧ k < t.firstTile + t.nTiles)

/-- A core's tile. -/
def Core.tile (c : Core) (k : Nat) : Tile := aget Tile.reset c.tiles k
def Core.setTile (c : Core) (k : Nat) (t : Tile) : Core := { c with tiles := aput c.tiles k t }

/-- A tile as its words. -/
def Tile.words (t : Tile) : List Nat := if t.data = 0 then [] else (List.range 4096).map (fun k => bitsAt t.data.toNat (64 * k) 64)

/-- Whole lines copied from one place to another with their poison (R334). -/
def copyLines (s : State) (src dst n : Nat) : State :=
  let bad := (s.poison.filter (fun l => src ≤ l && l < src + n)).map (fun l => l - src + dst)
  let s1 := s.putPoison (s.poison.filter (fun l => !(dst ≤ l && l < dst + n)))
  { s1 with mem := s1.mem.copy src dst n, poison := joinL s1.poison bad }

/-- A range copied into pieces of another, page by page. -/
def copyInto (s : State) (src va : Nat) (ps : List (Nat × Nat × Nat)) : State :=
  ps.foldl (fun s p => copyLines s (src + (p.1 - va)) p.2.2 p.2.1) s

/-- Where a save slot holds the band scales of a shuttle's tiles, a word each (R315): the offset in its area for one lane. R327 gives them no
place. DESIGN CHOICE (log entry 99). -/
def scalesOff : Nat := 393216

/-- The shuttle in focus saved into its record's save slot; `mode` 0: at a yield point (live registers, R145), 2: between
element groups (dirty registers, R40). False when the slot cannot be written. -/
def saveShuttle (s : State) (mode : Nat) : State × Bool :=
  match s.myRec? with
  | none => (s, false)
  | some r =>
    match r.save with
    | none => (s, false)
    | some slot =>
      let s := meetLatent s r.id s.sh.pos (nearKey s.co.id (s.sh.pos * s.sh.lanes * 49152)) (49152 * s.sh.lanes)
      let t0 := s.sh.landAll
      let live (n : Nat) : Bool := bitAt (bitsAt t0.vtype.toNat 16 8) (n / 8)
      let kept (n : Nat) : Bool := if mode = 2 then t0.vdirty.getLsbD n else live n
      let t := { if mode = 2 then t0.maskDirty else t0.maskV live with vpoison := t0.vpoison.filter (fun q => kept q.1) }
      let s0 := { s with sh := t, co := { s.co with cycle := s.sh.landedAt s.co.cycle } }
      let L := t.lanes
      let area := areaBase r.region slot t.pos L
      let prog := layWords (frameSize L) ((List.range 16).map (fun k => t.prog.getD (2 * k) 0 + t.prog.getD (2 * k + 1) 0 * 2 ^ 32))
      let w1 := frameWords s0 1 [] ++ prog.map (fun w => (w.1, BitVec.ofNat 64 w.2))
      let (s1, ok1) := devWrite s0 t.pid area (8192 * L) w1
      let s1 := { s1 with poison := joinL s1.poison (framePoison s1 area) }
      match devSpan s1 t.pid .write 30 (area + 8192 * L) (49152 * L) with
      | (s2, none) => (s2, false)
      | (s2, some ps) =>
        let s3 := copyInto s2 (nearKey s.co.id (t.pos * L * 49152)) (area + 8192 * L) ps
        let tw := ((List.range t.nTiles).map (fun k => layWords (32768 * k) (s.co.tile (t.firstTile + k)).words)).flatten
        let (s4, ok2) := devWrite s3 t.pid (area + 57344 * L) (32768 * t.nTiles) (tw.map (fun w => (w.1, BitVec.ofNat 64 w.2)))
        let ew := (List.range t.nEnts).map (fun k => (8 * k, (s.co.tent (t.firstTile + k)).word))
        let (s5, ok3) := devWrite s4 t.pid (area + 319488 * L) (8 * t.nEnts) ew
        let sw := (List.range t.nTiles).map (fun k => (8 * k, (s.co.tile (t.firstTile + k)).scale.zeroExtend 64))
        let (s5, ok5) := devWrite s5 t.pid (area + scalesOff * L) (8 * t.nTiles) sw
        let tiles (k : Nat) : Tile := s.co.tile (t.firstTile + k)
        let bad := spanLines s5 t.pid (area + 57344 * L) (32768 * t.nTiles) ((List.range t.nTiles).flatMap (fun k =>
            ((tiles k).pois.filter (fun w => decide (w < 4096))).map (fun w => 32768 * k + 8 * w))) ++
          spanLines s5 t.pid (area + scalesOff * L) (8 * t.nTiles) (((List.range t.nTiles).filter (fun k => (tiles k).pois.contains 4096)).map (fun k => 8 * k)) ++
          spanLines s5 t.pid (area + 319488 * L) (8 * t.nEnts) (((List.range t.nEnts).filter (fun k => (s.co.tent (t.firstTile + k)).bad)).map (fun k => 8 * k))
        let s5 := { s5 with poison := joinL s5.poison bad }
        let cw := coreAreaWords s0
        let (s6, ok4) := cw.foldl (fun (a : State × Bool) w =>
          let (s', b) := devPut a.1 t.pid (slotBase r.region slot + w.1) (BitVec.ofNat 64 w.2)
          (s', a.2 && b)) (s5, true)
        let kept : Kept := { pos := t.pos, frq := t.frq, lost := t.lost, dirty := t.vdirty,
                             owned := s.co.owner = some t.pos, reed := !t.reed.isEmpty
                             endDue := t.endDue, endSaved := t.endSaved, nA := t.nA, nX := t.nX, nWait := t.nWait
                             nD := t.nD, parked := t.parked, budgetDue := t.budgetDue, nos := t.xq.map (fun e => e.no), tags := [s.co.fa, s.co.fb].filterMap (fun q => if q.src = .heddle then some q.tag else none)
                             spans := numberedSpans s (inForce s) t.xq }
        let s7 := s6.setRec { r with kept := kept :: r.kept.filter (fun k => k.pos != t.pos) }
        let co := if s7.co.owner = some t.pos then { s7.co with owner := none, fa := Fifo.reset, fb := Fifo.reset, overHold := 0 } else s7.co
        ({ s7 with co := { co with acqs := co.acqs.filter (fun p => p != t.pos) }
                   sh := { t with status := .saved, loops := t.loops.map (fun l => { l with act := false }), pre := none, preNos := [], saveDue := none, reach := [], xq := [], xProg := 0, xLocs := [], xIss := none, cprog := none, aWait := .none, xWait := .none } },
          ok1 && ok2 && ok3 && ok4 && ok5)

/-- The save slot of the record in focus lies in a die under repair (R377). -/
def slotHeld (s : State) : Bool :=
  match s.myRec? with
  | some r => (r.save.map (fun k => devHeldBy s s.co.id s.sh.pid (slotBase r.region k) 0x01400000)).getD false
  | none => false

/-- A pre-emption that is due is taken once every access of the shuttle's issued instructions and every write-lane entry
of it has performed (R297, R37); a save that cannot be written ends the shuttle as a frame's does. -/
def trySave (s : State) : Out3 :=
  match s.sh.saveDue with
  | none => .next s
  | some mode =>
    if s.co.outstanding s.sh.pos || slotHeld s then waitA s .other
    else
      match saveShuttle s mode with
      | (s1, true) => .next s1
      | (s1, false) => .next (faultEnd { s1 with sh := { s1.sh with status := .running } })

/-! ## Issue of an X-class instruction -/

/-- What an X-class instruction does when it is eligible: its effect, a wait at issue, or a fault. -/
inductive XOut where
  | done (s : State)
  | wait (w : Wait) (s : State)
  /-- It has issued, or has done a part, and waits to go on. -/
  | part (w : Wait) (s : State)
  | fault (f : Flt) (s : State)

/-- A register lies in a shadow in a cycle, for an instruction (R29, R31); `z`: the tile an `mma` writes, which an earlier
`mma` on it does not count against (R185). -/
def Shuttle.shadowed (t : Shuttle) (cycle : Nat) (z : Option Nat) (r : RegId) : Bool :=
  t.flight.any (fun f => cycle ≤ f.lands && f.dests.contains r &&
    !(z.isSome && f.mma == z && (match z with | some k => r == .z k | none => false)))

/-- Registers an issued X-class instruction has yet to fill: the group of a `fas`, and those of a vector load that reads later (R33, R125,
R153). -/
def busyV (s : State) : List RegId :=
  s.co.loads.flatMap (fun l => if l.pos = s.sh.pos then l.busy else []) ++
  s.co.entries.flatMap (fun e => match e.atom with
    | some (_, _, _, .fas p et d _) => if p = s.sh.pos then (List.range (Nat.max 1 (s.sh.grp * et.bits / s.sh.et.bits))).map (fun k => .v (d + k)) else []
    | _ => [])

/-- Scalar sources of the head of the X queue that are bound (R23). -/
def Shuttle.boundRegs (t : Shuttle) : List RegId :=
  match t.xq with
  | [] => []
  | e :: _ => [e.opA, e.opB, e.opC, e.opD].filterMap (fun o => match o with | .bound r => some (.x r) | _ => none)

/-- The instruction leaves the X queue: it has issued in the core's cycle. Bound operands of later entries read what it
wrote when they issue. -/
def Shuttle.retire (t : Shuttle) (cycle : Nat) : Shuttle :=
  { t.moved with xq := t.xq.tail, lastIssue := cycle, xProg := 0, xLocs := [], xIss := none, cprog := none, nX := t.nX + 1 }

/-- No flags: what an instruction raises is gathered apart from the flags that stand. -/
def Shuttle.noFlags (t : Shuttle) : Shuttle := { t with fflags := 0, sat := false }

/-- Flags raised joined to those that stood before. -/
def Shuttle.joinFlags (t b : Shuttle) : Shuttle := { t with fflags := b.fflags ||| t.fflags, sat := b.sat || t.sat }

/-- The number of a predicate register. -/
def RegId.pred? : RegId → Option Nat
  | .p n => some n
  | _ => none

/-- The elements of its predicate destination an element-wise instruction writes: the active ones, and of a completion mask all below `vlen`
(R93, R150). -/
def Shuttle.predWritten (b : Shuttle) (i : Instr) : List Nat :=
  match i with
  | .vldx _ _ _ _ _ _ _ _ _ => List.range b.vlen.toNat
  | i => b.acts i.hd

/-- Poisoned words of predicate registers of which a write covers every byte are poisoned no more (R334). -/
def Shuttle.cleanP (t b : Shuttle) (i : Instr) (dests : List RegId) : Shuttle :=
  if t.ppois = [] ∨ !elementWise i then t
  else
    let ps := dests.filterMap RegId.pred?
    let is := b.predWritten i
    { t with ppois := t.ppois.filter (fun q =>
        !(ps.contains q.1 && (List.range 64).all (fun k => is.contains (512 * (q.1 - ps.headD 0) + 64 * q.2 + k)))) }

/-- The spans of X-class accesses that have left the X queue and are not over, with that of the instruction at its head as it took its operands
(R128). -/
def State.leaves (s : State) (before : Shuttle) (i : Instr) : List (Nat × Int × Int) :=
  let left (no : Nat) : Bool := s.co.readsLeft before.pos no || s.co.writesLeft before.pos no
  let old := before.reach.filter (fun q => left q.1)
  match before.xq with
  | [] => old
  | e :: _ =>
    if xAccess i && left e.no then
      let b := { s with sh := before }
      old ++ (entrySpans b (inForce b) (before.resolve e)).map (fun q => (e.no, q))
    else old

/-- An issued instruction with its effect made on no flags: its destinations lie in their shadow, its flags land with them, its
unit is occupied (R29, R141, R172, R173). -/
def afterIssue (before : Shuttle) (i : Instr) (dests : List RegId) (tim : Option Tim) (s : State) : State :=
  let c := s.co.cycle
  let t := (s.sh.retire c).cleanP before i dests
  let lat := (tim.map (fun m => m.lat)).getD 0
  { s with
    sh := { t with
      reach := s.leaves before i
      fflags := if lat = 0 then before.fflags ||| t.fflags else before.fflags
      sat := if lat = 0 then before.sat || t.sat else before.sat
      flight :=
        if lat = 0 then t.flight
        else { dests := dests.filter (fun r => match r with | .c _ => false | _ => true), lands := c + lat - 1,
               fflags := t.fflags, sat := t.sat, mma := none } :: t.flight
      units := match tim with
        | some { unit := some u, occ := n, .. } => aput t.units u (c + n)
        | _ => t.units }
    co := { s.co with portFree := match tim with
      | some m => if usesTilePort i && m.occ != 0 then c + m.occ else s.co.portFree
      | none => s.co.portFree } }

/-- The tile an `mma` accumulates into. -/
def mmaTile : Instr → Option Nat
  | .mma _ _ _ _ z _ _ _ => some z.toNat
  | _ => none

/-- The first cycle in which the head of the X queue may issue (R30, R31, R33, R173, R185): its wait is over, and its unit, the tile
port, its tile and the engine are free. A part-way `mdrain` waits for neither the port it holds nor its own tile (R189). -/
def issueCycle (i : Instr) (s : State) : Nat :=
  let t := s.sh
  let unitAt := match xTiming t i with
    | some { unit := some u, .. } => aget 0 t.units u
    | _ => 0
  let portAt := if usesTilePort i && t.xProg == 0 then s.co.portFree else 0
  let tileAt := match tileOf? i with
    | some z => if t.xProg = 0 then aget 0 s.co.tileBusy z else 0
    | none => 0
  let engAt := if (mmaTile i).isSome then s.co.engFree else 0
  Nat.max (Nat.max s.co.cycle (t.issueAt i)) (Nat.max (Nat.max unitAt portAt) (Nat.max tileAt engAt))

/-- The fault of a poisoned register word read in an active element (R335). -/
def eccFlt (i : Nat) : Flt := { flt cECC 2 true with index := i }

/-- The predicate groups an element-wise instruction reads as operands. -/
def predSrcs : Instr → List (Fin 64)
  | .plog _ _ _ a b => [a, b]
  | .pcnt _ _ a | .pfirst _ _ a | .viota _ _ a => [a]
  | .vsel _ _ _ _ e => [e]
  | .vcompress _ _ _ b | .vexpand _ _ _ b => [b]
  | _ => []

/-- Whether element k of a predicate group lies in a word, by register and word. -/
def inPWord (a : Fin 64) (q : Nat × Nat) (k : Nat) : Bool := a.val + k / 512 == q.1 && k % 512 / 64 == q.2

/-- The first element of a predicate word an instruction reads: its guard for the elements from `vstart` on, or element 0 alone where it is
not element-wise; its operands for the active elements (R41, R335). -/
def Shuttle.readsPWord (t : Shuttle) (i : Instr) (q : Nat × Nat) : Option Nat :=
  let gd := i.hd.gd
  if elementWise i then
    (List.range t.vlen.toNat).find? (fun k =>
      (gd.val != 63 && decide (t.vstart.toNat ≤ k) && inPWord gd q k) ||
        ((t.acts i.hd).contains k && (predSrcs i).any (fun a => inPWord a q k)))
  else if gd.val != 63 && inPWord gd q 0 then some 0 else none

/-- Whether a vector instruction gives an active element a value of `fill`: a source element that lies before element 0, at or beyond `vlen`, or
past the end of a column (R15, R148, R163, R171, R217). -/
def Shuttle.readsFill (t : Shuttle) (i : Instr) : Bool :=
  let n := t.vlen.toNat
  let beyond (h : Hd) (src : Nat → Option Nat) : Bool := (t.acts h).any (fun k => match src k with
    | some j => decide (n ≤ j)
    | none => true)
  let nibble (h : Hd) : Bool := t.et == .f4 && (t.acts h).any (fun k => decide (n ≤ k / 2 * 2 + 1))
  match i with
  | .vslide h dn vi _ _ b imm =>
    let by' := if vi then imm.toNat else (t.srcB b).toNat
    beyond h (fun k => if dn then some (k + by') else if by' ≤ k then some (k - by') else none)
  | .vperm h t2 _ _ b => beyond h (fun k => some (t.elem b.val k t2))
  | .vbcastEl h _ _ b => beyond h (fun _ => some (t.srcB b).toNat)
  | .vmovx _ _ _ b => decide (n ≤ (t.srcB b).toNat)
  | .vst h _ _ _ _ | .vsts h _ _ _ _ _ | .vstx h _ _ _ _ _ _ _ => nibble h
  | .cvecLd h _ a b _ => beyond h (fun k => if (t.srcB b).toNat + k < bitsAt (t.cword a.val).toNat 36 20 then some 0 else none)
  | _ => false

/-- The column instructions that use the arena's extent. -/
def usesArena (i : Instr) : Bool :=
  columnRuns i || match i with
    | .cdefT _ _ _ _ _ | .clenArena _ _ => true
    | _ => false

/-- The state registers, by their words of `Shuttle.spois`, that an X-class instruction reads (R15, R17, R66, R199, R200, R207, R239). -/
def Shuttle.stateReads (t : Shuttle) (i : Instr) : List Nat :=
  (if elementWise i then [3, 4, 5] else []) ++ (if usesArena i then [26] else []) ++ (if t.readsFill i then [7] else []) ++
  match i with
  | .ccurRd _ _ => [9]
  | .xcurRdl _ _ => [11]
  | .xcurRdh _ _ => [12]
  | .xnext _ _ _ => [11, 12]
  | .cres _ _ _ _ _ _ _ _ _ => [9]
  | .vredo _ _ _ _ => if t.vstart = 0 then [] else [6]
  | _ => []

/-- The element, 0 for none, at which an X-class instruction that has not issued reads a poisoned scalar, descriptor or predicate word: a
captured source, a bound one, or a predicate word that holds an element it reads (R335). -/
def Shuttle.badAt (t : Shuttle) (i : Instr) (rs : List RegId) : Option Nat :=
  if (match t.xq with | e :: _ => !e.pois.isEmpty | [] => false) ||
    (!(t.xpois.isEmpty && t.spois.isEmpty) &&
      ((rs ++ t.boundRegs).any (fun r => match r with
        | .x n => t.xpois.contains n
        | .c n => t.spois.contains (27 + n)
        | _ => false) || (t.stateReads i).any (fun n => t.spois.contains n))) then some 0
  else (t.ppois.filterMap (t.readsPWord i)).foldl (fun b k => some ((b.getD k).min k)) none

/-- Issue of an X-class instruction by the X-pipe of the shuttle in focus (R22, R27, R30, R31, R33, R173, R185): in the first cycle
its wait, its unit, the tile port, its tile and the engine allow. One that waits has not issued and is not checked; one that would issue
raises SCHED when a register it names lies in a shadow, whether its guard passes or not; then a poisoned word it reads raises ECC (R335);
then it has its effect. What it takes then is fixed (R23, R141, R153, R197): a part-way instruction goes on with it. An instruction whose guard fails issues with no destination in a shadow: it writes nothing. DESIGN CHOICE (log
entry 100). -/
def xIssue (i : Instr) (s : State) (body : State → XOut) : Out3 :=
  let t := s.sh
  let tim := xTiming t i
  let z := mmaTile i
  let c := issueCycle i s
  let rw := xRegs t (t.vlmax t.et t.grp) i
  let s1 := { s with co := { s.co with cycle := c }, sh := t.settle c }
  let checked (r : Out3) : Out3 :=
    if (rw.r ++ t.boundRegs).any (t.shadowed c z) then raiseX cSCHED 1 s
    else if rw.w.any (t.shadowed c z) then raiseX cSCHED 2 s
    else r
  let bad := if t.xIss.isNone then t.badAt i rw.r else none
  let orBad (r : Out3) : Out3 := match bad with
    | some k => faultX (eccFlt k) s1
    | none => r
  if (rw.r ++ rw.w).any (fun r => (busyV s1).contains r) then waitX s1 .other
  else if t.xIss.isNone && !elementWise i && !t.guard i.hd then checked (.next (afterIssue s1.sh i [] none { s1 with sh := s1.sh.noFlags }))
  else
    match body { s1 with sh := s1.sh.noFlags } with
    | .wait w s2 => waitX { s2 with sh := s2.sh.joinFlags s1.sh } w
    | .part w s2 =>
      let act := if elementWise i then s1.sh.acts i.hd else []
      checked (orBad (waitX { s2 with sh := { s2.sh.joinFlags s1.sh with xIss := some (s1.sh.atIssue act) } } w))
    | .done s2 => checked (orBad (.next (afterIssue s1.sh i rw.w tim s2)))
    | .fault f s2 =>
      let t2 := s2.sh.joinFlags s1.sh
      checked (orBad (faultX f { s2 with sh := if f.pushed then t2.retire c else t2 }))

/-- An X-class instruction whose effect is on the shuttle alone. -/
def xPlain (i : Instr) (s : State) (f : Shuttle → Shuttle) : Out3 :=
  xIssue i s (fun s => .done { s with sh := f s.sh })

/-- A fault of an X-class effect by cause and detail. -/
def xFault (cause detail : Nat) (s : State) : XOut := .fault (flt cause detail true) s

/-- A fault found by a check (R111), at an address and element. -/
def chkFlt (cause detail level ea idx : Nat) (pipe : Bool) : Flt :=
  { flt cause detail pipe with va := ea, level := level, index := idx }

/-- A vector instruction that completes sets `vstart` to 0 (R15). -/
def Shuttle.vdone (t : Shuttle) : Shuttle := { t with vstart := 0, spois := t.spois.filter (fun k => k != 5) }

/-- A group base is a multiple of the group size (R13). -/
def aligned (n : Fin 64) (g : Nat) : Bool := n.val % g == 0

/-- The checks of R13 and R142 on a list of operands by their element types: ALIGN 5 for a group above 8, else ALIGN 1. -/
def Shuttle.groupCheck (t : Shuttle) : List (Fin 64 × EType) → Option Nat
  | [] => none
  | l =>
    if l.any (fun o => 8 < t.grp * o.2.bits / t.et.bits) then some 5
    else if l.any (fun o => !aligned o.1 (t.grp2 o.2)) then some 1
    else none

/-- A vector instruction that acts on the shuttle alone (R141, R142): refused with ALIGN 4 for a type it does not accept, then
for its operand groups, then ECC for a poisoned element it reads; else it completes. -/
def vecOp (i : Instr) (s : State) (ok : Shuttle → Bool) (groups : Shuttle → List (Fin 64 × EType))
    (reads : Shuttle → List (Nat × Nat × EType)) (f : Shuttle → Shuttle) : Out3 :=
  xIssue i s (fun s =>
    if !ok s.sh then xFault cALIGN 4 s
    else
      match s.sh.groupCheck (groups s.sh) with
      | some d => xFault cALIGN d s
      | none =>
        match s.sh.poisonRead (reads s.sh) with
        | some k => .fault (eccFlt k) s
        | none => .done { s with sh := f s.sh })

end Sys2Proof.Machine
end

