-- ==== Sys2Proof/Machine/Flags.lean ====
section
/-! DEFINITION. The flags instructions set (R18, R54, R55, R60): element operations with the flags they raise, for the
vector families. A result is a code with its flags (bit 5 is `sat`). -/

namespace Sys2Proof.Machine

/-- A code and its flags. -/
abbrev CF := Nat × Nat

/-- An integer result: wrapped, or saturated with `sat` (R155). -/
def intRes (t : EType) (s : Bool) (v : Int) : CF := if s then satInt t.signed t.bits v else (wrapInt v t.bits, 0)

/-- A floating sum rounded once (R143, R155). -/
def fAdd (t : EType) (rm : Rm) (a b : Nat) : CF :=
  let f := EType.fmt t
  let (x, fl) := FVal.add rm (f.val a) (f.val b)
  let (c, g) := f.arith rm x
  (c, fl ||| g)

/-- A floating difference rounded once. -/
def fSub (t : EType) (rm : Rm) (a b : Nat) : CF :=
  let f := EType.fmt t
  let (x, fl) := FVal.add rm (f.val a) (f.val b).negate
  let (c, g) := f.arith rm x
  (c, fl ||| g)

/-- A floating product rounded once. -/
def fMul (t : EType) (rm : Rm) (a b : Nat) : CF :=
  let f := EType.fmt t
  let (x, fl) := (f.val a).mul (f.val b)
  let (c, g) := f.arith rm x
  (c, fl ||| g)

/-- A × B ± C with one rounding (R59), operands of one type, the sum of a format. -/
def fFma (src dst : FFmt) (rm : Rm) (a b c : Nat) (neg : Bool) : CF :=
  let (p, fl) := (src.val a).mul (src.val b)
  let v := dst.val c
  let (x, g) := FVal.add rm p (if neg then v.negate else v)
  let (r, h) := dst.arith rm x
  (r, fl ||| g ||| h)

/-- Whether a code is a NaN of a format. -/
def FFmt.isNan (f : FFmt) (c : Nat) : Bool := f.val c == .nan

/-- The sign of a floating code. -/
def FFmt.neg (f : FFmt) (c : Nat) : Bool := f.sgn && bitAt c (f.eb + f.mb)

/-- The smaller of two floats, −0 below +0, canonical NaN if either is a NaN (R155). -/
def fMin (f : FFmt) (a b : Nat) : Nat :=
  if f.isNan a || f.isNan b then f.nanCode
  else if (f.val a).lt (f.val b) then a
  else if (f.val b).lt (f.val a) then b
  else if f.neg a then a else b

/-- The larger of two floats. -/
def fMax (f : FFmt) (a b : Nat) : Nat :=
  if f.isNan a || f.isNan b then f.nanCode
  else if (f.val a).lt (f.val b) then b
  else if (f.val b).lt (f.val a) then a
  else if f.neg a then b else a

/-- The condition of R162 on two codes of a type, with nv for an ordered comparison of a NaN. -/
def cond (k : VCond) (t : EType) (a b : Nat) : Bool × Nat :=
  match EType.kind t with
  | .int _ _ =>
    let x := EType.ival t a
    let y := EType.ival t b
    (match k with
      | .eq => x == y
      | .ne => x != y
      | .lt => decide (x < y)
      | .le => decide (x ≤ y)
      | .gt => decide (y < x)
      | .ge => decide (y ≤ x), 0)
  | .flt f =>
    if f.isNan a || f.isNan b then (k == .ne, if k == .eq || k == .ne then 0 else 16)
    else
      let x := f.val a
      let y := f.val b
      let lt := x.lt y
      let gt := y.lt x
      (match k with
        | .eq => !lt && !gt
        | .ne => lt || gt
        | .lt => lt
        | .le => !gt
        | .gt => gt
        | .ge => !lt, 0)

/-- Element results over active elements, in order, with their flags joined: each computed from the shuttle as it stood. -/
def elemMap (is : List Nat) (f : Nat → CF) : List (Nat × Nat) × Nat :=
  is.foldr (fun i (acc : List (Nat × Nat) × Nat) => let (v, g) := f i; ((i, v) :: acc.1, acc.2 ||| g)) ([], 0)

/-- The result written to the active elements and the flags raised; `vstart` set to 0 (R15, R141, R155). -/
def Shuttle.writeElems (t : Shuttle) (h : Hd) (d : Nat) (e : EType) (f : Nat → CF) : Shuttle :=
  let (l, g) := elemMap (t.actives h) f
  ((t.vwrites d e l).flag g).vdone

end Sys2Proof.Machine
end

