-- ==== Sys2Proof/Machine/Control.lean ====
section
/-! DEFINITION. Transfers of control and zero-overhead loops (R97 to R105), and the instructions that hold the pipes
together (R107 to R109). -/

namespace Sys2Proof.Machine

/-- The condition of a branch (R98). -/
def BrK.holds (k : BrK) (a : Word) : Bool :=
  match k with
  | .eqz => a == 0
  | .nez => a != 0
  | .ltz => a.msb
  | .gez => !a.msb

/-- The target of a displacement in words from the instruction's own address (R71). -/
def dispTarget (t : Shuttle) (disp : BitVec 32) : Nat := (t.apc.zeroExtend 64 + simm disp * 8).toNat

/-- A taken transfer that leaves the loop records it jumps out of (R104). -/
def leaveTo (s : State) (dst : Nat) : Out3 := jumpA { s with sh := s.sh.leaveLoops s.sh.apc.toNat dst } dst

/-- The address after the instruction, as a link (R98, R99). -/
def Shuttle.link (t : Shuttle) : Word := t.apc.zeroExtend 64 + 8

/-- `br`, R98. -/
def execBr (h : Hd) (k : BrK) (a : Fin 64) (disp : BitVec 32) (s : State) : Out3 :=
  aInstr h (xs [a]) s (fun s => if BrK.holds k (s.sh.xget a) then leaveTo s (dispTarget s.sh disp) else doneA s)

/-- `jmp`, R98. -/
def execJmp (h : Hd) (disp : BitVec 32) (s : State) : Out3 :=
  aInstr h [] s (fun s => leaveTo s (dispTarget s.sh disp))

/-- `call`, R98: it leaves loop records as they are (R104). -/
def execCall (h : Hd) (d : Fin 64) (disp : BitVec 32) (s : State) : Out3 :=
  aInstr h (xs [d]) s (fun s => jumpA { s with sh := s.sh.xset d s.sh.link } (dispTarget s.sh disp))

/-- `ret`, R99. -/
def execRet (h : Hd) (a : Fin 64) (s : State) : Out3 :=
  aInstr h (xs [a]) s (fun s =>
    let t := (s.sh.xget a).toNat
    if t % 8 ≠ 0 then raiseA cALIGN 2 s else leaveTo s t)

/-- `jr`, R99: the target is read before the link is written. -/
def execJr (h : Hd) (d a : Fin 64) (s : State) : Out3 :=
  aInstr h (xs [d, a]) s (fun s =>
    let t := (s.sh.xget a).toNat
    if t % 8 ≠ 0 then raiseA cALIGN 2 s else leaveTo { s with sh := s.sh.xset d s.sh.link } t)

/-- Loop records with another counter's record started as the newest: active records keep their order from 0 up (R101, R105). -/
def startLoop (ls : Vector LoopRec 3) (k : Fin 3) (r : LoopRec) : Vector LoopRec 3 :=
  let rank (j : Fin 3) : Nat :=
    ((List.finRange 3).filter (fun m => m != k && m != j && ls[m].act && decide (ls[m].seq < ls[j].seq))).length
  let others := ((List.finRange 3).filter (fun m => m != k && ls[m].act)).length
  Vector.ofFn (fun j : Fin 3 =>
    if j = k then { r with seq := others } else if ls[j].act then { ls[j] with seq := rank j } else ls[j])

/-- What `loop` and `loopx` do with a count (R101, R102): a count of 0 skips the body and ends the counter's record.
Going on to the word after it, with the record it starts, is no falling through: where the instruction is itself the end word of another active
record, that record is not tested. DESIGN CHOICE (log entry 110). -/
def loopStart (s : State) (k : Fin 3) (kind : Bool) (pred : Nat) (n : BitVec 32) (disp : BitVec 32) : Out3 :=
  let t := s.sh
  if n = 0 then
    jumpA { s with sh := { t.wash [17 + k.val] with lc := t.lc.set k 0, loops := t.loops.set k { t.loops[k] with act := false } } } (dispTarget t disp)
  else
    let r : LoopRec := { act := true, kind := kind, pred := pred, seq := 0, len := disp.toNat - 1, start := t.apc.toNat + 8 }
    .next { s with sh := { t.moved.wash [17 + k.val, 20 + 2 * k.val, 21 + 2 * k.val] with lc := t.lc.set k n, loops := startLoop t.loops k r, apc := t.apc + 8, pcHi := BitVec.ofNat 8 ((t.apc.toNat + 8) / 2 ^ 56), endDue := none, nA := t.nA + 1 } }

/-- The counter a field names. -/
def loopNo (n : Nat) : Fin 3 := ⟨n % 3, Nat.mod_lt _ (by decide)⟩

/-- `loop`, R101. -/
def execLoop (h : Hd) (im : Bool) (d a : Fin 64) (disp : BitVec 32) (s : State) : Out3 :=
  aInstr h (if im then [] else xs [a]) s (fun s =>
    loopStart s (loopNo d.val) false 63 (if im then BitVec.ofNat 32 a.val else (s.sh.xget a).truncate 32) disp)

/-- `loopx`, R102. -/
def execLoopx (h : Hd) (k : BitVec 2) (d a : Fin 64) (disp : BitVec 32) (s : State) : Out3 :=
  aInstr h (xs [a]) s (fun s => loopStart s (loopNo k.toNat) true d.val ((s.sh.xget a).truncate 32) disp)

/-- LOOP_END, R103: the test of the newest record that ends at the word just fallen through; a record that ends hands over to
the next one ending there. It waits while the predicate it tests is pending, and the counter counts down with the test, once that wait is over:
the rule writes the count first, and no instruction of the shuttle runs between. DESIGN CHOICE (log entry 115). An A-pipe that may not move
does nothing. -/
def execLoopEnd (s : State) : Out3 :=
  let t := s.sh
  match if pipeMoves s false then t.endDue else none with
  | none => .next s
  | some a =>
    match t.loopAt a with
    | none => .next { s with sh := { t.moved with endDue := none } }
    | some (k, r) =>
      match if r.kind then aBlocked s [.p r.pred] else none with
      | some w => waitA s w
      | none =>
        let n := t.lc[k] - 1
        let c := if r.kind then (t.preg r.pred).getLsbD 0 else true
        let lc := t.lc.set k n
        if n ≠ 0 ∧ c then .next { s with sh := { t.moved with lc := lc, apc := BitVec.ofNat 56 r.start, pcHi := 0, endDue := none } }
        else
          let t1 := { t.moved with lc := lc, loops := t.loops.set k { r with act := false } }
          .next { s with sh := { t1 with endDue := if (t1.loopAt a).isSome then some a else none } }

/-- A tile of the shuttle in focus that a drain of it still reads is busy (R33, R189). -/
def drainsTile (s : State) : Bool := s.co.tileBusy.any (fun q => tileGranted s.sh q.1 && decide (s.co.cycle < q.2))

/-- Every dispatched X-class instruction has issued and landed, and no mark remains (R107). -/
def marksClear (s : State) : Bool :=
  s.sh.xq.isEmpty && (s.sh.pendingF s.co.cycle).isEmpty && (s.sh.flight.all (fun f => f.lands < s.co.cycle)) && !s.co.returning s.sh.pos &&
    !drainsTile s

/-- `xsync`, R107. -/
def execXsync (h : Hd) (s : State) : Out3 :=
  aInstr h [] s (fun s =>
    if s.sh.xq ≠ [] then waitA s .onX else if marksClear s then doneA { s with sh := s.sh.settle s.co.cycle } else waitA s .other)

/-- `xsync.i`, R107. -/
def execXsyncI (h : Hd) (s : State) : Out3 :=
  aInstr h [] s (fun s => if s.sh.xq ≠ [] then waitA s .onX else doneA s)

/-- `xnop`, R108: the next X-class instruction issues no earlier than n + 1 cycles after it. -/
def execXnop (h : Hd) (n : BitVec 16) (s : State) : Out3 :=
  xIssue (.xnop h n) s (fun s => .done { s with sh := { s.sh with issueFrom := s.co.cycle + n.toNat + 1 } })

/-- `nop`, R109. -/
def execNop (h : Hd) (s : State) : Out3 := aInstr h [] s doneA

end Sys2Proof.Machine
end

