-- ==== Sys2Proof/Machine/Span.lean ====
section
/-! DEFINITION. The A-class access (R111, R126), its order after the spans of X-class accesses that come before it (R128), and what the head of
the X queue comes after (R126). -/

namespace Sys2Proof.Machine

/-! ## Ports -/

/-- The port an address reaches: by its window, the installed translation or the walk (R110); none where it reaches none. -/
def eaPort (s : State) (ea : Nat) : Option Port :=
  match windowOf ea with
  | .none => none
  | .near => some .ns
  | .cluster => some .cs
  | .xlat =>
    match s.tlb.find? (fun t => t.covers s.sh.pid ea) with
    | some t => some (portOf (t.pa + ea % 2 ^ t.bits))
    | none =>
      match walkOf s s.sh.pid ea with
      | .ok (_, e, lv) => some (portOf (bitsAt e 16 40 * 2 ^ 16 + ea % 2 ^ pageBits lv))
      | .error _ => none

/-- Whether some address of a span reaches a port; one beyond 4 GiB may reach any. -/
def spanReaches (s : State) (p : Port) (q : Int × Int) : Bool :=
  decide (2 ^ 32 < q.2 - q.1) || (List.range ((q.2 - q.1).toNat / 65536 + 2)).any (fun k =>
    eaPort s (Min.min (q.1 + 65536 * k) q.2 % 2 ^ 64).toNat == some p)

/-! ## After the X-class accesses that come before -/

/-- The known spans of X-class accesses that have left the X queue and are still to read, or for a read that follows also to perform (R128). -/
def reachLeft (s : State) (rd : Bool) : List (Nat × Int × Int) :=
  s.sh.reach.filter (fun q => s.co.readsLeft s.sh.pos q.1 || (rd && s.co.writesLeft s.sh.pos q.1))

/-- An access of n bytes at an effective address touches a line of the span of an X-class access that it comes after: one that has not issued,
has yet to read, or, where the access reads, has yet to perform (R128). -/
def spanMet (s : State) (rd : Bool) (ea n : Nat) : Bool :=
  (queueSpans s (inForce s) s.sh.xq).any (fun p => touches p ea n) || (reachLeft s rd).any (fun q => touches q.2 ea n)

/-- Whether a queued X-class read whose place among the reads of its port is fixed may reach a port (R126, R285). -/
def queueReads (s : State) (p : Port) : InForce → List XEntry → Bool
  | _, [] => false
  | f, e :: r => (xReads e.instr && (entrySpans s f e).any (spanReaches s p)) || queueReads s p (f.after e.instr) r

/-- A load of the shuttle in focus is under way at a port: the reads of one port read in program order, and before any later write is
admitted (R126); those of a `vldx` have no such place (R128, R285). -/
def loadMet (s : State) (p : Port) : Bool := s.co.loads.any (fun l => l.pos == s.sh.pos && portOf l.key == p && !l.free)

/-- An A-class access of n bytes at an effective address, with its port, waits for an X-class access of its shuttle that it comes after (R126,
R128). -/
def spanBlocked (s : State) (rd : Bool) (ea n : Nat) (p : Port) : Bool := spanMet s rd ea n || queueReads s p (inForce s) s.sh.xq

/-- An A-class access of n bytes (R111, R126, R128): the checks in order, a wait for a die under repair or a scan, a wait for
X-class accesses whose span it touches and for earlier reads of its port, else its effect at the place found. `rd`: it reads. -/
def accessA (s : State) (ea n : Nat) (acc : Acc) (rd : Bool) (k : State → Loc → Out3) : Out3 :=
  match check s s.who ea n acc false true with
  | (s1, .bad c d l) => faultA (chkFlt c d l ea 0 false) s1
  | (s1, .hold) => waitA s1 .other
  | (s1, .ok l) => if loadMet s1 (portOf l.key) || spanBlocked s1 rd ea n (portOf l.key) then waitA s1 .other else k s1 l

/-- A load that starts and reads later (R118, R126, R283): its address is checked and what it fills is taken; its place among the reads of its
port is kept until it reads. A group reads line by line (R286), with the byte of the group each line starts at. -/
def startA (s : State) (ea n : Nat) (dst : Nat → LDst) (take : State → Nat → State) : Out3 :=
  match check s s.who ea n .read false true with
  | (s1, .bad c e l) => faultA (chkFlt c e l ea 0 false) s1
  | (s1, .hold) => waitA s1 .other
  | (s1, .ok l) =>
    if spanBlocked s1 true ea n (portOf l.key) then waitA s1 .other
    else
      let no := s1.co.loadNo + 1
      let new : List Load := (List.range (ceilDiv n 64)).map (fun k =>
        { pos := s1.sh.pos, no := no, dst := dst (64 * k), busy := [], key := l.key + 64 * k, size := Nat.min 64 (n - 64 * k), free := false
          after := s1.sh.nD })
      doneA (take { s1 with co := { s1.co with loads := s1.co.loads ++ new, loadNo := no } } no)

/-- A read of n bytes by the A-pipe: it waits while an entry of its core's queues covers its lines (R126). -/
def readA (s : State) (ea n : Nat) (k : State → Nat → Out3) : Out3 :=
  accessA s ea n .read true (fun s l =>
    if s.co.coversSpan l.key (l.key + n) then waitA s .other else k s (s.mem.readLe l.key n))

/-! ## What the head of the X queue comes after -/

/-- Loads of the shuttle under way that come before the entry at the head of the X queue in program order (R126). -/
def loadsBefore (s : State) (e : XEntry) : List Load := s.co.loads.filter (fun l => l.pos == s.sh.pos && decide (l.after ≤ e.no))

/-- Whether the access at the head of the X queue reaches a port. -/
def headReaches (s : State) (e : XEntry) (p : Port) : Bool :=
  match s.sh.elemAddrs e.instr with
  | some l => l.any (fun ea => eaPort s ea == some p)
  | none => (entrySpans s (inForce s) (s.sh.resolve e)).any (spanReaches s p)

/-- The head of the X queue reads after a load under way: its place among the reads of their port is fixed (R126, R285). -/
def readsAfter (s : State) : Bool :=
  match s.sh.xq with
  | [] => false
  | e :: _ => xReads e.instr && (loadsBefore s e).any (fun l => !l.free && headReaches s e (portOf l.key))

end Sys2Proof.Machine
end

