-- ==== Sys2Proof/Machine/Memory.lean ====
section
/-! DEFINITION. Loads, stores, queue transfers, atomics, reductions, fences and the write lane (R113 to R130). -/

namespace Sys2Proof.Machine

/-- Bytes of an access size field (R72). -/
def szBytes (sz : BitVec 2) : Nat := 2 ^ sz.toNat

/-- A loaded value extended to 64 bits (R117). -/
def extend (sx : Bool) (v bits : Nat) : Word := if sx then sext64 v bits else zext64 v bits

/-- A stored value's bytes: the low n of a register (R117). -/
def storeBytes (v : Word) (n : Nat) : List Byte := leBytes n v.toNat

/-- The place X-class accesses and engine commands of an entry's makers come from: the A-pipe of the shuttle in focus. -/
def byA (s : State) : By := { a := [s.sh.pos], x := [], t := [] }
def byX (s : State) : By := { a := [], x := [(s.sh.pos, s.headNo)], t := [] }

/-- A line of an access holds poison. -/
def poisonHit (s : State) (key n : Nat) : Bool := s.poison.any (fun l => l < key + n && key < l + 64)

/-- A load of `ld` and `ldq` (R117, R120): the value extended to 64 bits. -/
def loadA (s : State) (sz : BitVec 2) (sx : Bool) (a : Fin 64) (off : BitVec 20) (k : State → Word → Out3) : Out3 :=
  let n := szBytes sz
  readA s (effAddr (s.sh.xget a) off) n (fun s v => k s (extend sx v (8 * n)))

/-- `ld`, R117; the acquire of `ld.aq` (R130) holds of every load done so, since the A-pipe goes on only when it has read. -/
def execLd (h : Hd) (_aq : Bool) (sz : BitVec 2) (sx : Bool) (d a : Fin 64) (off : BitVec 20) (s : State) : Out3 :=
  aInstr h (xs [d, a]) s (fun s => loadA s sz sx a off (fun s v => writeA s d v))

/-- A plain `ld` that reads later. -/
def startLd (h : Hd) (sz : BitVec 2) (sx : Bool) (d a : Fin 64) (off : BitVec 20) (s : State) : Out3 :=
  aInstr h (xs [d, a]) s (fun s => startA s (effAddr (s.sh.xget a) off) (szBytes sz) (fun _ => .x d.val (8 * szBytes sz) sx) (fun s _ => s))

/-- A store of the A-pipe (R117): checked as a write, admitted to the write lane of its port, or `full` when it cannot be. -/
def storeA (s : State) (sz : BitVec 2) (d a : Fin 64) (off : BitVec 20) (full : State → Loc → Out3) : Out3 :=
  let n := szBytes sz
  accessA s (effAddr (s.sh.xget a) off) n .write false (fun s l =>
    match s.co.plain l.key (storeBytes (s.sh.xget d) n) false (byA s) with
    | some c => doneA { s with co := c }
    | none => full s l)

/-- Every earlier access of the shuttle has read or performed, in both pipes: what still waits for it (R129). -/
def fenceWait (s : State) : Option Wait :=
  if s.sh.xq.any (fun e => xAccess e.instr) then some .onX
  else if s.co.outstanding s.sh.pos then some .other else none

/-- `st`, and `st.rl`, which is admitted only as after a `fence` (R117, R130). -/
def execSt (h : Hd) (rl : Bool) (sz : BitVec 2) (d a : Fin 64) (off : BitVec 20) (s : State) : Out3 :=
  aInstr h (xs [d, a]) s (fun s =>
    match if rl then fenceWait s else none with
    | some w => waitA s w
    | none => storeA s sz d a off (fun s _ => waitA s .other))

/-- `stnb`, R117: a full queue raises WBP with the port. -/
def execStnb (h : Hd) (sz : BitVec 2) (d a : Fin 64) (off : BitVec 20) (s : State) : Out3 :=
  aInstr h (xs [d, a]) s (fun s => storeA s sz d a off (fun s l =>
    faultA (chkFlt cWBP (portOf l.key).code 0 (effAddr (s.sh.xget a) off) 0 false) s))

/-- A data queue with room, else the instruction blocks before it starts (R27, R120). -/
def withRoom (s : State) (q : Fin 64) (k : Out3) : Out3 := if 16 ≤ (s.sh.dqOf q.val).length then waitA s .onX else k

/-- An entry pushed to a data queue. -/
def pushDq (s : State) (q : Fin 64) (e : QEntry) : State := { s with sh := s.sh.setDq q.val (s.sh.dqOf q.val ++ [e]) }

/-- `ldq.iN` and `ldq.nN`, R120. -/
def execLdq (h : Hd) (sz : BitVec 2) (sx : Bool) (d a : Fin 64) (off : BitVec 20) (s : State) : Out3 :=
  aInstr h (xs [a]) s (fun s => withRoom s d (loadA s sz sx a off (fun s v => doneA (pushDq s d (QEntry.ofScalar v)))))

/-- `ldq.g`, R120: an element group of 16 bytes a lane. -/
def execLdqG (h : Hd) (d a : Fin 64) (off : BitVec 20) (s : State) : Out3 :=
  aInstr h (xs [a]) s (fun s => withRoom s d
    (readA s (effAddr (s.sh.xget a) off) (16 * s.sh.lanes) (fun s v =>
      doneA (pushDq s d { scalar := false, data := BitVec.ofNat 4096 v }))))

/-- `ldq` and `ldq.g` that read later: each takes its place in the queue as it starts, and its data fills the place (R120). -/
def startLdq (h : Hd) (sz : BitVec 2) (sx : Bool) (d a : Fin 64) (off : BitVec 20) (s : State) : Out3 :=
  aInstr h (xs [a]) s (fun s => withRoom s d (startA s (effAddr (s.sh.xget a) off) (szBytes sz) (fun _ => .q d.val (8 * szBytes sz) sx)
    (fun s no => pushDq s d { QEntry.ofScalar 0 with due := some no })))
def startLdqG (h : Hd) (d a : Fin 64) (off : BitVec 20) (s : State) : Out3 :=
  aInstr h (xs [a]) s (fun s => withRoom s d (startA s (effAddr (s.sh.xget a) off) (16 * s.sh.lanes) (.group d.val)
    (fun s no => pushDq s d { scalar := false, data := 0, due := some no })))

/-- `ldq.x`, R120. -/
def execLdqX (h : Hd) (d a : Fin 64) (s : State) : Out3 :=
  aInstr h (xs [a]) s (fun s => withRoom s d (doneA (pushDq s d (QEntry.ofScalar (s.sh.xget a)))))

/-- A return queue popped: the places of its poisoned entries move with them. -/
def Shuttle.popRq (t : Shuttle) (q : Nat) : Shuttle :=
  { t.setRq q (t.rqOf q).tail with
    rqPois := (t.rqPois.filter (fun p => p != (q, 0))).map (fun p => if p.1 = q then (q, p.2 - 1) else p) }

/-- `ldq.r`, R120: a pop of a return queue, which blocks while it is empty. A poisoned entry raises ECC (R335). -/
def execLdqR (h : Hd) (d a : Fin 64) (s : State) : Out3 :=
  aInstr h (xs [d]) s (fun s =>
    match s.sh.rqOf a.val with
    | [] => waitA s .onX
    | v :: _ => if s.sh.rqPois.contains (a.val, 0) then raiseA cECC 2 s else writeA { s with sh := s.sh.popRq a.val } d v)

/-- A data queue popped: its oldest entry and the rest, or what an empty queue, or an entry whose data has not arrived, makes wait (R27,
R120). -/
def Shuttle.popDq (t : Shuttle) (q : Nat) : Except Wait (QEntry × Shuttle) :=
  match t.dqOf q with
  | [] => .error .queue
  | e :: r => if e.due.isSome then .error .other else .ok (e, t.setDq q r)

/-- `qmov xd, qa`, R121: a pop taken as a scalar (R26). A poisoned word raises ECC, and the entry stays (R335). -/
def execQmovXq (h : Hd) (d a : Fin 64) (s : State) : Out3 :=
  xIssue (.qmovXq h d a) s (fun s =>
    match s.sh.popDq a.val with
    | .error w => .wait w s
    | .ok (e, t) => if e.pois.contains 0 then .fault (eccFlt 0) s else .done { s with sh := t.xset d e.lane0 })

/-- `qmov qd, xa`, R121. -/
def execQmovQx (h : Hd) (d a : Fin 64) (s : State) : Out3 :=
  xIssue (.qmovQx h d a) s (fun s =>
    let q := s.sh.rqOf d.val
    if 8 ≤ q.length then .wait .queue s else .done { s with sh := s.sh.setRq d.val (q ++ [s.sh.srcA a]) })

/-- `qmov qd, qa`, R121. -/
def execQmovQq (h : Hd) (d a : Fin 64) (s : State) : Out3 :=
  xIssue (.qmovQq h d a) s (fun s =>
    let q := s.sh.rqOf d.val
    match s.sh.popDq a.val with
    | .error w => .wait w s
    | .ok (e, t) =>
      if 8 ≤ q.length then .wait .queue s
      else if e.pois.contains 0 then .fault (eccFlt 0) s
      else .done { s with sh := t.setRq d.val (q ++ [e.lane0]) })

/-- An atomic of the A-pipe (R122, R123): checked as a write, and for the value it reads; admitted as an entry of its own. Its
destination stays pending until it performs (R118). -/
def atomA (s : State) (dw sx : Bool) (d a : Fin 64) (off : BitVec 20) (k : AtomK) : Out3 :=
  let n := if dw then 8 else 4
  let ea := effAddr (s.sh.xget a) off
  accessA s ea n .write true (fun s l =>
    if poisonHit s l.key n then faultA (chkFlt cECC (s.eccDetail l.key n) 0 ea 0 false) s
    else
      match s.co.atom l.key n k (.x s.sh.pos d.val (8 * n) sx) (byA s) with
      | some c => doneA { s with co := c }
      | none => waitA s .other)

/-- `amo`, R122. -/
def execAmo (h : Hd) (k : AmoK) (dw sx : Bool) (d a b : Fin 64) (off : BitVec 20) (s : State) : Out3 :=
  aInstr h (xs [d, a, b]) s (fun s => atomA s dw sx d a off (.amo k (s.sh.xget b)))

/-- `amocas`, R123: X[d] is the new value, read at the start. -/
def execAmocas (h : Hd) (dw sx : Bool) (d a b : Fin 64) (off : BitVec 20) (s : State) : Out3 :=
  aInstr h (xs [d, a, b]) s (fun s => atomA s dw sx d a off (.cas (s.sh.xget b) (s.sh.xget d)))

/-- `red`, R124. -/
def execRed (h : Hd) (k : AmoK) (dw : Bool) (d a : Fin 64) (off : BitVec 20) (s : State) : Out3 :=
  aInstr h (xs [d, a]) s (fun s =>
    let n := if dw then 8 else 4
    let ea := effAddr (s.sh.xget a) off
    accessA s ea n .write false (fun s l =>
      if poisonHit s l.key n then faultA (chkFlt cECC (s.eccDetail l.key n) 0 ea 0 false) s
      else
        match s.co.red l.key n k (s.sh.xget d) (byA s) with
        | some c => doneA { s with co := c }
        | none => waitA s .other))

/-- `fas`, R125: the group's active elements go with the atomic into the write lane; its destination is busy until the
old word returns. -/
def execFas (h : Hd) (t : EType) (d a b : Fin 64) (off : BitVec 14) (s : State) : Out3 :=
  xIssue (.fas h t d a b off) s (fun s =>
    let sh := s.sh
    if t.bits ≠ sh.et.bits then xFault cALIGN 4 s
    else if !(aligned d sh.grp && aligned b sh.grp) then xFault cALIGN 1 s
    else
      let n := t.bits / 8
      let ea := effAddr (sh.srcA a) off
      match check s s.who ea n .write false true with
      | (s1, .bad c e l) => .fault (chkFlt c e l ea 0 true) s1
      | (s1, .hold) => .part .other s1
      | (s1, .ok l) =>
        if poisonHit s1 l.key n then .fault (chkFlt cECC (s1.eccDetail l.key n) 0 ea 0 true) s1
        else
          let act := sh.acts h
          match sh.poisonRead (sh.readsOf h [(b, t)]) with
          | some k => .fault (eccFlt k) s1
          | none =>
            match s1.co.atom l.key n (.fas t (act.map (fun i => sh.elem b.val i t))) (.fas sh.pos t d.val act) (byX s1) with
            | some c => .done { s1 with co := c, sh := sh.vdone }
            | none => .part .other s1)

/-- `fence`, R129. -/
def execFence (h : Hd) (s : State) : Out3 :=
  aInstr h [] s (fun s => match fenceWait s with
    | some w => waitA s w
    | none => doneA s)

/-- `fence.wl`, R129. -/
def execFenceWl (h : Hd) (s : State) : Out3 :=
  aInstr h [] s (fun s => if s.co.admittedBy s.sh.pos then waitA s .other else doneA s)

/-- `fence.xa`, R129. -/
def execFenceXa (h : Hd) (s : State) : Out3 :=
  aInstr h [] s (fun s =>
    if s.sh.xq.any (fun e => xAccess e.instr) then waitA s .onX
    else if s.co.admittedX s.sh.pos then waitA s .other else doneA s)

/-- The port an address reaches, with no check but the window and the walk (R116): none while the walk waits for a die under repair (R377). -/
def wlbPort (s : State) (ea : Nat) : State × Except (Nat × Nat × Nat) (Option Port) :=
  let walks (st : Nat) : Bool := !(s.tlb.any (fun t => t.covers s.sh.pid ea)) && walkMeets s s.co.id s.sh.pid ea .read st
  match windowOf ea with
  | .none => (s, .error (cPERM, 3, 0))
  | .near => (s, .ok (some .ns))
  | .cluster => (s, .ok (some .cs))
  | .xlat =>
    if walks 1 then (s, .ok none)
    else if walks 2 then (s, .error (cECC, 1, 0))
    else
    match s.tlb.find? (fun t => t.covers s.sh.pid ea) with
    | some t => (s, .ok (some (portOf t.pa)))
    | none =>
      match walkOf s s.sh.pid ea with
      | .error e => (s, .error e)
      | .ok (_, e, _) => ((walk s s.sh.pid ea .read).1, .ok (some (portOf (bitsAt e 16 40 * 2 ^ 16))))

/-- Free entries of the core's queue for a port (R116). -/
def freeEntries (c : Core) (p : Port) : Nat := 64 - (c.queue p).length

/-- `wlb xd, xa`, R116. -/
def execWlb (h : Hd) (d a : Fin 64) (s : State) : Out3 :=
  aInstr h (xs [d, a]) s (fun s =>
    let ea := (s.sh.xget a).toNat
    match wlbPort s ea with
    | (s1, .error (c, e, l)) => faultA (chkFlt c e l ea 0 false) s1
    | (s1, .ok none) => waitA s1 .other
    | (s1, .ok (some p)) => writeA s1 d (BitVec.ofNat 64 (freeEntries s1.co p * 2 ^ 32 + s1.co.wlbud)))

/-- `wlb.wt xa, xb`, R116. -/
def execWlbWt (h : Hd) (a b : Fin 64) (s : State) : Out3 :=
  aInstr h (xs [a, b]) s (fun s =>
    let ea := (s.sh.xget a).toNat
    match wlbPort s ea with
    | (s1, .error (c, e, l)) => faultA (chkFlt c e l ea 0 false) s1
    | (s1, .ok none) => waitA s1 .other
    | (s1, .ok (some p)) => if Nat.min (s1.sh.xget b).toNat 64 ≤ freeEntries s1.co p then doneA s1 else waitA s1 .other)

/-! ## Entries performing (R115) -/

/-- FAS of R67: the exclusive prefixes of a word and the word after them, with flags. -/
def fasRun (t : EType) (run : Nat) : List Nat → List Nat × Nat × Nat
  | [] => ([], run, 0)
  | x :: r =>
    let (n, f) := if t = .f32 then addF32 run x else ((run + x) % 2 ^ t.bits, 0)
    let (l, e, g) := fasRun t n r
    (run :: l, e, f ||| g)

/-- An atomic on the word that stands in memory (R122, R123, R125): the word after it, the values returned, the flags. -/
def AtomK.run (k : AtomK) (old bits : Nat) : Nat × List Nat × Nat :=
  match k with
  | .amo op v => let (n, f) := amoOp op old (v.toNat % 2 ^ bits) bits; (n, [old], f)
  | .cas c n => (if old = c.toNat % 2 ^ bits then n.toNat % 2 ^ bits else old, [old], 0)
  | .fas t l => let (o, n, f) := fasRun t old l; (n, o, f)

/-- The values of an atomic returned to its shuttle, with its flags. -/
def returnTo (s : State) (core : Nat) (r : Ret) (vs : List Nat) (fl : Nat) : State :=
  match r with
  | .none => s
  | .x pos d bits sx =>
    let t := s.shuttle { core := core, pos := pos }
    s.setShuttle core ((t.xsetN d (extend sx (vs.headD 0) bits)).flag fl)
  | .fas pos et d idx =>
    let t := s.shuttle { core := core, pos := pos }
    let l := idx.zip vs
    s.setShuttle core (((l.foldl (fun t e => t.elemSet d e.1 et e.2) t).unpoison d et idx).flag fl)

/-- The record and the position whose access an entry is: of a command's, those that started it. -/
def LaneEnt.whose (e : LaneEnt) (s : State) (core : Nat) : Nat × Nat :=
  let c := s.core core
  let own := c.recId.getD s.nextRec
  match e.aBy ++ e.xBy.map Prod.fst, e.tags.filterMap (fun t => (afind? c.cmds t.1).map (fun k => (k.recId, k.pos))) ++ e.left with
  | p :: _, _ => (own, p)
  | [], q :: _ => q
  | [], [] => (own, 0)

/-- A queue entry applied to memory: bytes, operations, or its atomic, and the poison of its line (R115, R334). -/
def performEntry (s : State) (core : Nat) (e : LaneEnt) : State × Nat :=
  match e.atom with
  | none =>
    let n := e.bytes.length + (e.ops.map (fun o => o.size)).sum
    let whole := e.bytes.length == 64
    let s0 := if whole then s else meetLatent s (e.whose s core).1 (e.whose s core).2 e.line 64
    (({ s0 with mem := e.apply s0.mem } : State).linePoison e.line whole e.poison, n)
  | some (off, size, k, r) =>
    let (new, vs, fl) := k.run (s.mem.readLe (e.line + off) size) (8 * size)
    let s0 := meetLatent s (e.whose s core).1 (e.whose s core).2 e.line 64
    let s1 := { s0 with mem := s0.mem.writeLe (e.line + off) size new }
    (returnTo s1 core r vs fl, size)

/-- WRITE_LANE_PERFORM, R115: the head of a port's queue of the core in focus performs; a DS or MM entry spends 64 bytes of
budget and waits for it; one for another die under repair waits (R377). -/
def execWriteLanePerform (port : Port) (s : State) : Out3 :=
  match s.co.queue port with
  | [] => .next s
  | e :: r =>
    let spends := port == .ds || port == .mm
    if (spends && s.co.wlbud < 64) || (port == .ds && (s.die (e.line / 2 ^ 32)).repair == 1 && e.line / 2 ^ 32 != dieOf s.co.id) then .next s
    else
      let co := s.co.setQueue port r
      let co := if spends then { co with wlbud := co.wlbud - 64 } else co
      let (s1, n) := performEntry { s with co := co } s.co.id e
      .next { s1 with co := { s1.co with wlBytes := s1.co.wlBytes + n } }

/-- The refill of a core (R115, R270) and of a die's fabric write queue (R272). -/
def Core.refilled (c : Core) : Core := { c with wlbud := Nat.min c.refill 0xF42 * 64 }
def Die.refilled (d : Die) : Die := { d with fabBud := Nat.min d.fabRefill 0x1249 * 64 }

/-- Every core's and die's write budget set anew, once for every multiple of 4,000 that T64 has reached (R271). -/
def refillBudgets (s : State) : State :=
  if s.gn.t64.toNat / 4000 = s.gn.lastUs then s
  else { s with
    gn := { s.gn with lastUs := s.gn.t64.toNat / 4000 }
    co := s.co.refilled
    cores := s.cores.map (fun c => (c.1, c.2.refilled))
    dies := s.dies.map (fun d => (d.1, d.2.refilled)) }

/-- WLBUD_REFILL, R271. -/
def execWlbudRefill (s : State) : Out3 := .next (refillBudgets s)

end Sys2Proof.Machine
end

