-- ==== Sys2Proof/Machine/Sync.lean ====
section
/-! DEFINITION. Barriers (R131 to R136) and the tile table (R137 to R140). -/

namespace Sys2Proof.Machine

/-- A barrier slot of a die. -/
def Die.bar (d : Die) (k : Nat) : Bar := aget Bar.reset d.bars k
def Die.setBar (d : Die) (k : Nat) (b : Bar) : Die := { d with bars := aput d.bars k b }

/-- The die and slot a barrier handle names (R131). -/
def barDie (w : Word) : Nat := bitsAt w.toNat 12 5
def barSlot (w : Word) : Nat := bitsAt w.toNat 0 12

/-- The slot a handle names. -/
def State.bar (s : State) (w : Word) : Bar := (s.die (barDie w)).bar (barSlot w)
def State.setBar (s : State) (w : Word) (b : Bar) : State := s.setDie (barDie w) ((s.die (barDie w)).setBar (barSlot w) b)

/-- The checks of R131 on a handle for the shuttle in focus: the fault that fails it. A slot in whose bits an error has been found raises ECC
until it is granted anew (R274). DESIGN CHOICE (log entry 126). -/
def barCheck (s : State) (w : Word) : Option (Nat × Nat) :=
  let b := s.bar w
  if bitsAt w.toNat 17 3 ≠ 0 then some (cHANDLE, 1)
  else if b.bad then some (cECC, 2)
  else if bitsAt w.toNat 20 12 ≠ b.gen.toNat then some (cHANDLE, 1)
  else if b.granted ≠ some (s.sh.pid, s.sh.handle) then some (cPERM, 6)
  else none

/-- The end of an update: a phase completes when both counts stand at zero (R133). -/
def Bar.settle (b : Bar) : Bar :=
  if b.count ≠ 0 ∧ b.arr = 0 ∧ b.bytes = 0 then { b with phase := b.phase + 1, arr := b.count, bytes := 0 } else b

/-- The updates of R133: `bar.init`, arrivals (none only reads, R134), a post of expected bytes, and bytes an engine delivers. -/
def Bar.init (b : Bar) (n : Nat) : Bar := ({ b with count := n, arr := n, bytes := 0 } : Bar).settle
def Bar.arrive (b : Bar) (n : Nat) : Bar := if b.arr < n ∨ n = 0 then b else ({ b with arr := b.arr - n } : Bar).settle
def Bar.post (b : Bar) (v : Word) : Bar := ({ b with bytes := b.bytes + v } : Bar).settle
def Bar.deliver (b : Bar) (v : Word) : Bar := ({ b with bytes := b.bytes - v } : Bar).settle

/-- The die that holds a barrier is under repair: what comes from other dies waits (R377). -/
def barHeld (s : State) (w : Word) : Bool := (s.die (barDie w)).repair == 1 && barDie w != dieOf s.co.id

/-- An A-class barrier instruction on the handle in X[a] (R131). -/
def barA (s : State) (a : Fin 64) (k : Word → Out3) : Out3 :=
  let w := s.sh.xget a
  if barHeld s w then waitA s .other
  else
    match barCheck s w with
    | some (c, d) => raiseA c d s
    | none => k w

/-- `bar.init`, R134. -/
def execBarInit (h : Hd) (a b : Fin 64) (s : State) : Out3 :=
  aInstr h (xs [a, b]) s (fun s => barA s a (fun w =>
    let n := bitsAt (s.sh.xget b).toNat 0 16
    if n = 0 then raiseA cHANDLE 2 s else doneA (s.setBar w ((s.bar w).init n))))

/-- `bar.arv` and `bar.arv.n`, R134: applied once every earlier access of the shuttle has read or performed. -/
def execBarArv (h : Hd) (n : Bool) (d a b : Fin 64) (s : State) : Out3 :=
  aInstr h (xs (if n then [d, a, b] else [d, a])) s (fun s => barA s a (fun w =>
    match fenceWait s with
    | some k => waitA s k
    | none =>
      let m := if n then bitsAt (s.sh.xget b).toNat 0 16 else 1
      let br := s.bar w
      let refused := decide (br.arr < m)
      writeA (s.setBar w (br.arrive m)) d (BitVec.ofNat 64 (br.phase.toNat + refused.toNat * 2 ^ 62))))

/-- `bar.exp`, R134. -/
def execBarExp (h : Hd) (a b : Fin 64) (s : State) : Out3 :=
  aInstr h (xs [a, b]) s (fun s => barA s a (fun w => doneA (s.setBar w ((s.bar w).post (s.sh.xget b)))))

/-- `bar.wt`, R134, R135: the handle is checked again each time it is tried. -/
def execBarWt (h : Hd) (d a b : Fin 64) (s : State) : Out3 :=
  xIssue (.barWt h d a b) s (fun s =>
    let w := s.sh.srcA a
    if barHeld s w then .wait .other s
    else
    match barCheck s w with
    | some (c, e) => xFault c e s
    | none =>
      if (s.bar w).phase.toNat ≠ bitsAt (s.sh.srcB b).toNat 0 20 then .done { s with sh := s.sh.xset d 0 } else .wait .other s)

/-- What `bar.twt` finds (R136): 0 the phase has completed, 2 the gnomon refuses, 1 the deadline is reached. -/
def twtResult (s : State) (w phase deadline : Word) : Option Nat :=
  if (s.bar w).phase.toNat ≠ bitsAt phase.toNat 0 20 then some 0
  else if s.gn.lock = 2 ∨ s.gn.lock = 3 then some 2
  else if deadline.toNat ≤ s.gn.t64.toNat then some 1
  else none

/-- `bar.twt`, R136. -/
def execBarTwt (h : Hd) (d a b e : Fin 64) (s : State) : Out3 :=
  xIssue (.barTwt h d a b e) s (fun s =>
    let w := s.sh.srcA a
    if barHeld s w then .wait .other s
    else
    match barCheck s w with
    | some (c, f) => xFault c f s
    | none =>
      match twtResult s w (s.sh.srcB b) (s.sh.srcC e) with
      | some r => .done { s with sh := s.sh.xset d (BitVec.ofNat 64 r) }
      | none => .wait .other s)

/-- BAR_TWT_DEADLINE, R136: a `bar.twt` at the head of the X queue of a shuttle that may move, whose deadline is reached, is tried
and ends; any other head is left as it is. -/
def execBarTwtDeadline (s : State) : Out3 :=
  match s.sh.xq with
  | [] => .next s
  | e :: _ =>
    match e.instr with
    | .barTwt h d a b c => if pipeMoves s true ∧ (s.sh.opnd e.opC).toNat ≤ s.gn.t64.toNat then execBarTwt h d a b c s else .next s
    | _ => .next s

/-! ## The tile table -/

/-- `tile.st` (R139): X[d] takes the entry word as it stood, then the event is applied. An entry in whose bits an error has been found raises
ECC (R274). DESIGN CHOICE (log entry 126). -/
def tileSt (h : Hd) (d : Fin 64) (rs : List (Fin 64)) (t : BitVec 8) (ev : Shuttle → TEnt → TEnt) (s : State) : Out3 :=
  aInstr h (xs rs) s (fun s =>
    if !entGranted s.sh t.toNat then raiseA cPERM 1 s
    else
      let e := s.co.tent t.toNat
      if e.bad then raiseA cECC 2 s else
      writeA (setEntry s s.co.id t.toNat (ev s.sh e)) d e.word)

/-- `tile.st.rd`, R139. -/
def execTileStRd (h : Hd) (d : Fin 64) (t : BitVec 8) (s : State) : Out3 := tileSt h d [d] t (fun _ e => e) s
/-- `tile.st.arm`, R139. -/
def execTileStArm (h : Hd) (d a : Fin 64) (t : BitVec 8) (s : State) : Out3 :=
  tileSt h d [d, a] t (fun sh e => e.arm (bitsAt (sh.xget a).toNat 0 16)) s
/-- `tile.st.done`, R139. -/
def execTileStDone (h : Hd) (d : Fin 64) (t : BitVec 8) (s : State) : Out3 := tileSt h d [d] t (fun _ e => e.finish) s
/-- `tile.st.abort`, R139. -/
def execTileStAbort (h : Hd) (d : Fin 64) (t : BitVec 8) (s : State) : Out3 := tileSt h d [d] t (fun _ e => e.fail 7) s
/-- `tile.st.rel`, R139. -/
def execTileStRel (h : Hd) (d : Fin 64) (t : BitVec 8) (s : State) : Out3 := tileSt h d [d] t (fun _ e => e.release) s

/-- `tile.wt`, R140. -/
def execTileWt (h : Hd) (d : Fin 64) (t : BitVec 8) (s : State) : Out3 :=
  xIssue (.tileWt h d t) s (fun s =>
    if !entGranted s.sh t.toNat then xFault cPERM 1 s
    else
      let e := s.co.tent t.toNat
      if e.bad then xFault cECC 2 s
      else if e.state = 2 ∨ (e.state = 0 ∧ e.abort ≠ 0) then .done { s with sh := s.sh.xset d e.word } else .wait .other s)

end Sys2Proof.Machine
end

