-- ==== Sys2Proof/Machine/VecArith.lean ====
section
/-! DEFINITION. Element arithmetic (R154 to R158), width and format changes (R159 to R161) and scales (R170). Element
results are codes with flags; every source element is read before any is written (R141). -/

namespace Sys2Proof.Machine

/-- Types of R154: the eight integers with FP32, BF16, FP16, and the three floats alone. -/
def arithT (e : EType) : Bool := e.isInt || e == .f32 || e == .bf16 || e == .f16
def floatT (e : EType) : Bool := e == .f32 || e == .bf16 || e == .f16

/-- The second operand of element i: a vector's, or the low bits of a scalar under `.vx` (R154). -/
def opB (t : Shuttle) (vx : Bool) (b : Fin 64) (i : Nat) : Nat :=
  if vx then (t.srcB b).toNat % 2 ^ t.et.bits else t.vread b.val i t.et

/-- Operand groups of type t: destination, first source, second unless it is a scalar. -/
def groups2 (vx : Bool) (d a b : Fin 64) (t : Shuttle) : List (Fin 64 × EType) :=
  (d, t.et) :: (a, t.et) :: if vx then [] else [(b, t.et)]
def reads2 (h : Hd) (vx : Bool) (a b : Fin 64) (t : Shuttle) : List (Nat × Nat × EType) :=
  t.readsOf h ((a, t.et) :: if vx then [] else [(b, t.et)])

/-- A two-operand element instruction: `f` gives the code and flags from two codes of type t. -/
def elem2 (i : Instr) (h : Hd) (vx : Bool) (d a b : Fin 64) (ok : EType → Bool) (f : EType → Nat → Nat → CF) (s : State) : Out3 :=
  vecOp i s (fun t => ok t.et) (groups2 vx d a b) (reads2 h vx a b)
    (fun t => t.writeElems h d.val t.et (fun k => f t.et (t.vread a.val k t.et) (opB t vx b k)))

/-- A one-operand element instruction. -/
def elem1 (i : Instr) (h : Hd) (d a : Fin 64) (ok : EType → Bool) (f : EType → Nat → CF) (s : State) : Out3 :=
  vecOp i s (fun t => ok t.et) (fun t => [(d, t.et), (a, t.et)]) (fun t => t.readsOf h [(a, t.et)])
    (fun t => t.writeElems h d.val t.et (fun k => f t.et (t.vread a.val k t.et)))

/-- Sum, difference and product of R155. -/
def addE (s : Bool) (rm : Rm) (t : EType) (a b : Nat) : CF :=
  if t.isInt then intRes t s (EType.ival t a + EType.ival t b) else fAdd t rm a b
def subE (s : Bool) (rm : Rm) (t : EType) (a b : Nat) : CF :=
  if t.isInt then intRes t s (EType.ival t a - EType.ival t b) else fSub t rm a b
def mulE (s : Bool) (rm : Rm) (t : EType) (a b : Nat) : CF :=
  if t.isInt then intRes t s (EType.ival t a * EType.ival t b) else fMul t rm a b

/-- Types with `.s`: integers alone (R154). -/
def satOk (s : Bool) (e : EType) : Bool := arithT e && (!s || e.isInt)

/-- `vadd`, R155. -/
def execVadd (h : Hd) (s vx : Bool) (rm : Rm) (d a b : Fin 64) (st : State) : Out3 :=
  elem2 (.vadd h s vx rm d a b) h vx d a b (satOk s) (addE s rm) st
/-- `vsub`, R155. -/
def execVsub (h : Hd) (s vx : Bool) (rm : Rm) (d a b : Fin 64) (st : State) : Out3 :=
  elem2 (.vsub h s vx rm d a b) h vx d a b (satOk s) (subE s rm) st
/-- `vmul`, R155. -/
def execVmul (h : Hd) (s vx : Bool) (rm : Rm) (d a b : Fin 64) (st : State) : Out3 :=
  elem2 (.vmul h s vx rm d a b) h vx d a b (satOk s) (mulE s rm) st

/-- A fused instruction (R155): A × B plus or minus C, one rounding. -/
def fused (i : Instr) (h : Hd) (vx : Bool) (rm : Rm) (d a b e : Fin 64) (neg : Bool) (st : State) : Out3 :=
  vecOp i st (fun t => floatT t.et) (fun t => groups2 vx d a b t ++ [(e, t.et)])
    (fun t => reads2 h vx a b t ++ t.readsOf h [(e, t.et)])
    (fun t => t.writeElems h d.val t.et (fun k =>
      fFma (EType.fmt t.et) (EType.fmt t.et) rm (t.vread a.val k t.et) (opB t vx b k) (t.vread e.val k t.et) neg))

/-- `vfma`, R155. -/
def execVfma (h : Hd) (vx : Bool) (rm : Rm) (d a b e : Fin 64) (st : State) : Out3 :=
  fused (.vfma h vx rm d a b e) h vx rm d a b e false st
/-- `vfms`, R155. -/
def execVfms (h : Hd) (vx : Bool) (rm : Rm) (d a b e : Fin 64) (st : State) : Out3 :=
  fused (.vfms h vx rm d a b e) h vx rm d a b e true st

/-- Smaller and larger of two codes of a type (R155). -/
def minE (t : EType) (a b : Nat) : Nat :=
  if t.isInt then (if EType.ival t a < EType.ival t b then a else b) else fMin (EType.fmt t) a b
def maxE (t : EType) (a b : Nat) : Nat :=
  if t.isInt then (if EType.ival t a < EType.ival t b then b else a) else fMax (EType.fmt t) a b

/-- `vmin`, R155. -/
def execVmin (h : Hd) (vx : Bool) (d a b : Fin 64) (st : State) : Out3 :=
  elem2 (.vmin h vx d a b) h vx d a b arithT (fun t x y => (minE t x y, 0)) st
/-- `vmax`, R155. -/
def execVmax (h : Hd) (vx : Bool) (d a b : Fin 64) (st : State) : Out3 :=
  elem2 (.vmax h vx d a b) h vx d a b arithT (fun t x y => (maxE t x y, 0)) st

/-- Magnitude and negation of R155. -/
def absE (s : Bool) (t : EType) (a : Nat) : CF :=
  if t.isInt then intRes t s (Int.natAbs (EType.ival t a))
  else
    let f := EType.fmt t
    (if f.isNan a then f.nanCode else a % 2 ^ (f.eb + f.mb), 0)
def negE (s : Bool) (t : EType) (a : Nat) : CF :=
  if t.isInt then intRes t s (-EType.ival t a)
  else
    let f := EType.fmt t
    (if f.isNan a then f.nanCode else a % 2 ^ (f.eb + f.mb) + f.signBit (!f.neg a), 0)

/-- `vabs`, R155. -/
def execVabs (h : Hd) (s : Bool) (d a : Fin 64) (st : State) : Out3 := elem1 (.vabs h s d a) h d a (satOk s) (absE s) st
/-- `vneg`, R155. -/
def execVneg (h : Hd) (s : Bool) (d a : Fin 64) (st : State) : Out3 := elem1 (.vneg h s d a) h d a (satOk s) (negE s) st

/-- `vand`, R155: on codes, every type. -/
def execVand (h : Hd) (vx : Bool) (d a b : Fin 64) (st : State) : Out3 :=
  elem2 (.vand h vx d a b) h vx d a b (fun _ => true) (fun _ x y => (x &&& y, 0)) st
/-- `vor`, R155. -/
def execVor (h : Hd) (vx : Bool) (d a b : Fin 64) (st : State) : Out3 :=
  elem2 (.vor h vx d a b) h vx d a b (fun _ => true) (fun _ x y => (x ||| y, 0)) st
/-- `vxor`, R155. -/
def execVxor (h : Hd) (vx : Bool) (d a b : Fin 64) (st : State) : Out3 :=
  elem2 (.vxor h vx d a b) h vx d a b (fun _ => true) (fun _ x y => (x ^^^ y, 0)) st

/-- The shift amount of element i (R154, R156). -/
def shiftAmount (t : Shuttle) (k : Src2) (b : Fin 64) (imm : BitVec 8) (i : Nat) : Nat :=
  match k with
  | .vi => imm.toNat
  | .vx => opB t true b i
  | .vv => opB t false b i

/-- A vector shift (R156): integers only. -/
def shiftOp (i : Instr) (h : Hd) (k : Src2) (d a b : Fin 64) (imm : BitVec 8) (f : EType → Nat → Nat → Nat) (st : State) : Out3 :=
  vecOp i st (fun t => t.et.isInt) (groups2 (k ≠ .vv) d a b) (reads2 h (k ≠ .vv) a b)
    (fun t => t.writeElems h d.val t.et (fun n => (f t.et (t.vread a.val n t.et) (shiftAmount t k b imm n), 0)))

/-- Shifts of R156 on codes. -/
def sllE (t : EType) (a s : Nat) : Nat := a * 2 ^ Nat.min s t.bits % 2 ^ t.bits
def srlE (t : EType) (a s : Nat) : Nat := a / 2 ^ Nat.min s t.bits
def sraE (r : Bool) (rm : IRm) (t : EType) (a s : Nat) : Nat :=
  if r then wrapInt (shiftRound (EType.ival t a) (Nat.min s 63) rm) t.bits
  else if t.signed then wrapInt (EType.ival t a / (2 ^ Nat.min s (t.bits - 1) : Nat)) t.bits
  else srlE t a s

/-- `vsll`, R156. -/
def execVsll (h : Hd) (k : Src2) (d a b : Fin 64) (imm : BitVec 8) (st : State) : Out3 :=
  shiftOp (.vsll h k d a b imm) h k d a b imm sllE st
/-- `vsrl`, R156. -/
def execVsrl (h : Hd) (k : Src2) (d a b : Fin 64) (imm : BitVec 8) (st : State) : Out3 :=
  shiftOp (.vsrl h k d a b imm) h k d a b imm srlE st
/-- `vsra` and `vsra.r`, R156. -/
def execVsra (h : Hd) (k : Src2) (r : Bool) (rm : IRm) (d a b : Fin 64) (imm : BitVec 8) (st : State) : Out3 :=
  shiftOp (.vsra h k r rm d a b imm) h k d a b imm (sraE r rm) st

/-- `vmulh`, R155: the high half of the exact product. -/
def execVmulh (h : Hd) (vx : Bool) (d a b : Fin 64) (st : State) : Out3 :=
  elem2 (.vmulh h vx d a b) h vx d a b (fun t => t.isInt)
    (fun t x y => (wrapInt (EType.ival t x * EType.ival t y / (2 ^ t.bits : Nat)) t.bits, 0)) st

/-- The two halves of an element, low first, signed as its type is (R157). -/
def halves (t : EType) (c : Nat) : Int × Int :=
  let w := t.bits / 2
  let v (n : Nat) : Int := if t.signed then toSigned n w else ((n % 2 ^ w : Nat) : Int)
  (v c, v (c / 2 ^ w))

/-- D + A.lo × B.lo + A.hi × B.hi, exact (R157). -/
def dot2 (t : EType) (dd a b : Nat) : Int :=
  let x := halves t a
  let y := halves t b
  EType.ival t dd + x.1 * y.1 + x.2 * y.2

/-- `vdot2`, R157. -/
def execVdot2 (h : Hd) (s vx : Bool) (d a b : Fin 64) (st : State) : Out3 :=
  vecOp (.vdot2 h s vx d a b) st (fun t => t.et.isInt && t.et.bits != 8) (groups2 vx d a b)
    (fun t => reads2 h vx a b t ++ t.readsOf h [(d, t.et)])
    (fun t => t.writeElems h d.val t.et (fun k =>
      intRes t.et s (dot2 t.et (t.vread d.val k t.et) (t.vread a.val k t.et) (opB t vx b k))))

/-- Narrow types of `vmacw` (R158). -/
def macT (s : Bool) (e : EType) : Bool := (e.isInt && e.bits != 64) || (!s && (e == .bf16 || e == .f16))

/-- `vmacw`, R158: D + A × B at double width. -/
def execVmacw (h : Hd) (s : Bool) (rm : Rm) (d a b : Fin 64) (st : State) : Out3 :=
  vecOp (.vmacw h s rm d a b) st (fun t => macT s t.et) (fun t => [(d, doubleType t.et), (a, t.et), (b, t.et)])
    (fun t => t.readsOf h [(d, doubleType t.et), (a, t.et), (b, t.et)])
    (fun t =>
      let w := doubleType t.et
      t.writeElems h d.val w (fun k =>
        let x := t.vread a.val k t.et
        let y := t.vread b.val k t.et
        let z := t.elem d.val k w
        if t.et.isInt then intRes w s (EType.ival w z + EType.ival t.et x * EType.ival t.et y)
        else fFma (EType.fmt t.et) fp32 rm x y z false))

/-! ## Width and format changes -/

/-- `vnarrow`, R159. -/
def execVnarrow (h : Hd) (s : Bool) (t2 : EType) (rm : IRm) (n : BitVec 8) (d a : Fin 64) (st : State) : Out3 :=
  vecOp (.vnarrow h s t2 rm n d a) st
    (fun t => t.et.isInt && t2.isInt && t2.bits == 2 * t.et.bits && decide (n.toNat ≤ 2 * t.et.bits - 1))
    (fun t => [(d, t.et), (a, t2)]) (fun t => t.readsOf h [(a, t2)])
    (fun t => t.writeElems h d.val t.et (fun k => intRes t.et s (shiftRound (EType.ival t2 (t.elem a.val k t2)) n.toNat rm)))

/-- The pairs of R160. -/
def widenOk (t t2 : EType) : Bool :=
  if t.isInt then t2.isInt && t2.bits * 2 == t.bits && (!t2.signed || t.signed)
  else match t with
    | .f32 => t2 == .bf16 || t2 == .f16
    | .bf16 | .f16 => t2 == .e4 || t2 == .e5
    | .e4 => t2 == .f4
    | _ => false

/-- `vwiden`, R160. -/
def execVwiden (h : Hd) (t2 : EType) (d a : Fin 64) (st : State) : Out3 :=
  vecOp (.vwiden h t2 d a) st (fun t => widenOk t.et t2) (fun t => [(d, t.et), (a, t2)]) (fun t => t.readsOf h [(a, t2)])
    (fun t => t.writeElems h d.val t.et (fun k =>
      let c := t.elem a.val k t2
      (if t2.isInt then wrapInt (EType.ival t2 c) t.et.bits else ((EType.fmt t.et).arith .rne ((EType.fmt t2).val c)).1, 0)))

/-- Conversions of elements in order up to the first that overflows under the trap policy (R58): those done, their flags, and
the element it stopped at. -/
def convRun (f : Nat → Conv) : List Nat → List (Nat × Nat) × Nat × Option Nat
  | [] => ([], 0, none)
  | i :: r =>
    let c := f i
    if c.trap then ([], 0, some i)
    else
      let (l, g, k) := convRun f r
      ((i, c.code) :: l, c.flags ||| g, k)

/-- A conversion that completes or stops at an element with NUMOVF, the elements below it written (R58). -/
def convEnd (s : State) (d : Fin 64) (r : List (Nat × Nat) × Nat × Option Nat) (keep : Bool) : XOut :=
  let t1 := (s.sh.vwrites d.val s.sh.et r.1).flag r.2.1
  match r.2.2 with
  | none => .done { s with sh := t1.vdone }
  | some k =>
    if keep then .fault { flt cNUMOVF k true with index := k } { s with sh := { t1 with vstart := BitVec.ofNat 13 k } }
    else .fault { flt cNUMOVF k true with index := k } s

/-- `vcvt`, R161: under the trap policy nothing is written where source and destination share registers at other widths. -/
def execVcvt (h : Hd) (t2 : EType) (rm : Rm) (ov : Ov) (d a : Fin 64) (st : State) : Out3 :=
  xIssue (.vcvt h t2 rm ov d a) st (fun s =>
    let t := s.sh
    match t.groupCheck [(d, t.et), (a, t2)] with
    | some e => xFault cALIGN e s
    | none =>
      match t.poisonRead (t.readsOf h [(a, t2)]) with
      | some k => .fault (eccFlt k) s
      | none =>
        let share := decide (d.val < a.val + t.grp2 t2 ∧ a.val < d.val + t.grp)
        let r := convRun (fun k => (EType.kind t.et).convert rm ov false ((EType.kind t2).val (t.elem a.val k t2))) (t.actives h)
        convEnd s d r (!(share && t2.bits != t.et.bits)))

/-- `vscl`, R170. -/
def execVscl (h : Hd) (rm : Rm) (k : BitVec 8) (d a b : Fin 64) (st : State) : Out3 :=
  vecOp (.vscl h rm k d a b) st (fun t => t.et == .f32) (fun _ => [(d, .f32), (a, .f32), (b, .bf16)])
    (fun t => t.readsOf h [(a, .f32)] ++ (t.actives h).map (fun i => (b.val, i / 2 ^ k.toNat, EType.bf16)))
    (fun t => t.writeElems h d.val .f32 (fun i =>
      let (x, fl) := (fp32.val (t.vread a.val i .f32)).mul (fbf16.val (t.elem b.val (i / 2 ^ k.toNat) .bf16))
      let (c, g) := fp32.arith rm x
      (c, fl ||| g)))

end Sys2Proof.Machine
end

