-- ==== Sys2Proof/Machine/VecMem.lean ====
section
/-! DEFINITION. Setting the shape (R144 to R146) and vector memory (R147 to R153). -/

namespace Sys2Proof.Machine

/-- `vsetl`, R144, R146: it waits until every earlier X-class access has performed; a pre-emption waiting for it is taken
after its effects (R40), and a hold limit exceeded twice is reported at it (R312). -/
def execVsetl (h : Hd) (g : BitVec 2) (mx : Bool) (t : EType) (live : BitVec 8) (d a : Fin 64) (s : State) : Out3 :=
  xIssue (.vsetl h g mx t live d a) s (fun s =>
    let sh := s.sh
    if s.co.admittedX sh.pos then .wait .other s
    else if sh.budgetDue then xFault cBUDGET 2 { s with sh := { sh with budgetDue := false } }
    else
      let vm := sh.vlmax t (2 ^ g.toNat)
      let n := Nat.min (Nat.min (if mx then vm else (sh.srcA a).toNat) vm) sh.ceil
      let t1 := { sh.wash [3, 4, 5] with
        vtype := BitVec.ofNat 64 (live.toNat * 2 ^ 16 + g.toNat * 2 ^ 12 + t.code)
        vlen := BitVec.ofNat 13 n
        vstart := 0
        saveDue := if sh.atYield then some 0 else sh.saveDue }
      .done { s with sh := t1.xset d (BitVec.ofNat 64 n) })

/-! ## Loads -/

/-- How a run over elements stopped. -/
inductive Stop where
  | all
  | bad (i cause detail level : Nat)
  | wait (i : Nat)

/-- Elements read in increasing order up to one that faults; a line its core still has to write makes it wait (R126, R149). -/
def loadRun (addr : Nat → Nat) (n : Nat) : State → List Nat → State × List (Nat × Nat) × Stop
  | s, [] => (s, [], .all)
  | s, i :: r =>
    match check s s.who (addr i) n .read false true with
    | (s1, .bad c d l) => (s1, [], .bad i c d l)
    | (s1, .hold) => (s1, [], .wait i)
    | (s1, .ok l) =>
      if s1.co.coversSpan l.key (l.key + n) then (s1, [], .wait i)
      else
        let v := s1.mem.readLe l.key n
        let (s2, vs, st) := loadRun addr n s1 r
        (s2, (i, v) :: vs, st)

/-- The code of element i in the bytes read for it (R148). -/
def codeOf (t : EType) (i v : Nat) : Nat := if t = .f4 then v / 2 ^ (4 * (i % 2)) % 16 else v

/-- The elements of a list checked for an access, in order, up to the first that fails or waits (R151): with their memory addresses where all
pass. -/
def checkRun (acc : Acc) (addr : Nat → Nat) (n : Nat) : State → List Nat → State × List Nat × Stop
  | s, [] => (s, [], .all)
  | s, i :: r =>
    match check s s.who (addr i) n acc false true with
    | (s1, .bad c d l) => (s1, [], .bad i c d l)
    | (s1, .hold) => (s1, [], .wait i)
    | (s1, .ok l) =>
      let (s2, ks, e) := checkRun acc addr n s1 r
      (s2, l.key :: ks, e)

/-- A vector load whose elements read later, in any order (R149, R153, R283): all pass their checks as it issues, its registers are busy until
the last has read, and what else it does is done. One of which some element faults or waits does what it does at once, after the reads that come
before it (R126). -/
def startV (i : Instr) (d : Fin 64) (free : Bool) (addr : Nat → Nat) (fin : Shuttle → Shuttle) (s : State) (now : XOut) : XOut :=
  let act := s.sh.acts i.hd
  let e := s.sh.et
  match checkRun .read addr (elemBytes e) s act with
  | (s1, ks, .all) =>
    let no := s1.co.loadNo + 1
    let busy := (xRegs s1.sh (s1.sh.vlmax e s1.sh.grp) i).w
    let new : List Load := (act.zip ks).map (fun p =>
      { pos := s1.sh.pos, no := no, dst := .v e d.val p.1, busy := busy, key := p.2, size := elemBytes e, free := free, after := s1.headNo + 1 })
    .done { s1 with co := { s1.co with loads := s1.co.loads ++ new, loadNo := no }, sh := (fin (s1.sh.unpoison d.val e act)).vdone }
  | _ => if readsAfter s then .wait .other s else now

/-- A load of `vld` or `vlds` (R149): every active element below the lowest faulting one is written. `late`: its elements read later. -/
def vload (late : Bool) (i : Instr) (h : Hd) (t : EType) (d : Fin 64) (addr : Shuttle → Nat → Nat) (s : State) : Out3 :=
  xIssue i s (fun s =>
    let sh := s.sh
    if t.bits ≠ sh.et.bits then xFault cALIGN 4 s
    else if !aligned d sh.grp then xFault cALIGN 1 s
    else
      let e := sh.et
      let now : XOut :=
        let (s1, vs, st) := loadRun (addr sh) (elemBytes e) s (sh.acts h)
        let t1 := s1.sh.vwrites d.val e (vs.map (fun p => (p.1, codeOf e p.1 p.2)))
        match st with
        | .all => .done { s1 with sh := t1.vdone }
        | .wait _ => .part .other s1
        | .bad k c f l => .fault (chkFlt c f l (addr sh k) k true) { s1 with sh := { t1 with vstart := BitVec.ofNat 13 k } }
      if late then startV i d false (addr sh) id s now else now)

/-- `vld`, R149. -/
def vldAt (late : Bool) (h : Hd) (t : EType) (d a : Fin 64) (off : BitVec 14) (s : State) : Out3 :=
  vload late (.vld h t d a off) h t d (fun sh => unitAddr (effAddr (sh.srcA a) off) sh.et) s
def execVld (h : Hd) (t : EType) (d a : Fin 64) (off : BitVec 14) (s : State) : Out3 := vldAt false h t d a off s

/-- `vlds`, R149. -/
def vldsAt (late : Bool) (h : Hd) (t : EType) (d a b : Fin 64) (off : BitVec 14) (s : State) : Out3 :=
  vload late (.vlds h t d a b off) h t d (fun sh => strideAddr (effAddr (sh.srcA a) off) (sh.srcB b)) s
def execVlds (h : Hd) (t : EType) (d a b : Fin 64) (off : BitVec 14) (s : State) : Out3 := vldsAt false h t d a b off s

/-- What an indexed load finds for its elements: those read, those that fault with cause, detail and level (R150), or a wait. -/
def gatherRun (addr : Nat → Nat) (n : Nat) : State → List Nat → State × List (Nat × Nat) × List (Nat × Nat × Nat × Nat) × Bool
  | s, [] => (s, [], [], false)
  | s, i :: r =>
    match check s s.who (addr i) n .read false true with
    | (s1, .bad c d l) => let (s2, vs, bs, w) := gatherRun addr n s1 r; (s2, vs, (i, c, d, l) :: bs, w)
    | (s1, .hold) => (s1, [], [], true)
    | (s1, .ok l) =>
      if s1.co.coversSpan l.key (l.key + n) then (s1, [], [], true)
      else
        let v := s1.mem.readLe l.key n
        let (s2, vs, bs, w) := gatherRun addr n s1 r
        (s2, (i, v) :: vs, bs, w)

/-- The records of the faulting elements of a `vldx`, in element order (R150, R388). Each ECC is counted once (R336): the first element's by its
trap. -/
def pushElems (s : State) (addr : Nat → Nat) (at' : Nat) (bs : List (Nat × Nat × Nat × Nat)) : State :=
  bs.foldl (fun s b =>
    let s1 := if b.2.1 = cECC ∧ b ≠ bs.headD b then countErr s (dieOf s.co.id) 6 else s
    (pushRecord s1 { core := s1.co.id, pos := s1.sh.pos } (chkFlt b.2.1 b.2.2.1 b.2.2.2 (addr b.1) b.1 true) at').1) s

/-- A completion mask (R150): 0 where an element faulted, 1 for every other element below `vlen`. -/
def maskWrite (t : Shuttle) (pm : Fin 64) (bad : List Nat) : Shuttle :=
  if pm.val = 63 then t
  else (List.range t.vlen.toNat).foldl (fun t i => t.psetBit pm.val i (!bad.contains i)) t

/-- `vldx`, R150. `late`: its elements read later. One that completes with faulting elements leaves `vstart` as it was. DESIGN CHOICE (log entry
130). -/
def vldxAt (late : Bool) (h : Hd) (t : EType) (it : IdxT) (sf : BitVec 2) (d a b pm : Fin 64) (off : BitVec 14) (s : State) : Out3 :=
  xIssue (.vldx h t it sf d a b pm off) s (fun s =>
    let sh := s.sh
    if t.bits ≠ sh.et.bits then xFault cALIGN 4 s
    else
      match sh.groupCheck [(d, sh.et), (b, it.etype)] with
      | some e => xFault cALIGN e s
      | none =>
        let act := sh.acts h
        match sh.poisonRead (sh.readsOf h [(b, it.etype)]) with
        | some k => .fault (eccFlt k) s
        | none =>
          let base := effAddr (sh.srcA a) off
          let addr (i : Nat) : Nat := indexAddr base (sh.elem b.val i it.etype) sf.toNat
          let now : XOut :=
            let (s1, vs, bs, w) := gatherRun addr (elemBytes sh.et) s act
            if w then .part .other s1
            else
              let t1 := maskWrite (s1.sh.vwrites d.val sh.et vs) pm (bs.map Prod.fst)
              match bs with
              | [] => .done { s1 with sh := t1.vdone }
              | (k, c, _, l) :: _ =>
                let s2 := pushElems { s1 with sh := t1 } addr s1.sh.xpc bs
                .fault { chkFlt c bs.length l (addr k) k true with pushed := pm.val ≠ 63, at' := some s1.sh.xpc } s2
          if late then startV (.vldx h t it sf d a b pm off) d true addr (fun t => maskWrite t pm []) s now else now)

def execVldx (h : Hd) (t : EType) (it : IdxT) (sf : BitVec 2) (d a b pm : Fin 64) (off : BitVec 14) (s : State) : Out3 :=
  vldxAt false h t it sf d a b pm off s

/-! ## Stores -/

/-- Elements admitted to the write lane in increasing order, up to one that faults or finds its queue full (R149). -/
def storeRun (addr : Nat → Nat) (bytes : Nat → List Byte) : State → List Nat → State × Stop
  | s, [] => (s, .all)
  | s, i :: r =>
    let bs := bytes i
    match check s s.who (addr i) bs.length .write false true with
    | (s1, .bad c d l) => (s1, .bad i c d l)
    | (s1, .hold) => (s1, .wait i)
    | (s1, .ok l) =>
      match s1.co.plain l.key bs false (byX s1) with
      | some c => storeRun addr bytes { s1 with co := c } r
      | none => (s1, .wait i)

/-- The bytes a store writes for element i (R148): for `.f4` the whole byte, with the partner nibble. -/
def elemStore (t : Shuttle) (d : Fin 64) (i : Nat) : List Byte :=
  let e := t.et
  if e = .f4 then [BitVec.ofNat 8 (t.vread d.val (i / 2 * 2) e + 16 * t.vread d.val (i / 2 * 2 + 1) e)]
  else leBytes (elemBytes e) (t.vread d.val i e)

/-- The active elements not admitted yet. -/
def Shuttle.todo (t : Shuttle) (h : Hd) : List Nat := (t.acts h).filter (fun i => decide (t.xProg ≤ i))

/-- The end of a run of stores: complete, waiting at an element, or stopped at a faulting one (R149). -/
def storeEnd (addr : Nat → Nat) (vst : Bool) (r : State × Stop) : XOut :=
  let s := r.1
  match r.2 with
  | .all => .done { s with sh := s.sh.vdone }
  | .wait i => .part .other { s with sh := { s.sh with xProg := i } }
  | .bad k c f l => .fault (chkFlt c f l (addr k) k true) (if vst then { s with sh := { s.sh with vstart := BitVec.ofNat 13 k } } else s)

/-- A store of `vst` or `vsts` (R149). A poisoned element stops it as a faulting one does (R174, R335). -/
def vstore (i : Instr) (h : Hd) (t : EType) (d : Fin 64) (addr : Shuttle → Nat → Nat) (s : State) : Out3 :=
  xIssue i s (fun s =>
    let sh := s.sh
    if t.bits ≠ sh.et.bits then xFault cALIGN 4 s
    else if !aligned d sh.grp then xFault cALIGN 1 s
    else
      match sh.poisonRead ((sh.readsOf h [(d, sh.et)]).filter (fun r => decide (sh.xProg ≤ r.2.1))) with
      | some k =>
        match storeRun (addr sh) (elemStore sh d) s ((sh.todo h).filter (fun i => decide (i < k))) with
        | (s1, .all) => .fault (eccFlt k) { s1 with sh := { s1.sh with vstart := BitVec.ofNat 13 k } }
        | r => storeEnd (addr sh) true r
      | none => storeEnd (addr sh) true (storeRun (addr sh) (elemStore sh d) s (sh.todo h)))

/-- `vst`, R149. -/
def execVst (h : Hd) (t : EType) (d a : Fin 64) (off : BitVec 14) (s : State) : Out3 :=
  vstore (.vst h t d a off) h t d (fun sh => unitAddr (effAddr (sh.srcA a) off) sh.et) s

/-- `vsts`, R149. -/
def execVsts (h : Hd) (t : EType) (d a b : Fin 64) (off : BitVec 14) (s : State) : Out3 :=
  vstore (.vsts h t d a b off) h t d (fun sh => strideAddr (effAddr (sh.srcA a) off) (sh.srcB b)) s

/-- Checked elements admitted in order, each with its memory address, up to one that finds its queue full; those left (R296: what has
been checked is not checked again). -/
def admitRun (bytes : Nat → List Byte) : State → List (Nat × Nat) → State × List (Nat × Nat)
  | s, [] => (s, [])
  | s, e :: r =>
    match s.co.plain e.2 (bytes e.1) false (byX s) with
    | some c => admitRun bytes { s with co := c } r
    | none => (s, e :: r)

/-- Admission of an instruction that checks every element first (R151, R189): complete, or part-way with the addresses of the elements left.
Its progress is the place of the first of them, plus one. -/
def admitAll (bytes : Nat → List Byte) (s : State) (l : List (Nat × Nat)) (fin : State → State) : XOut :=
  match admitRun bytes s l with
  | (s1, []) => .done (fin s1)
  | (s1, e :: r) => .part .other { s1 with sh := { s1.sh with xProg := e.1 + 1, xLocs := e.2 :: r.map Prod.snd } }

/-- `vstx`, R151: every address is checked before any element is admitted; what has been checked is admitted, whatever is poisoned or
locked since (R296). -/
def execVstx (h : Hd) (t : EType) (it : IdxT) (sf : BitVec 2) (d a b : Fin 64) (off : BitVec 14) (s : State) : Out3 :=
  xIssue (.vstx h t it sf d a b off) s (fun s =>
    let sh := s.sh
    if t.bits ≠ sh.et.bits then xFault cALIGN 4 s
    else
      match sh.groupCheck [(d, sh.et), (b, it.etype)] with
      | some e => xFault cALIGN e s
      | none =>
        let done (s : State) : State := { s with sh := s.sh.vdone }
        if sh.xProg ≠ 0 then
          admitAll (elemStore sh d) s (((sh.acts h).filter (fun i => decide (sh.xProg ≤ i + 1))).zip sh.xLocs) done
        else
          match sh.poisonRead (sh.readsOf h [(d, sh.et), (b, it.etype)]) with
          | some k => .fault (eccFlt k) s
          | none =>
            let base := effAddr (sh.srcA a) off
            let addr (i : Nat) : Nat := indexAddr base (sh.elem b.val i it.etype) sf.toNat
            match checkRun .write addr (elemBytes sh.et) s (sh.acts h) with
            | (s1, _, .bad k c f l) => .fault (chkFlt c f l (addr k) k true) s1
            | (s1, _, .wait _) => .part .other s1
            | (s1, ks, .all) => admitAll (elemStore sh d) s1 ((sh.acts h).zip ks) done)

/-! ## `vldq` -/

/-- Element j of a group entry (R26, R152). -/
def QEntry.elem (q : QEntry) (L : Nat) (t : EType) (j : Nat) : Nat := bitsAt q.data.toNat (j % L * 128 + j / L * t.bits) t.bits

/-- Why a run over group entries stops at a group: its entry is not there, or an element it would write lies in a poisoned word of it. -/
inductive GroupStop where
  | wait (w : Wait)
  | ecc (i : Nat)

/-- Element j of a group entry lies in a poisoned word of it (R335). -/
def QEntry.elemBad (q : QEntry) (L : Nat) (t : EType) (j : Nat) : Bool := q.pois.contains ((j % L * 128 + j / L * t.bits) / 64)

/-- Group entries popped and written, from a group on, until none is left to do or one stops it (R152). -/
def popGroups (h : Hd) (d : Fin 64) (q : Nat) : Nat → Nat → Shuttle → Shuttle × Option (Nat × GroupStop)
  | 0, _, t => (t, none)
  | n + 1, k, t =>
    match t.popDq q with
    | .error w => (t, some (k, .wait w))
    | .ok (e, t1) =>
      let G := t.eg t.et
      let is := (t.acts h).filter (fun i => i / G == k)
      match is.find? (fun i => e.elemBad t.lanes t.et (i % G)) with
      | some i => (t, some (k, .ecc i))
      | none =>
      popGroups h d q n (k + 1) (t1.vwrites d.val t.et (is.map (fun i => (i, e.elem t.lanes t.et (i % G)))))

/-- `vldq`, R152. An empty queue makes it wait with the groups popped so far done; a poisoned element stops it before its group, with the entry
left (R174, R335). A stop leaves `vstart` at the start of the next group, a
`vstart` inside it included (R174). DESIGN CHOICE (log entry 101). -/
def execVldq (h : Hd) (t : EType) (d a : Fin 64) (s : State) : Out3 :=
  xIssue (.vldq h t d a) s (fun s =>
    let sh := s.sh
    if t.bits ≠ sh.et.bits then xFault cALIGN 4 s
    else if !aligned d sh.grp then xFault cALIGN 1 s
    else
      let G := sh.eg sh.et
      let k0 := Nat.max sh.startAt sh.xProg / G
      match popGroups h d a.val (ceilDiv sh.vlen.toNat G - k0) k0 sh with
      | (t1, none) => .done { s with sh := t1.vdone }
      | (t1, some (k, .ecc i)) => .fault (eccFlt i) { s with sh := { t1 with vstart := BitVec.ofNat 13 (Nat.max sh.startAt (k * G)) } }
      | (t1, some (k, .wait w)) =>
        if sh.xIss.isNone ∧ k = k0 then .wait w s
        else .part w { s with sh := { (if k = k0 then t1 else t1.moved) with xProg := k * G } })

end Sys2Proof.Machine
end

