-- ==== Sys2Proof/Machine/Matrix.lean ====
section
/-! DEFINITION. The matrix engine: ownership, operand FIFOs, multiply-accumulate and tiles (R171, R176 to R191, R312). -/

namespace Sys2Proof.Machine

/-! ## The engine -/

/-- An operand FIFO of the core: fa (false) or fb (true), and how many runs it holds (R177). -/
def Core.fifo (c : Core) (fb : Bool) : Fifo := if fb then c.fb else c.fa
def Core.setFifo (c : Core) (fb : Bool) (f : Fifo) : Core := if fb then { c with fb := f } else { c with fa := f }
def fifoCap (fb : Bool) : Nat := if fb then 16384 else 8192

/-- The shuttle in focus owns the engine (R176). -/
def ownsEngine (s : State) : Bool := s.co.owner == some s.sh.pos

/-- The scale 1.0 of unframed runs (R46). -/
def scaleOne : Nat := 0x7F00

/-- Codes in runs of 8, the last completed with +0 (R52). -/
def runsOf (codes : List Nat) (scale : Nat → Nat) (poison : Bool) : List FRun :=
  (List.range (ceilDiv codes.length 8)).map (fun j =>
    { codes := (List.range 8).map (fun k => codes.getD (8 * j + k) 0), scale := scale j, poison := poison })

/-- The operand type `vpush` accepts for an element type (R171). -/
def pushType : EType → Option MType
  | .e4 => some .e4
  | .e5 => some .e5
  | .f4 => some .f4
  | .i8 => some .i8
  | .bf16 => some .bf16
  | _ => none

/-- The runs of element group k of a `vpush` (R171). -/
def groupRuns (t : Shuttle) (h : Hd) (sc : Bool) (a b : Fin 64) (k : Nat) : List FRun :=
  let G := t.eg t.et
  (List.range (G / 8)).map (fun r =>
    let j := k * G / 8 + r
    { codes := (List.range 8).map (fun m => let i := 8 * j + m; if t.isAct h i then t.vread a.val i t.et else 0)
      scale := if sc then t.elem b.val j .n16 else scaleOne
      poison := false })

/-- Groups pushed in order while the FIFO has room: the FIFO, and the group it stopped at. -/
def pushGroups (t : Shuttle) (h : Hd) (sc : Bool) (a b : Fin 64) (cap : Nat) : Nat → Nat → List FRun → List FRun × Option Nat
  | 0, _, q => (q, none)
  | n + 1, k, q =>
    let r := groupRuns t h sc a b k
    if cap < q.length + r.length then (q, some k) else pushGroups t h sc a b cap n (k + 1) (q ++ r)

/-- The first active element of a `vpush` from an element on that is poisoned itself or by its scale (R335). -/
def pushPoison (t : Shuttle) (h : Hd) (sc : Bool) (a b : Fin 64) (lo : Nat) : Option Nat :=
  if t.vpoison = [] then none
  else ((t.acts h).filter (fun i => decide (lo ≤ i))).find? (fun i => t.vpoisoned a.val i t.et || (sc && t.vpoisoned b.val (i / 8) .n16))

/-- A `vpush` that waits for room at group m, the groups before it pushed. -/
def pushWait (s : State) (fb : Bool) (f : Fifo) (q : List FRun) (k0 m G : Nat) : XOut :=
  if s.sh.xIss.isNone ∧ m = k0 then .wait (.fifo fb) s
  else .part (.fifo fb) { s with co := s.co.setFifo fb { f with runs := q }, sh := { (if m = k0 then s.sh else s.sh.moved) with xProg := m * G } }

/-- `vpush`, R171, R176, R182: group by group; a poisoned element stops it before its group (R174). A stop leaves
`vstart` at that group's start, or as it was where it lies inside the group. DESIGN CHOICE (log entry 101). A FIFO not bound to pushes is
reported before another type. DESIGN CHOICE (log entry 130). -/
def execVpush (h : Hd) (fb sc : Bool) (a b : Fin 64) (st : State) : Out3 :=
  xIssue (.vpush h fb sc a b) st (fun s =>
    let t := s.sh
    let f := s.co.fifo fb
    if !ownsEngine s then xFault cPERM 8 s
    else if f.src ≠ .push then xFault cPERM 7 s
    else if pushType t.et ≠ some f.ty then xFault cALIGN 4 s
    else
      match t.groupCheck ((a, t.et) :: if sc then [(b, .n16)] else []) with
      | some e => xFault cALIGN e s
      | none =>
        let G := t.eg t.et
        let k0 := Nat.max t.startAt t.xProg / G
        match pushPoison t h sc a b (k0 * G) with
        | some k =>
          match pushGroups t h sc a b (fifoCap fb) (k / G - k0) k0 f.runs with
          | (q, none) =>
            .fault (eccFlt k) { s with co := s.co.setFifo fb { f with runs := q }
                                       sh := { t with vstart := BitVec.ofNat 13 (Nat.max t.startAt (k / G * G)) } }
          | (q, some m) => pushWait s fb f q k0 m G
        | none =>
          match pushGroups t h sc a b (fifoCap fb) (ceilDiv t.vlen.toNat G - k0) k0 f.runs with
          | (q, none) => .done { s with co := s.co.setFifo fb { f with runs := q }, sh := t.vdone }
          | (q, some m) => pushWait s fb f q k0 m G)

/-! ## Shapes and bindings -/

/-- `mtl`, R181. -/
def execMtl (h : Hd) (d a b e : Fin 64) (st : State) : Out3 :=
  xPlain (.mtl h d a b e) st (fun t =>
    ((t.xsetN d.val (BitVec.ofNat 64 (Nat.min (t.srcA a).toNat 64))).xsetN (d.val + 1)
      (BitVec.ofNat 64 (Nat.min (t.srcB b).toNat 128))).xsetN (d.val + 2) (BitVec.ofNat 64 (Nat.min (t.srcC e).toNat 1024)))

/-- Heddle transfers, on any core, whose `wr` delivers to a FIFO of the core in focus (R182, R393). -/
def delivering (s : State) (fb : Bool) : List (Nat × Nat × Cmd) :=
  s.allCores.flatMap (fun c => (cmdsOf c (s.co.recId.getD 0)).filterMap (fun e =>
    if e.2.run && e.2.kind == .xfm && e.2.wrTo == some fb then some (c.id, e) else none))

/-- `mbind`, R182. -/
def execMbind (h : Hd) (fb : Bool) (src : BindK) (t : MType) (a : Fin 64) (st : State) : Out3 :=
  xIssue (.mbind h fb src t a) st (fun s =>
    if !ownsEngine s then xFault cPERM 8 s
    else
      let s1 := (delivering s fb).foldl (fun s e =>
        endCmdErr s e.1 e.2.1 5 e.2.2.chunkNo (some { flt cPERM 7 false with index := e.2.2.chunkNo })) s
      .done { s1 with co := s1.co.setFifo fb { src := src, ty := t, tag := if src = .heddle then (s.sh.srcA a).toNat % 65536 else 0, runs := [] } })

/-! ## Filling -/

/-- The first failure of a row, and where: cause, detail, level, address. -/
abbrev RowFail := Nat × Nat × Nat × Nat

/-- What reading a row gives: its runs, its first failure, or a wait. -/
inductive Row where
  | ok (runs : List FRun)
  | bad (f : RowFail)
  | wait

/-- The elements of an unframed row checked and read in order (R183): codes with the poison of their lines. -/
def plainRow (t : EType) (base : Nat) : State → List Nat → State × Except (Option RowFail) (List (Nat × Bool))
  | s, [] => (s, .ok [])
  | s, k :: r =>
    let n := elemBytes t
    let ea := (base + k * t.bits / 8) % 2 ^ 64
    match check s s.who ea n .read false false with
    | (s1, .bad c d l) => (s1, .error (some (c, d, l, ea)))
    | (s1, .hold) => (s1, .error none)
    | (s1, .ok l) =>
      if s1.co.coversSpan l.key (l.key + n) then (s1, .error none)
      else
        match plainRow t base (meetLatent s1 (s1.co.recId.getD s1.nextRec) s1.sh.pos l.key n) r with
        | (s2, .ok vs) => (s2, .ok ((codeOf t k (s1.mem.readLe l.key n), poisonHit s1 l.key n) :: vs))
        | (s2, .error e) => (s2, .error e)

/-- Codes with poison in runs of 8 at scale 1.0. -/
def plainRuns (vs : List (Nat × Bool)) : List FRun :=
  (List.range (ceilDiv vs.length 8)).map (fun j =>
    let l := (vs.drop (8 * j)).take 8
    { codes := (List.range 8).map (fun k => (l.getD k (0, false)).1), scale := scaleOne, poison := l.any Prod.snd })

/-- A framed block's format code for an operand type, its maximum n, its element bits (R49). -/
def frameCode : MType → Nat
  | .f4 => 1
  | .e4 => 2
  | .e5 => 3
  | .i8 => 4
  | .bf16 => 5
def frameMax (code : Nat) : Nat := if code = 1 then 96 else if code = 5 then 30 else 60

/-- A block is malformed (R50). -/
def blockBad (b : List Byte) : Bool :=
  let f := (b.getD 0 0).toNat
  let n := (b.getD 2 0).toNat
  f == 0 || decide (5 < f) || b.getD 3 0 != 0 || n == 0 || decide (frameMax f < n)

/-- Element k of a block (R48). -/
def blockCode (b : List Byte) (k : Nat) : Nat :=
  match (b.getD 0 0).toNat with
  | 1 => (b.getD (16 + k / 2) 0).toNat / 2 ^ (4 * (k % 2)) % 16
  | 5 => (b.getD (4 + 2 * k) 0).toNat + 256 * (b.getD (5 + 2 * k) 0).toNat
  | _ => (b.getD (4 + k) 0).toNat

/-- The micro-scale of run j of a block (R49). -/
def blockMicro (b : List Byte) (j : Nat) : Nat := if b.getD 0 0 = 1 then (b.getD (4 + j) 0).toNat else 0x90

/-- The first m elements of a block as runs with effective scales (R52). -/
def blockRuns (b : List Byte) (m : Nat) (poison : Bool) : List FRun :=
  runsOf ((List.range m).map (blockCode b)) (fun j => eff (b.getD 1 0).toNat (blockMicro b j)) poison

/-- The blocks of a framed row read in order until they cover K elements (R183). A block of another format that is short inside its row too is
reported for its format. DESIGN CHOICE (log entry 117). -/
def framedRow (ty : MType) : Nat → State → Nat → Nat → State × Row
  | 0, s, _, _ => (s, .ok [])
  | fuel + 1, s, ea, left =>
    if left = 0 then (s, .ok [])
    else
      match check s s.who ea 64 .read false false with
      | (s1, .bad c d l) => (s1, .bad (c, d, l, ea))
      | (s1, .hold) => (s1, .wait)
      | (s1, .ok l) =>
        if s1.co.covers (l.key / 64 * 64) then (s1, .wait)
        else
          let b := s1.mem.readN l.key 64
          let n := (b.getD 2 0).toNat
          if blockBad b then (s1, .bad (cINTEG, 2, 0, ea))
          else if (b.getD 0 0).toNat ≠ frameCode ty then (s1, .bad (cINTEG, 3, 0, ea))
          else if n < left ∧ n % 8 ≠ 0 then (s1, .bad (cINTEG, 2, 0, ea))
          else
            let rs := blockRuns b (Nat.min n left) (poisonHit s1 l.key 64)
            match framedRow ty fuel (meetLatent s1 (s1.co.recId.getD s1.nextRec) s1.sh.pos l.key 64) ((ea + 64) % 2 ^ 64) (left - n) with
            | (s2, .ok r) => (s2, .ok (rs ++ r))
            | (s2, x) => (s2, x)

/-- One row of a fill. -/
def fillRow (s : State) (fr : Bool) (ty : MType) (ea K : Nat) : State × Row :=
  if fr then framedRow ty K s ea K
  else
    match plainRow ty.etype ea s (List.range K) with
    | (s1, .ok vs) => (s1, .ok (plainRuns vs))
    | (s1, .error (some f)) => (s1, .bad f)
    | (s1, .error none) => (s1, .wait)

/-- Rows read in order up to the lowest failing one: their runs, how many, and the failure. -/
def fillRows (fr : Bool) (ty : MType) (K : Nat) (addr : Nat → Nat) : State → List Nat → State × List FRun × Nat × Option (Option RowFail)
  | s, [] => (s, [], 0, none)
  | s, r :: rest =>
    match fillRow s fr ty (addr r) K with
    | (s1, .bad f) => (s1, [], 0, some (some f))
    | (s1, .wait) => (s1, [], 0, some none)
    | (s1, .ok rs) =>
      let (s2, q, n, e) := fillRows fr ty K addr s1 rest
      (s2, rs ++ q, n + 1, e)

/-- `mfill`, R183. Of two failing checks a size out of range is reported before a misaligned base or stride. DESIGN CHOICE (log
entry 102). -/
def execMfill (h : Hd) (fb fr ff : Bool) (d a b e : Fin 64) (st : State) : Out3 :=
  xIssue (.mfill h fb fr ff d a b e) st (fun s =>
    let t := s.sh
    let f := s.co.fifo fb
    let nr := (t.srcD d).toNat
    let K := (t.srcC e).toNat
    let base := t.srcA a
    let stride := t.srcB b
    let al := if fr then 64 else elemBytes f.ty.etype
    if !ownsEngine s then xFault cPERM 8 s
    else if f.src ≠ .fill then xFault cPERM 7 s
    else if (if fb then 128 else 64) < nr ∨ 1024 < K then xFault cALIGN 7 s
    else if nr = 0 ∨ K = 0 then .done s
    else if base.toNat % al ≠ 0 ∨ stride.toNat % al ≠ 0 then .fault (chkFlt cALIGN 3 0 base.toNat 0 true) s
    else if fifoCap fb < f.runs.length + nr * ceilDiv K 8 then .wait (.fifo fb) s
    else
      match fillRows fr f.ty K (strideAddr base.toNat stride) s (List.range nr) with
      | (s1, _, _, some none) => .part .other s1
      | (s1, q, n, some (some (c, x, l, ea))) =>
        if n = 0 ∨ !ff ∨ c ≠ cXLAT then .fault (chkFlt c x l ea n true) s1
        else .done { s1 with co := s1.co.setFifo fb { f with runs := f.runs ++ q }, sh := s1.sh.xset d (BitVec.ofNat 64 n) }
      | (s1, q, n, none) =>
        .done { s1 with co := s1.co.setFifo fb { f with runs := f.runs ++ q }, sh := s1.sh.xset d (BitVec.ofNat 64 n) })

/-! ## Multiply-accumulate -/

/-- Element f of a tile. -/
def Tile.elem (t : Tile) (f : Nat) : Nat := bitsAt t.data.toNat (32 * f) 32

/-- A tile from its elements (R179). -/
def tileOf (v : Nat → Nat) : BitVec 262144 :=
  BitVec.ofNat 262144 ((List.range 128).foldr (fun r acc =>
    ((List.range 64).foldr (fun k a => a * 2 ^ 32 + v (64 * r + k) % 2 ^ 32) 0) + acc * 2 ^ 2048) 0)

/-- K per clock (R180). -/
def kstep : MType → Nat
  | .f4 => 8
  | .bf16 => 2
  | _ => 4

/-- A row of runs as values with their scales, the first K elements. -/
def rowVals (ty : MType) (rs : List FRun) (K : Nat) : List (FVal × FVal) :=
  ((rs.map (fun r => r.codes.map (fun c => ((EType.kind ty.etype).val c, fe8m8.val r.scale)))).flatten).take K

/-- The chunks of a row and a column applied to an accumulator in increasing k (R184, R61, R62). -/
def accumulate (bf : Bool) : Nat → Nat → List (FVal × FVal) → List (FVal × FVal) → Nat × Nat
  | 0, acc, _, _ => (acc, 0)
  | fuel + 1, acc, x, y =>
    match x with
    | [] => (acc, 0)
    | _ =>
      let c := if bf then 16 else 64
      let ps := ((x.take c).zip (y.take c)).map (fun p => (p.1.1, p.2.1, p.1.2, p.2.2))
      let (a1, f) := if bf then chunk62 acc ps else chunk61 acc ps
      let (a2, g) := accumulate bf fuel a1 (x.drop c) (y.drop c)
      (a2, f ||| g)

/-- Rows of a number of runs. -/
def rowsOf (rs : List FRun) (n per : Nat) : List (List FRun) := (List.range n).map (fun r => (rs.drop (r * per)).take per)

/-- The tile after an `mma`, with its flags (R184). -/
def mmaTileVal (old : Tile) (z : Bool) (ta tb : MType) (fa fb : List FRun) (gm gn gk : Nat) : Tile × Nat :=
  let per := ceilDiv gk 8
  let A := (rowsOf fa gm per).map (fun r => rowVals ta r gk)
  let B := (rowsOf fb gn per).map (fun r => rowVals tb r gk)
  let res := (List.range gm).map (fun m => (List.range gn).map (fun n =>
    accumulate (ta == .bf16) gk (if z then 0 else old.elem (128 * m + n)) (A.getD m []) (B.getD n [])))
  ({ old with data := tileOf (fun f =>
      if f / 128 < gm ∧ f % 128 < gn then ((res.getD (f / 128) []).getD (f % 128) (0, 0)).1 else old.elem f) },
   res.foldl (fun a r => r.foldl (fun b e => b ||| e.2) a) 0)

/-- The first element of a word of a tile lies in its first rows and columns. -/
def wordIn (rows cols w : Nat) : Bool := decide (w / 64 < rows) && decide (w % 64 * 2 < cols)

/-- `mma`, R184 to R186. The grant of its tile (R9) is checked after ownership and before the bindings. DESIGN CHOICE (log entry 102). -/
def execMma (h : Hd) (z : Bool) (ta tb : MType) (zt : BitVec 8) (a b e : Fin 64) (st : State) : Out3 :=
  xIssue (.mma h z ta tb zt a b e) st (fun s =>
    let t := s.sh
    let gm := (t.srcA a).toNat
    let gn := (t.srcB b).toNat
    let gk := (t.srcC e).toNat
    if !ownsEngine s then xFault cPERM 8 s
    else if !tileGranted t zt.toNat then xFault cPERM 1 s
    else if s.co.fa.src = .none ∨ s.co.fb.src = .none then xFault cPERM 7 s
    else if s.co.fa.ty ≠ ta ∨ s.co.fb.ty ≠ tb then xFault cALIGN 4 s
    else if 64 < gm ∨ 128 < gn ∨ 1024 < gk then xFault cALIGN 7 s
    else
      let per := ceilDiv gk 8
      let c := s.co.cycle
      if gm = 0 ∨ gn = 0 ∨ gk = 0 then .done s
      else if s.co.fa.runs.length < gm * per then .wait (.fifo false) s
      else if s.co.fb.runs.length < gn * per then .wait (.fifo true) s
      else
        let ra := s.co.fa.runs.take (gm * per)
        let rb := s.co.fb.runs.take (gn * per)
        let old := s.co.tile zt.toNat
        if (ra ++ rb).any (fun r => r.poison) then xFault cECC 1 s
        else if !z && old.pois.any (fun w => wordIn gm gn w) then xFault cECC 2 s
        else
          let (nt, fl) := mmaTileVal old z ta tb ra rb gm gn gk
          let occ := ceilDiv gk (kstep ta)
          .done { s with
            co := { (s.co.setTile zt.toNat { nt with pois := old.pois.filter (fun w => !wordIn gm (gn - 1) w) }) with
              fa := { s.co.fa with runs := s.co.fa.runs.drop (gm * per) }
              fb := { s.co.fb with runs := s.co.fb.runs.drop (gn * per) }
              engFree := c + occ }
            sh := { t with flight := { dests := [.z zt.toNat], lands := c + 15 + occ, fflags := BitVec.ofNat 5 fl, sat := false,
                                       mma := some zt.toNat } :: t.flight } })

/-! ## Tiles -/

/-- A tile instruction of the shuttle in focus: PERM 1 for a tile not granted (R9, R176). -/
def tileOp (i : Instr) (z : BitVec 8) (st : State) (f : State → Tile → XOut) : Out3 :=
  xIssue i st (fun s => if !tileGranted s.sh z.toNat then xFault cPERM 1 s else f s (s.co.tile z.toNat))

/-- `mzero`, R188. -/
def execMzero (h : Hd) (t : BitVec 8) (st : State) : Out3 :=
  tileOp (.mzero h t) t st (fun s _ => .done { s with co := s.co.setTile t.toNat Tile.reset })

/-- A tile element, or the band scale it is read with, lies in a poisoned word (R335). -/
def Tile.elemBad (t : Tile) (f : Nat) : Bool := t.pois.contains (f / 2) || t.pois.contains 4096

/-- A tile element scaled by its band scale, exact, with the flags of the product (R187). -/
def scaledElem (z : Tile) (f : Nat) : FVal × Nat := (fp32.val (z.elem f)).mul (fbf16.val z.scale.toNat)

/-- A tile element read out and converted (R187). -/
def readOut (z : Tile) (t : EType) (rm : Rm) (ov : Ov) (f : Nat) : Conv :=
  let (x, fl) := scaledElem z f
  let c := (EType.kind t).convert rm ov false x
  { c with flags := c.flags ||| fl }

/-- `mrd`, R187. A start beyond the tile is reported before a misaligned group. DESIGN CHOICE (log entry 102). -/
def execMrd (h : Hd) (rm : Rm) (ov : Ov) (t : BitVec 8) (d a : Fin 64) (st : State) : Out3 :=
  tileOp (.mrd h rm ov t d a) t st (fun s z =>
    let sh := s.sh
    let f0 := (sh.srcA a).toNat
    if 8192 < f0 + sh.vlen.toNat then xFault cALIGN 7 s
    else if !aligned d sh.grp then xFault cALIGN 1 s
    else if let some i := (sh.acts h).find? (fun i => z.elemBad (f0 + i)) then .fault (eccFlt i) s
    else convEnd s d (convRun (fun i => readOut z sh.et rm ov (f0 + i)) (sh.actives h)) true)

/-- `mwr`, R188. Of several failing checks the type's is reported first, then the start's, then the group's. DESIGN CHOICE (log entry
102). -/
def execMwr (h : Hd) (t : BitVec 8) (d a : Fin 64) (st : State) : Out3 :=
  tileOp (.mwr h t d a) t st (fun s z =>
    let sh := s.sh
    let f0 := (sh.srcA a).toNat
    if sh.et ≠ .f32 then xFault cALIGN 4 s
    else if 8192 < f0 + sh.vlen.toNat then xFault cALIGN 7 s
    else if !aligned d sh.grp then xFault cALIGN 1 s
    else
      match sh.poisonRead (sh.readsOf h [(d, .f32)]) with
      | some k => .fault (eccFlt k) s
      | none =>
        let puts (f : Nat) : Bool := decide (f0 ≤ f) && sh.active h (f - f0)
        .done { s with
          co := s.co.setTile t.toNat { z with
            data := tileOf (fun f => if puts f then sh.elem d.val (f - f0) .f32 else z.elem f)
            pois := z.pois.filter (fun w => !(decide (w < 4096) && puts (2 * w) && puts (2 * w + 1))) }
          sh := sh.vdone })

/-- `mbs`, R188. -/
def execMbs (h : Hd) (t : BitVec 8) (a : Fin 64) (st : State) : Out3 :=
  tileOp (.mbs h t a) t st (fun s z => .done { s with co := s.co.setTile t.toNat { z with scale := BitVec.ofNat 16 (s.sh.srcA a).toNat, pois := z.pois.filter (fun w => w != 4096) } })

/-- `mbs.rd`, R188. -/
def execMbsRd (h : Hd) (t : BitVec 8) (d : Fin 64) (st : State) : Out3 :=
  tileOp (.mbsRd h t d) t st (fun s z => if z.pois.contains 4096 then .fault (eccFlt 0) s else .done { s with sh := s.sh.xset d (z.scale.zeroExtend 64) })

/-! ## Draining -/

/-- The writes of a drain in order (R189): row, first column, columns to a byte (two for `.f4`). -/
def drainUnits (ty : EType) (rows cols : Nat) : List (Nat × Nat) :=
  (List.range rows).flatMap (fun m => (List.range (if ty = .f4 then ceilDiv cols 2 else cols)).map (fun n => (m, if ty = .f4 then 2 * n else n)))

/-- The address of a unit, by its place in the order. -/
def drainAddr (ty : EType) (base stride : Word) (u : Nat × Nat) : Nat :=
  (BitVec.ofInt 64 (base.toNat + u.1 * stride.toInt + u.2 * ty.bits / 8)).toNat

/-- The bytes of a unit: an element, or two nibbles of which the one beyond the last column is 0. -/
def drainBytes (ty : EType) (cols : Nat) (val : Nat → Nat) (u : Nat × Nat) : List Byte :=
  if ty = .f4 then [BitVec.ofNat 8 (val (128 * u.1 + u.2) + if u.2 + 1 < cols then 16 * val (128 * u.1 + u.2 + 1) else 0)]
  else leBytes (elemBytes ty) (val (128 * u.1 + u.2))

/-- The units of a drain checked, all of them (R189): their memory addresses, and the failing unit of lowest address. -/
def drainCheck (addr : Nat → Nat) (n : Nat) : State → List Nat → Option (Nat × Nat × Nat × Nat) →
    State × Except Unit (List Nat × Option (Nat × Nat × Nat × Nat))
  | s, [], best => (s, .ok ([], best))
  | s, i :: r, best =>
    match check s s.who (addr i) n .write false true with
    | (s1, .hold) => (s1, .error ())
    | (s1, .ok l) =>
      match drainCheck addr n s1 r best with
      | (s2, .ok (ks, b)) => (s2, .ok (l.key :: ks, b))
      | (s2, .error u) => (s2, .error u)
    | (s1, .bad c d l) =>
      drainCheck addr n s1 r (match best with
        | some b => if addr b.1 ≤ addr i then best else some (i, c, d, l)
        | none => some (i, c, d, l))

/-- The tile port is taken and the tile busy while a drain of some rows reads it (R33, R189, R191): from its issue on, whether or not its
elements are admitted meanwhile. A row count that is no multiple of 16 counts as the next one. DESIGN CHOICE (log entry 130). -/
def Core.startDrain (c : Core) (z rows : Nat) : Core :=
  let till := c.cycle + 64 * ceilDiv rows 16
  { c with portFree := till, tileBusy := aput c.tileBusy z till }

/-- `mdrain`, R189. -/
def execMdrain (h : Hd) (ty : EType) (rm : Rm) (ov : Ov) (t : BitVec 8) (d a b e : Fin 64) (st : State) : Out3 :=
  tileOp (.mdrain h ty rm ov t d a b e) t st (fun s z =>
    let sh := s.sh
    let rows := (sh.srcD d).toNat
    let cols := (sh.srcC e).toNat
    let base := sh.srcA a
    let stride := sh.srcB b
    let n := elemBytes ty
    if 64 < rows ∨ 128 < cols then xFault cALIGN 7 s
    else if rows = 0 ∨ cols = 0 then .done s
    else if base.toNat % n ≠ 0 ∨ stride.toNat % n ≠ 0 then .fault (chkFlt cALIGN 3 0 base.toNat 0 true) s
    else
      let us := drainUnits ty rows cols
      let addr (i : Nat) : Nat := drainAddr ty base stride (us.getD i (0, 0))
      let flat := (List.range rows).flatMap (fun m => (List.range cols).map (fun k => 128 * m + k))
      let r := convRun (readOut z ty rm ov) flat
      let bytes (i : Nat) : List Byte := drainBytes ty cols (fun f => (readOut z ty rm ov f).code) (us.getD i (0, 0))
      let fin (s : State) : State := { s with sh := s.sh.flag r.2.1 }
      if sh.xProg ≠ 0 then
        admitAll bytes s (((List.range us.length).filter (fun i => decide (sh.xProg ≤ i + 1))).zip sh.xLocs) fin
      else
        if let some f := flat.find? z.elemBad then .fault (eccFlt f) s
        else
        match drainCheck addr n s (List.range us.length) none with
        | (s1, .error ()) => .part .other s1
        | (s1, .ok (_, some (i, c, x, l))) =>
          let u := us.getD i (0, 0)
          .fault (chkFlt c x l (addr i) (128 * u.1 + u.2) true) s1
        | (s1, .ok (ks, none)) =>
          match r.2.2 with
          | some k => .fault { flt cNUMOVF k true with index := k } s1
          | none => admitAll bytes { s1 with co := s1.co.startDrain t.toNat rows } ((List.range us.length).zip ks) fin)

/-! ## Ownership -/

/-- `mown.acq`, R190: in the order of issue (R176). -/
def execMownAcq (h : Hd) (d : Fin 64) (st : State) : Out3 :=
  xIssue (.mownAcq h d) st (fun s =>
    let p := s.sh.pos
    if ownsEngine s then .done { s with sh := s.sh.xset d 1 }
    else
      let acqs := if s.co.acqs.contains p then s.co.acqs else s.co.acqs ++ [p]
      if s.co.owner = none ∧ acqs.head? = some p then
        .done { s with co := { s.co with owner := some p, acqs := acqs.tail, ownAt := s.gn.t64.toNat, overHold := 0 }, sh := s.sh.xset d 0 }
      else .part .other { s with co := { s.co with acqs := acqs } })

/-- `mown.try`, R190. -/
def execMownTry (h : Hd) (d : Fin 64) (st : State) : Out3 :=
  xIssue (.mownTry h d) st (fun s =>
    if ownsEngine s then .done { s with sh := s.sh.xset d 1 }
    else if s.co.owner = none then
      .done { s with co := { s.co with owner := some s.sh.pos, ownAt := s.gn.t64.toNat, overHold := 0 }, sh := s.sh.xset d 0 }
    else .done { s with sh := s.sh.xset d 2 })

/-- `mown.rel`, R190: both FIFOs are emptied and unbound. A heddle `wr` still held at one finds no FIFO bound to its tag (R236, R393). DEDUCED
(log entry 117). -/
def execMownRel (h : Hd) (st : State) : Out3 :=
  xIssue (.mownRel h) st (fun s =>
    if ownsEngine s then
      let s1 := (delivering s false ++ delivering s true).foldl (fun s e => endCmdErr s e.1 e.2.1 10 e.2.2.chunkNo none) s
      .done { s1 with co := { s1.co with owner := none, overHold := 0, fa := Fifo.reset, fb := Fifo.reset } }
    else .done s)

/-- `mown.rd`, R190. -/
def execMownRd (h : Hd) (d : Fin 64) (st : State) : Out3 :=
  xIssue (.mownRd h d) st (fun s =>
    .done { s with sh := s.sh.xset d (if s.co.owner = none then 0 else if ownsEngine s then 1 else 2) })

/-- HOLD_LIMIT, R312: the owner of the engine of the core in focus has held it beyond the region's limit, in µs of 4,000 units
of T64, while another shuttle waits for it: event bit 3; beyond a second limit, BUDGET at its next yield point. -/
def execHoldLimit (s : State) : Out3 :=
  match s.co.owner with
  | none => .next s
  | some p =>
    let lim := s.co.holdLim * 4000
    let held := s.gn.t64.toNat - s.co.ownAt
    if lim = 0 ∨ !(s.co.acqs.any (fun q => q != p)) then .next s
    else if s.co.overHold = 0 ∧ lim < held then
      .next (setEvent { s with co := { s.co with overHold := 1 } } { core := s.co.id, pos := p } 8)
    else if s.co.overHold = 1 ∧ 2 * lim < held then
      let s1 := { s with co := { s.co with overHold := 2 } }
      .next (s1.setShuttle s1.co.id { (s1.shuttle { core := s1.co.id, pos := p }) with budgetDue := true })
    else .next s

end Sys2Proof.Machine
end

