-- ==== Sys2Proof/Machine/Heddle.lean ====
section
/-! DEFINITION. Heddle commands: starting one (R222, R223, R229 to R234), moving its chunks (R224, R226, R352, R353), finishing
a chunk, its status (R227) and the running CRC (R228). The micro-ops of a program are in MicroOps. -/

namespace Sys2Proof.Machine

/-! ## Engine accesses -/

/-- The abort code of a fault cause (R137, R227, R229). -/
def errOf (cause : Nat) : Nat := if cause = cXLAT then 4 else if cause = cINTEG then 3 else if cause = cNUMOVF then 6 else 5

/-- What an engine read finds: bytes and their poison, the fault with its address, or a wait. -/
inductive Got where
  | ok (bs : List Byte) (poison : Bool)
  | bad (c d l ea : Nat)
  | wait

/-- Bytes read by an engine, one line part after another, each checked as a read without check 6 (R224); it waits while its core's
queues cover a line (R126, R226). It is for a shuttle of a record. -/
def engRead (core : Nat) (w : Who) (id pos : Nat) : Nat → State → Nat → Nat → State × Got
  | 0, s, _, _ => (s, .ok [] false)
  | fuel + 1, s, ea, n =>
    if n = 0 then (s, .ok [] false)
    else
      let m := Nat.min n (64 - ea % 64)
      match check s w ea 1 .read true false with
      | (s1, .bad c d l) => (s1, .bad c d l ea)
      | (s1, .hold) => (s1, .wait)
      | (s1, .ok l) =>
        if (s1.core core).coversSpan l.key (l.key + m) then (s1, .wait)
        else
          match engRead core w id pos fuel (meetLatent s1 id pos l.key m) ((ea + m) % 2 ^ 64) (n - m) with
          | (s2, .ok bs p) => (s2, .ok (s1.mem.readN l.key m ++ bs) (p || poisonHit s1 l.key m))
          | r => r

/-- What an engine write finds. -/
inductive Put where
  | ok (key : Nat)
  | bad (c d l ea : Nat)
  | wait

/-- The checks of an engine write of a line part (R224): as a write without check 6; part of a line of a framed page is PERM (R278). -/
def engCheck (w : Who) (s : State) (ea n : Nat) : State × Put :=
  match check s w ea 1 .write true false with
  | (s1, .bad c d l) => (s1, .bad c d l ea)
  | (s1, .hold) => (s1, .wait)
  | (s1, .ok l) => if l.frm && n != 64 then (s1, .bad cPERM 5 0 ea) else (s1, .ok l.key)

/-- A line part admitted to the write lane of a command's core for a chunk. -/
def engWrite (core slot chunk : Nat) (w : Who) (s : State) (ea : Nat) (bs : List Byte) (poison : Bool) : State × Put :=
  match engCheck w s ea bs.length with
  | (s1, .ok key) =>
    match (s1.core core).plain key bs poison { a := [], x := [], t := [(slot, chunk)] } with
    | some c => (s1.setCore c, .ok key)
    | none => (s1, .wait)
  | r => r

/-- A chunk fails (R225): its command ends, with a record of the fault. -/
def failChunk (s : State) (core slot chunk : Nat) (c d l ea : Nat) : State :=
  endCmdErr s core slot (errOf c) chunk (some (chkFlt c d l ea chunk false))

/-- A command of a core. -/
def State.cmd? (s : State) (core slot : Nat) : Option Cmd := afind? (s.core core).cmds slot
def State.setCmd (s : State) (core slot : Nat) (c : Cmd) : State :=
  s.setCore { (s.core core) with cmds := aput (s.core core).cmds slot c }

/-- What frames hold of the X queue at the traps a command stood before; those in whose handler it started hold nothing up: a trap empties the
queue (R325). DEDUCED (log entry 43). -/
def parkedSpans (c : Cmd) (l : List Parked) : List (Nat × Int × Int) := (l.filter (fun p => decide (c.order < p.cmds))).flatMap (fun p => p.spans)

/-- A range of a command waits for the X-class accesses dispatched before it whose known span it meets, as an A-class access would (R226, R128):
those in the queue, in a frame or saved, those that have yet to read, and where the command reads also those that have yet to perform. Other
reads that come before the command hold nothing up (R292). -/
def xAhead (s : State) (c : Cmd) (rd : Bool) (ea n : Nat) : Bool :=
  let met (l : List (Nat × Int × Int)) : Bool := l.any (fun p => decide (p.1 < c.xAfter) && touches p.2 ea n)
  match s.live? c.recId c.pos with
  | some r =>
    let f := s.refocus r
    met (numberedSpans f (inForce f) f.sh.xq ++ parkedSpans c f.sh.parked ++ reachLeft f rd)
  | none =>
    match (s.rec? c.recId).bind (fun q => q.kept.find? (fun k => k.pos == c.pos)) with
    | some k => met (k.spans ++ parkedSpans c k.parked)
    | none => false

/-! ## Fold units (R279 to R282) -/

/-- Bytes of a fold slot. -/
def foldSlot : Nat := 4160

/-- The slot u steps forward from a slot address (R279): past the last slot of a page, slot 0 of the next page. PERM when a page on
the way is not compressed or the address is no slot address (R229, R353). -/
def slotStep (pid : Nat) (acc : Acc) : Nat → State → Nat → Nat → State × Except (Nat × Nat × Nat × Nat) Nat
  | 0, s, ea, _ => (s, .error (cPERM, 5, 0, ea))
  | fuel + 1, s, ea, u =>
    if windowOf ea ≠ .xlat then (s, .error (cPERM, 3, 0, ea))
    else
      match translate s pid ea acc with
      | (s1, .error (c, d, l)) => (s1, .error (c, d, l, ea))
      | (s1, .ok none) => (s1, .error (cPERM, 5, 0, ea))
      | (s1, .ok (some t)) =>
        let o := ea - t.va
        let i := o / foldSlot
        let n := 2 ^ t.bits / foldSlot
        if !t.cmp || o % foldSlot != 0 || n ≤ i then (s1, .error (cPERM, 5, 0, ea))
        else if i + u < n then (s1, .ok (ea + foldSlot * u))
        else slotStep pid acc fuel s1 (t.va + 2 ^ t.bits) (u - (n - i))

/-- The 16-bit words of a block. -/
def words16 (b : List Byte) : List Nat := (List.range 32).map (fun k => (b.getD (2 * k) 0).toNat + 256 * (b.getD (2 * k + 1) 0).toNat)

/-- The zig-zag codes of the deltas of a block's words (R281). -/
def zigzag (prev : Nat) : List Nat → List Nat
  | [] => []
  | w :: r =>
    let d := (w + 2 ^ 16 - prev) % 2 ^ 16
    (if d < 2 ^ 15 then 2 * d else 2 * (2 ^ 16 - d) - 1) :: zigzag w r

/-- The words that zig-zag codes stand for (R282). -/
def unzig (prev : Nat) : List Nat → List Nat
  | [] => []
  | z :: r =>
    let d := if z % 2 = 0 then z / 2 else 2 ^ 16 - (z + 1) / 2
    let w := (prev + d) % 2 ^ 16
    w :: unzig w r

/-- The code of a block after another, and its body (R280, R281, R235). -/
def foldBlock (prev : Option (List Byte)) (b : List Byte) : Nat × List Byte :=
  if b.all (· == 0) then (0, [])
  else if prev = some b then (1, [])
  else
    let z := zigzag 0 (words16 b)
    match (List.range 15).find? (fun w => z.all (fun v => v < 2 ^ (w + 1))) with
    | some k =>
      let w := k + 1
      (3, BitVec.ofNat 8 w :: leBytes (4 * w) ((z.mapIdx (fun i v => v * 2 ^ (w * i))).sum))
    | none => (2, b)

/-- Codes and bodies of the blocks of a unit in order. -/
def foldBlocks (prev : Option (List Byte)) : List (List Byte) → List (Nat × List Byte)
  | [] => []
  | b :: r => foldBlock prev b :: foldBlocks (some b) r

/-- The bytes cut into pieces of a length. -/
def cutN (n : Nat) : Nat → List Byte → List (List Byte)
  | 0, _ => []
  | k + 1, bs => if bs = [] then [] else bs.take n :: cutN n k (bs.drop n)

/-- Bytes brought to a length with zeros. -/
def padTo (n : Nat) (bs : List Byte) : List Byte := bs ++ List.replicate (n - bs.length) 0

/-- The encoded unit of 4,096 bytes (R280). -/
def foldEnc (bs : List Byte) : List Byte :=
  let e := foldBlocks none (cutN 64 64 bs)
  leBytes 16 ((e.mapIdx (fun k b => b.1 * 4 ^ k)).sum) ++ (e.map Prod.snd).flatten

/-- FoldDecode of R282 from block k on: the decoded blocks and where the unit ends; none when malformed. -/
def foldDec (s : List Byte) (hdr : Nat) : Nat → Nat → Nat → List Byte → Option (List Byte × Nat)
  | 0, _, p, _ => some ([], p)
  | n + 1, k, p, prev =>
    let go (b : List Byte) (p : Nat) : Option (List Byte × Nat) := (foldDec s hdr n (k + 1) p b).map (fun r => (b ++ r.1, r.2))
    match bitsAt hdr (2 * k) 2 with
    | 0 => go (List.replicate 64 0) p
    | 1 => if k = 0 then none else go prev p
    | 2 => go (padTo 64 ((s.drop p).take 64)) (p + 64)
    | _ =>
      let w := (s.getD p 0).toNat
      if w < 1 ∨ 15 < w then none
      else
        let v := leNat ((s.drop (p + 1)).take (4 * w))
        go ((unzig 0 ((List.range 32).map (fun i => bitsAt v (w * i) w))).flatMap (leBytes 2)) (p + 1 + 4 * w)

/-- A unit decoded: its 4,096 bytes and its encoded length. -/
def foldDecode (s : List Byte) : Option (List Byte × Nat) := foldDec s (leNat (s.take 16)) 64 0 16 []

/-- Encoded units back to back cut apart and laid into slots; none when one is malformed (R353). -/
def slotsOf : Nat → List Byte → Option (List Byte)
  | 0, _ => some []
  | n + 1, bs =>
    match foldDecode bs with
    | none => none
    | some (_, k) => (slotsOf n (bs.drop k)).map (fun r => padTo foldSlot (bs.take k) ++ r)

/-! ## Chunks -/

/-- Bytes a chunk of a command moves: of its length, or whole slots for a folded get (R353). -/
def Cmd.total (c : Cmd) (chunk : Nat) : Nat :=
  let n := (c.span chunk).2
  if c.fold && c.kind == .get then n / 4096 * foldSlot else n

/-- A piece moved on: the command's progress, and the heddle bytes counted (R245). -/
def pieceDone (s : State) (core slot chunk k : Nat) (keep : List Byte) : State :=
  match s.cmd? core slot with
  | none => s
  | some c =>
    let g := if keep = [] then c.gather else aput c.gather chunk (aget [] c.gather chunk ++ keep)
    let s1 := s.setCmd core slot { c with moved := aput c.moved chunk (aget 0 c.moved chunk + k), gather := g }
    s1.setCore { s1.core core with hedBytes := (s1.core core).hedBytes + k }

/-- Bytes whose source lies in the destination span of an overlapping copy are undefined (R224). -/
def overlapBytes (s : State) (c : Cmd) (src : Nat) (bs : List Byte) : State × List Byte :=
  let hit (a : Nat) : Bool := (a + 2 ^ 64 - c.dst.toNat) % 2 ^ 64 < c.len
  if (List.range bs.length).any (fun j => hit ((src + j) % 2 ^ 64)) then
    let (n, s1) := s.fresh
    (s1, bs.mapIdx (fun j b => if hit ((src + j) % 2 ^ 64) then Config.freeByte n j else b))
  else (s, bs)

/-- Source bytes of a copy read by whole line parts until some are at hand, with their poison: `have` those there, `left` what the chunk has
after them. -/
def readAhead (core : Nat) (c : Cmd) (need : Nat) : Nat → State → Nat → Nat → List (Byte × Bool) →
    State × Except (Option (Nat × Nat × Nat × Nat)) (List (Byte × Bool))
  | 0, s, _, _, got => (s, .ok got)
  | fuel + 1, s, ea, left, got =>
    if need ≤ got.length ∨ left = 0 then (s, .ok got)
    else
      let m := Nat.min left (64 - ea % 64)
      if xAhead s c true ea m then (s, .error none)
      else
        match engRead core (c.who core) c.recId c.pos 1 s ea m with
        | (s1, .bad e d l a) => (s1, .error (some (e, d, l, a)))
        | (s1, .wait) => (s1, .error none)
        | (s1, .ok bs p) =>
          let (s2, out) := overlapBytes s1 c ea bs
          readAhead core c need fuel s2 ((ea + m) % 2 ^ 64) (left - m) (got ++ out.map (fun b => (b, p)))

/-- The next piece of a chunk of `hcopy` (R224, R278, R286): its part of one line of the destination. Each line of the source is read once, and
what the piece does not use of it is kept for the next. -/
def copyPiece (s : State) (core slot chunk : Nat) (c : Cmd) : State :=
  let (o, n) := c.span chunk
  let m := aget 0 c.moved chunk
  let dst := (c.dst.toNat + o + m) % 2 ^ 64
  let k := Nat.min (n - m) (64 - dst % 64)
  let got := aget [] c.ahead chunk
  if k = 0 || xAhead s c false dst k then s
  else
    match readAhead core c k 3 s ((c.src.toNat + o + m + got.length) % 2 ^ 64) (n - m - got.length) got with
    | (s1, .error (some (e, d, l, ea))) => failChunk s1 core slot chunk e d l ea
    | (s1, .error none) => s1
    | (s1, .ok bs) =>
      let out := (bs.take k).map Prod.fst
      match engWrite core slot chunk (c.who core) s1 dst out ((bs.take k).any Prod.snd) with
      | (s2, .bad e d l ea) => failChunk s2 core slot chunk e d l ea
      | (s2, .wait) => s2
      | (s2, .ok _) =>
        let s3 := pieceDone s2 core slot chunk k (if c.crc then out else [])
        match s3.cmd? core slot with
        | some q => s3.setCmd core slot { q with ahead := aput q.ahead chunk (bs.drop k) }
        | none => s3

/-- Fabric bytes sent are counted for their partition (R245, R352). -/
def countFab (s : State) (pid n : Nat) : State :=
  match s.part? pid with
  | some p => s.setPart pid { p with fabBytes := p.fabBytes + n }
  | none => s

/-- Ports that carry traffic of a partition (R376): from its creation on, all that its commands may use or its messages come by. DESIGN CHOICE
(log entry 128). -/
def notePorts (s : State) (pid : Nat) (l : List Nat) : State :=
  match s.part? pid with
  | some p => s.setPart pid { p with ports := joinL p.ports l }
  | none => s

/-- The ports that may carry a command's traffic (R345, R351): one for a reliable ordered command, which uses one path (R352). -/
def Cmd.via (c : Cmd) (s : State) : List Nat :=
  let l := (List.range 48).filter (fun k => (c.ports == 0 || bitAt c.ports k) && !s.portsDown.contains k)
  if c.rod then l.take 1 else l

/-- A message to the peer of a command. -/
def sendFab (s : State) (c : Cmd) (va : Nat) (data : List Byte) (want : Nat) (unit : Option Nat) (bar : Option (Word × Bool))
    (bad : List (Nat × Nat)) : State :=
  let s1 := notePorts (countFab s c.pid data.length) c.pid (c.via s)
  { s1 with out := s1.out ++ [.fab c.peer c.ppid (BitVec.ofNat 64 va) data want unit bar c.rod (c.via s) bad] }

/-- Chunks a peer has yet to answer for: those sent, and those of a folded put of which a unit is. -/
def Cmd.waits (c : Cmd) : List Nat :=
  c.sent ++ (if c.fold && c.kind == .put then
    (List.range c.expect).filter (fun k => aget 0 c.moved k != 0 && !c.fin.contains k && !c.sent.contains k && aget 0 c.acks k * 4096 < (c.span k).2)
  else [])

/-- A message of a command goes out: with none unanswered before, the 10 ms of R352 begin. -/
def stampSent (s : State) (core slot : Nat) : State :=
  match s.cmd? core slot with
  | some c => if c.waits = [] then s.setCmd core slot { c with sentAt := s.gn.t64.toNat } else s
  | none => s

/-- A chunk of a command marked as sent. -/
def markSent (s : State) (core slot chunk : Nat) : State :=
  match s.cmd? core slot with
  | some c => s.setCmd core slot { c with sent := chunk :: c.sent, gather := if c.crc then c.gather else adel c.gather chunk }
  | none => s

/-- The barrier the messages of a put carry, checked with those of its first chunk (R229). -/
def Cmd.carry (c : Cmd) (chunk : Nat) : Option (Word × Bool) := c.bar.map (fun w => (w, chunk == 0))

/-- Poisoned bytes of a chunk's bytes at hand. -/
def Cmd.badOf (c : Cmd) (chunk : Nat) : List (Nat × Nat) := (c.bad.filter (fun q => q.1 == chunk)).map Prod.snd

/-- Some of a run of bytes are poisoned. -/
def badIn (l : List (Nat × Nat)) (o n : Nat) : Bool := l.any (fun q => decide (q.1 < o + n) && decide (o < q.1 + q.2))

/-- A piece read for a peer, with its poison (R334). -/
def badPiece (s : State) (core slot chunk o n : Nat) (p : Bool) : State :=
  match if p then s.cmd? core slot else none with
  | some c => s.setCmd core slot { c with bad := (chunk, o, n) :: c.bad }
  | none => s

/-- The next piece of a chunk of an `hfab` put (R229, R352): source bytes gathered line by line, then one semantic write. -/
def putPiece (s : State) (core slot chunk : Nat) (c : Cmd) : State :=
  let (o, n) := c.span chunk
  let m := aget 0 c.moved chunk
  let src := (c.src.toNat + o + m) % 2 ^ 64
  let k := Nat.min (n - m) (64 - src % 64)
  if k = 0 || xAhead s c true src k then s
  else
    match engRead core (c.who core) c.recId c.pos 3 s src k with
    | (s1, .bad e d l ea) => failChunk s1 core slot chunk e d l ea
    | (s1, .wait) => s1
    | (s1, .ok bs p) =>
      let s2 := badPiece (pieceDone s1 core slot chunk k bs) core slot chunk m k p
      if m + k < n then s2
      else
        let c2 := (s2.cmd? core slot).getD c
        markSent (stampSent (sendFab s2 c ((c.dst.toNat + o) % 2 ^ 64) (aget [] c2.gather chunk) 0 none (c.carry chunk) (c2.badOf chunk))
          core slot) core slot chunk

/-- The next line of the unit of a chunk of a folded put (R279, R286, R353): with its last line at hand the unit's encoded bytes go out, one
message. The CRC folds the stored bytes (R229). -/
def putUnit (s : State) (core slot chunk : Nat) (c : Cmd) : State :=
  let (o, n) := c.span chunk
  let m := aget 0 c.moved chunk
  let u := (o + m) / 4096
  if n ≤ m then s
  else
    match slotStep c.pid .read (u + 1) s c.src.toNat u with
    | (s1, .error (e, d, l, ea)) => failChunk s1 core slot chunk e d l ea
    | (s1, .ok src) =>
      let got := aget [] c.ahead chunk
      let a := src + got.length
      let k := Nat.min (foldSlot - got.length) (64 - a % 64)
      if xAhead s1 c true a k then s1
      else
        match engRead core (c.who core) c.recId c.pos 1 s1 a k with
        | (s2, .bad e d l ea) => failChunk s2 core slot chunk e d l ea
        | (s2, .wait) => s2
        | (s2, .ok new p) =>
          let all := got ++ new.map (fun b => (b, p))
          if all.length < foldSlot then s2.setCmd core slot { c with ahead := aput c.ahead chunk all }
          else
            let bs := all.map Prod.fst
            let len := match foldDecode bs with
              | some (_, k) => k
              | none => 4112
            let s3 := sendFab (stampSent s2 core slot) c c.dst.toNat (bs.take len) 0 (some u) (c.carry chunk)
              (if all.any Prod.snd then [(0, len)] else [])
            let s4 := pieceDone (s3.setCmd core slot { ((s3.cmd? core slot).getD c) with ahead := adel c.ahead chunk }) core slot chunk 4096
              (if c.crc then bs else [])
            if m + 4096 < n then s4 else markSent s4 core slot chunk

/-- The die whose fabric write queue the writes of a memory address that came in on a port enter (R272, R345). -/
def fabDie (key port : Nat) : Nat := if isDS key then key / 2 ^ 32 else port % 48 / 3 * 2

/-- A fabric write queue with an entry more. -/
def pushFab (s : State) (die : Nat) (e : FabEnt) : State :=
  s.setDie die { s.die die with fabq := (s.die die).fabq ++ [e] }

/-- The next piece of a chunk of an `hfab` get whose bytes have come (R352): to the fabric write queue of a die for memory that
has one, to the core's write lane for near and cluster scratchpad (R272, R293, R397). -/
def getPiece (s : State) (core slot chunk : Nat) (c : Cmd) : State :=
  let (o, _) := c.span chunk
  let n := c.total chunk
  let m := aget 0 c.moved chunk
  let place : State × Except (Nat × Nat × Nat × Nat) Nat :=
    if c.fold then
      let u := o / 4096 + m / foldSlot
      match slotStep c.pid .write (u + 1) s c.dst.toNat u with
      | (s1, .ok a) => (s1, .ok (a + m % foldSlot))
      | r => r
    else (s, .ok ((c.dst.toNat + o + m) % 2 ^ 64))
  match place with
  | (s1, .error (e, d, l, ea)) => failChunk s1 core slot chunk e d l ea
  | (s1, .ok dst) =>
    let k := Nat.min (n - m) (64 - dst % 64)
    if k = 0 || xAhead s1 c false dst k then s1
    else
      let bs := ((aget [] c.gather chunk).drop m).take k
      match engCheck (c.who core) s1 dst k with
      | (s2, .bad e d l ea) => failChunk s2 core slot chunk e d l ea
      | (s2, .wait) => s2
      | (s2, .ok key) =>
        if key < 2 ^ 44 then
          pieceDone (pushFab s2 (fabDie key (aget 0 c.inPort chunk))
            { line := key / 64 * 64, addr := key, op := .bytes bs, conn := 0, rod := false, pid := c.pid,
              tag := some (core, slot, chunk), msg := 0, bar := none, poison := badIn (c.badOf chunk) m k
              unit := if c.fold then some (o / 4096 + m / foldSlot) else none }) core slot chunk k []
        else
          match (s2.core core).plain key bs (badIn (c.badOf chunk) m k) { a := [], x := [], t := [(slot, chunk)] } with
          | some q => pieceDone (s2.setCore q) core slot chunk k []
          | none => s2

/-- The request of a chunk of an `hfab` get: one semantic read (R352). -/
def getAsk (s : State) (core slot chunk : Nat) (c : Cmd) : State :=
  let (o, n) := c.span chunk
  let s0 := stampSent s core slot
  let s1 := if c.fold then sendFab s0 c c.src.toNat [] n (some (o / 4096)) none []
    else sendFab s0 c ((c.src.toNat + o) % 2 ^ 64) [] n none none []
  match s1.cmd? core slot with
  | some c => s1.setCmd core slot { c with sent := chunk :: c.sent }
  | none => s1

/-- Whether a chunk of a command has begun: bytes of it have been read or moved, or a request for it has gone out. -/
def Cmd.begun (c : Cmd) (chunk : Nat) : Bool :=
  aget 0 c.moved chunk != 0 || c.sent.contains chunk || (afind? c.gather chunk).isSome || (afind? c.ahead chunk).isSome

/-- The heddle moves the next piece of a chunk of a command of a core (R224). A command that has ended, a chunk beyond its own, or one
not begun when the command is stopped, does nothing. -/
def moveChunk (s : State) (core slot chunk : Nat) : State :=
  match s.cmd? core slot with
  | none => s
  | some c =>
    if !c.run || decide (c.expect ≤ chunk) || c.fin.contains chunk || (c.stop && !c.begun chunk) then s
    else
      match c.kind with
      | .copy => copyPiece s core slot chunk c
      | .xfm => s
      | .put =>
        if (afind? s.fmap c.peer).isNone then endCmdErr s core slot 9 chunk none
        else if c.fold then putUnit s core slot chunk c else putPiece s core slot chunk c
      | .get =>
        if (afind? s.fmap c.peer).isNone then endCmdErr s core slot 9 chunk none
        else if c.sent.contains chunk then s
        else if (afind? c.gather chunk).isSome then getPiece s core slot chunk c
        else if aget 0 c.moved chunk = 0 then getAsk s core slot chunk c
        else s

/-- A peer's answer for a chunk, or of a folded put for a unit of one (R229, R347, R352, R353): the chunk's bytes for a get, its delivery for a
put, or the end of the command. A chunk of a folded put is answered when all of its units are. -/
def peerAck (s0 : State) (core slot chunk port cause detail : Nat) (refused : Bool) (data : List Byte) (bad : List (Nat × Nat)) : State :=
  match s0.cmd? core slot with
  | none => s0
  | some c =>
    if !c.run || !c.waits.contains chunk then s0
    else
      let s := { s0 with heard := aput s0.heard (48 * c.peer + port % 48) s0.gn.t64.toNat }
      let n := (c.span chunk).2
      let rest := { c with sent := c.sent.filter (· != chunk) }
      let come (bs : List Byte) (bad : List (Nat × Nat)) : State :=
        s.setCmd core slot { rest with
          gather := aput c.gather chunk bs
          bad := bad.map (fun q => (chunk, q)) ++ c.bad.filter (fun q => q.1 != chunk)
          inPort := aput c.inPort chunk port }
      if refused then endCmdErr s core slot 8 chunk none
      else if cause ≠ 0 then endCmdErr s core slot (errOf cause) chunk (some { flt cause detail false with index := chunk })
      else
        match c.kind, c.fold with
        | .get, true =>
          match slotsOf (n / 4096) data with
          | none => endCmdErr s core slot 3 chunk (some { flt cINTEG 5 false with index := chunk })
          | some bs => come bs (if bad = [] then [] else [(0, bs.length)])
        | .get, false => if data.length = n then come data bad else s
        | _, true =>
          let k := aget 0 c.acks chunk + 1
          if 4096 * k = n then s.setCmd core slot { rest with acks := aput c.acks chunk k } else s.setCmd core slot { c with acks := aput c.acks chunk k }
        | _, false => s.setCmd core slot rest

/-- Whether an entry of any fabric write queue lands for a chunk of a command. -/
def fabTagged (s : State) (core slot chunk : Nat) : Bool :=
  s.dies.any (fun d => d.2.fabq.any (fun e => e.tag == some (core, slot, chunk)))

/-- Every byte of a chunk has been moved and every write of it has performed (R224). -/
def chunkReady (s : State) (core slot chunk : Nat) (c : Cmd) : Bool :=
  (match c.kind with
    | .xfm => decide (chunk < c.chunkNo)
    | _ => decide (chunk < c.expect) && aget 0 c.moved chunk == c.total chunk && !c.waits.contains chunk) &&
  !c.fin.contains chunk && !(s.core core).tagged slot chunk && !fabTagged s core slot chunk

/-- Bytes a finished chunk counts down on the barrier (R224, R229): of a folded get its units have counted them (R353). -/
def Cmd.barBytes (c : Cmd) (chunk : Nat) : Nat := match c.kind with
  | .xfm => aget 0 c.moved chunk
  | .get => if c.fold then 0 else (c.span chunk).2
  | _ => (c.span chunk).2

/-- Bytes delivered to the barrier a handle names, if it is still granted under that generation (R131, R133). -/
def barCount (s : State) (w : Word) (n : Nat) : State :=
  if bitsAt w.toNat 20 12 = (s.bar w).gen.toNat then s.setBar w ((s.bar w).deliver (BitVec.ofNat 64 n)) else s

/-- A chunk of a command finishes (R224, step 3): mask bit, tile entry, barrier, in that order; the last one ends the command. -/
def finishChunk (s : State) (core slot chunk : Nat) (c : Cmd) : State :=
  let s0 := s.setCmd core slot
    { c with done := c.done + 1, fin := chunk :: c.fin, gather := if c.crc then c.gather else adel c.gather chunk }
  let s1 := if c.pm = 63 then s0 else deliver s0 c.recId c.pos (.bit c.pm chunk)
  let s2 := match c.tile with
    | some k => deliver s1 c.recId c.pos (.done k)
    | none => s1
  let s3 := match c.bar with
    | some w => if c.kind = CKind.put then s2 else barCount s2 w (c.barBytes chunk)
    | none => s2
  let last := match c.kind with
    | .xfm => c.done + 1 == c.expect && decide (c.prog.length ≤ c.pc)
    | _ => c.done + 1 == c.expect
  if last then endCmdOk s3 core slot else s3

/-- The barrier a command counts down at its own module lies in a die under repair, and waits (R377). -/
def Cmd.barHeld (c : Cmd) (s : State) : Bool := c.kind != .put && c.bar.any (fun w => Sys2Proof.Machine.barHeld s w)

/-- CHUNK_FINISH, R224. -/
def execChunkFinish (slot chunk : Nat) (s : State) : Out3 :=
  match s.cmd? s.co.id slot with
  | none => .next s
  | some c => if c.run && chunkReady s s.co.id slot chunk c && !c.barHeld s then .next (finishChunk s s.co.id slot chunk c) else .next s

/-- T64 when a command last heard of its peer on a port that may carry it, or sent its oldest message not yet answered (R352). -/
def Cmd.heardAt (c : Cmd) (s : State) : Nat :=
  ((List.range 48).filter (fun k => c.ports == 0 || bitAt c.ports k)).foldl (fun t k => Nat.max t (aget 0 s.heard (48 * c.peer + k))) c.sentAt

/-- PEER_TIMEOUT, R352: a peer that has chunks to answer and of which no allowed port has received an answer for 10 ms. -/
def execPeerTimeout (slot : Nat) (s : State) : Out3 :=
  match s.cmd? s.co.id slot with
  | none => .next s
  | some c =>
    if c.run && !c.waits.isEmpty && decide (c.heardAt s + 40000000 ≤ s.gn.t64.toNat) then
      .next (endCmdErr s s.co.id slot 9 (c.waits.foldl Nat.min (c.waits.headD 0)) none)
    else .next s

/-! ## Starting a command -/

/-- Command slots of a core that count against a region's table slot (R303). -/
def cmdsUnder (s : State) (pid slot : Nat) : Nat :=
  (s.co.cmds.filter (fun e => e.2.pid == pid &&
    (((s.rec? e.2.recId).map (fun r => r.region.chain.any (fun q => q.1 == slot))).getD false))).length

/-- The command slot the shuttle in focus may take (R222, R303, R304): the lowest free one, when no quota would be exceeded, within its record's
reservation or in what the other records' reservations leave of the pool. -/
def freeSlot (s : State) : Option Nat :=
  let id := s.co.recId.getD s.nextRec
  let own := (cmdsOf s.co id).length
  if s.region.chain.all (fun q => decide (cmdsUnder s s.sh.pid q.1 < q.2.2.1)) &&
      (decide (own < s.region.cmdR) || decide ((heldOn s s.co.id id).1 + own < 256)) then
    (List.range 256).find? (fun k => !(s.co.cmds.any (fun e => e.1 == k)))
  else none

/-- A command as it starts, before its kind's own fields. -/
def newCmd (s : State) (n : Nat) : Cmd :=
  { seq := 0, kind := .copy, run := true, err := 0, first := 0, expect := n, done := 0, recId := s.co.recId.getD 0, pos := s.sh.pos,
    lanes := s.sh.lanes, pid := s.sh.pid, nearLo := s.who.lo, nearLen := s.who.len, pm := 63, tile := none, bar := none,
    crc := false, fold := false, dst := 0, src := 0, len := 0, chunk := 64, moved := [], sent := [], fin := [], gather := [],
    order := (s.myRec?.map (fun r => r.cmdNo)).getD 0, xAfter := s.sh.nD, peer := 0, ppid := 0, ports := 0,
    rod := false, stop := false, shape := [], prog := [], pc := 0, loops := [], bufs := List.replicate 8 [],
    runFmt := List.replicate 8 none, bpois := List.replicate 8 false, r := 0, w := 0, h := 0, r0 := 0, chunkNo := 0, wrAt := 0,
    wrote := [] }

/-- Mask bits 0 to n − 1 cleared. -/
def clearMask (t : Shuttle) (pm n : Nat) : Shuttle :=
  if pm = 63 then t else (List.range n).foldl (fun t c => t.psetBit pm c false) t

/-- A command that passed its checks takes a slot and starts (R222, steps 5 and 6). -/
def startCmd (s : State) (d pm : Fin 64) (nb : Bool) (c : Cmd) : Out3 :=
  match freeSlot s with
  | none => if nb then raiseA cPOOL 1 s else waitA s .other
  | some slot =>
    if c.tile.any (fun k => (s.co.tent k).state != 0) then writeA s d 0
    else
      let seq := nextSeq s.co slot
      let co := { s.co with cmds := aput s.co.cmds slot { c with seq := seq, pm := pm.val }, seqs := aput s.co.seqs slot seq }
      let co1 := match c.tile with
        | some k => co.setTent k ((co.tent k).arm c.expect)
        | none => co
      let s1 := { s with co := co1, sh := clearMask s.sh pm.val c.expect }
      let s2 := match s1.myRec? with
        | some r => s1.setRec { r with cmdNo := r.cmdNo + 1 }
        | none => s1
      writeA s2 d (cmdHandle s.co.id slot seq)

/-- Steps 1 to 4 of R222 for a command of n chunks: no work, ALIGN 7, the tile entry, the local barrier in X[d], then `k`. -/
def cmdChecks (s : State) (d pm : Fin 64) (empty bad : Bool) (n : Nat) (tile : Option (BitVec 8)) (bar : Bool)
    (k : State → Out3) : Out3 :=
  if empty then writeA s d 0
  else if bad || decide (4096 < n) || (pm.val != 63 && decide (47 < pm.val + ceilDiv n 512 - 1)) then raiseA cALIGN 7 s
  else
    match aBlocked s (if pm.val = 63 then [] else pGroup pm n) with
    | some w => waitA s w
    | none =>
      if tile.any (fun t => !entGranted s.sh t.toNat) then raiseA cPERM 1 s
      else
        match if bar then barCheck s (s.sh.xget d) else none with
        | some (c, e) => raiseA c e s
        | none => k s

/-- The chunk size of a chunk code (R221). -/
def chunkSize (ck : BitVec 3) : Nat := 64 * 4 ^ ck.toNat

/-- `hcopy`, R222, R224. -/
def execHcopy (h : Hd) (ck : BitVec 3) (ts bar crc nb : Bool) (d a b e pm : Fin 64) (t : BitVec 8) (s : State) : Out3 :=
  aInstr h (xs [d, a, b, e]) s (fun s =>
    let len := (s.sh.xget e).toNat
    let n := ceilDiv len (chunkSize ck)
    cmdChecks s d pm (len == 0) false n (if ts then some t else none) bar (fun s =>
      startCmd s d pm nb { newCmd s n with
        kind := .copy, dst := s.sh.xget a, src := s.sh.xget b, len := len, chunk := chunkSize ck, crc := crc
        tile := if ts then some t.toNat else none, bar := if bar then some (s.sh.xget d) else none }))

/-- Words read by the A-pipe from an address on (R111, R126), 8 bytes each. -/
def readWordsA (s : State) (ea : Nat) : Nat → (State → List Nat → Out3) → Out3
  | 0, k => k s []
  | n + 1, k => readA s ea 8 (fun s v => readWordsA s ((ea + 8) % 2 ^ 64) n (fun s l => k s (v :: l)))

/-- A shape record breaks R232 or R234: reserved kind or field, a value out of range, or another generation. -/
def shapeBad (w : List Nat) (gen : Nat) : Bool :=
  let w1 := w.getD 1 0
  let w4 := w.getD 4 0
  let w5 := w.getD 5 0
  let w7 := w.getD 7 0
  let rb := bitsAt w4 32 32
  let ex := bitsAt w5 32 16
  let kind := bitsAt w5 0 2
  w7 != gen || rb == 0 || decide (16384 < rb) || bitsAt w5 48 16 != 0 || ex == 0 || decide (4096 < ex) || bitsAt w5 2 30 != 0 ||
  decide (1 < kind) || (kind == 1 && w1 / 65536 != 0)

/-- Whether a program folds a CRC. -/
def progCrc (p : List Nat) : Bool := p.any (fun w => bitsAt w 27 5 == 11)

/-- `hxfm`, R231 to R234, R394. -/
def execHxfm (h : Hd) (ts bar nb : Bool) (d a pm : Fin 64) (t : BitVec 8) (s : State) : Out3 :=
  aInstr h (xs [d, a]) s (fun s =>
    if !s.sh.progOk then raiseA cCODESCAN 10 s
    else
      let hd := (s.sh.xget a).toNat % 2 ^ 32
      let slot := hd % 2 ^ 20
      if s.region.shapeN ≤ slot then raiseA cHANDLE 3 s
      else
        readWordsA s ((s.region.shapeBase + 64 * slot) % 2 ^ 64) 8 (fun s w =>
          if shapeBad w (hd / 2 ^ 20) then raiseA cHANDLE 3 s
          else
            let n := bitsAt (w.getD 5 0) 32 16
            cmdChecks s d pm (bitsAt (w.getD 4 0) 0 32 == 0) false n (if ts then some t else none) bar (fun s =>
              startCmd s d pm nb { newCmd s n with
                kind := .xfm, shape := w.map (BitVec.ofNat 64), prog := s.sh.prog, crc := progCrc s.sh.prog
                tile := if ts then some t.toNat else none, bar := if bar then some (s.sh.xget d) else none })))

/-- A peer table entry: module, partition, ports, mode; none when it is not valid (R351). -/
def peerOf (lo hi : Nat) : Option (Nat × Nat × Nat × Bool) :=
  if bitAt hi 63 && bitsAt hi 48 14 == 0 && bitsAt lo 32 8 != 0xFF then
    some (bitsAt lo 0 32, bitsAt lo 32 8, bitsAt hi 0 48, bitAt hi 62)
  else none

/-- `hfab`, R222, R229, R351, R353. -/
def execHfab (h : Hd) (ck : BitVec 3) (get bar crc nb fold : Bool) (d a b e pm : Fin 64) (peer : BitVec 8) (s : State) : Out3 :=
  aInstr h (xs [d, a, b, e]) s (fun s =>
    let len := (s.sh.xget e).toNat
    let n := ceilDiv len (chunkSize ck)
    let badFold := fold && (len % 4096 != 0 || decide (ck.toNat < 3))
    cmdChecks s d pm (len == 0) badFold n none (bar && get) (fun s =>
      if s.region.peerN ≤ peer.toNat then raiseA cPERM 12 s
      else
        readWordsA s ((s.region.peerBase + 16 * peer.toNat) % 2 ^ 64) 2 (fun s w =>
          match peerOf (w.getD 0 0) (w.getD 1 0) with
          | none => raiseA cPERM 12 s
          | some (m, p, ports, rod) =>
            let loc := s.sh.xget a
            let rem := s.sh.xget b
            startCmd s d pm nb { newCmd s n with
              kind := if get then .get else .put, dst := if get then loc else rem, src := if get then rem else loc
              len := len, chunk := chunkSize ck, crc := crc, fold := fold, bar := if bar then some (s.sh.xget d) else none
              peer := m, ppid := p, ports := ports, rod := rod })))

/-! ## Loading a program -/

/-- The first reason of R79 a micro-op word fails by (R84), or none. -/
def microReason (feat : Option Nat) (w : Nat) : Option Nat :=
  if 15 < bitsAt w 27 5 then some 1
  else
    match buildMicro w with
    | none => some 7
    | some i =>
      if encode i ≠ w then some 2
      else if !i.wf || decide (17 < bitsAt w 16 5) then some 7
      else
        match feat with
        | none => some 9
        | some f => if i.accepted f then none else some 8

/-- A micro-op word's code. -/
def microOp (w : Nat) : Nat := bitsAt w 27 5

/-- A `loop` at an index holds a `loop` or an `end` in its body, or its body reaches past the `end` (R230). -/
def loopBad (p : List Nat) (k : Nat) : Bool :=
  microOp (p.getD k 0) == 13 &&
    (let l := bitsAt (p.getD k 0) 6 6
     decide (p.length ≤ k + l + 1) || ((p.drop (k + 1)).take l).any (fun w => microOp w == 13 || microOp w == 14))

/-- A program that `hprog` would accept under a feature set (R84, R230): the heddle runs no other. -/
def progGood (feat : Option Nat) (p : List Nat) : Bool :=
  decide (p.length ≤ 32) && microOp (p.getLastD 0) == 14 && p.dropLast.all (fun w => microOp w != 14) &&
    (List.range p.length).all (fun k => (microReason feat (p.getD k 0)).isNone && !loopBad p k)

/-- Words of a program read from an address on, up to the first `end` and at most n (R84). -/
def readProg (s : State) (ea : Nat) : Nat → (State → List Nat → Out3) → Out3
  | 0, k => k s []
  | n + 1, k => readA s ea 4 (fun s v =>
      if microOp v = 14 then k s [v] else readProg s ((ea + 4) % 2 ^ 64) n (fun s l => k s (v :: l)))

/-- `hprog`, R84, R230. A bad word is reported before the want of an `end`. DESIGN CHOICE (log entry 129). -/
def execHprog (h : Hd) (d a : Fin 64) (s : State) : Out3 :=
  aInstr h (xs [d, a]) s (fun s =>
    readProg s (s.sh.xget a).toNat 32 (fun s p =>
      match (List.range p.length).findSome? (fun k =>
          match microReason s.feature (p.getD k 0) with
          | some r => some (r, k)
          | none => if microOp (p.getLastD 0) = 14 && loopBad p k then some (7, k) else none) with
      | some (r, k) => raiseA cCODESCAN (r + 256 * k) s
      | none =>
        if microOp (p.getLastD 0) ≠ 14 then raiseA cCODESCAN (11 + 256 * 32) s
        else writeA { s with sh := { s.sh with prog := p, progOk := true } } d (BitVec.ofNat 64 p.length)))

/-! ## Status and CRC -/

/-- The core and slot a command handle names, with the command it still stands for (R223, R227). -/
def cmdOf (s : State) (w : Word) : Option (Nat × Nat × Cmd) :=
  let v := w.toNat
  if bitsAt v 45 19 ≠ 0 ∨ bitsAt v 36 4 ≠ 0 then none
  else
    let core := bitsAt v 40 5 * 16 + bitsAt v 32 4
    let slot := bitsAt v 0 8
    match s.cmd? core slot with
    | some c => if c.seq = bitsAt v 8 24 then some (core, slot, c) else none
    | none => none

/-- The status word of a handle: 0 when no command stands for it. -/
def statWord (s : State) (w : Word) : Word := match cmdOf s w with
  | some (_, _, c) => c.word
  | none => 0

/-- `hstat.rd`, R227. -/
def execHstatRd (h : Hd) (d a : Fin 64) (s : State) : Out3 :=
  aInstr h (xs [d, a]) s (fun s => writeA s d (statWord s (s.sh.xget a)))

/-- `hstat.wt`, R227. -/
def execHstatWt (h : Hd) (d a : Fin 64) (s : State) : Out3 :=
  aInstr h (xs [d, a]) s (fun s =>
    match cmdOf s (s.sh.xget a) with
    | some (_, _, c) => if c.run then waitA s .other else writeA s d c.word
    | none => writeA s d 0)

/-- A lane entry that holds writes of a command whose slot is released. -/
def LaneEnt.leave (e : LaneEnt) (slot : Nat) (who : Nat × Nat) : LaneEnt :=
  if e.tags.any (fun t => t.1 == slot) then { e with tags := e.tags.filter (fun t => t.1 != slot), left := joinL e.left [who] } else e

/-- A command's slot released: its writes that wait stay those of its shuttle (R227, R295). -/
def leaveSlot (s : State) (core slot : Nat) (c : Cmd) : State :=
  let who := (c.recId, c.pos)
  let k := s.core core
  let f (q : List LaneEnt) : List LaneEnt := q.map (fun e => e.leave slot who)
  let s1 := s.setCore { k with cmds := adel k.cmds slot, qNS := f k.qNS, qCS := f k.qCS, qDS := f k.qDS, qMM := f k.qMM }
  { s1 with dies := s1.dies.map (fun d => (d.1, { d.2 with fabq := d.2.fabq.map (fun e =>
      if e.tag.any (fun q => q.1 == core && q.2.1 == slot) then { e with tag := none, left := some who } else e) })) }

/-- `hstat.rel`, R227. -/
def execHstatRel (h : Hd) (d a : Fin 64) (s : State) : Out3 :=
  aInstr h (xs [d, a]) s (fun s =>
    match cmdOf s (s.sh.xget a) with
    | some (core, slot, c) =>
      writeA (if c.run then s else leaveSlot s core slot c) d c.word
    | none => writeA s d 0)

/-- A chunk of a command is in progress: begun and not finished (R227). -/
def inProgress (s : State) (core slot : Nat) (c : Cmd) : Bool :=
  (s.core core).entries.any (fun e => e.tags.any (fun t => t.1 == slot && !c.fin.contains t.2)) ||
  (List.range c.expect).any (fun k => !c.fin.contains k &&
    (match c.kind with
      | .xfm => decide (k < c.chunkNo) || (k == c.chunkNo && c.writing)
      | _ => c.begun k))

/-- `hstat.abort`, R227: no further chunk starts; chunks in progress finish; then the command ends with err 7. -/
def execHstatAbort (h : Hd) (d a : Fin 64) (s : State) : Out3 :=
  aInstr h (xs [d, a]) s (fun s =>
    match cmdOf s (s.sh.xget a) with
    | some (core, slot, c) =>
      if !c.run then writeA s d c.word
      else
        let s1 := s.setCmd core slot { c with stop := true }
        if inProgress s1 core slot c then waitA s1 .other
        else
          let s2 := endCmdErr s1 core slot 7 0 none
          writeA s2 d (statWord s2 (s.sh.xget a))
    | none => writeA s d 0)

/-- Folds of earlier commands of the shuttle in focus are due (R228). -/
def foldsDue (s : State) : Bool := !(crcOrders s (s.co.recId.getD 0) s.sh.pos).isEmpty

/-- `hcsum.rd`, R228. -/
def execHcsumRd (h : Hd) (d : Fin 64) (s : State) : Out3 :=
  aInstr h (xs [d]) s (fun s => if foldsDue s then waitA s .other else writeA s d (s.sh.hcsum.zeroExtend 64))

/-- `hcsum.set`, R228. -/
def execHcsumSet (h : Hd) (a : Fin 64) (s : State) : Out3 :=
  aInstr h (xs [a]) s (fun s =>
    if foldsDue s then waitA s .other else doneA { s with sh := { s.sh.wash [13] with hcsum := (s.sh.xget a).truncate 32 } })

/-- `hcsum.chk`, R228. -/
def execHcsumChk (h : Hd) (d a : Fin 64) (s : State) : Out3 :=
  aInstr h (xs [d, a]) s (fun s =>
    if foldsDue s then waitA s .other
    else
      let ne := s.sh.hcsum ≠ (s.sh.xget a).truncate 32
      writeA s d (s.sh.hcsum.zeroExtend 64 + if ne then BitVec.ofNat 64 (2 ^ 63) else 0))

end Sys2Proof.Machine
end

