-- ==== Sys2Proof/Machine/System.lean ====
section
/-! DEFINITION. System instructions (R242 to R245): traps asked for, state registers, `halt`, yield points, translation removal,
keys and scrubs (R371 to R373, R399 to R402), fault records and counters. -/

namespace Sys2Proof.Machine

/-! ## Traps and the debugger -/

/-- A value an atomic or a load returns to some shuttle of the core in focus is still to come, an instruction that has issued and cannot
stop part-way has not completed, or a fault stands due, whose trap is taken first (R39, R324). -/
def coreReturning (s : State) : Bool :=
  let holds (t : Shuttle) : Bool := t.midway || t.due.isSome
  (s.sh.pos :: s.co.shs.map Prod.fst).any s.co.returning || holds s.sh || s.co.shs.any (fun e => holds e.2)

/-- A core halts for the debugger (R39, R342): every shuttle has drained what it issued, and has the values its atomics and loads return;
until then the halt stands due. Nothing happens while the core runs no record. -/
def haltCore (s : State) : State :=
  if s.co.recId.isNone then s
  else if coreReturning s then { s with co := { s.co with haltDue := true } }
  else
    let at' := s.co.shs.foldl (fun c e => e.2.landedAt c) (s.sh.landedAt s.co.cycle)
    { s with
      sh := s.sh.landAll.stopPart
      co := { s.co with cycle := at', halted := true, haltDue := false, stepping := none, shs := s.co.shs.map (fun e => (e.1, e.2.landAll.stopPart)) } }

/-- An A-class trap that is asked for: taken once earlier X-class instructions have completed, with `apc` at the next word. -/
def trapNext (cause : Nat) (n : BitVec 16) (s : State) : Out3 :=
  if s.sh.xq ≠ [] then waitA s .onX
  else takeFault { flt cause n.toNat false with at' := some s.sh.apc.toNat } { s with sh := { s.sh.moved.fallThrough with nA := s.sh.nA + 1 } }

/-- `trap`, R242. -/
def execTrap (h : Hd) (n : BitVec 16) (s : State) : Out3 := aInstr h [] s (trapNext cSWTRAP n)

/-- `bkpt`, R242. -/
def execBkpt (h : Hd) (n : BitVec 16) (s : State) : Out3 :=
  aInstr h [] s (fun s =>
    if s.co.dbg then
      if s.sh.xq ≠ [] then waitA s .other
      else .next (haltCore { s with sh := { s.sh.moved.fallThrough with nA := s.sh.nA + 1 } })
    else trapNext cBKPT n s)

/-- `eret`, R242, R326. -/
def execEret (h : Hd) (s : State) : Out3 := aInstr h [] s trapReturn

/-! ## State registers (R16, R76) -/

/-- A state register as it stands. -/
def readSReg (s : State) (k : SReg) : Word :=
  let t := s.sh
  match k with
  | .vlen => t.vlen.zeroExtend 64
  | .vtype => t.vtype
  | .vstart => t.vstart.zeroExtend 64
  | .redst => t.redst
  | .fill => t.fill
  | .sat => BitVec.ofNat 64 t.sat.toNat
  | .fflags => t.fflags.zeroExtend 64
  | .rnd => t.rnd.zeroExtend 64
  | .frm => t.frm.zeroExtend 64
  | .ccurLo => t.ccur.extractLsb' 0 64
  | .ccurHi => t.ccur.extractLsb' 64 64
  | .xcurLo => t.xcur.extractLsb' 0 64
  | .xcurHi => t.xcur.extractLsb' 64 64
  | .hcsum => t.hcsum.zeroExtend 64
  | .tvec => t.tvec
  | .tcause => t.tcause
  | .apc => t.apc.zeroExtend 64
  | .xpc => BitVec.ofNat 64 t.xpc
  | .wlbud => BitVec.ofNat 64 s.co.wlbud

/-- The low or high half of a 128-bit register replaced. -/
def setHalf (r : BitVec 128) (hi : Bool) (v : Word) : BitVec 128 :=
  if hi then v ++ r.extractLsb' 0 64 else r.extractLsb' 64 64 ++ v

/-- A state register written by software: reserved bits stay zero; none for a register marked RO (R16). -/
def Shuttle.writeSReg (t : Shuttle) (k : SReg) (v : Word) : Option Shuttle :=
  match k with
  | .vlen | .vtype | .tcause | .apc | .xpc | .wlbud => none
  | .vstart => some { t with vstart := v.truncate 13 }
  | .redst => some { t with redst := v }
  | .fill => some { t with fill := v }
  | .sat => some { t with sat := v.getLsbD 0 }
  | .fflags => some { t with fflags := v.truncate 5 }
  | .rnd => some { t with rnd := v.truncate 2 }
  | .frm => some { t with frm := v.truncate 2 }
  | .ccurLo => some { t with ccur := setHalf t.ccur false v &&& ccurMask }
  | .ccurHi => some { t with ccur := setHalf t.ccur true v &&& ccurMask }
  | .xcurLo => some { t with xcur := setHalf t.xcur false v &&& xcurMask }
  | .xcurHi => some { t with xcur := setHalf t.xcur true v &&& xcurMask }
  | .hcsum => some { t with hcsum := v.truncate 32 }
  | .tvec => some { t with tvec := v &&& 0xFFFFFFFFFFFFFFF8 }

/-- `srd`, R242: flags of instructions landed by now stand. -/
def execSrd (h : Hd) (k : SReg) (d : Fin 64) (s : State) : Out3 :=
  aInstr h (xs [d]) s (fun s =>
    let s1 := { s with sh := s.sh.settle s.co.cycle }
    writeA s1 d (readSReg s1 k))

/-- `swr`, R16, R242, R391. -/
def execSwr (h : Hd) (k : SReg) (a : Fin 64) (s : State) : Out3 :=
  aInstr h (xs [a]) s (fun s =>
    match (s.sh.settle s.co.cycle).writeSReg k (s.sh.xget a) with
    | none => raiseA cPERM 2 s
    | some t => doneA { s with sh := t.wash (SReg.poisonNo k).toList })

/-! ## Ending, yielding, waiting -/

/-- A command that a shuttle started still runs, on any core, or a write of one has yet to perform (R244, R295). -/
def cmdsRun (s : State) (id pos : Nat) : Bool :=
  s.allCores.any (fun c => (cmdsOf c id).any (fun e => e.2.run && e.2.pos == pos)) || cmdWrites s id (some pos)

/-- A shuttle's status is an end of its record. -/
def SStat.ended : SStat → Bool
  | .halted _ | .faulted | .killed => true
  | _ => false

/-- A record whose every shuttle has ended completes with status 0 (R301), unless it already ends with another, once nothing of it has
yet to perform (R295). -/
def settleRec (s : State) (r : Rec) : State :=
  let stats := (List.range r.k).map (fun p => (s.shuttle { core := r.core, pos := p }).status)
  if r.stat = .running ∧ stats.all SStat.ended then (if recBusy s r.id then s.setRec { r with stat := .ending 0 } else completeRec s r 0) else s

/-- `halt`, R244. -/
def execHalt (h : Hd) (n : BitVec 16) (s : State) : Out3 :=
  aInstr h [] s (fun s0 =>
    let s := { s0 with sh := { s0.sh with halting := true } }
    if s.sh.xq ≠ [] then waitA s .onX
    else if !marksClear s || s.co.outstanding s.sh.pos || cmdsRun s (s.co.recId.getD 0) s.sh.pos then waitA s .other
    else
      let t := (s.sh.settle s.co.cycle).moved
      let s1 := dropEngine { s with sh := { t with status := .halted n.toNat, nA := t.nA + 1 } } s.co.id t.pos
      match s1.myRec? with
      | none => .next s1
      | some r =>
        let r1 := { r with exits := aput r.exits t.pos n.toNat }
        .next (settleRec (s1.setRec r1) r1))

/-- At a yield point of the A-pipe (R40, R242, R312): a hold limit exceeded twice raises BUDGET; a pending pre-emption is taken once
every X-class instruction dispatched before has issued, as at a `vsetl`; `stay` keeps the instruction at `apc`. -/
def yieldPoint (s : State) (stay : Bool) (k : State → Out3) : Out3 :=
  if s.sh.budgetDue then
    if s.sh.xq = [] then faultA (flt cBUDGET 2 false) { s with sh := { s.sh with budgetDue := false } } else waitA s .onX
  else if s.sh.pre.isSome then
    if s.sh.xq ≠ [] then waitA s .other
    else
      let t := if stay then s.sh.moved else { s.sh.moved.fallThrough with nA := s.sh.nA + 1 }
      .next { s with sh := { t with saveDue := some 0 } }
  else k s

/-- `yield`, R242. -/
def execYield (h : Hd) (s : State) : Out3 := aInstr h [] s (fun s => yieldPoint s false doneA)

/-- The event bits a `wfe` mask selects (R243): bit k of the mask selects bit k; 0 selects all. -/
def wfeMask (m : BitVec 16) : BitVec 4 := if m = 0 then 15 else m.truncate 4

/-- `wfe`, R243. -/
def execWfe (h : Hd) (m : BitVec 16) (d : Fin 64) (s : State) : Out3 :=
  aInstr h (xs [d]) s (fun s => yieldPoint s true (fun s =>
    let b := s.sh.events &&& wfeMask m
    if b = 0 then waitA s .other
    else writeA { s with sh := { s.sh with events := s.sh.events &&& ~~~ b } } d (b.zeroExtend 64)))

/-! ## Translations (R81, R341) -/

/-- System privilege, else PERM 11 (R242). -/
def priv (s : State) (k : State → Out3) : Out3 := if s.sh.priv then k s else raiseA cPERM 11 s

/-- Translations removed, once every access admitted through them has performed (R341). -/
def xinvA (s : State) (sel : Xlat → Bool) : Out3 :=
  if xlatsBusy s sel then waitA s .other else doneA (dropXlats s sel)

/-- `xinv.pg`, R242. -/
def execXinvPg (h : Hd) (a b : Fin 64) (s : State) : Out3 :=
  aInstr h (xs [a, b]) s (fun s => priv s (fun s =>
    let va := (s.sh.xget a).toNat
    match (s.sh.xget b).toNat with
    | 0 => xinvA s (fun t => t.bits == 16 && t.covers s.sh.pid va)
    | 1 => xinvA s (fun t => t.bits == 21 && t.covers s.sh.pid va)
    | 2 => xinvA s (fun t => t.bits == 30 && t.covers s.sh.pid va)
    | _ => raiseA cALIGN 7 s))

/-- `xinv.all`, R242. Its register field is not used. -/
def execXinvAll (h : Hd) (_a : Fin 64) (s : State) : Out3 :=
  aInstr h [] s (fun s => priv s (fun s => xinvA s (fun t => t.pid == s.sh.pid)))

/-! ## Keys and scrubs -/

/-- A partition is stopped and names the issuer's as its supervisor (R371, R372). -/
def supervised (s : State) (pid : Nat) : Bool :=
  match s.part? pid with
  | some p => p.state == 3 && p.sup == s.sh.pid && p.sup != 0
  | none => false

/-- The windows of a die that a key slot serves, as ranges of physical addresses. -/
def keyWindows (s : State) (die slot : Nat) : List (Nat × Nat) :=
  ((s.die die).banks.filter (fun b => b.key == slot)).map (fun b =>
    (die * 2 ^ 32 + b.pbase * 65536, die * 2 ^ 32 + (b.pbase + b.pcap) * 65536))

/-- `keyz`, R371: an empty slot gives no effect and no fault. -/
def execKeyz (h : Hd) (a : Fin 64) (s : State) : Out3 :=
  aInstr h (xs [a]) s (fun s => priv s (fun s =>
    let slot := bitsAt (s.sh.xget a).toNat 0 6
    let die := bitsAt (s.sh.xget a).toNat 8 5
    let d := s.die die
    if !d.keys.contains slot then doneA s
    else if !(d.banks.any (fun b => b.key == slot && supervised s b.pid)) then raiseA cPERM 15 s
    else if (keyWindows s die slot).any (fun w => pendingWrites s w.1 w.2) then waitA s .other
    else doneA (s.setDie die { d with keys := d.keys.filter (· != slot) })))

/-- The dies of the module. -/
def allDies : List Nat := List.range 32

/-- The granules a die scrubs for a partition (R373): those of its window, then its share of the main-memory window. -/
def scrubTotal (s : State) (die pid : Nat) : Nat :=
  let cap := (((s.die die).banks.filter (fun b => b.pid == pid)).map (fun b => b.pcap)).sum
  cap + ((s.part? pid).map (fun p => p.mmSize)).getD 0 * 512

/-- A die's progress register for a partition. -/
def Die.scrub? (d : Die) (pid : Nat) : Option Scrub := d.scrubs.find? (fun r => r.pid == pid)

/-- A die takes a progress register for a partition's scrub, and holds the starts that are left (R370, R402). -/
def serveScrub (s : State) (die pid : Nat) (rest : List Nat) : State :=
  let d := s.die die
  s.setDie die { d with pend := rest, scrubs := d.scrubs ++ [{ pid := pid, fin := false, total := scrubTotal s die pid, done := 0, cleared := false }] }

/-- The scrub of a partition started on a die where it is idle: in one of the 8 progress registers, else held behind those held already
(R370, R372, R402). -/
def startScrub (s : State) (pid die : Nat) : State :=
  let d := s.die die
  if (d.scrub? pid).isSome || d.pend.contains pid then s
  else if d.scrubs.length < 8 ∧ d.pend = [] then serveScrub s die pid []
  else s.setDie die { d with pend := d.pend ++ [pid] }

/-- The scrub of a partition started on every die, its translations removed first (R373). -/
def startScrubs (s : State) (pid : Nat) : State :=
  allDies.foldl (fun s d => startScrub s pid d) (dropXlats s (fun t => t.pid == pid))

/-- Every key slot of a partition is empty. -/
def keysEmpty (s : State) (pid : Nat) : Bool :=
  allDies.all (fun d => (s.die d).banks.all (fun b => b.pid != pid || !(s.die d).keys.contains b.key))

/-- `scrub.st`, R372. -/
def execScrubSt (h : Hd) (a : Fin 64) (s : State) : Out3 :=
  aInstr h (xs [a]) s (fun s => priv s (fun s =>
    let pid := bitsAt (s.sh.xget a).toNat 0 8
    if !supervised s pid || !keysEmpty s pid then raiseA cPERM 15 s
    else if xlatsBusy s (fun t => t.pid == pid) then waitA s .other
    else doneA (startScrubs s pid)))

/-- A progress register as a word (R370). -/
def Scrub.word (r : Scrub) : Word :=
  BitVec.ofNat 64 (r.pid % 256 * 2 ^ 56 + (if r.fin then 2 else 1) * 2 ^ 54 + r.total % 2 ^ 20 * 2 ^ 20 + r.done % 2 ^ 20)

/-- `scrub.rd`, R372. -/
def execScrubRd (h : Hd) (d a : Fin 64) (s : State) : Out3 :=
  aInstr h (xs [d, a]) s (fun s => priv s (fun s =>
    let pid := bitsAt (s.sh.xget a).toNat 0 8
    let die := bitsAt (s.sh.xget a).toNat 8 5
    if !supervised s pid then raiseA cPERM 15 s
    else writeA s d (((s.die die).scrub? pid).map Scrub.word |>.getD 0)))

/-- Every die's scrub of a partition is done. -/
def scrubsDone (s : State) (pid : Nat) : Bool :=
  allDies.all (fun d => (((s.die d).scrub? pid).map (fun r => r.fin)).getD false)

/-- `scrub.wt`, R372. -/
def execScrubWt (h : Hd) (a : Fin 64) (s : State) : Out3 :=
  aInstr h (xs [a]) s (fun s => priv s (fun s =>
    let pid := bitsAt (s.sh.xget a).toNat 0 8
    if !supervised s pid then raiseA cPERM 15 s
    else if scrubsDone s pid then doneA s else waitA s .other))

/-- A range of memory addresses written with zeros, whole lines: poison goes with them (R334, R373). -/
def zeroRange (s : State) (lo n : Nat) : State :=
  ({ s with mem := s.mem.cover lo (lo + n) 0 } : State).putPoison (s.poison.filter (fun l => !(lo ≤ l && l < lo + n)))

/-- The scratchpads a scrub clears before its first granule (R399). -/
def clearPads (s : State) (die pid : Nat) : State :=
  match (s.part? pid).bind (fun p => p.uses.find? (fun u => u.die == die)) with
  | none => s
  | some u =>
    let s1 := ((List.range 16).filter (fun c => u.cores.getLsbD c)).foldl (fun s c =>
      let s1 := zeroRange s (nearKey (die * 16 + c) 0) 0x180000
      s1.setCore { s1.core (die * 16 + c) with nearUsed := false }) s
    u.clus.zipIdx.foldl (fun s g => zeroRange s (clusKey (die * 4 + g.2) (g.1.1 * 65536)) (g.1.2 * 65536)) s1

/-- The physical address of granule k of a die's scrub (R373). -/
def granuleAt (s : State) (die pid k : Nat) : Nat :=
  let ws := (s.die die).banks.filter (fun b => b.pid == pid)
  let cap := (ws.map (fun b => b.pcap)).sum
  if k < cap then die * 2 ^ 32 + ((ws.headD default).pbase + k) * 65536
  else mmBase + ((s.part? pid).map (fun p => p.mmBase)).getD 0 * 2 ^ 30 + (die + 32 * (k - cap)) * 65536

/-- SCRUB_GRANULE, R373, R399: the partition's translations are removed and the pads cleared first, then one granule at a time. -/
def execScrubGranule (die pid : Nat) (s : State) : Out3 :=
  let d := s.die die
  match d.scrub? pid with
  | none => .next s
  | some r =>
    if r.fin then .next s
    else
      let put (s : State) (q : Scrub) : State :=
        s.setDie die { s.die die with scrubs := (s.die die).scrubs.map (fun p => if p.pid = pid then q else p) }
      if !r.cleared then
        if xlatsBusy s (fun t => t.pid == pid) then .next s
        else .next (put (clearPads (dropXlats s (fun t => t.pid == pid)) die pid) { r with cleared := true, fin := r.total == 0 })
      else
        .next (put (zeroRange s (granuleAt s die pid r.done) 65536) { r with done := r.done + 1, fin := decide (r.total ≤ r.done + 1) })

/-- SCRUB_PENDING_START, R402. -/
def execScrubPendingStart (die : Nat) (s : State) : Out3 :=
  let d := s.die die
  match d.pend with
  | [] => .next s
  | pid :: r => if d.scrubs.length < 8 then .next (serveScrub s die pid r) else .next s

/-! ## Fault records and counters -/

/-- `frq.n`, R242. -/
def execFrqN (h : Hd) (d : Fin 64) (s : State) : Out3 :=
  aInstr h (xs [d]) s (fun s => writeA s d (BitVec.ofNat 64 s.sh.frq.length))

/-- `frq.pop`, R242, R388: the oldest record goes to memory as one 64-byte plain write. -/
def execFrqPop (h : Hd) (d a : Fin 64) (s : State) : Out3 :=
  aInstr h (xs [d, a]) s (fun s =>
    let ea := (s.sh.xget a).toNat
    if ea % 64 ≠ 0 then faultA (chkFlt cALIGN 3 0 ea 0 false) s
    else
      match s.sh.frq with
      | [] => writeA s d (BitVec.allOnes 64)
      | f :: r =>
        accessA s ea 64 .write false (fun s l =>
          match s.co.plain l.key (f.words.flatMap (fun w => leBytes 8 w.toNat)) false (byA s) with
          | none => waitA s .other
          | some c => writeA { s with co := { c with frUsed := c.frUsed - 1 }, sh := { s.sh with frq := r } } d (BitVec.ofNat 64 r.length)))

/-- A shared counter as a region sees it (R245): as it stands under system privilege, else its value at a start of a millisecond at
least 1 ms ago, rounded down to a multiple of 1,024. -/
def sharedCount (s : State) (now : Nat) (snap : Nat × Nat) : Nat := if s.sh.priv then now else snap.2 / 1024 * 1024

/-- The counters of `cnt` (R245). -/
def counter (s : State) : CntK → Nat
  | .cycles => s.co.cycle
  | .aDone => s.sh.nA
  | .xIssued => s.sh.nX
  | .xWaiting => s.sh.nWait
  | .wlBytes => sharedCount s s.co.wlBytes s.co.snapWl
  | .hedBytes => sharedCount s s.co.hedBytes s.co.snapHed
  | .fabBytes =>
    match s.part? s.sh.pid with
    | some p => sharedCount s p.fabBytes p.snapFab
    | none => 0

/-- `cnt`, R245. -/
def execCnt (h : Hd) (k : CntK) (d : Fin 64) (s : State) : Out3 :=
  aInstr h (xs [d]) s (fun s => writeA s d (BitVec.ofNat 64 (counter s k)))

end Sys2Proof.Machine
end

