-- ==== Sys2Proof/Machine/Sched.lean ====
section
/-! DEFINITION. From host queue to issue slot (R298 to R317): queues and start records, admission and placement, the order of
waiting records, token budgets, pre-emption, saves and resumptions, and kills. -/

namespace Sys2Proof.Machine

/-! ## Queues (R298 to R300) -/

/-- A queue header is malformed: a base is misaligned or the entry count out of range (R298). What stands in its reserved bits is ignored
(R3). -/
def headerBad (h : List Nat) : Bool :=
  let w (k : Nat) := h.getD k 0
  w 2 % 64 != 0 || w 3 % 16 != 0 || decide (bitsAt (w 4) 0 5 < 4) || decide (16 < bitsAt (w 4) 0 5)

/-- A start record breaks R300. -/
def recordBad (w : Nat → Nat) : Bool :=
  let L := 4 * 2 ^ bitsAt (w 2) 6 2
  let k := bitsAt (w 2) 0 6
  let ceil := bitsAt (w 2) 32 13
  bitsAt (w 0) 56 6 != 0 || w 0 % 8 != 0 || bitsAt (w 2) 45 19 != 0 || bitsAt (w 2) 8 24 != 0 ||
  ceil == 0 || decide (4096 < ceil) || k == 0 || decide (32 / L < k) ||
  (bitAt (w 0) 62 != (bitsAt (w 3) 32 32 != 0)) || (!bitAt (w 0) 63 && w 4 != 0) || w 6 != 0 || w 7 != 0

/-- The number of an arrival now: records read at one T64 share it (R307). -/
def arrival (s : State) : Nat := if s.lastArr.2 = some s.gn.t64.toNat then s.lastArr.1 else s.lastArr.1 + 1

/-- A start record as it is taken from its queue, waiting. -/
def newRec (s : State) (q : HQueue) (idx : Nat) (w : Nat → Nat) : Rec :=
  { id := s.nextRec, pid := q.pid, queue := q.no, index := idx, entry := bitsAt (w 0) 0 56, arg := BitVec.ofNat 64 (w 1)
    ceil := bitsAt (w 2) 32 13, lanes := 4 * 2 ^ bitsAt (w 2) 6 2, k := bitsAt (w 2) 0 6, timed := bitAt (w 0) 63
    gang := bitsAt (w 3) 32 32, handle := bitsAt (w 3) 0 32, launch := w 4, cookie := BitVec.ofNat 64 (w 5)
    stat := .waiting, region := Region.none, core := 0, startT := 0, startNo := 0, late := false, begun := false, gangIn := false
    home := 0, save := none, exits := [], preAt := none, atOnce := false, cmdCore := 0, kept := [], held := [], folds := []
    cmdNo := 0, arrNo := arrival s }

/-- A record taken: it waits, or completes at once, malformed or a timed one refused (R300, R313). -/
def takeRecord (s : State) (q : HQueue) (idx : Nat) (w : Nat → Nat) : State :=
  let r := newRec s q idx w
  let s1 := { s with nextRec := s.nextRec + 1, recs := s.recs ++ [r], lastArr := (arrival s, some s.gn.t64.toNat) }
  if recordBad w then completeRec s1 r 1
  else if r.timed && decide (2 ≤ s.gn.lock) then completeRec s1 r 3
  else s1

/-- Records taken from a queue in increasing order up to its tail; a read that fails stops the queue (R299). -/
def takeRecords (qn base e : Nat) : Nat → State → State
  | 0, s => s
  | n + 1, s =>
    match s.queue? qn with
    | none => s
    | some q =>
      if q.stop ≠ 0 then s
      else
        match frameReader s q.pid (base + 64 * (q.next % e)) 64 with
        | (s1, none) => stopQueue s1 q 2
        | (s1, some rd) =>
          let s2 := s1.setQueueRec { q with next := (q.next + 1) % 2 ^ 64 }
          takeRecords qn base e n (takeRecord s2 q q.next (fun k => rd (8 * k)))

/-- A queue's header acted on (R299): a stop reason, or the records from the next to be read up to the tail, both counted from the head. -/
def readQueue (s : State) (q : HQueue) : State :=
  match readHeader s q with
  | (s1, none) => stopQueue s1 q 2
  | (s1, some h) =>
    let e := 2 ^ bitsAt (h.getD 4 0) 0 5
    let tail := h.getD 0 0
    if headerBad h then stopQueue s1 q 3
    else if bitAt (h.getD 4 0) 8 then stopQueue s1 q 4
    else if e < (tail + 2 ^ 64 - q.head) % 2 ^ 64 then stopQueue s1 q 1
    else takeRecords q.no (bitsAt (h.getD 2 0) 0 56) e ((tail + 2 ^ 64 - q.head) % 2 ^ 64 - (q.next + 2 ^ 64 - q.head) % 2 ^ 64) s1

/-- QUEUE_TAIL_READ, R299: a registered queue that has not stopped, of an active partition. -/
def execQueueTailRead (q : Nat) (s : State) : Out3 :=
  match s.queue? q with
  | none => .next s
  | some r =>
    if r.stop ≠ 0 || ((s.part? r.pid).map (fun p => p.state)).getD 0 != 1 || queueHeld s r then .next s else .next (readQueue s r)

/-! ## Tenants (R309) -/

/-- The valid tenants of a partition by increasing slot: slot, generation, refill, borrow limit. -/
def scanTenants (pid : Nat) : State → List Nat → State × List (Nat × Nat × Nat × Nat)
  | s, [] => (s, [])
  | s, k :: r =>
    let base := ((s.part? pid).map (fun p => p.tblBase)).getD 0
    match readBlock s pid (base + 256 * k) with
    | (s1, none) => scanTenants pid s1 r
    | (s1, some b) =>
      let (s2, l) := scanTenants pid s1 r
      if bitAt (b.getD 1 0) 63 && bitsAt (b.getD 0 0) 0 56 == 0 then
        (s2, (k, bitsAt (b.getD 1 0) 0 12, bitsAt (b.getD 3 0) 0 32, bitsAt (b.getD 3 0) 32 32) :: l)
      else (s2, l)

/-- A tenant found valid with a generation not seen starts with its full refill and no debt (R309). -/
def meetTenant (pid : Nat) (ts : List Tenant) (e : Nat × Nat × Nat × Nat) : List Tenant :=
  match ts.find? (fun t => t.pid == pid && t.slot == e.1) with
  | some t =>
    if t.gen = e.2.1 then ts
    else ts.map (fun u => if u.pid = pid ∧ u.slot = e.1 then { u with gen := e.2.1, bal := e.2.2.1, debt := 0 } else u)
  | none => ts ++ [{ pid := pid, slot := e.1, gen := e.2.1, bal := e.2.2.1, debt := 0 }]

/-- A partition's region table lies in a die under repair: what the device reads and writes there waits (R377). -/
def tableHeld (s : State) (pid : Nat) : Bool := ((s.part? pid).map (fun p => devHeld s pid p.tblBase (256 * p.tblSlots))).getD false

/-- The tenants of every partition that is not free, met: partition with its list. Those of a table that lies in a die under repair are left
as they are, and the refills and charges that fall due in that time are not made up. DESIGN CHOICE (log entry 122). -/
def meetTenants (s : State) : State × List (Nat × List (Nat × Nat × Nat × Nat)) :=
  (s.parts.filter (fun p => !tableHeld s p.1)).foldl (fun (a : State × List (Nat × List (Nat × Nat × Nat × Nat))) p =>
    let (s1, l) := scanTenants p.1 a.1 (List.range p.2.tblSlots)
    ({ s1 with tenants := l.foldl (meetTenant p.1) s1.tenants }, a.2 ++ [(p.1, l)])) (s, [])

/-- A tenant's balance. -/
def balance (s : State) (pid slot : Nat) : Int :=
  ((s.tenants.find? (fun t => t.pid == pid && t.slot == slot)).map (fun t => t.bal)).getD 0

/-- A tenant's entry changed. -/
def setTenant (ts : List Tenant) (pid slot : Nat) (f : Tenant → Tenant) : List Tenant :=
  ts.map (fun t => if t.pid = pid ∧ t.slot = slot then f t else t)

/-- Whether a record holds a core. -/
def holdsCore (s : State) (r : Rec) : Bool := r.stat != .waiting && r.stat != .saved && (s.core r.core).recId == some r.id

/-- Resident lanes of the records under a table slot: 32 for each core held (R309). -/
def lanesUnder (s : State) (pid slot : Nat) : Nat :=
  32 * (s.recs.filter (fun r => r.pid == pid && holdsCore s r && r.region.chain.any (fun c => c.1 == slot))).length

/-- The tenant of a record: as its region was read, or as its handle now says while it waits. -/
def tenantOf (s : State) (r : Rec) : Option Nat := (regionOf s r).map (fun g => g.tenant)

/-- A tenant has a waiting or resident record. -/
def tenantBusy (s : State) (pid slot : Nat) : Bool := s.recs.any (fun r => r.pid == pid && tenantOf s r == some slot)

/-- Repayment and refill of a tenant (R309). -/
def Tenant.refilled (t : Tenant) (f : Nat) : Tenant :=
  let pay := Nat.min t.debt (f / 4)
  { t with debt := t.debt - pay, bal := (f : Int) - pay }

/-- Words 13, 14 and 15 of the valid blocks of a partition's table, as the device updates them (R302, R309): what software has stored there
is discarded, and the balance and debt words of a block that is no tenant are 0 (log entry 103). -/
def writeTenantWords (s : State) (pid : Nat) (l : List (Nat × Nat × Nat × Nat)) : State :=
  let p := s.part? pid
  let base := (p.map (fun p => p.tblBase)).getD 0
  let s1 := l.foldl (fun s e =>
    match s.tenants.find? (fun t => t.pid == pid && t.slot == e.1) with
    | none => s
    | some t => (devPut (devPut s pid (base + 256 * e.1 + 104) (BitVec.ofInt 64 t.bal)).1 pid (base + 256 * e.1 + 112) (BitVec.ofNat 64 (t.debt % 2 ^ 32))).1) s
  (List.range ((p.map (fun p => p.tblSlots)).getD 0)).foldl (fun s k =>
    match readBlock s pid (base + 256 * k) with
    | (s2, some b) =>
      if bitAt (b.getD 1 0) 63 then
        let s3 := (devPut s2 pid (base + 256 * k + 120) (BitVec.ofNat 64 (lanesUnder s2 pid k % 65536))).1
        if bitsAt (b.getD 0 0) 0 56 = 0 then s3
        else (devPut (devPut s3 pid (base + 256 * k + 104) 0).1 pid (base + 256 * k + 112) 0).1
      else s2
    | (s2, none) => s2) s1

/-- The token refill of every tenant. -/
def refillTokens (s : State) : State :=
  let (s1, ps) := meetTenants s
  ps.foldl (fun s p =>
    writeTenantWords { s with tenants := p.2.foldl (fun ts e => setTenant ts p.1 e.1 (fun t => t.refilled e.2.2.1)) s.tenants } p.1 p.2) s1

/-- What a tenant without balance borrows: from the first of the partition's tenants that has no record and something to lend. -/
def borrow (s : State) (pid : Nat) (e : Nat × Nat × Nat × Nat) : List (Nat × Nat × Nat × Nat) → State
  | [] => s
  | l :: r =>
    let debt := ((s.tenants.find? (fun t => t.pid == pid && t.slot == e.1)).map (fun t => t.debt)).getD 0
    let f : Int := (e.2.2.1 / 4 : Nat)
    let lim : Int := e.2.2.2
    let a : Int := Min.min (Min.min f (lim - debt)) (balance s pid l.1)
    if !tenantBusy s pid l.1 && decide (0 < balance s pid l.1) && decide (0 < a) then
      let ts := setTenant s.tenants pid l.1 (fun t => { t with bal := t.bal - a })
      { s with tenants := setTenant ts pid e.1 (fun t => { t with bal := t.bal + a, debt := t.debt + a.toNat }) }
    else borrow s pid e r

/-- The charge of one tenant for 1 µs, and what it borrows (R309). -/
def chargeTenant (pid : Nat) (all : List (Nat × Nat × Nat × Nat)) (s : State) (e : Nat × Nat × Nat × Nat) : State :=
  let n : Int := lanesUnder s pid e.1
  let f : Int := e.2.2.1
  let s1 := { s with tenants := setTenant s.tenants pid e.1 (fun t => { t with bal := Max.max (t.bal - n) (0 - f) }) }
  if balance s1 pid e.1 ≤ 0 ∧ tenantBusy s1 pid e.1 then borrow s1 pid e all else s1

/-- The charge of every tenant for 1 µs. -/
def chargeTokens (s : State) : State :=
  let (s1, ps) := meetTenants s
  ps.foldl (fun s p => writeTenantWords (p.2.foldl (chargeTenant p.1 p.2) s) p.1 p.2) s1

/-- The refill of R309 once for every multiple of 400,000 that T64 has reached, and the charge once for every multiple of 4,000. -/
def dueRefill (s : State) : State :=
  if s.gn.t64.toNat / 400000 = s.gn.lastTok then s
  else refillTokens { s with gn := { s.gn with lastTok := s.gn.t64.toNat / 400000 } }
def dueCharge (s : State) : State :=
  if s.gn.t64.toNat / 4000 = s.gn.lastChg then s
  else chargeTokens { s with gn := { s.gn with lastChg := s.gn.t64.toNat / 4000 } }

/-- TOKEN_REFILL, R309. -/
def execTokenRefill (s : State) : Out3 := .next (dueRefill s)

/-- TOKEN_CHARGE, R309. -/
def execTokenCharge (s : State) : Out3 := .next (dueCharge s)

/-! ## The allocator (R303 to R308) -/

/-- A record that waits for a core, as the allocator sees it. -/
structure Cand where
  r   : Rec
  g   : Region
  bal : Int

/-- A resumption (R307). -/
def Cand.resumes (c : Cand) : Bool := c.r.stat == .saved

/-- The order of R307: a record arrives when it is read; of two read at one time that of the lower queue number is first. -/
def Cand.before (a b : Cand) : Bool :=
  let ka := decide (0 < a.bal)
  let kb := decide (0 < b.bal)
  if ka != kb then ka
  else if a.g.prio ≠ b.g.prio then decide (b.g.prio < a.g.prio)
  else if a.resumes != b.resumes then a.resumes
  else if a.r.arrNo ≠ b.r.arrNo then decide (a.r.arrNo < b.r.arrNo)
  else if a.r.queue ≠ b.r.queue then decide (a.r.queue < b.r.queue)
  else decide (a.r.id < b.r.id)

/-- What the device reads and writes to place or resume a record waits for a die under repair (R377): its partition's region table, its
queue, its save slot. -/
def recHeld (s : State) (r : Rec) : Bool :=
  tableHeld s r.pid || complHeld s r ||
  (r.save.map (fun k => devHeld s r.pid (slotBase r.region k) 0x01400000)).getD false

/-- Records that wait and whose time has come (R299, R307, R313, R319): of each queue the oldest new one, and saved ones; of active
partitions, once the feature set is locked (R350). -/
def waitingRecs (s : State) : List Rec :=
  if s.feature.isNone then []
  else s.recs.filter (fun r =>
    ((s.part? r.pid).map (fun p => p.state)).getD 0 == 1 && !recHeld s r &&
    match r.stat with
    | .waiting =>
      !(s.recs.any (fun q => q.queue == r.queue && q.stat == .waiting && decide (q.id < r.id))) &&
        (!r.timed || decide (r.launch ≤ s.gn.t64.toNat + 200000))
    | .saved => r.gang == 0 || s.gangs.any (fun g => g.id == r.gang && g.pid == r.pid && g.isIn)
    | _ => false)

/-- Waiting records with their regions as they now stand, and those whose handles are refused with their status. -/
def readCands (s : State) : List Rec → State × List Cand × List (Rec × Nat)
  | [] => (s, [], [])
  | r :: l =>
    match readRegion s r.pid r.handle with
    | (s1, .error e) => let (s2, cs, bad) := readCands s1 l; (s2, cs, (r, e) :: bad)
    | (s1, .ok g) => let (s2, cs, bad) := readCands s1 l; (s2, { r := r, g := g, bal := balance s1 r.pid g.tenant } :: cs, bad)

/-- The first of some candidates. -/
def firstCand : List Cand → Option Cand
  | [] => none
  | c :: r =>
    match firstCand r with
    | none => some c
    | some d => if d.before c then some d else some c

/-- Save slots of a save area in use: home slots, and slots of saves (R327). -/
def slotsUsed (s : State) (pid base : Nat) : List Nat :=
  (s.recs.filter (fun r => r.pid == pid && r.stat != .waiting && r.region.saveBase == base)).flatMap (fun r => r.home :: r.save.toList)

/-- The lowest free save slot of a region. -/
def freeSave (s : State) (pid : Nat) (g : Region) : Option Nat :=
  (List.range g.saveN).find? (fun k => !(slotsUsed s pid g.saveBase).contains k)

/-- Whether a partition's cluster grant of a core's cluster covers a region's cluster bytes (R305). -/
def clusCovers (p : Part) (core n : Nat) : Bool :=
  p.uses.any (fun u => u.die == dieOf core && decide (n ≤ (u.clus.getD (core % 16 / 4) (0, 0)).2))

/-- Whether a core can take a record (R304, R305, R316, R377): empty, in the queue's dies and the partition's cores, on a die that serves,
in a cluster that covers the region, the one it left for a resumption, with command slots and fault records to reserve. -/
def canTake (s : State) (c : Cand) (k : Nat) : Bool :=
  match s.part? c.r.pid, s.queue? c.r.queue with
  | some p, some q =>
    (s.core k).recId.isNone && bitAt q.dies (dieOf k) && (s.die (dieOf k)).repair == 0 &&
    p.uses.any (fun u => u.die == dieOf k && u.cores.getLsbD (k % 16)) &&
    (c.g.clus == 0 || (clusCovers p k c.g.clus && (!c.resumes || k / 4 == c.r.core / 4))) &&
    decide ((heldOn s k c.r.id).1 + Nat.max c.g.cmdR (cmdsOf (s.core k) c.r.id).length ≤ 256) &&
    decide ((heldOn s k c.r.id).2 + Nat.max c.g.frR (recFrs s c.r) ≤ 1024)
  | _, _ => false

/-- The core a record is placed on: the lowest-numbered die, then core, that can take it (R305). -/
def coreFor (s : State) (c : Cand) : Option Nat :=
  if !c.resumes && (freeSave s c.r.pid c.g).isNone then none else (List.range 512).find? (canTake s c)

/-- A record of a tenant with balance waits: a new one, wherever it stands in its queue and whenever it is to launch, or a resumption. -/
def richWaits (s : State) : Bool :=
  s.recs.any (fun r => (r.stat == .waiting || r.stat == .saved) && (match tenantOf s r with
    | some t => decide (0 < balance s r.pid t)
    | none => false))

/-- The record to be placed next, in the order of R307: the first that a core can take; a new record of a tenant without balance only
while no record of a tenant with balance waits (R310). -/
def nextCand (s : State) (cs : List Cand) : Option (Cand × Nat) :=
  let rich := richWaits s
  let ok := cs.filter (fun c => (coreFor s c).isSome && (c.resumes || decide (0 < c.bal) || !rich))
  match firstCand ok with
  | none => none
  | some c => (coreFor s c).map (fun k => (c, k))

/-- A record's shuttles may begin (R313, R319). -/
def mayBegin (r : Rec) (now : Nat) : Bool := (!r.timed || decide (r.launch ≤ now)) && (r.gang == 0 || r.gangIn)

/-- A shuttle of a record as it begins or waits to (R10, R306). -/
def firstShuttle (r : Rec) (pos cycle : Nat) (go : Bool) : Shuttle :=
  let z := Shuttle.reset
  { z with
    pos := pos
    status := if go then .running else .waiting
    lanes := r.lanes
    pid := r.pid
    priv := r.region.priv
    handle := r.handle
    ceil := r.ceil
    nearLen := Nat.min r.region.near (r.lanes * 49152)
    nTiles := Nat.min r.region.tiles (8 * r.lanes)
    nEnts := Nat.min r.region.ents (8 * r.lanes)
    x := ((z.x.set 1 r.arg).set 2 (BitVec.ofNat 64 pos)).set 3 (BitVec.ofNat 64 r.lanes)
    apc := BitVec.ofNat 56 r.entry
    lastIssue := cycle - 1 }

/-- Shuttles as a table by position. -/
def byPos (ts : List Shuttle) : List (Nat × Shuttle) := ts.foldl (fun l t => aput l t.pos t) []

/-- A core given to a record: its shuttles resident, its tiles and tile-table entries at reset, its refill and hold limit the region's
(R178, R270, R305, R312). -/
def giveCore (s : State) (k : Nat) (r : Rec) (ts : List Shuttle) : State :=
  let c := s.core k
  let s1 := s.setCore { c with
    recId := some r.id, lanes := r.lanes, shs := byPos ts, tents := [], tiles := [], owner := none, acqs := []
    overHold := 0, holdLim := r.region.hold, fa := Fifo.reset, fb := Fifo.reset, frUsed := 0, refill := r.region.refill, nearUsed := true }
  if k = s.co.id then
    { s1 with sh := (ts.find? (fun t => t.pos == s.sh.pos)).getD { Shuttle.reset with pos := s.sh.pos }
              co := { s1.co with shs := byPos (ts.filter (fun t => t.pos != s.sh.pos)) } }
  else s1

/-- Records held for a region go to its oldest resident record's first shuttle (R332). -/
def deliverHeld (s : State) (r : Rec) : State :=
  let mine (e : Nat × Nat × FRec) : Bool := e.1 == r.pid && e.2.1 == r.region.slot
  let s1 := (s.heldRecs.filter mine).foldl (fun s e =>
    let f : Ref := { core := r.core, pos := 0 }
    let c := s.core r.core
    pushFRec (s.setCore { c with frSeq := c.frSeq + 1 }) f { e.2.2 with seq := c.frSeq, die := dieOf r.core, core := r.core % 16, pos := 0 }) s
  { s1 with heldRecs := s1.heldRecs.filter (fun e => !mine e) }

/-- The near grants of a record's shuttles, as ranges of memory addresses. -/
def nearRanges (r : Rec) (k : Nat) : List (Nat × Nat) :=
  (List.range r.k).map (fun p =>
    (nearKey k (p * r.lanes * 49152), nearKey k (p * r.lanes * 49152) + Nat.min r.region.near (r.lanes * 49152)))

/-- The place after every record in the order of their first starts (R308). -/
def nextStart (s : State) : Nat := s.recs.foldl (fun n r => Nat.max n r.startNo) 0 + 1

/-- The near grants of a record placed on a core: undefined, but on a core where no record has been since the scratchpad was cleared, which a
new partition finds zero (R306, R399). -/
def nearPlaced (s : State) (r : Rec) (k : Nat) : State := if (s.core k).nearUsed then havoc s (nearRanges r k) else s

/-- A new record placed on a core (R304 to R306, R313). -/
def placeRec (s : State) (c : Cand) (k : Nat) : State :=
  let now := s.gn.t64.toNat
  let r0 := { c.r with
    region := c.g, core := k, startT := now, startNo := nextStart s, home := (freeSave s c.r.pid c.g).getD 0
    gangIn := s.gangs.any (fun g => g.id == c.r.gang && g.pid == c.r.pid && g.isIn), cmdCore := k }
  let go := mayBegin r0 now
  let r := { r0 with stat := if go then .running else .placed, begun := go, late := go && r0.timed && decide (r0.launch < now) }
  deliverHeld (giveCore (nearPlaced (s.setRec r) r k) k r ((List.range r.k).map (fun p => firstShuttle r p (s.core k).cycle go))) r

/-- RECORD_PLACE, R302, R305, R307: a waiting record whose region handle is refused completes with its status; else the record next in
order is placed, when it is a new one. -/
def execRecordPlace (s : State) : Out3 :=
  let s0 := (meetTenants s).1
  let (s1, cs, bad) := readCands s0 (waitingRecs s0)
  match bad.find? (fun b => b.1.stat == .waiting) with
  | some (r, e) => .next (completeRec s1 r e)
  | none =>
    match nextCand s1 cs with
    | none => .next s1
    | some (c, k) => if c.resumes then .next s1 else .next (placeRec s1 c k)

/-! ## Pre-emption (R308, R314, R315) -/

/-- A record to be saved: a free save slot is taken, and its shuttles are to be told (R314). False when no slot is free. -/
def markPre (s : State) (id : Nat) (atOnce : Bool) : State × Bool :=
  match s.rec? id with
  | none => (s, false)
  | some r =>
    if r.preAt.isSome then (s.setRec { r with atOnce := r.atOnce || atOnce }, true)
    else
      match freeSave s r.pid r.region with
      | none => (s, false)
      | some n => (s.setRec { r with preAt := some s.gn.t64.toNat, save := some n, atOnce := atOnce }, true)

/-- A resident record that the allocator may choose (R308). -/
def victimOk (s : State) (r : Rec) : Bool :=
  (r.stat == .placed || r.stat == .running) && holdsCore s r && r.gang == 0 && r.preAt.isNone &&
  decide (r.startT + 400000 ≤ s.gn.t64.toNat) && (freeSave s r.pid r.region).isSome

/-- The record that started longest ago. -/
def oldest : List Rec → Option Rec
  | [] => none
  | r :: l =>
    match oldest l with
    | none => some r
    | some q => if q.startNo < r.startNo then some q else some r

/-- The resident record to be pre-empted for a waiting one: of a tenant without balance, else of strictly lower priority (R308). -/
def victim (s : State) (c : Cand) : Option Rec :=
  let vs := s.recs.filter (victimOk s)
  match oldest (vs.filter (fun r => decide (balance s r.pid r.region.tenant ≤ 0))) with
  | some r => some r
  | none => oldest (vs.filter (fun r => match readRegion s r.pid r.handle with
      | (_, .ok g) => decide (g.prio < c.g.prio)
      | _ => decide (r.region.prio < c.g.prio)))

/-- A save that the allocator requested for a waiting record is under way (R308). -/
def State.saves (s : State) (id : Nat) : Bool :=
  s.saving.any (fun p => p.1 == id && ((s.rec? p.2).map (fun r => r.preAt.isSome)).getD false)

/-- ALLOC_PREEMPT, R308. -/
def execAllocPreempt (s : State) : Out3 :=
  let s0 := (meetTenants s).1
  let (s1, cs, _) := readCands s0 (waitingRecs s0)
  match firstCand cs with
  | none => .next s1
  | some c =>
    if c.bal ≤ 0 || (List.range 512).any (canTake s1 c) || s1.saves c.r.id then .next s1
    else
      match victim s1 c with
      | none => .next s1
      | some r => .next (markPre { s1 with saving := (c.r.id, r.id) :: s1.saving } r.id false).1

/-- A shuttle told of a pre-emption (R314): event bit 3; saved between element groups at once when it is so asked or has not begun.
It does not apply to one that executes `halt`, nor twice. -/
def Shuttle.tell (t : Shuttle) (now : Nat) (atOnce : Bool) : Shuttle :=
  if (t.status ≠ .running ∧ t.status ≠ .waiting) ∨ t.halting ∨ t.pre.isSome then t
  else
    let t1 := { t with events := t.events ||| 8, pre := some now }
    if (atOnce || t.status == .waiting) && t.due.isNone && !t.midway then { t1.stopPart with saveDue := some 2 } else t1

/-- PREEMPT_REQUEST, R314: every shuttle of a record to be saved is told. -/
def execPreemptRequest (id : Nat) (s : State) : Out3 :=
  match s.rec? id with
  | none => .next s
  | some r =>
    match r.preAt with
    | none => .next s
    | some at' =>
      .next ((List.range r.k).foldl (fun s p =>
        match s.place? id p with
        | none => s
        | some f => s.setShuttle f.core ((s.shuttle f).tell at' r.atOnce)) s)

/-- PREEMPT_TIMEOUT, R314: the shuttle in focus has had its request for 20 µs, or is to be saved at once, and may stop where it is. -/
def execPreemptTimeout (s : State) : Out3 :=
  let t := s.sh
  match t.pre with
  | none => .next s
  | some at' =>
    let now := decide (at' + 80000 ≤ s.gn.t64.toNat) || (s.myRec?.map (fun r => r.atOnce)).getD false
    if now && t.status == .running && t.saveDue.isNone && t.due.isNone && !t.midway then
      .next { s with sh := { t.stopPart with saveDue := some 2 } }
    else .next s

/-- SAVE_COMPLETE, R315: every shuttle of a record to be saved has been saved or has ended; its core returns to the allocator. -/
def execSaveComplete (id : Nat) (s : State) : Out3 :=
  match s.rec? id with
  | none => .next s
  | some r =>
    let stats := (List.range r.k).map (fun p => (s.shuttle { core := r.core, pos := p }).status)
    if r.preAt.isSome && holdsCore s r && stats.all (fun x => x == .saved || x.ended) && stats.contains .saved then
      .next ({ clearCore s r.core with saving := s.saving.filter (fun p => p.2 != id) }.setRec { r with stat := .saved, preAt := none, atOnce := false })
    else .next s

/-! ## Resumption (R316) -/

/-- What a save kept of a position. -/
def Rec.keptOf (r : Rec) (pos : Nat) : Kept :=
  (r.kept.find? (fun k => k.pos == pos)).getD
    { pos := pos, frq := [], lost := 0, dirty := 0, owned := false, reed := false, endDue := none, endSaved := [], nA := 0,
      nX := 0, nWait := 0, nD := 0, parked := [], budgetDue := false, nos := [], tags := [], spans := [] }

/-- A shuttle as its save slot holds it (R315, R316, R328); none when its area cannot be read or holds no restorable frame. -/
def savedShuttle (s : State) (old r : Rec) (slot pos cycle : Nat) (go : Bool) : State × Option Shuttle :=
  let L := r.lanes
  let kp := old.keptOf pos
  let base := areaBase old.region slot pos L
  match frameReader s r.pid base (8192 * L) with
  | (s1, none) => (s1, none)
  | (s1, some rd) =>
    let t0 := { firstShuttle r pos cycle go with
      vdirty := kp.dirty, frq := kp.frq, lost := kp.lost, endSaved := kp.endSaved, nA := kp.nA, nX := kp.nX
      nWait := kp.nWait, nD := kp.nD, parked := kp.parked, budgetDue := kp.budgetDue
      prog := (List.range (Nat.min (bitsAt (rd 0x1B8) 8 6) 32)).map (fun k => bitsAt (rd (frameSize L + 8 * (k / 2))) (32 * (k % 2)) 32) }
    match restoreFrame s1.feature t0 cycle true rd with
    | none => (s1, none)
    | some t2 =>
      let t := { t2 with progOk := t2.progOk && progGood s1.feature t2.prog, endDue := kp.endDue.filter (fun a => t2.apc.toNat == a + 8) }
      let late := t.armed && decide (t.timer.toNat ≤ s.gn.t64.toNat)
      let t1 := if late then { t with armed := false, events := t.events ||| 1 } else t
      let reed := if kp.reed then
          match frameReader s1 r.pid (slotBase old.region slot + 0x10D0000 + 64 * pos) 64 with
          | (_, some q) => reedMask ((List.range 8).flatMap (fun k => leBytes 8 (q (8 * k))))
          | _ => []
        else []
      (s1, some { ((t1.numbered kp.nos).poisonedBy (frameBad s1 base)) with reed := reed })

/-- An operand FIFO from its words in the core area (R327). -/
def savedFifo (s : State) (pid base off : Nat) (w : Nat → Nat) : Fifo :=
  { src := (BindK.ofCode (w 0 % 256)).getD .none, ty := (MType.ofCode (w 0 / 256)).getD .e4, tag := w 1
    runs := (List.range (w 2)).map (fun k => match frameReader s pid (base + off + 32 * k) 32 with
      | (_, some q) => FRun.ofWords ((List.range 4).map (fun j => q (8 * j)))
      | _ => { codes := List.replicate 8 0, scale := 0x3F80, poison := false }) }

/-- What a save slot holds of a position beside its frame, put back on a core: near grant, tiles with their band scales, tile-table
entries, and the matrix engine for its owner (R315). -/
def putBack (s : State) (old r : Rec) (slot pos : Nat) : State :=
  let L := r.lanes
  let k := r.core
  let kp := old.keptOf pos
  let base := areaBase old.region slot pos L
  let t := s.shuttle { core := k, pos := pos }
  let nk := nearKey k (pos * L * 49152)
  let s1 := match devSpan s r.pid .read 30 (base + 8192 * L) (49152 * L) with
    | (s1, some ps) => ps.foldl (fun s p =>
        let o := p.1 - (base + 8192 * L)
        copyLines (meetLatent s r.id pos p.2.2 p.2.1) p.2.2 (nk + o) (Nat.min p.2.1 (t.nearLen - o))) s1
    | (s1, none) => s1
  let rd (off : Nat) : Nat := match frameReader s1 r.pid (base + off) 8 with
    | (_, some q) => q 0
    | _ => 0
  let bad := spanBad s1 r.pid base (scalesOff * L + 8 * t.nTiles)
  let tiles := (List.range (Nat.min t.nTiles (Nat.min old.region.tiles (8 * L)))).map (fun j =>
    (t.firstTile + j,
     ({ data := BitVec.ofNat 262144 (((List.range 4096).map (fun w => rd (57344 * L + 32768 * j + 8 * w) * 2 ^ (64 * w))).sum)
        scale := BitVec.ofNat 16 (rd (scalesOff * L + 8 * j))
        pois := if s1.poison = [] then []
          else (List.range 4096).filter (fun w => bad (57344 * L + 32768 * j + 8 * w)) ++ (if bad (scalesOff * L + 8 * j) then [4096] else []) } : Tile)))
  let ents := (List.range (Nat.min t.nEnts (Nat.min old.region.ents (8 * L)))).map (fun j =>
    let w := rd (319488 * L + 8 * j)
    (t.firstTile + j, ({ state := bitsAt w 62 2, abort := bitsAt w 48 8, expect := bitsAt w 16 16, done := bitsAt w 0 16,
                          bad := bad (319488 * L + 8 * j) } : TEnt)))
  let c1 := tiles.foldl (fun (c : Core) e => c.setTile e.1 e.2) (s1.core k)
  let c2 := ents.foldl (fun (c : Core) e => c.setTent e.1 e.2) c1
  let cb := slotBase old.region slot + 0x1000000
  let c3 :=
    if kp.owned then
      match frameReader s1 r.pid cb 64 with
      | (_, some q) =>
        { c2 with owner := some pos, ownAt := s.gn.t64.toNat, overHold := 0
                  fa := savedFifo s1 r.pid cb 0x10000 (fun j => q (8 + 8 * j)), fb := savedFifo s1 r.pid cb 0x50000 (fun j => q (32 + 8 * j)) }
      | _ => c2
    else c2
  s1.setCore { c3 with frUsed := c3.frUsed + kp.frq.length }

/-- A saved record put back on a core (R315, R316, R328): none when its save slot cannot be read. -/
def resumeRec (s : State) (c : Cand) (k : Nat) : State × Bool :=
  let old := c.r
  let slot := old.save.getD 0
  let now := s.gn.t64.toNat
  let r0 := { old with region := c.g, core := k, startT := now, save := none, held := [], kept := []
                       gangIn := old.gang == 0 || s.gangs.any (fun g => g.id == old.gang && g.pid == old.pid && g.isIn) }
  let go := mayBegin r0 now
  let r := { r0 with stat := if go then .running else .placed, begun := r0.begun || go, startNo := if r0.begun then r0.startNo else nextStart s
                     late := r0.late || (go && !r0.begun && r0.timed && decide (r0.launch < now)) }
  let live := (List.range r.k).filter (fun p => !(r.exits.any (fun e => e.1 == p)))
  let (s1, ts, ok) := live.foldl (fun (a : State × List Shuttle × Bool) p =>
    let (s', t) := savedShuttle a.1 old r slot p (s.core k).cycle go
    match t with
    | some t => (s', a.2.1 ++ [t], a.2.2)
    | none => (s', a.2.1, false)) (s, [], true)
  if !ok then (s1, false)
  else
    let gone := r.exits.map (fun e => { firstShuttle r e.1 0 go with status := .halted e.2 })
    let s2 := giveCore (s1.setRec r) k r (ts ++ gone)
    let s3 := live.foldl (fun s p => putBack s old r slot p) s2
    let s4 := old.held.foldl (fun s h => match s.place? r.id h.1 with
      | some f => applyHeld s f h.2
      | none => s) s3
    (deliverHeld (live.foldl (fun s p => settleFolds s r.id p) s4) r, true)

/-- RECORD_RESUME, R316: a saved record whose handle no longer passes is killed; else it resumes when it is next in order. -/
def execRecordResume (id : Nat) (s : State) : Out3 :=
  let s0 := (meetTenants s).1
  let (s1, cs, bad) := readCands s0 (waitingRecs s0)
  if bad.any (fun b => b.1.id == id && b.1.stat == .saved) then .next (endRec s1 id 4)
  else
    match nextCand s1 cs with
    | none => .next s1
    | some (c, k) =>
      if c.r.id = id ∧ c.resumes then
        match resumeRec s1 c k with
        | (s2, true) => .next s2
        | (s2, false) => .next (endRec s2 id 4)
      else .next s1

/-! ## Launch and kill -/

/-- The waiting shuttles of a placed record begin (R313, R319): late when its launch time lies before this tick (R301). -/
def launchRec (s : State) (id : Nat) : State :=
  match s.rec? id with
  | none => s
  | some r =>
    let now := s.gn.t64.toNat
    if r.stat = .placed ∧ mayBegin r now then
      let s1 := (List.range r.k).foldl (fun s p =>
        match s.place? id p with
        | none => s
        | some f => if (s.shuttle f).status = .waiting then s.setShuttle f.core { s.shuttle f with status := .running } else s) s
      s1.setRec { r with stat := .running, begun := true, startT := now, startNo := if r.begun then r.startNo else nextStart s1
                         late := r.late || (!r.begun && r.timed && decide (r.launch < now)) }
    else s

/-- Every placed record whose launch time has come at this tick begins, on every die (R313, R359): not late, for no tick lay between its
launch time and this one, unless the time was stepped past it (R301). -/
def dueLaunch (s : State) (stepped : Bool) : State :=
  (s.recs.filter (fun r => r.stat == .placed && r.timed && mayBegin r s.gn.t64.toNat)).foldl (fun s r =>
    let s1 := launchRec s r.id
    match s1.rec? r.id with
    | some q => if stepped then s1 else s1.setRec { q with late := r.late }
    | none => s1) s

/-- TIMED_LAUNCH, R313. -/
def execTimedLaunch (id : Nat) (s : State) : Out3 := .next (launchRec s id)

/-- KILL, R317: a record, a waiting one too, ends without a save, with status 4. One already ending completes once its
accesses have performed. -/
def execKill (id : Nat) (s : State) : Out3 :=
  match s.rec? id with
  | none => .next s
  | some r =>
    match r.stat with
    | .ending st => if recBusy s id then .next s else .next (completeRec s r st)
    | _ => .next (endRec s id 4)

end Sys2Proof.Machine
end

