-- ==== Sys2Proof/Machine/Fabric.lean ====
section
/-! DEFINITION. What arrives over the ports (R344 to R347, R353): transport writes, reads and atomics, the fabric write queues
(R272, R293, R294), and ports going down. -/

namespace Sys2Proof.Machine

/-- Whether a partition serves transport accesses: firmware runs (log entry 79) and it is active (R347, R367). -/
def serves (s : State) (pid : Nat) : Bool := s.bootStep == 6 && ((s.part? pid).map (fun p => p.state)).getD 0 == 1

/-- A transport response sent (R347). -/
def reply (s : State) (conn cause detail : Nat) (data : List Byte) : State := { s with out := s.out ++ [.net conn cause detail data] }

/-- Line parts of a transport access checked one after another (R347): their memory addresses with their lengths, the fault, or a wait.
It reaches translated memory only (R346). -/
def netSpan (pid : Nat) (acc : Acc) (ecc : Bool) : Nat → State → Nat → Nat → State × Except (Option (Nat × Nat)) (List (Nat × Nat))
  | 0, s, _, _ => (s, .ok [])
  | fuel + 1, s, va, n =>
    if n = 0 then (s, .ok [])
    else if windowOf va ≠ .xlat then (s, .error (some (cPERM, 3)))
    else
      let m := Nat.min n (64 - va % 64)
      match check s { pid := pid, core := 512, lo := 0, len := 0 } va 1 acc true false with
      | (s1, .bad c d _) => (s1, .error (some (c, d)))
      | (s1, .hold) => (s1, .error none)
      | (s1, .ok l) =>
        if acc == .write && l.frm && m != 64 then (s1, .error (some (cPERM, 5)))
        else if ecc && poisonHit s1 l.key m then (s1, .error (some (cECC, s1.eccDetail l.key m)))
        else
          match netSpan pid acc ecc fuel s1 (va + m) (n - m) with
          | (s2, .ok r) => (s2, .ok ((l.key, m) :: r))
          | r => r

/-- A transport access to some bytes would wait for a die under repair (R377). -/
def netHeld (s : State) (pid va n : Nat) : Bool :=
  s.dies.any (fun d => d.2.repair == 1) && (match netSpan pid .read false (n / 64 + 2) s va n with
    | (_, .error none) => true
    | _ => false)

/-- The die whose fabric write queue an arriving write enters (R272): the one that holds its bank, or for main memory that of the port. -/
def arrivalDie (n : NetAcc) (key : Nat) : Nat := fabDie key n.port

/-- The longest message (R344). A longer one is no part of the transport the module supports: it is dropped at its port. -/
def maxMsg : Nat := 2 ^ 24

/-- A packet dropped at a port, and counted in the port's telemetry (R344). -/
def dropAt (s : State) (port : Nat) : State := if 48 ≤ port then s else { s with drops := aput s.drops port (aget 0 s.drops port + 1) }

/-- The bytes of a message cut over its line parts, from a byte of the message on. -/
def cutParts : List (Nat × Nat) → List Byte → List (Nat × List Byte)
  | [], _ => []
  | (k, m) :: r, bs => (k, bs.take m) :: cutParts r (bs.drop m)

/-- Where each part of a message begins in it. -/
def partStarts : Nat → List (Nat × List Byte) → List Nat
  | _, [] => []
  | o, p :: r => o :: partStarts (o + p.2.length) r

/-- The check of a put's barrier at the module that holds it (R131, R229): reserved bits, generation, and a grant to a region of the
partition the put is for. -/
def netBarOk (s : State) (pid : Nat) (w : Word) : Bool :=
  bitsAt w.toNat 17 3 == 0 && bitsAt w.toNat 20 12 == (s.bar w).gen.toNat && ((s.bar w).granted.map Prod.fst) == some pid

/-- A message's writes entered into the fabric write queues, one entry a line part (R293). -/
def enterWrites (s : State) (n : NetAcc) (parts : List (Nat × List Byte)) (bar : Option (Word × Nat)) : State :=
  let (msg, s1) := s.fresh
  (parts.zip (partStarts 0 parts)).foldl (fun s q =>
    let p := q.1
    pushFab s (arrivalDie n p.1)
      { line := p.1 / 64 * 64, addr := p.1, op := .bytes p.2, conn := n.conn, rod := n.ordered, pid := n.pid, tag := none, msg := msg
        bar := bar, poison := badIn n.bad q.2 p.2.length }) s1

/-- A write to the boot buffer by offset, before firmware runs (R378, R379): plain, at once. The connection that writes the go word is
noted. -/
def bootWrite (s : State) (conn off : Nat) (data : List Byte) : State :=
  { s with mem := s.mem.writeN (0x027FF0000000 + off) data, goConn := if off < 24 ∧ 16 < off + data.length then some conn else s.goConn }

/-- What the management endpoint answers in step 3 of a reset to all but a write to the boot buffer (R348, R378): status 2. What it answers
to is no request of 64 bytes, so the answer's other fields are zero. DESIGN CHOICE (log entry 121). -/
def bootRefuse (s : State) (conn : Nat) : State := { s with out := s.out ++ [.answer conn (BitVec.ofNat 64 (2 * 2 ^ 40) :: List.replicate 7 0)] }

/-- Parts of a write that lie in the boot buffer: once firmware runs no transport write reaches it (R379). The refusal is the model's: PERM,
detail 5. DESIGN CHOICE (log entry 107). -/
def inBoot (parts : List (Nat × Nat)) : Bool := parts.any (fun p => decide (0x027FF0000000 ≤ p.1 ∧ p.1 < 0x028000000000))

/-- TRANSPORT_WRITE, R347, R353: refused with its cause and detail, or entered whole; a fold unit is decoded first and written as its
slot. A message for a die under repair waits (R377). -/
def execTransportWrite (n : NetAcc) (data : List Byte) (bar : Option (Word × Bool)) (unit : Option Nat) (s : State) : Out3 :=
  if maxMsg < data.length then .next (dropAt s n.port)
  else if n.pid = 0xFF then (if s.bootStep < 5 then .next (if n.va.toNat + data.length ≤ 2 ^ 28 then bootWrite s n.conn n.va.toNat data else bootRefuse s n.conn) else .next (reply s n.conn cPERM 16 []))
  else if !serves s n.pid then .next (reply s n.conn cPERM 16 [])
  else
  let s := notePorts s n.pid [n.port]
  if bar.any (fun b => b.2 && (s.die (barDie b.1)).repair == 1) then .next s
  else if bar.any (fun b => b.2 && !netBarOk s n.pid b.1) then .next (reply s n.conn cHANDLE 1 [])
  else
    let body : State × Except (Nat × Nat) (Nat × List Byte × Nat) :=
      match unit with
      | none => (s, .ok (n.va.toNat, data, data.length))
      | some u =>
        match slotStep n.pid .write (u + 1) s n.va.toNat u with
        | (s1, .error (c, d, _, _)) => (s1, .error (c, d))
        | (s1, .ok a) =>
          match foldDecode data with
          | none => (s1, .error (cINTEG, 5))
          | some (_, k) => if k = data.length then (s1, .ok (a, padTo foldSlot data, 4096)) else (s1, .error (cINTEG, 5))
    match body with
    | (s1, .error (c, d)) => .next (reply s1 n.conn c d [])
    | (s1, .ok (va, bs, count)) =>
      match netSpan n.pid .write false (bs.length / 64 + 2) s1 va bs.length with
      | (s2, .error none) => .next s2
      | (s2, .error (some (c, d))) => .next (reply s2 n.conn c d [])
      | (s2, .ok []) => .next (reply s2 n.conn 0 0 [])
      | (s2, .ok parts) =>
        if inBoot parts then .next (reply s2 n.conn cPERM 5 []) else .next (enterWrites s2 n (cutParts parts bs) (bar.map (fun b => (b.1, count))))

/-- The encoded units of consecutive slots from a slot address (R353). -/
def readUnits (pid va : Nat) : Nat → Nat → State → State × Except (Option (Nat × Nat)) (List Byte)
  | 0, _, s => (s, .ok [])
  | n + 1, u, s =>
    match slotStep pid .read (u + 1) s va u with
    | (s1, .error (c, d, _, _)) => (s1, .error (some (c, d)))
    | (s1, .ok a) =>
      match netSpan pid .read true 70 s1 a foldSlot with
      | (s2, .error e) => (s2, .error e)
      | (s2, .ok parts) =>
        let bs := parts.flatMap (fun p => s2.mem.readN p.1 p.2)
        let len := match foldDecode bs with
          | some (_, k) => k
          | none => 4112
        match readUnits pid va n (u + 1) s2 with
        | (s3, .ok r) => (s3, .ok (bs.take len ++ r))
        | r => r

/-- TRANSPORT_READ, R347, R294: the bytes as they stand at the array, or of a folded get the units' encoded bytes. -/
def execTransportRead (n : NetAcc) (len : Nat) (unit : Option Nat) (s : State) : Out3 :=
  if maxMsg < len then .next (dropAt s n.port)
  else if n.pid = 0xFF ∧ s.bootStep < 5 then .next (bootRefuse s n.conn)
  else if !serves s n.pid then .next (reply s n.conn cPERM 16 [])
  else
    let s := notePorts s n.pid [n.port]
    let got : State × Except (Option (Nat × Nat)) (List Byte) :=
      match unit with
      | some u => readUnits n.pid n.va.toNat (len / 4096) u s
      | none =>
        match netSpan n.pid .read true (len / 64 + 2) s n.va.toNat len with
        | (s1, .ok parts) => (s1, .ok (parts.flatMap (fun p => s1.mem.readN p.1 p.2)))
        | (s1, .error e) => (s1, .error e)
    match got with
    | (s1, .error none) => .next s1
    | (s1, .error (some (c, d))) => .next (reply s1 n.conn c d [])
    | (s1, .ok bs) => .next (reply s1 n.conn 0 0 bs)

/-- TRANSPORT_ATOMIC, R344, R347: on naturally aligned 4 or 8 bytes; one entry of the die's queue, answered when it performs. -/
def execTransportAtomic (n : NetAcc) (k : NetAtom) (size : Nat) (v c : Word) (s : State) : Out3 :=
  if n.pid = 0xFF ∧ s.bootStep < 5 then .next (bootRefuse s n.conn)
  else if !serves s n.pid then .next (reply s n.conn cPERM 16 [])
  else
  let s := notePorts s n.pid [n.port]
  if (size ≠ 4 ∧ size ≠ 8) ∨ n.va.toNat % size ≠ 0 then .next (reply s n.conn cALIGN 3 [])
  else
    match netSpan n.pid .write true 2 s n.va.toNat size with
    | (s1, .error none) => .next s1
    | (s1, .error (some (e, d))) => .next (reply s1 n.conn e d [])
    | (s1, .ok parts) =>
      let key := (parts.headD (0, 0)).1
      let (msg, s2) := s1.fresh
      if inBoot parts then .next (reply s1 n.conn cPERM 5 []) else
      .next (pushFab s2 (arrivalDie n key)
        { line := key / 64 * 64, addr := key, op := .atom k size v c, conn := n.conn, rod := n.ordered, pid := n.pid, tag := none
          msg := msg, bar := none, poison := false })

/-- Whether an entry of a die's queue must wait for others (R294): a write for those its reliable ordered connection delivered before it
to the die, an atomic for those on any die. -/
def fabBlocked (s : State) (die k : Nat) (e : FabEnt) : Bool :=
  e.rod && (((s.die die).fabq.take k).any (fun f => f.rod && f.conn == e.conn) ||
    (match e.op with
      | .atom _ _ _ _ => s.dies.any (fun d => d.2.fabq.any (fun f => f.rod && f.conn == e.conn && decide (f.msg < e.msg)))
      | .bytes _ => false))

/-- The word after a transport atomic (R344). -/
def netAtomOp (k : NetAtom) (old v c bits : Nat) : Nat :=
  match k with
  | .fetchAdd => (old + v) % 2 ^ bits
  | .swap => v % 2 ^ bits
  | .cas => if old = c % 2 ^ bits then v % 2 ^ bits else old

/-- An entry performed at its array (R273, R293), its poison settled (R334). -/
def fabApply (s : State) (e : FabEnt) : State :=
  match e.op with
  | .bytes d =>
    let whole := d.length == 64
    let s0 := if whole then s else match (e.tag.bind (fun q => s.cmd? q.1 q.2.1)).map (fun c => (c.recId, c.pos)) <|> e.left with
      | some q => meetLatent s q.1 q.2 e.line 64
      | none => meetPart s e.pid e.line 64
    ({ s0 with mem := s0.mem.writeN e.addr d } : State).linePoison e.line whole e.poison
  | .atom k size v c =>
    let s := meetPart s e.pid e.line 64
    let old := s.mem.readLe e.addr size
    reply { s with mem := s.mem.writeLe e.addr size (netAtomOp k old v.toNat c.toNat (8 * size)) } e.conn 0 0 (leBytes size old)

/-- A line of a unit of a folded get has performed: the last of its 65 counts 4,096 bytes down on the command's barrier (R353). -/
def unitLine (s : State) (e : FabEnt) : State :=
  match e.tag, e.unit with
  | some (core, slot, _), some u =>
    match s.cmd? core slot with
    | some c =>
      let k := aget 0 c.lines u + 1
      let s1 := s.setCmd core slot { c with lines := aput c.lines u k }
      if k = 65 then (match c.bar with | some w => barCount s1 w 4096 | none => s1) else s1
    | none => s
  | _, _ => s

/-- What follows an entry: the last of a message's writes counts down its barrier (R133, R229) and is acknowledged (R352). -/
def fabDone (s : State) (e : FabEnt) : State :=
  match e.op with
  | .atom _ _ _ _ => s
  | .bytes _ =>
    if e.tag.isSome || e.left.isSome then unitLine s e
    else if s.dies.any (fun d => d.2.fabq.any (fun f => f.msg == e.msg)) then s
    else
      let s1 := match e.bar with
        | some (w, n) => barCount s w n
        | none => s
      reply s1 e.conn 0 0 []

/-- The barrier an entry counts down once it performs lies in a die under repair (R377). -/
def fabBarHeld (s : State) (e : FabEnt) : Bool :=
  let held (w : Word) : Bool := (s.die (barDie w)).repair == 1
  e.bar.any (fun b => held b.1) || (e.unit.isSome && match e.tag.bind (fun q => s.cmd? q.1 q.2.1) with
    | some c => c.bar.any held
    | none => false)

/-- FABRIC_WRITE_PERFORM, R272, R294: an entry of a die's queue that nothing holds back performs, for 64 bytes of the queue's budget. An
entry for a die under repair waits (R377). -/
def execFabricWritePerform (die k : Nat) (s : State) : Out3 :=
  let d := s.die die
  match d.fabq[k]? with
  | none => .next s
  | some e =>
    if d.fabBud < 64 || fabBlocked s die k e || fabBarHeld s e || (isDS e.line && (s.die (e.line / 2 ^ 32)).repair == 1) then .next s
    else
      let s1 := s.setDie die { d with fabq := d.fabq.eraseIdx k, fabBud := d.fabBud - 64 }
      .next (fabDone (fabApply s1 e) e)

/-- PORT_DOWN, R345: the port carries nothing more; no other effect. -/
def execPortDown (port : Nat) (s : State) : Out3 :=
  .next (if 48 ≤ port || s.portsDown.contains port then s else { s with portsDown := port :: s.portsDown })

/-- UNSUPPORTED_PACKET, R344: dropped, and counted in the port's telemetry. -/
def execUnsupportedPacket (port : Nat) (s : State) : Out3 :=
  .next (dropAt s port)

end Sys2Proof.Machine
end

