-- ==== Sys2Proof/Machine/Time.lean ====
section
/-! DEFINITION. The gnomon and the timer (R240, R241). -/

namespace Sys2Proof.Machine

/-- Quarters of a nanosecond that 48-bit seconds, 32-bit nanoseconds below 10^9 and 2 further bits can hold (R240). -/
def timeLimit : Nat := 2 ^ 48 * 4000000000

/-- The time kept, in quarters of a nanosecond, and as its three fields (R240). -/
def Gnomon.kept (g : Gnomon) : Nat := g.wraps * 2 ^ 64 + g.t64.toNat
def Gnomon.seconds (g : Gnomon) : Nat := g.kept / 4000000000
def Gnomon.nanos (g : Gnomon) : Nat := g.kept % 4000000000 / 4
def Gnomon.quarter (g : Gnomon) : Nat := g.kept % 4

/-- The gnomon at a time. -/
def Gnomon.setKept (g : Gnomon) (n : Nat) : Gnomon :=
  { g with t64 := BitVec.ofNat 64 (n % timeLimit), wraps := n % timeLimit / 2 ^ 64 }

/-- The holdover that remains, in µs: 1,000,000 at its start, less 1 for each 4,000 of T64 since (R240, R357). -/
def Gnomon.holdLeft (g : Gnomon) : Nat :=
  if g.lock = 1 then 1000000 - (g.t64 - g.holdFrom).toNat / 4000 else 0

/-- `tnow`, R240. -/
def execTnow (h : Hd) (d : Fin 64) (s : State) : Out3 := aInstr h (xs [d]) s (fun s => writeA s d s.gn.t64)

/-- `tnow.st`, R240. -/
def execTnowSt (h : Hd) (d : Fin 64) (s : State) : Out3 :=
  aInstr h (xs [d]) s (fun s => writeA s d (BitVec.ofNat 64 (s.gn.holdLeft % 2 ^ 32 * 2 ^ 32 + s.gn.lock % 4)))

/-- A timer armed for a deadline; one already past fires at once (R241). -/
def Shuttle.arm (t : Shuttle) (now dl : Word) : Shuttle :=
  if dl.toNat ≤ now.toNat then { t with timer := dl, armed := false, events := t.events ||| 1 }
  else { t with timer := dl, armed := true }

/-- `tarm`, R241. -/
def execTarm (h : Hd) (d a : Fin 64) (s : State) : Out3 :=
  aInstr h (xs [d, a]) s (fun s =>
    if 2 ≤ s.gn.lock then writeA s d 2
    else writeA { s with sh := s.sh.arm s.gn.t64 (s.sh.xget a) } d 0)

/-- `tarm.clr`, R241. -/
def execTarmClr (h : Hd) (d : Fin 64) (s : State) : Out3 :=
  aInstr h (xs [d]) s (fun s => writeA { s with sh := { s.sh with armed := false } } d 0)

/-- A timer fires once T64 reaches its deadline (R241). -/
def Shuttle.fire (t : Shuttle) (now : Word) : Shuttle :=
  if (t.status = .running ∨ t.status = .waiting) ∧ t.armed ∧ t.timer.toNat ≤ now.toNat then { t with armed := false, events := t.events ||| 1 }
  else t
def Core.fire (c : Core) (now : Word) : Core := { c with shs := c.shs.map (fun e => (e.1, e.2.fire now)) }

/-- Every timer whose deadline T64 has reached fires (R241, R358). -/
def fireTimers (s : State) : State :=
  let now := s.gn.t64
  { s with sh := s.sh.fire now, co := s.co.fire now, cores := s.cores.map (fun c => (c.1, c.2.fire now)) }

/-- TIMER_FIRE, R241: an armed timer whose deadline has come sets event bit 0 once. -/
def execTimerFire (s : State) : Out3 :=
  let t := s.sh
  if t.status = .running ∧ t.armed ∧ t.timer.toNat ≤ s.gn.t64.toNat then
    .next { s with sh := { t with armed := false, events := t.events ||| 1 } }
  else .next s

end Sys2Proof.Machine
end

