-- ==== Sys2Proof/Machine/Mgmt.lean ====
section
/-! DEFINITION. The management profile (R348 to R350, R366): requests, what they change, and their answers. -/

namespace Sys2Proof

/-- A request's argument word, from word 1 on. -/
def MgmtReq.arg (m : MgmtReq) (k : Nat) : Nat := ((m.args.getD (k - 1) 0 : Word)).toNat

/-- Words after the n-th are zero, as R349 says of words not listed. It gives no answer where one is not: the request is malformed, status 1.
DESIGN CHOICE (log entry 125). -/
def MgmtReq.short (m : MgmtReq) (n : Nat) : Bool := (m.args.drop n).all (fun w => w == 0)

end Sys2Proof

namespace Sys2Proof.Machine

/-- The scope of a session: module scope counts as bound to every partition (R366). -/
def moduleScope : Nat := 256

/-- The words of an answer (R348). -/
def answerWords (op : Nat) (m : MgmtReq) (status : Nat) (ws : List Word) : List Word :=
  BitVec.ofNat 64 (op * 2 ^ 56 + m.part % 256 * 2 ^ 48 + status * 2 ^ 40 + m.id % 2 ^ 32) ::
    (List.range 7).map (fun k => ws.getD k 0)

/-- A request answered with a status and result words from word 1 on. -/
def answer (s : State) (op : Nat) (m : MgmtReq) (status : Nat) (ws : List Word) : Out3 :=
  .next { s with out := s.out ++ [.answer m.session (answerWords op m status ws)] }

/-- A session is bound to a scope. -/
def sessionHas (s : State) (id scope : Nat) : Bool := s.sessions.any (fun x => x.id == id && (x.scope == scope || x.scope == moduleScope))

/-- A module-scope request of n argument words (R348, R378). -/
def moduleReq (s : State) (op : Nat) (m : MgmtReq) (n : Nat) (k : State → Out3) : Out3 :=
  if s.bootStep < 6 || m.part != 0xFF || !(s.sessions.any (fun x => x.id == m.session && x.scope == moduleScope)) then answer s op m 2 []
  else if !m.short n then answer s op m 1 []
  else k s

/-- A partition-scope request of n argument words: its session is bound to the partition, which is not free. -/
def partReq (s : State) (op : Nat) (m : MgmtReq) (n : Nat) (k : State → Part → Out3) : Out3 :=
  if s.bootStep < 6 || !sessionHas s m.session m.part then answer s op m 2 []
  else if !m.short n then answer s op m 1 []
  else
    match s.part? m.part with
    | none => answer s op m 4 []
    | some p => k s p

/-! ## Features (R350) -/

/-- The set the device offers: bits 0 to 7. -/
def offeredSet : Nat := 0xFF

/-- FEATURE_OFFER, R350. -/
def execFeatureOffer (m : MgmtReq) (s : State) : Out3 :=
  moduleReq s 0x01 m 0 (fun s => answer { s with offered := true } 0x01 m 0 [BitVec.ofNat 64 offeredSet, 0, 0, 0])

/-- The set a feature.accept holds. -/
def acceptedSet (m : MgmtReq) : Nat := m.arg 1 + m.arg 2 * 2 ^ 64 + m.arg 3 * 2 ^ 128 + m.arg 4 * 2 ^ 192

/-- FEATURE_ACCEPT, R350. -/
def execFeatureAccept (m : MgmtReq) (s : State) : Out3 :=
  moduleReq s 0x02 m 4 (fun s =>
    let f := acceptedSet m
    if s.feature.isSome then answer s 0x02 m 4 []
    else if !s.offered || f % 2 == 0 || decide (offeredSet < f) then answer s 0x02 m 1 []
    else answer { s with feature := some f } 0x02 m 0 [])

/-! ## Queues (R298, R349) -/

/-- QUEUE_REG, R298, R349: the lowest free number; service begins at the header's head. A header in a die under repair is awaited (R377). -/
def execQueueReg (m : MgmtReq) (s : State) : Out3 :=
  partReq s 0x10 m 2 (fun s _ =>
    if 1024 ≤ s.queues.length then answer s 0x10 m 3 []
    else if devHeld s m.part (m.arg 1) 64 then .next s
    else
      let no := ((List.range 1024).find? (fun k => !(s.queues.any (fun q => q.no == k)))).getD 0
      let q : HQueue := { no := no, pid := m.part, hdr := m.arg 1, dies := m.arg 2 % 2 ^ 32, next := 0, done := [], head := 0, stop := 0 }
      let (s1, h) := readHeader s q
      let hd := (h.map (fun w => w.getD 1 0)).getD 0
      answer { s1 with queues := s1.queues ++ [{ q with next := hd, head := hd }] } 0x10 m 0 [BitVec.ofNat 64 no])

/-- QUEUE_DEREG, R349: busy while a record taken from the queue has not completed. -/
def execQueueDereg (m : MgmtReq) (s : State) : Out3 :=
  partReq s 0x11 m 1 (fun s _ =>
    if !(s.queues.any (fun q => q.no == m.arg 1 && q.pid == m.part)) then answer s 0x11 m 1 []
    else if s.recs.any (fun r => r.queue == m.arg 1) then answer s 0x11 m 3 []
    else answer { s with queues := s.queues.filter (fun q => q.no != m.arg 1) } 0x11 m 0 [])

/-! ## Peers, translation roots -/

/-- FABRIC_MAP, R349. -/
def execFabricMap (m : MgmtReq) (s : State) : Out3 :=
  moduleReq s 0x12 m 4 (fun s =>
    if m.arg 1 / 2 ^ 32 ≠ 0 then answer s 0x12 m 1 []
    else answer { s with fmap := aput s.fmap (m.arg 1) ((m.args.drop 1).take 3) } 0x12 m 0 [])

/-- XLAT_ROOT, R337, R341, R349: translations of the partition are removed before the answer, once the accesses admitted through them
have performed. -/
def execXlatRoot (m : MgmtReq) (s : State) : Out3 :=
  partReq s 0x20 m 1 (fun s p =>
    let root := m.arg 1
    if root % 65536 ≠ 0 ∨ !inRanges root (2 ^ tableBits 0) then answer s 0x20 m 1 []
    else if xlatsBusy s (fun t => t.pid == m.part) then .next s
    else answer ((dropXlats s (fun t => t.pid == m.part)).setPart m.part { p with root := some root }) 0x20 m 0 [])

/-! ## Barriers (R131, R304) -/

/-- Barrier slots of the module granted to regions under a table slot of a partition (R303). -/
def barsUnder (s : State) (pid slot : Nat) : Nat :=
  (allDies.map (fun d => ((s.die d).bars.filter (fun b =>
    match b.2.granted with
    | some (p, h) => p == pid && (match readRegion s p h with
        | (_, .ok g) => g.chain.any (fun q => q.1 == slot)
        | _ => h % 2 ^ 20 == slot)
    | none => false)).length)).sum

/-- A slot as a grant leaves it (R131): the next generation, count, arr and bytes zero, its phase kept. -/
def Bar.grant (b : Bar) (pid handle : Nat) : Bar :=
  { gen := b.gen + 1, phase := b.phase, count := 0, arr := 0, bytes := 0, granted := some (pid, handle) }

/-- BAR_GRANT, R304, R349. A slot or a region table in a die under repair is awaited (R377). -/
def execBarGrant (m : MgmtReq) (s : State) : Out3 :=
  partReq s 0x30 m 2 (fun s _ =>
    if m.arg 1 / 2 ^ 32 ≠ 0 then answer s 0x30 m 1 []
    else if (s.die (m.arg 2 % 32)).repair == 1 || tableHeld s m.part then .next s
    else
      match readRegion s m.part (m.arg 1) with
      | (s1, .error _) => answer s1 0x30 m 1 []
      | (s1, .ok g) =>
        let die := m.arg 2 % 32
        let d := s1.die die
        match (List.range 4096).find? (fun k => (d.bar k).granted.isNone) with
        | none => answer s1 0x30 m 3 []
        | some k =>
          if g.chain.all (fun q => decide (barsUnder s1 m.part q.1 < q.2.2.2)) then
            let b := (d.bar k).grant m.part (m.arg 1)
            answer (s1.setDie die (d.setBar k b)) 0x30 m 0 [BitVec.ofNat 64 (b.gen.toNat * 2 ^ 20 + die * 2 ^ 12 + k)]
          else answer s1 0x30 m 3 [])

/-- BAR_FREE, R349. A slot in a die under repair is awaited (R377). -/
def execBarFree (m : MgmtReq) (s : State) : Out3 :=
  partReq s 0x31 m 1 (fun s _ =>
    let w := BitVec.ofNat 64 (m.arg 1)
    if (s.die (barDie w)).repair == 1 then .next s
    else if netBarOk s m.part w then answer (s.setBar w { s.bar w with granted := none }) 0x31 m 0 []
    else answer s 0x31 m 1 [])

/-! ## Gangs (R349) -/

/-- 32-bit numbers read from a partition's memory. -/
def readNumbers (pid : Nat) : Nat → Nat → State → State × Option (List Nat)
  | 0, _, s => (s, some [])
  | n + 1, va, s =>
    match netSpan pid .read true 2 s va 4 with
    | (s1, .ok [(k, 4)]) =>
      match readNumbers pid n (va + 4) s1 with
      | (s2, some l) => (s2, some (s1.mem.readLe k 4 :: l))
      | r => r
    | (s1, _) => (s1, none)

/-- GANG_REG, R349: a gang registered again takes its new members. A list or a table in a die under repair is awaited (R377). -/
def execGangReg (m : MgmtReq) (s : State) : Out3 :=
  partReq s 0x40 m 5 (fun s _ =>
    let id := m.arg 1
    if id = 0 ∨ 2 ^ 32 ≤ id ∨ 2 ^ 32 ≤ m.arg 2 ∨ m.arg 4 = 0 ∨ 4096 < m.arg 4 ∨ 2 ^ 32 ≤ m.arg 5 ∨ m.arg 3 % 4 ≠ 0 then answer s 0x40 m 1 []
    else
      if tableHeld s m.part || netHeld s m.part (m.arg 3) (4 * m.arg 4) then .next s
      else
      match readRegion s m.part (m.arg 5) with
      | (s1, .error _) => answer s1 0x40 m 1 []
      | (s1, .ok _) =>
        match readNumbers m.part (m.arg 4) (m.arg 3) s1 with
        | (s2, none) => answer s2 0x40 m 1 []
        | (s2, some l) =>
          let was := s2.gangs.any (fun g => g.id == id && g.pid == m.part && g.isIn)
          let g : Gang := { id := id, pid := m.part, coord := m.arg 2, members := l, handle := m.arg 5, isIn := was }
          answer { s2 with gangs := s2.gangs.filter (fun h => h.id != id || h.pid != m.part) ++ [g] } 0x40 m 0 [])

/-- A switch as its coordinator follows it is armed or bound somewhere: its window has not passed, or it has been confirmed and its time
has not (R319). -/
def CoSwitch.live (c : CoSwitch) (now : Nat) : Bool := !c.go && (decide (now + 20000 < c.t) || (c.sentConfirm && decide (now < c.t)))

/-- The members of a switch: of its incoming and its outgoing gang, as this module has them registered, and the coordinator itself (R320). -/
def switchMembers (s : State) (inG outG : Nat) : List Nat :=
  ((s.gangs.filter (fun g => (g.id == inG && inG != 0) || (g.id == outG && outG != 0))).flatMap (fun g => g.members) ++ [s.modNo]).eraseDups

/-- A gang message as its 4 words (R318). -/
def GangMsg.words (g : GangMsg) (kind : Nat) : List Word :=
  [kind * 2 ^ 56 + g.reason % 256 * 2 ^ 48 + g.seq % 2 ^ 32, g.incoming % 2 ^ 32 * 2 ^ 32 + g.outgoing % 2 ^ 32, g.time, 0].map (BitVec.ofNat 64)

/-- The kind and the fields of a gang message from its 4 words, and the module that sent it (R318). -/
def gangOfWords (sender : Nat) (ws : List Word) : Nat × GangMsg :=
  let w (k : Nat) : Nat := (ws.getD k 0).toNat
  (bitsAt (w 0) 56 8,
    { seq := bitsAt (w 0) 0 32, incoming := bitsAt (w 1) 32 32, outgoing := bitsAt (w 1) 0 32, time := w 2, reason := bitsAt (w 0) 48 8,
      sender := sender, resv := bitsAt (w 0) 32 16 + w 3 })

/-- A gang message sent to some modules (R318). -/
def sendGang (s : State) (kind : Nat) (g : GangMsg) (dests : List Nat) : State :=
  { s with out := s.out ++ dests.map (fun d => .gang d kind { g with sender := s.modNo }) }

/-- GANG_REQ, R320, R321, R349: the coordinator numbers the switch and sends it, or go, to every member. -/
def execGangReq (m : MgmtReq) (s : State) : Out3 :=
  partReq s 0x41 m 2 (fun s _ =>
    let inG := m.arg 1 / 2 ^ 32
    let outG := m.arg 1 % 2 ^ 32
    let mine (g : Nat) : Bool := g == 0 || s.gangs.any (fun x => x.id == g && x.pid == m.part && x.coord == s.modNo)
    if (inG = 0 ∧ outG = 0) then answer s 0x41 m 1 []
    else if !mine inG || !mine outG then answer s 0x41 m 4 []
    else if s.coords.any (fun c => c.live s.gn.t64.toNat && ((inG != 0 && (c.inG == inG || c.outG == inG)) || (outG != 0 && (c.inG == outG || c.outG == outG)))) then
      answer s 0x41 m 3 []
    else
      let q := s.gangSeq + 1
      let t := m.arg 2
      let go := t == 0
      let c : CoSwitch := { seq := q, inG := inG, outG := outG, t := t, go := go, acks := [], bad := false, sentConfirm := false, switched := [], late := false }
      let g : GangMsg := { seq := q, incoming := inG, outgoing := outG, time := t, reason := 0, sender := s.modNo }
      answer (sendGang { s with gangSeq := q, coords := s.coords ++ [c] } (if go then 4 else 1) g (switchMembers s inG outG)) 0x41 m 0 [BitVec.ofNat 64 q])

/-! ## Telemetry (R336, R349, R357, R376) -/

/-- The time status of group 1 (R357). -/
def timeStatus (g : Gnomon) : List Word :=
  [BitVec.ofNat 64 (g.holdLeft % 2 ^ 32 * 2 ^ 32 + g.lock % 4), BitVec.ofInt 64 (g.offset / 4), BitVec.ofNat 64 (g.port % 64)]

/-- The values of group 2 (R349, R383): of the ports they are for, at a count. -/
def teleWords (c : Nat) (ports : List Nat) (drops : List (Nat × Nat)) : List Word :=
  (List.range 7).map (fun k => Config.telemetry c k ports (drops.filter (fun q => ports.contains q.1)))

/-- TELE_RD, R336, R349, R376: group 0 for module scope only, read over every die and cleared; group 2 holds what only the ports and
sensors know, for a partition that of the ports that carry its traffic, as it stood at least 1 ms before, rounded down. -/
def execTeleRd (m : MgmtReq) (s : State) : Out3 :=
  let modS := s.sessions.any (fun x => x.id == m.session && x.scope == moduleScope)
  if s.bootStep < 6 || !(if m.part = 0xFF then modS else sessionHas s m.session m.part) then answer s 0x50 m 2 []
  else if !m.short 1 then answer s 0x50 m 1 []
  else
    match m.arg 1 with
    | 0 =>
      if m.part ≠ 0xFF then answer s 0x50 m 2 []
      else
        let n (k : Nat) : Nat := (allDies.map (fun d => aget 0 (s.die d).errs k)).sum
        answer { s with dies := s.dies.map (fun d => (d.1, { d.2 with errs := [] })) } 0x50 m 0
          ((List.range 7).map (fun k => BitVec.ofNat 64 (Nat.min (n k) (2 ^ 32 - 1))))
    | 1 => answer s 0x50 m 0 (timeStatus s.gn)
    | 2 =>
      if m.part = 0xFF then
        let (c, s1) := s.fresh
        answer s1 0x50 m 0 (teleWords c (List.range 48) s.drops)
      else
        let ports := ((s.part? m.part).map (fun p => p.ports)).getD []
        answer s 0x50 m 0 ((teleWords s.snapTele.2.1 ports s.snapTele.2.2).map (fun v => BitVec.ofNat 64 (v.toNat / 1024 * 1024)))
    | _ => answer s 0x50 m 1 []

/-- A request of an opcode R349 does not list (R348, R349). -/
def otherRequest (op : Nat) (m : MgmtReq) (s : State) : Out3 :=
  let modS := s.sessions.any (fun x => x.id == m.session && x.scope == moduleScope)
  if s.bootStep < 6 || !(if m.part = 0xFF then modS else sessionHas s m.session m.part) then answer s op m 2 [] else answer s op m 1 []

/-! ## Sessions (R366) -/

/-- SESSION_BIND, R366: a connection binds to the active partition whose session source it comes from; one that matches none is closed. -/
def execSessionBind (session src4 src6 : Nat) (s : State) : Out3 :=
  let others := s.sessions.filter (fun x => x.id != session)
  match s.parts.find? (fun p => p.2.state == 1 && ((src4 != 0 && p.2.src4 == src4) || (src6 != 0 && p.2.src6 == src6))) with
  | some p => .next { s with sessions := others ++ [{ id := session, scope := p.1 }] }
  | none => .next { s with sessions := others }

end Sys2Proof.Machine
end

