-- ==== Sys2Proof/Machine/Gang.lean ====
section
/-! DEFINITION. Gangs (R318 to R321): the members' tokens, the coordinator, and the records a switch takes off the cores and puts
back; fault records that belong to no instruction (R332). -/

namespace Sys2Proof.Machine

/-! ## Records of source 4 (R332) -/

/-- A fault record of a gang or of the time. -/
def sourceRec (s : State) (cause detail gang handle : Nat) : FRec :=
  { cause := cause, source := 4, lost := 0, level := 0, detail := detail, addr := 0, va := 0, index := 0, pa := gang, t := s.gn.t64.toNat,
    die := 0, core := 0, pos := 0, handle := handle, seq := 0 }

/-- The resident record of a region that was taken first. -/
def residentOf (s : State) (pid slot : Nat) : Option Rec :=
  s.recs.find? (fun r => r.pid == pid && r.region.slot == slot && (r.stat == .placed || r.stat == .running) && holdsCore s r)

/-- A record given to a region's oldest resident record, or held for the region: at most 16, a further one replacing the oldest. -/
def giveRegion (s : State) (pid slot : Nat) (f : FRec) : State :=
  match residentOf s pid slot with
  | some r =>
    let c := s.core r.core
    pushFRec (s.setCore { c with frSeq := c.frSeq + 1 }) { core := r.core, pos := 0 }
      { f with seq := c.frSeq, die := dieOf r.core, core := r.core % 16, pos := 0 }
  | none =>
    let mine (e : Nat × Nat × FRec) : Bool := e.1 == pid && e.2.1 == slot
    let l := if 16 ≤ (s.heldRecs.filter mine).length then s.heldRecs.eraseIdx ((s.heldRecs.findIdx? mine).getD 0) else s.heldRecs
    { s with heldRecs := l ++ [(pid, slot, f)] }

/-- The regions that a CLOCK record goes to: those with a waiting or resident timed or gang record, once each (R332). -/
def clockRegions (s : State) : List (Nat × Nat × Nat) :=
  s.recs.foldl (fun l r =>
    if (r.timed || r.gang != 0) && (r.stat == .waiting || holdsCore s r) && !(l.any (fun e => e.1 == r.pid && e.2.1 % 2 ^ 20 == r.handle % 2 ^ 20))
    then l ++ [(r.pid, r.handle, r.gang)] else l) []

/-! ## Members (R319) -/

/-- The start of a token's window: 5 µs before its time. -/
def Token.w (t : Token) : Int := (t.t : Int) - 20000

/-- The token of a gang pair. -/
def State.token? (s : State) (inG outG : Nat) : Option Token := s.tokens.find? (fun t => t.inG == inG && t.outG == outG)

/-- A token by its place among the pairs that hold one. -/
def State.tokenAt? (s : State) (k : Nat) : Option Token := s.tokens[k]?

/-- A pair's token replaced, or removed: the pair is idle. -/
def State.setToken (s : State) (t : Token) : State :=
  { s with tokens := s.tokens.filter (fun u => u.inG != t.inG || u.outG != t.outG) ++ [t] }
def State.idleToken (s : State) (t : Token) : State :=
  { s with tokens := s.tokens.filter (fun u => u.inG != t.inG || u.outG != t.outG) }

/-- A message about a token to its coordinator. -/
def tellCoord (s : State) (kind reason : Nat) (t : Token) : State :=
  sendGang s kind { seq := t.seq, incoming := t.inG, outgoing := t.outG, time := t.t, reason := reason, sender := s.modNo } [t.coord]

/-- The token a message asks for. -/
def tokenOf (g : GangMsg) (st : TokSt) : Token :=
  { st := st, seq := g.seq, inG := g.incoming, outG := g.outgoing, t := g.time, coord := g.sender }

/-- A gang is registered here. -/
def gangKnown (s : State) (g : Nat) : Bool := g == 0 || s.gangs.any (fun x => x.id == g)

/-- A sequence number is above every one seen from its coordinator. -/
def newSeq (s : State) (g : GangMsg) : Bool := decide (aget 0 s.seen g.sender < g.seq)

/-- A gang message comes to the management endpoint, which in step 3 of a reset answers it with status 2 as any request (R378); the event
stands for a connection of its sender. -/
def gangEvent (g : GangMsg) (s : State) (k : State → Out3) : Out3 := if s.bootStep < 6 then .next (bootRefuse s g.sender) else k s

/-- A member refuses a message with a nonzero reserved field, and one of a gang not known here (R318); else it is acted on. -/
def gangMember (g : GangMsg) (st : TokSt) (s : State) (k : State → Out3) : Out3 :=
  gangEvent g s fun s =>
  if g.resv ≠ 0 then .next (tellCoord s 0x12 0 (tokenOf g st))
  else if !gangKnown s g.incoming || !gangKnown s g.outgoing then .next (tellCoord s 0x12 2 (tokenOf g st))
  else k s

/-- SWITCH, R319: armed with an ack, refused while the gnomon refuses, whatever its number, or ignored. -/
def execGangSwitch (g : GangMsg) (s : State) : Out3 :=
  gangMember g .armed s (fun s =>
    let tok := tokenOf g .armed
    let s1 := { s with seen := aput s.seen g.sender (Nat.max (aget 0 s.seen g.sender) g.seq) }
    match s.token? g.incoming g.outgoing with
    | none =>
      if 2 ≤ s.gn.lock then .next (tellCoord s1 0x12 1 tok)
      else if !newSeq s g then .next s
      else .next (tellCoord (s1.setToken tok) 0x11 0 tok)
    | some t => if t.st = .armed ∧ t.seq < g.seq then .next (tellCoord (s1.setToken tok) 0x11 0 tok) else .next s)

/-- CONFIRM, R319: an armed token with the held number becomes bound before its window. -/
def execConfirm (g : GangMsg) (s : State) : Out3 :=
  gangEvent g s fun s =>
  if g.resv ≠ 0 then .next (tellCoord s 0x12 0 (tokenOf g .armed))
  else
    match s.token? g.incoming g.outgoing with
    | none => .next s
    | some t =>
      if t.st = .armed ∧ t.seq = g.seq ∧ (s.gn.t64.toNat : Int) < t.w then .next (s.setToken { t with st := .bound }) else .next s

/-- The records of a gang that hold cores and are switched in are to be saved; one with no free save slot is killed (R314, R367). -/
def saveGang (s : State) (gang : Nat) (atOnce : Bool) : State :=
  if gang = 0 then s
  else
    let rs := s.recs.filter (fun r => r.gang == gang && r.gangIn && (r.stat == .placed || r.stat == .running))
    let s1 := rs.foldl (fun s r => match markPre s r.id atOnce with
      | (s', true) => s'
      | (s', false) => endRec s' r.id 4) s
    { s1 with gangs := s1.gangs.map (fun g => if g.id = gang then { g with isIn := false } else g) }

/-- A gang's records start, or may resume (R319). -/
def startGang (s : State) (gang : Nat) : State :=
  if gang = 0 then s
  else
    let s1 : State := { s with gangs := s.gangs.map (fun g => if g.id = gang then { g with isIn := true } else g),
                               recs := s.recs.map (fun r => if r.gang = gang ∧ r.stat = .placed then { r with gangIn := true } else r) }
    (s1.recs.filter (fun r : Rec => r.gang == gang && r.stat == .placed)).foldl (fun s r => launchRec s r.id) s1

/-- A switch begins here: switched is sent and the outgoing records are saved at once (R319). -/
def beginSwitch (s : State) (t : Token) : State :=
  saveGang (tellCoord (s.setToken { t with st := .switching }) 0x13 0 t) t.outG true

/-- GANG_STOP, R319, R320: an armed or bound token with the held number is dropped; while it switches it is ignored; a gang switched in is
taken off and held. -/
def execGangStop (g : GangMsg) (s : State) : Out3 :=
  gangEvent g s fun s =>
  if g.resv ≠ 0 then .next (tellCoord s 0x12 0 (tokenOf g .armed))
  else
  match s.token? g.incoming g.outgoing with
  | some t => if t.seq ≠ g.seq ∨ t.st = .switching then .next s else .next (s.idleToken t)
  | none => if s.gangs.any (fun x => x.id == g.incoming && x.isIn) then .next (saveGang s g.incoming false) else .next s

/-- GO, R321: a switch on receipt, whatever its number. -/
def execGangGo (g : GangMsg) (s : State) : Out3 :=
  gangMember g .switching s (fun s =>
    .next (beginSwitch { s with seen := aput s.seen g.sender (Nat.max (aget 0 s.seen g.sender) g.seq) } (tokenOf g .switching)))

/-- A message to a member of a kind that R318 does not list: refused. -/
def otherGang (g : GangMsg) (s : State) : State := tellCoord s 0x12 0 (tokenOf g .armed)

/-- A token whose window or whose time T64 has reached moves (R319): an armed one lapses, a bound one switches. -/
def lapseToken (s : State) (t : Token) : State :=
  if t.st = .armed ∧ t.w ≤ (s.gn.t64.toNat : Int) then tellCoord (s.idleToken t) 0x14 0 t else s
def switchToken (s : State) (t : Token) : State := if t.st = .bound ∧ t.t ≤ s.gn.t64.toNat then beginSwitch s t else s

/-- Every token moves as soon as T64 reaches its window or its time (R319). -/
def dueTokens (s : State) : State := s.tokens.foldl (fun s t => switchToken (lapseToken s t) t) s

/-- GANG_WINDOW_LAPSE, R319. -/
def execGangWindowLapse (k : Nat) (s : State) : Out3 :=
  .next (match s.tokenAt? k with
    | none => s
    | some t => lapseToken s t)

/-- GANG_SWITCH_TIME, R319. -/
def execGangSwitchTime (k : Nat) (s : State) : Out3 :=
  .next (match s.tokenAt? k with
    | none => s
    | some t => switchToken s t)

/-- SWITCHING_DONE, R319: no outgoing record holds a core any more. -/
def execSwitchingDone (k : Nat) (s : State) : Out3 :=
  match s.tokenAt? k with
  | none => .next s
  | some t =>
    if t.st = .switching ∧ (t.outG = 0 ∨ !(s.recs.any (fun r => r.gang == t.outG && r.gangIn && holdsCore s r))) then
      .next (startGang (s.idleToken t) t.inG)
    else .next s

/-! ## The coordinator (R320, R321) -/

/-- The switch a message answers, if this module coordinates it. -/
def State.coord? (s : State) (seq : Nat) : Option CoSwitch := s.coords.find? (fun c => c.seq == seq)
def State.setCoord (s : State) (c : CoSwitch) : State := { s with coords := s.coords.map (fun d => if d.seq = c.seq then c else d) }

/-- The message of a switch. -/
def CoSwitch.msg (c : CoSwitch) (me : Nat) : GangMsg :=
  { seq := c.seq, incoming := c.inG, outgoing := c.outG, time := c.t, reason := 0, sender := me }

/-- The coordinator takes a message whose reserved fields are zero, of a switch it coordinates. -/
def toCoord (g : GangMsg) (s : State) (k : CoSwitch → Out3) : Out3 :=
  gangEvent g s fun s =>
  match if g.resv = 0 then s.coord? g.seq else none with
  | none => .next s
  | some c => k c

/-- ACK, R320: the confirm goes out once every member has acked, none has refused, and the window has not begun. -/
def execGangAck (g : GangMsg) (s : State) : Out3 :=
  toCoord g s (fun c =>
    let c1 := { c with acks := joinL c.acks [g.sender] }
    let ms := switchMembers s c.inG c.outG
    if !c1.go && !c1.bad && !c1.sentConfirm && ms.all (fun m => c1.acks.contains m) && decide (s.gn.t64.toNat + 20000 < c1.t) then
      .next (sendGang (s.setCoord { c1 with sentConfirm := true }) 2 (c.msg s.modNo) ms)
    else .next (s.setCoord c1))

/-- REFUSE, R320: no confirm is sent. -/
def execGangRefuse (g : GangMsg) (s : State) : Out3 := toCoord g s (fun c => .next (s.setCoord { c with bad := true }))

/-- SWITCHED, R320. -/
def execGangSwitched (g : GangMsg) (s : State) : Out3 := toCoord g s (fun c => .next (s.setCoord { c with switched := joinL c.switched [g.sender] }))

/-- LAPSED, R318: the member's token is gone; no confirm is sent. -/
def execGangLapsed (g : GangMsg) (s : State) : Out3 := toCoord g s (fun c => .next (s.setCoord { c with bad := true }))

/-- The gang of a switch that a member belongs to, with its index in the gang's registration: the incoming one, else the outgoing one
(R320, R323). -/
def CoSwitch.memberOf (c : CoSwitch) (s : State) (m : Nat) : Option (Gang × Nat) :=
  [c.inG, c.outG].findSome? (fun id =>
    if id = 0 then none else (s.gangs.find? (fun g => g.id == id)).bind (fun g => (g.members.findIdx? (· == m)).map (fun k => (g, k))))

/-- 2 µs after the time of a confirmed switch each member whose switched has not come is recorded at its gang's coordinating region, and stop
for the incoming gang goes to every member (R320). -/
def straggle (s : State) (c : CoSwitch) : State :=
  let ms := switchMembers s c.inG c.outG
  let late := ms.filter (fun m => !c.switched.contains m)
  if c.go || !c.sentConfirm || c.late || late.isEmpty || decide (s.gn.t64.toNat < c.t + 8000) then s
  else
    let s1 := (late.filterMap (c.memberOf s)).foldl (fun s e =>
      giveRegion s e.1.pid (e.1.handle % 2 ^ 20) (sourceRec s cSTRAGGLER e.2 e.1.id e.1.handle)) s
    sendGang (s1.setCoord { c with late := true }) 3 (c.msg s.modNo) ms

/-- Every switch whose members T64 has left behind (R320). -/
def dueStragglers (s : State) : State := s.coords.foldl straggle s

/-- STRAGGLER_TIMEOUT, R320. -/
def execStragglerTimeout (seq : Nat) (s : State) : Out3 :=
  .next (match s.coord? seq with
    | none => s
    | some c => straggle s c)

end Sys2Proof.Machine
end

