-- ==== Sys2Proof/Machine/Ptp.lean ====
section
/-! DEFINITION. Time (R240, R356 to R358): the gnomon counting on and what falls due with it, offsets measured, and the loss of the
time transmitter. Offsets are in quarters of a nanosecond, as T64 counts. -/

namespace Sys2Proof.Machine

/-- The PTP domain number and the ports of the time sources set: the device follows the primary (R356). -/
def Gnomon.setPorts (g : Gnomon) (domain primary backup : Nat) : Gnomon :=
  { g with domain := domain % 256, port := primary % 48, primary := primary % 48, backup := backup % 48, back := 0, annP := false, annB := false }

/-- What falls due at the instants T64 has reached: refills of write budgets, token refill and charge (R271, R309, R358). -/
def instants (s : State) : State := dueCharge (dueRefill (refillBudgets s))

/-- The shared counters, and what telemetry shows partitions, noted (R245, R376). -/
def Core.snap (c : Core) : Core := { c with snapWl := (c.wlBytes, c.snapWl.1), snapHed := (c.hedBytes, c.snapHed.1) }
def snapAll (s : State) : State :=
  let (n, s1) := s.fresh
  { s1 with co := s.co.snap, cores := s.cores.map (fun c => (c.1, c.2.snap)), snapTele := ((n, s.drops), s.snapTele.1),
            parts := s.parts.map (fun p => (p.1, { p.2 with snapFab := (p.2.fabBytes, p.2.snapFab.1) })) }

/-- An offset in millionths of a quarter of a nanosecond, as a slew takes it up. -/
def slewOf (o : Int) : Int := -o * 1000000

/-- What the gnomon slews in some quarters of a nanosecond: at most 200 ppm of them (R357), in millionths. -/
def slewed (slew : Int) (dt : Nat) : Int := Max.max (-(200 * dt)) (Min.min slew (200 * dt))

/-- The multiples counted so far, as T64 stands (R358). -/
def Gnomon.countedAt (g : Gnomon) (t : Nat) : Gnomon := { g with lastUs := t / 4000, lastChg := t / 4000, lastTok := t / 400000 }

/-- The quarters to the next multiple of 4,000 that T64 reaches: 0 is one, to which T64 returns at 2^64 (R240, R271). -/
def Gnomon.room (g : Gnomon) : Nat :=
  let t := g.t64.toNat
  Nat.min ((t / 4000 + 1) * 4000 - t) (Nat.min (2 ^ 64 - t) (timeLimit - g.kept))

/-- The gnomon counted on by some quarters, slewing, to the next multiple of 4,000 at most. -/
def Gnomon.advance (g : Gnomon) (dt : Nat) : Gnomon :=
  let room := g.room
  let d := Nat.min dt room
  let total := g.frac + slewed g.slew d + (d : Int) * 1000000
  let adv := Nat.min (total / 1000000).toNat room
  { g.setKept (g.kept + adv) with
    slew := g.slew - slewed g.slew d, frac := total - (adv : Int) * 1000000, sinceSnap := g.sinceSnap + adv }

/-- What T64 has reached is done: refills and charges, timers, gang tokens, launches on every die in the one tick, members found missing
(R241, R313, R319, R320, R358, R359). `stepped`: the time was stepped there. -/
def reached (s : State) (stepped : Bool) : State := dueStragglers (dueLaunch (dueTokens (fireTimers (instants s))) stepped)

/-- The shared counters are noted once 1 ms has been counted since they last were (R245). -/
def dueSnap (s : State) : State :=
  if s.gn.sinceSnap < 4000000 then s else snapAll { s with gn := { s.gn with sinceSnap := 0 } }

/-- The gnomon counts on, to the next multiple of 4,000 at most; what is due there is done in the same step. -/
def passTime (s : State) (dt : Nat) : State := dueSnap (reached { s with gn := s.gn.advance dt } false)

/-- The time stepped by an offset (R358): forward over an instant applies one refill of each kind, backward none. -/
def stepTime (s : State) (o : Int) : State :=
  let n := (((s.gn.kept : Int) - o) % (timeLimit : Int)).toNat
  let g := { s.gn.setKept n with slew := 0, frac := 0 }
  reached { s with gn := (if s.gn.kept ≤ n then g else g.countedAt g.t64.toNat), lastArr := (s.lastArr.1, none) } true

/-- The lock state becomes 2 (R319, R332, R357): bound tokens are refused, and CLOCK records go out. -/
def loseLock (s : State) : State :=
  let s0 := { s with gn := { s.gn with lock := 2 } }
  let bound := s0.tokens.filter (fun t => t.st == .bound && decide (s0.gn.t64.toNat < t.t))
  let s1 := bound.foldl (fun s t => tellCoord (s.idleToken t) 0x12 1 t) s0
  (clockRegions s1).foldl (fun s e => giveRegion s e.1 (e.2.1 % 2 ^ 20) (sourceRec s cCLOCK 0 e.2.2 e.2.1)) s1

/-- An offset lies within ±50 ns; above 1 µs. -/
def near50 (o : Int) : Bool := decide (-200 ≤ o ∧ o ≤ 200)
def far1us (o : Int) : Bool := decide (o < -4000 ∨ 4000 < o)

/-- The primary port followed again after 16 sync intervals in lock while the backup was in use (R356). -/
def Gnomon.heard (g : Gnomon) (port : Nat) (o : Int) : Gnomon :=
  let g1 := { g with annP := g.annP && port != g.primary, annB := g.annB && port != g.backup }
  if port = g.primary ∧ g.port ≠ g.primary then
    let n := if near50 o then g1.back + 1 else 0
    if 16 ≤ n then { g1 with port := g.primary, back := 0 } else { g1 with back := n }
  else g1

/-- PTP_OFFSET, R357: an offset measured on a port; that of the port in use disciplines the gnomon, once firmware runs (R378). -/
def execPtpOffset (port : Nat) (o : Int) (s : State) : Out3 :=
  if s.bootStep < 6 then .next s
  else
    let s0 := { s with gn := s.gn.heard port o }
    if port ≠ s.gn.port then .next s0
    else
      let good := if near50 o then s0.gn.good + 1 else 0
      let g := { s0.gn with offset := o, good := good }
      let s1 := { s0 with gn := g }
      match g.lock with
      | 3 => .next (loseLock (stepTime s1 o))
      | 2 =>
        if far1us o then .next (stepTime s1 o)
        else if 8 ≤ good then .next { s1 with gn := { g with lock := 0 } }
        else .next s1
      | 1 =>
        if 8 ≤ good then .next { s1 with gn := { g with lock := 0, holdFrom := 0, slew := 0 } }
        else .next { s1 with gn := { g with slew := slewOf o } }
      | _ => .next { s1 with gn := { g with slew := if near50 o then 0 else slewOf o } }

/-- Holdover begins from lock state 0 (R357). The run of offsets near 0 is broken by what begins it. DESIGN CHOICE (log entry 108). -/
def enterHoldover (s : State) : State :=
  if s.gn.lock = 0 then { s with gn := { s.gn with lock := 1, holdFrom := s.gn.t64, good := 0 } } else s

/-- SYNC_TIMEOUT, R357: no valid Sync for 4 intervals. -/
def execSyncTimeout (s : State) : Out3 := .next (enterHoldover s)

/-- ANNOUNCE_TIMEOUT, R356, R357: the primary's moves the device to the backup, and breaks the run that leads back; both mean holdover. -/
def execAnnounceTimeout (port : Nat) (s : State) : Out3 :=
  let g := s.gn
  let g1 := { g with annP := g.annP || port == g.primary, annB := g.annB || port == g.backup }
  let g2 := if port = g.primary then { g1 with port := if g.port = g.primary then g.backup else g.port, back := 0 } else g1
  let s1 := { s with gn := g2 }
  .next (if g2.annP && g2.annB then enterHoldover s1 else s1)

/-- HOLDOVER_EXPIRY, R357: nothing of the holdover remains. -/
def execHoldoverExpiry (s : State) : Out3 :=
  .next (if s.gn.lock = 1 ∧ s.gn.holdLeft = 0 then loseLock s else s)

end Sys2Proof.Machine
end

