-- ==== Sys2Proof/Machine/Partition.lean ====
section
/-! DEFINITION. Partitions (R360 to R369, R374, R375, R401): the commands of partition control blocks, dirty harvest, measurement and
attestation. Firmware reads and writes the blocks in main memory, by physical address. -/

namespace Sys2Proof.Machine

/-! ## Partition control blocks (R360 to R363) -/

/-- The physical address of a block; slot 0 is the module control block. -/
def pcbAt (pid : Nat) : Nat := 0x027FC0000000 + 0x800 * pid

/-- A word of a block. -/
def pcb (s : State) (pid k : Nat) : Nat := s.mem.readLe (pcbAt pid + 8 * k) 8

/-- A word of a block written. -/
def setPcb (s : State) (pid k v : Nat) : State := { s with mem := s.mem.writeLe (pcbAt pid + 8 * k) 8 v }

/-- The last command of a partition that completed, as firmware keeps it: result and sequence. -/
def setLast (s : State) (pid result seq : Nat) : State :=
  match s.part? pid with
  | some p => s.setPart pid { p with last := (result, seq % 2 ^ 32) }
  | none => s

/-- Word 1: state, result and sequence in one write (R361, R363), as a command completes. -/
def pcbStatus (s : State) (pid state result seq : Nat) : State :=
  setLast (setPcb s pid 1 (state * 2 ^ 56 + result * 2 ^ 48 + seq % 2 ^ 32)) pid result seq

/-- A partition's state as a block gives it: 0 for one that is free. -/
def pcbState (s : State) (pid : Nat) : Nat := ((s.part? pid).map (fun p => p.state)).getD 0

/-- Word 1 with a new state, written whole: what software wrote there goes (R361). -/
def pcbState1 (s : State) (pid : Nat) : State :=
  match s.part? pid with
  | some p => setPcb s pid 1 (p.state * 2 ^ 56 + p.last.1 * 2 ^ 48 + p.last.2 % 2 ^ 32)
  | none => s

/-- A command completes (R363). -/
def pcbDone (s : State) (pid result seq : Nat) : State := pcbStatus s pid (pcbState s pid) result seq

/-- Firmware reads word 0 of a block (R363): a new sequence with a command starts it, unless one of the block is in progress; a command
not listed for the state, or no command of R361, completes with result 3. -/
def pcbCommand (s : State) (pid code : Nat) (from' : List Nat) (run : State → Nat → Out3) : Out3 :=
  let w := pcb s pid 0
  let cmd := bitsAt w 56 8
  let seq := w % 2 ^ 32
  let st := pcbState s pid
  if s.bootStep < 6 || pid = 0 || decide (254 < pid) || seq = pcb s pid 1 % 2 ^ 32 || st = 2 || st = 4 then .next s
  else if cmd = 0 ∨ 7 < cmd then .next (pcbDone s pid 3 seq)
  else if cmd ≠ code then .next s
  else if !from'.contains st then .next (pcbDone s pid 3 seq)
  else run s seq

/-! ## Create (R365, R401) -/

/-- What a die entry of a block asks for on a die (R362); its words. -/
def dieEntry (s : State) (pid d : Nat) : DieUse :=
  let w (k : Nat) := s.mem.readLe (pcbAt pid + 128 + 32 * d + 8 * k) 8
  let g (c : Nat) : Nat × Nat := let v := bitsAt (w (2 + c / 2)) (32 * (c % 2)) 32; (v / 65536, v % 65536)
  { die := d, cores := BitVec.ofNat 16 (bitsAt (w 0) 48 16), mask := BitVec.ofNat 48 (bitsAt (w 0) 0 48), key := 0, pbase := bitsAt (w 1) 32 16,
    pcap := bitsAt (w 1) 0 17, clus := [g 0, g 1, g 2, g 3] }

/-- A die entry's reserved bits are not zero. -/
def dieEntryBad (s : State) (pid d : Nat) : Bool :=
  let w := s.mem.readLe (pcbAt pid + 128 + 32 * d + 8) 8
  bitsAt w 54 10 != 0 || bitsAt w 17 15 != 0

/-- A block that create refuses as malformed (R361, R365). -/
def createBad (s : State) (pid : Nat) : Bool :=
  let w (k : Nat) := pcb s pid k
  let size := bitsAt (w 4) 16 11
  let base := bitsAt (w 4) 0 11
  bitsAt (w 0) 32 24 != 0 || bitsAt (w 2) 56 8 != 0 || bitsAt (w 3) 40 24 != 0 || bitsAt (w 3) 20 12 != 0 || bitsAt (w 4) 27 37 != 0 ||
  bitsAt (w 4) 11 5 != 0 || bitsAt (w 5) 56 8 != 0 || bitsAt (w 7) 32 32 != 0 || w 14 != 0 || w 15 != 0 ||
  allDies.any (dieEntryBad s pid) || bitsAt (w 3) 32 8 == pid || size == 0 || decide (1535 < base + size)

/-- Two ranges of units meet. -/
def meet (a n b m : Nat) : Bool := decide (a < b + m ∧ b < a + n ∧ n ≠ 0 ∧ m ≠ 0)

/-- Banks of a mask. -/
def bankCount (m : BitVec 48) : Nat := ((List.range 48).filter (fun k => m.getLsbD k)).length

/-- A bank-map entry that firmware refuses (R264, R266). -/
def bankBad (d : Die) (u : DieUse) : Bool :=
  d.banks.any (fun b => b.mask &&& u.mask != 0 || meet b.pbase b.pcap u.pbase u.pcap) || decide (65536 < u.pbase + u.pcap) || u.pcap == 0 ||
  decide (bankCount u.mask * 1398102 / 1024 < u.pcap)

/-- The key slot create takes on a die: the lowest that is empty and named by no valid bank-map entry (R401). -/
def freeKey (d : Die) : Option Nat := (List.range 64).find? (fun k => !d.keys.contains k && !(d.banks.any (fun b => b.key == k)))

/-- What a die entry asks for is held by another partition, or cannot be given (R365). -/
def useTaken (s : State) (u : DieUse) : Bool :=
  let d := s.die u.die
  s.parts.any (fun p => p.2.uses.any (fun v => v.die == u.die && (v.cores &&& u.cores != 0 ||
    (v.clus.zip u.clus).any (fun c => meet c.1.1 c.1.2 c.2.1 c.2.2)))) ||
  (u.mask != 0 && (bankBad d u || (freeKey d).isNone))

/-- A die entry made good: a key slot with fresh keys, the bank-map entry, and the slot's number in the block; under fresh keys the window's
contents are unpredictable (R275, R276, R365). -/
def takeUse (pid : Nat) (a : State × List DieUse) (u : DieUse) : State × List DieUse :=
  if u.mask = 0 then (a.1, a.2 ++ [u])
  else
    let s := a.1
    let d := s.die u.die
    let k := (freeKey d).getD 0
    let s1 := s.setDie u.die { d with keys := k :: d.keys, banks := d.banks ++ [{ key := k, pid := pid, pbase := u.pbase, pcap := u.pcap, mask := u.mask }] }
    let at' := pcbAt pid + 128 + 32 * u.die + 8
    let w := s1.mem.readLe at' 8
    let s2 := { s1 with mem := s1.mem.writeLe at' 8 (w - bitsAt w 48 6 * 2 ^ 48 + k * 2 ^ 48) }
    (havoc s2 [(u.die * 2 ^ 32 + u.pbase * 65536, u.die * 2 ^ 32 + (u.pbase + u.pcap) * 65536)], a.2 ++ [{ u with key := k }])

/-- The measurement register of a block written (R361). -/
def setMeas (s : State) (pid : Nat) (m : BitVec 256) : State :=
  (List.range 4).foldl (fun s k => setPcb s pid (10 + k) (bitsAt m.toNat (64 * k) 64)) s

/-- CREATE, R365. -/
def execCreate (pid : Nat) (s : State) : Out3 :=
  pcbCommand s pid 1 [0] (fun s seq =>
    if createBad s pid then .next (pcbDone s pid 1 seq)
    else
      let us := (allDies.map (dieEntry s pid)).filter (fun u => u.cores != 0 || u.mask != 0 || u.clus.any (fun c => c.2 != 0))
      let base := bitsAt (pcb s pid 4) 0 11
      let size := bitsAt (pcb s pid 4) 16 11
      if us.any (useTaken s) || s.parts.any (fun p => meet p.2.mmBase p.2.mmSize base size) then .next (pcbDone s pid 2 seq)
      else
        let (s1, uses) := us.foldl (takeUse pid) (s, [])
        let p : Part :=
          { state := 1, tblBase := bitsAt (pcb s pid 2) 0 56, tblSlots := bitsAt (pcb s pid 3) 0 20, sup := bitsAt (pcb s pid 3) 32 8,
            mmBase := base, mmSize := size, src4 := bitsAt (pcb s pid 7) 0 32, src6 := pcb s pid 8 + pcb s pid 9 * 2 ^ 64, uses := uses,
            root := none, meas := 0, fabBytes := 0, snapFab := (0, 0), seq := seq, last := (0, seq % 2 ^ 32) }
        .next (pcbDone (setMeas (s1.setPart pid p) pid 0) pid 0 seq))

/-! ## Harvest (R368) -/

/-- Leaves of a table from a level on, by increasing virtual address: the entry's address, the virtual page, the level. Malformed entries
lead nowhere. -/
def leavesFrom (m : Memory) : Nat → Nat → Nat → Nat → List (Nat × Nat × Nat)
  | 0, _, _, _ => []
  | fuel + 1, lv, base, va =>
    let n := if lv = 0 then 256 else if lv = 4 then 32 else 512
    let shift := if lv = 0 then 48 else if lv = 1 then 39 else if lv = 2 then 30 else if lv = 3 then 21 else 16
    (List.range n).flatMap (fun k =>
      let a := base + 8 * k
      let e := m.readLe a 8
      let v := va + k * 2 ^ shift
      if !bitAt e 63 || entryBad e lv then []
      else if bitAt e 62 then [(a, v, lv)]
      else leavesFrom m fuel (lv + 1) (bitsAt e 16 40 * 2 ^ 16) v)

/-- The dirty leaves of a partition. -/
def dirtyLeaves (s : State) (pid : Nat) : List (Nat × Nat × Nat) :=
  match (s.part? pid).bind (fun p => p.root) with
  | none => []
  | some root => (leavesFrom s.mem 5 0 root 0).filter (fun l => bitAt (s.mem.readLe l.1 8) 1)

/-- A report entry: the page's address and its size code. -/
def reportEntry (l : Nat × Nat × Nat) : Nat := l.2.1 / 65536 * 65536 + (4 - l.2.2)

/-- The pieces of memory of a range in partition 0's space, or in a partition's own, for the firmware's accesses. -/
def fwSpan (s : State) (pid va n : Nat) (acc : Acc) : State × Option (List (Nat × Nat)) :=
  match netSpan pid acc (acc == .read) (n / 64 + 2) s va n with
  | (s1, .ok l) => (s1, some l)
  | (s1, .error _) => (s1, none)

/-- Bytes written over pieces of lines for a partition: a write of part of a line meets an error there, one of all of it clears its poison
(R274, R334). -/
def writeParts (s : State) (pid : Nat) (ps : List (Nat × Nat)) (bs : List Byte) : State :=
  (cutParts ps bs).foldl (fun s p =>
    let whole := p.2.length == 64
    let line := p.1 / 64 * 64
    let s1 := if whole then s else meetPart s pid line 64
    ({ s1 with mem := s1.mem.writeN p.1 p.2 } : State).linePoison line whole false) s

/-- The bases of the tables that a harvest reads, from a level on. -/
def tableBases (m : Memory) : Nat → Nat → Nat → List Nat
  | 0, _, _ => []
  | fuel + 1, lv, base =>
    base :: (List.range (if lv = 0 then 256 else if lv = 4 then 32 else 512)).flatMap (fun k =>
      let e := m.readLe (base + 8 * k) 8
      if !bitAt e 63 || entryBad e lv || bitAt e 62 then [] else tableBases m fuel (lv + 1) (bitsAt e 16 40 * 2 ^ 16))

/-- A harvest would read or write in a die under repair: the partition's tables, or its report (R377). -/
def harvestHeld (s : State) (pid arg n : Nat) : Bool :=
  s.dies.any (fun d => d.2.repair == 1) && (netHeld s 0 arg n || (match (s.part? pid).bind (fun p => p.root) with
    | none => false
    | some root => (tableBases s.mem 5 0 root).any (fun b => isDS b && (s.die (b / 2 ^ 32)).repair == 1)))

/-- A harvest cannot read its tables: one lies in a fenced die (R377), or where no window of the partition with a loaded key reaches (R276). -/
def harvestBarred (s : State) (pid : Nat) : Bool :=
  match (s.part? pid).bind (fun p => p.root) with
  | none => false
  | some root => (tableBases s.mem 5 0 root).any (fun b => isDS b && ((s.die (b / 2 ^ 32)).repair == 2 || !physOwned s pid b))

/-- The dirty bit of a leaf cleared, at the array: an error of its line is met (R274). -/
def cleanLeaf (pid : Nat) (s : State) (e : Nat × Nat × Nat) : State :=
  let s1 := meetPart s pid (e.1 / 64 * 64) 64
  { s1 with mem := s1.mem.writeLe e.1 8 (s1.mem.readLe e.1 8 - 2 * bitsAt (s1.mem.readLe e.1 8) 1 1) }

/-- A harvest (R368): its result, the state after it; 1 where it cannot read its tables. DEDUCED (log entry 78). None while a write through a translation it must drop has yet to perform, or while it
waits for a die under repair. -/
def harvestRun (s : State) (pid : Nat) : Option (State × Nat) :=
  let sel (t : Xlat) : Bool := t.pid == pid && t.w
  let arg := bitsAt (pcb s pid 5) 0 56
  let cap := bitsAt (pcb s pid 6) 0 32
  let all := dirtyLeaves s pid
  let l := all.take cap
  if xlatsBusy s sel || harvestHeld s pid arg (8 * l.length) then none
  else if harvestBarred s pid then some (s, 1)
  else
    match fwSpan s 0 arg (8 * l.length) .write with
    | (s1, none) => some (s1, 1)
    | (s1, some ps) =>
      let s2 := l.foldl (cleanLeaf pid) s1
      let s3 := writeParts s2 0 ps (l.flatMap (fun e => leBytes 8 (reportEntry e)))
      let w6 := pcb s3 pid 6
      some (setPcb (dropXlats s3 sel) pid 6 (w6 % 2 ^ 32 + l.length * 2 ^ 32), if cap < all.length then 4 else 0)

/-- HARVEST, R368. -/
def execHarvest (pid : Nat) (s : State) : Out3 :=
  pcbCommand s pid 4 [1, 3] (fun s seq =>
    match harvestRun s pid with
    | none => .next s
    | some (s1, r) => .next (pcbDone s1 pid r seq))

/-! ## Stop, resume (R364, R367) -/

/-- A partition's sessions closed (R366). -/
def closeSessions (s : State) (pid : Nat) : State := { s with sessions := s.sessions.filter (fun x => x.scope != pid) }

/-- A partition's state changed. -/
def setPartState (s : State) (pid st : Nat) : State :=
  match s.part? pid with
  | some p => s.setPart pid { p with state := st }
  | none => s

/-- STOP, R367, steps 1 to 3. It waits for a queue header in a die under repair (R377). -/
def execStop (pid : Nat) (s : State) : Out3 :=
  pcbCommand s pid 2 [1] (fun s seq =>
    if s.queues.any (fun q => q.pid == pid && q.stop == 0 && devHeld s pid q.hdr 64) then .next s else
    let s1 := (s.queues.filter (fun q => q.pid == pid && q.stop == 0)).foldl (fun s q => stopQueue s q 4) s
    let s2 := match s1.part? pid with
      | some p => s1.setPart pid { p with state := 2, seq := seq }
      | none => s1
    let rs := s2.recs.filter (fun r => r.pid == pid && (r.stat == .placed || r.stat == .running))
    let s3 := rs.foldl (fun s r => match markPre s r.id false with
      | (s', true) => s'
      | (s', false) => endRec s' r.id 4) s2
    .next (closeSessions (pcbState1 s3 pid) pid))

/-- Nothing of a partition is under way (R367, step 4): no record on a core, no engine command, no write to its memory. -/
def partQuiet (s : State) (pid : Nat) : Bool :=
  match s.part? pid with
  | none => true
  | some p =>
    !(s.recs.any (fun r => r.pid == pid && (holdsCore s r || r.stat == .placed || r.stat == .running))) &&
    !(s.allCores.any (fun c => c.cmds.any (fun e => e.2.pid == pid && e.2.run))) &&
    !(s.dies.any (fun d => d.2.fabq.any (fun e => e.pid == pid))) &&
    p.uses.all (fun u => ((List.range 16).filter (fun k => u.cores.getLsbD k)).all (fun k => (s.core (16 * u.die + k)).entries.isEmpty)) &&
    !(p.uses.any (fun u => pendingWrites s (u.die * 2 ^ 32 + u.pbase * 65536) (u.die * 2 ^ 32 + (u.pbase + u.pcap) * 65536))) &&
    !pendingWrites s (mmBase + p.mmBase * 2 ^ 30) (mmBase + (p.mmBase + p.mmSize) * 2 ^ 30)

/-- STOP_DRAINED, R367, steps 4 to 6. -/
def execStopDrained (pid : Nat) (s : State) : Out3 :=
  match s.part? pid with
  | none => .next s
  | some p =>
    if s.bootStep < 6 || p.state ≠ 2 || !partQuiet s pid then .next s
    else
      match harvestRun s pid with
      | none => .next s
      | some (s1, r) => .next (pcbStatus (setPartState s1 pid 3) pid 3 r p.seq)

/-- RESUME, R364. -/
def execResume (pid : Nat) (s : State) : Out3 :=
  pcbCommand s pid 6 [3] (fun s seq => .next (pcbDone (setPartState s pid 1) pid 0 seq))

/-! ## Teardown (R369) -/

/-- What the device holds of a partition beside its resources, forgotten: records, queues, gangs, tenants, barrier grants, held records. -/
def forgetPart (s : State) (pid : Nat) : State :=
  { s with
    recs := s.recs.filter (fun r => r.pid != pid),
    queues := s.queues.filter (fun q => q.pid != pid),
    gangs := s.gangs.filter (fun g => g.pid != pid),
    tenants := s.tenants.filter (fun t => t.pid != pid),
    heldRecs := s.heldRecs.filter (fun e => e.1 != pid),
    co := { s.co with cmds := s.co.cmds.filter (fun e => e.2.pid != pid) },
    cores := s.cores.map (fun c => (c.1, { c.2 with cmds := c.2.cmds.filter (fun e => e.2.pid != pid) })),
    dies := s.dies.map (fun d => (d.1, { d.2 with bars := d.2.bars.map (fun b =>
      (b.1, if (b.2.granted.map Prod.fst) = some pid then { b.2 with granted := none } else b.2)) })) }

/-- TEARDOWN, R369, steps 1 to 3. -/
def execTeardown (pid : Nat) (s : State) : Out3 :=
  pcbCommand s pid 3 [3] (fun s seq =>
    let s1 := allDies.foldl (fun (s : State) d =>
      let x := s.die d
      let ks := (x.banks.filter (fun b => b.pid == pid)).map (fun b => b.key)
      if ks.isEmpty then s else s.setDie d { x with keys := x.keys.filter (fun k => !ks.contains k) }) (forgetPart s pid)
    let s2 := startScrubs s1 pid
    let s3 := match s2.part? pid with
      | some p => s2.setPart pid { p with state := 4, seq := seq }
      | none => s2
    .next (closeSessions (pcbState1 s3 pid) pid))

/-- TEARDOWN_DONE, R369, step 4: every die's scrub is done, and the partition is free. -/
def execTeardownDone (pid : Nat) (s : State) : Out3 :=
  match s.part? pid with
  | none => .next s
  | some p =>
    if s.bootStep < 6 || p.state ≠ 4 || !scrubsDone s pid then .next s
    else
      let s1 := { s with
        dies := s.dies.map (fun d => (d.1, { d.2 with
          banks := d.2.banks.filter (fun b => b.pid != pid),
          scrubs := d.2.scrubs.filter (fun r => r.pid != pid) })),
        parts := adel s.parts pid }
      .next (pcbStatus s1 pid 0 0 p.seq)

/-! ## Measurement and attestation (R374, R375) -/

/-- One level of the tree: groups of 128 digests, concatenated, hashed. -/
def hashLevel : Nat → List (List Byte) → List (List Byte)
  | 0, _ => []
  | n + 1, l => if l = [] then [] else sha3 (l.take 128).flatten :: hashLevel n (l.drop 128)

/-- The root of a tree of digests. -/
def hashRoot : Nat → List (List Byte) → List Byte
  | 0, l => l.headD []
  | n + 1, l => if l.length ≤ 1 then l.headD [] else hashRoot n (hashLevel l.length l)

/-- The bytes of a measurement register. -/
def measBytes (m : BitVec 256) : List Byte := leBytes 32 m.toNat

/-- MEASURE, R374. What it reads or writes in a die under repair is awaited (R377). -/
def execMeasure (pid : Nat) (s : State) : Out3 :=
  pcbCommand s pid 5 [1, 3] (fun s seq =>
    let arg := bitsAt (pcb s pid 5) 0 56
    let n := bitsAt (pcb s pid 6) 0 32
    if n = 0 then .next (pcbDone s pid 1 seq)
    else if netHeld s pid arg (32 * n + 32) then .next s
    else
      match fwSpan s pid arg (32 * n) .read with
      | (s1, none) => .next (pcbDone s1 pid 1 seq)
      | (s1, some ps) =>
        match fwSpan s1 pid (arg + 32 * n) 32 .write with
        | (s2, none) => .next (pcbDone s2 pid 1 seq)
        | (s2, some qs) =>
          let bs := ps.flatMap (fun p => s2.mem.readN p.1 p.2)
          let root := hashRoot 5 (cutN 32 n bs)
          match s2.part? pid with
          | none => .next s2
          | some p =>
            let m := BitVec.ofNat 256 (leNat (sha3 (measBytes p.meas ++ root ++ leBytes 8 n)))
            .next (pcbDone (setMeas ((writeParts s2 pid qs root).setPart pid { p with meas := m }) pid m) pid 0 seq))

/-- Bytes 0 to 143 of the evidence block (R375). -/
def evidence (s : State) (pid : Nat) (p : Part) (nonce : List Byte) : List Byte :=
  nonce ++ padTo 32 s.digest ++ measBytes p.meas ++ leBytes 32 (s.feature.getD 0) ++ leBytes 4 s.modNo ++ [BitVec.ofNat 8 pid, BitVec.ofNat 8 p.state, 0, 0] ++
    leBytes 8 s.gn.t64.toNat

/-- ATTEST, R375. What it reads or writes in a die under repair is awaited (R377). -/
def execAttest (pid : Nat) (s : State) : Out3 :=
  pcbCommand s pid 7 [1, 3] (fun s seq =>
    let arg := bitsAt (pcb s pid 5) 0 56
    if netHeld s 0 arg 4096 then .next s else
    match fwSpan s 0 arg 32 .read, s.part? pid with
    | (s1, some ns), some p =>
      match fwSpan s1 0 arg 4096 .write with
      | (s2, some ps) =>
        let head := evidence s2 pid p (ns.flatMap (fun q => s2.mem.readN q.1 q.2))
        let block := head ++ padTo 2420 ((Config.signature head).take 2420) ++ List.replicate 12 0 ++ (List.range 1312).map Config.identityKey
        .next (pcbDone (writeParts s2 0 ps (padTo 4096 block)) pid 0 seq)
      | (s2, none) => .next (pcbDone s2 pid 1 seq)
    | (s1, _), _ => .next (pcbDone s1 pid 1 seq))

end Sys2Proof.Machine
end

