-- ==== Sys2Proof/Machine/Bringup.lean ====
section
/-! DEFINITION. Resets and bring-up (R378 to R380, R383), repair of a die (R377), throttling (R382), and errors of stored bits
(R274, R334). -/

namespace Sys2Proof.Machine

/-! ## Repair (R377) -/

/-- Every die but one. -/
def otherDies (d : Nat) : List Nat := allDies.filter (fun k => k != d)

/-- The die under repair. -/
def dieInRepair (s : State) : Option Nat := allDies.find? (fun d => (s.die d).repair == 1)

/-- The cores of a die that a state lists. -/
def coresOf (s : State) (d : Nat) : List Core := s.allCores.filter (fun c => dieOf c.id == d)

/-- A repair begins: the allocator stops placing on the die, its resident records are to be saved (one with no free save slot is killed),
and what its fabric write queue holds for other memory goes to another die's, as its connections do (R314, R345). -/
def beginRepair (s : State) (d seq : Nat) : State :=
  let x := s.die d
  let s1 := s.setDie d { x with repair := 1, repairAt := s.gn.t64.toNat, repairSeq := seq, fabq := x.fabq.filter (fun e => isDS e.line) }
  let s2 := (x.fabq.filter (fun e => !isDS e.line)).foldl (fun s e => pushFab s ((otherDies d).headD 0) e) s1
  let rs := s2.recs.filter (fun r => dieOf r.core == d && holdsCore s2 r)
  rs.foldl (fun s r => match markPre s r.id false with
    | (s', true) => s'
    | (s', false) => endRec s' r.id 4) s2

/-- Nothing of a die under repair is under way: no record on its cores, no engine command of theirs, no write-lane entry. -/
def dieQuiet (s : State) (d : Nat) : Bool :=
  (coresOf s d).all (fun c => c.recId.isNone && c.entries.isEmpty && c.cmds.all (fun e => !e.2.run))

/-- A scrub register after a reset: its scrub clears the pads again if it has completed no granule (R399). -/
def Scrub.again (r : Scrub) : Scrub := { r with cleared := r.cleared && (r.fin || r.done != 0) }

/-- The scratchpads of a die's cores and clusters that partitions hold, as ranges of memory addresses. Those of no partition stay as a
teardown has left them, zero (R365). -/
def usedPads (s : State) (d : Nat) : List (Nat × Nat) :=
  s.parts.flatMap (fun p => (p.2.uses.filter (fun u => u.die == d)).flatMap (fun u =>
    ((List.range 16).filter (fun c => u.cores.getLsbD c)).map (fun c => (nearKey (16 * d + c) 0, nearKey (16 * d + c) 0 + 0x180000)) ++
    u.clus.zipIdx.map (fun g => (clusKey (4 * d + g.2) (g.1.1 * 65536), clusKey (4 * d + g.2) (g.1.1 * 65536) + g.1.2 * 65536))))

/-- The pads of a die that its scrubs have cleared are zero again (R399). -/
def padsKept (s : State) (d : Nat) : State := (s.die d).scrubs.foldl (fun s r => if r.cleared then clearPads s d r.pid else s) s

/-- A die after its reset and self-test: keys, bank map, scrub registers and stacked SRAM as they were; its cores are as at reset, and what
the scratchpads of its cores and clusters in use hold is undefined, but for those a scrub has cleared. -/
def rejoinDie (s : State) (d : Nat) : State :=
  let x := s.die d
  let s0 := s.setDie d { Die.reset with banks := x.banks, keys := x.keys, scrubs := x.scrubs.map Scrub.again, pend := x.pend, fabq := x.fabq }
  let s1 := { s0 with
    sh := if dieOf s0.co.id = d then { Shuttle.reset with pos := s0.sh.pos } else s0.sh
    co := if dieOf s0.co.id = d then Core.reset s0.co.id else s0.co
    cores := s0.cores.filter (fun c => dieOf c.1 != d) }
  padsKept (havoc s1 (usedPads s1 d)) d

/-- An access that waited for a die raises ECC with detail 1: an engine's ends its command, an instruction's is a fault of its shuttle. -/
def loseEntry (s : State) (core : Nat) (e : LaneEnt) : State :=
  let s1 := e.tags.foldl (fun s q => endCmdErr s core q.1 5 q.2 (some (chkFlt cECC 1 0 0 q.2 false))) s
  (e.aBy.map (fun p => (p, false)) ++ e.xBy.map (fun p => (p.1, true))).foldl (fun s p =>
    let t := s.shuttle { core := core, pos := p.1 }
    if t.status = .running ∧ t.due.isNone then
      (countErr s (dieOf core) 6).setShuttle core { t with due := some { flt cECC 1 p.2 with pa := e.line } }
    else s) s1

/-- The entries of a core's DS queue that wait for a die are lost. -/
def loseWaiting (s : State) (core d : Nat) : State :=
  let c := s.core core
  let bad := c.qDS.filter (fun e => e.line / 2 ^ 32 == d)
  bad.foldl (fun s e => loseEntry s core e) (s.setCore { c with qDS := c.qDS.filter (fun e => e.line / 2 ^ 32 != d) })

/-- A die is fenced: the repair's result is 2, and every access that waited for the die fails. -/
def fenceDie (s : State) (d : Nat) : State :=
  let x := s.die d
  let s1 := pcbDone (s.setDie d { x with repair := 2, fabq := [] }) 0 2 x.repairSeq
  let s2 := ((s1.allCores.map (fun c => c.id)).filter (fun k => dieOf k != d)).foldl (fun s k => loseWaiting s k d) s1
  x.fabq.foldl (fun s e => match e.tag with
    | some q => endCmdErr s q.1 q.2.1 5 q.2.2 (some (chkFlt cECC 1 0 0 q.2.2 false))
    | none => if e.left.isSome then s else reply s e.conn cECC 1 []) s2

/-- REPAIR, R377: command 8 of the module control block starts one; once the die is quiet it is reset and rejoins, or it is fenced. Any
other command but reset completes with result 3. -/
def execRepair (s : State) : Out3 :=
  if s.bootStep < 6 then .next s
  else
    match dieInRepair s with
    | some d =>
      if !dieQuiet s d then .next s
      else
        let (n, s1) := s.fresh
        if Config.repairSucceeds n then .next (pcbDone (rejoinDie s1 d) 0 0 (s.die d).repairSeq) else .next (fenceDie s1 d)
    | none =>
      let w := pcb s 0 0
      let seq := w % 2 ^ 32
      if seq = pcb s 0 1 % 2 ^ 32 ∨ bitsAt w 56 8 = 9 then .next s
      else if bitsAt w 56 8 = 8 then .next (beginRepair s (bitsAt (pcb s 0 6) 0 5) seq)
      else .next (pcbDone s 0 3 seq)

/-- REPAIR_TIMEOUT, R377: 500 ms. -/
def execRepairTimeout (die : Nat) (s : State) : Out3 :=
  let x := s.die die
  .next (if x.repair = 1 ∧ x.repairAt + 2000000000 ≤ s.gn.t64.toNat then fenceDie s die else s)

/-! ## Resets (R378, R380, R383) -/

/-- What a scrub has written on its die, but for main memory: the pads, and the granules of the window it has completed. -/
def scrubbed (s : State) (die : Nat) (r : Scrub) : State :=
  let s1 := clearPads s die r.pid
  match (s.die die).banks.find? (fun b => b.pid == r.pid) with
  | some b => zeroRange s1 (die * 2 ^ 32 + b.pbase * 65536) (Nat.min r.done b.pcap * 65536)
  | none => s1

/-- A reset that is not power-on: keys, bank map, scrub registers, main memory and what firmware knows of the partitions stay; the contents
of the scratchpads that partitions hold are undefined, but for what scrubs have written, which stays zero (R365, R399, R403). A scrub that
has completed no granule clears the pads again. Cause 1 is a watchdog, 2 command 9. -/
def warmReset (s : State) (cause : Nat) : State :=
  let s1 : State := { State.reset with
    cause := cause, mem := s.mem, poison := s.poison, latent := s.latent, parts := s.parts, nextRec := s.nextRec, turns := s.turns
    freeCount := s.freeCount, dies := s.dies.map (fun d => (d.1, { Die.reset with
      banks := d.2.banks, keys := d.2.keys, scrubs := d.2.scrubs.map Scrub.again, pend := d.2.pend })) }
  let s2 := havoc s1 ((0, 2 ^ 37) :: allDies.flatMap (usedPads s1))
  s2.dies.foldl (fun s d => d.2.scrubs.foldl (fun s r => if r.cleared then scrubbed s d.1 r else s) s) s2

/-- MODULE_RESET, R380: command 9 of the module control block. -/
def execModuleReset (s : State) : Out3 :=
  let w := pcb s 0 0
  if s.bootStep = 6 ∧ bitsAt w 56 8 = 9 ∧ w % 2 ^ 32 ≠ pcb s 0 1 % 2 ^ 32 ∧ (dieInRepair s).isNone then .next (warmReset s 2) else .next s

/-- POWER_ON, R378, R380: a power-on reset loses everything. -/
def execPowerOn (s : State) : Out3 := .next { State.reset with turns := s.turns, freeCount := s.freeCount }

/-- WATCHDOG_RESET, R380. -/
def execWatchdogReset (s : State) : Out3 := .next (warmReset s 1)

/-- THERMAL_RESET, R383: recorded as a watchdog cause. -/
def execThermalReset (s : State) : Out3 := .next (warmReset s 1)

/-! ## Boot (R378 to R380) -/

/-- The boot buffer (R379), and its words. -/
def bootBase : Nat := 0x027FF0000000
def bootWord (s : State) (k : Nat) : Nat := s.mem.readLe (bootBase + 8 * k) 8
def setBootWord (s : State) (k v : Nat) : State := { s with mem := s.mem.writeLe (bootBase + 8 * k) 8 v }

/-- The control partition (R360): the last GiB of main memory. -/
def controlPart : Part :=
  { state := 1, tblBase := 0, tblSlots := 0, sup := 0, mmBase := 1535, mmSize := 1, src4 := 0, src6 := 0, uses := [], root := none, meas := 0,
    fabBytes := 0, snapFab := (0, 0), seq := 0, last := (0, 0) }

/-- A partition as step 5 of a reset leaves it (R380). -/
def bootPart (s : State) (e : Nat × Part) : State :=
  let (pid, p) := e
  if p.state = 1 then pcbState1 (s.setPart pid { p with state := 3 }) pid
  else if p.state = 2 then pcbStatus (s.setPart pid { p with state := 3 }) pid 3 0 (pcb s pid 0)
  else if p.state = 4 then s.setPart pid { p with seq := pcb s pid 0 % 2 ^ 32 }
  else s

/-- BOOT_GO, R378 to R380: the go word makes the boot ROM verify the image; it is refused, or steps 5 and 6 follow and the connection that
wrote the go word binds to module scope. The event names that connection; for another it is none. -/
def execBootGo (session : Nat) (s : State) : Out3 :=
  if s.bootStep ≠ 3 ∨ bootWord s 2 ≠ 1 ∨ s.goConn ≠ some session then .next s
  else
    let len := bootWord s 0
    let image := s.mem.readN (bootBase + 0x1000) len
    if 4096 ≤ len ∧ len ≤ 0x0FFFF000 ∧ Config.imageVerifies image then
      let s1 := setBootWord { s with digest := sha3 image, modNo := bootWord s 1 % 2 ^ 32, bootStep := 6, gn := { s.gn with lock := 3, good := 0 } } 3 0
      let s2 := (s1.parts.filter (fun e => e.1 != 0)).foldl bootPart s1
      let s3 := pcbStatus (s2.setPart 0 controlPart) 0 1 0 (pcb s2 0 0)
      .next { s3 with sessions := [{ id := session, scope := moduleScope }] }
    else .next (setBootWord (setBootWord s 2 0) 3 0xFE)

/-! ## Clocks (R382) -/

/-- THROTTLE, R382: the condition is there; one step slower, of three. -/
def execThrottle (die : Nat) (s : State) : Out3 :=
  let x := s.die die
  .next (s.setDie die { x with clock := Nat.min 2 (x.clock + 1), hotAt := s.gn.t64.toNat })

/-- THROTTLE_RECOVER, R382: one step back once the condition has been absent for 1 ms, and again a millisecond later. -/
def execThrottleRecover (die : Nat) (s : State) : Out3 :=
  let x := s.die die
  if s.gn.t64.toNat < x.hotAt + 4000000 then .next s
  else .next (s.setDie die { x with clock := x.clock - 1, hotAt := s.gn.t64.toNat })

/-! ## Errors of stored bits (R274, R334, R336) -/

/-- The die that counts an error of a line, and the counter of corrected ones: near 0, cluster 1, die scratchpad 2, main memory 3. -/
def lineDie (key : Nat) : Nat × Nat :=
  if 2 ^ 45 ≤ key then ((key - 2 ^ 45) / 2 ^ 26, 1)
  else if 2 ^ 44 ≤ key then ((key - 2 ^ 44) / 2 ^ 28, 0)
  else if isDS key then (key / 2 ^ 32, 2)
  else (0, 3)

/-- A deferred record of a shuttle of the core in focus, where one stands at the position (R334). -/
def deferAt (s : State) (pos pa : Nat) : State :=
  let r : Ref := { core := s.co.id, pos := pos }
  if (s.shuttle r).status ≠ .absent then (pushRecord s r { flt cECC 2 false with source := 2, pa := pa } 0).1 else s

/-- A poison made in what a core holds: counted in its die, with a record (R334, R336). -/
def poisonMade (s : State) (pos pa : Nat) : State := deferAt (countErr s (dieOf s.co.id) 5) pos pa

/-- An error of the architectural state beside x, p and v registers, found by its parity (R274): the poisoned words it leaves in the shuttle in
focus, its core or a die; none where it strikes nothing that stands. Of such a word R334 gives no number for the record: it is 256 times that of
the word, entry or slot. DESIGN CHOICE (log entry 126). -/
def strike (u : Upset) (s : State) : Option (State × Nat) :=
  let t := s.sh
  match u with
  | .sword k _ =>
    if (3 ≤ k && k < 43 && k != 8 && k != 16) || (100 ≤ k && k < 104) then some ({ s with sh := { t with spois := joinL [k] t.spois } }, 256 * k) else none
  | .qword q e word _ =>
    if q < 6 then
      match (t.dqOf q)[e]? with
      | some x =>
        if word < (if x.scalar then 1 else 2 * t.lanes) then
          some ({ s with sh := t.setDq q ((t.dqOf q).set e { x with pois := joinL [word] x.pois }) }, 256 * q)
        else none
      | none => none
    else if q < 8 ∧ e < (t.rqOf q).length then some ({ s with sh := { t with rqPois := joinL [(q, e)] t.rqPois } }, 256 * q)
    else none
  | .tword k word _ =>
    if word ≤ 4096 then some ({ s with co := s.co.setTile k { s.co.tile k with pois := joinL [word] (s.co.tile k).pois } }, 256 * k) else none
  | .ent k _ => some ({ s with co := s.co.setTent k { s.co.tent k with bad := true } }, 256 * k)
  | .bar d k _ => some (s.setDie d ((s.die d).setBar k { (s.die d).bar k with bad := true }), 256 * k)
  | _ => none

/-- The die that counts such an error. -/
def strikeDie (u : Upset) (s : State) : Nat :=
  match u with
  | .bar d _ _ => d
  | _ => dieOf s.co.id

/-- SOFT_ERROR, R274, R334, R336: corrected and counted; or a memory line holds an error nothing has met yet, or a register word, a FIFO
run or other architectural state is poisoned with a record. -/
def execSoftError (u : Upset) (s : State) : Out3 :=
  let fixed : Out3 := .next (countErr s (dieOf s.co.id) 4)
  let p := s.sh.pos
  match u with
  | .line place true => .next (countErr s (lineDie place).1 (lineDie place).2)
  | .line place false =>
    let l := place / 64 * 64
    .next (if s.poison.contains l then s else { s with poison := l :: s.poison, latent := l :: s.latent })
  | .vword _ _ _ true | .xword _ true | .pword _ _ true | .run _ _ true | .logic => fixed
  | .sword _ true | .qword _ _ _ true | .tword _ _ true | .ent _ true | .bar _ _ true => .next (countErr s (strikeDie u s) 4)
  | .sword _ false | .qword _ _ _ false | .tword _ _ false | .ent _ false | .bar _ _ false =>
    .next (match strike u s with
      | some (s1, n) => deferAt (countErr s1 (strikeDie u s) 5) p n
      | none => s)
  | .vword reg lane word false =>
    .next (poisonMade { s with sh := { s.sh with vpoison := joinL [(reg, lane, word)] s.sh.vpoison } } p (reg * 256 + lane))
  | .xword reg false => .next (if reg = 0 then s else poisonMade { s with sh := { s.sh with xpois := joinL [reg] s.sh.xpois } } p (reg * 256))
  | .pword reg word false => .next (poisonMade { s with sh := { s.sh with ppois := joinL [(reg, word)] s.sh.ppois } } p (reg * 256))
  | .run fb k false =>
    let q := s.co.fifo fb
    .next (if q.runs.length ≤ k then s
      else poisonMade { s with co := s.co.setFifo fb { q with runs := q.runs.mapIdx (fun j r => if j = k then { r with poison := true } else r) } }
        (s.co.owner.getD p) 0)

/-- The partition whose bank-map window on a die a line lies in (R264). -/
def ownerOf (s : State) (line : Nat) : Option Nat :=
  ((s.die (line / 2 ^ 32)).banks.find? (fun b => b.pbase ≤ line % 2 ^ 32 / 65536 && line % 2 ^ 32 / 65536 < b.pbase + b.pcap)).map (fun b => b.pid)

/-- PATROL_SCRUB, R274: a line of die scratchpad is read and corrected; one that cannot be is poisoned, with a record to the partition whose
window it lies in (R334). -/
def execPatrolScrub (line : Nat) (s : State) : Out3 :=
  .next (if isDS line then (match ownerOf s line with
    | some pid => meetPart s pid line 1
    | none => meetLatent s s.nextRec 0 line 1) else s)

end Sys2Proof.Machine
end

