-- ==== Sys2Proof/Machine/VecMove.lean ====
section
/-! DEFINITION. Compare, select and movement (R162 to R165). -/

namespace Sys2Proof.Machine

/-- `vcmp`, R162. -/
def execVcmp (h : Hd) (k : VCond) (vx : Bool) (d a b : Fin 64) (st : State) : Out3 :=
  vecOp (.vcmp h k vx d a b) st (fun t => t.et != .f4) (fun t => (a, t.et) :: if vx then [] else [(b, t.et)]) (reads2 h vx a b)
    (fun t =>
      let r := (t.actives h).map (fun i => (i, cond k t.et (t.vread a.val i t.et) (opB t vx b i)))
      let t1 := r.foldl (fun u e => u.psetBit d.val e.1 e.2.1) t
      (t1.flag (r.foldl (fun f e => f ||| e.2.2) 0)).vdone)

/-- `vsel`, R163. -/
def execVsel (h : Hd) (d a b e : Fin 64) (st : State) : Out3 :=
  vecOp (.vsel h d a b e) st (fun _ => true) (fun t => [(d, t.et), (a, t.et), (b, t.et)])
    (fun t => (t.actives h).map (fun i => ((if t.pval e.val i then a else b).val, i, t.et)))
    (fun t => t.writeElems h d.val t.et (fun i => (if t.pval e.val i then t.vread a.val i t.et else t.vread b.val i t.et, 0)))

/-- The source element of a slide (R163): none gives `fill`. -/
def slideSrc (dn : Bool) (sh i : Nat) : Option Nat := if dn then some (i + sh) else if sh ≤ i then some (i - sh) else none

/-- A code read from an element that may be none (R15, R163). -/
def Shuttle.vreadOpt (t : Shuttle) (n : Nat) (e : EType) (i : Option Nat) : Nat :=
  match i with
  | some k => t.vread n k e
  | none => t.fillAt.toNat % 2 ^ e.bits

/-- Elements read that lie below `vlen`. -/
def Shuttle.readsAt (t : Shuttle) (n : Nat) (e : EType) (l : List (Option Nat)) : List (Nat × Nat × EType) :=
  l.filterMap (fun o => match o with
    | some k => if k < t.vlen.toNat then some (n, k, e) else none
    | none => none)

/-- `vslide`, R163. -/
def execVslide (h : Hd) (dn vi : Bool) (d a b : Fin 64) (imm : BitVec 8) (st : State) : Out3 :=
  let amt (t : Shuttle) : Nat := if vi then imm.toNat else (t.srcB b).toNat
  vecOp (.vslide h dn vi d a b imm) st (fun _ => true) (fun t => [(d, t.et), (a, t.et)])
    (fun t => t.readsAt a.val t.et ((t.actives h).map (slideSrc dn (amt t))))
    (fun t => t.writeElems h d.val t.et (fun i => (t.vreadOpt a.val t.et (slideSrc dn (amt t) i), 0)))

/-- `vperm`, R164. -/
def execVperm (h : Hd) (t2 : EType) (d a b : Fin 64) (st : State) : Out3 :=
  vecOp (.vperm h t2 d a b) st (fun _ => true) (fun t => [(d, t.et), (a, t.et), (b, t2)])
    (fun t => t.readsOf h [(b, t2)] ++ t.readsAt a.val t.et ((t.actives h).map (fun i => some (t.elem b.val i t2))))
    (fun t => t.writeElems h d.val t.et (fun i => (t.vread a.val (t.elem b.val i t2) t.et, 0)))

/-- `vbcast`, R164. -/
def execVbcast (h : Hd) (d a : Fin 64) (st : State) : Out3 :=
  vecOp (.vbcast h d a) st (fun _ => true) (fun t => [(d, t.et)]) (fun _ => [])
    (fun t => t.writeElems h d.val t.et (fun _ => ((t.srcA a).toNat % 2 ^ t.et.bits, 0)))

/-- `vbcast.el`, R164. -/
def execVbcastEl (h : Hd) (d a b : Fin 64) (st : State) : Out3 :=
  vecOp (.vbcastEl h d a b) st (fun _ => true) (fun t => [(d, t.et), (a, t.et)])
    (fun t => if t.actives h = [] then [] else t.readsAt a.val t.et [some (t.srcB b).toNat])
    (fun t => t.writeElems h d.val t.et (fun _ => (t.vread a.val (t.srcB b).toNat t.et, 0)))

/-- A code in a scalar register: sign-extended for `.i` types (R164). -/
def codeWord (t : EType) (c : Nat) : Word := if t.signed then sext64 c t.bits else zext64 c t.bits

/-- `vmovx`, R164. -/
def execVmovx (h : Hd) (d a b : Fin 64) (st : State) : Out3 :=
  vecOp (.vmovx h d a b) st (fun _ => true) (fun t => [(a, t.et)]) (fun t => t.readsAt a.val t.et [some (t.srcB b).toNat])
    (fun t => (t.xset d (codeWord t.et (t.vread a.val (t.srcB b).toNat t.et))).vdone)

/-- `vmovx.v`, R164: one element, when it is active. -/
def execVmovxV (h : Hd) (d a b : Fin 64) (st : State) : Out3 :=
  vecOp (.vmovxV h d a b) st (fun _ => true) (fun t => [(d, t.et)]) (fun _ => [])
    (fun t =>
      let i := (t.srcB b).toNat
      (if t.active h i then t.vwrites d.val t.et [(i, (t.srcA a).toNat % 2 ^ t.et.bits)] else t).vdone)

/-- The selected elements of `vcompress` and `vexpand` (R165). -/
def selected (t : Shuttle) (h : Hd) (b : Fin 64) : List Nat := (t.actives h).filter (fun i => t.pval b.val i)

/-- `vcompress` and `vexpand` need `vstart` 0 (R165), which is reported before a group check that fails too. DESIGN CHOICE (log entry 116). -/
def packOp (i : Instr) (d a : Fin 64) (reads : Shuttle → List (Nat × Nat × EType)) (f : Shuttle → List (Nat × Nat)) (st : State) : Out3 :=
  xIssue i st (fun s =>
    let t := s.sh
    if t.vstart ≠ 0 then xFault cALIGN 6 s
    else
      match t.groupCheck [(d, t.et), (a, t.et)] with
      | some e => xFault cALIGN e s
      | none =>
        match t.poisonRead (reads t) with
        | some k => .fault (eccFlt k) s
        | none => .done { s with sh := (t.vwrites d.val t.et (f t)).vdone })

/-- `vcompress`, R165. -/
def execVcompress (h : Hd) (d a b : Fin 64) (st : State) : Out3 :=
  packOp (.vcompress h d a b) d a (fun t => (selected t h b).map (fun i => (a.val, i, t.et)))
    (fun t => (selected t h b).mapIdx (fun k i => (k, t.vread a.val i t.et))) st

/-- `vexpand`, R165. -/
def execVexpand (h : Hd) (d a b : Fin 64) (st : State) : Out3 :=
  packOp (.vexpand h d a b) d a (fun t => (selected t h b).mapIdx (fun k _ => (a.val, k, t.et)))
    (fun t => (selected t h b).mapIdx (fun k i => (i, t.vread a.val k t.et))) st

end Sys2Proof.Machine
end

