-- ==== Sys2Proof/Machine/Column.lean ====
section
/-! DEFINITION. The column instructions (R193 to R220). -/

namespace Sys2Proof.Machine

/-! ## Descriptors and the arena -/

/-- A column register's fields (R194). -/
structure Col where
  et   : EType
  len  : Nat
  cap  : Nat
  base : Nat
deriving DecidableEq, Repr

/-- A descriptor as its word holds it (R194). An element type of 13 to 15 or a length above its capacity, which only an edited frame or a debug
write makes, is used as it stands, 14 and 15 as `.i8`. DESIGN CHOICE (log entry 130). -/
def Col.ofWord (w : Word) : Col :=
  let v := w.toNat
  { et := (EType.ofCode (bitsAt v 60 4)).getD .i8, len := bitsAt v 36 20, cap := bitsAt v 16 20, base := bitsAt v 0 16 }

/-- Bytes of an element of a column. -/
def Col.size (c : Col) : Nat := Nat.max 1 (c.et.bits / 8)

/-- The column of a column register. -/
def Shuttle.col (t : Shuttle) (n : Nat) : Col := Col.ofWord (t.cword n)

/-- The fields of the arena word (R193). -/
def arenaBase (w : Word) : Nat := bitsAt w.toNat 0 21
def arenaSize (w : Word) : Nat := bitsAt w.toNat 21 21
def arenaScratch (w : Word) : Nat := bitsAt w.toNat 42 21

/-- The address of element i of a column of the shuttle in focus in the near window (R195), and its memory address. -/
def colEa (s : State) (c : Col) (i : Nat) : Nat := arenaBase s.sh.arena + 64 * c.base + i * c.size
def colKey (s : State) (c : Col) (i : Nat) : Nat := nearKey s.co.id (colEa s c i)

/-- The arena lies in the near grant (R204), and every column named lies in the arena: one that does not, which only an edited frame or a debug
write makes, has the fault of the arena. DESIGN CHOICE (log entry 130). -/
def arenaOk (s : State) (cs : List Col) : Bool :=
  let b := arenaBase s.sh.arena
  let n := arenaSize s.sh.arena
  (n == 0 || (decide (s.who.lo ≤ b) && decide (b + n ≤ s.who.lo + s.who.len))) &&
    cs.all (fun c => c.cap == 0 || decide (64 * c.base + c.cap * c.size ≤ n))

/-- An output and an input share storage (R203). -/
def colMeets (o i : Col) : Bool :=
  decide (0 < o.cap) && decide (0 < i.len) && decide (64 * i.base < 64 * o.base + o.cap * o.size) &&
    decide (64 * o.base < 64 * i.base + i.len * i.size)

/-- An overlap R203 does not allow, among outputs and inputs, each input operand with whether R196 lets the output be it. Two outputs never
share storage. -/
def overlapBad (t : Shuttle) (outs : List Nat) (ins : List (Nat × Bool)) : Bool :=
  outs.any (fun o => ins.any (fun i => !(i.1 == o && i.2) && colMeets (t.col o) (t.col i.1))) ||
    (match outs with
      | [a, b] => colMeets (t.col a) { t.col b with len := (t.col b).cap }
      | _ => false)

/-! ## The frame of R199 -/

/-- What an instruction does at a cursor: emits a value to each output and moves on, moves on, is through, fails, or waits. -/
inductive CStep where
  | emit (vs : List Nat) (i j fl : Nat)
  | move (i j fl : Nat)
  | stop
  | fail (f : Flt) (fl : Nat)
  | wait

/-- Where a run stands: the machine, both positions, elements emitted, flags. -/
structure CSt where
  s  : State
  i  : Nat
  j  : Nat
  k  : Nat
  fl : Nat

/-- How a run ends. -/
inductive CEnd where
  | fin
  | full
  | fail (f : Flt)
  | wait

/-- Values admitted to the near queue for place k of the outputs (R113, R220); none when it is full for one of them. -/
def emitTo (s : State) (k : Nat) : List Col → List Nat → Option State
  | c :: cs, v :: vs =>
    (s.co.plain (colKey s c k) (leBytes c.size v) false (byX s)).bind (fun co => emitTo { s with co := co } k cs vs)
  | _, _ => some s

/-- The steps of a run, in order, until it ends (R199) or its turn does: a full queue, or `left` elements out. With outputs, one more element
than the capacity ends it. An element out is one emitted, or for an instruction with no output one it has moved past. -/
def crun (outs : List Col) (cap : Nat) (step : State → Nat → Nat → State × CStep) : Nat → Option Nat → CSt → CSt × CEnd
  | 0, _, c => (c, .fin)
  | n + 1, left, c =>
    if outs.isEmpty && left == some 0 then (c, .wait)
    else
      match step c.s c.i c.j with
      | (s, .stop) => ({ c with s := s }, .fin)
      | (s, .move i j f) =>
        crun outs cap step n (if outs.isEmpty then left.map Nat.pred else left) { c with s := s, i := i, j := j, fl := c.fl ||| f }
      | (s, .fail f g) => ({ c with s := s, fl := c.fl ||| g }, .fail f)
      | (s, .wait) => ({ c with s := s }, .wait)
      | (s, .emit vs i j f) =>
        if cap ≤ c.k then ({ c with s := s, fl := c.fl ||| f }, .full)
        else if left = some 0 then ({ c with s := s }, .wait)
        else
          match emitTo s c.k outs vs with
          | none => ({ c with s := s }, .wait)
          | some s2 => crun outs cap step n (left.map Nat.pred) { s := s2, i := i, j := j, k := c.k + 1, fl := c.fl ||| f }

/-- The instruction a run belongs to: op − 0xA0 and fn, whether a `cres` runs it, its yield and partial predicate, its outputs. -/
structure CCtl where
  op   : Nat
  fn   : Nat
  res  : Bool
  y    : Fin 64
  pp   : Fin 64
  outs : List Nat

/-- A cursor word (R200): bit 63 v, bit 62 res, op, fn, i, j, of which a greater one keeps its low 20 bits. DESIGN CHOICE (log entry 130). -/
def curWord (res : Bool) (op fn i j : Nat) : Nat :=
  2 ^ 63 + res.toNat * 2 ^ 62 + op % 16 * 2 ^ 58 + fn % 16 * 2 ^ 54 + i % 2 ^ 20 * 2 ^ 20 + j % 2 ^ 20

/-- Whether a valid cursor word names an op and fn. -/
def curIs (w op fn : Nat) : Bool := bitAt w 63 && bitsAt w 58 4 == op % 16 && bitsAt w 54 4 == fn % 16

/-- Every bit of the partial predicate, where there is one. -/
def Shuttle.setPp (t : Shuttle) (pp : Fin 64) (b : Bool) : Shuttle := if pp.val = 63 then t else t.pput pp.val (pFill b)

/-- Begin of R199: the positions and the count a run starts from; `k0` the count of a fresh one. An instruction under way goes on where
it is. -/
def cbegin (t : Shuttle) (c : CCtl) (k0 : Nat) : Nat × Nat × Nat :=
  let hi := bitsAt t.curAt.toNat 64 64
  let at' (w : Nat) : Nat × Nat := (bitsAt w 20 20, bitsAt w 0 20)
  if let some p := t.cprog then (p.i, p.j, p.k)
  else if curIs hi c.op c.fn && bitAt hi 62 == c.res then
    let (i, j) := at' hi
    (i, j, match c.outs with | [] => i | o :: _ => (t.col o).len)
  else if c.res then let (i, j) := at' (bitsAt t.curAt.toNat 0 64); (i, j, 0)
  else (0, 0, k0)

/-- The empty case of R198. -/
def cempty (t : Shuttle) (c : CCtl) (k : Nat) : Shuttle :=
  (((t.setLens c.outs k).xset c.y (BitVec.ofNat 64 k)).setPp c.pp false)

/-- A stop part-way (R201): lengths, flags and the progress cursor. -/
def cpart (c : CCtl) (r : CSt) : State :=
  { r.s with sh := ((((r.s.sh.setLens c.outs r.k).flag r.fl).setCur (curWord c.res c.op c.fn r.i r.j) r.s.sh.curLo).colDone).wash [10] }

/-- A run from Begin to Finish, Stop or Fail (R199), or as far as this turn goes. `fin` is what completing does besides; `held` the code before
a position, which the unit holds while the instruction is under way. A stop at capacity ends the instruction without completing it. -/
def colRun (c : CCtl) (k0 : Nat) (fuel : Nat) (step : State → Nat → Nat → State × CStep) (fin : Shuttle → Shuttle) (held : Nat → Nat) (s : State) :
    XOut :=
  let t := s.sh
  let (i, j, k) := cbegin t c k0
  let cols := c.outs.map t.col
  let cap := (cols.map Col.cap).foldl Nat.min (2 ^ 20)
  let s0 := if t.cprog.isSome then s else { s with sh := t.setCur (t.curHi % 2 ^ 63) t.curLo }
  let (r, e) := crun cols cap step fuel s.share { s := s0, i := i, j := j, k := k, fl := (t.cprog.map CProg.fl).getD 0 }
  match e with
  | .fin =>
    let n := match c.outs with | [] => r.i | _ => r.k
    let t1 := (((r.s.sh.flag r.fl).setLens c.outs r.k).xset c.y (BitVec.ofNat 64 n)).setPp c.pp false
    let t2 := if c.res then t1.setCur t1.curHi (t1.curLo % 2 ^ 63) else t1
    .done { r.s with sh := fin t2.colDone }
  | .full =>
    if c.pp.val = 63 then .fault { flt cCOLCAP 4 true with index := r.i } (cpart c r)
    else
      let t1 := ((r.s.sh.flag r.fl).setLens c.outs r.k).setCur r.s.sh.curHi (curWord false c.op c.fn r.i r.j)
      .done { r.s with sh := (((t1.xset c.y (BitVec.ofNat 64 r.k)).setPp c.pp true).colDone).wash [9] }
  | .fail f => .fault f (cpart c r)
  | .wait =>
    .part .other { r.s with sh := { r.s.sh with
      cprog := some { outs := c.outs, word := curWord c.res c.op c.fn r.i r.j, i := r.i, j := r.j, k := r.k, fl := r.fl, held := held r.i, vals := [] } } }

/-- The fault of an element of a column that lies in a poisoned line (R111, R335). -/
def colEcc (s : State) (c : Col) (i : Nat) : Flt := chkFlt cECC (s.eccDetail (colKey s c i) c.size) 0 (colEa s c i) i true

/-- An element of a column, read by the run as memory stands in its turn; a poisoned line fails it (R335). -/
def withElem (s : State) (c : Col) (i : Nat) (k : Nat → State × CStep) : State × CStep :=
  let a := colKey s c i
  if poisonHit s a c.size then (s, .fail (colEcc s c i) 0) else k (s.mem.readLe a c.size)

/-- The same for an instruction that writes memory as it reads: an element waits for the writes that cover its line (R126). -/
def withFresh (s : State) (c : Col) (i : Nat) (k : Nat → State × CStep) : State × CStep :=
  if s.co.coversSpan (colKey s c i) (colKey s c i + c.size) then (s, .wait) else withElem s c i k

/-- A column's elements are covered by a write of the core that has not performed (R126). -/
def colHeld (s : State) (c : Col) : Bool := c.len != 0 && s.co.coversSpan (colKey s c 0) (colKey s c c.len)

/-- What a column instruction needs before it runs (R196, R198, R202 to R204): the cursor of a `cres`, types, arena, overlap; and each turn of
it, that no write of the core covers its inputs (R126). It reads them before it admits anything in the turn. -/
def colPre (c : CCtl) (ins : List (Nat × Bool)) (types : Shuttle → Bool) (s : State) (k : State → XOut) : XOut :=
  let t := s.sh
  let cols := ins.map (fun i => t.col i.1)
  if c.res && !curIs (bitsAt t.curAt.toNat 0 64) c.op c.fn then xFault cCOLCAP 5 s
  else if !types t then xFault cALIGN 4 s
  else if !arenaOk s (c.outs.map t.col ++ cols) then xFault cPERM 4 s
  else if overlapBad t c.outs ins then xFault cCOLCAP 3 s
  else if cols.any (colHeld s) then .part .other s
  else k s

/-- A run with outputs, or the empty case when the driving length is 0. -/
def colGo (c : CCtl) (drive fuel : Nat) (step : State → Nat → Nat → State × CStep) (s : State) : XOut :=
  if drive = 0 then .done { s with sh := cempty s.sh c 0 } else colRun c 0 fuel step id (fun _ => 0) s

/-! ## Definitions and lengths -/

/-- `cdef.arena`, R206. Of a base too great for its field, which a size of 0 lets pass, the low 21 bits stay. DESIGN CHOICE (log entry 130). -/
def execCdefArena (h : Hd) (a b e : Fin 64) (st : State) : Out3 :=
  xIssue (.cdefArena h a b e) st (fun s =>
    let x := (s.sh.srcA a).toNat
    let n := (s.sh.srcB b).toNat
    let k := (s.sh.srcC e).toNat
    if x % 64 ≠ 0 ∨ n % 64 ≠ 0 ∨ k % 64 ≠ 0 then xFault cALIGN 3 s
    else if n < k then xFault cCOLCAP 2 s
    else if n ≠ 0 ∧ ¬ (s.who.lo ≤ x ∧ x + n ≤ s.who.lo + s.who.len) then xFault cPERM 4 s
    else
      .done { s with sh := { s.sh.wash ([9, 10] ++ (List.range 17).map (fun q => 26 + q)) with arena := BitVec.ofNat 64 (x % 2 ^ 21 + n * 2 ^ 21 + k * 2 ^ 42), c := Vector.replicate 16 0, ccur := 0 } })

/-- `cdef.T`, R206. -/
def execCdefT (h : Hd) (t : EType) (d a b : Fin 64) (st : State) : Out3 :=
  xIssue (.cdefT h t d a b) st (fun s =>
    let x := (s.sh.srcA a).toNat
    let cap := (s.sh.srcB b).toNat
    let ar := s.sh.arena
    if x % 64 ≠ 0 then xFault cALIGN 3 s
    else if 1048575 < cap ∨ arenaSize ar - arenaScratch ar < x + cap * (t.bits / 8) then xFault cCOLCAP 2 s
    else
      .done { s with sh := { s.sh.wash [27 + d.val] with c := s.sh.c.setIfInBounds d.val (BitVec.ofNat 64 (t.code * 2 ^ 60 + cap * 2 ^ 16 + x / 64 % 2 ^ 16)) } })

/-- `cdef.len`, R206. -/
def execCdefLen (h : Hd) (d a : Fin 64) (st : State) : Out3 :=
  xIssue (.cdefLen h d a) st (fun s =>
    let n := (s.sh.srcA a).toNat
    if (s.sh.col d.val).cap < n then xFault cCOLCAP 2 s else .done { s with sh := s.sh.setLen d.val n })

/-- `clen`, R207. -/
def execClen (h : Hd) (d a : Fin 64) (s : State) : Out3 :=
  xPlain (.clen h d a) s (fun t => t.xset d (BitVec.ofNat 64 (t.col a.val).len))
/-- `clen.cap`, R207. -/
def execClenCap (h : Hd) (d a : Fin 64) (s : State) : Out3 :=
  xPlain (.clenCap h d a) s (fun t => t.xset d (BitVec.ofNat 64 (t.col a.val).cap))
/-- `clen.desc`, R207. -/
def execClenDesc (h : Hd) (d a : Fin 64) (s : State) : Out3 :=
  xPlain (.clenDesc h d a) s (fun t => t.xset d (t.cword a.val))
/-- `clen.arena`, R207. -/
def execClenArena (h : Hd) (d : Fin 64) (s : State) : Out3 :=
  xPlain (.clenArena h d) s (fun t => t.xset d t.arena)

/-! ## Loads, stores and scatters -/

/-- `cld` and its `cres` (R208): n elements from an address, which is not looked at where there are none (R198). -/
def cldBody (c : CCtl) (d base n : Nat) (s : State) : XOut :=
  let col := s.sh.col d
  colPre c [] (fun _ => true) s (fun s =>
    if n ≠ 0 ∧ base % col.size ≠ 0 then xFault cALIGN 3 s
    else
      colGo c n (n + 2) (fun s i _ =>
        if n ≤ i then (s, .stop)
        else
          let ea := (base + i * col.size) % 2 ^ 64
          match check s s.who ea col.size .read false true with
          | (s1, .bad e dt l) => (s1, .fail (chkFlt e dt l ea i true) 0)
          | (s1, .hold) => (s1, .wait)
          | (s1, .ok l) =>
            if s1.co.coversSpan l.key (l.key + col.size) then (s1, .wait)
            else (s1, .emit [s1.mem.readLe l.key col.size] (i + 1) 0 0)) s)

/-- `cld.st`, R208: elements admitted in increasing i; a full queue makes it wait with its progress kept. -/
def execCldSt (h : Hd) (d a y : Fin 64) (st : State) : Out3 :=
  xIssue (.cldSt h d a y) st (fun s =>
    let c : CCtl := { op := 2, fn := 1, res := false, y := y, pp := Fin.ofNat 64 63, outs := [] }
    let base := (s.sh.srcA a).toNat
    let col := s.sh.col d.val
    colPre c [(d.val, false)] (fun _ => true) s (fun s =>
      if col.len = 0 then .done { s with sh := s.sh.xset y 0 }
      else if base % col.size ≠ 0 then xFault cALIGN 3 s
      else
        colRun c 0 (col.len + 2) (fun s1 i _ =>
          if col.len ≤ i then (s1, .stop)
          else
            withFresh s1 col i (fun v =>
              let ea := (base + i * col.size) % 2 ^ 64
              match check s1 s1.who ea col.size .write false true with
              | (s2, .bad e dt l) => (s2, .fail (chkFlt e dt l ea i true) 0)
              | (s2, .hold) => (s2, .wait)
              | (s2, .ok l) =>
                match s2.co.plain l.key (leBytes col.size v) false (byX s2) with
                | some co => ({ s2 with co := co }, .move (i + 1) 0 0)
                | none => (s2, .wait))) id (fun _ => 0) s))

/-- The types `cscat` takes for its operation (R211). -/
def scatType (k : AmoK) (t : EType) : Bool :=
  match k with
  | .swap => true
  | .fadd => t == .f32
  | _ => t.isInt && (t.bits == 32 || t.bits == 64)

/-- `cscat`, R211. -/
def execCscat (h : Hd) (k : AmoK) (d a b y : Fin 64) (st : State) : Out3 :=
  xIssue (.cscat h k d a b y) st (fun s =>
    let c : CCtl := { op := 6, fn := k.code, res := false, y := y, pp := Fin.ofNat 64 63, outs := [] }
    let base := (s.sh.srcA a).toNat
    let col := s.sh.col d.val
    let ps := s.sh.col b.val
    colPre c [(d.val, false), (b.val, false)] (fun _ => ps.et == .n32 && scatType k col.et) s (fun s =>
      if col.len = 0 then .done { s with sh := s.sh.xset y 0 }
      else
        colRun c 0 (col.len + 2) (fun s1 i _ =>
          if col.len ≤ i then (s1, .stop)
          else if ps.len ≤ i then (s1, .fail { flt cALIGN 8 true with index := i } 0)
          else
            withFresh s1 ps i (fun p => withFresh s1 col i (fun v =>
              let ea := (base + p * col.size) % 2 ^ 64
              match check s1 s1.who ea col.size .write false true with
              | (s2, .bad e dt l) => (s2, .fail (chkFlt e dt l ea i true) 0)
              | (s2, .hold) => (s2, .wait)
              | (s2, .ok l) =>
                if k ≠ .swap && poisonHit s2 l.key col.size then (s2, .fail (chkFlt cECC (s2.eccDetail l.key col.size) 0 ea i true) 0)
                else
                  match if k = .swap then s2.co.plain l.key (leBytes col.size v) false (byX s2)
                    else s2.co.red l.key col.size k (BitVec.ofNat 64 v) (byX s2) with
                  | some co => ({ s2 with co := co }, .move (i + 1) 0 0)
                  | none => (s2, .wait)))) id (fun _ => 0) s))

/-! ## Selecting and gathering -/

/-- `csel` and its `cres` (R209); `x` the scalar. -/
def cselBody (c : CCtl) (k : VCond) (cc : Bool) (d a b : Nat) (s : State) (x : Word) : XOut :=
  let ca := s.sh.col a
  let cb := s.sh.col b
  let m := if cc then Nat.min ca.len cb.len else ca.len
  colPre c (if cc then [(a, true), (b, true)] else [(a, true)])
    (fun t => (t.col d).et == .n32 && (!cc || ca.et == cb.et)) s (fun s =>
    colGo c ca.len (m + 2) (fun (s : State) i _ =>
      if m ≤ i then (s, .stop)
      else
        withElem s ca i (fun u =>
          let fin (v : Nat) : State × CStep :=
            let (ok, fl) := cond k ca.et u v
            (s, if ok then .emit [i] (i + 1) 0 fl else .move (i + 1) 0 fl)
          if cc then withElem s cb i fin else fin (x.toNat % 2 ^ ca.et.bits))) s)

/-- `cselp` and its `cres` (R209). -/
def cselpBody (c : CCtl) (k : VCond) (d a b : Nat) (s : State) (x : Word) : XOut :=
  let ca := s.sh.col a
  let cb := s.sh.col b
  colPre c [(a, false), (b, true)] (fun t => (t.col d).et == .n32 && cb.et == .n32) s (fun s =>
    colGo c cb.len (cb.len + 2) (fun (s : State) i _ =>
      if cb.len ≤ i then (s, .stop)
      else
        withElem s cb i (fun p =>
          if ca.len ≤ p then (s, .fail { flt cALIGN 8 true with index := i } 0)
          else
            withElem s ca p (fun u =>
              let (ok, fl) := cond k ca.et u (x.toNat % 2 ^ ca.et.bits)
              (s, if ok then .emit [p] (i + 1) 0 fl else .move (i + 1) 0 fl)))) s)

/-- `cgath` and its `cres` (R210). -/
def cgathBody (c : CCtl) (d a b : Nat) (s : State) : XOut :=
  let ca := s.sh.col a
  let cb := s.sh.col b
  colPre c [(a, false), (b, true)] (fun t => (t.col d).et == ca.et && cb.et == .n32) s (fun s =>
    colGo c cb.len (cb.len + 2) (fun (s : State) i _ =>
      if cb.len ≤ i then (s, .stop)
      else
        withElem s cb i (fun p =>
          if ca.len ≤ p then (s, .fail { flt cALIGN 8 true with index := i } 0)
          else withElem s ca p (fun u => (s, .emit [u] (i + 1) 0 0)))) s)

/-! ## Keys -/

/-- A key column's element as its value (R195). -/
def Col.key (c : Col) (v : Nat) : Int := EType.ival c.et v

/-- The key at a position, checked against the one before it (R205). -/
def withKey (s : State) (c : Col) (p d : Nat) (k : Int → State × CStep) : State × CStep :=
  withElem s c p (fun v =>
    if p = 0 then k (c.key v)
    else withElem s c (p - 1) (fun u => if c.key v < c.key u then (s, .fail { flt cUNSORTED d true with index := p } 0) else k (c.key v)))

/-- The first position of a key column with a key (R212). -/
def firstKey (s : State) (c : Col) (v : Int) : Nat :=
  ((List.range c.len).find? (fun j => c.key (s.mem.readLe (colKey s c j) c.size) == v)).getD 0

/-- One step of `cjoin` at positions i and j (R212). A position is consumed, and its order checked, when the step compares it and does
not leave it for the next: the left one for L ≤ R, the right one for L ≥ R. Where both are and both decrease the left one is reported.
DESIGN CHOICE (log entry 130). -/
def joinStep (k : JoinK) (ca cb : Col) (s : State) (i j : Nat) : State × CStep :=
  if ca.len ≤ i then (s, .stop)
  else if cb.len ≤ j then
    if k ≠ .anti then (s, .stop) else withKey s ca i 0 (fun _ => (s, .emit [i] (i + 1) j 0))
  else
    withElem s ca i (fun u => withElem s cb j (fun v =>
      let l := ca.key u
      let r := cb.key v
      if l < r then withKey s ca i 0 (fun _ => (s, if k = .anti then .emit [i] (i + 1) j 0 else .move (i + 1) j 0))
      else if r < l then withKey s cb j 1 (fun _ => (s, .move i (j + 1) 0))
      else
        withKey s ca i 0 (fun _ => withKey s cb j 1 (fun _ =>
          match k with
          | .semi => (s, .emit [i] (i + 1) j 0)
          | .anti => (s, .move (i + 1) j 0)
          | .inner =>
            let at' (c : Col) (p : Nat) : Option Int := if p < c.len then some (c.key (s.mem.readLe (colKey s c p) c.size)) else none
            if at' cb (j + 1) = some l then (s, .emit [i, j] i (j + 1) 0)
            else if at' ca (i + 1) = some r then (s, .emit [i, j] (i + 1) (firstKey s cb r) 0)
            else (s, .emit [i, j] (i + 1) (j + 1) 0)))))

/-- `cjoin` and its `cres` (R212). -/
def cjoinBody (c : CCtl) (k : JoinK) (a b : Nat) (s : State) : XOut :=
  let ca := s.sh.col a
  let cb := s.sh.col b
  colPre c [(a, false), (b, false)] (fun t => ca.et.isInt && ca.et == cb.et && c.outs.all (fun o => (t.col o).et == .n32)) s (fun s =>
    colGo c ca.len ((ca.len + 1) * (cb.len + 2) + cb.len + 2) (joinStep k ca cb) s)

/-- `cgrp` and `cuniq` with their `cres` (R214): `pos`: positions, else keys. The output may be the input (R196), so the code before the
position a turn starts at is the one the unit holds. -/
def cgrpBody (c : CCtl) (pos : Bool) (d a : Nat) (s : State) : XOut :=
  let ca := s.sh.col a
  let start := (cbegin s.sh c 0).1
  let before (i : Nat) : Nat :=
    match s.sh.cprog with
    | some p => if i = start then p.held else s.mem.readLe (colKey s ca (i - 1)) ca.size
    | none => s.mem.readLe (colKey s ca (i - 1)) ca.size
  colPre c [(a, true)] (fun t => ca.et.isInt && (t.col d).et == (if pos then .n32 else ca.et)) s (fun s =>
    if ca.len = 0 then .done { s with sh := cempty s.sh c 0 }
    else
      colRun c 0 (ca.len + 2) (fun (s : State) i _ =>
        if ca.len ≤ i then (s, .stop)
        else
          withElem s ca i (fun v =>
            let out : CStep := .emit [if pos then i else v] (i + 1) 0 0
            if i = 0 then (s, out)
            else if ca.key v < ca.key (before i) then (s, .fail { flt cUNSORTED 2 true with index := i } 0)
            else if before i = v then (s, .move (i + 1) 0 0)
            else (s, out))) id before s)

/-! ## Aggregation -/

/-- The cd types `cagg` takes (R215). -/
def aggType (k : AggK) (st : Bool) (cd ca : EType) : Bool :=
  match k with
  | .sum => if ca.isInt then cd.isInt else cd == .f32 && !st
  | .min | .max => cd == ca && !st
  | .cnt => cd.isInt

/-- The value of a group from its elements' codes (R215). -/
def aggVal (k : AggK) (st : Bool) (cd ca : EType) (n : Nat) (vs : List Nat) : CF :=
  match k with
  | .cnt => intRes cd st (n : Int)
  | .sum =>
    if ca.isInt then intRes cd st ((vs.map (EType.ival ca)).sum)
    else
      match vs with
      | [] => (0, 0)
      | v :: r => r.foldl (fun acc x => let (c, f) := addF32 acc.1 (widenF (EType.fmt ca) x); (c, acc.2 ||| f)) (widenF (EType.fmt ca) v, 0)
  | .min | .max =>
    match vs with
    | [] => (0, 0)
    | v :: r =>
      (r.foldl (fun acc x =>
        if ca.isInt then
          (if k = .min then (if EType.ival ca x < EType.ival ca acc then x else acc) else (if EType.ival ca acc < EType.ival ca x then x else acc))
        else if k = .min then fMin (EType.fmt ca) acc x else fMax (EType.fmt ca) acc x)
        (if !ca.isInt && (EType.fmt ca).isNan v then (EType.fmt ca).nanCode else v), 0)

/-- `cagg` and its `cres` (R215). Of `.cnt`, which does not read ca, only cb is an input of the overlap and arena checks. DESIGN CHOICE (log
entry 118). -/
def caggBody (c : CCtl) (k : AggK) (st : Bool) (d a b : Nat) (s : State) : XOut :=
  let ca := s.sh.col a
  let cb := s.sh.col b
  let cd := (s.sh.col d).et
  colPre c (if k = .cnt then [(b, false)] else [(a, false), (b, false)]) (fun _ => cb.et == .n32 && aggType k st cd ca.et) s (fun s =>
    colGo c cb.len (cb.len + 2) (fun (s : State) g _ =>
      if cb.len ≤ g then (s, .stop)
      else
        let bad : State × CStep := (s, .fail { flt cUNSORTED 3 true with index := g } 0)
        withElem s cb g (fun lo =>
          let go (hi : Nat) : State × CStep :=
            if ca.len ≤ lo ∨ hi ≤ lo then bad
            else
              let ps := (List.range (hi - lo)).map (fun q => lo + q)
              match if k = .cnt then none else ps.find? (fun p => poisonHit s (colKey s ca p) ca.size) with
              | some p => (s, .fail (colEcc s ca p) 0)
              | none =>
                let vs := if k = .cnt then [] else ps.map (fun p => s.mem.readLe (colKey s ca p) ca.size)
                let (v, fl) := aggVal k st cd ca.et (hi - lo) vs
                (s, .emit [v] (g + 1) 0 fl)
          let upper : State × CStep :=
            if g + 1 < cb.len then withElem s cb (g + 1) (fun hi => if ca.len ≤ hi then bad else go hi) else go ca.len
          if g = 0 then upper else withElem s cb (g - 1) (fun pr => if lo ≤ pr then bad else upper))) s)

/-! ## Appending a vector -/

/-- `cvec.app` and its `cres` (R217): the active elements of va after the ones there, or from element 0 for a `cres`. The cursor is the next
element due (R200). -/
def cvecAppBody (c : CCtl) (h : Hd) (d : Nat) (a : Fin 64) (s : State) : XOut :=
  let t := s.sh
  let e := t.et
  let act := t.acts h
  colPre c [] (fun t => t.et.bits == (t.col d).et.bits) s (fun s =>
    match t.groupCheck [(a, e)] with
    | some x => xFault cALIGN x s
    | none =>
      if act = [] then .done { s with sh := (cempty t c (t.col d).len).vdone }
      else
        colRun c (t.col d).len (2 * t.vlen.toNat + 2) (fun s1 i _ =>
          match act.find? (fun k => decide (i ≤ k)) with
          | none => (s1, .stop)
          | some k =>
            if i < k then (s1, .move k 0 0)
            else if t.vpoisoned a.val k e then (s1, .fail (eccFlt k) 0)
            else (s1, .emit [t.elem a.val k e] (k + 1) 0 0)) Shuttle.vdone (fun _ => 0) s)

/-- `cvec.ld`, R217. -/
def execCvecLd (h : Hd) (d a b y : Fin 64) (st : State) : Out3 :=
  xIssue (.cvecLd h d a b y) st (fun s =>
    let t := s.sh
    let e := t.et
    let ca := t.col a.val
    let from' := (t.srcB b).toNat
    let c : CCtl := { op := 14, fn := 0, res := false, y := y, pp := Fin.ofNat 64 63, outs := [] }
    colPre c [(a.val, false)] (fun t => t.et.bits == (t.col a.val).et.bits) s (fun s =>
      match t.groupCheck [(d, e)] with
      | some x => xFault cALIGN x s
      | none =>
        let act := t.acts h
        let inCol (i : Nat) : Bool := decide (from' + i < ca.len)
        match act.find? (fun i => inCol i && poisonHit s (colKey s ca (from' + i)) ca.size) with
        | some i => .fault { colEcc s ca (from' + i) with index := i } s
        | none =>
          let val (i : Nat) : Nat := if inCol i then s.mem.readLe (colKey s ca (from' + i)) ca.size else t.fillAt.toNat % 2 ^ e.bits
          let t1 := t.vwrites d.val e (act.map (fun i => (i, val i)))
          .done { s with sh := (t1.xset y (BitVec.ofNat 64 (Nat.min t.vlen.toNat (ca.len - from')))).vdone }))

/-! ## Sorting -/

/-- A position put in its place among sorted ones: after equal keys that came before it (R213). -/
def sortPut (lt : Nat → Nat → Bool) (p : Nat) : List Nat → List Nat
  | [] => [p]
  | q :: r => if lt p q then p :: q :: r else q :: sortPut lt p r

/-- Positions sorted, stable. -/
def sortAll (lt : Nat → Nat → Bool) (l : List Nat) : List Nat := l.foldl (fun a p => sortPut lt p a) []

/-- The copy phase of `csort` (R213): values admitted in order, from a place on, and those left when the queue is full or the turn's share of
outputs is out. -/
def sortCopy (cd : Col) : State → Option Nat → Nat → List Nat → State × Nat × List Nat
  | s, _, k, [] => (s, k, [])
  | s, left, k, v :: r =>
    match if left = some 0 then none else emitTo s k [cd] [v] with
    | some s2 => sortCopy cd s2 (left.map Nat.pred) (k + 1) r
    | none => (s, k, v :: r)

/-- The copy phase goes on: done, or part-way with the values left, which nothing interrupts (R219). -/
def sortGo (cd : Col) (d : Nat) (y : Fin 64) (n k : Nat) (vals : List Nat) (s : State) : XOut :=
  match sortCopy cd s s.share k vals with
  | (s1, _, []) => .done { s1 with sh := ((s1.sh.setLen d n).xset y (BitVec.ofNat 64 n)).colDone }
  | (s1, k1, r) =>
    .part .other (if k1 = 0 then s1 else
      { s1 with sh := { s1.sh with cprog := some { outs := [], word := 0, i := 0, j := 0, k := k1, fl := 0, held := 0, vals := r } } })

/-- `csort`, R213. A turn that allows no element ends before the copy phase, with nothing of it kept (R219). -/
def execCsort (h : Hd) (p dn : Bool) (d a y : Fin 64) (st : State) : Out3 :=
  xIssue (.csort h p dn d a y) st (fun s =>
    let c : CCtl := { op := 8, fn := p.toNat + 2 * dn.toNat, res := false, y := y, pp := Fin.ofNat 64 63, outs := [d.val] }
    let ca := s.sh.col a.val
    let cd := s.sh.col d.val
    let n := ca.len
    match s.sh.cprog with
    | some q => sortGo cd d.val y n q.k q.vals s
    | none =>
      colPre c [(a.val, !p)] (fun _ => ca.et.isInt && cd.et == (if p then .n32 else ca.et)) s (fun s =>
        if cd.cap < n ∨ arenaScratch s.sh.arena < ceilDiv (n * (ca.et.bits + 32)) 512 * 64 then xFault cCOLCAP 1 s
        else if n = 0 then .done { s with sh := cempty s.sh c 0 }
        else
          let s := { s with sh := s.sh.setCur (s.sh.curHi % 2 ^ 63) s.sh.curLo }
          match (List.range n).find? (fun i => poisonHit s (colKey s ca i) ca.size) with
          | some i => .fault (colEcc s ca i) s
          | none =>
            let code (i : Nat) : Nat := s.mem.readLe (colKey s ca i) ca.size
            let lt (x z : Nat) : Bool := if dn then decide (ca.key (code z) < ca.key (code x)) else decide (ca.key (code x) < ca.key (code z))
            let order := sortAll lt (List.range n)
            let top := arenaBase s.sh.arena + arenaSize s.sh.arena
            let s1 := havoc s [(nearKey s.co.id (top - arenaScratch s.sh.arena), nearKey s.co.id top)]
            if s.share = some 0 then .part .other s1 else sortGo cd d.val y n 0 (if p then order else order.map code) s1))

/-! ## The instructions that stop at capacity -/

/-- The control of an instruction that stops at capacity. -/
def cctl (op fn : Nat) (res : Bool) (y pp : Fin 64) (outs : List Nat) : CCtl := { op := op, fn := fn, res := res, y := y, pp := pp, outs := outs }

/-- `cld`, R208. -/
def execCld (h : Hd) (d a b y pp : Fin 64) (st : State) : Out3 :=
  xIssue (.cld h d a b y pp) st (fun s => cldBody (cctl 2 0 false y pp [d.val]) d.val (s.sh.srcA a).toNat (s.sh.srcB b).toNat s)

/-- The fn of `csel` (R196). -/
def cselFn (k : VCond) (cc : Bool) : Nat := k.code + 8 * cc.toNat

/-- `csel`, R209. -/
def execCsel (h : Hd) (k : VCond) (cc : Bool) (d a b y pp : Fin 64) (st : State) : Out3 :=
  xIssue (.csel h k cc d a b y pp) st (fun s =>
    cselBody (cctl 3 (cselFn k cc) false y pp [d.val]) k cc d.val a.val b.val s (s.sh.srcB b))

/-- `cselp`, R209. -/
def execCselp (h : Hd) (k : VCond) (d a b e y pp : Fin 64) (st : State) : Out3 :=
  xIssue (.cselp h k d a b e y pp) st (fun s => cselpBody (cctl 4 k.code false y pp [d.val]) k d.val a.val b.val s (s.sh.srcC e))

/-- `cgath`, R210. -/
def execCgath (h : Hd) (d a b y pp : Fin 64) (st : State) : Out3 :=
  xIssue (.cgath h d a b y pp) st (fun s => cgathBody (cctl 5 0 false y pp [d.val]) d.val a.val b.val s)

/-- The outputs of `cjoin`: a pair for the inner join (R196). -/
def joinOuts (k : JoinK) (d : Nat) : List Nat := if k = .inner then [d, d + 1] else [d]

/-- `cjoin`, R212. -/
def execCjoin (h : Hd) (k : JoinK) (d a b y pp : Fin 64) (st : State) : Out3 :=
  xIssue (.cjoin h k d a b y pp) st (fun s => cjoinBody (cctl 7 k.code false y pp (joinOuts k d.val)) k a.val b.val s)

/-- `cgrp`, R214. -/
def execCgrp (h : Hd) (d a y pp : Fin 64) (st : State) : Out3 :=
  xIssue (.cgrp h d a y pp) st (fun s => cgrpBody (cctl 9 0 false y pp [d.val]) true d.val a.val s)

/-- `cagg`, R215. -/
def execCagg (h : Hd) (k : AggK) (sat : Bool) (d a b y pp : Fin 64) (st : State) : Out3 :=
  xIssue (.cagg h k sat d a b y pp) st (fun s =>
    caggBody (cctl 10 (k.code + 8 * sat.toNat) false y pp [d.val]) k sat d.val a.val b.val s)

/-- `cuniq`, R214. -/
def execCuniq (h : Hd) (p : Bool) (d a y pp : Fin 64) (st : State) : Out3 :=
  xIssue (.cuniq h p d a y pp) st (fun s => cgrpBody (cctl 11 p.toNat false y pp [d.val]) p d.val a.val s)

/-- `cvec.app`, R217. -/
def execCvecApp (h : Hd) (d a y pp : Fin 64) (st : State) : Out3 :=
  xIssue (.cvecApp h d a y pp) st (fun s => cvecAppBody (cctl 14 1 false y pp [d.val]) h d.val a s)

/-- `cres`, R202: the instruction its fn names, from the stop cursor. -/
def execCres (h : Hd) (o f : BitVec 4) (d a b e y pp : Fin 64) (st : State) : Out3 :=
  xIssue (.cres h o f d a b e y pp) st (fun s =>
    let k := f.toNat
    let c (outs : List Nat) : CCtl := cctl o.toNat k true y pp outs
    let one := c [d.val]
    match o.toNat with
    | 2 => cldBody one d.val (s.sh.srcA a).toNat (s.sh.srcB b).toNat s
    | 3 => cselBody one ((VCond.ofCode (k % 8)).getD .eq) (bitAt k 3) d.val a.val b.val s (s.sh.srcB b)
    | 4 => cselpBody one ((VCond.ofCode k).getD .eq) d.val a.val b.val s (s.sh.srcC e)
    | 5 => cgathBody one d.val a.val b.val s
    | 7 =>
      let kind := (JoinK.ofCode k).getD .inner
      cjoinBody (c (joinOuts kind d.val)) kind a.val b.val s
    | 9 => cgrpBody one true d.val a.val s
    | 10 => caggBody one ((AggK.ofCode (k % 4)).getD .sum) (bitAt k 3) d.val a.val b.val s
    | 11 => cgrpBody one (bitAt k 0) d.val a.val s
    | 14 => cvecAppBody one h d.val a s
    | _ => xFault cCOLCAP 5 s)

/-! ## The cursor -/

/-- `ccur.clr`, R216. -/
def execCcurClr (h : Hd) (st : State) : Out3 := xPlain (.ccurClr h) st (fun t => (t.setCur t.curHi 0).wash [9])

/-- `ccur.rd`, R216. -/
def execCcurRd (h : Hd) (d : Fin 64) (st : State) : Out3 := xPlain (.ccurRd h d) st (fun t => t.xset d (BitVec.ofNat 64 t.curLo))

/-- `ccur.wr`, R216: reserved bits are ignored (R200). -/
def execCcurWr (h : Hd) (a : Fin 64) (st : State) : Out3 :=
  xPlain (.ccurWr h a) st (fun t => { t.wash [9] with ccur := BitVec.ofNat 128 (t.curHi * 2 ^ 64 + (t.srcA a).toNat) &&& ccurMask })

end Sys2Proof.Machine
end

