-- ==== Sys2Proof/Machine/MicroOps.lean ====
section
/-! DEFINITION. The micro-ops of a heddle program (R82, R233, R235, R236, R279 to R282, R393): each acts on the command whose
micro-op the core's heddle executes. -/

namespace Sys2Proof.Machine

/-- What a micro-op comes to: the command goes on at the next word, it waits, or it ends with an error. -/
inductive MOut where
  | next (s : State) (c : Cmd)
  | wait (s : State)
  | fail (s : State) (err : Nat) (f : Option Flt)

/-- The word after one, through the loop it may close (R235): a body is run its rounds over. -/
def Cmd.advance (c : Cmd) : Cmd :=
  let p := c.pc + 1
  match c.loops with
  | [] => { c with pc := p }
  | (st, en, left) :: r =>
    if p = en then (if left = 0 then { c with pc := p, loops := r } else { c with pc := st, loops := (st, en, left - 1) :: r })
    else { c with pc := p }

/-- A micro-op of the command in the heddle's slot of the core in focus. A slot with no program running does nothing. -/
def micro (s : State) (body : State → Nat → Cmd → MOut) : Out3 :=
  let slot := s.co.hslot
  match s.cmd? s.co.id slot with
  | none => .next s
  | some c =>
    if !c.run || c.kind != .xfm || (c.stop && !c.writing) then .next s
    else
      match body s slot c with
      | .next s1 c1 => .next (s1.setCmd s.co.id slot c1.advance)
      | .wait s1 => .next s1
      | .fail s1 err f => .next (endCmdErr s1 s.co.id slot err c.chunkNo (f.map (fun g => { g with index := c.chunkNo })))

/-- A staging buffer (R233). -/
def Cmd.buf (c : Cmd) (n : Fin 8) : List Byte := c.bufs.getD n.val []
def Cmd.pois (c : Cmd) (n : Fin 8) : Bool := c.bpois.getD n.val false
def Cmd.form (c : Cmd) (n : Fin 8) : Option Nat := c.runFmt.getD n.val none
def Cmd.shorts (c : Cmd) (n : Fin 8) : List Nat := aget [] c.short n.val

/-- A buffer written: err 10 when it would exceed 16,384 bytes (R236); `short`: the places of its runs of fewer than 8 elements. -/
def putBuf (s : State) (c : Cmd) (d : Fin 8) (bs : List Byte) (p : Bool) (form : Option Nat) (short : List Nat := []) : MOut :=
  if 16384 < bs.length then .fail s 10 none
  else .next s { c with bufs := c.bufs.set d.val bs, bpois := c.bpois.set d.val p, runFmt := c.runFmt.set d.val form,
                        short := if short = [] then adel c.short d.val else aput c.short d.val short }

/-- Words of the shape record (R232). -/
def Cmd.rowBytes (c : Cmd) : Nat := bitsAt (c.shape.getD 4 0).toNat 32 32
def Cmd.rows (c : Cmd) : Nat := bitsAt (c.shape.getD 4 0).toNat 0 32

/-- The address of a row: base + row × stride; with a stride of 4,160 on a compressed page, the slot that many steps on (R279). -/
def rowAddr (s : State) (pid : Nat) (acc : Acc) (base stride : Word) (row : Nat) : State × Except (Nat × Nat × Nat × Nat) Nat :=
  let plain := (base + BitVec.ofNat 64 row * stride).toNat
  if stride = 4160 ∧ windowOf base.toNat = .xlat then
    match translate s pid base.toNat acc with
    | (s1, .ok (some t)) => if t.cmp then slotStep pid acc (row + 1) s1 base.toNat row else (s1, .ok plain)
    | (s1, .ok none) => (s1, .ok plain)
    | (s1, .error (c, d, l)) => (s1, .error (c, d, l, base.toNat))
  else (s, .ok plain)

/-- The failure of a check of a program's access (R224, R225). -/
def failAcc (s : State) (c d l ea : Nat) : MOut := .fail s (errOf c) (some (chkFlt c d l ea 0 false))

/-- Source rows read one after another. -/
def readRows (core : Nat) (c : Cmd) : Nat → Nat → State → State × Got
  | 0, _, s => (s, .ok [] false)
  | n + 1, row, s =>
    match rowAddr s c.pid .read (c.shape.getD 0 0) (c.shape.getD 2 0) row with
    | (s1, .error (e, d, l, ea)) => (s1, .bad e d l ea)
    | (s1, .ok a) =>
      if xAhead s1 c true a c.rowBytes then (s1, .wait)
      else
        match engRead core (c.who core) c.recId c.pos (c.rowBytes / 64 + 2) s1 a c.rowBytes with
        | (s2, .ok bs p) =>
          match readRows core c n (row + 1) s2 with
          | (s3, .ok r q) => (s3, .ok (bs ++ r) (p || q))
          | r => r
        | r => r

/-- Heddle bytes counted (R245). -/
def countHed (s : State) (core n : Nat) : State := s.setCore { s.core core with hedBytes := (s.core core).hedBytes + n }

/-- `rd`, R235. -/
def execHrd (d : Fin 8) (i : BitVec 12) (s : State) : Out3 :=
  micro s (fun s _ c =>
    let k := Nat.min (i.toNat + 1) (c.rows - c.r)
    if 16384 < k * c.rowBytes then .fail s 10 none
    else
      match readRows s.co.id c k c.r s with
      | (s1, .bad e dt l ea) => failAcc s1 e dt l ea
      | (s1, .wait) => .wait s1
      | (s1, .ok bs p) => putBuf (countHed s1 s1.co.id bs.length) { c with r := c.r + k } d bs p none)

/-- Elements of a format code in a buffer's bytes, low nibble first (R42, R83); none for a length that is no whole number. -/
def fmtBits (f : Nat) : Nat := if 14 ≤ f then 4 else ((EType.ofCode f).map EType.bits).getD 8
def fmtKind (f : Nat) : NKind := if f = 14 then .int true 4 else if f = 15 then .int false 4 else EType.kind ((EType.ofCode f).getD .i8)
def elemsOf (f : Nat) (bs : List Byte) : Option (List Nat) :=
  let b := fmtBits f
  if b = 4 then some (bs.flatMap (fun x => [x.toNat % 16, x.toNat / 16]))
  else if bs.length % (b / 8) ≠ 0 then none
  else some ((cutN (b / 8) bs.length bs).map leNat)

/-- Codes packed as bytes; a last single nibble has zero above it. -/
def packNib : List Nat → List Byte
  | [] => []
  | [a] => [BitVec.ofNat 8 (a % 16)]
  | a :: b :: r => BitVec.ofNat 8 (a % 16 + 16 * (b % 16)) :: packNib r
def packElems (f : Nat) (l : List Nat) : List Byte := if fmtBits f = 4 then packNib l else l.flatMap (leBytes (fmtBits f / 8))

/-- NUMOVF of a conversion under the trap policy (R58, R236). -/
def numOvf (i : Nat) : Option Flt := some (flt cNUMOVF i false)

/-- Values converted in order (R60); the index of the first that overflows under the trap policy. -/
def convAll (k : NKind) (rm : Rm) (ov : Ov) (i : Nat) : List FVal → Except Nat (List Nat)
  | [] => .ok []
  | x :: r =>
    let c := k.convert rm ov false x
    if c.trap then .error i
    else
      match convAll k rm ov (i + 1) r with
      | .ok l => .ok (c.code :: l)
      | .error e => .error e

/-- `cvt`, R235. -/
def execHcvt (d sa : Fin 8) (f : BitVec 5) (rm : Rm) (ov : Ov) (src : BitVec 5) (s : State) : Out3 :=
  micro s (fun s _ c =>
    match elemsOf src.toNat (c.buf sa) with
    | none => .fail s 10 none
    | some l =>
      match convAll (fmtKind f.toNat) rm ov 0 (l.map (fmtKind src.toNat).val) with
      | .error i => .fail s 6 (numOvf i)
      | .ok r => putBuf s c d (packElems f.toNat r) (c.pois sa) none)

/-! ## Framing -/

/-- The block code, element limit and matrix limit of a format code (R49, R52). -/
def blkCode (f : Nat) : Nat := if f = 13 then 1 else if f = 11 then 2 else if f = 12 then 3 else if f = 0 then 4 else 5
def blkMax (f : Nat) (mx : Bool) : Nat :=
  let m := frameMax (blkCode f)
  if mx && m == 60 then 56 else if mx && m == 30 then 24 else m
def fmtOfBlk (b : Nat) : Nat := if b = 1 then 13 else if b = 2 then 11 else if b = 3 then 12 else if b = 4 then 0 else 9

/-- A framed block: its codes, coarse scale, and micro-scales (FP4 only; R48, R50). -/
def mkBlock (f coarse : Nat) (micro codes : List Nat) : List Byte :=
  let head := [blkCode f, coarse, codes.length, 0].map (BitVec.ofNat 8)
  padTo 64 (if f = 13 then padTo 16 (head ++ micro.map (BitVec.ofNat 8)) ++ packNib codes else head ++ packElems f codes)

/-- A list cut into pieces of a length. -/
def cutL {α : Type} (n : Nat) : Nat → List α → List (List α)
  | 0, _ => []
  | k + 1, l => if l.isEmpty then [] else l.take n :: cutL n k (l.drop n)

/-- `frm`, R235. -/
def execHfrm (d sa : Fin 8) (f : BitVec 5) (co : BitVec 8) (mx : Bool) (s : State) : Out3 :=
  micro s (fun s _ c =>
    match elemsOf f.toNat (c.buf sa) with
    | none => .fail s 10 none
    | some l =>
      let out := (cutL (blkMax f.toNat mx) l.length l).flatMap (fun p =>
        mkBlock f.toNat co.toNat (List.replicate (ceilDiv p.length 8) 0x90) p)
      putBuf s c d out (c.pois sa) none)

/-- The magnitude of a value. -/
def FVal.mag : FVal → FVal
  | .fin _ m e => .fin false m e
  | .inf _ => .inf false
  | v => v

/-- The greatest of some magnitudes, 0 for none. -/
def maxMag (l : List FVal) : FVal := l.foldl (fun a x => if a.lt x.mag then x.mag else a) (.fin false 0 0)

/-- a ≤ b × c for values that are no NaN. -/
def leProd (a b c : FVal) : Bool := !((b.mul c).1.lt a)

/-- The largest finite magnitude of a block's element format, 127 for INT8 (R235). -/
def qMax (f : Nat) : FVal := if f = 0 then .fin false 127 0 else match fmtKind f with
  | .flt g => g.val g.maxCode
  | .int _ _ => .fin false 127 0

/-- The least E5M3 code whose value reaches a / Q, or 0xFE (R235). -/
def coarseFor (f : Nat) (a : FVal) : Nat :=
  ((List.range 254).find? (fun k => leProd a (qMax f) (fe5m3.val (k + 1)))).map (· + 1) |>.getD 0xFE

/-- The E3M5 codes in rising value, each with m ≥ 16 where possible (R235). -/
def microCodes : List Nat := (List.range 32).drop 1 ++ ((List.range 8).drop 1).flatMap (fun e => ((List.range 32).drop 16).map (fun m => 32 * e + m))

/-- The micro-scale of a run of magnitude a under a coarse value: the least that reaches a / (6 × coarse), 0xFF when none does; a run
of zeros has 0x00 (R235). -/
def microFor (a coarse : FVal) : Nat :=
  if a.isZero then 0
  else ((microCodes.find? (fun u => leProd a ((FVal.fin false 6 0).mul coarse).1 (microVal u))).getD 0xFF)

/-- x divided by a positive finite scale and converted (R235); the scale of a run of zeros counts as 1. -/
def scaleConv (k : NKind) (rm : Rm) (ov : Ov) (x scale : FVal) : Conv :=
  match x, scale with
  | .fin neg m e, .fin _ n g =>
    if n = 0 then k.convert rm ov true x
    else
      let (a, b) := frac m (e - g)
      k.convFrac rm ov true neg a (b * n)
  | _, _ => k.convert rm ov true x

/-- One block of `qnt` (R235): the block, or the place of its first element that overflows under the trap policy. -/
def quantBlock (f : Nat) (rm : Rm) (ov : Ov) (xs : List FVal) : Except Nat (List Byte) :=
  let runs := cutL 8 xs.length xs
  let zeros := xs.map (fun _ => 0)
  if xs.any (· == .nan) then .ok (mkBlock f 0xFF (runs.map (fun _ => 0)) zeros)
  else if (maxMag xs).isZero then .ok (mkBlock f 0 (runs.map (fun _ => 0)) zeros)
  else
    let coarse := coarseFor f (maxMag xs)
    let cv := fe5m3.val coarse
    let us := if f = 13 then runs.map (fun r => microFor (maxMag r) cv) else []
    let out := xs.mapIdx (fun i x =>
      scaleConv (fmtKind f) rm ov x (if f = 13 then (cv.mul (microVal (us.getD (i / 8) 0))).1 else cv))
    match out.findIdx? (fun c => c.trap) with
    | some i => .error i
    | none => .ok (mkBlock f (if out.any (fun c => c.blk) then 0xFF else coarse) us (out.map (fun c => c.code)))

/-- The blocks of a row; the index of the first element that overflows under the trap policy. -/
def quantRow (f : Nat) (rm : Rm) (ov : Ov) (i : Nat) : List (List FVal) → Except Nat (List Byte)
  | [] => .ok []
  | b :: r =>
    match quantBlock f rm ov b with
    | .error k => .error (i + k)
    | .ok bs =>
      match quantRow f rm ov (i + b.length) r with
      | .ok l => .ok (bs ++ l)
      | .error e => .error e

/-- `qnt`, R235. -/
def execHqnt (d sa : Fin 8) (f : BitVec 5) (rm : Rm) (ov : Ov) (src : BitVec 5) (mx : Bool) (s : State) : Out3 :=
  micro s (fun s _ c =>
    match elemsOf src.toNat (c.buf sa) with
    | none => .fail s 10 none
    | some l =>
      match quantRow f.toNat rm ov 0 (cutL (blkMax f.toNat mx) l.length (l.map (fmtKind src.toNat).val)) with
      | .error i => .fail s 6 (numOvf i)
      | .ok bs => putBuf s c d bs (c.pois sa) none)

/-- The value of element k of a well-formed block (R51). -/
def blockVal (b : List Byte) (k : Nat) : FVal :=
  let x := (fmtKind (fmtOfBlk (b.getD 0 0).toNat)).val (blockCode b k)
  match fe5m3.val (b.getD 1 0).toNat with
  | .nan => .nan
  | cv => (x.mul (cv.mul (microVal (blockMicro b (k / 8)))).1).1

/-- Valid elements of a block. -/
def blockN (b : List Byte) : Nat := (b.getD 2 0).toNat

/-- Bytes of a run of a format in run form (R235). -/
def runBytes (f : Nat) : Nat := fmtBits f + 2

/-- Places of the runs of some blocks that a block's end leaves with fewer than 8 elements, from one place on (R52). -/
def shortRuns : Nat → List (List Byte) → List Nat
  | _, [] => []
  | k, b :: r =>
    let n := ceilDiv (blockN b) 8
    (if blockN b % 8 = 0 then [] else [k + n - 1]) ++ shortRuns (k + n) r

/-- `unf`, R235, R50 to R52. -/
def execHunf (d sa : Fin 8) (f : BitVec 5) (rm : Rm) (ov : Ov) (run : Bool) (s : State) : Out3 :=
  micro s (fun s _ c =>
    let bs := c.buf sa
    let blocks := cutN 64 bs.length bs
    if bs.length % 64 ≠ 0 then .fail s 10 none
    else if blocks.any blockBad then .fail s 3 (some (flt cINTEG 2 false))
    else if run then
      let fs := (blocks.map (fun b => fmtOfBlk (b.getD 0 0).toNat)).eraseDups
      if 1 < fs.length then .fail s 10 none
      else
        let g := fs.headD 0
        let out := blocks.flatMap (fun b => (blockRuns b (blockN b) false).flatMap (fun r => packElems g r.codes ++ leBytes 2 r.scale))
        putBuf s c d out (c.pois sa) (if blocks = [] then none else some g) (shortRuns 0 blocks)
    else
      match convAll (fmtKind f.toNat) rm ov 0 (blocks.flatMap (fun b => (List.range (blockN b)).map (blockVal b))) with
      | .error i => .fail s 6 (numOvf i)
      | .ok r => putBuf s c d (packElems f.toNat r) (c.pois sa) none)

/-! ## Moving elements -/

/-- `xps`, R235: rows of i + 1 elements transposed. -/
def execHxps (d sa : Fin 8) (f : BitVec 5) (i : BitVec 12) (s : State) : Out3 :=
  micro s (fun s _ c =>
    let n := i.toNat + 1
    match elemsOf f.toNat (c.buf sa) with
    | none => .fail s 10 none
    | some l =>
      if l.length % n ≠ 0 then .fail s 10 none
      else
        let rows := cutL n l.length l
        let out := (List.range n).flatMap (fun j => rows.map (fun r => r.getD j 0))
        putBuf s c d (packElems f.toNat out) (c.pois sa) none)

/-- `prm`, R235: the elements by their place modulo i + 1. -/
def execHprm (d sa : Fin 8) (f : BitVec 5) (i : BitVec 12) (s : State) : Out3 :=
  micro s (fun s _ c =>
    let p := i.toNat + 1
    match elemsOf f.toNat (c.buf sa) with
    | none => .fail s 10 none
    | some l =>
      let out := (List.range p).flatMap (fun j => (cutL p l.length l).flatMap (fun r => (r.drop j).take 1))
      putBuf s c d (packElems f.toNat out) (c.pois sa) none)

/-- The format code of a buffer that holds runs of two formats: that of no run, so that a `wr` of kind 1 fails (R235, R236). -/
def mixedRuns : Nat := 31

/-- The run form of a buffer b, padded to e, with x appended (R235): runs stay runs; padding between or plain codes beside runs leave none. -/
def pakForm (b e x : List Byte) (f g : Option Nat) : Option Nat :=
  if e.length ≠ b.length then none
  else if x = [] then f
  else if b = [] then g
  else match f, g with
    | some i, some j => some (if i = j then i else mixedRuns)
    | _, _ => none

/-- `pak`, R235. -/
def execHpak (d sa : Fin 8) (pad : Bool) (s : State) : Out3 :=
  micro s (fun s _ c =>
    let b := c.buf d
    let e := if pad then padTo (ceilDiv b.length 64 * 64) b else b
    let form := pakForm b e (c.buf sa) (c.form d) (c.form sa)
    let short := match form with
      | some f => c.shorts d ++ (c.shorts sa).map (· + e.length / runBytes f)
      | none => []
    putBuf s c d (e ++ c.buf sa) (c.pois d || c.pois sa) form short)

/-- `fold`, R235, R279 to R281. -/
def execHfold (d sa : Fin 8) (s : State) : Out3 :=
  micro s (fun s _ c =>
    let b := c.buf sa
    let e := padTo (ceilDiv b.length 64 * 64) b
    let units := (cutN 4096 e.length e).map (padTo 4096)
    putBuf s c d (units.flatMap (fun u => padTo foldSlot (foldEnc u))) (c.pois sa) none)

/-- `unfold`, R235, R282. -/
def execHunfold (d sa : Fin 8) (s : State) : Out3 :=
  micro s (fun s _ c =>
    let b := c.buf sa
    if b.length % foldSlot ≠ 0 then .fail s 10 none
    else
      match (cutN foldSlot b.length b).foldr (fun u acc => (foldDecode u).bind (fun r => acc.map (fun l => r.1 ++ l))) (some []) with
      | none => .fail s 3 (some (flt cINTEG 5 false))
      | some out => putBuf s c d out (c.pois sa) none)

/-- `crc`, R235, R228: folded when the command ends without error. -/
def execHcrc (sa : Fin 8) (s : State) : Out3 :=
  micro s (fun s _ c => .next s { c with gather := aput c.gather 0 (aget [] c.gather 0 ++ c.buf sa) })

/-- Digests compared unit by unit from a leaf on (R235): a failed read, a wait, a mismatch, or the number compared. -/
def hashRun (core : Nat) (c : Cmd) (base : Nat) : Nat → State → List (List Byte) → MOut
  | h, s, [] => .next s { c with h := h }
  | h, s, u :: r =>
    let a := (base + 32 * h) % 2 ^ 64
    if xAhead s c true a 32 then .wait s
    else
      match engRead core (c.who core) c.recId c.pos 3 s a 32 with
      | (s1, .bad e d l ea) => failAcc s1 e d l ea
      | (s1, .wait) => .wait s1
      | (s1, .ok dg _) => if sha3 u = dg then hashRun core c base (h + 1) s1 r else .fail s1 3 (some (flt cINTEG 1 false))

/-- `hsh`, R235. -/
def execHhsh (sa : Fin 8) (s : State) : Out3 :=
  micro s (fun s _ c =>
    let b := c.buf sa
    let base := (c.shape.getD 6 0).toNat
    if base = 0 ∨ b.length % 4096 ≠ 0 then .fail s 10 none
    else hashRun s.co.id c base c.h s (cutN 4096 b.length b))

/-! ## Writing -/

/-- A `wr` that has written everything (R235): w goes on, the chunk is counted. -/
def wrDone (s : State) (core : Nat) (c : Cmd) (k n : Nat) (wrote : List (Nat × Nat × Nat)) : MOut :=
  .next (countHed s core n) { c with w := c.w + k, chunkNo := c.chunkNo + 1, moved := aput c.moved c.chunkNo n, wrAt := 0, wrTo := none, wrote := wrote }

/-- The operand FIFO bound to a tag when a `wr` executes (R182, R393). -/
def fifoOf (co : Core) (tag : Nat) : Option Bool :=
  if co.fa.src = .heddle ∧ co.fa.tag = tag then some false
  else if co.fb.src = .heddle ∧ co.fb.tag = tag then some true else none

/-- A row as runs: in run form, its runs; else codes of the bound type at scale 1.0 (R235). None for a length that is not whole. -/
def rowRuns (form : Option Nat) (ty : MType) (p : Bool) (row : List Byte) : Option (List FRun) :=
  match form with
  | some f =>
    if row.length % runBytes f ≠ 0 then none
    else some ((cutN (runBytes f) row.length row).map (fun r =>
      { codes := (elemsOf f (r.take (fmtBits f))).getD [], scale := leNat (r.drop (fmtBits f)), poison := p }))
  | none => (elemsOf ty.etype.code row).map (fun l => runsOf l (fun _ => scaleOne) p)

/-- The FIFO bound to a command's tag is saved with its shuttle: a delivery waits (R178, R316). -/
def fifoSaved (s : State) (c : Cmd) : Bool :=
  (s.rec? c.recId).any (fun r => r.kept.any (fun k => k.owned && k.tags.contains c.tag && (s.live? r.id k.pos).isNone))

/-- The core and the FIFO a `wr` delivers to: the one it is held at, or the one bound to its tag (R393), on the core of its record, on which
that goes on after a resumption (R316). A record's command feeds no other record's FIFO. DEDUCED (log entry 127). -/
def fifoFor (s : State) (c : Cmd) : Option (Nat × Bool) :=
  let on := if s.co.recId = some c.recId then some s.co.id
    else (s.rec? c.recId).bind (fun r => if (s.core r.core).recId = some r.id then some r.core else none)
  on.bind (fun k => (if c.wrTo.isSome then c.wrTo else fifoOf (s.core k) c.tag).map (fun fb => (k, fb)))

/-- Runs put into a FIFO of a core: an instruction of the engine's owner that waited for them tries again (R28). -/
def pushRuns (s : State) (k : Nat) (fb : Bool) (runs : List FRun) : State :=
  let c := s.core k
  let q := c.fifo fb
  let s1 := s.setCore (c.setFifo fb { q with runs := q.runs ++ runs })
  match c.owner with
  | none => s1
  | some p =>
    let t := s1.shuttle { core := k, pos := p }
    if t.xWait = .fifo fb then s1.setShuttle k { t with xWait := .none } else s1

/-- A run that a block's end has left with fewer than 8 elements stands before the last of a row (R52); `per` runs a row. It is malformed
where the rows are known, at the `wr`. DEDUCED (log entry 106). -/
def shortInside (short : List Nat) (per : Nat) : Bool := short.any (fun k => (k + 1) % per != 0)

/-- A `wr` of kind 1 (R235, R236, R393): the rows' runs go into the FIFO as far as it has room, then it waits. -/
def wrFifo (s : State) (c : Cmd) (rows : List (List Byte)) (form : Option Nat) (p : Bool) (short : List Nat) : MOut :=
  if fifoSaved s c then .wait s
  else
    match fifoFor s c with
    | none => .fail s 10 none
    | some (k, fb) =>
      let q := (s.core k).fifo fb
      if form.any (fun f => f != q.ty.etype.code) then .fail s 3 (some (flt cINTEG 3 false))
      else
        let rr := rows.map (rowRuns form q.ty p)
        if rr.any Option.isNone then .fail s 10 none
        else if form.any (fun f => shortInside short ((rows.headD []).length / runBytes f)) then .fail s 3 (some (flt cINTEG 2 false))
        else
          let runs := (rr.filterMap id).flatten
          let rest := runs.drop c.wrAt
          let room := fifoCap fb - q.runs.length
          let s1 := pushRuns s k fb (rest.take room)
          if rest.length ≤ room then wrDone s1 s.co.id c rows.length (rows.map List.length).sum c.wrote
          else .wait (s1.setCmd s.co.id s.co.hslot { c with wrAt := c.wrAt + room, wrTo := some fb })

/-- A stretch cut into line parts. -/
def lineParts : Nat → Nat → List Byte → List (Nat × List Byte)
  | 0, _, _ => []
  | n + 1, a, bs =>
    if bs = [] then []
    else
      let k := 64 - a % 64
      (a % 2 ^ 64, bs.take k) :: lineParts n (a + k) (bs.drop k)

/-- Line parts with one more: parts of a line that touch become one, whichever order their rows come in, the newer bytes over the older (R278). -/
def addPart : List (Nat × List Byte) → Nat × List Byte → List (Nat × List Byte)
  | [], q => [q]
  | (a, bs) :: r, (b, cs) =>
    if a / 64 = b / 64 ∧ b ≤ a + bs.length ∧ a ≤ b + cs.length then
      let lo := Nat.min a b
      addPart r (lo, (List.range (Nat.max (a + bs.length) (b + cs.length) - lo)).map (fun k =>
        if b ≤ lo + k ∧ lo + k < b + cs.length then cs.getD (lo + k - b) 0 else bs.getD (lo + k - a) 0))
    else (a, bs) :: addPart r (b, cs)

/-- Addresses of the destination rows from one on. -/
def destRows (c : Cmd) : Nat → State → List (List Byte) → State × Except (Nat × Nat × Nat × Nat) (List (Nat × List Byte))
  | _, s, [] => (s, .ok [])
  | row, s, bs :: r =>
    match rowAddr s c.pid .write (c.shape.getD 1 0) (c.shape.getD 3 0) row with
    | (s1, .error e) => (s1, .error e)
    | (s1, .ok a) =>
      match destRows c (row + 1) s1 r with
      | (s2, .ok l) => (s2, .ok ((a, bs) :: l))
      | r => r

/-- Every line part passes the checks of a write (R224, R236), or what stops the first that does not. -/
def checkParts (w : Who) : State → List (Nat × List Byte) → State × Put
  | s, [] => (s, .ok 0)
  | s, (a, bs) :: r =>
    match engCheck w s a bs.length with
    | (s1, .ok _) => checkParts w s1 r
    | e => e

/-- Line parts admitted from one on: those admitted with their memory addresses, and what stopped it. -/
def putParts (core slot chunk : Nat) (w : Who) (p : Bool) : State → List (Nat × List Byte) → State × Nat × List (Nat × Nat × Nat) × Put
  | s, [] => (s, 0, [], .ok 0)
  | s, (a, bs) :: r =>
    match engWrite core slot chunk w s a bs p with
    | (s1, .ok key) =>
      let (s2, n, l, e) := putParts core slot chunk w p s1 r
      (s2, n + 1, (chunk, key, bs.length) :: l, e)
    | (s1, e) => (s1, 0, [], e)

/-- A `wr` of kind 0 (R235, R236): every part is checked before the first is admitted; a full queue makes it wait. -/
def wrMem (s : State) (slot : Nat) (c : Cmd) (rows : List (List Byte)) (p : Bool) : MOut :=
  match destRows c c.w s rows with
  | (s1, .error (e, d, l, ea)) => failAcc s1 e d l ea
  | (s1, .ok dst) =>
    let parts := (dst.flatMap (fun r => lineParts (r.2.length / 64 + 2) r.1 r.2)).foldl addPart []
    if parts.any (fun q => xAhead s1 c false q.1 q.2.length) then .wait s1
    else
      match if c.wrAt = 0 then checkParts (c.who s.co.id) s1 parts else (s1, .ok 0) with
      | (s2, .bad e d l ea) => failAcc s2 e d l ea
      | (s2, .wait) => .wait s2
      | (s2, .ok _) =>
        match putParts s.co.id slot c.chunkNo (c.who s.co.id) p s2 (parts.drop c.wrAt) with
        | (s3, _, l, .ok _) => wrDone s3 s.co.id c rows.length (rows.map List.length).sum (l ++ c.wrote)
        | (s3, _, wr, .bad e d l ea) => failAcc (s3.setCmd s.co.id slot { c with wrote := wr ++ c.wrote }) e d l ea
        | (s3, n, l, .wait) => .wait (s3.setCmd s.co.id slot { c with wrAt := c.wrAt + n, wrote := l ++ c.wrote })

/-- `wr`, R233, R235, R236. -/
def execHwr (sa : Fin 8) (i : BitVec 12) (s : State) : Out3 :=
  micro s (fun s slot c =>
    let k := i.toNat + 1
    let b := c.buf sa
    if b.length % k ≠ 0 then .fail s 10 none
    else if c.expect ≤ c.chunkNo then .fail s 10 none
    else
      let n := b.length / k
      let rows := (List.range k).map (fun j => (b.drop (j * n)).take n)
      if c.toFifo then wrFifo s c rows (c.form sa) (c.pois sa) (c.shorts sa) else wrMem s slot c rows (c.pois sa))

/-! ## Control -/

/-- `loop`, R235. -/
def execHloop (l n : BitVec 6) (s : State) : Out3 :=
  micro s (fun s _ c => .next s { c with loops := (c.pc + 1, c.pc + 1 + l.toNat, n.toNat) :: c.loops })

/-- `nop`, R235. -/
def execHnop (s : State) : Out3 := micro s (fun s _ c => .next s c)

/-- `end`, R233: the program is run again while rows are left and the pass has read some; else the command completes, with err 10
when it has produced fewer chunks than expected, at once when every chunk has finished. -/
def execEndPass (s : State) : Out3 :=
  let slot := s.co.hslot
  match s.cmd? s.co.id slot with
  | none => .next s
  | some c =>
    if !c.run || c.kind != .xfm || c.stop then .next s
    else if c.r < c.rows ∧ c.r ≠ c.r0 then .next (s.setCmd s.co.id slot { c with pc := 0, loops := [], r0 := c.r })
    else if c.chunkNo < c.expect then .next (endCmdErr s s.co.id slot 10 c.chunkNo none)
    else
      let s1 := s.setCmd s.co.id slot { c with pc := c.prog.length, loops := [] }
      .next (if c.done = c.expect then endCmdOk s1 s.co.id slot else s1)

end Sys2Proof.Machine
end

