-- ==== Sys2Proof/Machine/Debug.lean ====
section
/-! DEFINITION. The debugger (R39, R342, R343): halting, stepping, breakpoints, the view of a halted core; and the steps of a core that no
word names: a queue deadlock (R28), the entry of a trap that stands due (R325), a walk of the translation tables (R339). -/

namespace Sys2Proof.Machine

/-! ## Steps of a core -/

/-- A running heddle command of the core, or of its record on the core it was started on, is bound to deliver to an operand FIFO (R28,
R316). -/
def fifoFed (s : State) (fb : Bool) : Bool :=
  let q := s.co.fifo fb
  q.src == .heddle && s.allCores.any (fun c => c.cmds.any (fun e =>
    (c.id == s.co.id || s.co.recId == some e.2.recId) && e.2.run && e.2.kind == .xfm && e.2.toFifo && e.2.tag == q.tag))

/-- A wait of the X-pipe that belongs to a queue deadlock (R28). -/
def deadX (s : State) : Wait → Bool
  | .queue => true
  | .fifo fb => !fifoFed s fb
  | _ => false

/-- QUEUE_DEADLOCK, R28: SCHED with detail 3 at `xpc`. An issued `fas` or vector load that has yet to fill its registers is in flight. -/
def execQueueDeadlock (s : State) : Out3 :=
  let t := s.sh
  if t.status == .running && !s.co.halted && t.due.isNone && t.aWait == .onX && deadX s t.xWait && !(t.flight.any (fun f => s.co.cycle ≤ f.lands)) && (busyV s).isEmpty then
    faultX (flt cSCHED 3 true) { s with sh := t.stopPart }
  else .next s

/-- TRAP_ENTRY, R325: a fault that stood due until every atomic had returned its value, an instruction that is part-way had completed (R37),
and its frame waited for no repair, is taken. -/
def execTrapEntry (s : State) : Out3 :=
  match s.sh.due with
  | none => .next s
  | some f => if s.co.returning s.sh.pos || s.sh.finishing || frameHeld s then .next s else .next (trapEntry f { s with sh := { s.sh.stopPart with due := none } })

/-- TRANSLATION_WALK, R339: the walk of an address for a partition; its translation is installed, or nothing is, and a fault is that of the
access it is for. -/
def execTranslationWalk (pid : Nat) (acc : Acc) (va : Nat) (s : State) : Out3 :=
  .next (if windowOf va = .xlat ∧ (pcbState s pid = 1 ∨ pcbState s pid = 2) then (translate s pid va acc).1 else s)

/-! ## Halting and stepping (R342) -/

/-- The next instruction of a shuttle stands at a comparator's address: not while a loop-end test is due, which decides what is next (R103,
R342). -/
def bpAt (c : Core) (t : Shuttle) : Bool := t.endDue.isNone && c.bps.any (fun b => b.2 == t.apc.toNat)

/-- BP_HIT, R342: the next instruction of the shuttle in focus stands at a comparator's address. -/
def bpHere (s : State) : Bool := bpAt s.co s.sh && !s.co.bpPass.contains s.sh.pos
def execBpHit (s : State) : Out3 :=
  .next (if s.sh.status == .running && !s.co.halted && bpHere s then haltCore s else s)

/-- A debug request (R342, R348, R349): its session is bound to the partition, and the core in focus is one of it. Which core, shuttle and
words it is about are the event's arguments, as R349 does not lay the request out. DESIGN CHOICE (log entry 109). -/
def debugReq (s : State) (k : State → Out3) : Out3 :=
  partReq s 0x60 s.dreq 7 (fun s p =>
    if p.uses.any (fun u => u.die == dieOf s.co.id && u.cores.getLsbD (s.co.id % 16)) then k s else answer s 0x60 s.dreq 1 [])

/-- A debug request on a core that must stand halted: else the state is wrong. -/
def haltedReq (s : State) (k : State → Out3) : Out3 :=
  debugReq s (fun s => if s.co.halted then k s else answer s 0x60 s.dreq 4 [])

/-- DEBUG_HALT, R342: with it a debugger is attached to the core. It has no effect while the core runs no record. -/
def execDebugHalt (s : State) : Out3 :=
  debugReq s (fun s => answer (if s.co.recId.isNone then s else haltCore { s with co := { s.co with dbg := true } }) 0x60 s.dreq 0 [])

/-- Positions of the core in focus whose next instruction stands at a comparator: they pass it once, going on from the halt. -/
def passAll (s : State) : List Nat :=
  (if bpAt s.co s.sh then [s.sh.pos] else []) ++ (s.co.shs.filter (fun e => bpAt s.co e.2)).map Prod.fst

/-- DEBUG_RESUME, R342: what a pipe waited for is looked at anew, for the debugger may have changed it. -/
def execDebugResume (s : State) : Out3 :=
  haltedReq s (fun s =>
    answer { s with
      sh := { s.sh with aWait := .none, xWait := .none }
      co := { s.co with halted := false, stepping := none, bpPass := passAll s
                        shs := s.co.shs.map (fun e => (e.1, { e.2 with aWait := .none, xWait := .none })) } } 0x60 s.dreq 0 [])

/-- STEP_A, STEP_X, R342: the pipe of the shuttle in focus may move until it has done one instruction. -/
def stepReq (s : State) (isX : Bool) : Out3 :=
  haltedReq s (fun s =>
    if s.sh.status = .running then answer { s with co := { s.co with stepping := some (s.sh.pos, isX) } } 0x60 s.dreq 0 [] else answer s 0x60 s.dreq 4 [])
def execStepA (s : State) : Out3 := stepReq s false
def execStepX (s : State) : Out3 := stepReq s true

/-- BP, R342: one of the 4 comparators set, or cleared. It has no effect while the core runs no record. -/
def execBp (k : Fin 4) (addr : Option Nat) (s : State) : Out3 :=
  debugReq s (fun s =>
    if s.co.recId.isNone then answer s 0x60 s.dreq 0 []
    else
      let l := adel s.co.bps k.val
      answer { s with co := { s.co with dbg := true, bps := match addr with
        | some a => aput l k.val a
        | none => l } } 0x60 s.dreq 0 [])

/-! ## The view of a halted core (R327, R343) -/

/-- Where an offset of the view lies: a frame or the program after it, near grant, tiles, entries of a position, the core area, or the barrier slots; with
the offset in it. -/
inductive ViewAt where
  | frame (pos off : Nat)
  | near (pos off : Nat)
  | tile (pos off : Nat)
  | ent (pos off : Nat)
  | area (off : Nat)
  | bar (off : Nat)

/-- Where the view shows the barrier slots, 16 bytes each by die and slot (R132). R327 gives them no place. DESIGN CHOICE (log entry 109). -/
def barView : Nat := 0x2000000

/-- The place of an offset, for L lanes. -/
def viewAt (L off : Nat) : ViewAt :=
  if barView ≤ off then .bar (off - barView)
  else if 0x1000000 ≤ off then .area (off - 0x1000000)
  else
    let p := off / (524288 * L)
    let o := off % (524288 * L)
    if o < 8192 * L then .frame p o
    else if o < 57344 * L then .near p (o - 8192 * L)
    else if o < 319488 * L then .tile p (o - 57344 * L)
    else .ent p (o - 319488 * L)

/-- A word of a list of words by offset. -/
def wordAt (l : List (Nat × Nat)) (off : Nat) : Nat := ((l.find? (fun w => w.1 == off)).map Prod.snd).getD 0

/-- The live frame of the shuttle in focus with its heddle program, by offset. -/
def liveFrame (s : State) : List (Nat × Nat) :=
  (frameWords s 2 []).map (fun w => (w.1, w.2.toNat)) ++
    layWords (frameSize s.sh.lanes) ((List.range 16).map (fun k => s.sh.prog.getD (2 * k) 0 + s.sh.prog.getD (2 * k + 1) 0 * 2 ^ 32))

/-- The position whose part of the core area an offset shows: the owner's, or that of a reed descriptor. -/
def areaPos (c : Core) (off : Nat) : Nat := if 0xD0000 ≤ off then (off - 0xD0000) / 64 else c.owner.getD 0

/-- Bits 127 to 64 of a barrier slot (R132). -/
def Bar.word (b : Bar) : Nat := b.gen.toNat * 2 ^ 52 + b.phase.toNat * 2 ^ 32 + b.count % 65536 * 65536 + b.arr % 65536

/-- A word of the view of the core in focus. -/
def viewWord (s : State) (off : Nat) : Nat :=
  let go (p : Nat) : State := s.refocus { core := s.co.id, pos := p }
  match viewAt s.sh.lanes off with
  | .frame p o => wordAt (liveFrame (go p)) o
  | .near p o => if o + 8 ≤ (go p).sh.nearLen then s.mem.readLe (nearKey s.co.id (p * s.sh.lanes * 49152 + o)) 8 else 0
  | .tile p o =>
    let t := (go p).sh
    if o / 32768 < t.nTiles then bitsAt (s.co.tile (t.firstTile + o / 32768)).data.toNat (8 * (o % 32768)) 64 else 0
  | .ent p o =>
    let t := (go p).sh
    if o / 8 < t.nEnts then (s.co.tent (t.firstTile + o / 8)).word.toNat else 0
  | .area o => wordAt (coreAreaWords (go (areaPos s.co o))) (0x1000000 + o)
  | .bar o =>
    let b := (s.die (o / 65536)).bar (o / 16 % 4096)
    if b.granted.map Prod.fst = some s.sh.pid then (if o % 16 < 8 then b.bytes.toNat else b.word) else 0

/-- DEBUG_READ, R342: n words of the view from an offset, of a halted core; an answer holds at most 7. -/
def execDebugRead (off n : Nat) (s : State) : Out3 :=
  haltedReq s (fun s =>
    if 7 < n then answer s 0x60 s.dreq 1 []
    else answer s 0x60 s.dreq 0 ((List.range n).map (fun k => BitVec.ofNat 64 (viewWord s (off / 8 * 8 + 8 * k)))))

/-- A word of counts lowered at most, byte by byte (R343). -/
def lowerBytes (old new : Nat) : Nat := ((List.range 8).map (fun k => Nat.min (bitsAt old (8 * k) 8) (bitsAt new (8 * k) 8) * 2 ^ (8 * k))).sum

/-- The word that stands at an offset of a frame after a debug write: counts are lowered at most; an instruction word must pass R79 (R343).
Word 0, `wlbud` and the marks ignore writes, as a restore ignores them. -/
def framePut (s : State) (rd : Nat → Nat) (off val : Nat) : Nat :=
  if off = 0 then rd 0
  else if off = 0x160 then lowerBytes (rd off) val
  else if off = 0x168 then Nat.min (rd off % 128) (val % 128)
  else if 0x1000 ≤ off ∧ off < 0x2000 ∧ off % 64 = 0 then
    (if scanWord s.feature val = none ∧ (xentryOf s.feature 0 (fun _ => val) 0).isSome then val else rd off)
  else val

/-- A shuttle whose poison is that of another, but for a word written at an offset of its frame, whole (R334, R343). -/
def Shuttle.poisonBut (t old : Shuttle) (off : Nat) : Shuttle :=
  let L := t.lanes
  let word := (off - (0x2100 + 1536 * L)) / 8
  { t with
    vpoison := if 0x2100 + 1536 * L ≤ off then old.vpoison.filter (fun q => q != (word / 8 / L, word / 8 % L, word % 8)) else old.vpoison
    xpois := old.xpois.filter (fun n => 0x200 + 8 * n != off)
    spois := old.spois.filter (fun n => (if 100 ≤ n then 64 else 8 * n) != off)
    ppois := old.ppois.filter (fun q => 0x400 + 64 * q.1 + 8 * q.2 != off)
    rqPois := old.rqPois.filter (fun q => 0x2000 + 64 * (q.1 - 6) + 8 * q.2 != off)
    dq := Vector.ofFn (fun k : Fin 6 => t.dq[k].mapIdx (fun e x =>
      { x with pois := ((old.dq[k][e]?).map (fun y => y.pois)).getD [] |>.filter (fun w => 0x2100 + (16 * k.val + e) * 16 * L + 8 * w != off) }))
    xq := t.xq.mapIdx (fun k e =>
      let o := (old.xq[k]?)
      { e with no := (o.map (fun y => y.no)).getD 0
               pois := ((o.map (fun y => y.pois)).getD []).filter (fun j => 0x1010 + 64 * k + 8 * j != off) }) }

/-- A debug write to the frame of the shuttle in focus. The address of the oldest entry is `xpc`; a new `apc` is what comes next, and no
loop-end test before it; a program that `hprog` would not accept is none (R84). -/
def writeFrame (s : State) (off val : Nat) : State :=
  let t := s.sh
  let l := liveFrame s
  let rd (o : Nat) : Nat := wordAt l o
  let new := framePut s rd off val
  let rd1 (o : Nat) : Nat := if o = off ∨ (off = 0x1008 ∧ o = 0x10) then new else rd o
  match restoreFrame s.feature t s.co.cycle true rd1 with
  | none => s
  | some t1 =>
    let prog := (List.range (Nat.min (bitsAt (rd1 0x1B8) 8 6) 32)).map (fun k => bitsAt (rd1 (frameSize t.lanes + 8 * (k / 2))) (32 * (k % 2)) 32)
    let acqs := if t1.xq.isEmpty then s.co.acqs.filter (fun p => p != t.pos) else s.co.acqs
    { s with sh := { t1.poisonBut t off with prog := prog, progOk := t1.progOk && progGood s.feature prog
                                             endDue := if off = 8 then none else t1.endDue }, co := { s.co with acqs := acqs } }

/-- Runs of a FIFO with a word of one replaced, which clears its poison (R343). -/
def writeRun (q : Fifo) (off val : Nat) : Fifo :=
  { q with runs := q.runs.mapIdx (fun k r =>
      if k = off / 32 then { FRun.ofWords (r.words.set (off % 32 / 8) val) with poison := false } else r) }

/-- A FIFO's binding with one of its words replaced; its length is lowered at most, from the youngest (R343). -/
def writeBinding (q : Fifo) (k val : Nat) : Fifo :=
  match k with
  | 0 => { q with src := (BindK.ofCode (val % 256)).getD q.src, ty := (MType.ofCode (val / 256)).getD q.ty }
  | 1 => { q with tag := val % 65536 }
  | _ => { q with runs := q.runs.take val }

/-- A debug write to the core area. -/
def writeArea (s : State) (off val : Nat) : State :=
  let c := s.co
  if off = 0 then { s with co := { c with owner := if val = 0 then none else some (val - 1) } }
  else if off < 32 then { s with co := { c with fa := writeBinding c.fa (off / 8 - 1) val } }
  else if off < 56 then { s with co := { c with fb := writeBinding c.fb (off / 8 - 4) val } }
  else if 0x10000 ≤ off ∧ off < 0x50000 then { s with co := { c with fa := writeRun c.fa (off - 0x10000) val } }
  else if 0x50000 ≤ off ∧ off < 0xD0000 then { s with co := { c with fb := writeRun c.fb (off - 0x50000) val } }
  else if 0xD0000 ≤ off then
    let r : Ref := { core := c.id, pos := areaPos c off }
    let t := s.shuttle r
    let o := off - 0xD0000 - 64 * r.pos
    if t.reed = [] then s else s.setShuttle c.id { t with reed := reedMask (t.reed.take o ++ leBytes 8 val ++ t.reed.drop (o + 8)) }
  else s

/-- A debug write of a word of the view. -/
def viewPut (s : State) (off val : Nat) : State :=
  let home : Ref := { core := s.co.id, pos := s.sh.pos }
  let go (p : Nat) : State := s.refocus { core := s.co.id, pos := p }
  match viewAt s.sh.lanes off with
  | .frame p o => if (go p).sh.status = .absent then s else (writeFrame (go p) o val).refocus home
  | .near p o =>
    if o + 8 ≤ (go p).sh.nearLen then
      let k := nearKey s.co.id (p * s.sh.lanes * 49152 + o)
      let s1 := meetLatent s (s.co.recId.getD s.nextRec) p (k / 64 * 64) 64
      { s1 with mem := s1.mem.writeLe k 8 val }
    else s
  | .tile p o =>
    let t := (go p).sh
    let k := t.firstTile + o / 32768
    let z := s.co.tile k
    if o / 32768 < t.nTiles then
      { s with co := s.co.setTile k { z with data := putBits z.data (8 * (o % 32768)) 64 val, pois := z.pois.filter (fun w => w != o % 32768 / 8) } }
    else s
  | .ent p o =>
    let t := (go p).sh
    let e : TEnt := { state := bitsAt val 62 2, abort := bitsAt val 48 8, expect := bitsAt val 16 16, done := bitsAt val 0 16 }
    if o / 8 < t.nEnts then { s with co := s.co.setTent (t.firstTile + o / 8) e } else s
  | .area o => writeArea s o val
  | .bar _ => s

/-- DEBUG_WRITE, R343: a word of the view of a halted core. Barrier slots are read only (R132). -/
def execDebugWrite (off : Nat) (val : Word) (s : State) : Out3 :=
  haltedReq s (fun s => answer (viewPut s (off / 8 * 8) val.toNat) 0x60 s.dreq 0 [])

end Sys2Proof.Machine
end

