-- ==== Sys2Proof/Machine/Pred.lean ====
section
/-! DEFINITION. Element-wise predicate instructions (R93 to R96): X-class, over the elements from `vstart` to `vlen` − 1. -/

namespace Sys2Proof.Machine

/-- Bits written to elements of a predicate group, in order. -/
def Shuttle.psetBits (t : Shuttle) (n : Nat) : List (Nat × Bool) → Shuttle
  | [] => t
  | (i, b) :: r => (t.psetBit n i b).psetBits n r

/-- The active elements of a predicate group written, each from the shuttle as it stood (R93). -/
def Shuttle.predMap (t : Shuttle) (h : Hd) (d : Fin 64) (f : Nat → Bool) : Shuttle :=
  (t.psetBits d.val ((t.actives h).map (fun i => (i, f i)))).vdone

/-- The active elements whose predicate operand is 1 (R96). -/
def Shuttle.ones (t : Shuttle) (h : Hd) (a : Fin 64) : List Nat := (t.actives h).filter (fun i => t.pval a.val i)

/-- `plog`, R94: bit 2 × PBit(a, i) + PBit(s2, i) of the truth table. -/
def execPlog (h : Hd) (f : BitVec 4) (d a b : Fin 64) (s : State) : Out3 :=
  xPlain (.plog h f d a b) s (fun t =>
    t.predMap h d (fun i => f.getLsbD (2 * (t.pval a.val i).toNat + (t.pval b.val i).toNat)))

/-- `pset.all`, R95. -/
def execPsetAll (h : Hd) (v : Bool) (d : Fin 64) (s : State) : Out3 :=
  xPlain (.psetAll h v d) s (fun t => t.predMap h d (fun _ => v))

/-- `pset.lt`, R95: the bound is the exact sum of two signed numbers (log entry 20). -/
def execPsetLt (h : Hd) (d a : Fin 64) (imm : BitVec 32) (s : State) : Out3 :=
  xPlain (.psetLt h d a imm) s (fun t =>
    t.predMap h d (fun i => decide ((i : Int) < (t.srcA a).toInt + imm.toInt)))

/-- `pset.mod`, R95. -/
def execPsetMod (h : Hd) (d : Fin 64) (imm : BitVec 32) (s : State) : Out3 :=
  xPlain (.psetMod h d imm) s (fun t => t.predMap h d (fun i => i % imm.toNat == 0))

/-- `pset.bits`, R95. -/
def execPsetBits (h : Hd) (d a : Fin 64) (s : State) : Out3 :=
  xPlain (.psetBits h d a) s (fun t => t.predMap h d (fun i => (t.srcA a).getLsbD i))

/-- `pcnt`, R96. -/
def execPcnt (h : Hd) (d a : Fin 64) (s : State) : Out3 :=
  xPlain (.pcnt h d a) s (fun t => (t.xset d (BitVec.ofNat 64 (t.ones h a).length)).vdone)

/-- `pfirst`, R96. -/
def execPfirst (h : Hd) (d a : Fin 64) (s : State) : Out3 :=
  xPlain (.pfirst h d a) s (fun t =>
    (t.xset d (match t.ones h a with
      | [] => BitVec.allOnes 64
      | i :: _ => BitVec.ofNat 64 i)).vdone)

end Sys2Proof.Machine
end

