-- ==== Sys2Proof/Machine/Reed.lean ====
section
/-! DEFINITION. The reed (R237 to R239): its descriptor, the two coordinate streams, and the next coordinates both or either holds. -/

namespace Sys2Proof.Machine

/-- One stream of a descriptor (R237). -/
structure Stream where
  enc   : Nat
  base0 : Nat
  base1 : Nat
  W     : Nat
  n     : Nat
deriving DecidableEq, Repr

/-- The stream whose 32 bytes stand at an offset of a descriptor. -/
def Stream.ofBytes (d : List Byte) (off : Nat) : Stream :=
  let w (k : Nat) : Nat := leNat ((d.drop (off + 8 * k)).take 8)
  { enc := bitsAt (w 0) 62 2, base0 := bitsAt (w 0) 0 56, base1 := bitsAt (w 1) 0 56, W := bitsAt (w 2) 32 32, n := bitsAt (w 2) 0 32 }

/-- A base lies in the near or the cluster window. -/
def inPads (a : Nat) : Bool := windowOf a == .near || windowOf a == .cluster

/-- The limits of R237 on the 32 bytes of a stream. -/
def streamOk (d : List Byte) (off : Nat) : Bool :=
  let w (k : Nat) : Nat := leNat ((d.drop (off + 8 * k)).take 8)
  let t := Stream.ofBytes d off
  bitsAt (w 0) 56 6 == 0 && w 3 == 0 && inPads t.base0 &&
  (match t.enc with
    | 0 => inPads t.base1 && t.W == 0
    | 1 => t.base1 == 0 && t.W == 0
    | 2 => t.base1 == 0 && t.W % 64 == 0
    | _ => t.base1 == 0 && t.W != 0)

/-- The limits of R237 on a descriptor in a mode; B is zero under `.one`. -/
def reedOk (m : ReedM) (d : List Byte) : Bool :=
  streamOk d 0 && (if m = .one then (d.drop 32).all (· == 0) else streamOk d 32)

/-- The fields of `xcur` (R239) put together. -/
def xcurWord (v : Bool) (mode : Nat) (done : Bool) (row col cnt : Nat) : BitVec 128 :=
  BitVec.ofNat 128 (v.toNat * 2 ^ 127 + mode % 4 * 2 ^ 125 + done.toNat * 2 ^ 124 + row % 2 ^ 32 * 2 ^ 64 + col % 2 ^ 32 * 2 ^ 32 + cnt % 2 ^ 32)

def Shuttle.xcurV (t : Shuttle) : Bool := bitAt t.xcur.toNat 127
def Shuttle.xcurMode (t : Shuttle) : Nat := bitsAt t.xcur.toNat 125 2
def Shuttle.xcurDone (t : Shuttle) : Bool := bitAt t.xcur.toNat 124
def Shuttle.xcurRow (t : Shuttle) : Nat := bitsAt t.xcur.toNat 64 32
def Shuttle.xcurCol (t : Shuttle) : Nat := bitsAt t.xcur.toNat 32 32
def Shuttle.xcurCnt (t : Shuttle) : Nat := bitsAt t.xcur.toNat 0 32

/-- `xco`, R237. -/
def execXco (h : Hd) (m : ReedM) (a : Fin 64) (st : State) : Out3 :=
  xIssue (.xco h m a) st (fun s =>
    let ea := (s.sh.srcA a).toNat
    if ea % 64 ≠ 0 then .fault (chkFlt cALIGN 3 0 ea 0 true) s
    else if !inPads ea then .fault (chkFlt cPERM 9 0 ea 0 true) s
    else
      match check s s.who ea 64 .read false true with
      | (s1, .bad c d l) => .fault (chkFlt c d l ea 0 true) s1
      | (s1, .hold) => .part .other s1
      | (s1, .ok l) =>
        if s1.co.coversSpan l.key (l.key + 64) then .part .other s1
        else
          let d := s1.mem.readN l.key 64
          if !reedOk m d then .fault (chkFlt cALIGN 3 0 ea 0 true) s1
          else .done { s1 with sh := { s1.sh.wash [11, 12] with reed := reedMask d, xcur := xcurWord (m != .none) m.code false 0 0 0 } })

/-! ## The streams -/

/-- Where a walk through a stream stands: two numbers of its encoding, coordinates passed, the coordinate before. -/
structure It where
  a    : Nat
  b    : Nat
  pos  : Nat
  pred : Option (Nat × Nat)
deriving DecidableEq, Repr

/-- What a walk meets: a coordinate with its position, nothing yet, the end, a read that stops it. -/
inductive Nx where
  | some (r c p : Nat) (it : It)
  | skip (it : It)
  | fin
  | bad (f : Flt)
  | wait

/-- A read of n bytes of a stream (R238). -/
def reedRead (s : State) (ea n : Nat) (k : Nat → Nx) : Nx :=
  if !inPads ea then .bad (chkFlt cPERM 4 0 ea 0 true)
  else
    match check s s.who ea n .read false true with
    | (_, .bad c d l) => .bad (chkFlt c d l ea 0 true)
    | (_, .hold) => .wait
    | (_, .ok l) => if s.co.coversSpan l.key (l.key + n) then .wait else k (s.mem.readLe l.key n)

/-- The start of a walk: a compressed row starts at the row of the bound, every other encoding at its first element. -/
def Stream.start (t : Stream) (row : Nat) : It :=
  { a := if t.enc = 0 then row else 0, b := 0, pos := 0, pred := none }

/-- The lowest set bit of a word from a place on. -/
def nextBit (w : Nat) (k : Nat) : Option Nat := ((List.range 64).drop k).find? (fun b => bitAt w b)

/-- One step of a walk (R237). Compressed row: `a` the row, `b` the index in its columns. Pairs: `a` the pair. Bitmap: `a` the bit.
Runs: `a` the run, `b` the place in it. -/
def Stream.next (t : Stream) (s : State) (it : It) : Nx :=
  match t.enc with
  | 0 =>
    if t.n ≤ it.a then .fin
    else
      reedRead s (t.base0 + 4 * it.a) 4 (fun lo => reedRead s (t.base0 + 4 * (it.a + 1)) 4 (fun hi =>
        let p := lo + it.b
        if p < hi then
          reedRead s (t.base1 + 4 * p) 4 (fun c => .some it.a c p { it with b := it.b + 1, pred := Option.some (it.a, c) })
        else .skip { it with a := it.a + 1, b := 0 }))
  | 1 =>
    if t.n ≤ it.a then .fin
    else
      reedRead s (t.base0 + 8 * it.a) 4 (fun r => reedRead s (t.base0 + 8 * it.a + 4) 4 (fun c =>
        .some r c it.a { it with a := it.a + 1, pred := Option.some (r, c) }))
  | 2 =>
    if t.n * t.W ≤ it.a then .fin
    else
      reedRead s (t.base0 + it.a / 64 * 8) 8 (fun w =>
        match nextBit w (it.a % 64) with
        | none => .skip { it with a := it.a / 64 * 64 + 64 }
        | Option.some b =>
          let k := it.a / 64 * 64 + b
          .some (k / t.W) (k % t.W) it.pos { a := k + 1, b := 0, pos := it.pos + 1, pred := Option.some (k / t.W, k % t.W) })
  | _ =>
    if t.n ≤ it.a then .fin
    else
      reedRead s (t.base0 + 8 * it.a) 4 (fun st => reedRead s (t.base0 + 8 * it.a + 4) 4 (fun len =>
        if len ≤ it.b then .skip { it with a := it.a + 1, b := 0 }
        else
          let k := st + it.b
          .some (k / t.W) (k % t.W) it.pos { it with b := it.b + 1, pos := it.pos + 1, pred := Option.some (k / t.W, k % t.W) }))

/-- Order of coordinates. -/
def cLt (r c r' c' : Nat) : Bool := decide (r < r') || (r == r' && decide (c < c'))

/-- What a stream has at or after a bound: its next coordinate with its position, the end, an offending coordinate, a stop. -/
inductive Head where
  | at (r c p : Nat) (it : It)
  | fin
  | unsorted (r c : Nat)
  | bad (f : Flt)
  | wait

/-- The next coordinate of a stream not below the bound; one that does not come after the coordinate before it offends (R238). -/
def Stream.head (t : Stream) (s : State) (br bc : Nat) : Nat → It → Head
  | 0, _ => .fin
  | n + 1, it =>
    match t.next s it with
    | .fin => .fin
    | .bad f => .bad f
    | .wait => .wait
    | .skip i => t.head s br bc n i
    | .some r c p i =>
      if cLt r c br bc then t.head s br bc n i
      else
        match it.pred with
        | Option.some (pr, pc) => if cLt pr pc r c then .at r c p i else .unsorted r c
        | none => .at r c p i

/-- A bound on the steps of a walk: every element, row and run once. -/
def Stream.fuel (t : Stream) : Nat := 2 ^ 64 + t.n * (t.W + 2)

/-- A surviving coordinate with its positions. -/
abbrev Surv := Nat × Nat × Option Nat × Option Nat

/-- The next surviving coordinate (R237): the heads of both streams after it. -/
inductive Mrg where
  | got (v : Surv) (a b : Option It)
  | fin
  | unsorted (r c : Nat)
  | bad (f : Flt)
  | wait

/-- The next surviving coordinate in a mode from where two walks stand: an ended one is none. -/
def merge (s : State) (ta tb : Stream) (mode br bc : Nat) : Nat → Option It → Option It → Mrg
  | 0, _, _ => .fin
  | n + 1, ia, ib =>
    let ha := match ia with
      | none => Head.fin
      | some i => ta.head s br bc ta.fuel i
    let hb := match ib with
      | none => Head.fin
      | some i => tb.head s br bc tb.fuel i
    match ha, hb with
    | .bad f, _ => .bad f
    | .wait, _ => .wait
    | .unsorted r c, _ => .unsorted r c
    | .at r c p i, .fin => if mode = 0 then .fin else .got (r, c, some p, none) (some i) none
    | .fin, .at r c p i => if mode = 1 then .got (r, c, none, some p) none (some i) else .fin
    | .fin, .fin => .fin
    | .fin, .bad f => if mode = 1 then .bad f else .fin
    | .fin, .wait => if mode = 1 then .wait else .fin
    | .fin, .unsorted r c => if mode = 1 then .unsorted r c else .fin
    | .at _ _ _ _, .bad f => .bad f
    | .at _ _ _ _, .wait => .wait
    | .at r c p i, .unsorted r' c' => if mode = 1 && cLt r c r' c' then .got (r, c, some p, none) (some i) ib else .unsorted r' c'
    | .at r c p i, .at r' c' p' i' =>
      if r = r' ∧ c = c' then .got (r, c, some p, some p') (some i) (some i')
      else if cLt r c r' c' then (if mode = 1 then .got (r, c, some p, none) (some i) ib else merge s ta tb mode br bc n (some i) ib)
      else (if mode = 1 then .got (r', c', none, some p') ia (some i') else merge s ta tb mode br bc n ia (some i'))

/-- Survivors collected, at most n, and whether a coordinate remains after them. -/
inductive Coll where
  | ok (l : List Surv) (more : Bool)
  | unsorted (r c : Nat)
  | bad (f : Flt)
  | wait

/-- The next n survivors; what comes after them only says whether one remains (R238). -/
def collect (s : State) (ta tb : Stream) (mode br bc fuel : Nat) : Nat → Option It → Option It → Coll
  | 0, ia, ib =>
    match merge s ta tb mode br bc fuel ia ib with
    | .fin => .ok [] false
    | .wait => .wait
    | _ => .ok [] true
  | n + 1, ia, ib =>
    match merge s ta tb mode br bc fuel ia ib with
    | .fin => .ok [] false
    | .unsorted r c => .unsorted r c
    | .bad f => .bad f
    | .wait => .wait
    | .got v a b =>
      match collect s ta tb mode br bc fuel n a b with
      | .ok l m => .ok (v :: l) m
      | r => r

/-- Bits [31:0] of a lane of a register written; the register is marked dirty. -/
def Shuttle.setLane32 (t : Shuttle) (r lane v : Nat) : Shuttle :=
  { t with v := t.v.setIfInBounds r (putBits (t.vreg r) (512 * lane) 32 v), vdirty := setBit t.vdirty r true }

/-- The coordinates of the survivors written to four registers, all ones where there is none (R238). -/
def Shuttle.putSurvivors (t : Shuttle) (d : Nat) (l : List Surv) : Shuttle :=
  let none32 := 0xFFFFFFFF
  (List.range t.lanes).foldl (fun t j =>
    match l[j]? with
    | some (r, c, pa, pb) =>
      (((t.setLane32 d j r).setLane32 (d + 1) j c).setLane32 (d + 2) j (pa.getD none32)).setLane32 (d + 3) j (pb.getD none32)
    | none => (((t.setLane32 d j none32).setLane32 (d + 1) j none32).setLane32 (d + 2) j none32).setLane32 (d + 3) j none32) t

/-- `xnext`, R238. In mode 3 (`.none`) no coordinate survives (log entry 90). -/
def execXnext (h : Hd) (d b : Fin 64) (st : State) : Out3 :=
  xIssue (.xnext h d b) st (fun s =>
    let t := s.sh
    if d.val % 4 ≠ 0 then xFault cALIGN 1 s
    else if !t.xcurV || t.xcurDone then .done { s with sh := t.xset b 0 }
    else
      let ta := Stream.ofBytes t.reed 0
      let tb := Stream.ofBytes t.reed 32
      let row := t.xcurRow
      let col := t.xcurCol
      let mode := t.xcurMode
      match collect s ta tb mode row col (ta.fuel + tb.fuel) t.lanes
          (if mode = 3 then none else some (ta.start row)) (if mode = 2 ∨ mode = 3 then none else some (tb.start row)) with
      | .bad f => .fault f s
      | .wait => .part .other s
      | .unsorted r c => .fault (flt cUNSORTED 4 true) { s with sh := { t with xcur := xcurWord true mode false r c t.xcurCnt } }
      | .ok l more =>
        let (r1, c1) := match l.getLast? with
          | some (r, c, _, _) => if c + 1 = 2 ^ 32 then (r + 1, 0) else (r, c + 1)
          | none => (row, col)
        let t1 := { (t.putSurvivors d.val l).wash [11, 12] with xcur := xcurWord true mode (!more) r1 c1 (t.xcurCnt + l.length) }
        .done { s with sh := t1.xset b (BitVec.ofNat 64 l.length) })

/-! ## The cursor -/

/-- `xcur.rdl`, R239. -/
def execXcurRdl (h : Hd) (d : Fin 64) (st : State) : Out3 :=
  xPlain (.xcurRdl h d) st (fun t => t.xset d (BitVec.ofNat 64 (bitsAt t.xcur.toNat 0 64)))
/-- `xcur.rdh`, R239. -/
def execXcurRdh (h : Hd) (d : Fin 64) (st : State) : Out3 :=
  xPlain (.xcurRdh h d) st (fun t => t.xset d (BitVec.ofNat 64 (bitsAt t.xcur.toNat 64 64)))
/-- `xcur.wrl`, R239. -/
def execXcurWrl (h : Hd) (a : Fin 64) (st : State) : Out3 :=
  xPlain (.xcurWrl h a) st (fun t => { t.wash [11] with xcur := BitVec.ofNat 128 (bitsAt t.xcur.toNat 64 64 * 2 ^ 64 + (t.srcA a).toNat) })
/-- `xcur.wrh`, R239: reserved bits are ignored. -/
def execXcurWrh (h : Hd) (a : Fin 64) (st : State) : Out3 :=
  xPlain (.xcurWrh h a) st (fun t => { t.wash [12] with xcur := BitVec.ofNat 128 ((t.srcA a).toNat * 2 ^ 64 + bitsAt t.xcur.toNat 0 64) &&& xcurMask })
/-- `xcur.clr`, R239: row, col, cnt and done. -/
def execXcurClr (h : Hd) (st : State) : Out3 :=
  xPlain (.xcurClr h) st (fun t => { t.wash [11] with xcur := xcurWord t.xcurV t.xcurMode false 0 0 0 })

end Sys2Proof.Machine
end

