-- ==== Sys2Proof/Machine/Scalar.lean ====
section
/-! DEFINITION. Scalar arithmetic, immediates, select and compares (R86 to R92): A-class instructions that write one
register and raise nothing. -/

namespace Sys2Proof.Machine

/-! ## Values -/

/-- The high half of a product of two integers (R87). -/
def mulHigh (k : MulK) (a b : Word) : Word :=
  let x : Int := match k with
    | .uu => (a.toNat : Int)
    | _ => a.toInt
  let y : Int := match k with
    | .ss => b.toInt
    | _ => (b.toNat : Int)
  BitVec.ofInt 64 (x * y / (2 ^ 64 : Nat))

/-- Quotient and remainder with the edge cases of R88. -/
def divWord (u : Bool) (a b : Word) : Word :=
  if b = 0 then BitVec.allOnes 64 else if u then a / b else a.sdiv b
def remWord (u : Bool) (a b : Word) : Word :=
  if b = 0 then a else if u then a % b else a.srem b

/-- A shift right as `sra` or, rounded, as `sra.r` (R55, R87). -/
def sraWord (r : Bool) (md : IRm) (a : Word) (n : Nat) : Word :=
  if r then BitVec.ofInt 64 (shiftRound a.toInt n md) else a.sshiftRight n

/-- The smaller and the larger of two values (R87). -/
def minWord (u : Bool) (a b : Word) : Word := if (if u then a.ult b else a.slt b) then a else b
def maxWord (u : Bool) (a b : Word) : Word := if (if u then a.ult b else a.slt b) then b else a

/-- Leading zeros, trailing zeros and ones of a word (R87). -/
def clzWord (a : Word) : Nat := if a = 0 then 64 else 63 - a.toNat.log2
def ctzWord (a : Word) : Nat := ((List.range 64).find? (fun k => a.getLsbD k)).getD 64
def popcWord (a : Word) : Nat := ((List.range 64).filter (fun k => a.getLsbD k)).length

/-- Conditions of `pcmp` (R91). -/
def CmpK.holds (k : CmpK) (a b : Word) : Bool :=
  match k with
  | .eq => a == b
  | .ne => a != b
  | .lt => a.slt b
  | .ge => !a.slt b
  | .ltu => a.ult b
  | .geu => !a.ult b

/-! ## Shared shapes -/

/-- `op xd, xa, xb`: X[d] from X[a] and X[b] (R86, R87). -/
def aluRR (h : Hd) (d a b : Fin 64) (f : Word → Word → Word) (s : State) : Out3 :=
  aInstr h (xs [d, a, b]) s (fun s => writeA s d (f (s.sh.xget a) (s.sh.xget b)))

/-- `op xd, xa` and the immediate forms: X[d] from X[a] (R86, R87, R89). -/
def aluR (h : Hd) (d a : Fin 64) (f : Word → Word) (s : State) : Out3 :=
  aInstr h (xs [d, a]) s (fun s => writeA s d (f (s.sh.xget a)))

/-- An X-class instruction still in the X queue reads a predicate register, as a guard or an operand (R92). -/
def queueReadsP (t : Shuttle) (d : Fin 64) : Bool :=
  t.xq.any (fun e => (xRegs t t.pendSpan e.instr).r.contains (.p d.val))

/-- A compare's answer fills a predicate register, once no X-class instruction in the X queue still reads it (R91, R92). -/
def fillPred (d : Fin 64) (b : Bool) (s : State) : Out3 :=
  if queueReadsP s.sh d then waitA s .onX else doneA { s with sh := s.sh.pput d.val (pFill b) }

/-! ## Instructions -/

/-- `add`, R87. -/
def execAdd (h : Hd) (d a b : Fin 64) (s : State) : Out3 := aluRR h d a b (fun x y => x + y) s
/-- `sub`, R87. -/
def execSub (h : Hd) (d a b : Fin 64) (s : State) : Out3 := aluRR h d a b (fun x y => x - y) s
/-- `mul`, R87. -/
def execMul (h : Hd) (d a b : Fin 64) (s : State) : Out3 := aluRR h d a b (fun x y => x * y) s
/-- `mulh`, R87. -/
def execMulh (h : Hd) (k : MulK) (d a b : Fin 64) (s : State) : Out3 := aluRR h d a b (mulHigh k) s
/-- `div`, R87, R88. -/
def execDiv (h : Hd) (u : Bool) (d a b : Fin 64) (s : State) : Out3 := aluRR h d a b (divWord u) s
/-- `rem`, R87, R88. -/
def execRem (h : Hd) (u : Bool) (d a b : Fin 64) (s : State) : Out3 := aluRR h d a b (remWord u) s
/-- `and`, R87. -/
def execAnd (h : Hd) (d a b : Fin 64) (s : State) : Out3 := aluRR h d a b (fun x y => x &&& y) s
/-- `or`, R87. -/
def execOr (h : Hd) (d a b : Fin 64) (s : State) : Out3 := aluRR h d a b (fun x y => x ||| y) s
/-- `xor`, R87. -/
def execXor (h : Hd) (d a b : Fin 64) (s : State) : Out3 := aluRR h d a b (fun x y => x ^^^ y) s
/-- `sll`, R87: by B[5:0]. -/
def execSll (h : Hd) (d a b : Fin 64) (s : State) : Out3 := aluRR h d a b (fun x y => x <<< (y.toNat % 64)) s
/-- `srl`, R87: by B[5:0]. -/
def execSrl (h : Hd) (d a b : Fin 64) (s : State) : Out3 := aluRR h d a b (fun x y => x >>> (y.toNat % 64)) s
/-- `sra` and `sra.r`, R87: by B[5:0], the latter rounding as `rnd` says. -/
def execSra (h : Hd) (r : Bool) (d a b : Fin 64) (s : State) : Out3 :=
  aluRR h d a b (fun x y => sraWord r (irmOf s.sh.rnd) x (y.toNat % 64)) s
/-- `min`, R87. -/
def execMin (h : Hd) (u : Bool) (d a b : Fin 64) (s : State) : Out3 := aluRR h d a b (minWord u) s
/-- `max`, R87. -/
def execMax (h : Hd) (u : Bool) (d a b : Fin 64) (s : State) : Out3 := aluRR h d a b (maxWord u) s
/-- `clz`, R87. -/
def execClz (h : Hd) (d a : Fin 64) (s : State) : Out3 := aluR h d a (fun x => BitVec.ofNat 64 (clzWord x)) s
/-- `ctz`, R87. -/
def execCtz (h : Hd) (d a : Fin 64) (s : State) : Out3 := aluR h d a (fun x => BitVec.ofNat 64 (ctzWord x)) s
/-- `popc`, R87. -/
def execPopc (h : Hd) (d a : Fin 64) (s : State) : Out3 := aluR h d a (fun x => BitVec.ofNat 64 (popcWord x)) s
/-- `addi`, R89. -/
def execAddi (h : Hd) (d a : Fin 64) (imm : BitVec 32) (s : State) : Out3 := aluR h d a (fun x => x + simm imm) s
/-- `andi`, R89. -/
def execAndi (h : Hd) (d a : Fin 64) (imm : BitVec 32) (s : State) : Out3 := aluR h d a (fun x => x &&& simm imm) s
/-- `ori`, R89. -/
def execOri (h : Hd) (d a : Fin 64) (imm : BitVec 32) (s : State) : Out3 := aluR h d a (fun x => x ||| simm imm) s
/-- `xori`, R89. -/
def execXori (h : Hd) (d a : Fin 64) (imm : BitVec 32) (s : State) : Out3 := aluR h d a (fun x => x ^^^ simm imm) s
/-- `shi`, R89. -/
def execShi (h : Hd) (k : ShK) (d a : Fin 64) (n : BitVec 6) (s : State) : Out3 :=
  aluR h d a (fun x => match k with
    | .sll => x <<< n.toNat
    | .srl => x >>> n.toNat
    | .sra => sraWord false .tr x n.toNat
    | .srr => sraWord true (irmOf s.sh.rnd) x n.toNat) s
/-- `li` and `li.z`, R89. -/
def execLi (h : Hd) (z : Bool) (d : Fin 64) (imm : BitVec 32) (s : State) : Out3 :=
  aInstr h (xs [d]) s (fun s => writeA s d (if z then imm.zeroExtend 64 else simm imm))
/-- `lih`, R89. -/
def execLih (h : Hd) (d a : Fin 64) (imm : BitVec 32) (s : State) : Out3 :=
  aluR h d a (fun x => (imm.zeroExtend 64 <<< 32) ||| (x &&& 0xFFFFFFFF)) s
/-- `addpc`, R89. -/
def execAddpc (h : Hd) (d : Fin 64) (imm : BitVec 32) (s : State) : Out3 :=
  aInstr h (xs [d]) s (fun s => writeA s d (s.sh.apc.zeroExtend 64 + simm imm))
/-- `sel`, R90. -/
def execSel (h : Hd) (d a b e : Fin 64) (s : State) : Out3 :=
  aInstr h (.p e.val :: xs [d, a, b]) s (fun s =>
    writeA s d (if (s.sh.preg e.val).getLsbD 0 then s.sh.xget a else s.sh.xget b))
/-- `pcmp`, R91, R92. -/
def execPcmp (h : Hd) (k : CmpK) (d a b : Fin 64) (s : State) : Out3 :=
  aInstr h (.p d.val :: xs [a, b]) s (fun s => fillPred d (CmpK.holds k (s.sh.xget a) (s.sh.xget b)) s)
/-- `pcmpi`, R91, R92. -/
def execPcmpi (h : Hd) (k : CmpK) (d a : Fin 64) (imm : BitVec 32) (s : State) : Out3 :=
  aInstr h (.p d.val :: xs [a]) s (fun s => fillPred d (CmpK.holds k (s.sh.xget a) (simm imm)) s)

end Sys2Proof.Machine
end

