-- ==== Sys2Proof/Machine/Sfu.lean ====
section
/-! DEFINITION. Special functions (R169). Algebraic functions are rounded from exact fractions. The others are worked out in
fixed point with 640 fraction bits: a value that is no dyadic number is given as the fraction just below it with one more bit set,
which rounds as the exact value does (log entry 21). -/

namespace Sys2Proof.Machine

/-- Fraction bits of the fixed-point values. -/
def sfuP : Nat := 640

/-- Floor of the square root of n, below 2^k. -/
def isqrtGo (n : Nat) : Nat → Nat → Nat
  | 0, r => r
  | k + 1, r => isqrtGo n k (if (r + 2 ^ k) * (r + 2 ^ k) ≤ n then r + 2 ^ k else r)
def isqrt (n : Nat) : Nat := isqrtGo n (n.log2 / 2 + 1) 0

/-- 2 × atanh(z) for a fixed-point z of at most 1/3: the sum of 2 z^(2k+1) / (2k+1). -/
def atanhGo (z2 : Nat) : Nat → Nat → Nat → Nat
  | 0, _, _ => 0
  | n + 1, k, p => 2 * p / (2 * k + 1) + atanhGo z2 n (k + 1) (p * z2 / 2 ^ sfuP)
def atanh2 (z : Nat) : Nat := atanhGo (z * z / 2 ^ sfuP) 220 0 z

/-- ln 2. -/
def ln2P : Nat := atanh2 (2 ^ sfuP / 3)

/-- e^y for a fixed-point y below 1, by its power series. -/
def expGo (y : Nat) : Nat → Nat → Nat → Nat
  | 0, _, _ => 0
  | n + 1, k, p => p + expGo y n (k + 1) (p * y / 2 ^ sfuP / (k + 1))
def expSmall (y : Nat) : Nat := expGo y 150 0 (2 ^ sfuP)

/-- e^(num / den) for a magnitude of at most 512: the mantissa in fixed point from 1 to 2, and the power of two. -/
def expBig (neg : Bool) (num den : Nat) : Nat × Int :=
  let x : Int := ((num * 2 ^ sfuP / den : Nat) : Int)
  let v := if neg then -x else x
  let k := v / (ln2P : Int)
  (expSmall (v - k * (ln2P : Int)).toNat, k)

/-- A fixed-point value times a power of two as a fraction, with one more bit set below it. -/
def sticky (neg : Bool) (v : Nat) (e : Int) : Bool × Nat × Nat :=
  let (n, d) := frac (2 * v + 1) (e - sfuP - 1)
  (neg, n, d)

/-- A fraction rounded with ArithRound (R143). -/
def sfuRound (f : FFmt) (rm : Rm) (x : Bool × Nat × Nat) : CF := f.arithFrac rm x.1 x.2.1 x.2.2

/-- NaN with nv; an infinity with dz. -/
def sfuInvalid (f : FFmt) : CF := (f.nanCode, 16)
def sfuPole (f : FFmt) (neg : Bool) : CF := (f.signBit neg + f.infCode, 8)

/-- 1/x. -/
def sfuRcp (f : FFmt) (rm : Rm) : FVal → CF
  | .nan => (f.nanCode, 0)
  | .inf n => (f.signBit n, 0)
  | .fin n m e => if m = 0 then sfuPole f n else let (a, b) := frac m e; f.arithFrac rm n b a

/-- √x: exact where the root is, else from its floor. -/
def sfuSqrt (f : FFmt) (rm : Rm) : FVal → CF
  | .nan => (f.nanCode, 0)
  | .inf n => if n then sfuInvalid f else (f.infCode, 0)
  | .fin n m e =>
    if m = 0 then (f.signBit n, 0)
    else if n then sfuInvalid f
    else
      let (m, e) := if e % 2 = 0 then (m, e) else (2 * m, e - 1)
      let q := m * 2 ^ 256
      let r := isqrt q
      let (a, b) := if r * r = q then frac r (e / 2 - 128) else frac (2 * r + 1) (e / 2 - 129)
      f.arithFrac rm false a b

/-- 1/√x. -/
def sfuRsqrt (f : FFmt) (rm : Rm) : FVal → CF
  | .nan => (f.nanCode, 0)
  | .inf n => if n then sfuInvalid f else (0, 0)
  | .fin n m e =>
    if m = 0 then sfuPole f n
    else if n then sfuInvalid f
    else
      let (m, e) := if e % 2 = 0 then (m, e) else (2 * m, e - 1)
      let q := 2 ^ 512 / m
      let r := isqrt q
      let (a, b) := if r * r * m = 2 ^ 512 then frac r (-256 - e / 2) else frac (2 * r + 1) (-257 - e / 2)
      f.arithFrac rm false a b

/-- 2^x. -/
def sfuExp2 (f : FFmt) (rm : Rm) : FVal → CF
  | .nan => (f.nanCode, 0)
  | .inf n => if n then (0, 0) else (f.infCode, 0)
  | .fin n m e =>
    let (a, b) := frac m e
    if 4096 * b ≤ a then sfuRound f rm (sticky false (2 ^ sfuP) (if n then -4096 else 4096))
    else
      let x : Int := if n then -(a : Int) else a
      let k := x / (b : Int)
      let r := (x - k * (b : Int)).toNat
      if r = 0 then let (c, d) := frac 1 k; f.arithFrac rm false c d
      else sfuRound f rm (sticky false (expSmall (r * ln2P / b)) k)

/-- log₂ x. -/
def sfuLog2 (f : FFmt) (rm : Rm) : FVal → CF
  | .nan => (f.nanCode, 0)
  | .inf n => if n then sfuInvalid f else (f.infCode, 0)
  | .fin n m e =>
    if m = 0 then sfuPole f true
    else if n then sfuInvalid f
    else
      let l := m.log2
      let k : Int := e + l
      if m = 2 ^ l then f.arithFrac rm (k < 0) k.natAbs 1
      else
        let y := atanh2 ((m - 2 ^ l) * 2 ^ sfuP / (m + 2 ^ l)) * 2 ^ sfuP / ln2P
        let v : Int := k * ((2 ^ sfuP : Nat) : Int) + y
        if v < 0 then sfuRound f rm (sticky true ((-v).toNat - 1) 0) else sfuRound f rm (sticky false v.toNat 0)

/-- tanh x: just below |x| for a tiny x, just below 1 for a large one. -/
def sfuTanh (f : FFmt) (rm : Rm) : FVal → CF
  | .nan => (f.nanCode, 0)
  | .inf n => f.arithFrac rm n 1 1
  | .fin n m e =>
    if m = 0 then (f.signBit n, 0)
    else
      let (a, b) := frac m e
      if a * 2 ^ 70 < b then f.arithFrac rm n (a * 2 ^ 128 - 1) (b * 2 ^ 128)
      else if 128 * b ≤ a then f.arithFrac rm n (2 ^ 300 - 1) (2 ^ 300)
      else
        let (v, k) := expBig false (2 * a) b
        let E := v * 2 ^ k.toNat
        sfuRound f rm (sticky n ((E - 2 ^ sfuP) * 2 ^ sfuP / (E + 2 ^ sfuP)) 0)

/-- 1/(1 + e^−x). -/
def sfuSigm (f : FFmt) (rm : Rm) : FVal → CF
  | .nan => (f.nanCode, 0)
  | .inf n => if n then (0, 0) else f.arithFrac rm false 1 1
  | .fin n m e =>
    let (a, b) := frac m e
    if a = 0 then f.arithFrac rm false 1 2
    else if 256 * b ≤ a then (if n then f.arithFrac rm false 1 (2 ^ 300) else f.arithFrac rm false (2 ^ 300 - 1) (2 ^ 300))
    else
      let (v, k) := expBig false a b
      let E := v * 2 ^ k.toNat
      let one := 2 ^ sfuP
      if n then sfuRound f rm (sticky false (one * one * 2 ^ 400 / (E + one)) (-400))
      else sfuRound f rm (sticky false (E * one / (E + one)) 0)

/-- The function of a code, with flags. -/
def sfu (k : SfuK) (t : EType) (rm : Rm) (c : Nat) : CF :=
  let f := EType.fmt t
  let x := f.val c
  match k with
  | .rcp => sfuRcp f rm x
  | .rsqrt => sfuRsqrt f rm x
  | .sqrt => sfuSqrt f rm x
  | .exp2 => sfuExp2 f rm x
  | .log2 => sfuLog2 f rm x
  | .tanh => sfuTanh f rm x
  | .sigm => sfuSigm f rm x

/-- `vsfu`, R169. -/
def execVsfu (h : Hd) (k : SfuK) (rm : Rm) (d a : Fin 64) (st : State) : Out3 :=
  elem1 (.vsfu h k rm d a) h d a floatT (fun t c => sfu k t rm c) st

end Sys2Proof.Machine
end

