-- ==== Sys2Proof/Machine/VecReduce.lean ====
section
/-! DEFINITION. Reductions, scans and indices (R166 to R168, R64 to R66). -/

namespace Sys2Proof.Machine

/-- FP32 codes of the lanes' lists summed by the tree, then across lanes (R64). -/
def laneTree (L : Nat) (vals : List Nat) : CF :=
  let per := (List.range L).map (fun l => treeSum vals.length ((vals.mapIdx (fun i v => (i, v))).filterMap (fun e => if e.1 % L = l then some e.2 else none)))
  let (c, f) := treeSum L (per.map Prod.fst)
  (c, per.foldl (fun a e => a ||| e.2) f)

/-- −0 in FP32. -/
def negZero : Nat := 0x80000000

/-- VRedF of R64. -/
def redF (t : Shuttle) (h : Hd) (a : Fin 64) : CF :=
  let f := EType.fmt t.et
  laneTree t.lanes ((List.range t.vlen.toNat).map (fun i => if t.active h i then widenF f (t.vread a.val i t.et) else negZero))

/-- The value of a block of 8 FP4 elements (R65): its active elements summed exactly, scaled, rounded once. The sum of elements that are all −0
is −0. DESIGN CHOICE (log entry 113). -/
def block4 (t : Shuttle) (h : Hd) (a b : Fin 64) (k : Nat) : CF :=
  let is := (List.range 8).map (fun j => 8 * k + j) |>.filter (fun i => t.active h i)
  match is with
  | [] => (negZero, 0)
  | i :: r =>
    let v (j : Nat) : FVal := fp4.val (t.vread a.val j .f4)
    let sum := r.foldl (fun x j => (FVal.add .rne x (v j)).1) (v i)
    let ex := toSigned (t.elem b.val k .i8) 8
    match sum with
    | .fin neg m e => fp32.arith .rne (.fin neg m (e + ex))
    | x => fp32.arith .rne x

/-- The float values of active elements as FP32 codes, in order. -/
def activeF (t : Shuttle) (h : Hd) (a : Fin 64) : List Nat :=
  (t.actives h).map (fun i => widenF (EType.fmt t.et) (t.vread a.val i t.et))

/-- The codes of active elements, in order. -/
def activeI (t : Shuttle) (h : Hd) (a : Fin 64) : List Nat := (t.actives h).map (fun i => t.vread a.val i t.et)

/-- The result of `vred` as a word with flags (R166). -/
def redResult (t : Shuttle) (h : Hd) (k : RedK) (a b : Fin 64) : Word × Nat :=
  let e := t.et
  if e = .f4 then
    let (c, f) := laneTree t.lanes ((List.range (ceilDiv t.vlen.toNat 8)).map (fun j => (block4 t h a b j).1))
    (BitVec.ofNat 64 c, (List.range (ceilDiv t.vlen.toNat 8)).foldl (fun f j => f ||| (block4 t h a b j).2) f)
  else if e.isInt then
    let l := activeI t h a
    let c : Nat := match k with
      | .sum => wrapInt ((l.map (EType.ival e)).sum) e.bits
      | .min => l.foldl (minE e) (wrapInt (intMax e.signed e.bits) e.bits)
      | .max => l.foldl (maxE e) (wrapInt (intMin e.signed e.bits) e.bits)
      | .and => l.foldl (fun x y => x &&& y) (2 ^ e.bits - 1)
      | .or => l.foldl (fun x y => x ||| y) 0
      | .xor => l.foldl (fun x y => x ^^^ y) 0
    (codeWord e c, 0)
  else
    match k with
    | .min => (BitVec.ofNat 64 ((activeF t h a).foldl (fMin fp32) fp32.infCode), 0)
    | .max => (BitVec.ofNat 64 ((activeF t h a).foldl (fMax fp32) (fp32.signBit true + fp32.infCode)), 0)
    | _ => let (c, f) := redF t h a; (BitVec.ofNat 64 c, f)

/-- Types and operations of R166. -/
def redOk (k : RedK) (e : EType) : Bool := e.isInt || k == .sum || (e != .f4 && (k == .min || k == .max))

/-- `vred`, R166. -/
def execVred (h : Hd) (k : RedK) (d a b : Fin 64) (st : State) : Out3 :=
  vecOp (.vred h k d a b) st (fun t => redOk k t.et) (fun t => (a, t.et) :: if t.et = .f4 then [(b, .i8)] else [])
    (fun t => t.readsOf h [(a, t.et)] ++
      if t.et = .f4 then ((t.actives h).map (fun i => i / 8)).eraseDups.map (fun j => (b.val, j, EType.i8)) else [])
    (fun t => let (w, f) := redResult t h k a b; ((t.xset d w).flag f).vdone)

/-- One addition of `vredo` (R66). -/
def redoAdd (t : EType) (acc x : Nat) : CF :=
  if t.isInt then ((acc + x) % 2 ^ t.bits, 0) else addF32 acc (widenF (EType.fmt t) x)

/-- `vredo` over codes: the sum and flags. -/
def redoRun (t : EType) (acc : Nat) : List Nat → CF
  | [] => (acc, 0)
  | x :: r => let (c, f) := redoAdd t acc x; let (e, g) := redoRun t c r; (e, f ||| g)

/-- A seed or a running sum of `vredo` as R66 has it: the code of a value, so a NaN is the canonical one (R44, R59). -/
def redoSeed (t : EType) (w : Nat) : Nat := if t.isInt then w % 2 ^ t.bits else widenF fp32 (w % 2 ^ 32)

/-- `vredo`, R167: it goes on from `redst` when `vstart` is not 0, and leaves the running sum in `redst`; a poisoned element stops it
part-way, with the sum and the flags of the elements before (R66, R174). -/
def execVredo (h : Hd) (d a b : Fin 64) (st : State) : Out3 :=
  xIssue (.vredo h d a b) st (fun s =>
    let t := s.sh
    if t.et = .f4 then xFault cALIGN 4 s
    else
      match t.groupCheck [(a, t.et)] with
      | some e => xFault cALIGN e s
      | none =>
        let init := redoSeed t.et (if t.vstart = 0 then (t.srcB b).toNat else t.redst.toNat)
        match t.poisonRead (t.readsOf h [(a, t.et)]) with
        | some k =>
          let (c, f) := redoRun t.et init (((t.actives h).filter (fun i => decide (i < k))).map (fun i => t.vread a.val i t.et))
          .fault (eccFlt k) (if t.vstart.toNat < k then { s with sh := ({ t with redst := BitVec.ofNat 64 c, vstart := BitVec.ofNat 13 k }).flag f } else s)
        | none =>
          let (c, f) := redoRun t.et init (activeI t h a)
          let t1 := if t.vstart.toNat < t.vlen.toNat then { t with redst := BitVec.ofNat 64 c } else t
          .done { s with sh := ((t1.xset d (if t.et.isInt then codeWord t.et c else BitVec.ofNat 64 c)).flag f).vdone })

/-- Running sums in element order (R168): exclusive or inclusive, with flags. An exclusive scan adds its last active element too, whose sum no
element takes, and raises what that addition raises. DESIGN CHOICE (log entry 116). -/
def scanRun (t : EType) (ex : Bool) (run : Nat) : List (Nat × Nat) → List (Nat × Nat) × Nat
  | [] => ([], 0)
  | (i, x) :: r =>
    let (c, f) := if t.isInt then ((run + x) % 2 ^ t.bits, 0) else fAdd t .rne run x
    let (l, g) := scanRun t ex c r
    ((i, if ex then run else c) :: l, f ||| g)

/-- `vscan`, R168. -/
def execVscan (h : Hd) (ex : Bool) (d a : Fin 64) (st : State) : Out3 :=
  vecOp (.vscan h ex d a) st (fun t => arithT t.et) (fun t => [(d, t.et), (a, t.et)]) (fun t => t.readsOf h [(a, t.et)])
    (fun t =>
      let z := if t.et.isInt then 0 else (EType.fmt t.et).signBit true
      let (l, f) := scanRun t.et ex z ((t.actives h).map (fun i => (i, t.vread a.val i t.et)))
      ((t.vwrites d.val t.et l).flag f).vdone)

/-- `viota`, R168. -/
def execViota (h : Hd) (d a : Fin 64) (st : State) : Out3 :=
  vecOp (.viota h d a) st (fun t => t.et.isInt) (fun t => [(d, t.et)]) (fun _ => [])
    (fun t => t.writeElems h d.val t.et (fun i =>
      (((t.actives h).filter (fun j => decide (j < i) && t.pval a.val j)).length % 2 ^ t.et.bits, 0)))

/-- `viota.idx`, R168. -/
def execViotaIdx (h : Hd) (d : Fin 64) (st : State) : Out3 :=
  vecOp (.viotaIdx h d) st (fun t => t.et.isInt) (fun t => [(d, t.et)]) (fun _ => [])
    (fun t => t.writeElems h d.val t.et (fun i => (i % 2 ^ t.et.bits, 0)))

end Sys2Proof.Machine
end

