-- ==== Sys2Proof/Machine/Dispatch.lean ====
section
/-! DEFINITION. One arm for every row of the opcode table: its meaning, or its rejection by name. -/

namespace Sys2Proof.Machine

/-- What a step of the table does. -/
def exec (i : Instr) (s : State) : Host.Outcome State Fault Refusal :=
  match i with
  | .add h d a b => Sys2Proof.Machine.execAdd h d a b s
  | .sub h d a b => Sys2Proof.Machine.execSub h d a b s
  | .mul h d a b => Sys2Proof.Machine.execMul h d a b s
  | .mulh h k d a b => Sys2Proof.Machine.execMulh h k d a b s
  | .div h u d a b => Sys2Proof.Machine.execDiv h u d a b s
  | .rem h u d a b => Sys2Proof.Machine.execRem h u d a b s
  | .and h d a b => Sys2Proof.Machine.execAnd h d a b s
  | .or h d a b => Sys2Proof.Machine.execOr h d a b s
  | .xor h d a b => Sys2Proof.Machine.execXor h d a b s
  | .sll h d a b => Sys2Proof.Machine.execSll h d a b s
  | .srl h d a b => Sys2Proof.Machine.execSrl h d a b s
  | .sra h r d a b => Sys2Proof.Machine.execSra h r d a b s
  | .min h u d a b => Sys2Proof.Machine.execMin h u d a b s
  | .max h u d a b => Sys2Proof.Machine.execMax h u d a b s
  | .clz h d a => Sys2Proof.Machine.execClz h d a s
  | .ctz h d a => Sys2Proof.Machine.execCtz h d a s
  | .popc h d a => Sys2Proof.Machine.execPopc h d a s
  | .addi h d a imm => Sys2Proof.Machine.execAddi h d a imm s
  | .andi h d a imm => Sys2Proof.Machine.execAndi h d a imm s
  | .ori h d a imm => Sys2Proof.Machine.execOri h d a imm s
  | .xori h d a imm => Sys2Proof.Machine.execXori h d a imm s
  | .shi h k d a n => Sys2Proof.Machine.execShi h k d a n s
  | .li h z d imm => Sys2Proof.Machine.execLi h z d imm s
  | .lih h d a imm => Sys2Proof.Machine.execLih h d a imm s
  | .addpc h d imm => Sys2Proof.Machine.execAddpc h d imm s
  | .sel h d a b e => Sys2Proof.Machine.execSel h d a b e s
  | .pcmp h k d a b => Sys2Proof.Machine.execPcmp h k d a b s
  | .pcmpi h k d a imm => Sys2Proof.Machine.execPcmpi h k d a imm s
  | .plog h f d a b => Sys2Proof.Machine.execPlog h f d a b s
  | .psetAll h v d => Sys2Proof.Machine.execPsetAll h v d s
  | .psetLt h d a imm => Sys2Proof.Machine.execPsetLt h d a imm s
  | .psetMod h d imm => Sys2Proof.Machine.execPsetMod h d imm s
  | .psetBits h d a => Sys2Proof.Machine.execPsetBits h d a s
  | .pcnt h d a => Sys2Proof.Machine.execPcnt h d a s
  | .pfirst h d a => Sys2Proof.Machine.execPfirst h d a s
  | .br h k a disp => Sys2Proof.Machine.execBr h k a disp s
  | .jmp h disp => Sys2Proof.Machine.execJmp h disp s
  | .call h d disp => Sys2Proof.Machine.execCall h d disp s
  | .ret h a => Sys2Proof.Machine.execRet h a s
  | .jr h d a => Sys2Proof.Machine.execJr h d a s
  | .loop h im d a disp => Sys2Proof.Machine.execLoop h im d a disp s
  | .loopx h k d a disp => Sys2Proof.Machine.execLoopx h k d a disp s
  | .loopEnd => Sys2Proof.Machine.execLoopEnd s
  | .xsync h => Sys2Proof.Machine.execXsync h s
  | .xsyncI h => Sys2Proof.Machine.execXsyncI h s
  | .xnop h n => Sys2Proof.Machine.execXnop h n s
  | .nop h => Sys2Proof.Machine.execNop h s
  | .ld h aq sz sx d a off => Sys2Proof.Machine.execLd h aq sz sx d a off s
  | .st h rl sz d a off => Sys2Proof.Machine.execSt h rl sz d a off s
  | .stnb h sz d a off => Sys2Proof.Machine.execStnb h sz d a off s
  | .ldq h sz sx d a off => Sys2Proof.Machine.execLdq h sz sx d a off s
  | .ldqG h d a off => Sys2Proof.Machine.execLdqG h d a off s
  | .ldqX h d a => Sys2Proof.Machine.execLdqX h d a s
  | .ldqR h d a => Sys2Proof.Machine.execLdqR h d a s
  | .qmovXq h d a => Sys2Proof.Machine.execQmovXq h d a s
  | .qmovQx h d a => Sys2Proof.Machine.execQmovQx h d a s
  | .qmovQq h d a => Sys2Proof.Machine.execQmovQq h d a s
  | .amo h k dw sx d a b off => Sys2Proof.Machine.execAmo h k dw sx d a b off s
  | .amocas h dw sx d a b off => Sys2Proof.Machine.execAmocas h dw sx d a b off s
  | .red h k dw d a off => Sys2Proof.Machine.execRed h k dw d a off s
  | .fas h t d a b off => Sys2Proof.Machine.execFas h t d a b off s
  | .fence h => Sys2Proof.Machine.execFence h s
  | .fenceWl h => Sys2Proof.Machine.execFenceWl h s
  | .fenceXa h => Sys2Proof.Machine.execFenceXa h s
  | .barInit h a b => Sys2Proof.Machine.execBarInit h a b s
  | .barArv h n d a b => Sys2Proof.Machine.execBarArv h n d a b s
  | .barExp h a b => Sys2Proof.Machine.execBarExp h a b s
  | .barWt h d a b => Sys2Proof.Machine.execBarWt h d a b s
  | .barTwt h d a b e => Sys2Proof.Machine.execBarTwt h d a b e s
  | .barTwtDeadline => Sys2Proof.Machine.execBarTwtDeadline s
  | .tileStRd h d t => Sys2Proof.Machine.execTileStRd h d t s
  | .tileStArm h d a t => Sys2Proof.Machine.execTileStArm h d a t s
  | .tileStDone h d t => Sys2Proof.Machine.execTileStDone h d t s
  | .tileStAbort h d t => Sys2Proof.Machine.execTileStAbort h d t s
  | .tileStRel h d t => Sys2Proof.Machine.execTileStRel h d t s
  | .tileWt h d t => Sys2Proof.Machine.execTileWt h d t s
  | .wlb h d a => Sys2Proof.Machine.execWlb h d a s
  | .wlbWt h a b => Sys2Proof.Machine.execWlbWt h a b s
  | .writeLanePerform port => Sys2Proof.Machine.execWriteLanePerform port s
  | .wlbudRefill => Sys2Proof.Machine.execWlbudRefill s
  | .vsetl h g mx t live d a => Sys2Proof.Machine.execVsetl h g mx t live d a s
  | .vld h t d a off => Sys2Proof.Machine.execVld h t d a off s
  | .vlds h t d a b off => Sys2Proof.Machine.execVlds h t d a b off s
  | .vldx h t it sc d a b pm off => Sys2Proof.Machine.execVldx h t it sc d a b pm off s
  | .vst h t d a off => Sys2Proof.Machine.execVst h t d a off s
  | .vsts h t d a b off => Sys2Proof.Machine.execVsts h t d a b off s
  | .vstx h t it sc d a b off => Sys2Proof.Machine.execVstx h t it sc d a b off s
  | .vldq h t d a => Sys2Proof.Machine.execVldq h t d a s
  | .vadd h sc vx rm d a b => Sys2Proof.Machine.execVadd h sc vx rm d a b s
  | .vsub h sc vx rm d a b => Sys2Proof.Machine.execVsub h sc vx rm d a b s
  | .vmul h sc vx rm d a b => Sys2Proof.Machine.execVmul h sc vx rm d a b s
  | .vfma h vx rm d a b e => Sys2Proof.Machine.execVfma h vx rm d a b e s
  | .vfms h vx rm d a b e => Sys2Proof.Machine.execVfms h vx rm d a b e s
  | .vmin h vx d a b => Sys2Proof.Machine.execVmin h vx d a b s
  | .vmax h vx d a b => Sys2Proof.Machine.execVmax h vx d a b s
  | .vabs h sc d a => Sys2Proof.Machine.execVabs h sc d a s
  | .vneg h sc d a => Sys2Proof.Machine.execVneg h sc d a s
  | .vand h vx d a b => Sys2Proof.Machine.execVand h vx d a b s
  | .vor h vx d a b => Sys2Proof.Machine.execVor h vx d a b s
  | .vxor h vx d a b => Sys2Proof.Machine.execVxor h vx d a b s
  | .vsll h k d a b imm => Sys2Proof.Machine.execVsll h k d a b imm s
  | .vsrl h k d a b imm => Sys2Proof.Machine.execVsrl h k d a b imm s
  | .vsra h k r rm d a b imm => Sys2Proof.Machine.execVsra h k r rm d a b imm s
  | .vmulh h vx d a b => Sys2Proof.Machine.execVmulh h vx d a b s
  | .vdot2 h sc vx d a b => Sys2Proof.Machine.execVdot2 h sc vx d a b s
  | .vmacw h sc rm d a b => Sys2Proof.Machine.execVmacw h sc rm d a b s
  | .vnarrow h sc t2 rm n d a => Sys2Proof.Machine.execVnarrow h sc t2 rm n d a s
  | .vwiden h t2 d a => Sys2Proof.Machine.execVwiden h t2 d a s
  | .vcvt h t2 rm ov d a => Sys2Proof.Machine.execVcvt h t2 rm ov d a s
  | .vcmp h k vx d a b => Sys2Proof.Machine.execVcmp h k vx d a b s
  | .vsel h d a b e => Sys2Proof.Machine.execVsel h d a b e s
  | .vslide h dn vi d a b imm => Sys2Proof.Machine.execVslide h dn vi d a b imm s
  | .vperm h t2 d a b => Sys2Proof.Machine.execVperm h t2 d a b s
  | .vbcast h d a => Sys2Proof.Machine.execVbcast h d a s
  | .vbcastEl h d a b => Sys2Proof.Machine.execVbcastEl h d a b s
  | .vmovx h d a b => Sys2Proof.Machine.execVmovx h d a b s
  | .vmovxV h d a b => Sys2Proof.Machine.execVmovxV h d a b s
  | .vred h k d a b => Sys2Proof.Machine.execVred h k d a b s
  | .vredo h d a b => Sys2Proof.Machine.execVredo h d a b s
  | .vscan h ex d a => Sys2Proof.Machine.execVscan h ex d a s
  | .viota h d a => Sys2Proof.Machine.execViota h d a s
  | .viotaIdx h d => Sys2Proof.Machine.execViotaIdx h d s
  | .vcompress h d a b => Sys2Proof.Machine.execVcompress h d a b s
  | .vexpand h d a b => Sys2Proof.Machine.execVexpand h d a b s
  | .vsfu h k rm d a => Sys2Proof.Machine.execVsfu h k rm d a s
  | .vscl h rm k d a b => Sys2Proof.Machine.execVscl h rm k d a b s
  | .vpush h fb sc a b => Sys2Proof.Machine.execVpush h fb sc a b s
  | .mtl h d a b e => Sys2Proof.Machine.execMtl h d a b e s
  | .mbind h fb src t a => Sys2Proof.Machine.execMbind h fb src t a s
  | .mfill h fb fr ff d a b e => Sys2Proof.Machine.execMfill h fb fr ff d a b e s
  | .mma h z ta tb t a b e => Sys2Proof.Machine.execMma h z ta tb t a b e s
  | .mzero h t => Sys2Proof.Machine.execMzero h t s
  | .mrd h rm ov t d a => Sys2Proof.Machine.execMrd h rm ov t d a s
  | .mwr h t d a => Sys2Proof.Machine.execMwr h t d a s
  | .mbs h t a => Sys2Proof.Machine.execMbs h t a s
  | .mbsRd h t d => Sys2Proof.Machine.execMbsRd h t d s
  | .mdrain h ty rm ov t d a b e => Sys2Proof.Machine.execMdrain h ty rm ov t d a b e s
  | .mownAcq h d => Sys2Proof.Machine.execMownAcq h d s
  | .mownTry h d => Sys2Proof.Machine.execMownTry h d s
  | .mownRel h => Sys2Proof.Machine.execMownRel h s
  | .mownRd h d => Sys2Proof.Machine.execMownRd h d s
  | .holdLimit => Sys2Proof.Machine.execHoldLimit s
  | .cdefArena h a b e => Sys2Proof.Machine.execCdefArena h a b e s
  | .cdefT h t d a b => Sys2Proof.Machine.execCdefT h t d a b s
  | .cdefLen h d a => Sys2Proof.Machine.execCdefLen h d a s
  | .clen h d a => Sys2Proof.Machine.execClen h d a s
  | .clenCap h d a => Sys2Proof.Machine.execClenCap h d a s
  | .clenDesc h d a => Sys2Proof.Machine.execClenDesc h d a s
  | .clenArena h d => Sys2Proof.Machine.execClenArena h d s
  | .cld h d a b y pp => Sys2Proof.Machine.execCld h d a b y pp s
  | .cldSt h d a y => Sys2Proof.Machine.execCldSt h d a y s
  | .csel h k cc d a b y pp => Sys2Proof.Machine.execCsel h k cc d a b y pp s
  | .cselp h k d a b e y pp => Sys2Proof.Machine.execCselp h k d a b e y pp s
  | .cgath h d a b y pp => Sys2Proof.Machine.execCgath h d a b y pp s
  | .cscat h k d a b y => Sys2Proof.Machine.execCscat h k d a b y s
  | .cjoin h k d a b y pp => Sys2Proof.Machine.execCjoin h k d a b y pp s
  | .csort h p dn d a y => Sys2Proof.Machine.execCsort h p dn d a y s
  | .cgrp h d a y pp => Sys2Proof.Machine.execCgrp h d a y pp s
  | .cagg h k sc d a b y pp => Sys2Proof.Machine.execCagg h k sc d a b y pp s
  | .cuniq h p d a y pp => Sys2Proof.Machine.execCuniq h p d a y pp s
  | .cres h o f d a b e y pp => Sys2Proof.Machine.execCres h o f d a b e y pp s
  | .ccurClr h => Sys2Proof.Machine.execCcurClr h s
  | .ccurRd h d => Sys2Proof.Machine.execCcurRd h d s
  | .ccurWr h a => Sys2Proof.Machine.execCcurWr h a s
  | .cvecLd h d a b y => Sys2Proof.Machine.execCvecLd h d a b y s
  | .cvecApp h d a y pp => Sys2Proof.Machine.execCvecApp h d a y pp s
  | .hcopy h ck ts bar crc nb d a b e pm t => Sys2Proof.Machine.execHcopy h ck ts bar crc nb d a b e pm t s
  | .hxfm h ts bar nb d a pm t => Sys2Proof.Machine.execHxfm h ts bar nb d a pm t s
  | .hprog h d a => Sys2Proof.Machine.execHprog h d a s
  | .hfab h ck get bar crc nb fold d a b e pm peer => Sys2Proof.Machine.execHfab h ck get bar crc nb fold d a b e pm peer s
  | .chunkFinish slot chunk => Sys2Proof.Machine.execChunkFinish slot chunk s
  | .peerTimeout slot => Sys2Proof.Machine.execPeerTimeout slot s
  | .hstatRd h d a => Sys2Proof.Machine.execHstatRd h d a s
  | .hstatWt h d a => Sys2Proof.Machine.execHstatWt h d a s
  | .hstatRel h d a => Sys2Proof.Machine.execHstatRel h d a s
  | .hstatAbort h d a => Sys2Proof.Machine.execHstatAbort h d a s
  | .hcsumRd h d => Sys2Proof.Machine.execHcsumRd h d s
  | .hcsumSet h a => Sys2Proof.Machine.execHcsumSet h a s
  | .hcsumChk h d a => Sys2Proof.Machine.execHcsumChk h d a s
  | .xco h m a => Sys2Proof.Machine.execXco h m a s
  | .xnext h d b => Sys2Proof.Machine.execXnext h d b s
  | .xcurRdl h d => Sys2Proof.Machine.execXcurRdl h d s
  | .xcurRdh h d => Sys2Proof.Machine.execXcurRdh h d s
  | .xcurWrl h a => Sys2Proof.Machine.execXcurWrl h a s
  | .xcurWrh h a => Sys2Proof.Machine.execXcurWrh h a s
  | .xcurClr h => Sys2Proof.Machine.execXcurClr h s
  | .tnow h d => Sys2Proof.Machine.execTnow h d s
  | .tnowSt h d => Sys2Proof.Machine.execTnowSt h d s
  | .tarm h d a => Sys2Proof.Machine.execTarm h d a s
  | .tarmClr h d => Sys2Proof.Machine.execTarmClr h d s
  | .timerFire => Sys2Proof.Machine.execTimerFire s
  | .trap h n => Sys2Proof.Machine.execTrap h n s
  | .eret h => Sys2Proof.Machine.execEret h s
  | .srd h k d => Sys2Proof.Machine.execSrd h k d s
  | .swr h k a => Sys2Proof.Machine.execSwr h k a s
  | .halt h n => Sys2Proof.Machine.execHalt h n s
  | .bkpt h n => Sys2Proof.Machine.execBkpt h n s
  | .yield h => Sys2Proof.Machine.execYield h s
  | .xinvPg h a b => Sys2Proof.Machine.execXinvPg h a b s
  | .xinvAll h a => Sys2Proof.Machine.execXinvAll h a s
  | .keyz h a => Sys2Proof.Machine.execKeyz h a s
  | .scrubSt h a => Sys2Proof.Machine.execScrubSt h a s
  | .scrubRd h d a => Sys2Proof.Machine.execScrubRd h d a s
  | .scrubWt h a => Sys2Proof.Machine.execScrubWt h a s
  | .scrubGranule die pid => Sys2Proof.Machine.execScrubGranule die pid s
  | .scrubPendingStart die => Sys2Proof.Machine.execScrubPendingStart die s
  | .frqN h d => Sys2Proof.Machine.execFrqN h d s
  | .frqPop h d a => Sys2Proof.Machine.execFrqPop h d a s
  | .wfe h m d => Sys2Proof.Machine.execWfe h m d s
  | .cnt h k d => Sys2Proof.Machine.execCnt h k d s
  | .hrd d im => Sys2Proof.Machine.execHrd d im s
  | .hwr sc im => Sys2Proof.Machine.execHwr sc im s
  | .hcvt d sc f rm ov src => Sys2Proof.Machine.execHcvt d sc f rm ov src s
  | .hqnt d sc f rm ov src mx => Sys2Proof.Machine.execHqnt d sc f rm ov src mx s
  | .hfrm d sc f co mx => Sys2Proof.Machine.execHfrm d sc f co mx s
  | .hunf d sc f rm ov run => Sys2Proof.Machine.execHunf d sc f rm ov run s
  | .hxps d sc f im => Sys2Proof.Machine.execHxps d sc f im s
  | .hprm d sc f im => Sys2Proof.Machine.execHprm d sc f im s
  | .hpak d sc pad => Sys2Proof.Machine.execHpak d sc pad s
  | .hfold d sc => Sys2Proof.Machine.execHfold d sc s
  | .hunfold d sc => Sys2Proof.Machine.execHunfold d sc s
  | .hcrc sc => Sys2Proof.Machine.execHcrc sc s
  | .hhsh sc => Sys2Proof.Machine.execHhsh sc s
  | .hloop l n => Sys2Proof.Machine.execHloop l n s
  | .endPass => Sys2Proof.Machine.execEndPass s
  | .hnop => Sys2Proof.Machine.execHnop s
  | .queueDeadlock => Sys2Proof.Machine.execQueueDeadlock s
  | .trapEntry => Sys2Proof.Machine.execTrapEntry s
  | .translationWalk pid acc va => Sys2Proof.Machine.execTranslationWalk pid acc va s
  | .bpHit => Sys2Proof.Machine.execBpHit s
  | .debugHalt => Sys2Proof.Machine.execDebugHalt s
  | .debugResume => Sys2Proof.Machine.execDebugResume s
  | .stepA => Sys2Proof.Machine.execStepA s
  | .stepX => Sys2Proof.Machine.execStepX s
  | .debugRead off n => Sys2Proof.Machine.execDebugRead off n s
  | .debugWrite off val => Sys2Proof.Machine.execDebugWrite off val s
  | .bp k addr => Sys2Proof.Machine.execBp k addr s
  | .queueTailRead q => Sys2Proof.Machine.execQueueTailRead q s
  | .recordPlace => Sys2Proof.Machine.execRecordPlace s
  | .allocPreempt => Sys2Proof.Machine.execAllocPreempt s
  | .timedLaunch id => Sys2Proof.Machine.execTimedLaunch id s
  | .preemptRequest id => Sys2Proof.Machine.execPreemptRequest id s
  | .preemptTimeout => Sys2Proof.Machine.execPreemptTimeout s
  | .saveComplete id => Sys2Proof.Machine.execSaveComplete id s
  | .recordResume id => Sys2Proof.Machine.execRecordResume id s
  | .kill id => Sys2Proof.Machine.execKill id s
  | .tokenRefill => Sys2Proof.Machine.execTokenRefill s
  | .tokenCharge => Sys2Proof.Machine.execTokenCharge s
  | .transportWrite n data bar unit => Sys2Proof.Machine.execTransportWrite n data bar unit s
  | .transportRead n len unit => Sys2Proof.Machine.execTransportRead n len unit s
  | .transportAtomic n k size v c => Sys2Proof.Machine.execTransportAtomic n k size v c s
  | .fabricWritePerform die k => Sys2Proof.Machine.execFabricWritePerform die k s
  | .portDown port => Sys2Proof.Machine.execPortDown port s
  | .featureOffer m => Sys2Proof.Machine.execFeatureOffer m s
  | .featureAccept m => Sys2Proof.Machine.execFeatureAccept m s
  | .queueReg m => Sys2Proof.Machine.execQueueReg m s
  | .queueDereg m => Sys2Proof.Machine.execQueueDereg m s
  | .fabricMap m => Sys2Proof.Machine.execFabricMap m s
  | .xlatRoot m => Sys2Proof.Machine.execXlatRoot m s
  | .barGrant m => Sys2Proof.Machine.execBarGrant m s
  | .barFree m => Sys2Proof.Machine.execBarFree m s
  | .gangReg m => Sys2Proof.Machine.execGangReg m s
  | .gangReq m => Sys2Proof.Machine.execGangReq m s
  | .teleRd m => Sys2Proof.Machine.execTeleRd m s
  | .gangSwitch g => Sys2Proof.Machine.execGangSwitch g s
  | .confirm g => Sys2Proof.Machine.execConfirm g s
  | .gangStop g => Sys2Proof.Machine.execGangStop g s
  | .gangGo g => Sys2Proof.Machine.execGangGo g s
  | .gangAck g => Sys2Proof.Machine.execGangAck g s
  | .gangRefuse g => Sys2Proof.Machine.execGangRefuse g s
  | .gangSwitched g => Sys2Proof.Machine.execGangSwitched g s
  | .gangLapsed g => Sys2Proof.Machine.execGangLapsed g s
  | .gangWindowLapse seq => Sys2Proof.Machine.execGangWindowLapse seq s
  | .gangSwitchTime seq => Sys2Proof.Machine.execGangSwitchTime seq s
  | .switchingDone seq => Sys2Proof.Machine.execSwitchingDone seq s
  | .stragglerTimeout seq => Sys2Proof.Machine.execStragglerTimeout seq s
  | .ptpOffset port o => Sys2Proof.Machine.execPtpOffset port o s
  | .syncTimeout => Sys2Proof.Machine.execSyncTimeout s
  | .announceTimeout port => Sys2Proof.Machine.execAnnounceTimeout port s
  | .holdoverExpiry => Sys2Proof.Machine.execHoldoverExpiry s
  | .patrolScrub line => Sys2Proof.Machine.execPatrolScrub line s
  | .create pid => Sys2Proof.Machine.execCreate pid s
  | .stop pid => Sys2Proof.Machine.execStop pid s
  | .stopDrained pid => Sys2Proof.Machine.execStopDrained pid s
  | .teardown pid => Sys2Proof.Machine.execTeardown pid s
  | .teardownDone pid => Sys2Proof.Machine.execTeardownDone pid s
  | .harvest pid => Sys2Proof.Machine.execHarvest pid s
  | .measure pid => Sys2Proof.Machine.execMeasure pid s
  | .resume pid => Sys2Proof.Machine.execResume pid s
  | .attest pid => Sys2Proof.Machine.execAttest pid s
  | .repair => Sys2Proof.Machine.execRepair s
  | .repairTimeout die => Sys2Proof.Machine.execRepairTimeout die s
  | .moduleReset => Sys2Proof.Machine.execModuleReset s
  | .powerOn => Sys2Proof.Machine.execPowerOn s
  | .watchdogReset => Sys2Proof.Machine.execWatchdogReset s
  | .thermalReset => Sys2Proof.Machine.execThermalReset s
  | .bootGo session => Sys2Proof.Machine.execBootGo session s
  | .throttle die => Sys2Proof.Machine.execThrottle die s
  | .throttleRecover die => Sys2Proof.Machine.execThrottleRecover die s
  | .softError u => Sys2Proof.Machine.execSoftError u s
  | .sessionBind session src4 src6 => Sys2Proof.Machine.execSessionBind session src4 src6 s
  | .unsupportedPacket port => Sys2Proof.Machine.execUnsupportedPacket port s

end Sys2Proof.Machine
end

