-- ==== Sys2Proof/Machine/Turns.lean ====
section
/-! DEFINITION. What a turn of each agent does: fetch and scan (R68, R80), the A-pipe executing or dispatching the word at `apc` (R22 to
R24), the X-pipe trying the head of its queue, a heddle's next piece or micro-op, clocks, and the events of the opcode table. -/

namespace Sys2Proof.Machine

/-! ## Fetch -/

/-- The base of the page an address lies in, as its partition's tables give it. -/
def pageBase (s : State) (pid va : Nat) : Nat :=
  let bits := match walkOf s pid va with
    | .ok (_, _, lv) => pageBits lv
    | .error _ => 16
  va / 2 ^ bits * 2 ^ bits

/-- What a fetch finds: a word, a fault, or a wait. -/
inductive Fetched where
  | word (w : Nat)
  | bad (f : Flt)
  | wait

/-- A fault of a fetch (R68, R79, R329): source 3, the fetched address; of a refused page its base, the reason and the byte offset. -/
def fetchFlt (s : State) (pc c d l : Nat) : Flt :=
  if c = cCODESCAN then { flt c d false with source := 3, va := pageBase s s.sh.pid pc, index := l, at' := some pc }
  else { flt c d false with source := 3, va := pc, level := l, at' := some pc }

/-- The word at `apc` (R68, R78 to R80). -/
def fetch (s : State) : State × Fetched :=
  let pc := s.sh.apc.toNat + s.sh.pcHi.toNat * 2 ^ 56
  let bad (s : State) (c d l : Nat) : State × Fetched := (s, .bad (fetchFlt s pc c d l))
  if pc % 8 ≠ 0 then bad s cALIGN 2 0
  else
    match windowOf pc with
    | .none => bad s cPERM 3 0
    | .near => bad s cPERM 13 0
    | .cluster => bad s cPERM 13 0
    | .xlat =>
      if walkMeets s s.co.id s.sh.pid pc .fetch 1 then (s, .wait)
      else if walkMeets s s.co.id s.sh.pid pc .fetch 2 then bad s cECC 1 0
      else
      match translate s s.sh.pid pc .fetch with
      | (s1, .error (c, d, l)) => bad s1 c d l
      | (s1, .ok none) => (s1, .wait)
      | (s1, .ok (some t)) =>
        match checkPhys s1 t s1.co.id s1.sh.pid pc 8 .fetch false true with
        | .bad c d l => bad s1 c d l
        | .hold => (s1, .wait)
        | .ok l => (s1, .word (s1.mem.readLe l.key 8))

/-! ## The A-pipe -/

/-- A scalar source captured at dispatch, or bound when the register waits for an instruction dispatched before (R23, R24). -/
def sourceOf (s : State) (pend : List RegId) : Option (Fin 64) → Opnd
  | none => .none
  | some a => if pend.contains (.x a.val) then .bound a.val else .cap (s.sh.xget a)

/-- An X-class instruction dispatched (R22 to R24): it waits for a free entry, and for a source an atomic has yet to return (R118). -/
def dispatch (i : Instr) (s : State) : Out3 :=
  let t := s.sh
  let (a, b, c, d) := xSrcs i
  if 64 ≤ t.xq.length then waitA s .onX
  else if [a, b, c, d].any (fun o => match o with | some r => s.co.xReturning t.pos r.val | none => false) then waitA s .other
  else
    let pend := t.pendingQ ++ t.pendingF s.co.cycle
    let e : XEntry :=
      { instr := i, addr := t.apc.toNat, opA := sourceOf s pend a, opB := sourceOf s pend b, opC := sourceOf s pend c, opD := sourceOf s pend d,
        arena := t.arena
        no := t.nD
        pois := (List.range 4).filter (fun k => match [a, b, c, d].getD k none with
          | some r => !pend.contains (.x r.val) && t.xpois.contains r.val
          | none => false) }
    let yields := match i with
      | .vsetl _ _ _ _ _ _ _ => t.pre.isSome
      | _ => false
    let t1 := { t.moved.fallThrough with xq := t.xq ++ [e], nD := t.nD + 1, preNos := if yields then t.nD :: t.preNos else t.preNos }
    .next { s with sh := t1 }

/-! ## The arbiters of a core's shared units (R311) -/

/-- The instructions that run in the core's reed: `xco`, `xnext`, and `cjoin` with its continuation (R212, R237, R238). -/
def usesReed : Instr → Bool
  | .xco _ _ _ | .xnext _ _ _ | .cjoin _ _ _ _ _ _ _ => true
  | .cres _ o _ _ _ _ _ _ _ => o.toNat == 7
  | _ => false

/-- The arbiter that serves an instruction: 0 the column unit's, 1 the reed's, 2 the tile port's, 3 the heddle's command intake. A `cjoin`
stands at the reed's. DESIGN CHOICE (log entry 119). -/
def arbOf (i : Instr) : Option Nat :=
  if usesReed i then some 1 else
  match i with
  | .cld _ _ _ _ _ _ | .cldSt _ _ _ _ | .csel _ _ _ _ _ _ _ _ | .cselp _ _ _ _ _ _ _ _ | .cgath _ _ _ _ _ _ | .cscat _ _ _ _ _ _
  | .csort _ _ _ _ _ _ | .cgrp _ _ _ _ _ | .cagg _ _ _ _ _ _ _ _ | .cuniq _ _ _ _ _ _
  | .cres _ _ _ _ _ _ _ _ _ | .cvecLd _ _ _ _ _ | .cvecApp _ _ _ _ _ => some 0
  | .hcopy _ _ _ _ _ _ _ _ _ _ _ _ | .hxfm _ _ _ _ _ _ _ _ | .hfab _ _ _ _ _ _ _ _ _ _ _ _ _ => some 3
  | i => if usesTilePort i then some 2 else none

/-- What the shuttle in focus has at an arbiter: the head of its X queue, or for the heddle's intake the word at `apc`. -/
def asking (k : Nat) (s : State) : Option (State × Instr) :=
  if s.sh.status ≠ .running ∨ s.sh.due.isSome ∨ s.sh.saveDue.isSome ∨ s.co.halted ∨ s.co.haltDue then none
  else if k = 3 then
    if s.sh.endDue.isSome ∨ s.sh.preVset then none
    else
      match fetch s with
      | (s1, .word w) => (decode w).bind (fun i => if arbOf i = some 3 then some (s1, i) else none)
      | _ => none
  else s.sh.xq.head?.bind (fun e => if arbOf e.instr = some k then some (s, e.instr) else none)

/-- One service of an instruction at its arbiter: of a column instruction the unit puts out 16 elements at most (R218). -/
def serve (k : Nat) (i : Instr) (s : State) : Out3 :=
  if 2 ≤ k then exec i s
  else
    match exec i { s with share := some (Nat.min 16 (s.share.getD 16)) } with
    | .next t => .next { t with share := s.share }
    | r => r

/-- A service has moved its instruction: it is done, or a part of it is. -/
def gotOn (before after : Shuttle) : Bool :=
  after.nA != before.nA || after.nX != before.nX || after.xProg != before.xProg || after.cprog != before.cprog

/-- The reed is in the middle of another shuttle's instruction: it does one at a time, in issue order (R238). -/
def reedBusy (i : Instr) (s : State) : Bool :=
  usesReed i && s.co.shs.any (fun e => e.2.xIss.isSome && (match e.2.xq with
    | x :: _ => usesReed x.instr
    | [] => false))

/-- Whether an instruction at an arbiter waits to be served in a cycle, and would be served now, whole or in part. -/
def wouldServe (k cycle : Nat) (s : State) : Bool :=
  match asking k s with
  | none => false
  | some (s1, i) =>
    (k == 3 || decide (issueCycle i s1 ≤ cycle)) && !reedBusy i s1 &&
    (match serve k i s1 with
     | .next t => gotOn s1.sh t.sh
     | _ => false)

/-- The places after the one an arbiter served last at which a position stands in its round. -/
def turnsTo (served : Option Nat) (pos : Nat) : Nat :=
  match served with
  | none => pos
  | some p => (pos + 31 - p % 32) % 32

/-- Whether another shuttle of the core comes before the one in focus at an arbiter: it waits there too and stands earlier in the round
that starts after the shuttle served last (R311). -/
def goesSecond (k : Nat) (i : Instr) (s : State) : Bool :=
  let at' (p : Nat) : Nat := turnsTo (afind? s.co.served k) p
  s.co.shs.any (fun e => decide (at' e.1 < at' s.sh.pos) &&
    wouldServe k (issueCycle i s) (s.refocus { core := s.co.id, pos := e.1 }))

/-- The arbiter has served the shuttle in focus, when its instruction or a part of it was done. -/
def served (k : Nat) (before : Shuttle) (r : Out3) : Out3 :=
  match r with
  | .next s => if gotOn before s.sh then .next { s with co := { s.co with served := aput s.co.served k before.pos } } else r
  | r => r

/-- An instruction executed, in its turn at its arbiter where it has one (R311). -/
def execServed (i : Instr) (s : State) : Out3 :=
  match arbOf i with
  | none => exec i s
  | some k =>
    if reedBusy i s || goesSecond k i s then (if i.kind = .xClass then waitX s .other else waitA s .other)
    else served k s.sh (serve k i s)

/-- An instruction executed, or a load started that reads later: of `ld`, `ldq`, `ldq.g` and the vector loads. -/
def execLate (i : Instr) (s : State) : Out3 :=
  match i with
  | .ld h false sz sx d a off => startLd h sz sx d a off s
  | .ldq h sz sx d a off => startLdq h sz sx d a off s
  | .ldqG h d a off => startLdqG h d a off s
  | .vld h t d a off => vldAt true h t d a off s
  | .vlds h t d a b off => vldsAt true h t d a b off s
  | .vldx h t it sf d a b pm off => vldxAt true h t it sf d a b pm off s
  | i => execServed i s

/-- An entry of a data queue that a load fills (R120). -/
def Shuttle.fillDq (t : Shuttle) (q no : Nat) (e : QEntry) : Shuttle :=
  t.setDq q ((t.dqOf q).map (fun x => if x.due = some no then e else x))

/-- Bytes of a group entry a load fills, from a byte on; with the last of them its data is there (R120, R286). -/
def Shuttle.fillGroup (t : Shuttle) (q no off v : Nat) (bad last : Bool) : Shuttle :=
  t.setDq q ((t.dqOf q).map (fun x =>
    if x.due = some no then
      { x with data := x.data ||| BitVec.ofNat 4096 (v * 2 ^ (8 * off)), pois := if bad then x.pois ++ (List.range 8).map (fun w => off / 8 + w) else x.pois, due := if last then none else x.due }
    else x))

/-- The value of a load in its shuttle: bytes read for it, as a number; `last`: no other load of its instruction is under way. A line poisoned since it started gives what it fills the poison
(log entry 13). -/
def Load.land (l : Load) (v : Nat) (bad last : Bool) (t : Shuttle) : Shuttle :=
  match l.dst with
  | .x d bits sx =>
    let t1 := t.xsetN d (extend sx v bits)
    if bad && d != 0 then { t1 with xpois := d :: t1.xpois } else t1
  | .q q bits sx => t.fillDq q l.no { QEntry.ofScalar (extend sx v bits) with pois := if bad then [0] else [] }
  | .group q off => t.fillGroup q l.no off v bad last
  | .v e d i =>
    let t1 := t.elemSet d i e (codeOf e i v)
    let off := t.elemOff e (i % t.eper e)
    if bad then { t1 with vpoison := (d + i / t.eper e, off / 512, off % 512 / 64) :: t1.vpoison } else t1

/-- A load under way reads (R126): after those its shuttle started before it at its port, but for the elements of one instruction (R149) and
of a `vldx` (R128), once no entry of its core's queues covers its lines. -/
def loadReturn (s : State) (core k : Nat) : State :=
  let c := s.core core
  match c.loads[k]? with
  | none => s
  | some l =>
    if (c.loads.take k).any (fun e => e.pos == l.pos && portOf e.key == portOf l.key && e.no != l.no && !e.free && !l.free) ||
        c.coversSpan l.key (l.key + l.size) then s
    else
      let s1 := s.setCore { c with loads := c.loads.eraseIdx k }
      let last := !((s1.core core).loads.any (fun e => e.pos == l.pos && e.no == l.no))
      s1.setShuttle core (l.land (s1.mem.readLe l.key l.size) (poisonHit s1 l.key l.size) last (s1.shuttle { core := core, pos := l.pos }))

/-- The word the A-pipe has fetched: an A-class instruction executes, unless it reads a poisoned word (R335), and an X-class one is
dispatched. -/
def runWord (late : Bool) (w : Nat) (s : State) : Out3 :=
  match decode w with
  | none => .fault .unscannedWord
  | some i => if i.kind = .xClass then dispatch i s else if aPoisoned i s then raiseA cECC 2 s else if late then execLate i s else execServed i s

/-- The A-pipe fetches and does its next word. -/
def aFetch (late : Bool) (s : State) : Out3 :=
  match fetch s with
  | (s1, .bad f) => faultA f s1
  | (s1, .wait) => waitA s1 .other
  | (s1, .word w) => runWord late w s1

/-- An instruction has been done or dispatched: its position has passed the breakpoint it went on from. -/
def passed (before : Shuttle) (r : Out3) : Out3 :=
  match r with
  | .next s =>
    if s.sh.nA ≠ before.nA ∨ s.sh.xq.length ≠ before.xq.length then .next { s with co := { s.co with bpPass := s.co.bpPass.filter (fun p => p != before.pos) } }
    else r
  | r => r

/-- A step of the debugger ends once its instruction is done or has trapped: the core halts again (R342). -/
def stepEnds (before : Shuttle) (isX : Bool) (r : Out3) : Out3 :=
  match r with
  | .next s =>
    let did := (if isX then s.sh.nX ≠ before.nX else s.sh.nA ≠ before.nA) || s.sh.level ≠ before.level || s.sh.status ≠ .running
    if s.co.stepping = some (before.pos, isX) ∧ did then .next (haltCore s) else r
  | r => r

/-- What holds up the A-pipe of a running shuttle, or its next word (R28, R40, R103, R342). -/
def aNext (late : Bool) (s : State) : Out3 :=
  if s.sh.endDue.isSome then exec .loopEnd s
  else if s.sh.preVset then waitA s .other
  else if bpHere s && !s.co.halted then exec .bpHit s
  else passed s.sh (aFetch late s)

/-- A pipe of the shuttle in focus may move: it runs, or has been killed with an instruction to complete (R317), and its core is not halted
but for a step of this pipe; where a halt stands due, only to complete what has issued (R39). -/
def mayMove (s : State) (isX : Bool) : Bool :=
  (s.sh.status == .running || (isX && s.sh.status == .killed)) && (!s.co.haltDue || (isX && s.sh.midway)) && (!s.co.halted || s.co.stepping == some (s.sh.pos, isX))

/-- A turn of the A-pipe: a trap that stands due is taken, a halt that stands due is made once it can be (R324), a save that is due is made, or
the next word is done. -/
def aTurn (late : Bool) (s : State) : Out3 :=
  if s.sh.due.isSome then stepEnds s.sh false (stepEnds s.sh true (exec .trapEntry s))
  else if s.co.haltDue then .next (haltCore s)
  else if s.sh.saveDue.isSome && (s.sh.status == .running || s.sh.status == .waiting) then trySave s
  else if mayMove s false then stepEnds s.sh false (aNext late s)
  else .next s

/-! ## The X-pipe -/

/-- Whether the X-class access at the head of the queue writes at a port: of a column instruction its outputs in the arena, and of `cld.st` and
`cscat` the places its elements go to. -/
def headWrites (s : State) (e : XEntry) (p : Port) : Bool :=
  let at' (ea : Nat) : Bool := eaPort s (ea % 2 ^ 64) == some p
  match e.instr with
  | .vst _ _ _ _ _ | .vsts _ _ _ _ _ _ | .vstx _ _ _ _ _ _ _ _ | .fas _ _ _ _ _ _ | .mdrain _ _ _ _ _ _ _ _ _ => headReaches s e p
  | .cldSt _ d a _ =>
    let c := s.sh.col d.val
    (List.range c.len).any (fun i => at' ((s.sh.srcA a).toNat + i * c.size))
  | .cscat _ _ d a b _ =>
    let c := s.sh.col d.val
    let ps := s.sh.col b.val
    (List.range (Nat.min c.len ps.len)).any (fun i => at' ((s.sh.srcA a).toNat + s.mem.readLe (colKey s ps i) ps.size * c.size))
  | .vld _ _ _ _ _ | .vlds _ _ _ _ _ _ | .vldx _ _ _ _ _ _ _ _ _ | .mfill _ _ _ _ _ _ _ _ | .xco _ _ _ | .xnext _ _ _ | .cvecLd _ _ _ _ _ => false
  | i => xAccess i && (arenaSpan e.arena).any (spanReaches s p)

/-- A load of the shuttle under way comes before the head of the X queue (R126): at a port it writes at, or, where it reads in this turn, at one
at which its place among the reads is fixed. -/
def loadAhead (late : Bool) (s : State) (e : XEntry) : Bool :=
  let later := late && (match e.instr with
    | .vld _ _ _ _ _ | .vlds _ _ _ _ _ _ => true
    | _ => false)
  (loadsBefore s e).any (fun l => headWrites s e (portOf l.key)) || (!later && readsAfter s)

/-- A turn of the X-pipe: the oldest entry of the queue issues, waits or faults, in its turn at a shared unit. `late`: a vector load reads
later. -/
def xTurn (late : Bool) (s : State) : Out3 :=
  match s.sh.xq with
  | [] => .next s
  | e :: _ =>
    if mayMove s true && (s.sh.due.isNone || s.sh.finishing) && s.sh.saveDue.isNone then
      if loadAhead late s e then waitX s .other else stepEnds s.sh true (if late then execLate e.instr s else execServed e.instr s)
    else .next s

/-- A turn of the X-pipe in which the column unit puts out n elements at most (R218, R219). -/
def xTurnPart (n : Nat) (s : State) : Out3 :=
  match xTurn false { s with share := some n } with
  | .next t => .next { t with share := none }
  | r => r

/-! ## Other agents -/

/-- A turn of a heddle: the next micro-op of a program in a slot, or the next piece of a chunk. -/
def heddleTurn (s : State) (core slot chunk : Nat) : Out3 :=
  match s.cmd? core slot with
  | none => .next s
  | some c =>
    if c.kind = .xfm then
      let s1 := s.refocus { core := core, pos := c.pos }
      match c.prog[c.pc]?.bind decodeMicro with
      | some i => exec i { s1 with co := { s1.co with hslot := slot } }
      | none => .next s
    else .next (moveChunk s core slot chunk)

/-- A cycle of a core passes: what has landed stands. -/
def tick (s : State) (k : Nat) : State :=
  let c := s.core k
  let n := c.cycle + 1
  let s1 := s.setCore { c with cycle := n, shs := c.shs.map (fun e => (e.1, e.2.settle n)) }
  if k = s.co.id then { s1 with sh := s1.sh.settle n } else s1

/-- The engine of a core is reset: its commands end with err 1, and tile-table entries that fill are emptied with that code (R138, R225). -/
def engineReset (s : State) (k : Nat) : State :=
  let s1 := (s.core k).cmds.foldl (fun s e => if e.2.run then endCmdErr s k e.1 1 e.2.firstOpen none else s) s
  (s1.core k).tents.foldl (fun s e => if e.2.state = 1 then setEntry s k e.1 (e.2.fail 1) else s) s1

/-- A translation installed for data is dropped. -/
def dropXlat (s : State) (k : Nat) : State :=
  match s.tlb[k]? with
  | none => s
  | some t => if t.data then { s with tlb := s.tlb.eraseIdx k, evicted := evict s [t] } else s

/-- A gang message as its words (R318): acted on by its kind, or refused when it has none of those listed. -/
def gangArrives (sender : Nat) (ws : List Word) (s : State) : Out3 :=
  let (kind, g) := gangOfWords sender ws
  match kind with
  | 0x01 => execGangSwitch g s
  | 0x02 => execConfirm g s
  | 0x03 => execGangStop g s
  | 0x04 => execGangGo g s
  | 0x11 => execGangAck g s
  | 0x12 => execGangRefuse g s
  | 0x13 => execGangSwitched g s
  | 0x14 => execGangLapsed g s
  | _ => .next (otherGang g s)

/-- What a turn does. -/
def runTurn (t : Turn) (s : State) : Out3 :=
  match t with
  | .apipe r => aTurn false (s.refocus r)
  | .apipeLate r => aTurn true (s.refocus r)
  | .loadReturn core k => .next (loadReturn s core k)
  | .xpipe r => xTurn false (s.refocus r)
  | .xpipeLate r => xTurn true (s.refocus r)
  | .xpipePart r n => xTurnPart n (s.refocus r)
  | .heddle core slot chunk => heddleTurn s core slot chunk
  | .clock core => .next (tick s core)
  | .gnomon dt => .next (passTime s dt)
  | .engineReset core => .next (engineReset s core)
  | .dropXlat k => .next (dropXlat s k)
  | .ack core slot chunk port cause detail refused data bad => .next (peerAck s core slot chunk port cause detail refused data bad)
  | .portIp conn port v4 hi lo =>
    .next (if s.bootStep < 6 then bootRefuse s conn else if port < 48 then { s with portIps := aput s.portIps port (v4, hi, lo) } else s)
  | .ptpSet conn domain primary backup => .next (if s.bootStep < 6 then bootRefuse s conn else { s with gn := s.gn.setPorts domain primary backup })
  | .gang conn sender ws => if s.bootStep < 6 then .next (bootRefuse s conn) else gangArrives sender ws s
  | .request op m => otherRequest op m s
  | .debug r m i => if i.kind = .event then exec i ({ s with dreq := m }.refocus r) else .refused .notAnEvent
  | .event r i => if i.kind = .event then exec i (s.refocus r) else .refused .notAnEvent

/-- The turn a step takes, and the state without it: the schedule's next one, or a free one. The records of errors that walks met in the step
before come first. -/
def nextTurn (s : State) : Turn × State :=
  match s.turns with
  | t :: r => (t, settleMet { s with turns := r, out := [] })
  | [] => (Config.freeTurn s.freeCount, settleMet { s with freeCount := s.freeCount + 1, out := [] })

/-! ## Placing an instruction -/

/-- The place a table word's instruction is fetched from: a page of the first GiB of main memory, mapped for execution and accepted by its
scan, at the lowest translated address. -/
def placePage : Nat := mmBase
def placeVa : Nat := 0x100000000

/-- The shuttle in focus ready to run its next word. -/
def readyShuttle (s : State) : Shuttle :=
  { s.sh with status := .running, due := none, saveDue := none, endDue := none, preNos := [], apc := BitVec.ofNat 56 placeVa, pcHi := 0 }

/-- The word at the place, mapped and passed for the shuttle's partition. -/
def placeWord (s : State) (w : Nat) : State :=
  let t : Xlat := { pid := s.sh.pid, va := placeVa, bits := 16, pa := placePage, r := true, w := false, x := true, cmp := false, frm := false }
  { s with
    sh := readyShuttle s
    co := { s.co with halted := false, bps := [] }
    mem := s.mem.writeLe placePage 8 w
    parts := aput s.parts s.sh.pid { controlPart with mmBase := 0, mmSize := 1 }
    poison := s.poison.filter (fun l => l != placePage)
    granules := (placePage / 65536, true) :: s.granules.filter (fun g => g.1 != placePage / 65536)
    tlb := t :: s.tlb }

/-- A running program of one micro-op in a slot of the core in focus. -/
def placeMicro (s : State) (w : Nat) : State :=
  let c : Cmd :=
    { seq := 0, kind := .xfm, run := true, err := 0, first := 0, expect := 1, done := 0, recId := 0, pos := s.sh.pos, lanes := s.sh.lanes,
      pid := s.sh.pid, nearLo := 0, nearLen := 0, pm := 0, tile := none, bar := none, crc := false, fold := false, dst := 0, src := 0, len := 0,
      chunk := 1, moved := [], sent := [], fin := [], gather := [], order := 0, xAfter := 0, peer := 0, ppid := 0, ports := 0, rod := false,
      stop := false, shape := [], prog := [w], pc := 0, loops := [], bufs := List.replicate 8 [], runFmt := List.replicate 8 none,
      bpois := List.replicate 8 false, r := 0, w := 0, h := 0, r0 := 0, chunkNo := 0, wrAt := 0, wrote := [] }
  { s with co := { s.co with cmds := aput s.co.cmds 0 c } }

/-- The X queue with a word's instruction at its head, its scalar sources captured. -/
def placeEntry (s : State) (i : Instr) : State :=
  let (a, b, c, d) := xSrcs i
  let e : XEntry :=
    { instr := i, addr := placeVa, opA := sourceOf s [] a, opB := sourceOf s [] b, opC := sourceOf s [] c, opD := sourceOf s [] d, arena := s.sh.arena }
  { s with sh := { s.sh with xq := [e], flight := [], xProg := 0, xLocs := [], xIss := none, cprog := none } }

end Sys2Proof.Machine
end

