-- ==== Sys2Proof/Machine/Step.lean ====
section
/-! DEFINITION. The step of the module: one turn of one agent, in the order the schedule of the state gives (log entry 1); and the state in
which the next step runs a given word. -/

namespace Sys2Proof.Machine

/-- One step: the next turn. -/
def step (s : State) : Host.Outcome State Fault Refusal :=
  let (t, s1) := nextTurn s
  runTurn t s1

/-- The state with a table word placed where the next step finds it: a micro-op in a running program of the heddle; an A-class word, and one
that is no instruction, at `apc`; an X-class instruction at the head of the X queue. -/
def State.withFetchWord (s : State) (nbits w : Nat) : State :=
  if nbits ≤ 32 then { placeMicro s (w % 2 ^ 32) with turns := .heddle s.co.id 0 0 :: s.turns }
  else
    let r : Ref := { core := s.co.id, pos := s.sh.pos }
    let s1 := placeWord s (w % 2 ^ 64)
    match (decode (w % 2 ^ 64)).filter (fun i => i.kind == .xClass) with
    | some i => { placeEntry s1 i with turns := .xpipe r :: s.turns }
    | none => { s1 with turns := .apipe r :: s.turns }

end Sys2Proof.Machine
end

