-- ==== Sys2Proof/Safety.lean ====
section
/-! DEFINITION. What counts as a safe run, and the terms the statements use: when an instruction is ready, the state past it, and which
parts of the machine an instruction leaves alone. -/

namespace Sys2Proof.Machine

/-- A meaning answers a next state: the machine goes on. -/
def Runs (r : Out3) : Prop := ∃ t, r = .next t

/-- An A-class instruction is ready: its guard register is not pending and passes, and no register it names is pending
(R14, R24, R86, R118). -/
def Ready (h : Hd) (rs : List RegId) (s : State) : Prop :=
  aBlocked s (guard1 h) = none ∧ s.sh.guard h = true ∧ aBlocked s rs = none

/-- A state with a scalar register written; a write to x0 is discarded (R11, R41). -/
def State.setX (s : State) (d : Fin 64) (v : Word) : State := { s with sh := s.sh.xset d v }

/-- The state with the A-pipe past its instruction: the counter at the next word, with the loop-end test of this word due where a
body ends here (R103), and one more instruction done. -/
def State.past (s : State) : State :=
  { s with sh := { s.sh with
      apc := s.sh.apc + 8
      pcHi := BitVec.ofNat 8 ((s.sh.apc.toNat + 8) / 2 ^ 56)
      endDue := if (s.sh.loopAt s.sh.apc.toNat).isSome then some s.sh.apc.toNat else none
      nA := s.sh.nA + 1
      aWait := .none
      xWait := .none } }

/-- The state with the A-pipe at a target it has transferred to. -/
def State.goneTo (s : State) (dst : Nat) : State :=
  { s with sh := { s.sh with apc := BitVec.ofNat 56 dst, pcHi := BitVec.ofNat 8 (dst / 2 ^ 56), endDue := none, nA := s.sh.nA + 1, aWait := .none, xWait := .none } }

/-- The state with the A-pipe waiting at its instruction. -/
def State.stays (s : State) (w : Wait) : State := { s with sh := { s.sh with aWait := w } }

/-- The head of the X queue is ready to issue as an instruction: it has not issued, no register it names lies in a shadow or waits for an
atomic or a load of vectors, no word it reads is poisoned, and its guard passes where it has one (R14, R31, R33, R125, R153, R335). -/
def XReady (i : Instr) (s : State) : Prop :=
  let rw := xRegs s.sh (s.sh.vlmax s.sh.et s.sh.grp) i
  let c := issueCycle i s
  (rw.r ++ s.sh.boundRegs).any (s.sh.shadowed c (mmaTile i)) = false ∧
  rw.w.any (s.sh.shadowed c (mmaTile i)) = false ∧
  (rw.r ++ rw.w).any (fun r => (busyV s).contains r) = false ∧
  s.sh.xIss = none ∧ s.sh.badAt i rw.r = none ∧
  (elementWise i = true ∨ s.sh.guard i.hd = true)

/-- The state in which the effect of an X-class instruction is made: the core's clock at the cycle of issue, what has landed standing, no
flag raised yet. -/
def State.atIssue (s : State) (i : Instr) : State :=
  { s with co := { s.co with cycle := issueCycle i s }, sh := (s.sh.settle (issueCycle i s)).noFlags }

/-- What issue leaves of an effect. -/
def State.issued (s : State) (i : Instr) (e : State) : State :=
  afterIssue (s.sh.settle (issueCycle i s)) i (xRegs s.sh (s.sh.vlmax s.sh.et s.sh.grp) i).w (xTiming s.sh i) e

/-- The X-pipe has issued an instruction (R22, R30). -/
structure Issued (i : Instr) (s t : State) : Prop where
  /-- It leaves the X queue. -/
  queue : t.sh.xq = s.sh.xq.tail
  /-- It is counted. -/
  count : t.sh.nX = s.sh.nX + 1
  /-- It issued in the first cycle it could. -/
  cycle : t.sh.lastIssue = issueCycle i s

/-- The parts of the machine a statement names. -/
inductive Piece where
  | x | p | v | c | arena | queues | loops | vset | vstart | redst | fill | flags | rounding | ccur | xcur | hcsum | trap
  | events | records | program | reed | lane | tiles | ents | engine | cmds | mem | marks | xlats | dies | others
deriving DecidableEq, Repr

/-- A part of the machine is the same in two states. Flags are compared as they stand once everything issued has landed (R141), memory
byte by byte as it reads; of the rest, no word of a state register, loop record or descriptor becomes poisoned. -/
def Piece.same (k : Piece) (s t : State) : Prop :=
  match k with
  | .x => t.sh.x = s.sh.x ∧ t.sh.xpois = s.sh.xpois
  | .p => t.sh.p = s.sh.p ∧ t.sh.ppois = s.sh.ppois
  | .v => t.sh.v = s.sh.v ∧ t.sh.vpoison = s.sh.vpoison
  | .c => t.sh.c = s.sh.c
  | .arena => t.sh.arena = s.sh.arena
  | .queues => t.sh.dq = s.sh.dq ∧ t.sh.rq = s.sh.rq ∧ t.sh.rqPois = s.sh.rqPois
  | .loops => t.sh.lc = s.sh.lc ∧ t.sh.loops = s.sh.loops
  | .vset => t.sh.vlen = s.sh.vlen ∧ t.sh.vtype = s.sh.vtype
  | .vstart => t.sh.vstart = s.sh.vstart
  | .redst => t.sh.redst = s.sh.redst
  | .fill => t.sh.fill = s.sh.fill
  | .flags => t.sh.landAll.fflags = s.sh.landAll.fflags ∧ t.sh.landAll.sat = s.sh.landAll.sat
  | .rounding => t.sh.rnd = s.sh.rnd ∧ t.sh.frm = s.sh.frm
  | .ccur => t.sh.ccur = s.sh.ccur
  | .xcur => t.sh.xcur = s.sh.xcur
  | .hcsum => t.sh.hcsum = s.sh.hcsum
  | .trap => t.sh.tvec = s.sh.tvec ∧ t.sh.tcause = s.sh.tcause ∧ t.sh.level = s.sh.level
  | .events => t.sh.events = s.sh.events ∧ t.sh.timer = s.sh.timer ∧ t.sh.armed = s.sh.armed
  | .records => t.sh.frq = s.sh.frq ∧ t.sh.lost = s.sh.lost
  | .program => t.sh.prog = s.sh.prog ∧ t.sh.progOk = s.sh.progOk
  | .reed => t.sh.reed = s.sh.reed
  | .lane => t.co.qNS = s.co.qNS ∧ t.co.qCS = s.co.qCS ∧ t.co.qDS = s.co.qDS ∧ t.co.qMM = s.co.qMM ∧ t.co.loads = s.co.loads
  | .tiles => t.co.tiles = s.co.tiles
  | .ents => t.co.tents = s.co.tents
  | .engine => t.co.owner = s.co.owner ∧ t.co.acqs = s.co.acqs ∧ t.co.fa = s.co.fa ∧ t.co.fb = s.co.fb
  | .cmds => t.co.cmds = s.co.cmds
  | .mem => ∀ a, t.mem.read a = s.mem.read a
  | .marks => t.poison = s.poison ∧ t.latent = s.latent ∧ t.met = s.met
  | .xlats => t.tlb = s.tlb ∧ t.granules = s.granules ∧ t.evicted = s.evicted
  | .dies => t.dies = s.dies
  | .others => { s with sh := t.sh, co := t.co, mem := t.mem, poison := t.poison, latent := t.latent, met := t.met, tlb := t.tlb,
                        granules := t.granules, evicted := t.evicted, dies := t.dies } = t ∧ ∀ k ∈ t.sh.spois, k ∈ s.sh.spois

/-- Nothing of the machine but the parts named differs. -/
def Only (l : List Piece) (s t : State) : Prop := ∀ k, k ∉ l → k.same s t

/-- The X-pipe issues an instruction: the machine answers a next state in which it has issued, in which nothing but the parts named
differs, and of which something holds. -/
def Does (i : Instr) (s : State) (l : List Piece) (P : State → Prop) : Prop :=
  ∃ t, exec i s = .next t ∧ Issued i s t ∧ Only l s t ∧ P t

/-- An X-class instruction waits at issue: it stays at the head of the X queue, one more wait counted, and nothing else differs. -/
def Awaits (i : Instr) (s : State) (w : Wait) : Prop :=
  ∃ t, exec i s = .next t ∧ t.sh.xWait = w ∧ t.sh.xq = s.sh.xq ∧ t.sh.nX = s.sh.nX ∧ t.sh.nWait = s.sh.nWait + 1 ∧ Only [] s t

/-- An X-class instruction has no effect but a fault, taken with it still in the X queue. -/
def Faults (i : Instr) (s : State) (f : Flt) : Prop :=
  ∃ u, exec i s = faultX f u ∧ u.sh.xq = s.sh.xq ∧ u.sh.nX = s.sh.nX ∧ Only [] s u

/-- The shape a shuttle has after any `vsetl` (R144): 1 to 32 lanes, and no more elements than the groups hold. -/
def State.shaped (s : State) : Prop := 1 ≤ s.sh.lanes ∧ s.sh.lanes ≤ 32 ∧ s.sh.vlen.toNat ≤ s.sh.grp * s.sh.eper s.sh.et

/-- Element j of the group of g registers at d takes the code `w j` where there is one; every other element of the group, and every
other vector register, is as it was (R12, R15, R141). -/
def Puts (s t : State) (d : Fin 64) (e : EType) (g : Nat) (w : Nat → Option Nat) : Prop :=
  (∀ j, j < g * s.sh.eper e → t.sh.elem d.val j e = (w j).getD (s.sh.elem d.val j e)) ∧
  (∀ r, r < d.val ∨ d.val + g ≤ r → t.sh.vreg r = s.sh.vreg r)

/-- Codes for the active elements. -/
def onActive (s : State) (h : Hd) (f : Nat → Nat) (j : Nat) : Option Nat := if s.sh.active h j then some (f j) else none

/-- The flags of g (bits 0 to 4 `fflags`, bit 5 `sat`) are raised, and no other (R18). -/
def Raises (s t : State) (g : Nat) : Prop :=
  t.sh.landAll.fflags = s.sh.landAll.fflags ||| BitVec.ofNat 5 g ∧ t.sh.landAll.sat = (s.sh.landAll.sat || bitAt g 5)

/-- The flags of the active elements together. -/
def flagsOf (s : State) (h : Hd) (f : Nat → Nat) : Nat := (s.sh.actives h).foldr (fun j g => g ||| f j) 0

/-- What a column instruction needs beside its types: none is under way and its turn is not bounded, the stop cursor of a `cres` names it, its
columns lie in the arena and share no storage R203 forbids, no write of the core covers its inputs and none is outstanding at the near port;
and memory is in its canonical form, with no poison. -/
def ColReady (s : State) (c : CCtl) (ins : List (Nat × Bool)) : Prop :=
  s.sh.cprog = none ∧ s.share = none ∧ (c.res = true → curIs s.sh.curLo c.op c.fn = true) ∧
  arenaOk s (c.outs.map s.sh.col ++ ins.map (fun i => s.sh.col i.1)) = true ∧ overlapBad s.sh c.outs ins = false ∧
  (∀ i ∈ ins, colHeld s (s.sh.col i.1) = false) ∧ s.co.qNS = [] ∧ s.poison = [] ∧ s.mem.wf = true

/-- Element k of a column as memory holds it (R195). -/
def State.colElem (s : State) (c : Col) (k : Nat) : Nat := s.mem.readLe (colKey s c k) c.size

/-- The state with the plain writes of the core's near queue performed, in their order (R115, R126). -/
def State.nearDone (s : State) : State :=
  { s with mem := s.co.qNS.foldl (fun m e => e.bytes.foldl (fun m b => m.write (e.line + b.1) b.2) m) s.mem }

/-- Lists of values put into columns one place after another, while the near queue takes them. -/
def State.putAll (s : State) (cols : List Col) (k : Nat) : List (List Nat) → Option State
  | [] => some s
  | v :: r => (emitTo s k cols v).bind (fun u => u.putAll cols (k + 1) r)

/-- Once the near writes have performed, columns hold values from place k0 up to n, one list of values for each place, and no other byte of
memory differs. -/
def Columns (s t : State) (cols : List Col) (k0 n : Nat) (vals : Nat → List Nat) : Prop :=
  (∀ q col, cols[q]? = some col → ∀ k, k0 ≤ k → k < n → t.nearDone.colElem col k = (vals (k - k0)).getD q 0 % 2 ^ (8 * col.size)) ∧
  (∀ a, (∀ col ∈ cols, a < colKey s col k0 ∨ colKey s col n ≤ a) → t.nearDone.mem.read a = s.mem.read a)

/-- An instruction that stops at capacity puts values into its outputs, from where its cursor has it begin (R199 to R201): each with the
cursor it stands at. With room for all, and a near queue that takes them, it completes: lengths, X[y] and the partial predicate say so. With
less room it stops, and does not complete: as well, with the stop cursor where the first value left out stands, or, without a partial predicate, with COLCAP 4 and
the progress cursor there. Where the queue takes no more, it waits with what it has put out, at the value it could not (R113, R220). -/
def Emits (i : Instr) (s : State) (l : List Piece) (c : CCtl) (start : Nat) (vals : List (List Nat × Nat × Nat)) (fl : Nat) : Prop :=
  let cols := c.outs.map s.sh.col
  let cap := (cols.map Col.cap).foldl Nat.min (2 ^ 20)
  let k0 := (cbegin s.sh c start).2.2
  let n := k0 + vals.length
  let val (k : Nat) : List Nat := (vals.getD k ([], 0, 0)).1
  let fits (m : Nat) : Prop := (s.putAll cols k0 ((vals.take m).map Prod.fst)).isSome = true
  let at' := (vals.getD (cap - k0) ([], 0, 0)).2
  let hi := s.sh.curHi % 2 ^ 63
  let does (m : Nat) (part : Bool) (lo : Nat) (P : State → Prop) : Prop := Does i s ([.c, .x, .p, .lane, .flags, .ccur] ++ l) (fun t =>
    Columns s t cols k0 m val ∧ t.sh.c = (s.sh.setLens c.outs m).c ∧ t.sh.x = (s.sh.xset c.y (BitVec.ofNat 64 m)).x ∧
    t.sh.p = (s.sh.setPp c.pp part).p ∧ t.sh.ccur = (s.sh.setCur hi lo).ccur ∧
    (.vstart ∈ l → t.sh.vstart = if part then s.sh.vstart else 0) ∧ P t)
  k0 ≤ cap →
    (n ≤ cap → fits vals.length → does n false (if c.res then s.sh.curLo % 2 ^ 63 else s.sh.curLo) (fun t => Raises s t fl)) ∧
    (cap < n → fits (cap - k0) → c.pp.val ≠ 63 → does cap true (curWord false c.op c.fn at'.1 at'.2) (fun _ => True)) ∧
    (cap < n → fits (cap - k0) → c.pp.val = 63 → ∃ u, exec i s = faultX { flt 0x07 4 true with index := at'.1 } u ∧ u.sh.xq = s.sh.xq ∧
      Only ([.c, .lane, .flags, .ccur] ++ l) s u ∧ Columns s u cols k0 cap val ∧ u.sh.c = (s.sh.setLens c.outs cap).c ∧
      u.sh.ccur = (s.sh.setCur (curWord c.res c.op c.fn at'.1 at'.2) s.sh.curLo).ccur) ∧
    (∀ m, m < vals.length → k0 + m < cap → fits m → ¬ fits (m + 1) → ∃ t q, exec i s = .next t ∧ t.sh.xWait = .other ∧ t.sh.xq = s.sh.xq ∧
      t.sh.nX = s.sh.nX ∧ Only [.lane, .ccur] s t ∧ Columns s t cols k0 (k0 + m) val ∧ t.sh.ccur = (s.sh.setCur hi s.sh.curLo).ccur ∧
      t.sh.cprog = some q ∧ (q.i, q.j) = (vals.getD m ([], 0, 0)).2 ∧ q.k = k0 + m ∧ q.vals = [])

/-- An instruction that fails part-way (R199, R201, R204): with room in its outputs and a near queue that takes them, what it has put out
before stands, lengths and flags say so, and the progress cursor stands where it failed. -/
def FailsAt (i : Instr) (s : State) (c : CCtl) (vals : List (List Nat)) (fl : Nat) (f : Flt) (at' : Nat × Nat) : Prop :=
  let cols := c.outs.map s.sh.col
  let k0 := (cbegin s.sh c 0).2.2
  let n := k0 + vals.length
  k0 ≤ (cols.map Col.cap).foldl Nat.min (2 ^ 20) → n ≤ (cols.map Col.cap).foldl Nat.min (2 ^ 20) → (s.putAll cols k0 vals).isSome = true →
    ∃ u, exec i s = faultX f u ∧ u.sh.xq = s.sh.xq ∧ Only [.c, .lane, .flags, .ccur] s u ∧ Columns s u cols k0 n (fun k => vals.getD k []) ∧
      u.sh.c = (s.sh.setLens c.outs n).c ∧ Raises s u fl ∧
      u.sh.ccur = (s.sh.setCur (curWord c.res c.op c.fn at'.1 at'.2) s.sh.curLo).ccur

/-- The empty case (R198): nothing read, every output of length `k`. -/
def EmptyCol (i : Instr) (s : State) (l : List Piece) (c : CCtl) (k : Nat) : Prop :=
  Does i s ([.c, .x, .p] ++ l) (fun t => t.sh.c = (s.sh.setLens c.outs k).c ∧ t.sh.x = (s.sh.xset c.y (BitVec.ofNat 64 k)).x ∧
    t.sh.p = (s.sh.setPp c.pp false).p)

/-- The checks a column instruction with none under way makes in order (R196, R198, R202 to R204), its wait for writes that cover its inputs
(R126), and what holds once it passes them. -/
def ColChecks (i : Instr) (s : State) (c : CCtl) (ins : List (Nat × Bool)) (types : Bool) (P : Prop) : Prop :=
  let cur := c.res = true → curIs s.sh.curLo c.op c.fn = true
  let cols := ins.map (fun i => s.sh.col i.1)
  let inArena := arenaOk s (c.outs.map s.sh.col ++ cols) = true
  XReady i s → s.sh.cprog = none →
    (¬ cur → Faults i s (flt 0x07 5 true)) ∧
    (cur → types = false → Faults i s (flt 0x04 4 true)) ∧
    (cur → types = true → ¬ inArena → Faults i s (flt 0x03 4 true)) ∧
    (cur → types = true → inArena → overlapBad s.sh c.outs ins = true → Faults i s (flt 0x07 3 true)) ∧
    (cur → types = true → inArena → overlapBad s.sh c.outs ins = false → cols.any (colHeld s) = true → Awaits i s .other) ∧
    (ColReady s c ins → types = true → P)

/-- The coordinates a stream of the reed gives from a place on, with their positions, when a walk of n steps reaches its end (R237). -/
def Stream.listed (t : Stream) (s : State) : Nat → It → Option (List (Nat × Nat × Nat))
  | 0, _ => none
  | n + 1, it =>
    match t.next s it with
    | .fin => some []
    | .skip i => t.listed s n i
    | .some r c p i => (t.listed s n i).map (fun l => (r, c, p) :: l)
    | _ => none

/-- The position of a coordinate in a list. -/
def posOf (l : List (Nat × Nat × Nat)) (r c : Nat) : Option Nat := (l.find? (fun e => e.1 == r && e.2.1 == c)).map (fun e => e.2.2)

/-- Coordinates in strictly rising order. -/
def Rising (l : List (Nat × Nat × Nat)) : Prop := l.Pairwise (fun a b => cLt a.1 a.2.1 b.1 b.2.1 = true)

/-- Every core and every shuttle stands under its own number: what the lists of a state are kept by. -/
def State.named (s : State) : Prop := (∀ k, (s.core k).id = k) ∧ ∀ k p, (s.shuttle { core := k, pos := p }).pos = p

end Sys2Proof.Machine
end

