-- ==== Sys2Proof/Certificates/Slice0/Obligations.lean ====
section
/-! DEFINITION. The statements for the provers, from the numbered rules of spec/. -/

open Sys2Proof Sys2Proof.Machine

/-- Words written out from the encodings decode to their instructions. Words of the S, I, M, B, Y, V, W, C and E forms and a micro-op, written
out field by field from R69, R72, R82 and the encoding rows, decode to the instructions they stand for; a word with an op that is not
listed, with an unused field that is not zero, or with a register outside its file decodes to none. -/
def Obligations.DecodeWords : Prop :=
  decode 0x001F830420000000 = some (.add Hd.free 3 1 2) ∧
  decode 0x5842C91050000000 = some (.vadd { gd := 5, ng := true, w := 2 } false false .rne 9 4 5) ∧
  decode 0x301F850405000010 = some (.ld Hd.free false 2 true 5 1 16) ∧
  decode 0x311F8608060FFFF8 = some (.st Hd.free false 3 6 2 0xFFFF8) ∧
  decode 0x501F840C00020003 = some (.vsetl Hd.free 0 false .f32 3 4 3) ∧
  decode 0x531F845022198000 = some (.vldx Hd.free .n32 .n32 2 4 20 2 8 0) ∧
  decode 0x933F805155800052 = some (.mma { gd := 63, ng := false, w := 1 } true .f4 .f4 0 20 21 22) ∧
  decode 0xA31F8404A03F0428 = some (.csel Hd.free .gt false 4 1 10 40 63) ∧
  decode 0xB01F936165FF0013 = some (.hcopy Hd.free 3 false true false false 19 24 22 23 63 0) ∧
  decodeMicro 0x08200007 = some (.hwr 1 7) ∧ decodeMicro 0x68000041 = some (.hloop 1 1) ∧
  decode 0x041F830420004000 = some (.div Hd.free true 3 1 2) ∧
  decode 0x161F860000000001 = some (.li Hd.free false 6 1) ∧
  decode 0x261F811D00000003 = some (.loopx Hd.free 1 1 7 3) ∧
  decode 0x151F861800000001 = some (.shi Hd.free .sll 6 6 1) ∧
  decode 0x1A1F811800008000 = some (.pcmp Hd.free .lt 1 6 0) ∧
  decode 0x251F801400000003 = some (.loop Hd.free false 0 5 3) ∧
  decode 0x291F800000000000 = some (.nop Hd.free) ∧
  decode 0xC21F850000010000 = some (.srd Hd.free .vlen 5) ∧
  decode 0xC41F800000000000 = some (.halt Hd.free 0) ∧
  decode 0x001F800000000000 = some (.add Hd.free 0 0 0) ∧
  decodeMicro 0x70000000 = some .endPass ∧
  decode 0xFF1F800000000000 = none ∧ decode 0x001F800000000001 = none ∧ decode 0x1A1FB01800008000 = none

/-- Decoding and encoding agree on every instruction, both ways. A well-formed A-class or X-class instruction, with every operand at every
value it may have, is what its word decodes to, and its word fits 64 bits; likewise a micro-op, in 32 bits. A word that decodes to an
instruction is the word of that instruction, which is well-formed; so no two words mean the same instruction. -/
def Obligations.CodingRoundTrip : Prop :=
  (∀ i : Instr, i.wf = true → (i.kind = .aClass ∨ i.kind = .xClass) → decode (encode i) = some i ∧ encode i < 2 ^ 64) ∧
  (∀ i : Instr, i.wf = true → i.kind = .micro → decodeMicro (encode i) = some i ∧ encode i < 2 ^ 32) ∧
  (∀ (w : Nat) (i : Instr), decode w = some i → i.wf = true ∧ encode i = w ∧ (i.kind = .aClass ∨ i.kind = .xClass)) ∧
  (∀ (w : Nat) (i : Instr), decodeMicro w = some i → encode i = w ∧ i.kind = .micro)

/-- A step runs the decoded instruction at its turn. A fetch at a translated address that is a multiple of 8 gives the eight bytes its page
holds there. At a turn of the A-pipe of a running shuttle, with nothing due and no breakpoint, the step fetches the word at apc and, when
it decodes to an instruction, dispatches an X-class one and executes an A-class one that reads no poisoned word (of one that does, it
raises ECC). A turn of the A-pipe or the X-pipe in which loads read later differs for ld, ldq, ldq.g and the vector loads alone. Dispatch
puts an instruction last in the X queue, with its scalar sources captured unless pending, and goes past; it waits while the queue is full.
At a turn of the X-pipe the step executes the instruction at the head of the X queue, unless it comes after a load under way: at a port it
writes at, or one it reads at while its place among the reads there is fixed. To execute an instruction is exec of it; one that shares a
unit of its core waits while the reed is in the middle of another shuttle's instruction or another shuttle comes before it, and else is
served, and noted as served where it gets on; the column unit and the reed put out 16 elements at most in one service. At a turn of a
heddle the step is exec of the micro-op at its place in the program. An event of the table, at its turn, is executed, and so is what a
debug request asks for. Around these a step only passes a breakpoint and ends a step of the debugger. An empty schedule gives a free turn.
The records of errors that walks met in the step before come first (log entry 112). It rests on the choices of the model in log entries 1,
2, 13, 83, 109, 112 and 119. -/
def Obligations.StepRunsDecoded : Prop :=
  ∀ (s : State) (r : Ref) (ts : List Turn),
    let z : State := settleMet { s with turns := ts, out := [] }
    let s0 := z.refocus r
    let free := s0.sh.status = .running ∧ s0.co.halted = false ∧ s0.co.haltDue = false ∧ s0.sh.due = none ∧ s0.sh.saveDue = none
    (∀ (s1 s2 : State) (t : Xlat) (l : Loc), s1.sh.apc.toNat % 8 = 0 → s1.sh.pcHi = 0 → windowOf s1.sh.apc.toNat = .xlat →
      walkMeets s1 s1.co.id s1.sh.pid s1.sh.apc.toNat .fetch 1 = false → walkMeets s1 s1.co.id s1.sh.pid s1.sh.apc.toNat .fetch 2 = false →
      translate s1 s1.sh.pid s1.sh.apc.toNat .fetch = (s2, .ok (some t)) →
      checkPhys s2 t s2.co.id s1.sh.pid s1.sh.apc.toNat 8 .fetch false true = .ok l → fetch s1 = (s2, .word (s2.mem.readLe l.key 8))) ∧
    (∀ (s1 : State) (w : Nat) (i : Instr) (late : Bool), s.turns = (if late then .apipeLate r else .apipe r) :: ts → free → s0.sh.endDue = none →
      s0.sh.preVset = false → bpHere s0 = false → fetch s0 = (s1, .word w) → decode w = some i →
      step s = stepEnds s0.sh false (passed s0.sh
        (if i.kind = .xClass then dispatch i s1 else if aPoisoned i s1 then raiseA cECC 2 s1 else if late then execLate i s1 else execServed i s1))) ∧
    (∀ (i : Instr) (u : State), (∀ h sz sx d a off, i ≠ .ld h false sz sx d a off) → (∀ h sz sx d a off, i ≠ .ldq h sz sx d a off) →
      (∀ h d a off, i ≠ .ldqG h d a off) → (∀ h t d a off, i ≠ .vld h t d a off) → (∀ h t d a b off, i ≠ .vlds h t d a b off) →
      (∀ h t it sf d a b pm off, i ≠ .vldx h t it sf d a b pm off) → execLate i u = execServed i u) ∧
    (∀ (i : Instr) (u : State),
      (arbOf i = none → execServed i u = exec i u) ∧
      (∀ k, arbOf i = some k → reedBusy i u = true ∨ goesSecond k i u = true → execServed i u = if i.kind = .xClass then waitX u .other else waitA u .other) ∧
      (∀ k, arbOf i = some k → reedBusy i u = false → goesSecond k i u = false →
        (execServed i u = serve k i u ∨ ∃ t, serve k i u = .next t ∧
          execServed i u = .next { t with co := { t.co with served := aput t.co.served k u.sh.pos } })) ∧
      (∀ k, 2 ≤ k → serve k i u = exec i u) ∧
      (∀ k t, k < 2 → u.share = none → exec i { u with share := some 16 } = .next t → serve k i u = .next { t with share := none })) ∧
    (∀ (i : Instr) (s1 : State), (s1.sh.xq.length < 64 → (∀ a b c d, xSrcs i = (a, b, c, d) → ∀ q, some q ∈ [a, b, c, d] → s1.co.xReturning s1.sh.pos q.val = false) →
        ∃ (t : State) (e : XEntry), dispatch i s1 = .next t ∧ t.sh.xq = s1.sh.xq ++ [e] ∧ e.instr = i ∧ e.addr = s1.sh.apc.toNat ∧ t.sh.apc = s1.sh.apc + 8 ∧
          t.sh.nA = s1.sh.nA ∧ t.sh.nD = s1.sh.nD + 1 ∧ Only [] s1 t ∧
          (∀ q, (xSrcs i).1 = some q → e.opA =
            if (s1.sh.pendingQ ++ s1.sh.pendingF s1.co.cycle).contains (.x q.val) then .bound q.val else .cap (s1.sh.xget q))) ∧
      (64 ≤ s1.sh.xq.length → dispatch i s1 = .next (s1.stays .onX))) ∧
    (∀ (e : XEntry) (q : List XEntry), s.turns = .xpipe r :: ts → s0.sh.xq = e :: q → free →
      (loadAhead false s0 e = false → step s = stepEnds s0.sh true (execServed e.instr s0)) ∧ (loadAhead false s0 e = true → step s = waitX s0 .other)) ∧
    (∀ (e : XEntry) (q : List XEntry), s.turns = .xpipeLate r :: ts → s0.sh.xq = e :: q → free → loadAhead true s0 e = false →
      step s = stepEnds s0.sh true (execLate e.instr s0)) ∧
    (∀ (core slot chunk : Nat) (c : Cmd) (w : Nat) (i : Instr), s.turns = .heddle core slot chunk :: ts → z.cmd? core slot = some c → c.kind = .xfm →
      c.prog[c.pc]? = some w → decodeMicro w = some i →
      let s1 := z.refocus { core := core, pos := c.pos }
      step s = exec i { s1 with co := { s1.co with hslot := slot } }) ∧
    (∀ i : Instr, s.turns = .event r i :: ts → i.kind = .event → step s = exec i s0) ∧
    (∀ (m : MgmtReq) (i : Instr), s.turns = .debug r m i :: ts → i.kind = .event → step s = exec i (({ z with dreq := m } : State).refocus r)) ∧
    (∀ (sh : Shuttle) (x : Bool) (o : Out3), (∀ t, o = .next t → t.co.stepping = none) → stepEnds sh x o = o) ∧
    (∀ (sh : Shuttle) (o : Out3), passed sh o = o ∨ ∃ t, o = .next t ∧
      passed sh o = .next { t with co := { t.co with bpPass := t.co.bpPass.filter (fun p => p != sh.pos) } }) ∧
    (s.turns = [] → step s = runTurn (Config.freeTurn s.freeCount) (settleMet { s with freeCount := s.freeCount + 1, out := [] })) ∧
    (s.met = [] → z = { s with turns := ts, out := [] })

/-- What reset leaves. After power-on reset the boot ROM waits for the image; every scalar, predicate, vector and column register, the arena
word, apc and xpc, every other state register but wlbud, and every loop counter of the shuttle in focus is zero, no loop record is active,
the queues are empty and the trap level is 0; tiles hold zero with band scale 1.0 and tile entries are empty; the write budget is full at
a refill of 3,906; the feature set is unlocked, every granule open, no partition, record, session, key or bank-map entry exists; the
gnomon has never locked; main memory reads zero and memory is in its canonical form. Every core and shuttle stands under its own number.
It rests on the choices of the model in log entries 5, 7, 8, 10 and 12. -/
def Obligations.ResetFacts : Prop :=
  let z := State.reset
  z.bootStep = 3 ∧ z.feature = none ∧ z.granules = [] ∧ z.parts = [] ∧ z.recs = [] ∧ z.queues = [] ∧ z.sessions = [] ∧ z.gangs = [] ∧ z.tokens = [] ∧
  z.gn.lock = 3 ∧ z.poison = [] ∧ z.latent = [] ∧ z.tlb = [] ∧ z.cause = 0 ∧
  (∀ r : Fin 64, z.sh.xget r = 0) ∧ (∀ r, z.sh.preg r = 0) ∧ (∀ r, z.sh.vreg r = 0) ∧
  (∀ k : Fin 16, z.sh.c[k] = 0) ∧ z.sh.arena = 0 ∧ z.sh.apc = 0 ∧ z.sh.pcHi = 0 ∧ z.sh.xpc = 0 ∧
  (∀ k : Fin 3, z.sh.lc[k] = 0 ∧ z.sh.loops[k].act = false ∧ z.sh.loops[k].pred = 63) ∧
  z.sh.vlen = 0 ∧ z.sh.vtype = 0 ∧ z.sh.vstart = 0 ∧ z.sh.redst = 0 ∧ z.sh.fill = 0 ∧ z.sh.sat = false ∧ z.sh.fflags = 0 ∧ z.sh.rnd = 0 ∧
  z.sh.frm = 0 ∧ z.sh.ccur = 0 ∧ z.sh.xcur = 0 ∧ z.sh.hcsum = 0 ∧ z.sh.tvec = 0 ∧ z.sh.tcause = 0 ∧ z.sh.level = 0 ∧ z.sh.xq = [] ∧
  (∀ k, z.sh.dqOf k = [] ∧ z.sh.rqOf k = []) ∧ z.sh.frq = [] ∧ z.sh.armed = false ∧
  z.co.tiles = [] ∧ Tile.reset.data = 0 ∧ Tile.reset.scale = 0x3F80 ∧ (∀ k, z.co.tent k = TEnt.reset) ∧ z.co.wlbud = 64 * 3906 ∧ z.co.refill = 3906 ∧
  (∀ d, (z.die d).keys = [] ∧ (z.die d).banks = [] ∧ (z.die d).scrubs = [] ∧ (z.die d).fabRefill = 4681) ∧
  z.mem.wf = true ∧ (∀ a, mmBase ≤ a → z.mem.read a = 0) ∧ z.named

/-- Every step keeps memory in its canonical form. From every state whose memory lists strictly rising addresses and no byte equal to what its
address reads as when unlisted, every turn of every agent that answers a next state leaves such a memory: so equal memories stay equal
data, and each write changes exactly what it stores. -/
def Obligations.MemoryInvariant : Prop :=
  ∀ s t : State, s.mem.wf = true → step s = .next t → t.mem.wf = true

/-- Every step keeps every core and shuttle under its own number. From every state in which each core and each shuttle is kept under its own
number, every turn that answers a next state leaves such a state: no instruction, event or change of focus moves a shuttle or a core to
another's place. -/
def Obligations.NumberInvariant : Prop :=
  ∀ s t : State, s.named → step s = .next t → t.named

/-- A scalar instruction changes its destination only, and a register reads what was last written to it. After a write of X[d] by the shared
operation, register r reads the written value when r is d and d is not x0, and what it read before otherwise; x0 reads 0. When one of the
scalar instructions of R87 to R92 answers a next state, every scalar register but X[d] reads as before, only P[d] of the predicates
differs and only for a compare, and every other part of the machine, flags and every byte of memory among them, is the same. -/
def Obligations.ScalarFrame : Prop :=
  ((∀ s : State, s.sh.xget 0 = 0) ∧
    ∀ (s : State) (d r : Fin 64) (v : Word), (s.setX d v).sh.xget r = if r = d ∧ d ≠ 0 then v else s.sh.xget r) ∧
  (∀ (h : Hd) (d a b e : Fin 64) (u : Bool) (km : MulK) (ks : ShK) (kc : CmpK) (n : BitVec 6) (imm : BitVec 32) (i : Instr) (s t : State),
      i ∈ [Instr.add h d a b, .sub h d a b, .mul h d a b, .mulh h km d a b, .div h u d a b, .rem h u d a b, .and h d a b, .or h d a b,
        .xor h d a b, .sll h d a b, .srl h d a b, .sra h u d a b, .min h u d a b, .max h u d a b, .clz h d a, .ctz h d a, .popc h d a,
        .addi h d a imm, .andi h d a imm, .ori h d a imm, .xori h d a imm, .shi h ks d a n, .li h u d imm, .lih h d a imm, .addpc h d imm,
        .sel h d a b e, .pcmp h kc d a b, .pcmpi h kc d a imm] →
      exec i s = .next t →
        Only [.x, .p] s t ∧
        (∀ r, r ≠ d → t.sh.xget r = s.sh.xget r) ∧ (∀ r, r ≠ d.val → t.sh.preg r = s.sh.preg r) ∧
        (i ∉ [Instr.pcmp h kc d a b, .pcmpi h kc d a imm] → t.sh.p = s.sh.p) ∧ (i ∈ [Instr.pcmp h kc d a b, .pcmpi h kc d a imm] → t.sh.x = s.sh.x))

/-- The register-register scalar instructions write what R87 gives. When it is ready, each of add, sub, mul, mulh, and, or, xor, sll, srl,
sra, min, max, clz, ctz and popc answers the state with X[d] as R87 gives it and the A-pipe past the instruction; shifts use the low six
bits of the count. When it is ready, clz writes the number of leading zero bits of X[a], ctz the number of trailing zero bits, both 64 for
zero, and popc the number of one bits, and the A-pipe is past the instruction. -/
def Obligations.ScalarArithmetic : Prop :=
  (∀ (h : Hd) (d a b : Fin 64) (s : State), Ready h (xs [d, a, b]) s →
      let A := s.sh.xget a
      let B := s.sh.xget b
      let n := B.toNat % 64
      exec (.add h d a b) s = .next (s.setX d (BitVec.ofNat 64 (A.toNat + B.toNat))).past ∧
      exec (.sub h d a b) s = .next (s.setX d (BitVec.ofInt 64 ((A.toNat : Int) - B.toNat))).past ∧
      exec (.mul h d a b) s = .next (s.setX d (BitVec.ofNat 64 (A.toNat * B.toNat))).past ∧
      exec (.mulh h .ss d a b) s = .next (s.setX d (BitVec.ofInt 64 (A.toInt * B.toInt / 2 ^ 64))).past ∧
      exec (.mulh h .uu d a b) s = .next (s.setX d (BitVec.ofNat 64 (A.toNat * B.toNat / 2 ^ 64))).past ∧
      exec (.mulh h .su d a b) s = .next (s.setX d (BitVec.ofInt 64 (A.toInt * B.toNat / 2 ^ 64))).past ∧
      exec (.and h d a b) s = .next (s.setX d (A &&& B)).past ∧
      exec (.or h d a b) s = .next (s.setX d (A ||| B)).past ∧
      exec (.xor h d a b) s = .next (s.setX d (A ^^^ B)).past ∧
      exec (.sll h d a b) s = .next (s.setX d (BitVec.ofNat 64 (A.toNat * 2 ^ n))).past ∧
      exec (.srl h d a b) s = .next (s.setX d (BitVec.ofNat 64 (A.toNat / 2 ^ n))).past ∧
      exec (.sra h false d a b) s = .next (s.setX d (BitVec.ofInt 64 (A.toInt / 2 ^ n))).past ∧
      exec (.sra h true d a b) s = .next (s.setX d (BitVec.ofInt 64 (shiftRound A.toInt n (irmOf s.sh.rnd)))).past ∧
      exec (.min h false d a b) s = .next (s.setX d (if A.toInt < B.toInt then A else B)).past ∧
      exec (.min h true d a b) s = .next (s.setX d (if A.toNat < B.toNat then A else B)).past ∧
      exec (.max h false d a b) s = .next (s.setX d (if A.toInt < B.toInt then B else A)).past ∧
      exec (.max h true d a b) s = .next (s.setX d (if A.toNat < B.toNat then B else A)).past) ∧
  (∀ (h : Hd) (d a : Fin 64) (s : State), Ready h (xs [d, a]) s →
      let A := s.sh.xget a
      (∃ n, exec (.clz h d a) s = .next (s.setX d (BitVec.ofNat 64 n)).past ∧ n ≤ 64 ∧
        (∀ k, 64 - n ≤ k → A.getLsbD k = false) ∧ (n < 64 → A.getLsbD (63 - n) = true)) ∧
      (∃ n, exec (.ctz h d a) s = .next (s.setX d (BitVec.ofNat 64 n)).past ∧ n ≤ 64 ∧
        (∀ k, k < n → A.getLsbD k = false) ∧ (n < 64 → A.getLsbD n = true)) ∧
      exec (.popc h d a) s = .next (s.setX d (BitVec.ofNat 64 ((List.range 64).countP (fun k => A.getLsbD k)))).past)

/-- Division and its edge cases. When it is ready, div writes the quotient truncated toward zero and rem A − q × B; by zero the quotient is
all ones and the remainder A; −2^63 by −1 gives −2^63 and 0; neither raises anything. -/
def Obligations.ScalarDivision : Prop :=
  ∀ (h : Hd) (d a b : Fin 64) (s : State), Ready h (xs [d, a, b]) s →
    let A := s.sh.xget a
    let B := s.sh.xget b
    exec (.div h true d a b) s = .next (s.setX d (if B = 0 then BitVec.allOnes 64 else BitVec.ofNat 64 (A.toNat / B.toNat))).past ∧
    exec (.rem h true d a b) s = .next (s.setX d (if B = 0 then A else BitVec.ofNat 64 (A.toNat % B.toNat))).past ∧
    exec (.div h false d a b) s = .next (s.setX d (if B = 0 then BitVec.allOnes 64 else BitVec.ofInt 64 (A.toInt.tdiv B.toInt))).past ∧
    exec (.rem h false d a b) s = .next (s.setX d (if B = 0 then A else BitVec.ofInt 64 (A.toInt.tmod B.toInt))).past ∧
    (A = BitVec.ofNat 64 (2 ^ 63) → B = BitVec.allOnes 64 →
      exec (.div h false d a b) s = .next (s.setX d A).past ∧ exec (.rem h false d a b) s = .next (s.setX d 0).past)

/-- The immediate forms and sel write what R89 and R90 give. When it is ready, each of addi, andi, ori, xori, shi, li, li.z, lih, addpc and
sel answers the state with X[d] as R89 and R90 give it and the A-pipe past the instruction. -/
def Obligations.ScalarImmediates : Prop :=
  ∀ (h : Hd) (d a b e : Fin 64) (imm : BitVec 32) (n : BitVec 6) (s : State), Ready h (.p e.val :: xs [d, a, b]) s → Ready h (xs [d, a]) s → Ready h (xs [d]) s →
    let A := s.sh.xget a
    let I : Word := imm.signExtend 64
    exec (.addi h d a imm) s = .next (s.setX d (A + I)).past ∧
    exec (.andi h d a imm) s = .next (s.setX d (A &&& I)).past ∧
    exec (.ori h d a imm) s = .next (s.setX d (A ||| I)).past ∧
    exec (.xori h d a imm) s = .next (s.setX d (A ^^^ I)).past ∧
    exec (.shi h .sll d a n) s = .next (s.setX d (BitVec.ofNat 64 (A.toNat * 2 ^ n.toNat))).past ∧
    exec (.shi h .srl d a n) s = .next (s.setX d (BitVec.ofNat 64 (A.toNat / 2 ^ n.toNat))).past ∧
    exec (.shi h .sra d a n) s = .next (s.setX d (BitVec.ofInt 64 (A.toInt / 2 ^ n.toNat))).past ∧
    exec (.shi h .srr d a n) s = .next (s.setX d (BitVec.ofInt 64 (shiftRound A.toInt n.toNat (irmOf s.sh.rnd)))).past ∧
    exec (.li h false d imm) s = .next (s.setX d I).past ∧
    exec (.li h true d imm) s = .next (s.setX d (imm.zeroExtend 64)).past ∧
    exec (.lih h d a imm) s = .next (s.setX d (imm ++ A.extractLsb' 0 32)).past ∧
    exec (.addpc h d imm) s = .next (s.setX d (s.sh.apc.zeroExtend 64 + I)).past ∧
    exec (.sel h d a b e) s = .next (s.setX d (if (s.sh.preg e.val).getLsbD 0 then A else s.sh.xget b)).past

/-- pcmp and pcmpi fill a predicate register with one answer. When it is ready and no X-class instruction in the X queue reads P[d], a compare
writes its answer to all 512 bits of P[d], which leaves no word of it poisoned, and goes past; while one does, it waits and changes
nothing else. The answer is that of the condition on X[a] and X[s2], or the sign-extended immediate. -/
def Obligations.ScalarCompares : Prop :=
  ∀ (h : Hd) (k : CmpK) (d a b : Fin 64) (imm : BitVec 32) (s : State), d.val < 48 → Ready h (.p d.val :: xs [a, b]) s → Ready h (.p d.val :: xs [a]) s →
    let holds : Word → Word → Bool := fun A B => match k with
      | .eq => decide (A = B) | .ne => decide (A ≠ B) | .lt => decide (A.toInt < B.toInt) | .ge => decide (B.toInt ≤ A.toInt)
      | .ltu => decide (A.toNat < B.toNat) | .geu => decide (B.toNat ≤ A.toNat)
    let filled : Bool → State := fun c => { s with sh := { s.sh with
      p := s.sh.p.setIfInBounds d.val (if c then BitVec.allOnes 512 else 0), ppois := s.sh.ppois.filter (fun q => q.1 != d.val) } }
    (queueReadsP s.sh d = false →
      exec (.pcmp h k d a b) s = .next (filled (holds (s.sh.xget a) (s.sh.xget b))).past ∧
      exec (.pcmpi h k d a imm) s = .next (filled (holds (s.sh.xget a) (imm.signExtend 64))).past) ∧
    (queueReadsP s.sh d = true →
      exec (.pcmp h k d a b) s = .next (s.stays .onX) ∧
      exec (.pcmpi h k d a imm) s = .next (s.stays .onX))

/-- A failing guard, nop, xsync and the fences. For every A-class instruction: while its guard register is pending it waits; when its guard
fails the machine answers the state with the A-pipe past the instruction and nothing else changed. A ready nop goes past at once. A ready
xsync goes past, with the flags of everything issued standing, once the X queue is empty and no write or mark is outstanding; xsync.i once
the X queue is empty. fence goes past once the X queue holds no access, no load is under way and no write of the shuttle is in the lane;
fence.wl once no write of it is in the lane; fence.xa once the X queue holds no access, the lane none of the X-pipe, and no load of the
X-pipe is under way. Otherwise each waits: fence and fence.xa on a queued X-class access that has not been made, and each on what it has
in the lane. It rests on the choices of the model in log entry 38. -/
def Obligations.GuardsAndWaits : Prop :=
  (∀ (i : Instr) (s : State), i.kind = .aClass →
      (∀ w, aBlocked s (guard1 i.hd) = some w → exec i s = .next (s.stays w)) ∧
      (aBlocked s (guard1 i.hd) = none → s.sh.guard i.hd = false → exec i s = .next s.past)) ∧
  (∀ (h : Hd) (s : State), Ready h [] s →
      exec (.nop h) s = .next s.past ∧
      (marksClear s = true → exec (.xsync h) s = .next { s with sh := s.sh.settle s.co.cycle }.past) ∧
      (marksClear s = false → ∃ w, exec (.xsync h) s = .next (s.stays w)) ∧
      (s.sh.xq = [] → exec (.xsyncI h) s = .next s.past) ∧
      (s.sh.xq ≠ [] → exec (.xsyncI h) s = .next (s.stays .onX)) ∧
      (let queued := s.sh.xq.any (fun e => xAccess e.instr)
       let loading := s.co.loads.any (fun l => l.pos == s.sh.pos)
       let inLane := s.co.entries.any (fun e => e.aBy.contains s.sh.pos || e.xBy.any (fun p => p.1 == s.sh.pos))
       let inLaneX := s.co.entries.any (fun e => e.xBy.any (fun p => p.1 == s.sh.pos)) || s.co.loads.any (fun l => l.pos == s.sh.pos && l.xClass)
       (queued = false → loading = false → inLane = false → exec (.fence h) s = .next s.past) ∧
       (queued = true → exec (.fence h) s = .next (s.stays .onX)) ∧
       (queued = false → (loading || inLane) = true → exec (.fence h) s = .next (s.stays .other)) ∧
       exec (.fenceWl h) s = .next (if inLane then s.stays .other else s.past) ∧
       (queued = false → inLaneX = false → exec (.fenceXa h) s = .next s.past) ∧
       (queued = true → exec (.fenceXa h) s = .next (s.stays .onX)) ∧
       (queued = false → inLaneX = true → exec (.fenceXa h) s = .next (s.stays .other))))

/-- Transfers of control, and the loop records they leave. A ready transfer goes to its target when its condition holds and past it otherwise;
call and jr write the address after the instruction to X[d], jr reads its target first; a target of ret or jr that is not a multiple of 8
writes nothing and raises ALIGN with detail 2. All but call end the loop records they jump out of. After such a transfer from one address
to another, a record is inactive exactly if it was, or if its body holds the first address and not the second; nothing else of a record
changes, and no counter does. It rests on the choices of the model in log entry 27. -/
def Obligations.Branches : Prop :=
  (∀ (h : Hd) (k : BrK) (d a : Fin 64) (disp : BitVec 32) (s : State), Ready h (xs [d, a]) s → Ready h (xs [a]) s → Ready h (xs [d]) s → Ready h [] s →
      let A := s.sh.xget a
      let target := (s.sh.apc.zeroExtend 64 + disp.signExtend 64 * 8 : Word).toNat
      let link : Word := s.sh.apc.zeroExtend 64 + 8
      let holds : Bool := match k with
        | .eqz => decide (A = 0) | .nez => decide (A ≠ 0) | .ltz => decide (A.toInt < 0) | .gez => decide (0 ≤ A.toInt)
      let leave : Nat → State := fun dst => { s with sh := s.sh.leaveLoops s.sh.apc.toNat dst }
      exec (.br h k a disp) s = .next (if holds then (leave target).goneTo target else s.past) ∧
      exec (.jmp h disp) s = .next ((leave target).goneTo target) ∧
      exec (.call h d disp) s = .next ((s.setX d link).goneTo target) ∧
      (A.toNat % 8 = 0 →
        exec (.ret h a) s = .next ((leave A.toNat).goneTo A.toNat) ∧
        exec (.jr h d a) s = .next (((leave A.toNat).setX d link).goneTo A.toNat)) ∧
      (A.toNat % 8 ≠ 0 → exec (.ret h a) s = raiseA 0x04 2 s ∧ exec (.jr h d a) s = raiseA 0x04 2 s)) ∧
  (∀ (s : State) (src dst : Nat) (k : Fin 3),
      let l := s.sh.loops[k]
      let t := s.sh.leaveLoops src dst
      let inBody := fun a => l.start ≤ a ∧ a < l.start + 8 * l.len
      (t.loops[k].act = true ↔ l.act = true ∧ ¬ (inBody src ∧ ¬ inBody dst)) ∧
      t.loops[k] = { l with act := t.loops[k].act } ∧ t.lc = s.sh.lc ∧ Only [.loops] s { s with sh := t })

/-- loop, loopx and the loop-end test. With a count N of 0, a ready loop or loopx sets the counter to 0, ends its record and goes to P + 8 ×
D. Otherwise the counter is N, its record is active from P + 8 over D − 1 words with the predicate of loopx, newer than every other active
record, other records keep all but their place in that order, which stays the same among them, and the body follows. When the test at an
end word is due and the A-pipe may move, the record with the highest seq among the active records ending there has its counter lowered by
one; if the count is not zero and the tested predicate, for a loopx, holds, the next fetch is at its start, else the record ends and the
next record ending there, if any, is due. A loopx whose predicate is pending waits, its counter not yet lowered. It rests on the choices
of the model in log entries 27, 36, 110 and 115. -/
def Obligations.Loops : Prop :=
  (∀ (h : Hd) (x im : Bool) (d a : Fin 64) (kk : BitVec 2) (disp : BitVec 32) (s : State), Ready h [] s → Ready h (xs [a]) s →
      (x = true → kk.toNat < 3) → (x = false → d.val < 3) → 2 ≤ disp.toNat → disp.toNat ≤ 257 →
      let k : Fin 3 := if x then loopNo kk.toNat else loopNo d.val
      let i : Instr := if x then .loopx h kk d a disp else .loop h im d a disp
      let n : BitVec 32 := if x = false ∧ im = true then BitVec.ofNat 32 a.val else (s.sh.xget a).truncate 32
      ∃ t, exec i s = .next t ∧ t.sh.lc = s.sh.lc.set k n ∧ t.sh.nA = s.sh.nA + 1 ∧ t.sh.endDue = none ∧ Only [.loops] s t ∧
        (n = 0 → t.sh.apc = BitVec.ofNat 56 (s.sh.apc.zeroExtend 64 + disp.signExtend 64 * 8 : Word).toNat ∧ t.sh.loops[k].act = false ∧
          ∀ j : Fin 3, j ≠ k → t.sh.loops[j] = s.sh.loops[j]) ∧
        (n ≠ 0 → t.sh.apc = s.sh.apc + 8 ∧ t.sh.pcHi = BitVec.ofNat 8 ((s.sh.apc.toNat + 8) / 2 ^ 56) ∧
          (let r := t.sh.loops[k]
           r.act = true ∧ r.kind = x ∧ r.pred = (if x then d.val else 63) ∧ r.len = disp.toNat - 1 ∧ r.start = s.sh.apc.toNat + 8 ∧
           (∀ j : Fin 3, j ≠ k → t.sh.loops[j] = { s.sh.loops[j] with seq := t.sh.loops[j].seq }) ∧
           (∀ j : Fin 3, j ≠ k → t.sh.loops[j].act = true → t.sh.loops[j].seq < r.seq) ∧
           (∀ j m : Fin 3, j ≠ k → m ≠ k → s.sh.loops[j].act = true → s.sh.loops[m].act = true → s.sh.loops[j].seq < s.sh.loops[m].seq →
              t.sh.loops[j].seq < t.sh.loops[m].seq)))) ∧
  (∀ (s : State) (a : Nat) (k : Fin 3) (r : LoopRec), pipeMoves s false = true → s.sh.endDue = some a → s.sh.loopAt a = some (k, r) →
      let n := s.sh.lc[k] - 1
      let c := if r.kind then (s.sh.preg r.pred).getLsbD 0 else true
      (s.sh.loops[k] = r ∧ r.act = true ∧ r.start + 8 * (r.len - 1) = a ∧
        ∀ j : Fin 3, s.sh.loops[j].act = true → s.sh.loops[j].start + 8 * (s.sh.loops[j].len - 1) = a → s.sh.loops[j].seq ≤ r.seq) ∧
      (∀ w, r.kind = true → aBlocked s [.p r.pred] = some w → exec .loopEnd s = .next (s.stays w)) ∧
      ((r.kind = true → aBlocked s [.p r.pred] = none) →
        ∃ t, exec .loopEnd s = .next t ∧ t.sh.lc = s.sh.lc.set k n ∧ Only [.loops] s t ∧ (∀ j : Fin 3, j ≠ k → t.sh.loops[j] = s.sh.loops[j]) ∧
          (n ≠ 0 ∧ c = true → t.sh.apc = BitVec.ofNat 56 r.start ∧ t.sh.pcHi = 0 ∧ t.sh.endDue = none ∧ t.sh.loops[k] = r) ∧
          (¬ (n ≠ 0 ∧ c = true) → t.sh.apc = s.sh.apc ∧ t.sh.loops[k] = { r with act := false } ∧
            t.sh.endDue = if (t.sh.loopAt a).isSome then some a else none)))

/-- The checks of an access in order, and the fault of one that fails. An access that is not aligned to its size fails with ALIGN 3; else one
in no window with PERM 3; else one in the near window outside the grant, or in the cluster window where the partition has no grant, with
PERM 4; a granted one is at its place in that scratchpad, and a read of a poisoned line there fails with ECC. A translated one waits while
its walk must read a table in another die under repair, and fails with ECC 1 where that die is fenced; else it walks: what the walk
refuses fails so, a page whose scan must wait for writes is waited for, and on a page found the checks of its physical address follow: a
place that is not the partition's, or a write to a locked granule or a framed page, fails with PERM 5, a compressed page with COMPR; a
line of another die under repair is waited for, one of a fenced die fails with ECC 1, a read of a poisoned line with ECC. ECC has detail 0
where the error is met first, else 1. When the check of the access of a ready ld, st, stnb, amo, amocas or red fails with a cause and
detail and no X-class instruction is waiting in the X queue, and for st.rl no earlier access of the shuttle is outstanding, the
instruction has no effect and that fault is taken, with the effective address in its record. It rests on the choices of the model in log
entries 16, 25 and 112. -/
def Obligations.LoadFaults : Prop :=
  (∀ (s : State) (w : Who) (ea n : Nat) (acc : Acc), n ≠ 0 →
      let meets : List Nat → Nat → Prop := fun l k => ∃ b ∈ l, b < k + n ∧ k < b + 64
      let ecc : State → Nat → Chk := fun u k => .bad cECC (if u.latent.any (fun b => b < k + n && k < b + 64) then 0 else 1) 0
      (ea % n ≠ 0 → check s w ea n acc false true = (s, .bad 0x04 3 0)) ∧
      (ea % n = 0 →
        (windowOf ea = .none → check s w ea n acc false true = (s, .bad 0x03 3 0)) ∧
        (windowOf ea = .near → ¬ (w.lo ≤ ea ∧ ea + n ≤ w.lo + w.len) → check s w ea n acc false true = (s, .bad 0x03 4 0)) ∧
        (windowOf ea = .near → w.lo ≤ ea → ea + n ≤ w.lo + w.len →
          (acc = .write ∨ ¬ meets s.poison (nearKey w.core ea) →
            check s w ea n acc false true = (s, .ok { key := nearKey w.core ea, frm := false, cmp := false })) ∧
          (acc = .read → meets s.poison (nearKey w.core ea) → check s w ea n acc false true = (s, ecc s (nearKey w.core ea)))) ∧
        (windowOf ea = .cluster → clusGranted s w.pid w.core (ea - 0x1000000) = false → check s w ea n acc false true = (s, .bad 0x03 4 0)) ∧
        (windowOf ea = .cluster → clusGranted s w.pid w.core (ea - 0x1000000) = true → clusGranted s w.pid w.core (ea - 0x1000000 + n - 1) = true →
          let k := clusKey (w.core / 4) (ea - 0x1000000)
          (acc = .write ∨ ¬ meets s.poison k → check s w ea n acc false true = (s, .ok { key := k, frm := false, cmp := false })) ∧
          (acc = .read → meets s.poison k → check s w ea n acc false true = (s, ecc s k))) ∧
        (windowOf ea = .xlat → walkMeets s w.core w.pid ea acc 1 = true → check s w ea n acc false true = (s, .hold)) ∧
        (windowOf ea = .xlat → walkMeets s w.core w.pid ea acc 1 = false → walkMeets s w.core w.pid ea acc 2 = true →
          check s w ea n acc false true = (s, .bad 0x0C 1 0)) ∧
        (windowOf ea = .xlat → walkMeets s w.core w.pid ea acc 1 = false → walkMeets s w.core w.pid ea acc 2 = false →
          (∀ s1, translate s w.pid ea acc = (s1, .ok none) → check s w ea n acc false true = (s1, .hold)) ∧
          (∀ s1 c d l, translate s w.pid ea acc = (s1, .error (c, d, l)) → check s w ea n acc false true = (s1, .bad c d l)) ∧
          (∀ s1 t, translate s w.pid ea acc = (s1, .ok (some t)) →
            let pa := t.pa + ea % 2 ^ t.bits
            (physOwned s1 w.pid pa = false → check s w ea n acc false true = (s1, .bad 0x03 5 0)) ∧
            (physOwned s1 w.pid pa = true →
              (acc = .write → locked s1 pa = true ∨ t.frm = true → check s w ea n acc false true = (s1, .bad 0x03 5 0)) ∧
              ((acc = .write → locked s1 pa = false ∧ t.frm = false) → t.cmp = true → check s w ea n acc false true = (s1, .bad 0x0D 0 0)) ∧
              ((acc = .write → locked s1 pa = false ∧ t.frm = false) → t.cmp = false →
                let waits := isDS pa = true ∧ (s1.die (pa / 2 ^ 32)).repair = 1 ∧ pa / 2 ^ 32 ≠ w.core / 16
                let fenced := isDS pa = true ∧ (s1.die (pa / 2 ^ 32)).repair = 2
                (waits → check s w ea n acc false true = (s1, .hold)) ∧
                (fenced → check s w ea n acc false true = (s1, .bad 0x0C 1 0)) ∧
                (¬ waits → ¬ fenced → acc = .write ∨ ¬ meets s1.poison pa →
                  check s w ea n acc false true = (s1, .ok { key := pa, frm := t.frm, cmp := false })) ∧
                (¬ waits → ¬ fenced → acc ≠ .write → meets s1.poison pa → check s w ea n acc false true = (s1, ecc s1 pa)))))))) ∧
  (∀ (h : Hd) (q sx dw : Bool) (k : AmoK) (sz : BitVec 2) (d a b : Fin 64) (off : BitVec 20) (s s1 : State) (c e lv : Nat),
      Ready h (xs [d, a]) s → Ready h (xs [d, a, b]) s → s1.sh.xq = [] →
      let ea := effAddr (s.sh.xget a) off
      let f : Flt := { cause := c, detail := e, pipe := false, va := ea, index := 0, pa := 0, level := lv, source := 0, pushed := false }
      (check s s.who ea (2 ^ sz.toNat) .read false true = (s1, .bad c e lv) → exec (.ld h q sz sx d a off) s = takeFault f s1) ∧
      (check s s.who ea (2 ^ sz.toNat) .write false true = (s1, .bad c e lv) →
        ((q = true → fenceWait s = none) → exec (.st h q sz d a off) s = takeFault f s1) ∧ exec (.stnb h sz d a off) s = takeFault f s1) ∧
      (check s s.who ea (if dw then 8 else 4) .write false true = (s1, .bad c e lv) →
        exec (.amo h k dw sx d a b off) s = takeFault f s1 ∧ exec (.amocas h dw sx d a b off) s = takeFault f s1 ∧
        exec (.red h k dw d a off) s = takeFault f s1))

/-- ld, ldq and ldq.g read memory, at once or later. A ready load whose access passes its checks, that no earlier X-class access still to
issue, to read or to perform precedes at its lines, nor one in the X queue among the reads of its port, whose lines no write-lane entry of
the core covers, with no load of its shuttle under way at its port, and for ldq whose data queue has room, reads the little-endian bytes
at the address: ld writes the value, sign- or zero-extended, to X[d]; ldq pushes it to the queue; ldq.g pushes an element group of 16
bytes a lane. Nothing else differs from the state after the access's walk. In a turn in which loads read later, a ready plain ld, ldq or
ldq.g whose access passes its checks and that no earlier X-class access precedes becomes the youngest load under way and goes past, an
ldq.g one load for each line of 64 bytes; an ldq takes its place in the data queue, which no pop passes until all its data is there. A
load under way that no earlier load of another instruction of its shuttle at its port precedes, and whose lines no write-lane entry of its
core covers, reads memory as it then stands: the value goes to X[d], extended, or to its element of a vector group, or fills its place of
the queue, of a group the bytes of its line, and the load is done; a group's data is there with the last of its lines. One that something
still precedes stays. It rests on the choices of the model in log entries 13, 16 and 25. -/
def Obligations.Loads : Prop :=
  (∀ (h : Hd) (aq sx : Bool) (sz : BitVec 2) (d a : Fin 64) (off : BitVec 20) (s s1 : State) (l : Loc) (n : Nat),
      let ea := effAddr (s.sh.xget a) off
      check s s.who ea n .read false true = (s1, .ok l) → spanBlocked s1 true ea n (portOf l.key) = false → loadMet s1 (portOf l.key) = false → s1.co.coversSpan l.key (l.key + n) = false →
      let v := s1.mem.readLe l.key n
      let w : Word := if sx then BitVec.ofInt 64 (toSigned v (8 * n)) else BitVec.ofNat 64 v
      let pushed : QEntry → State := fun e => { s1 with sh := { s1.sh with dq := s1.sh.dq.setIfInBounds d.val (s1.sh.dqOf d.val ++ [e]) } }
      (n = 2 ^ sz.toNat → Ready h (xs [d, a]) s → exec (.ld h aq sz sx d a off) s = .next (s1.setX d w).past) ∧
      (n = 2 ^ sz.toNat → Ready h (xs [a]) s → (s.sh.dqOf d.val).length < 16 →
        exec (.ldq h sz sx d a off) s = .next (pushed { scalar := true, data := BitVec.ofNat 4096 w.toNat }).past) ∧
      (n = 16 * s.sh.lanes → Ready h (xs [a]) s → (s.sh.dqOf d.val).length < 16 →
        exec (.ldqG h d a off) s = .next (pushed { scalar := false, data := BitVec.ofNat 4096 v }).past)) ∧
  ((∀ (h : Hd) (sx : Bool) (sz : BitVec 2) (d a : Fin 64) (off : BitVec 20) (s s1 : State) (l : Loc) (n : Nat),
      let ea := effAddr (s.sh.xget a) off
      check s s.who ea n .read false true = (s1, .ok l) → spanBlocked s1 true ea n (portOf l.key) = false →
      let no := s1.co.loadNo + 1
      let begun : (Nat → LDst) → State := fun dst => { s1 with co := { s1.co with loadNo := no, loads := s1.co.loads ++ (List.range ((n + 63) / 64)).map (fun k =>
        { pos := s1.sh.pos, no := no, dst := dst (64 * k), busy := [], key := l.key + 64 * k, size := min 64 (n - 64 * k), free := false, after := s1.sh.nD }) } }
      let queued : (Nat → LDst) → Bool → State := fun dst sc => { begun dst with sh := s1.sh.setDq d.val (s1.sh.dqOf d.val ++
        [{ scalar := sc, data := 0, due := some no }]) }
      (n = 2 ^ sz.toNat → Ready h (xs [d, a]) s → execLate (.ld h false sz sx d a off) s = .next (begun (fun _ => .x d.val (8 * n) sx)).past) ∧
      (n = 2 ^ sz.toNat → Ready h (xs [a]) s → (s.sh.dqOf d.val).length < 16 →
        execLate (.ldq h sz sx d a off) s = .next (queued (fun _ => .q d.val (8 * n) sx) true).past) ∧
      (n = 16 * s.sh.lanes → Ready h (xs [a]) s → (s.sh.dqOf d.val).length < 16 → execLate (.ldqG h d a off) s = .next (queued (.group d.val) false).past)) ∧
    (∀ (s : State) (k : Nat) (l : Load), s.co.loads[k]? = some l → l.pos = s.sh.pos →
      let u := loadReturn s s.co.id k
      let ahead := ∃ j e, j < k ∧ s.co.loads[j]? = some e ∧ e.pos = l.pos ∧ portOf e.key = portOf l.key ∧ e.no ≠ l.no ∧ e.free = false ∧ l.free = false
      let covered := s.co.coversSpan l.key (l.key + l.size) = true
      let v := s.mem.readLe l.key l.size
      (ahead ∨ covered → u = s) ∧
      (¬ ahead → ¬ covered → u.mem = s.mem ∧ u.co.loads = s.co.loads.eraseIdx k ∧
        (∀ (d : Fin 64) bits sx, l.dst = .x d.val bits sx → ∀ q : Fin 64, u.sh.xget q =
          if q = d ∧ d ≠ 0 then (if sx then BitVec.ofInt 64 (toSigned v bits) else BitVec.ofNat 64 (v % 2 ^ bits)) else s.sh.xget q) ∧
        (∀ q bits sx, l.dst = .q q bits sx → q < 6 → ∀ (j : Nat) (e : QEntry), (s.sh.dqOf q)[j]? = some e → ∃ e' : QEntry, (u.sh.dqOf q)[j]? = some e' ∧
          (e.due ≠ some l.no → e' = e) ∧ (e.due = some l.no → e'.due = none ∧ e'.scalar = true ∧
            e'.data = BitVec.ofNat 4096 (if sx then (BitVec.ofInt 64 (toSigned v bits)).toNat else v % 2 ^ bits % 2 ^ 64))) ∧
        (∀ et d i, l.dst = .v et d i → 1 ≤ s.sh.lanes → s.sh.lanes ≤ 32 → d + i / s.sh.eper et < 64 →
          u.sh.elem d i et = v / (if et = .f4 then 2 ^ (4 * (i % 2)) else 1) % 2 ^ et.bits ∧ u.sh.x = s.sh.x ∧
          ∀ j, j ≠ i → d + j / s.sh.eper et < 64 → u.sh.elem d j et = s.sh.elem d j et) ∧
        (∀ q off, l.dst = .group q off → q < 6 → ∀ (j : Nat) (e : QEntry), (s.sh.dqOf q)[j]? = some e → ∃ e' : QEntry, (u.sh.dqOf q)[j]? = some e' ∧
          (e.due ≠ some l.no → e' = e) ∧ (e.due = some l.no → e'.scalar = e.scalar ∧ e'.data = e.data ||| BitVec.ofNat 4096 (v * 2 ^ (8 * off)) ∧
            let more := ∃ j e, j ≠ k ∧ s.co.loads[j]? = some e ∧ e.pos = l.pos ∧ e.no = l.no
            (more → e'.due = e.due) ∧ (¬ more → e'.due = none))))))

/-- st and stnb enter the write lane, or find it full. A ready store whose access passes its checks and that no earlier X-class access still
to issue or to read and no load under way at its port precedes puts the low bytes of X[d] into the write-lane queue of its port and goes
past; memory itself does not change. One that something precedes waits. When the queue cannot take it, st waits and stnb raises WBP with
the port, its address in the record. st.rl does so only when no earlier access of the shuttle is outstanding, and waits else. It rests on
the choices of the model in log entry 25. -/
def Obligations.Stores : Prop :=
  ∀ (h : Hd) (rl : Bool) (sz : BitVec 2) (d a : Fin 64) (off : BitVec 20) (s s1 : State) (l : Loc), Ready h (xs [d, a]) s →
    let ea := effAddr (s.sh.xget a) off
    let n := 2 ^ sz.toNat
    check s s.who ea n .write false true = (s1, .ok l) →
    let before := spanBlocked s1 false ea n (portOf l.key) = true ∨ loadMet s1 (portOf l.key) = true
    let wbp : Flt := { cause := 0x09, detail := (portOf l.key).code, pipe := false, va := ea, index := 0, pa := 0, level := 0, source := 0, pushed := false }
    let put := s1.co.plain l.key (leBytes n (s1.sh.xget d).toNat) false { a := [s1.sh.pos], x := [], t := [] }
    (∀ w, fenceWait s = some w → exec (.st h true sz d a off) s = .next (s.stays w)) ∧
    (before → ((rl = true → fenceWait s = none) → exec (.st h rl sz d a off) s = .next (s1.stays .other)) ∧
      exec (.stnb h sz d a off) s = .next (s1.stays .other)) ∧
    (∀ c, ¬ before → put = some c →
      (rl = true → fenceWait s = none) →
      exec (.st h rl sz d a off) s = .next { s1 with co := c }.past ∧ exec (.stnb h sz d a off) s = .next { s1 with co := c }.past) ∧
    (¬ before → put = none →
      ((rl = true → fenceWait s = none) → exec (.st h rl sz d a off) s = .next (s1.stays .other)) ∧
      exec (.stnb h sz d a off) s = faultA wbp s1)

/-- The write lane performs its entries in order. A plain write of bytes of one line that is admitted, whether merged into the youngest entry
or as a new one, makes the queue one that leaves every byte of memory as the queue before and then the write would: merging never changes
what memory holds once the queue has drained. With no uncorrectable error waiting to be met, the oldest entry of a port's queue leaves it
and is applied to memory; an entry of the DS or MM port spends 64 bytes of the core's write budget and waits while less remains; one for
another die under repair waits. An atomic writes its new value and returns the old one, extended, to its register; a fas writes its sum
and returns the running sums, one to each active element of its destination group. It rests on the choices of the model in log entry 30. -/
def Obligations.LaneOrder : Prop :=
  (∀ (q r : List LaneEnt) (key : Nat) (bs : List Byte) (po : Bool) (b : By) (m : Memory), m.wf = true → key % 64 + bs.length ≤ 64 →
      (∀ e ∈ q, e.bytes.Pairwise (fun x y => x.1 < y.1)) → admitPlain q key bs po b = some r →
      let drain : List LaneEnt → Memory → Memory := fun q m => q.foldl (fun m e => e.apply m) m
      (∀ a, (drain r m).read a = ((drain q m).writeN key bs).read a) ∧ (∀ e ∈ r, e.bytes.Pairwise (fun x y => x.1 < y.1))) ∧
  (∀ (s : State) (port : Port) (e : LaneEnt) (r : List LaneEnt), s.co.queue port = e :: r → s.latent = [] →
      let spends : Bool := port = .ds ∨ port = .mm
      let held := port = .ds ∧ (s.die (e.line / 2 ^ 32)).repair = 1 ∧ e.line / 2 ^ 32 ≠ s.co.id / 16
      ((spends = true ∧ s.co.wlbud < 64) ∨ held → exec (.writeLanePerform port) s = .next s) ∧
      (¬ (spends = true ∧ s.co.wlbud < 64) → ¬ held →
        ∃ t, exec (.writeLanePerform port) s = .next t ∧ t.co.queue port = r ∧ (∀ p, p ≠ port → t.co.queue p = s.co.queue p) ∧
          t.co.wlbud = (if spends then s.co.wlbud - 64 else s.co.wlbud) ∧
          (e.atom = none → t.mem = e.apply s.mem ∧ t.sh.x = s.sh.x) ∧
          (∀ off size k d bits sx, e.atom = some (off, size, k, .x s.sh.pos d.val bits sx) →
            let old := s.mem.readLe (e.line + off) size
            t.mem = s.mem.writeLe (e.line + off) size (k.run old (8 * size)).1 ∧
            ∀ q : Fin 64, t.sh.xget q = if q = d ∧ d ≠ 0 then extend sx ((k.run old (8 * size)).2.1.headD 0) bits else s.sh.xget q) ∧
          (∀ off size et l d (idx : List Nat), e.atom = some (off, size, .fas et l, .fas s.sh.pos et d idx) → l.length = idx.length → idx.Nodup →
            1 ≤ s.sh.lanes → s.sh.lanes ≤ 32 → (∀ j ∈ idx, d + j / s.sh.eper et < 64) →
            let sums := fasRun et (s.mem.readLe (e.line + off) size) l
            t.mem = s.mem.writeLe (e.line + off) size sums.2.1 ∧ t.sh.x = s.sh.x ∧
            (∀ j : Nat, (∃ k v : Nat, idx[k]? = some j ∧ sums.1[k]? = some v ∧ t.sh.elem d j et = v % 2 ^ et.bits) ∨
              (j ∉ idx ∧ (d + j / s.sh.eper et < 64 → t.sh.elem d j et = s.sh.elem d j et))))))

/-- amo, amocas, red and fas. Each operation of amo on an old word of 32 or 64 bits returns the old word and writes what R122 gives, fadd on
32 bits the FP32 sum rounded to nearest even; amocas writes the new value exactly when the old word equals the compared one. A ready
atomic whose access passes its checks on a line that is not poisoned, and that nothing precedes (an amo or amocas, which read, also waits
for earlier X-class writes of its lines to perform), enters the write-lane queue of its port as an entry of its own, with X[d] waiting for
its value, and goes past; it waits while the queue is full. red enters as an operation without a return, merged where R114 allows, and
likewise waits while the queue cannot take it. A reduction joins the youngest entry of its queue for its line where that holds only
reductions and, on each 8-byte word both touch, the same operation but fadd at the same size on the same bytes: it is combined with that
operation, or added to the entry. Else it is a new entry, if fewer than 64 stand there. Done in order, the queue then leaves what it and
the reduction after it would have left: the old word, combined by the operation. When it is ready to issue on a type of the width of
vtype, with aligned groups, no poisoned element and an access that passes its checks on an unpoisoned line, fas enters the write-lane
queue of its port as one entry with its active elements, its destination waiting for the running sums, and vstart is 0; when it performs,
element by element the old running sum is returned and the word is their sum, modulo the width or rounded to nearest even for FP32; with
no active element the word stands and nothing is returned. It rests on the choices of the model in log entries 25 and 28. -/
def Obligations.Atomics : Prop :=
  (∀ (old : Nat) (v c : Word) (bits : Nat), bits = 32 ∨ bits = 64 → old < 2 ^ bits →
      let x := v.toNat % 2 ^ bits
      ((AtomK.amo .swap v).run old bits).1 = x ∧ ((AtomK.amo .add v).run old bits).1 = (old + x) % 2 ^ bits ∧
      ((AtomK.amo .and v).run old bits).1 = old &&& x ∧ ((AtomK.amo .or v).run old bits).1 = old ||| x ∧
      ((AtomK.amo .xor v).run old bits).1 = old ^^^ x ∧
      ((AtomK.amo .min v).run old bits).1 = (if toSigned old bits ≤ toSigned x bits then old else x) ∧
      ((AtomK.amo .max v).run old bits).1 = (if toSigned old bits ≤ toSigned x bits then x else old) ∧
      ((AtomK.amo .minu v).run old bits).1 = min old x ∧ ((AtomK.amo .maxu v).run old bits).1 = max old x ∧
      (bits = 32 → ((AtomK.amo .fadd v).run old bits).1 = (fp32.arith .rne (FVal.add .rne (fp32.val old) (fp32.val x)).1).1) ∧
      (∀ k, ((AtomK.amo k v).run old bits).2.1 = [old]) ∧
      ((AtomK.cas c v).run old bits).1 = (if old = c.toNat % 2 ^ bits then x else old) ∧ ((AtomK.cas c v).run old bits).2.1 = [old]) ∧
  (∀ (h : Hd) (k : AmoK) (dw sx : Bool) (d a b : Fin 64) (off : BitVec 20) (s s1 : State) (l : Loc), Ready h (xs [d, a, b]) s → Ready h (xs [d, a]) s →
      let n := if dw then 8 else 4
      let ea := effAddr (s.sh.xget a) off
      check s s.who ea n .write false true = (s1, .ok l) → loadMet s1 (portOf l.key) = false → poisonHit s1 l.key n = false →
      let q := s1.co.queue (portOf l.key)
      let enters : AtomK → State := fun op => { s1 with co := s1.co.setQueue (portOf l.key) (q ++
        [{ line := l.key / 64 * 64, bytes := [], ops := [], atom := some (l.key % 64, n, op, .x s1.sh.pos d.val (8 * n) sx), poison := false,
           aBy := [s1.sh.pos], xBy := [], tags := [] }]) }
      let red := admitRed q l.key n k (s1.sh.xget d) { a := [s1.sh.pos], x := [], t := [] }
      (spanBlocked s1 true ea n (portOf l.key) = false → q.length < 64 →
        exec (.amo h k dw sx d a b off) s = .next (enters (.amo k (s.sh.xget b))).past ∧
        exec (.amocas h dw sx d a b off) s = .next (enters (.cas (s.sh.xget b) (s.sh.xget d))).past) ∧
      (spanBlocked s1 true ea n (portOf l.key) = true ∨ 64 ≤ q.length →
        exec (.amo h k dw sx d a b off) s = .next (s1.stays .other) ∧ exec (.amocas h dw sx d a b off) s = .next (s1.stays .other)) ∧
      (∀ r, spanBlocked s1 false ea n (portOf l.key) = false → red = some r → exec (.red h k dw d a off) s = .next { s1 with co := s1.co.setQueue (portOf l.key) r }.past) ∧
      (spanBlocked s1 false ea n (portOf l.key) = true ∨ red = none → exec (.red h k dw d a off) s = .next (s1.stays .other))) ∧
  (∀ (q : List LaneEnt) (key size : Nat) (fn : AmoK) (v : Word) (b : By) (m : Memory), m.wf = true → size = 4 ∨ size = 8 → key % size = 0 →
      (∀ e ∈ q, e.line % 64 = 0 ∧ (∀ w ∈ e.bytes, w.1 < 64) ∧ e.ops.Pairwise (fun x y => x.off / 8 ≠ y.off / 8) ∧
        ∀ o ∈ e.ops, (o.size = 4 ∨ o.size = 8) ∧ o.off % o.size = 0 ∧ o.off < 64 ∧ o.val.toNat < 2 ^ (8 * o.size)) →
      let line := key / 64 * 64
      let x := v.toNat % 2 ^ (8 * size)
      let o : WOp := { off := key % 64, size := size, fn := fn, val := BitVec.ofNat 64 x }
      let alone := if q.length < 64 then
        some (q ++ [{ line := line, bytes := [], ops := [o], atom := none, poison := false, aBy := b.a, xBy := b.x, tags := b.t }]) else none
      let drain : List LaneEnt → Memory → Memory := fun q m => q.foldl (fun m e => e.apply m) m
      (∀ (p t : List LaneEnt) (e : LaneEnt), q = p ++ e :: t → e.line = line → (∀ u ∈ t, u.line ≠ line) →
        let fits := e.bytes = [] ∧ e.atom = none ∧ ∀ w ∈ e.ops, w.off / 8 ≠ o.off / 8 ∨ (w.fn = fn ∧ w.off = o.off ∧ w.size = size ∧ fn ≠ .fadd)
        (fits → ∃ e', admitRed q key size fn v b = some (p ++ e' :: t) ∧ e'.line = line ∧ e'.bytes = [] ∧ e'.atom = none ∧ (∀ k ∈ b.a, k ∈ e'.aBy) ∧
          e'.ops = if e.ops.any (fun w => w.off == o.off) then
              e.ops.map (fun w => if w.off = o.off then { w with val := BitVec.ofNat 64 ((AtomK.amo fn o.val).run w.val.toNat (8 * size)).1 } else w)
            else e.ops ++ [o]) ∧
        (¬ fits → admitRed q key size fn v b = alone)) ∧
      ((∀ u ∈ q, u.line ≠ line) → admitRed q key size fn v b = alone) ∧
      (∀ r, admitRed q key size fn v b = some r → ∀ a, (drain r m).read a =
        ((drain q m).writeLe key size ((AtomK.amo fn v).run ((drain q m).readLe key size) (8 * size)).1).read a)) ∧
  ((∀ (h : Hd) (t : EType) (d a b : Fin 64) (off : BitVec 14) (s s1 : State) (l : Loc), XReady (.fas h t d a b off) s →
      let e := s.atIssue (.fas h t d a b off)
      let act := e.sh.actives h
      t.bits = s.sh.et.bits → aligned d s.sh.grp = true → aligned b s.sh.grp = true →
      check e e.who (effAddr (e.sh.srcA a) off) (t.bits / 8) .write false true = (s1, .ok l) → poisonHit s1 l.key (t.bits / 8) = false →
      e.sh.vpoison = [] → (s1.co.queue (portOf l.key)).length < 64 →
      ∃ u, exec (.fas h t d a b off) s = .next u ∧ Issued (.fas h t d a b off) s u ∧ u.sh.vstart = 0 ∧ u.sh.v = s.sh.v ∧ u.mem = s1.mem ∧
        u.co.queue (portOf l.key) = s1.co.queue (portOf l.key) ++
          [{ line := l.key / 64 * 64, bytes := [], ops := [], poison := false, aBy := [], xBy := [(s.sh.pos, s.headNo)], tags := [],
             atom := some (l.key % 64, t.bits / 8, .fas t (act.map (fun i => e.sh.elem b.val i t)), .fas s.sh.pos t d.val act) }]) ∧
    (∀ (t : EType) (old x : Nat) (l : List Nat),
      fasRun t old [] = ([], old, 0) ∧
      (t ≠ .f32 → fasRun t old (x :: l) = (old :: (fasRun t ((old + x) % 2 ^ t.bits) l).1, (fasRun t ((old + x) % 2 ^ t.bits) l).2)) ∧
      (let sum := FVal.add .rne (fp32.val old) (fp32.val x)
       let n := fp32.arith .rne sum.1
       let rest := fasRun .f32 n.1 l
       fasRun .f32 old (x :: l) = (old :: rest.1, rest.2.1, (sum.2 ||| n.2) ||| rest.2.2))))

/-- ldq.x, ldq.r and the three qmov move scalars between registers and queues. A ready ldq.x pushes X[a] to its data queue when there is room;
it waits while the queue is full, and so do ldq and ldq.g; ldq.r pops its return queue into X[d], waits while it is empty, and raises ECC
where the entry is poisoned. When it is ready to issue, qmov pops a data queue into X[d], pushes its captured scalar to a return queue
that holds fewer than 8, or moves an entry from one to the other as a scalar; it waits at issue while the queue it pops is empty, or its
oldest entry awaits a load, or the one it pushes is full. A poisoned first word of the entry raises ECC, and the entry stays. -/
def Obligations.QueueMoves : Prop :=
  ∀ (h : Hd) (d a : Fin 64) (s : State),
    (Ready h (xs [a]) s → (s.sh.dqOf d.val).length < 16 →
      exec (.ldqX h d a) s = .next { s with sh := s.sh.setDq d.val (s.sh.dqOf d.val ++ [QEntry.ofScalar (s.sh.xget a)]) }.past) ∧
    (Ready h (xs [a]) s → 16 ≤ (s.sh.dqOf d.val).length → exec (.ldqX h d a) s = .next (s.stays .onX)) ∧
    (∀ (sx : Bool) (sz : BitVec 2) (off : BitVec 20), Ready h (xs [a]) s → 16 ≤ (s.sh.dqOf d.val).length →
      exec (.ldq h sz sx d a off) s = .next (s.stays .onX) ∧ exec (.ldqG h d a off) s = .next (s.stays .onX)) ∧
    (Ready h (xs [d]) s → s.sh.rqOf a.val = [] → exec (.ldqR h d a) s = .next (s.stays .onX)) ∧
    (∀ v r, Ready h (xs [d]) s → s.sh.rqOf a.val = v :: r →
      ((a.val, 0) ∉ s.sh.rqPois → exec (.ldqR h d a) s = .next (({ s with sh := { s.sh.setRq a.val r with
        rqPois := s.sh.rqPois.map (fun p => if p.1 = a.val then (p.1, p.2 - 1) else p) } } : State).setX d v).past) ∧
      ((a.val, 0) ∈ s.sh.rqPois → exec (.ldqR h d a) s = raiseA cECC 2 s)) ∧
    (XReady (.qmovXq h d a) s → s.sh.dqOf a.val = [] → Awaits (.qmovXq h d a) s .queue) ∧
    (XReady (.qmovQx h d a) s → 8 ≤ (s.sh.rqOf d.val).length → Awaits (.qmovQx h d a) s .queue) ∧
    (XReady (.qmovQq h d a) s → s.sh.dqOf a.val = [] ∨ (∃ e r, s.sh.dqOf a.val = e :: r ∧ e.due = none ∧ 8 ≤ (s.sh.rqOf d.val).length) →
      Awaits (.qmovQq h d a) s .queue) ∧
    (∀ e r, s.sh.dqOf a.val = e :: r → e.due.isSome = true → (XReady (.qmovXq h d a) s → Awaits (.qmovXq h d a) s .other) ∧
      (XReady (.qmovQq h d a) s → Awaits (.qmovQq h d a) s .other)) ∧
    (∀ e r, XReady (.qmovXq h d a) s → s.sh.dqOf a.val = e :: r → e.due = none → 0 ∉ e.pois → ∃ t, exec (.qmovXq h d a) s = .next t ∧ Issued (.qmovXq h d a) s t ∧
      t.sh.dq = s.sh.dq.setIfInBounds a.val r ∧ t.sh.rq = s.sh.rq ∧ t.sh.x = (s.sh.xset d e.lane0).x ∧ Only [.x, .queues, .flags] s t) ∧
    (XReady (.qmovQx h d a) s → (s.sh.rqOf d.val).length < 8 → ∃ t, exec (.qmovQx h d a) s = .next t ∧ Issued (.qmovQx h d a) s t ∧
      t.sh.rq = s.sh.rq.setIfInBounds (d.val - 6) (s.sh.rqOf d.val ++ [s.sh.srcA a]) ∧ t.sh.dq = s.sh.dq ∧ Only [.queues, .flags] s t) ∧
    (∀ e r, s.sh.dqOf a.val = e :: r → e.due = none → 0 ∈ e.pois → (XReady (.qmovXq h d a) s → Faults (.qmovXq h d a) s (eccFlt 0)) ∧
      (XReady (.qmovQq h d a) s → (s.sh.rqOf d.val).length < 8 → Faults (.qmovQq h d a) s (eccFlt 0))) ∧
    (∀ e r, XReady (.qmovQq h d a) s → s.sh.dqOf a.val = e :: r → e.due = none → 0 ∉ e.pois → (s.sh.rqOf d.val).length < 8 →
      ∃ t, exec (.qmovQq h d a) s = .next t ∧ Issued (.qmovQq h d a) s t ∧
      t.sh.dq = s.sh.dq.setIfInBounds a.val r ∧ t.sh.rq = s.sh.rq.setIfInBounds (d.val - 6) (s.sh.rqOf d.val ++ [e.lane0]) ∧ Only [.queues, .flags] s t)

/-- wlb, wlb.wt and the refill of the write budget. A ready wlb on an address that reaches a port writes the free entries of that port's queue
in bits [63:32] and the write budget below; wlb.wt goes past once at least the smaller of X[s2] and 64 entries are free and waits else.
Both wait while the walk meets a table in a die under repair, and take the fault of a walk that is refused. When T64 has reached a new
multiple of 4,000, WLBUD_REFILL sets the core's budget to 64 times its refill, at most 64 times 3,906. -/
def Obligations.LaneStatus : Prop :=
  ∀ (h : Hd) (d a b : Fin 64) (s s1 : State) (p : Port),
    (wlbPort s (s.sh.xget a).toNat = (s1, .ok none) → (Ready h (xs [d, a]) s → exec (.wlb h d a) s = .next (s1.stays .other)) ∧
      (Ready h (xs [a, b]) s → exec (.wlbWt h a b) s = .next (s1.stays .other))) ∧
    (∀ c e lv, wlbPort s (s.sh.xget a).toNat = (s1, .error (c, e, lv)) → s1.sh.xq = [] →
      let f : Flt := { cause := c, detail := e, pipe := false, va := (s.sh.xget a).toNat, index := 0, pa := 0, level := lv, source := 0, pushed := false }
      (Ready h (xs [d, a]) s → exec (.wlb h d a) s = takeFault f s1) ∧ (Ready h (xs [a, b]) s → exec (.wlbWt h a b) s = takeFault f s1)) ∧
    (wlbPort s (s.sh.xget a).toNat = (s1, .ok (some p)) →
    let free := 64 - (s1.co.queue p).length
    (Ready h (xs [d, a]) s → exec (.wlb h d a) s = .next (s1.setX d (BitVec.ofNat 64 (free * 2 ^ 32 + s1.co.wlbud))).past) ∧
    (Ready h (xs [a, b]) s →
      exec (.wlbWt h a b) s = .next (if min (s1.sh.xget b).toNat 64 ≤ free then s1.past else s1.stays .other))) ∧
    (s.gn.t64.toNat / 4000 ≠ s.gn.lastUs → ∃ t, exec .wlbudRefill s = .next t ∧ t.co.wlbud = min s.co.refill 3906 * 64 ∧
      t.gn.lastUs = s.gn.t64.toNat / 4000 ∧ t.sh = s.sh ∧ t.mem = s.mem)

/-- The barrier instructions. A ready barrier instruction on a die that does not hold it off fails with HANDLE 1 when reserved bits are set,
with ECC where an error of the slot's bits has been found, with HANDLE 1 when the generation is wrong, else with PERM 6 when the slot is
not granted to the region. Else bar.init with a count n sets both counts to n and the bytes to 0, with 0 raises HANDLE 2; bar.exp adds
X[s2] to the bytes; an arrival of m, applied once no earlier access is outstanding, takes m from the pending arrivals unless they are
fewer, changes nothing for an m of 0, and writes the phase as it was with the refusal in bit 62. A phase completes after an update when
the count is not zero and both others are. No other slot differs. A ready wait whose handle fails a check of R131 raises that fault at the
X-pipe. Else bar.wt writes 0 once the phase differs from X[s2][19:0] and waits until then; bar.twt writes 0 then, 2 when the gnomon
refuses or has never locked, 1 when its time has reached X[s3], and waits otherwise. BAR_TWT_DEADLINE tries a bar.twt at the head of the X
queue of a shuttle that may move once its deadline is reached, and leaves any other as it is. -/
def Obligations.Barriers : Prop :=
  (∀ (h : Hd) (d a b : Fin 64) (s : State), Ready h (xs [d, a, b]) s → Ready h (xs [a, b]) s → Ready h (xs [d, a]) s → barHeld s (s.sh.xget a) = false →
      let w := s.sh.xget a
      let br := s.bar w
      let upd : Nat → Nat → Word → State := fun count arr bytes => s.setBar w
        (if count ≠ 0 ∧ arr = 0 ∧ bytes = 0 then { br with count := count, arr := count, bytes := 0, phase := br.phase + 1 }
         else { br with count := count, arr := arr, bytes := bytes })
      let bad := w.toNat / 2 ^ 17 % 8 ≠ 0 ∨ w.toNat / 2 ^ 20 % 2 ^ 12 ≠ br.gen.toNat
      let n := (s.sh.xget b).toNat % 2 ^ 16
      let fails : Nat → Nat → Prop := fun c e =>
        exec (.barInit h a b) s = raiseA c e s ∧ exec (.barArv h false d a b) s = raiseA c e s ∧
        exec (.barArv h true d a b) s = raiseA c e s ∧ exec (.barExp h a b) s = raiseA c e s
      (w.toNat / 2 ^ 17 % 8 ≠ 0 ∨ (br.bad = false ∧ bad) → fails 0x0A 1) ∧
      (w.toNat / 2 ^ 17 % 8 = 0 → br.bad = true → fails 0x0C 2) ∧
      (¬ bad → br.bad = false → br.granted ≠ some (s.sh.pid, s.sh.handle) → fails 0x03 6) ∧
      (¬ bad → br.bad = false → br.granted = some (s.sh.pid, s.sh.handle) →
        (n = 0 → exec (.barInit h a b) s = raiseA 0x0A 2 s) ∧
        (n ≠ 0 → exec (.barInit h a b) s = .next (upd n n 0).past) ∧
        exec (.barExp h a b) s = .next (upd br.count br.arr (br.bytes + s.sh.xget b)).past ∧
        (∀ k, fenceWait s = some k → exec (.barArv h false d a b) s = .next (s.stays k) ∧ exec (.barArv h true d a b) s = .next (s.stays k)) ∧
        (fenceWait s = none → ∀ many : Bool,
          let m := if many then n else 1
          (0 < m → m ≤ br.arr → exec (.barArv h many d a b) s = .next ((upd br.count (br.arr - m) br.bytes).setX d (br.phase.zeroExtend 64)).past) ∧
            (m = 0 → exec (.barArv h many d a b) s = .next (s.setBar w br |>.setX d (br.phase.zeroExtend 64)).past) ∧
          (br.arr < m → exec (.barArv h many d a b) s =
            .next (s.setBar w br |>.setX d (br.phase.zeroExtend 64 + BitVec.ofNat 64 (2 ^ 62))).past))) ∧
      (∀ v x, (barDie v, barSlot v) ≠ (barDie w, barSlot w) → (s.setBar w x).bar v = s.bar v) ∧ (∀ x, (s.setBar w x).bar w = x)) ∧
  (∀ (h : Hd) (d a b c : Fin 64) (s : State),
      let w := s.sh.srcA a
      let done := (s.bar w).phase.toNat ≠ (s.sh.srcB b).toNat % 2 ^ 20
      let refuses := s.gn.lock = 2 ∨ s.gn.lock = 3
      let late := (s.sh.srcC c).toNat ≤ s.gn.t64.toNat
      let wt : Instr := .barWt h d a b
      let twt : Instr := .barTwt h d a b c
      barHeld s w = false → XReady wt s → XReady twt s →
        (∀ k e, barCheck s w = some (k, e) → Faults wt s (flt k e true) ∧ Faults twt s (flt k e true)) ∧
        (barCheck s w = none →
          (done → Does wt s [.x] (fun t => t.sh.x = (s.sh.xset d 0).x)) ∧
          (¬ done → Awaits wt s .other) ∧
          (done → Does twt s [.x] (fun t => t.sh.x = (s.sh.xset d 0).x)) ∧
          (¬ done → refuses → Does twt s [.x] (fun t => t.sh.x = (s.sh.xset d 2).x)) ∧
          (¬ done → ¬ refuses → late → Does twt s [.x] (fun t => t.sh.x = (s.sh.xset d 1).x)) ∧
          (¬ done → ¬ refuses → ¬ late → Awaits twt s .other) ∧
          (∀ e r, s.sh.xq = e :: r → e.instr = twt → pipeMoves s true = true → late → exec .barTwtDeadline s = exec twt s) ∧
          (∀ e r, s.sh.xq = e :: r → e.instr = twt → ¬ late → exec .barTwtDeadline s = .next s)))

/-- tile.st and tile.wt read and change an entry of the tile table. A tile.st on an entry that is not granted raises PERM 1, and on one in
whose bits an error has been found ECC. On any other, when it is ready, it writes the entry word as it stood to X[d] and applies its event
as R138 gives it: arm starts a fill of n chunks on an empty entry, done counts a chunk and makes the entry ready with the last, abort
empties a filling entry with code 7, rel empties a ready one or clears the code of an empty one, and an event not listed changes nothing.
When the event makes a filling entry leave that state, the chunks of the running commands of its record that name the entry and have not
finished are left undefined; else nothing but the entry and X[d] differs. tile.wt waits at issue until the entry is ready, or empty with a
code, and then writes its word. -/
def Obligations.TileTable : Prop :=
  ∀ (h : Hd) (d a : Fin 64) (k : BitVec 8) (s : State),
    let e := s.co.tent k.toNat
    let word : Word := BitVec.ofNat 64 (e.state % 4 * 2 ^ 62 + e.abort % 2 ^ 8 * 2 ^ 48 + e.expect % 2 ^ 16 * 2 ^ 16 + e.done % 2 ^ 16)
    let n := (s.sh.xget a).toNat % 2 ^ 16
    let feeds : List (Nat × Cmd) := s.allCores.flatMap (fun b => (b.cmds.filter (fun q => q.2.recId == s.co.recId.getD 0 && q.2.run &&
      q.2.tile == some k.toNat && decide (q.2.fin.length < q.2.expect))).map (fun q => (b.id, q.2)))
    let put : TEnt → State := fun u =>
      let t : State := { s with co := s.co.setTent k.toNat u }
      if e.state = 1 ∧ u.state ≠ 1 then feeds.foldl (fun t q => havocChunks t q.1 q.2) t else t
    let becomes : TEnt → Out3 := fun u => .next ((put u).setX d word).past
    let mine := s.sh.firstTile ≤ k.toNat ∧ k.toNat < s.sh.firstTile + s.sh.nEnts
    (Ready h (xs [d]) s → ¬ mine → exec (.tileStRd h d k) s = raiseA 0x03 1 s ∧ exec (.tileStDone h d k) s = raiseA 0x03 1 s ∧
      exec (.tileStAbort h d k) s = raiseA 0x03 1 s ∧ exec (.tileStRel h d k) s = raiseA 0x03 1 s) ∧
    (Ready h (xs [d, a]) s → ¬ mine → exec (.tileStArm h d a k) s = raiseA 0x03 1 s) ∧
    (e.bad = true → mine → (Ready h (xs [d]) s → exec (.tileStRd h d k) s = raiseA 0x0C 2 s ∧ exec (.tileStDone h d k) s = raiseA 0x0C 2 s ∧
        exec (.tileStAbort h d k) s = raiseA 0x0C 2 s ∧ exec (.tileStRel h d k) s = raiseA 0x0C 2 s) ∧
      (Ready h (xs [d, a]) s → exec (.tileStArm h d a k) s = raiseA 0x0C 2 s) ∧
      (XReady (.tileWt h d k) s → Faults (.tileWt h d k) s (flt 0x0C 2 true))) ∧
    (Ready h (xs [d]) s → mine → e.bad = false → exec (.tileStRd h d k) s = becomes e ∧
      exec (.tileStDone h d k) s = becomes (if e.state = 1 then
        { e with done := e.done + 1, state := if e.done + 1 = e.expect then 2 else 1 } else e) ∧
      exec (.tileStAbort h d k) s = becomes (if e.state = 1 then { e with state := 0, abort := 7 } else e) ∧
      exec (.tileStRel h d k) s = becomes (if e.state = 2 ∨ e.state = 0 ∧ e.abort ≠ 0 then { e with state := 0, abort := 0 } else e)) ∧
    (Ready h (xs [d, a]) s → mine → e.bad = false → exec (.tileStArm h d a k) s =
      becomes (if e.state = 0 ∧ n ≠ 0 then { state := 1, abort := 0, expect := n, done := 0 } else e)) ∧
    (∀ j, (s.co.setTent k.toNat e).tent j = s.co.tent j) ∧ (∀ u, (put u).sh = s.sh ∧ (put u).co = s.co.setTent k.toNat u ∧ (put u).cores = s.cores) ∧
    (XReady (.tileWt h d k) s →
      (¬ mine → Faults (.tileWt h d k) s (flt 0x03 1 true)) ∧
      (mine → e.bad = false → e.state = 2 ∨ e.state = 0 ∧ e.abort ≠ 0 → Does (.tileWt h d k) s [.x] (fun t => t.sh.x = (s.sh.xset d word).x)) ∧
      (mine → e.bad = false → ¬ (e.state = 2 ∨ e.state = 0 ∧ e.abort ≠ 0) → Awaits (.tileWt h d k) s .other))

/-- Taking a trap. A fault that is taken with a handler set, below level 2, with no value still to return and no die of its frame under
repair, writes the frame of the shuttle as it stood, with its record pushed to the fault record queue or counted as lost, to the home slot
at the current level; then tcause holds detail, pipe and cause, apc and xpc are the handler's address, the level is one higher, x1 is the
frame's address, vstart and ccur.hi are zero, the X queue and every data and return queue are empty, and no loop record is active; nothing
else differs from the state that wrote the frame. With no handler, at level 2, or when the frame cannot be written, the shuttle ends. The
record's address is the one the fault gives, else that of the oldest entry of the X queue, or of the A-pipe. While a value is still to
return or the frame waits for a repair the fault stands due; TRAP_ENTRY takes it once neither holds it up and no instruction of the
shuttle is part-way to its end, one that can stop between elements stopped there. The frame holds, at the offsets of R328 and R330, each
of them once: the counters, every scalar, predicate, vector and column register, the state registers, the loop counters and records, the
arena word, the queues with their counts, and for each entry of the X queue its word, its address, its operands and its wait. A fault of
cause ECC is counted, once, in an error counter of the core's die, which nothing else of it differs by. It rests on the choices of the
model in log entries 17 and 22. -/
def Obligations.TrapEntry : Prop :=
  ∀ (f : Flt) (z s1 s2 : State) (rc : FRec) (ok : Bool), f.cause < 2 ^ 16 →
    let s : State := if f.cause = 0x0C then countErr z (z.co.id / 16) 6 else z
    let held := s.co.returning s.sh.pos = true ∨ frameHeld s = true
    let holds := z.co.returning z.sh.pos = true ∨ z.sh.finishing = true ∨ frameHeld z = true
    Only [.dies] z s ∧ s.sh = z.sh ∧ s.co = z.co ∧ (f.cause ≠ 0x0C → s = z) ∧
    (f.cause = 0x0C → aget 0 (s.die (z.co.id / 16)).errs 6 = min (aget 0 (z.die (z.co.id / 16)).errs 6 + 1) (2 ^ 32 - 1)) ∧
    let t := s.sh.landAll
    let s0 : State := { s with sh := t, co := { s.co with cycle := s.sh.landedAt s.co.cycle } }
    let addr := f.at'.getD (if f.pipe then (match t.xq with | [] => t.apc.toNat | e :: _ => e.addr) else t.apc.toNat)
    (held → ∃ u, takeFault f z = .next u ∧ u.sh.due = some f ∧ u.sh.apc = s.sh.apc ∧ u.sh.level = s.sh.level ∧ Only [] s u) ∧
    (¬ held → t.tvec = 0 ∨ 2 ≤ t.level → takeFault f z = .next (faultEnd s0)) ∧
    (¬ held → t.tvec ≠ 0 → t.level < 2 → pushRecord s0 { core := s0.co.id, pos := t.pos } f addr = (s1, rc) →
      let fr := frameAddr s1 t.level
      devWrite s1 t.pid fr (0x2100 + 5632 * t.lanes) (frameWords s1 0 rc.words) = (s2, ok) →
      (rc.cause = f.cause ∧ rc.detail = f.detail ∧ rc.addr = addr ∧ rc.va = f.va ∧ rc.index = f.index ∧ rc.t = s.gn.t64.toNat ∧
        rc.lost = min t.lost 255) ∧
      (s1.sh.frq = t.frq ++ [rc] ∧ s1.sh.lost = 0 ∧ s1.sh.events = t.events ||| 4 ∨
        s1.sh.frq = t.frq ∧ s1.sh.lost = t.lost + 1 ∧ s1.sh.events = t.events) ∧
      (let ws := frameWords s1 0 rc.words
       let has : Nat → Word → Prop := fun o v => v ≠ 0 → (o, v) ∈ ws
       let word : Opnd → Word := fun o => match o with | .cap v => v | .bound r => BitVec.ofNat 64 r | .none => 0
       let bit : Opnd → Nat := fun o => match o with | .bound _ => 1 | _ => 0
       let L := t.lanes
       has 8 (t.apc.zeroExtend 64) ∧ has 0x10 (match t.xq with | [] => t.apc.zeroExtend 64 | e :: _ => BitVec.ofNat 64 e.addr) ∧
       has 0x18 (t.vlen.zeroExtend 64) ∧ has 0x20 t.vtype ∧ has 0x28 (t.vstart.zeroExtend 64) ∧ has 0x30 t.redst ∧ has 0x38 t.fill ∧
       has 0x40 (BitVec.ofNat 64 ((if t.sat then 1 else 0) + t.fflags.toNat * 2 ^ 8 + t.rnd.toNat * 2 ^ 16 + t.frm.toNat * 2 ^ 24)) ∧
       has 0x48 (t.ccur.extractLsb' 0 64) ∧ has 0x50 (t.ccur.extractLsb' 64 64) ∧ has 0x58 (t.xcur.extractLsb' 0 64) ∧ has 0x60 (t.xcur.extractLsb' 64 64) ∧
       has 0x68 (t.hcsum.zeroExtend 64) ∧ has 0x70 t.tvec ∧ has 0x78 t.tcause ∧ has 0xD0 t.arena ∧
       (∀ k : Fin 3, has (0x88 + 8 * k.val) (t.lc[k].zeroExtend 64) ∧ has (0xA0 + 16 * k.val) (BitVec.ofNat 64 (t.loops[k].start % 2 ^ 56)) ∧
         has (0xA8 + 16 * k.val) (BitVec.ofNat 64 ((if t.loops[k].act then 2 ^ 63 else 0) + (if t.loops[k].kind then 2 ^ 62 else 0) +
           t.loops[k].pred % 64 * 2 ^ 56 + t.loops[k].seq % 4 * 2 ^ 54 + t.loops[k].len % 512))) ∧
       (∀ k : Fin 16, has (0xD8 + 8 * k.val) t.c[k]) ∧ (∀ k : Fin 64, has (0x200 + 8 * k.val) t.x[k]) ∧
       (∀ (k : Fin 48) (b : Nat), b < 8 → has (0x400 + 64 * k.val + 8 * b) ((t.p[k]).extractLsb' (64 * b) 64)) ∧
       (∀ (k : Fin 64) (b : Nat), b < 8 * L → has (0x2100 + 1536 * L + k.val * L * 64 + 8 * b) ((t.v[k]).extractLsb' (64 * b) 64)) ∧
       (∀ (k : Fin 2) (e : Nat) (v : Word), t.rq[k][e]? = some v → has (0x2000 + 64 * k.val + 8 * e) v) ∧
       (∀ (k : Fin 6) (e : Nat) (q : QEntry), t.dq[k][e]? = some q → ∀ b, b < 2 * L →
         has (0x2100 + (16 * k.val + e) * 16 * L + 8 * b) (q.data.extractLsb' (64 * b) 64)) ∧
       has 0x168 (BitVec.ofNat 64 t.xq.length) ∧
       (∀ (j : Nat) (e : XEntry), t.xq[j]? = some e → has (0x1000 + 64 * j) (BitVec.ofNat 64 (encode e.instr)) ∧ has (0x1008 + 64 * j) (BitVec.ofNat 64 e.addr) ∧
         has (0x1010 + 64 * j) (word e.opA) ∧ has (0x1018 + 64 * j) (word e.opB) ∧ has (0x1020 + 64 * j) (word e.opC) ∧ has (0x1028 + 64 * j) (word e.opD) ∧
         has (0x1030 + 64 * j) (BitVec.ofNat 64 (min (if j = 0 then t.issueAt e.instr - s1.co.cycle else e.wait) 65535 +
           (bit e.opA + 2 * bit e.opB + 4 * bit e.opC + 8 * bit e.opD) * 2 ^ 16))) ∧
       (t.xq.length ≤ 64 → (∀ k : Fin 6, t.dq[k].length ≤ 16) → (∀ k : Fin 2, t.rq[k].length ≤ 8) → ws.Pairwise (fun a b => a.1 ≠ b.1))) ∧
      (ok = false → takeFault f z = .next (faultEnd s2)) ∧
      (ok = true → ∃ u, takeFault f z = .next u ∧
        Only [.x, .queues, .loops, .vstart, .ccur, .trap, .marks] s2 u ∧
        u.sh.tcause.toNat = f.detail % 2 ^ 32 * 2 ^ 32 + (if f.pipe then 2 ^ 16 else 0) + f.cause ∧
        u.sh.apc = BitVec.ofNat 56 s2.sh.tvec.toNat ∧ u.sh.tvec = s2.sh.tvec ∧ u.sh.level = s2.sh.level + 1 ∧ u.sh.vstart = 0 ∧
        u.sh.ccur.toNat = s2.sh.ccur.toNat % 2 ^ 64 ∧ u.sh.xq = [] ∧ (∀ k, u.sh.dqOf k = []) ∧ (∀ k, u.sh.rqOf k = []) ∧ u.sh.lc = s2.sh.lc ∧
        (∀ k : Fin 3, u.sh.loops[k] = { s2.sh.loops[k] with act := false }) ∧
        (∀ r : Fin 64, u.sh.xget r = if r = 1 then BitVec.ofNat 64 fr else s2.sh.xget r))) ∧
    (∃ u, takeFault f z = .next u) ∧
    (holds → z.sh.due = some f → exec .trapEntry z = .next z) ∧
    (¬ holds → z.sh.due = some f → exec .trapEntry z = .next (trapEntry f { z with sh := { z.sh.stopPart with due := none } })) ∧
    (z.sh.due = none → exec .trapEntry z = .next z)

/-- eret returns from a trap. A ready eret at level 0 raises PERM 10; it waits, as a fence does, while the X queue is not empty, and while an
access of the shuttle is outstanding or a die that holds the frame is under repair. Else it reads the frame one level down: unreadable,
the shuttle ends; with a saved apc that is not a multiple of 8, ALIGN 2 and no effect; else apc, the scalar registers but x0, the
predicate, vector and column registers, the arena word, the vector length, type, start and destination base, the fill, the flags and
roundings, both cursors, the checksum, tvec, tcause, the loop counters and records, the data and return queues and the X queue with its
waits are as the frame holds them, the oldest entry at the address of the frame's xpc, reserved bits zero, and the level is one lower. A
frame whose X queue holds a word that is no X-class instruction the feature set accepts stops the machine by name. It rests on the choices
of the model in log entries 18, 19, 97 and 98. -/
def Obligations.TrapReturn : Prop :=
  ∀ (h : Hd) (s s1 : State) (w : Nat → Nat), Ready h [] s →
    let fr := frameAddr s (s.sh.level - 1)
    let n := min (w 0x168 % 128) 64
    let W : Nat → Word := fun a => BitVec.ofNat 64 (w a)
    let r := exec (.eret h) s
    (s.sh.level = 0 → r = raiseA 0x03 10 s) ∧
    let held := s.co.outstanding s.sh.pos = true ∨ devHeldBy s s.co.id s.sh.pid fr (0x2100 + 5632 * s.sh.lanes) = true
    let ok : Nat → Prop := fun j => (∃ i, decode (w (0x1000 + 64 * j)) = some i ∧ i.kind = .xClass) ∧ scanWord s1.feature (w (0x1000 + 64 * j)) = none
    let L := s.sh.lanes
    (s.sh.level ≠ 0 → s.sh.xq ≠ [] → r = .next (s.stays .onX)) ∧
    (s.sh.level ≠ 0 → s.sh.xq = [] → held → r = .next (s.stays .other)) ∧
    (s.sh.level ≠ 0 → s.sh.xq = [] → ¬ held →
      (frameReader s s.sh.pid fr (0x2100 + 5632 * s.sh.lanes) = (s1, none) → r = .next (faultEnd s1)) ∧
      (frameReader s s.sh.pid fr (0x2100 + 5632 * s.sh.lanes) = (s1, some w) →
        (w 8 % 8 ≠ 0 → r = raiseA 0x04 2 s1) ∧
        (w 8 % 8 = 0 → (∃ j, j < n ∧ ¬ ok j) → r = .fault .unscannedWord) ∧
        (w 8 % 8 = 0 → (∀ j, j < n → ok j) →
          ∃ u, r = .next u ∧ u.sh.level = s.sh.level - 1 ∧ u.sh.apc = BitVec.ofNat 56 (w 8) ∧
            (∀ k : Fin 64, u.sh.xget k = if k = 0 then 0 else W (0x200 + 8 * k.val)) ∧
            u.sh.vlen = BitVec.ofNat 13 (w 0x18) ∧ u.sh.vtype = W 0x20 &&& 0xFF300F ∧ u.sh.vstart = BitVec.ofNat 13 (w 0x28) ∧
            u.sh.redst = W 0x30 ∧ u.sh.fill = W 0x38 ∧ u.sh.sat = (W 0x40).getLsbD 0 ∧ u.sh.fflags = (W 0x40).extractLsb' 8 5 ∧
            u.sh.rnd = (W 0x40).extractLsb' 16 2 ∧ u.sh.frm = (W 0x40).extractLsb' 24 2 ∧ u.sh.hcsum = BitVec.ofNat 32 (w 0x68) ∧
            u.sh.tvec = W 0x70 &&& 0xFFFFFFFFFFFFFFF8 ∧ u.sh.tcause = W 0x78 &&& 0xFFFFFFFF000100FF ∧
            (∀ k : Fin 3, u.sh.lc[k] = BitVec.ofNat 32 (w (0x88 + 8 * k.val))) ∧ u.sh.events = BitVec.ofNat 4 (w 0x158) ∧
            (∀ k : Fin 3, let lo := w (0xA0 + 16 * k.val); let hi := w (0xA8 + 16 * k.val)
              u.sh.loops[k] = { act := hi.testBit 63, kind := hi.testBit 62, pred := hi / 2 ^ 56 % 64, seq := hi / 2 ^ 54 % 4, len := hi % 512,
                                start := lo % 2 ^ 56 }) ∧
            u.sh.arena = W 0xD0 &&& 0x7FFFFFFFFFFFFFFF ∧ (∀ k : Fin 16, u.sh.c[k] = W (0xD8 + 8 * k.val) &&& 0xF0FFFFFFFFFFFFFF) ∧
            u.sh.ccur = (W 0x50 ++ W 0x48 : BitVec 128) &&& 0xFFC000FFFFFFFFFFBFC000FFFFFFFFFF ∧
            u.sh.xcur = (W 0x60 ++ W 0x58 : BitVec 128) &&& 0xF0000000FFFFFFFFFFFFFFFFFFFFFFFF ∧
            (∀ (k : Fin 48) (b : Nat), b < 8 → (u.sh.p[k]).extractLsb' (64 * b) 64 = W (0x400 + 64 * k.val + 8 * b)) ∧
            (L ≤ 32 → ∀ (k : Fin 64) (b : Nat), b < 8 * L →
              (u.sh.v[k]).extractLsb' (64 * b) 64 = W (0x2100 + 1536 * L + k.val * L * 64 + 8 * b)) ∧
            (∀ k : Fin 2, u.sh.rq[k] = (List.range (min (w 0x160 / 2 ^ (8 * (6 + k.val)) % 2 ^ 8) 8)).map (fun e => W (0x2000 + 64 * k.val + 8 * e))) ∧
            (∀ k : Fin 6, u.sh.dq[k].length = min (w 0x160 / 2 ^ (8 * k.val) % 2 ^ 8) 16 ∧ ∀ e x, u.sh.dq[k][e]? = some x → x.due = none ∧
              x.scalar = (if k.val < 4 then (w 0x1A0).testBit (16 * k.val + e) else (w 0x1A8).testBit (16 * (k.val - 4) + e)) ∧
              (L ≤ 32 → ∀ b, b < 2 * L → x.data.extractLsb' (64 * b) 64 = W (0x2100 + (16 * k.val + e) * 16 * L + 8 * b))) ∧
            u.sh.xq.length = n ∧ (∀ j e, u.sh.xq[j]? = some e → decode (w (0x1000 + 64 * j)) = some e.instr ∧
              e.addr = w (if j = 0 then 0x10 else 0x1008 + 64 * j) % 2 ^ 56 ∧ e.wait = (if j = 0 then 0 else w (0x1030 + 64 * j) % 2 ^ 16)) ∧
            u.sh.issueFrom = s1.co.cycle + (if n = 0 then 0 else w 0x1030 % 2 ^ 16))))

/-- trap, bkpt and halt. A ready trap, bkpt or halt waits while the X queue is not empty. Then trap takes a fault of cause SWTRAP with its
code as detail, the A-pipe past it; both with the record at their own address; bkpt does the same with cause BKPT, or, with a debugger
attached, halts the core, at once or once what it has issued has completed; halt also waits for every write, access and engine command of
the shuttle, and then ends the shuttle, its exit code put with its record, which completes with status 0 once every shuttle of it has
ended, nothing of it or its commands has yet to perform, and its completion entry waits for no repair. It rests on the choices of the
model in log entries 59 and 61. -/
def Obligations.AskedTraps : Prop :=
  ∀ (h : Hd) (n : BitVec 16) (s : State), Ready h [] s →
    let id := s.co.recId.getD 0
    let clear := marksClear s = true ∧ s.co.outstanding s.sh.pos = false ∧ cmdsRun s id s.sh.pos = false
    let t := s.sh.settle s.co.cycle
    let ended : State :=
      { s with sh := { t with status := .halted n.toNat, halting := true, nA := s.sh.nA + 1, aWait := .none, xWait := .none } }
    (s.sh.xq ≠ [] → exec (.trap h n) s = .next (s.stays .onX) ∧ exec (.bkpt h n) s = .next (s.stays (if s.co.dbg then .other else .onX)) ∧ ∃ t, exec (.halt h n) s = .next t ∧
      t.sh.aWait = .onX ∧ t.sh.apc = s.sh.apc ∧ t.sh.status = s.sh.status) ∧
    (s.sh.xq = [] →
      let f : Nat → Flt := fun c => { flt c n.toNat false with at' := some s.sh.apc.toNat }
      (∃ u, exec (.trap h n) s = .next u ∧ takeFault (f 0x12) s.past = .next u) ∧
      (s.co.dbg = false → ∃ u, exec (.bkpt h n) s = .next u ∧ takeFault (f 0x13) s.past = .next u) ∧
      (s.co.dbg = true → s.co.recId ≠ none → ∃ t, exec (.bkpt h n) s = .next t ∧ t.sh.apc = s.sh.apc + 8 ∧
        if coreReturning s then t.co.haltDue = true ∧ t.co.halted = s.co.halted else t.co.halted = true ∧ t.co.haltDue = false)) ∧
    (¬ clear → s.sh.xq = [] → ∃ t, exec (.halt h n) s = .next t ∧ t.sh.aWait = .other ∧ t.sh.apc = s.sh.apc ∧ t.sh.status = s.sh.status) ∧
    (clear → s.co.owner ≠ some s.sh.pos →
      (s.myRec? = none → exec (.halt h n) s = .next ended) ∧
      (∀ r, s.myRec? = some r → r.core = s.co.id → s.sh.pos < r.k →
        let r1 : Rec := { r with exits := aput r.exits s.sh.pos n.toNat }
        let done := r.stat = .running ∧ ∀ p, p < r.k → p ≠ s.sh.pos → (s.shuttle { core := r.core, pos := p }).status.ended = true
        (done → recBusy (ended.setRec r1) r1.id = false → exec (.halt h n) s = .next (completeRec (ended.setRec r1) r1 0)) ∧
        (done → recBusy (ended.setRec r1) r1.id = true → exec (.halt h n) s = .next ((ended.setRec r1).setRec { r1 with stat := .ending 0 })) ∧
        (¬ done → exec (.halt h n) s = .next (ended.setRec r1))))

/-- srd and swr read and write the state registers. With what has landed standing, a ready srd writes the register as it stands, zero-
extended, to X[d] and goes past; a ready swr writes X[a] to a writable register, its reserved bits zero, its poison gone, and goes past,
and on vlen, vtype, tcause, apc, xpc and wlbud, which only the machine writes, raises PERM 2. It rests on the choices of the model in log
entry 15. -/
def Obligations.StateRegisters : Prop :=
  ∀ (h : Hd) (d a : Fin 64) (s : State), Ready h (xs [d]) s → Ready h (xs [a]) s →
    let t := s.sh.settle s.co.cycle
    let A := s.sh.xget a
    let reads : SReg → Word → Prop := fun k v => exec (.srd h k d) s = .next (({ s with sh := t } : State).setX d v).past
    let writes : SReg → Shuttle → Prop := fun k u => exec (.swr h k a) s = .next ({ s with sh := u.wash (SReg.poisonNo k).toList } : State).past
    reads .vlen (t.vlen.zeroExtend 64) ∧ reads .vtype t.vtype ∧ reads .vstart (t.vstart.zeroExtend 64) ∧ reads .redst t.redst ∧
    reads .fill t.fill ∧ reads .sat (if t.sat then 1 else 0) ∧ reads .fflags (t.fflags.zeroExtend 64) ∧ reads .rnd (t.rnd.zeroExtend 64) ∧
    reads .frm (t.frm.zeroExtend 64) ∧ reads .ccurLo (t.ccur.extractLsb' 0 64) ∧ reads .ccurHi (t.ccur.extractLsb' 64 64) ∧
    reads .xcurLo (t.xcur.extractLsb' 0 64) ∧ reads .xcurHi (t.xcur.extractLsb' 64 64) ∧ reads .hcsum (t.hcsum.zeroExtend 64) ∧
    reads .tvec t.tvec ∧ reads .tcause t.tcause ∧ reads .apc (t.apc.zeroExtend 64) ∧
    reads .xpc (match t.xq with | [] => t.apc.zeroExtend 64 | e :: _ => BitVec.ofNat 64 e.addr) ∧ reads .wlbud (BitVec.ofNat 64 s.co.wlbud) ∧
    writes .vstart { t with vstart := A.extractLsb' 0 13 } ∧ writes .redst { t with redst := A } ∧ writes .fill { t with fill := A } ∧
    writes .sat { t with sat := A.getLsbD 0 } ∧ writes .fflags { t with fflags := A.extractLsb' 0 5 } ∧
    writes .rnd { t with rnd := A.extractLsb' 0 2 } ∧ writes .frm { t with frm := A.extractLsb' 0 2 } ∧
    writes .ccurLo { t with ccur := (t.ccur.extractLsb' 64 64 ++ A) &&& ccurMask } ∧
    writes .ccurHi { t with ccur := (A ++ t.ccur.extractLsb' 0 64) &&& ccurMask } ∧
    writes .xcurLo { t with xcur := (t.xcur.extractLsb' 64 64 ++ A) &&& xcurMask } ∧
    writes .xcurHi { t with xcur := (A ++ t.xcur.extractLsb' 0 64) &&& xcurMask } ∧
    writes .hcsum { t with hcsum := A.extractLsb' 0 32 } ∧ writes .tvec { t with tvec := A &&& 0xFFFFFFFFFFFFFFF8 } ∧
    (∀ k, k ∈ [SReg.vlen, .vtype, .tcause, .apc, .xpc, .wlbud] → exec (.swr h k a) s = raiseA 0x03 2 s)

/-- tnow, tarm, the timer, yield and wfe. When it is ready, tnow writes T64 and tnow.st the lock state with the holdover left; tarm arms the
timer for X[a], or fires it at once when that is past, and writes 0, but in lock states 2 and 3 writes 2 and changes nothing; tarm.clr
disarms it. TIMER_FIRE sets event bit 0 and disarms an armed timer whose deadline has come. With nothing due, yield goes past; wfe waits
until a selected event bit is set, and then writes and clears the selected bits that are. A pending pre-emption is taken at both once the
X queue is empty, and a hold limit exceeded twice raises BUDGET 2 there. It rests on the choices of the model in log entries 58 and 60. -/
def Obligations.TimeAndEvents : Prop :=
  ∀ (h : Hd) (d a : Fin 64) (m : BitVec 16) (s : State), Ready h (xs [d]) s → Ready h (xs [d, a]) s → Ready h [] s →
    let A := s.sh.xget a
    let left : Nat := if s.gn.lock = 1 then 1000000 - (s.gn.t64 - s.gn.holdFrom).toNat / 4000 else 0
    let bits : BitVec 4 := s.sh.events &&& (if m = 0 then 15 else m.extractLsb' 0 4)
    let free := s.sh.budgetDue = false ∧ s.sh.pre = none
    exec (.tnow h d) s = .next (s.setX d s.gn.t64).past ∧
    exec (.tnowSt h d) s = .next (s.setX d (BitVec.ofNat 64 (left * 2 ^ 32 + s.gn.lock % 4))).past ∧
    (2 ≤ s.gn.lock → exec (.tarm h d a) s = .next (s.setX d 2).past) ∧
    (s.gn.lock < 2 → s.gn.t64.toNat < A.toNat →
      exec (.tarm h d a) s = .next (({ s with sh := { s.sh with timer := A, armed := true } } : State).setX d 0).past) ∧
    (s.gn.lock < 2 → A.toNat ≤ s.gn.t64.toNat → exec (.tarm h d a) s =
      .next (({ s with sh := { s.sh with timer := A, armed := false, events := s.sh.events ||| 1 } } : State).setX d 0).past) ∧
    exec (.tarmClr h d) s = .next (({ s with sh := { s.sh with armed := false } } : State).setX d 0).past ∧
    (s.sh.status = .running → s.sh.armed = true → s.sh.timer.toNat ≤ s.gn.t64.toNat →
      exec .timerFire s = .next { s with sh := { s.sh with armed := false, events := s.sh.events ||| 1 } }) ∧
    (free → exec (.yield h) s = .next s.past) ∧
    (free → bits = 0 → exec (.wfe h m d) s = .next (s.stays .other)) ∧
    (free → bits ≠ 0 →
      exec (.wfe h m d) s = .next (({ s with sh := { s.sh with events := s.sh.events &&& ~~~ bits } } : State).setX d (bits.zeroExtend 64)).past) ∧
    (s.sh.budgetDue = true → s.sh.xq = [] → ∀ i, i = Instr.yield h ∨ i = .wfe h m d →
      exec i s = takeFault (flt 0x0E 2 false) { s with sh := { s.sh with budgetDue := false } }) ∧
    (s.sh.budgetDue = false → s.sh.pre ≠ none → ∀ i, i = Instr.yield h ∨ i = .wfe h m d →
      (s.sh.xq ≠ [] → exec i s = .next (s.stays .other)) ∧
      (s.sh.xq = [] → ∃ t, exec i s = .next t ∧ t.sh.saveDue = some 0 ∧ t.sh.apc = (if i = Instr.yield h then s.sh.apc + 8 else s.sh.apc)))

/-- xinv, keyz, scrub and the scrubs they start. Without system privilege a ready xinv, keyz or scrub raises PERM 11. With it, xinv removes
the translations it names once no write through them is outstanding, and raises ALIGN 7 for a size code above 2; keyz on an empty slot
goes past with no effect, on one that serves no stopped partition the issuer supervises raises PERM 15, and else empties the slot once no
write to its windows is outstanding; scrub raises PERM 15 unless the issuer supervises the stopped partition, scrub.st also while one of
its key slots is loaded; scrub.st starts the scrubs, scrub.rd writes the progress register of a die, or 0, and scrub.wt goes past once
every die is done. SCRUB_GRANULE on a scrub whose pads are cleared writes zero to every byte of its next granule and to no other, counts
it, and is done with the last; before that it clears the pads: of each core granted there the near scratchpad reads zero, and counts as
not used. First, too, it removes the partition's translations, once no access through them is outstanding. It leaves a finished or absent
scrub alone. SCRUB_PENDING_START starts the oldest pending scrub once fewer than 8 progress registers are in use, and does nothing else.
It rests on the choices of the model in log entries 62, 63 and 64. -/
def Obligations.Privileged : Prop :=
  (∀ (h : Hd) (d a b : Fin 64) (s : State), Ready h (xs [d, a]) s → Ready h (xs [a, b]) s → Ready h (xs [a]) s → Ready h [] s →
      let A := (s.sh.xget a).toNat
      let pid := A % 2 ^ 8
      let die := A / 2 ^ 8 % 2 ^ 5
      let slot := A % 2 ^ 6
      let mine : Nat → Prop := fun k => ∃ p : Part, s.part? k = some p ∧ p.state = 3 ∧ p.sup = s.sh.pid ∧ p.sup ≠ 0
      let all : List Instr := [.xinvPg h a b, .xinvAll h a, .keyz h a, .scrubSt h a, .scrubRd h d a, .scrubWt h a]
      let page : Nat → Xlat → Bool := fun bits t => t.bits == bits && (t.pid == s.sh.pid && t.va == A / 2 ^ bits * 2 ^ bits)
      let removes : Instr → (Xlat → Bool) → Prop := fun i sel =>
        (xlatsBusy s sel = true → exec i s = .next (s.stays .other)) ∧
        (xlatsBusy s sel = false → ∃ t : State, exec i s = .next t ∧ t.sh = s.past.sh ∧ Only [.xlats] s t ∧ ∀ x, x ∈ t.tlb ↔ x ∈ s.tlb ∧ sel x = false)
      (s.sh.priv = false → ∀ i ∈ all, exec i s = raiseA 0x03 11 s) ∧
      (s.sh.priv = true →
        (∀ c bits : Nat, (s.sh.xget b).toNat = c → (c, bits) ∈ [(0, 16), (1, 21), (2, 30)] → removes (.xinvPg h a b) (page bits)) ∧
        (3 ≤ (s.sh.xget b).toNat → exec (.xinvPg h a b) s = raiseA 0x04 7 s) ∧
        removes (.xinvAll h a) (fun t => t.pid == s.sh.pid) ∧
        (slot ∉ (s.die die).keys → exec (.keyz h a) s = .next s.past) ∧
        (slot ∈ (s.die die).keys → (¬ ∃ e : BankEnt, e ∈ (s.die die).banks ∧ e.key = slot ∧ mine e.pid) → exec (.keyz h a) s = raiseA 0x03 15 s) ∧
        (slot ∈ (s.die die).keys → (∃ e : BankEnt, e ∈ (s.die die).banks ∧ e.key = slot ∧ mine e.pid) →
          let busy := (keyWindows s die slot).any (fun w => pendingWrites s w.1 w.2)
          (busy = true → exec (.keyz h a) s = .next (s.stays .other)) ∧
          (busy = false → ∃ t : State, exec (.keyz h a) s = .next t ∧ t.sh = s.past.sh ∧ Only [.dies] s t ∧
            (∀ k, k ∈ (t.die die).keys ↔ k ∈ (s.die die).keys ∧ k ≠ slot) ∧ ∀ e, e ≠ die → t.die e = s.die e)) ∧
        (¬ mine pid → exec (.scrubSt h a) s = raiseA 0x03 15 s ∧ exec (.scrubRd h d a) s = raiseA 0x03 15 s ∧ exec (.scrubWt h a) s = raiseA 0x03 15 s) ∧
        (mine pid →
          (keysEmpty s pid = false → exec (.scrubSt h a) s = raiseA 0x03 15 s) ∧
          (keysEmpty s pid = true → xlatsBusy s (fun t => t.pid == pid) = true → exec (.scrubSt h a) s = .next (s.stays .other)) ∧
          (keysEmpty s pid = true → xlatsBusy s (fun t => t.pid == pid) = false → exec (.scrubSt h a) s = .next (startScrubs s pid).past) ∧
          ((s.die die).scrub? pid = none → exec (.scrubRd h d a) s = .next (s.setX d 0).past) ∧
          (∀ r : Scrub, (s.die die).scrub? pid = some r → exec (.scrubRd h d a) s = .next (s.setX d (BitVec.ofNat 64
            (r.pid % 2 ^ 8 * 2 ^ 56 + (if r.fin then 2 else 1) * 2 ^ 54 + r.total % 2 ^ 20 * 2 ^ 20 + r.done % 2 ^ 20))).past) ∧
          ((∀ k, k < 32 → ∃ r : Scrub, (s.die k).scrub? pid = some r ∧ r.fin = true) → exec (.scrubWt h a) s = .next s.past) ∧
          ((∃ k, k < 32 ∧ ∀ r : Scrub, (s.die k).scrub? pid = some r → r.fin = false) → exec (.scrubWt h a) s = .next (s.stays .other))))) ∧
  (∀ (die pid : Nat) (s : State),
      ((s.die die).scrub? pid = none → exec (.scrubGranule die pid) s = .next s) ∧
      (∀ r, (s.die die).scrub? pid = some r → r.pid = pid →
        (r.fin = true → exec (.scrubGranule die pid) s = .next s) ∧
        (r.fin = false → r.cleared = false → xlatsBusy s (fun t => t.pid == pid) = true → exec (.scrubGranule die pid) s = .next s) ∧
        (s.named → r.fin = false → r.cleared = false → xlatsBusy s (fun t => t.pid == pid) = false →
          ∃ t, exec (.scrubGranule die pid) s = .next t ∧ t.sh = s.sh ∧ t.co = { s.co with nearUsed := t.co.nearUsed } ∧ (∀ x ∈ t.tlb, x.pid ≠ pid) ∧
          (∀ p u c, s.part? pid = some p → p.uses.find? (fun u => u.die == die) = some u → c < 16 → u.cores.getLsbD c = true →
            (t.core (die * 16 + c)).nearUsed = false ∧ ∀ a, a < 0x180000 → t.mem.read (nearKey (die * 16 + c) a) = 0) ∧
          (t.die die).scrub? pid = some { r with cleared := true, fin := decide (r.total = 0) }) ∧
        (r.fin = false → r.cleared = true → ∃ t, exec (.scrubGranule die pid) s = .next t ∧ t.sh = s.sh ∧ t.co = s.co ∧
          (t.die die).scrub? pid = some { r with done := r.done + 1, fin := decide (r.total ≤ r.done + 1) } ∧
          ∀ a, t.mem.read a = if granuleAt s die pid r.done ≤ a ∧ a < granuleAt s die pid r.done + 65536 then 0 else s.mem.read a)) ∧
      ((s.die die).pend = [] → exec (.scrubPendingStart die) s = .next s) ∧
      (8 ≤ (s.die die).scrubs.length → exec (.scrubPendingStart die) s = .next s) ∧
      (∀ p r, (s.die die).pend = p :: r → (s.die die).scrubs.length < 8 → (s.die die).scrub? p = none → p ∉ r →
        ∃ t, exec (.scrubPendingStart die) s = .next t ∧ Only [.dies] s t ∧ t.sh = s.sh ∧ t.co = s.co ∧ (t.die die).pend = r ∧
          (∃ q, (t.die die).scrubs = (s.die die).scrubs ++ [q] ∧ q.pid = p ∧ q.done = 0 ∧ q.fin = false)))

/-- frq and cnt read the fault record queue and the counters. A ready frq.n writes the number of queued records. A ready frq.pop on an address
that is not a multiple of 64 raises ALIGN 3 whatever is queued; else on an empty queue it writes all ones; else, when the access passes,
it writes the oldest record as one 64-byte plain write, takes it from the queue and writes how many are left, and waits while the write
lane cannot take it. A ready cnt writes its counter, a shared one under system privilege as it stands, and else as it stood a millisecond
before, rounded down to a multiple of 1,024. -/
def Obligations.RecordsAndCounters : Prop :=
  ∀ (h : Hd) (d a : Fin 64) (s : State), Ready h (xs [d]) s → Ready h (xs [d, a]) s →
    let ea := (s.sh.xget a).toNat
    let seen : Nat → Nat × Nat → Word := fun now snap => BitVec.ofNat 64 (if s.sh.priv then now else snap.2 / 1024 * 1024)
    exec (.frqN h d) s = .next (s.setX d (BitVec.ofNat 64 s.sh.frq.length)).past ∧
    (ea % 64 ≠ 0 → exec (.frqPop h d a) s = faultA { flt 0x04 3 false with va := ea } s) ∧
    (ea % 64 = 0 → s.sh.frq = [] → exec (.frqPop h d a) s = .next (s.setX d (BitVec.allOnes 64)).past) ∧
    (∀ f r s1 l, ea % 64 = 0 → s.sh.frq = f :: r → check s s.who ea 64 .write false true = (s1, .ok l) →
      spanBlocked s1 false ea 64 (portOf l.key) = false → loadMet s1 (portOf l.key) = false →
      let put := s1.co.plain l.key (f.words.flatMap (fun w => leBytes 8 w.toNat)) false { a := [s1.sh.pos], x := [], t := [] }
      (put = none → exec (.frqPop h d a) s = .next (s1.stays .other)) ∧
      (∀ c, put = some c → exec (.frqPop h d a) s =
        .next (({ s1 with co := { c with frUsed := c.frUsed - 1 }, sh := { s1.sh with frq := r } } : State).setX d (BitVec.ofNat 64 r.length)).past)) ∧
    exec (.cnt h .cycles d) s = .next (s.setX d (BitVec.ofNat 64 s.co.cycle)).past ∧
    exec (.cnt h .aDone d) s = .next (s.setX d (BitVec.ofNat 64 s.sh.nA)).past ∧
    exec (.cnt h .xIssued d) s = .next (s.setX d (BitVec.ofNat 64 s.sh.nX)).past ∧
    exec (.cnt h .xWaiting d) s = .next (s.setX d (BitVec.ofNat 64 s.sh.nWait)).past ∧
    exec (.cnt h .wlBytes d) s = .next (s.setX d (seen s.co.wlBytes s.co.snapWl)).past ∧
    exec (.cnt h .hedBytes d) s = .next (s.setX d (seen s.co.hedBytes s.co.snapHed)).past ∧
    (∀ p, s.part? s.sh.pid = some p → exec (.cnt h .fabBytes d) s = .next (s.setX d (seen p.fabBytes p.snapFab)).past)

/-- hcopy, hxfm and hfab start a command, after the checks of R222 in order. A ready hcopy, hxfm or hfab with no work writes 0 to X[d]. Else
more than 4,096 chunks or a mask beyond p47 raise ALIGN 7; a tile entry that is not granted raises PERM 1; a local barrier that fails its
checks raises that fault; with no command slot free the instruction waits, or raises POOL 1 under .nb; a tile entry that is not empty
writes 0; and else a command starts in the free slot: its handle in X[d], its chunks all expected and none done, its mask bits cleared,
its tile entry filling with the number of chunks, and its operands as the instruction gives them. hxfm first needs a loaded program
(CODESCAN 10), a shape slot of the region and a well-formed shape record of the generation of its handle (HANDLE 3); hfab needs whole fold
units for a fold (ALIGN 7) and a valid peer entry of the region (PERM 12). It rests on the choices of the model in log entries 23, 39, 43
and 52. -/
def Obligations.CommandsStart : Prop :=
  ∀ (h : Hd) (ck : BitVec 3) (ts bar crc nb get fold : Bool) (d a b e pm : Fin 64) (tt peer : BitVec 8) (s s1 : State) (w : List Nat),
    Ready h (xs [d, a, b, e]) s → Ready h (xs [d, a]) s →
    let len := (s.sh.xget e).toNat
    let size := 64 * 4 ^ ck.toNat
    let n := (len + size - 1) / size
    let tile : Option Nat := if ts then some tt.toNat else none
    let local' : Option Word := if bar then some (s.sh.xget d) else none
    let big : Nat → Prop := fun n => 4096 < n ∨ pm.val ≠ 63 ∧ 47 < pm.val + (n + 511) / 512 - 1
    let starts : Instr → State → Nat → Option Nat → (Cmd → Prop) → Prop := fun i t n tile P =>
      (freeSlot t = none → exec i s = if nb then raiseA 0x08 1 t else .next (t.stays .other)) ∧
      (∀ slot, freeSlot t = some slot →
        ((∃ k, tile = some k ∧ (t.co.tent k).state ≠ 0) → exec i s = .next (t.setX d 0).past) ∧
        ((∀ k, tile = some k → (t.co.tent k).state = 0) →
          ∃ u c, exec i s = .next u ∧ u.sh.xget d = (if d = 0 then 0 else cmdHandle t.co.id slot c.seq) ∧ u.sh.apc = t.sh.apc + 8 ∧
            afind? u.co.cmds slot = some c ∧ c.run = true ∧ c.expect = n ∧ c.done = 0 ∧ c.fin = [] ∧ c.pos = t.sh.pos ∧
            c.recId = t.co.recId.getD 0 ∧ c.pid = t.sh.pid ∧ c.pm = pm.val ∧ c.seq = nextSeq t.co slot ∧ c.tile = tile ∧ P c ∧
            (∀ k, tile = some k → u.co.tent k = { state := 1, abort := 0, expect := n, done := 0 }) ∧
            (pm.val ≠ 63 → ∀ j, j < n → u.sh.pval pm.val j = false) ∧ Only [.x, .p, .cmds, .ents, .others] t u))
    let checked : Instr → State → Nat → Option Nat → Option Word → Prop → Prop := fun i t n tile bar Q =>
      (big n → exec i s = raiseA 0x04 7 t) ∧
      (¬ big n → aBlocked t (if pm.val = 63 then [] else pGroup pm n) = none →
        (∀ k, tile = some k → entGranted t.sh k = false → exec i s = raiseA 0x03 1 t) ∧
        ((∀ k, tile = some k → entGranted t.sh k = true) →
          (∀ v c f, bar = some v → barCheck t v = some (c, f) → exec i s = raiseA c f t) ∧
          ((∀ v, bar = some v → barCheck t v = none) → Q)))
    let copy : Instr := .hcopy h ck ts bar crc nb d a b e pm tt
    let xfm : Instr := .hxfm h ts bar nb d a pm tt
    let fab : Instr := .hfab h ck get bar crc nb fold d a b e pm peer
    let hd := (s.sh.xget a).toNat % 2 ^ 32
    (len = 0 → exec copy s = .next (s.setX d 0).past ∧ exec fab s = .next (s.setX d 0).past) ∧
    (len ≠ 0 → checked copy s n tile local' (starts copy s n tile (fun c => c.kind = .copy ∧ c.dst = s.sh.xget a ∧ c.src = s.sh.xget b ∧
      c.len = len ∧ c.chunk = size ∧ c.crc = crc ∧ c.fold = false ∧ c.bar = local'))) ∧
    (s.sh.progOk = false → exec xfm s = raiseA 0x05 10 s) ∧
    (s.sh.progOk = true → s.region.shapeN ≤ hd % 2 ^ 20 → exec xfm s = raiseA 0x0A 3 s) ∧
    (s.sh.progOk = true → hd % 2 ^ 20 < s.region.shapeN →
      (∀ k, readWordsA s ((s.region.shapeBase + 64 * (hd % 2 ^ 20)) % 2 ^ 64) 8 k = k s1 w) → s1.sh.x = s.sh.x →
      (shapeBad w (hd / 2 ^ 20) = true → exec xfm s = raiseA 0x0A 3 s1) ∧
      (shapeBad w (hd / 2 ^ 20) = false →
        (w.getD 4 0 % 2 ^ 32 = 0 → exec xfm s = .next (s1.setX d 0).past) ∧
        (w.getD 4 0 % 2 ^ 32 ≠ 0 → checked xfm s1 (w.getD 5 0 / 2 ^ 32 % 2 ^ 16) tile local'
          (starts xfm s1 (w.getD 5 0 / 2 ^ 32 % 2 ^ 16) tile (fun c => c.kind = .xfm ∧ c.shape = w.map (BitVec.ofNat 64) ∧
            c.prog = s1.sh.prog ∧ c.pc = 0 ∧ c.r = 0 ∧ c.w = 0 ∧ c.bar = local'))))) ∧
    (len ≠ 0 → fold = true → len % 4096 ≠ 0 ∨ ck.toNat < 3 → exec fab s = raiseA 0x04 7 s) ∧
    (len ≠ 0 → (fold = true → len % 4096 = 0 ∧ 3 ≤ ck.toNat) → checked fab s n none (if get then local' else none)
      ((s.region.peerN ≤ peer.toNat → exec fab s = raiseA 0x03 12 s) ∧
       (peer.toNat < s.region.peerN → (∀ k, readWordsA s ((s.region.peerBase + 16 * peer.toNat) % 2 ^ 64) 2 k = k s1 w) → s1.sh.x = s.sh.x →
         let lo := w.getD 0 0
         let hi := w.getD 1 0
         let valid := hi / 2 ^ 63 % 2 = 1 ∧ hi / 2 ^ 48 % 2 ^ 14 = 0 ∧ lo / 2 ^ 32 % 2 ^ 8 ≠ 0xFF
         (¬ valid → exec fab s = raiseA 0x03 12 s1) ∧
         (valid → starts fab s1 n none (fun c => c.kind = (if get then .get else .put) ∧ c.dst = (if get then s.sh.xget a else s.sh.xget b) ∧
           c.src = (if get then s.sh.xget b else s.sh.xget a) ∧ c.len = len ∧ c.chunk = size ∧ c.crc = crc ∧ c.fold = fold ∧ c.bar = local' ∧
           c.peer = lo % 2 ^ 32 ∧ c.ppid = lo / 2 ^ 32 % 2 ^ 8 ∧ c.ports = hi % 2 ^ 48 ∧ c.rod = decide (hi / 2 ^ 62 % 2 = 1))))))

/-- hprog, hstat and hcsum. When the words from X[a] up to the first end, at most 32, are read, a ready hprog loads them if every word passes
and no loop is malformed, and writes their number to X[d]; else it raises CODESCAN with the first failing reason and the word's index, or
reason 11 with index 32 when no end was found. A ready hstat on a handle no command stands for writes 0. Else rd writes the status word;
wt writes it once the command has ended and waits until then; rel writes it and frees the slot of an ended command, whose writes that have
yet to perform stay in their queues as those of its shuttle; abort stops further chunks, waits while a chunk is in progress, and ends a
running command with err 7, which the word it writes shows with the final number done. hcsum.rd, set and chk wait while folds of earlier
commands are due, and then read the checksum, set it, or read it with bit 63 set when it differs from X[a]. It rests on the choices of the
model in log entries 39, 40, 41, 51 and 54. -/
def Obligations.ProgramsAndStatus : Prop :=
  (∀ (h : Hd) (d a : Fin 64) (s s1 : State) (p : List Nat), Ready h (xs [d, a]) s →
      (∀ k, readProg s (s.sh.xget a).toNat 32 k = k s1 p) →
      let isEnd : Nat → Prop := fun w => w / 2 ^ 27 % 2 ^ 5 = 14
      let good : Nat → Prop := fun j => microReason s1.feature (p.getD j 0) = none ∧ (isEnd (p.getLastD 0) → loopBad p j = false)
      let bad : Nat → Nat → Prop := fun j r => (∀ i, i < j → good i) ∧
        (microReason s1.feature (p.getD j 0) = some r ∨
         microReason s1.feature (p.getD j 0) = none ∧ isEnd (p.getLastD 0) ∧ loopBad p j = true ∧ r = 7)
      (∀ j r, j < p.length → bad j r → exec (.hprog h d a) s = raiseA 0x05 (r + 256 * j) s1) ∧
      ((∀ j, j < p.length → good j) → ¬ isEnd (p.getLastD 0) → exec (.hprog h d a) s = raiseA 0x05 (11 + 256 * 32) s1) ∧
      ((∀ j, j < p.length → good j) → isEnd (p.getLastD 0) → exec (.hprog h d a) s =
        .next (({ s1 with sh := { s1.sh with prog := p, progOk := true } } : State).setX d (BitVec.ofNat 64 p.length)).past)) ∧
  (∀ (h : Hd) (d a : Fin 64) (s : State), Ready h (xs [d, a]) s → Ready h (xs [d]) s → Ready h (xs [a]) s →
      let A := (s.sh.xget a).toNat
      let core := A / 2 ^ 40 % 2 ^ 5 * 16 + A / 2 ^ 32 % 2 ^ 4
      let slot := A % 2 ^ 8
      let word : Cmd → Word := fun c => BitVec.ofNat 64 ((if c.run then 1 else 2) * 2 ^ 62 + c.err % 2 ^ 8 * 2 ^ 48 + c.first % 2 ^ 16 * 2 ^ 32 +
        c.expect % 2 ^ 16 * 2 ^ 16 + c.done % 2 ^ 16)
      let stands : Cmd → Prop := fun c => A / 2 ^ 45 = 0 ∧ A / 2 ^ 36 % 2 ^ 4 = 0 ∧ afind? (s.core core).cmds slot = some c ∧ c.seq = A / 2 ^ 8 % 2 ^ 24
      ((∀ c, ¬ stands c) → ∀ i ∈ [Instr.hstatRd h d a, .hstatWt h d a, .hstatRel h d a, .hstatAbort h d a], exec i s = .next (s.setX d 0).past) ∧
      (∀ c, stands c →
        exec (.hstatRd h d a) s = .next (s.setX d (word c)).past ∧
        (c.run = true →
          exec (.hstatWt h d a) s = .next (s.stays .other) ∧ exec (.hstatRel h d a) s = .next (s.setX d (word c)).past ∧
          (let s1 := s.setCmd core slot { c with stop := true }
           (inProgress s1 core slot c = true → exec (.hstatAbort h d a) s = .next (s1.stays .other)) ∧
           (inProgress s1 core slot c = false → ∃ v, exec (.hstatAbort h d a) s = .next ((endCmdErr s1 core slot 7 0 none).setX d v).past ∧
             ((s.core core).id = core → v = BitVec.ofNat 64 (2 * 2 ^ 62 + 7 * 2 ^ 48 + c.expect % 2 ^ 16 * 2 ^ 16 + c.done % 2 ^ 16))))) ∧
        (c.run = false →
          exec (.hstatWt h d a) s = .next (s.setX d (word c)).past ∧ exec (.hstatAbort h d a) s = .next (s.setX d (word c)).past ∧
          ((s.core core).id = core → ∃ u, exec (.hstatRel h d a) s = .next (u.setX d (word c)).past ∧ Only [.cmds, .lane, .dies, .others] s u ∧
            afind? (u.core core).cmds slot = none ∧ u.co.loads = s.co.loads ∧
            (let what : LaneEnt → Nat × List (Nat × Byte) × List WOp × Option (Nat × Nat × AtomK × Ret) × Bool := fun e => (e.line, e.bytes, e.ops, e.atom, e.poison)
             (∀ p, (u.co.queue p).map what = (s.co.queue p).map what) ∧
             (core = s.co.id → ∀ (p : Port) (j : Nat) (e e' : LaneEnt), (s.co.queue p)[j]? = some e → (u.co.queue p)[j]? = some e' → (∃ n, (slot, n) ∈ e.tags) →
               (c.recId, c.pos) ∈ e'.left ∧ ∀ n, (slot, n) ∉ e'.tags))))) ∧
      (foldsDue s = true → ∀ i ∈ [Instr.hcsumRd h d, .hcsumSet h a, .hcsumChk h d a], exec i s = .next (s.stays .other)) ∧
      (foldsDue s = false →
        exec (.hcsumRd h d) s = .next (s.setX d (s.sh.hcsum.zeroExtend 64)).past ∧
        exec (.hcsumSet h a) s = .next ({ s with sh := { s.sh.wash [13] with hcsum := (s.sh.xget a).extractLsb' 0 32 } } : State).past ∧
        exec (.hcsumChk h d a) s = .next (s.setX d (s.sh.hcsum.zeroExtend 64 +
          if s.sh.hcsum = (s.sh.xget a).extractLsb' 0 32 then 0 else BitVec.ofNat 64 (2 ^ 63))).past))

/-- The micro-ops of a heddle program. On a running transform command that is not stopped, each micro-op acts on its staging buffers and goes
on at the next word, through the end of a loop whose rounds are not over: rd fills a buffer with the next rows, wr hands rows on as one
chunk, waiting while the FIFO or a queue takes no more, cvt, qnt, frm, unf, xps, prm, pak, fold and unfold fill a buffer from another, crc
adds to the folded bytes, hsh compares digests, loop opens a loop and nop does nothing. A buffer above 16,384 bytes, a length that is no
whole number of elements, rows, blocks or slots, and a chunk more than expected end the command with err 10, a malformed block, unit or
digest with err 3 and INTEG, an element that overflows under the trap policy with err 6 and NUMOVF at its place. A wr of kind 0 puts the
bytes of its rows at base + row times stride, line by line, into the write lane; one of kind 1 puts runs of the bound type at scale 1.0
into the FIFO bound to its tag, runs in run form only where the types agree, and with no FIFO bound ends with err 10. end starts the
program again while rows are left and the pass read some, ends the command with err 10 when it has produced fewer chunks than expected,
and else leaves it to its chunks. It rests on the choices of the model in log entries 48 and 49. -/
def Obligations.MicroOps : Prop :=
  ∀ (s : State) (c : Cmd) (d a : Fin 8) (f src : BitVec 5) (rm : Rm) (ov : Ov) (co : BitVec 8) (mx run pad : Bool) (im : BitVec 12) (l n : BitVec 6),
    let slot := s.co.hslot
    let goes : State → Cmd → Out3 := fun t c => .next (t.setCmd s.co.id slot c.advance)
    let fails : State → Nat → Out3 := fun t e => .next (endCmdErr t s.co.id slot e c.chunkNo none)
    let failsBy : State → Nat → Nat → Nat → Out3 := fun t e k d => .next (endCmdErr t s.co.id slot e c.chunkNo (some { flt k d false with index := c.chunkNo }))
    let filled : Cmd → List Byte → Bool → Option Nat → List Nat → Cmd := fun c bs p form sh =>
      { c with bufs := c.bufs.set d.val bs, bpois := c.bpois.set d.val p, runFmt := c.runFmt.set d.val form,
               short := if sh = [] then adel c.short d.val else aput c.short d.val sh }
    let fillsAs : Instr → List Byte → Bool → Option Nat → List Nat → Prop := fun i bs p form sh =>
      (bs.length ≤ 16384 → exec i s = goes s (filled c bs p form sh)) ∧ (16384 < bs.length → exec i s = fails s 10)
    let fills : Instr → List Byte → Bool → Option Nat → Prop := fun i bs p form => fillsAs i bs p form []
    let A := c.bufs.getD a.val []
    let pA := c.bpois.getD a.val false
    let k := im.toNat + 1
    afind? s.co.cmds slot = some c → c.run = true → c.kind = .xfm → c.stop = false →
      exec .hnop s = goes s c ∧
      exec (.hloop l n) s = goes s { c with loops := (c.pc + 1, c.pc + 1 + l.toNat, n.toNat) :: c.loops } ∧
      exec (.hcrc a) s = goes s { c with gather := aput c.gather 0 (aget [] c.gather 0 ++ A) } ∧
      (∀ t bs p, min k (c.rows - c.r) * c.rowBytes ≤ 16384 → readRows s.co.id c (min k (c.rows - c.r)) c.r s = (t, .ok bs p) → bs.length ≤ 16384 →
        exec (.hrd d im) s = goes (countHed t t.co.id bs.length)
          (filled { c with r := c.r + min k (c.rows - c.r) } bs p none [])) ∧
      (16384 < min k (c.rows - c.r) * c.rowBytes → exec (.hrd d im) s = fails s 10) ∧
      (∀ e, elemsOf f.toNat A = some e →
        fills (.hfrm d a f co mx) ((cutL (blkMax f.toNat mx) e.length e).flatMap
          (fun p => mkBlock f.toNat co.toNat (List.replicate ((p.length + 7) / 8) 0x90) p)) pA none ∧
        fills (.hprm d a f im) (packElems f.toNat ((List.range k).flatMap (fun j =>
          (cutL k e.length e).flatMap (fun r => (r.drop j).take 1)))) pA none ∧
        (e.length % k = 0 → fills (.hxps d a f im) (packElems f.toNat ((List.range k).flatMap (fun j =>
          (cutL k e.length e).map (fun r => r.getD j 0)))) pA none) ∧
        (e.length % k ≠ 0 → exec (.hxps d a f im) s = fails s 10)) ∧
      (elemsOf f.toNat A = none → exec (.hfrm d a f co mx) s = fails s 10 ∧ exec (.hprm d a f im) s = fails s 10 ∧ exec (.hxps d a f im) s = fails s 10) ∧
      (∀ e r, elemsOf src.toNat A = some e → convAll (fmtKind f.toNat) rm ov 0 (e.map (fmtKind src.toNat).val) = .ok r →
        fills (.hcvt d a f rm ov src) (packElems f.toNat r) pA none) ∧
      (∀ e r, elemsOf src.toNat A = some e →
        quantRow f.toNat rm ov 0 (cutL (blkMax f.toNat mx) e.length (e.map (fmtKind src.toNat).val)) = .ok r →
        fills (.hqnt d a f rm ov src mx) r pA none) ∧
      (∀ e i x, elemsOf src.toNat A = some e → e[i]? = some x →
        let traps : Nat → Bool := fun x => ((fmtKind f.toNat).convert rm ov false ((fmtKind src.toNat).val x)).trap
        traps x = true → (∀ j y, j < i → e[j]? = some y → traps y = false) → exec (.hcvt d a f rm ov src) s = failsBy s 6 cNUMOVF i) ∧
      (∀ e i, elemsOf src.toNat A = some e →
        quantRow f.toNat rm ov 0 (cutL (blkMax f.toNat mx) e.length (e.map (fmtKind src.toNat).val)) = .error i →
        exec (.hqnt d a f rm ov src mx) s = failsBy s 6 cNUMOVF i) ∧
      (elemsOf src.toNat A = none → exec (.hcvt d a f rm ov src) s = fails s 10 ∧ exec (.hqnt d a f rm ov src mx) s = fails s 10) ∧
      (let blocks := cutN 64 A.length A
       (A.length % 64 ≠ 0 → exec (.hunf d a f rm ov run) s = fails s 10) ∧
       (A.length % 64 = 0 → blocks.any blockBad = false → run = false → ∀ r,
         convAll (fmtKind f.toNat) rm ov 0 (blocks.flatMap (fun b => (List.range (blockN b)).map (blockVal b))) = .ok r →
         fills (.hunf d a f rm ov run) (packElems f.toNat r) pA none) ∧
       (A.length % 64 = 0 → blocks.any blockBad = true → exec (.hunf d a f rm ov run) s = failsBy s 3 cINTEG 2) ∧
       (A.length % 64 = 0 → blocks.any blockBad = false → run = false → ∀ i x,
         let vs := blocks.flatMap (fun b => (List.range (blockN b)).map (blockVal b))
         let traps : FVal → Bool := fun v => ((fmtKind f.toNat).convert rm ov false v).trap
         vs[i]? = some x → traps x = true → (∀ j y, j < i → vs[j]? = some y → traps y = false) →
         exec (.hunf d a f rm ov run) s = failsBy s 6 cNUMOVF i) ∧
       (A.length % 64 = 0 → blocks.any blockBad = false → run = true → ∀ g, blocks ≠ [] → (∀ b ∈ blocks, fmtOfBlk (b.getD 0 0).toNat = g) →
         fillsAs (.hunf d a f rm ov run) (blocks.flatMap (fun b =>
           (blockRuns b (blockN b) false).flatMap (fun r => packElems g r.codes ++ leBytes 2 r.scale))) pA (some g) (shortRuns 0 blocks))) ∧
      (let B := c.bufs.getD d.val []
       let padded := B ++ List.replicate (if pad then (B.length + 63) / 64 * 64 - B.length else 0) 0
       ∃ form sh, fillsAs (.hpak d a pad) (padded ++ A) (c.bpois.getD d.val false || pA) form sh) ∧
      (let padded := A ++ List.replicate ((A.length + 63) / 64 * 64 - A.length) 0
       fills (.hfold d a) (((cutN 4096 padded.length padded).map (padTo 4096)).flatMap (fun u => padTo 4160 (foldEnc u))) pA none) ∧
      (A.length % 4160 ≠ 0 → exec (.hunfold d a) s = fails s 10) ∧
      (∀ us : List (List Byte), A = us.flatten → (∀ u ∈ us, u.length = 4160) → ∀ vs : List (List Byte × Nat), us.map foldDecode = vs.map some →
        fills (.hunfold d a) (vs.map Prod.fst).flatten pA none) ∧
      (∀ us : List (List Byte), A = us.flatten → (∀ u ∈ us, u.length = 4160) → (∃ u ∈ us, foldDecode u = none) →
        exec (.hunfold d a) s = failsBy s 3 cINTEG 5) ∧
      (let base := (c.shape.getD 6 0).toNat
       (base = 0 ∨ A.length % 4096 ≠ 0 → exec (.hhsh a) s = fails s 10) ∧
       (base ≠ 0 → A.length % 4096 = 0 → ∀ t c1, hashRun s.co.id c base c.h s (cutN 4096 A.length A) = .next t c1 →
         exec (.hhsh a) s = goes t c1 ∧ c1 = { c with h := c.h + A.length / 4096 }) ∧
       (base ≠ 0 → A.length % 4096 = 0 → ∀ j s1 s2 c1 dg p, j < A.length / 4096 →
         let unit := (A.drop (4096 * j)).take 4096
         let at' := (base + 32 * (c.h + j)) % 2 ^ 64
         hashRun s.co.id c base c.h s ((cutN 4096 A.length A).take j) = .next s1 c1 → xAhead s1 c true at' 32 = false →
         engRead s.co.id (c.who s.co.id) c.recId c.pos 3 s1 at' 32 = (s2, .ok dg p) → sha3 unit ≠ dg →
         exec (.hhsh a) s = failsBy s2 3 cINTEG 1)) ∧
      (A.length % k ≠ 0 ∨ c.expect ≤ c.chunkNo → exec (.hwr a im) s = fails s 10) ∧
      (A.length % k = 0 → c.chunkNo < c.expect →
        let rows := (List.range k).map (fun j => (A.drop (j * (A.length / k))).take (A.length / k))
        let wr := if c.toFifo then wrFifo s c rows (c.runFmt.getD a.val none) pA (aget [] c.short a.val) else wrMem s slot c rows pA
        (∀ t, wr = .wait t → exec (.hwr a im) s = .next t) ∧
        ∀ t c1, wr = .next t c1 → exec (.hwr a im) s = goes t c1 ∧ c1.w = c.w + k ∧ c1.chunkNo = c.chunkNo + 1 ∧ c1.wrAt = 0 ∧ aget 0 c1.moved c.chunkNo = A.length) ∧
      (c.toFifo = false → A.length % k = 0 → c.chunkNo < c.expect → c.wrAt = 0 → c.shape.getD 3 0 ≠ 4160 →
        let n := A.length / k
        let at' : Nat → Nat := fun j => (c.shape.getD 1 0 + BitVec.ofNat 64 (c.w + j) * c.shape.getD 3 0).toNat
        let pieces : List (Nat × List Byte) := (List.range k).flatMap (fun j => (List.range ((n + 63) / 64)).map (fun l =>
          (at' j + 64 * l, (A.drop (j * n + 64 * l)).take (min 64 (n - 64 * l)))))
        (∀ j, j < k → (at' j % 64 = 0 ∨ at' j % 64 + n ≤ 64) ∧ at' j + n ≤ 2 ^ 64) → pieces.Pairwise (fun p q => p.1 / 64 ≠ q.1 / 64) →
        ∀ key : Nat → Nat, (∀ p ∈ pieces, xAhead s c false p.1 p.2.length = false ∧
          check s (c.who s.co.id) p.1 1 .write true false = (s, .ok { key := key p.1, frm := false, cmp := false })) →
        ∀ co', pieces.foldlM (fun (u : Core) p => u.plain (key p.1) p.2 pA { a := [], x := [], t := [(slot, c.chunkNo)] }) s.co = some co' →
          ∃ t c1, exec (.hwr a im) s = goes t c1 ∧ t.mem = s.mem ∧ ∀ p, t.co.queue p = co'.queue p) ∧
      (c.toFifo = true → A.length % k = 0 → c.chunkNo < c.expect → fifoSaved s c = false → s.co.recId = some c.recId → c.wrTo = none → c.wrAt = 0 →
        let fifo : Bool → Fifo := fun fb => if fb then s.co.fb else s.co.fa
        let bound : Bool → Prop := fun fb => (fifo fb).src = .heddle ∧ (fifo fb).tag = (c.shape.getD 1 0).toNat % 2 ^ 16
        let rows := (List.range k).map (fun j => (A.drop (j * (A.length / k))).take (A.length / k))
        let form := c.runFmt.getD a.val none
        (¬ bound false → ¬ bound true → exec (.hwr a im) s = fails s 10) ∧
        (∀ fb, bound fb → (fb = true → ¬ bound false) →
          (∀ g, form = some g → g ≠ (fifo fb).ty.etype.code → exec (.hwr a im) s = failsBy s 3 cINTEG 3) ∧
          (∀ es : List (List Nat), form = none → rows.map (elemsOf (fifo fb).ty.etype.code) = es.map some →
            let runs : List FRun := es.flatMap (fun e => (List.range ((e.length + 7) / 8)).map (fun j =>
              { codes := (List.range 8).map (fun i => e.getD (8 * j + i) 0), scale := 0x7F00, poison := pA }))
            (fifo fb).runs.length + runs.length ≤ (if fb then 16384 else 8192) →
            ∃ t c1, exec (.hwr a im) s = goes t c1 ∧ (if fb then t.co.fb else t.co.fa) = { fifo fb with runs := (fifo fb).runs ++ runs } ∧ t.mem = s.mem))) ∧
      (c.r < c.rows → c.r ≠ c.r0 → exec .endPass s = .next (s.setCmd s.co.id slot { c with pc := 0, loops := [], r0 := c.r })) ∧
      (¬ (c.r < c.rows ∧ c.r ≠ c.r0) →
        (c.chunkNo < c.expect → exec .endPass s = fails s 10) ∧
        (c.expect ≤ c.chunkNo → c.done ≠ c.expect → exec .endPass s = .next (s.setCmd s.co.id slot { c with pc := c.prog.length, loops := [] })) ∧
        (c.expect ≤ c.chunkNo → c.done = c.expect → exec .endPass s =
          .next (endCmdOk (s.setCmd s.co.id slot { c with pc := c.prog.length, loops := [] }) s.co.id slot))) ∧
      (c.loops = [] → c.advance = { c with pc := c.pc + 1 }) ∧
      (∀ st en left r, c.loops = (st, en, left) :: r →
        (c.pc + 1 ≠ en → c.advance = { c with pc := c.pc + 1 }) ∧
        (c.pc + 1 = en → left ≠ 0 → c.advance = { c with pc := st, loops := (st, en, left - 1) :: r }) ∧
        (c.pc + 1 = en → left = 0 → c.advance = { c with pc := c.pc + 1, loops := r }))

/-- A finished chunk sets its mask bit, counts on its tile entry and barrier, and the last one ends the command. CHUNK_FINISH on a chunk of a
running command that has moved whole, or that a program has written, and has no entry outstanding counts it, unless its barrier lies in a
die under repair: for a shuttle that stands in focus its mask bit becomes one, its tile entry counts a chunk and the local barrier its
bytes, which a folded get has counted unit by unit, whether it is the last or not; and a command whose last chunk this is, and whose
program has come to its end, leaves its slot free; one that folds a CRC, with no earlier command of the shuttle still to fold, folds its
bytes onto hcsum. PEER_TIMEOUT ends a running command with chunks its peer has not answered, and nothing heard of it for 10 ms, with err
9. Otherwise either leaves the machine as it is. It rests on the choices of the model in log entries 41, 42, 53 and 88. -/
def Obligations.ChunksFinish : Prop :=
  ∀ (slot chunk : Nat) (s : State) (c : Cmd), afind? s.co.cmds slot = some c →
    let bytes : Cmd → Word := fun c => BitVec.ofNat 64 (if c.kind = .xfm then aget 0 c.moved chunk else if c.kind = .get ∧ c.fold = true then 0
      else min ((chunk + 1) * c.chunk) c.len - chunk * c.chunk)
    (c.run = false → exec (.chunkFinish slot chunk) s = .next s ∧ exec (.peerTimeout slot) s = .next s) ∧
    (chunkReady s s.co.id slot chunk c = false → exec (.chunkFinish slot chunk) s = .next s) ∧
    (c.barHeld s = true → exec (.chunkFinish slot chunk) s = .next s) ∧
    let last := c.done + 1 = c.expect ∧ (c.kind = .xfm → c.prog.length ≤ c.pc)
    (c.waits = [] ∨ s.gn.t64.toNat < c.heardAt s + 40000000 → exec (.peerTimeout slot) s = .next s) ∧
    (c.run = true → c.waits ≠ [] → c.heardAt s + 40000000 ≤ s.gn.t64.toNat →
      ∃ first, exec (.peerTimeout slot) s = .next (endCmdErr s s.co.id slot 9 first none) ∧ first ∈ c.waits ∧ ∀ k ∈ c.waits, first ≤ k) ∧
    (c.run = true → chunkReady s s.co.id slot chunk c = true → s.live? c.recId c.pos = some { core := s.co.id, pos := s.sh.pos } →
      c.barHeld s = false → ¬ last →
      ∃ t, exec (.chunkFinish slot chunk) s = .next t ∧ Only [.p, .ents, .cmds, .dies, .mem, .others] s t ∧
        ((∀ k, c.tile = some k → (s.co.tent k).state = 1 → (s.co.tent k).done + 1 ≠ (s.co.tent k).expect) → Only [.p, .ents, .cmds, .dies] s t) ∧
        (∃ q, afind? t.co.cmds slot = some q ∧ q.run = true ∧ q.done = c.done + 1 ∧ q.fin = chunk :: c.fin) ∧
        (c.pm ≠ 63 → c.pm + chunk / 512 ≤ 47 → t.sh.pval c.pm chunk = true) ∧
        (∀ k, c.tile = some k → t.co.tent k = (s.co.tent k).finish) ∧
        (∀ v, c.bar = some v → c.kind ≠ .put → v.toNat / 2 ^ 20 % 2 ^ 12 = (s.bar v).gen.toNat →
          t.bar v = (s.bar v).deliver (bytes c))) ∧
    (c.run = true → chunkReady s s.co.id slot chunk c = true → s.live? c.recId c.pos = some { core := s.co.id, pos := s.sh.pos } →
      c.barHeld s = false → last → s.co.cmds.Pairwise (fun x y => x.1 < y.1) →
      ∃ t, exec (.chunkFinish slot chunk) s = .next t ∧ afind? t.co.cmds slot = none ∧ t.sh.events.getLsbD 1 = true ∧
        Only [.p, .ents, .cmds, .dies, .mem, .hcsum, .events, .others] s t ∧
        (c.pm ≠ 63 → c.pm + chunk / 512 ≤ 47 → t.sh.pval c.pm chunk = true) ∧ (∀ k, c.tile = some k → t.co.tent k = (s.co.tent k).finish) ∧
        (∀ v, c.bar = some v → c.kind ≠ .put → v.toNat / 2 ^ 20 % 2 ^ 12 = (s.bar v).gen.toNat → t.bar v = (s.bar v).deliver (bytes c)) ∧
        (let older : Nat × Cmd → Prop := fun e => e.2.run = true ∧ e.2.crc = true ∧ e.2.recId = c.recId ∧ e.2.pos = c.pos ∧ e.2.order ≤ c.order
         ∀ q, s.rec? c.recId = some q → q.folds = [] → c.crc = true → (∀ e ∈ s.co.cmds, e.1 ≠ slot → ¬ older e) →
           (∀ b ∈ s.cores, ∀ e ∈ b.2.cmds, ¬ older e) → t.sh.hcsum = crcFold s.sh.hcsum (c.gather.map Prod.snd).flatten))

/-- The predicate instructions write active elements from elements. A ready plog, pset.all, pset.lt, pset.mod or pset.bits gives every active
element the bit of its rule, the truth table on the operands' elements, the value, whether its number lies below X[a] + immediate, is a
multiple of the immediate, or the bit of X[a] with its number, and leaves every other element of every predicate register; pcnt writes the
number of active elements whose operand is one, pfirst the lowest of them or all ones. vstart becomes 0 and nothing else changes. The sum
that pset.lt compares with is exact, as the model reads R95 (log entry 20). -/
def Obligations.Predicates : Prop :=
  ∀ (h : Hd) (f : BitVec 4) (v : Bool) (d a b : Fin 64) (imm : BitVec 32) (s : State),
    let act := s.sh.active h
    let A : Nat → Bool := s.sh.pval a.val
    let B : Nat → Bool := s.sh.pval b.val
    let ones := (s.sh.actives h).filter A
    let fills : Instr → (Nat → Bool) → Prop := fun i g => d.val < 48 → XReady i s → Does i s [.p, .vstart] (fun t => t.sh.vstart = 0 ∧
      (∀ j, d.val + j / 512 ≤ 47 → t.sh.pval d.val j = if act j then g j else s.sh.pval d.val j) ∧
      (∀ r, r < d.val → t.sh.preg r = s.sh.preg r))
    fills (.plog h f d a b) (fun j => f.getLsbD (2 * (if A j then 1 else 0) + (if B j then 1 else 0))) ∧
    fills (.psetAll h v d) (fun _ => v) ∧
    fills (.psetLt h d a imm) (fun j => decide ((j : Int) < (s.sh.srcA a).toInt + imm.toInt)) ∧
    fills (.psetMod h d imm) (fun j => decide (j % imm.toNat = 0)) ∧
    fills (.psetBits h d a) (fun j => (s.sh.srcA a).getLsbD j) ∧
    (XReady (.pcnt h d a) s → Does (.pcnt h d a) s [.x, .vstart] (fun t => t.sh.vstart = 0 ∧
      t.sh.x = (s.sh.xset d (BitVec.ofNat 64 ones.length)).x)) ∧
    (XReady (.pfirst h d a) s → Does (.pfirst h d a) s [.x, .vstart] (fun t => t.sh.vstart = 0 ∧
      (ones = [] → t.sh.x = (s.sh.xset d (BitVec.allOnes 64)).x) ∧
      (∀ j, j ∈ ones → (∀ k, k ∈ ones → j ≤ k) → t.sh.x = (s.sh.xset d (BitVec.ofNat 64 j)).x)))

/-- vsetl sets the shape, xnop delays, and a failed guard only issues. A ready vsetl grants the least of the request, or the greatest length
under .max, that length, and the ceiling, writes it to X[d] and sets vtype, vlen and vstart; it waits while an X-class access of the
shuttle has yet to read or perform, and with a hold limit exceeded twice raises BUDGET 2. One dispatched while a pre-emption is pending is
its yield point: the A-pipe waits behind it until it has issued, and at its issue, after its effects, the save of the shuttle is due. A
ready xnop makes the next X-class instruction issue no earlier than n + 1 cycles after it. An X-class instruction that is not element-wise
and whose guard fails issues with no effect. -/
def Obligations.Shapes : Prop :=
  ∀ (h : Hd) (g : BitVec 2) (mx : Bool) (e : EType) (live : BitVec 8) (d a : Fin 64) (n : BitVec 16) (s : State),
    let i : Instr := .vsetl h g mx e live d a
    let top := min (2 ^ g.toNat * (s.sh.lanes * 512 / e.bits)) 4096
    let grant := min (min (if mx then top else (s.sh.srcA a).toNat) top) s.sh.ceil
    (XReady i s → s.co.admittedX s.sh.pos = true → Awaits i s .other) ∧
    (XReady i s → s.co.admittedX s.sh.pos = false → s.sh.budgetDue = true → ∃ u, exec i s = faultX (flt 0x0E 2 true) u ∧ u.sh.xq = s.sh.xq ∧ Only [] s u) ∧
    (XReady i s → s.co.admittedX s.sh.pos = false → s.sh.budgetDue = false → Does i s [.x, .vset, .vstart] (fun t =>
      t.sh.vlen.toNat = grant ∧ t.sh.vtype.toNat = live.toNat * 2 ^ 16 + g.toNat * 2 ^ 12 + e.code ∧ t.sh.vstart = 0 ∧
      t.sh.x = (s.sh.xset d (BitVec.ofNat 64 grant)).x ∧
      (∀ q r, s.sh.xq = q :: r → t.sh.saveDue = if s.sh.pre ≠ none ∧ q.no ∈ s.sh.preNos then some 0 else s.sh.saveDue))) ∧
    (s.sh.pre ≠ none → s.sh.xq.length < 64 → (mx = true ∨ s.co.xReturning s.sh.pos a.val = false) → ∃ t q, dispatch i s = .next t ∧
      t.sh.xq = s.sh.xq ++ [q] ∧ q.no ∈ t.sh.preNos ∧ (t.sh.endDue = none → aNext false t = .next (t.stays .other))) ∧
    (XReady (.xnop h n) s → Does (.xnop h n) s [] (fun t => t.sh.issueFrom = issueCycle (.xnop h n) s + n.toNat + 1 ∧
      ∀ k, t.sh.issueFrom ≤ issueCycle k t)) ∧
    (∀ k : Instr, k.kind = .xClass → elementWise k = false → s.sh.guard k.hd = false →
      (let rw := xRegs s.sh (s.sh.vlmax s.sh.et s.sh.grp) k
       (rw.r ++ s.sh.boundRegs).any (s.sh.shadowed (issueCycle k s) (mmaTile k)) = false ∧ rw.w.any (s.sh.shadowed (issueCycle k s) (mmaTile k)) = false ∧
       (rw.r ++ rw.w).any (fun r => (busyV s).contains r) = false) → Does k s [] (fun _ => True))

/-- The integer element instructions, and the bitwise ones on every type. With an integer type in vtype, aligned groups and no poisoned
register, each ready instruction gives every active element of its destination group the value of R155 to R157 on the elements of its
sources, wrapped to the width or, under .s, saturated with sat raised where an element saturates; vdot2 on elements of 8 bits raises ALIGN
4; vstart becomes 0, every other element keeps its code and nothing else changes. On every element type, floating ones and FP4 too, a
ready vand, vor or vxor with aligned groups and no poisoned register combines the codes of the active elements bit by bit, raises no flag,
sets vstart to 0 and changes nothing else. -/
def Obligations.VectorIntegers : Prop :=
  (∀ (h : Hd) (sc vx : Bool) (rm : Rm) (ir : IRm) (k : Src2) (d a b : Fin 64) (imm : BitVec 8) (s : State),
      let e := s.sh.et
      let w := e.bits
      s.shaped → e.isInt = true → aligned d s.sh.grp = true → aligned a s.sh.grp = true → (vx = false ∨ k = .vv → aligned b s.sh.grp = true) →
      s.sh.vpoison = [] →
      let val : Nat → Int := fun c => if e.signed then toSigned c w else ((c % 2 ^ w : Nat) : Int)
      let top : Int := if e.signed then 2 ^ (w - 1) - 1 else 2 ^ w - 1
      let low : Int := if e.signed then -(2 ^ (w - 1)) else 0
      let A : Nat → Nat := fun j => s.sh.elem a.val j e
      let B : Nat → Nat := fun j => if vx then (s.sh.srcB b).toNat % 2 ^ w else s.sh.elem b.val j e
      let N : Nat → Nat := fun j => match k with
        | .vi => imm.toNat
        | .vx => (s.sh.srcB b).toNat % 2 ^ w
        | .vv => s.sh.elem b.val j e
      let wrap : Int → Nat := fun v => (v % (2 ^ w : Nat)).toNat
      let gives : Instr → (Nat → Nat) → Prop := fun i f => XReady i s → Does i s [.v, .vstart] (fun t =>
        t.sh.vstart = 0 ∧ Puts s t d e s.sh.grp (onActive s h f))
      let sums : Instr → (Nat → Int) → Prop := fun i f => XReady i s → Does i s [.v, .vstart, .flags] (fun t =>
        t.sh.vstart = 0 ∧ Puts s t d e s.sh.grp (onActive s h (fun j => wrap (if sc then max low (min top (f j)) else f j))) ∧
        t.sh.landAll.fflags = s.sh.landAll.fflags ∧
        (t.sh.landAll.sat = true ↔ s.sh.landAll.sat = true ∨ sc = true ∧ ∃ j, s.sh.active h j = true ∧ ¬ (low ≤ f j ∧ f j ≤ top)))
      sums (.vadd h sc vx rm d a b) (fun j => val (A j) + val (B j)) ∧
      sums (.vsub h sc vx rm d a b) (fun j => val (A j) - val (B j)) ∧
      sums (.vmul h sc vx rm d a b) (fun j => val (A j) * val (B j)) ∧
      sums (.vabs h sc d a) (fun j => if val (A j) < 0 then - val (A j) else val (A j)) ∧
      sums (.vneg h sc d a) (fun j => - val (A j)) ∧
      (w = 8 → XReady (.vdot2 h sc vx d a b) s → Faults (.vdot2 h sc vx d a b) s (flt 0x04 4 true)) ∧
      (w ≠ 8 → sums (.vdot2 h sc vx d a b) (fun j =>
        let half : Nat → Int := fun c => if e.signed then toSigned c (w / 2) else ((c % 2 ^ (w / 2) : Nat) : Int)
        val (s.sh.elem d.val j e) + half (A j) * half (B j) + half (A j / 2 ^ (w / 2)) * half (B j / 2 ^ (w / 2)))) ∧
      gives (.vmin h vx d a b) (fun j => if val (A j) < val (B j) then A j else B j) ∧
      gives (.vmax h vx d a b) (fun j => if val (A j) < val (B j) then B j else A j) ∧
      gives (.vmulh h vx d a b) (fun j => wrap (val (A j) * val (B j) / (2 ^ w : Nat))) ∧
      gives (.vsll h k d a b imm) (fun j => if w ≤ N j then 0 else A j * 2 ^ N j % 2 ^ w) ∧
      gives (.vsrl h k d a b imm) (fun j => if w ≤ N j then 0 else A j / 2 ^ N j) ∧
      gives (.vsra h k false ir d a b imm) (fun j =>
        if e.signed then wrap (val (A j) / (2 ^ (min (N j) (w - 1)) : Nat)) else if w ≤ N j then 0 else A j / 2 ^ N j) ∧
      gives (.vsra h k true ir d a b imm) (fun j => wrap (shiftRound (val (A j)) (min (N j) 63) ir))) ∧
  (∀ (h : Hd) (vx : Bool) (d a b : Fin 64) (s : State),
      let e := s.sh.et
      s.shaped → aligned d s.sh.grp = true → aligned a s.sh.grp = true → (vx = false → aligned b s.sh.grp = true) → s.sh.vpoison = [] →
      let A : Nat → Nat := fun j => s.sh.elem a.val j e
      let B : Nat → Nat := fun j => if vx then (s.sh.srcB b).toNat % 2 ^ e.bits else s.sh.elem b.val j e
      let gives : Instr → (Nat → Nat) → Prop := fun i f => XReady i s → Does i s [.v, .vstart] (fun t =>
        t.sh.vstart = 0 ∧ Puts s t d e s.sh.grp (onActive s h f))
      gives (.vand h vx d a b) (fun j => A j &&& B j) ∧ gives (.vor h vx d a b) (fun j => A j ||| B j) ∧ gives (.vxor h vx d a b) (fun j => A j ^^^ B j))

/-- The floating element instructions, the types they refuse and the values of vsfu. With FP32, BF16 or FP16 in vtype, aligned groups and no
poisoned register, each ready instruction gives every active element the exact result on the elements of its sources, rounded once in its
mode, or the smaller or larger operand, magnitude or negation, and raises the flags of the active elements together; .s is refused with
ALIGN 4. vscl scales by the BF16 element of its block. The fused instructions, vsfu, and vscl on every type but FP32, raise ALIGN 4 on an
integer type; on FP8 and FP4 every floating form of the arithmetic instructions does, and the shifts do on every type that is no integer.
The special cases of R169 give its results and flags. The reciprocal, the root and the reciprocal of the root of a positive finite number
are the exact value rounded once: the root from its integer part r, exact where the square is, and else from the number half a place above
it, which no rounding tells from the root. An integral power of two, the logarithm of one, and tanh and the sigmoid at zero are rounded
from their exact values. The other values of the transcendental functions are the model's (log entry 21). It rests on the choices of the
model in log entries 21 and 113. -/
def Obligations.VectorFloats : Prop :=
  (∀ (h : Hd) (vx : Bool) (rm : Rm) (k : SfuK) (n : BitVec 8) (d a b c : Fin 64) (s : State),
      let e := s.sh.et
      let F := EType.fmt e
      s.shaped → e = .f32 ∨ e = .bf16 ∨ e = .f16 → (∀ r ∈ [d, a, c], aligned r s.sh.grp = true) → (vx = false → aligned b s.sh.grp = true) →
      s.sh.vpoison = [] →
      let A : Nat → Nat := fun j => s.sh.elem a.val j e
      let B : Nat → Nat := fun j => if vx then (s.sh.srcB b).toNat % 2 ^ e.bits else s.sh.elem b.val j e
      let C : Nat → Nat := fun j => s.sh.elem c.val j e
      let rounds : FVal × Nat → Nat × Nat := fun x => ((F.arith rm x.1).1, x.2 ||| (F.arith rm x.1).2)
      let gives : Instr → (Nat → Nat × Nat) → Prop := fun i f => XReady i s → Does i s [.v, .vstart, .flags] (fun t =>
        t.sh.vstart = 0 ∧ Puts s t d e s.sh.grp (onActive s h (fun j => (f j).1 % 2 ^ e.bits)) ∧ Raises s t (flagsOf s h (fun j => (f j).2)))
      let refuses : Instr → Prop := fun i => XReady i s → Faults i s (flt 0x04 4 true)
      let prod : Nat → FVal × Nat := fun j => (F.val (A j)).mul (F.val (B j))
      gives (.vadd h false vx rm d a b) (fun j => rounds (FVal.add rm (F.val (A j)) (F.val (B j)))) ∧
      gives (.vsub h false vx rm d a b) (fun j => rounds (FVal.add rm (F.val (A j)) (F.val (B j)).negate)) ∧
      gives (.vmul h false vx rm d a b) (fun j => rounds (prod j)) ∧
      gives (.vfma h vx rm d a b c) (fun j => let r := rounds (FVal.add rm (prod j).1 (F.val (C j))); (r.1, (prod j).2 ||| r.2)) ∧
      gives (.vfms h vx rm d a b c) (fun j => let r := rounds (FVal.add rm (prod j).1 (F.val (C j)).negate); (r.1, (prod j).2 ||| r.2)) ∧
      gives (.vmin h vx d a b) (fun j => (fMin F (A j) (B j), 0)) ∧ gives (.vmax h vx d a b) (fun j => (fMax F (A j) (B j), 0)) ∧
      gives (.vabs h false d a) (fun j => (if F.isNan (A j) then F.nanCode else A j % 2 ^ (e.bits - 1), 0)) ∧
      gives (.vneg h false d a) (fun j => (if F.isNan (A j) then F.nanCode else A j ^^^ 2 ^ (e.bits - 1), 0)) ∧
      gives (.vsfu h k rm d a) (fun j => sfu k e rm (A j)) ∧
      (e = .f32 → aligned b (s.sh.grp2 .bf16) = true → gives (.vscl h rm n d a b) (fun j =>
        rounds ((F.val (A j)).mul ((EType.fmt .bf16).val (s.sh.elem b.val (j / 2 ^ n.toNat) .bf16))))) ∧
      refuses (.vadd h true vx rm d a b) ∧ refuses (.vsub h true vx rm d a b) ∧ refuses (.vmul h true vx rm d a b) ∧
      refuses (.vabs h true d a) ∧ refuses (.vneg h true d a) ∧ refuses (.vmulh h vx d a b) ∧ refuses (.vdot2 h false vx d a b)) ∧
  (∀ (h : Hd) (sc vx r : Bool) (rm : Rm) (ir : IRm) (k : SfuK) (sk : Src2) (n imm : BitVec 8) (d a b c : Fin 64) (s : State),
      let e := s.sh.et
      let refuses : Instr → Prop := fun i => XReady i s → Faults i s (flt 0x04 4 true)
      (e ≠ .f32 → e ≠ .bf16 → e ≠ .f16 → refuses (.vfma h vx rm d a b c) ∧ refuses (.vfms h vx rm d a b c) ∧ refuses (.vsfu h k rm d a)) ∧
      (e ≠ .f32 → refuses (.vscl h rm n d a b)) ∧
      (e = .e4 ∨ e = .e5 ∨ e = .f4 → refuses (.vadd h sc vx rm d a b) ∧ refuses (.vsub h sc vx rm d a b) ∧ refuses (.vmul h sc vx rm d a b) ∧
        refuses (.vmin h vx d a b) ∧ refuses (.vmax h vx d a b) ∧ refuses (.vabs h sc d a) ∧ refuses (.vneg h sc d a) ∧
        refuses (.vmulh h vx d a b) ∧ refuses (.vdot2 h sc vx d a b) ∧ refuses (.vmacw h sc rm d a b)) ∧
      (e.isInt = false → refuses (.vsll h sk d a b imm) ∧ refuses (.vsrl h sk d a b imm) ∧ refuses (.vsra h sk r ir d a b imm))) ∧
  (∀ (e : EType) (rm : Rm) (code : Nat), e = .f32 ∨ e = .bf16 ∨ e = .f16 →
      let F := EType.fmt e
      let x := F.val code
      let gives : SfuK → Nat → Nat → Prop := fun k c fl => sfu k e rm code = (c, fl)
      let sign : Bool → Nat := fun n => if n then 2 ^ (e.bits - 1) else 0
      let rounded : SfuK → Bool → Nat → Int → Prop := fun k n m q => sfu k e rm code = F.arith rm (.fin n m q)
      (x = .nan → ∀ k, gives k F.nanCode 0) ∧
      (∀ n, x = .inf n → gives .rcp (sign n) 0 ∧ gives .rsqrt (if n then F.nanCode else 0) (if n then 16 else 0) ∧
        gives .sqrt (if n then F.nanCode else F.infCode) (if n then 16 else 0) ∧ gives .exp2 (if n then 0 else F.infCode) 0 ∧
        gives .log2 (if n then F.nanCode else F.infCode) (if n then 16 else 0) ∧ rounded .tanh n 1 0 ∧ (n = true → gives .sigm 0 0) ∧
        (n = false → rounded .sigm false 1 0)) ∧
      (∀ n q, x = .fin n 0 q → gives .rcp (sign n + F.infCode) 8 ∧ gives .rsqrt (sign n + F.infCode) 8 ∧ gives .sqrt (sign n) 0 ∧
        rounded .exp2 false 1 0 ∧ gives .log2 (sign true + F.infCode) 8 ∧ gives .tanh (sign n) 0 ∧ rounded .sigm false 1 (-1)) ∧
      (∀ m q, x = .fin true m q → m ≠ 0 → gives .rsqrt F.nanCode 16 ∧ gives .sqrt F.nanCode 16 ∧ gives .log2 F.nanCode 16) ∧
      (∀ n m q, x = .fin n m q → m ≠ 0 → sfu .rcp e rm code = F.arithFrac rm n (if 0 ≤ q then 1 else 2 ^ (-q).toNat) (if 0 ≤ q then m * 2 ^ q.toNat else m)) ∧
      (∀ m q (M r : Nat) (k : Int), x = .fin false m q → m ≠ 0 → (q = 2 * k ∧ M = m) ∨ (q = 2 * k + 1 ∧ M = 2 * m) →
        (r * r ≤ M * 2 ^ 256 → M * 2 ^ 256 < (r + 1) * (r + 1) →
          (r * r = M * 2 ^ 256 → rounded .sqrt false r (k - 128)) ∧ (r * r ≠ M * 2 ^ 256 → rounded .sqrt false (2 * r + 1) (k - 129))) ∧
        (r * r * M ≤ 2 ^ 512 → 2 ^ 512 < (r + 1) * (r + 1) * M →
          (r * r * M = 2 ^ 512 → rounded .rsqrt false r (-256 - k)) ∧ (r * r * M ≠ 2 ^ 512 → rounded .rsqrt false (2 * r + 1) (-257 - k)))) ∧
      (∀ n m q (K : Nat), x = .fin n m q → K < 4096 → (if 0 ≤ q then m * 2 ^ q.toNat = K else m = K * 2 ^ (-q).toNat) →
        rounded .exp2 false 1 (if n then -(K : Int) else K)) ∧
      (∀ (l : Nat) (q : Int), x = .fin false (2 ^ l) q → rounded .log2 (decide (q + l < 0)) (q + l).natAbs 0))

/-- vmacw, vnarrow, vwiden and vcvt change width or format. With groups aligned for their types and no poisoned register: vmacw adds the exact
product of elements to the double-width element, wrapped, or saturated with sat raised, on integers, and rounded once with its flags on
floats; vnarrow shifts an element of twice the width right with its rounding and wraps it, or saturates it with sat raised; vwiden extends
an integer or gives the exact float; vcvt converts under its rounding and overflow policy, and under the trap policy stops with NUMOVF at
the first active element that overflows, vstart there and only the elements below it written, where source and destination do not share
registers at other widths. It rests on the choices of the model in log entries 86 and 91. -/
def Obligations.VectorWidths : Prop :=
  ∀ (h : Hd) (sc : Bool) (t2 : EType) (rm : Rm) (ir : IRm) (ov : Ov) (n : BitVec 8) (d a b : Fin 64) (s : State),
    let e := s.sh.et
    let w := doubleType e
    s.shaped → aligned d s.sh.grp = true → s.sh.vpoison = [] →
    let ab := aligned a s.sh.grp = true ∧ aligned b s.sh.grp = true
    let A : Nat → Nat := fun j => s.sh.elem a.val j e
    let A2 : Nat → Nat := fun j => s.sh.elem a.val j t2
    let cv : Nat → Conv := fun j => (EType.kind e).convert rm ov false ((EType.kind t2).val (A2 j))
    let share := d.val < a.val + s.sh.grp2 t2 ∧ a.val < d.val + s.sh.grp
    let i : Instr := .vcvt h t2 rm ov d a
    let sums : Instr → EType → Nat → (Nat → Int) → Prop := fun i ty g f => XReady i s → Does i s [.v, .vstart, .flags] (fun t =>
      let top : Int := if ty.signed then 2 ^ (ty.bits - 1) - 1 else 2 ^ ty.bits - 1
      let low : Int := if ty.signed then -(2 ^ (ty.bits - 1)) else 0
      t.sh.vstart = 0 ∧ Puts s t d ty g (onActive s h (fun j => ((if sc then max low (min top (f j)) else f j) % (2 ^ ty.bits : Nat)).toNat)) ∧
      t.sh.landAll.fflags = s.sh.landAll.fflags ∧
      (t.sh.landAll.sat = true ↔ s.sh.landAll.sat = true ∨ sc = true ∧ ∃ j, s.sh.active h j = true ∧ ¬ (low ≤ f j ∧ f j ≤ top)))
    (e.isInt = true → e.bits ≠ 64 → s.sh.grp ≤ 4 → aligned d (2 * s.sh.grp) = true → ab →
      sums (.vmacw h sc rm d a b) w (2 * s.sh.grp) (fun j => EType.ival w (s.sh.elem d.val j w) + EType.ival e (A j) * EType.ival e (s.sh.elem b.val j e))) ∧
    (e = .bf16 ∨ e = .f16 → s.sh.grp ≤ 4 → aligned d (2 * s.sh.grp) = true → ab →
      (XReady (.vmacw h true rm d a b) s → Faults (.vmacw h true rm d a b) s (flt 0x04 4 true)) ∧
      (XReady (.vmacw h false rm d a b) s → Does (.vmacw h false rm d a b) s [.v, .vstart, .flags] (fun t => t.sh.vstart = 0 ∧
        (let F := EType.fmt .f32
         let prod : Nat → FVal × Nat := fun j => ((EType.fmt e).val (A j)).mul ((EType.fmt e).val (s.sh.elem b.val j e))
         let sum : Nat → FVal × Nat := fun j => FVal.add rm (prod j).1 (F.val (s.sh.elem d.val j .f32))
         Puts s t d .f32 (2 * s.sh.grp) (onActive s h (fun j => (F.arith rm (sum j).1).1 % 2 ^ 32)) ∧
           Raises s t (flagsOf s h (fun j => (prod j).2 ||| (sum j).2 ||| (F.arith rm (sum j).1).2)))))) ∧
    (e.isInt = true → t2.isInt = true → t2.bits = 2 * e.bits → n.toNat < 2 * e.bits → s.sh.grp ≤ 4 → aligned a (2 * s.sh.grp) = true →
      sums (.vnarrow h sc t2 ir n d a) e s.sh.grp (fun j => shiftRound (EType.ival t2 (A2 j)) n.toNat ir)) ∧
    (widenOk e t2 = true → aligned a (s.sh.grp2 t2) = true → XReady (.vwiden h t2 d a) s →
      Does (.vwiden h t2 d a) s [.v, .vstart] (fun t => t.sh.vstart = 0 ∧ Puts s t d e s.sh.grp (onActive s h (fun j =>
        if t2.isInt then (EType.ival t2 (A2 j) % (2 ^ e.bits : Nat)).toNat
        else ((EType.fmt e).arith .rne ((EType.fmt t2).val (A2 j))).1 % 2 ^ e.bits)))) ∧
    (s.sh.grp2 t2 ≤ 8 → s.sh.grp * t2.bits ≤ 8 * e.bits → aligned a (s.sh.grp2 t2) = true → XReady i s →
      ((∀ j, s.sh.active h j = true → (cv j).trap = false) → Does i s [.v, .vstart, .flags] (fun t => t.sh.vstart = 0 ∧
        Puts s t d e s.sh.grp (onActive s h (fun j => (cv j).code % 2 ^ e.bits)) ∧ Raises s t (flagsOf s h (fun j => (cv j).flags)))) ∧
      (∀ k, s.sh.active h k = true → (cv k).trap = true → (∀ j, j < k → s.sh.active h j = true → (cv j).trap = false) →
        let keeps := ¬ (share ∧ t2.bits ≠ e.bits)
        ∃ u, exec i s = faultX { flt 0x11 k true with index := k } u ∧ u.sh.xq = s.sh.xq ∧ Only [.v, .vstart, .flags] s u ∧
          (keeps → u.sh.vstart = BitVec.ofNat 13 k ∧
            Puts s u d e s.sh.grp (fun j => if s.sh.active h j ∧ j < k then some ((cv j).code % 2 ^ e.bits) else none)) ∧
          (¬ keeps → u.sh.v = s.sh.v ∧ u.sh.vstart = s.sh.vstart)))

/-- Compare, select, slide, permute, broadcast, move, index, compress and expand. With aligned groups and no poisoned register, each ready
instruction gives active elements what R162 to R168 say: vcmp the answers of its condition as predicate elements; vsel one source or the
other by a predicate; vslide and vperm the element at a distance or at an index, fill beyond vlen; vbcast and vbcast.el one code; viota
the number of active ones below, viota.idx the index; vmovx writes one code to X[d] and vmovx.v one active element from X[a]; vcompress
packs the selected elements from 0 up and vexpand spreads them, both refusing a vstart that is not 0 with ALIGN 6. It rests on the choices
of the model in log entries 86 and 116. -/
def Obligations.VectorMoves : Prop :=
  ∀ (h : Hd) (k : VCond) (vx dn vi : Bool) (t2 : EType) (d a b c : Fin 64) (imm : BitVec 8) (s : State),
    let e := s.sh.et
    s.shaped → s.sh.vpoison = [] →
    let al : List (Fin 64) → Prop := fun l => ∀ r ∈ l, aligned r s.sh.grp = true
    let n := s.sh.vlen.toNat
    let act := s.sh.active h
    let fill := s.sh.fill.toNat % 2 ^ e.bits
    let A : Nat → Nat := fun j => if n ≤ j then fill else s.sh.elem a.val j e
    let B : Nat → Nat := fun j => s.sh.elem b.val j e
    let far := if vi then imm.toNat else (s.sh.srcB b).toNat
    let at' := (s.sh.srcB b).toNat
    let gives : Instr → (Nat → Nat) → Prop := fun i f => XReady i s → Does i s [.v, .vstart] (fun t =>
      t.sh.vstart = 0 ∧ Puts s t d e s.sh.grp (onActive s h f))
    let picked := (s.sh.actives h).filter (s.sh.pval c.val)
    (e ≠ .f4 → d.val < 48 → al (if vx then [a] else [a, b]) → XReady (.vcmp h k vx d a b) s → Does (.vcmp h k vx d a b) s [.p, .vstart, .flags] (fun t => t.sh.vstart = 0 ∧
      let r : Nat → Bool × Nat := fun j => cond k e (A j) (if vx then at' % 2 ^ e.bits else B j)
      (∀ j, d.val + j / 512 ≤ 47 → t.sh.pval d.val j = if act j then (r j).1 else s.sh.pval d.val j) ∧ Raises s t (flagsOf s h (fun j => (r j).2)))) ∧
    (al [d, a, b] → gives (.vsel h d a b c) (fun j => if s.sh.pval c.val j then A j else B j)) ∧
    (al [d, a] → gives (.vslide h dn vi d a b imm) (fun j => if dn then A (j + far) else if far ≤ j then A (j - far) else fill)) ∧
    (al [d, a] → aligned b (s.sh.grp2 t2) = true → s.sh.grp * t2.bits ≤ 8 * e.bits → gives (.vperm h t2 d a b) (fun j => A (s.sh.elem b.val j t2))) ∧
    (al [d] → gives (.vbcast h d a) (fun _ => (s.sh.srcA a).toNat % 2 ^ e.bits)) ∧
    (al [d, a] → gives (.vbcastEl h d a b) (fun _ => A at')) ∧
    (e.isInt = true → al [d] → gives (.viota h d a) (fun j => ((s.sh.actives h).filter (fun m => m < j ∧ s.sh.pval a.val m = true)).length % 2 ^ e.bits) ∧
      gives (.viotaIdx h d) (fun j => j % 2 ^ e.bits)) ∧
    (al [a] → XReady (.vmovx h d a b) s → Does (.vmovx h d a b) s [.x, .vstart] (fun t => t.sh.vstart = 0 ∧
      t.sh.x = (s.sh.xset d (if e.signed then BitVec.ofInt 64 (toSigned (A at') e.bits) else BitVec.ofNat 64 (A at'))).x)) ∧
    (al [d] → XReady (.vmovxV h d a b) s → Does (.vmovxV h d a b) s [.v, .vstart] (fun t => t.sh.vstart = 0 ∧
      Puts s t d e s.sh.grp (fun j => if act j ∧ j = at' then some ((s.sh.srcA a).toNat % 2 ^ e.bits) else none))) ∧
    (s.sh.vstart ≠ 0 → (XReady (.vcompress h d a c) s → Faults (.vcompress h d a c) s (flt 0x04 6 true)) ∧
      (XReady (.vexpand h d a c) s → Faults (.vexpand h d a c) s (flt 0x04 6 true))) ∧
    (s.sh.vstart = 0 → al [d, a] →
      (XReady (.vcompress h d a c) s → Does (.vcompress h d a c) s [.v, .vstart] (fun t => t.sh.vstart = 0 ∧
        Puts s t d e s.sh.grp (fun j => (picked[j]?).map A))) ∧
      (XReady (.vexpand h d a c) s → Does (.vexpand h d a c) s [.v, .vstart] (fun t => t.sh.vstart = 0 ∧
        Puts s t d e s.sh.grp (fun j => if j ∈ picked then some (A (picked.idxOf j)) else none))))

/-- vred, vredo and vscan. With aligned groups and no poisoned register: on an integer type vred writes the wrapped sum, the least, the
greatest, or the and, or or exclusive or of the active elements, extended as the type is, and on none the value of an empty set; on floats
its sum is the tree of R64, and min and max go element by element; on FP4 its sum is that tree over the values of blocks of 8, each the
exact sum of its active elements scaled by its exponent and rounded once; a combination R166 refuses raises ALIGN 4. vredo adds in element
order from X[s2], or from redst when vstart is not 0, and leaves the running sum in redst. vscan writes running sums in element order,
with or without the element itself, wrapped on an integer type and rounded at each addition, from −0, on a floating one. It rests on the
choices of the model in log entries 34, 113 and 116. -/
def Obligations.VectorReductions : Prop :=
  ∀ (h : Hd) (k : RedK) (ex : Bool) (d a b : Fin 64) (s : State),
    let e := s.sh.et
    s.shaped → aligned a s.sh.grp = true → s.sh.vpoison = [] →
    let L := (s.sh.actives h).map (fun j => s.sh.elem a.val j e)
    let val : Nat → Int := fun c => if e.signed then toSigned c e.bits else ((c % 2 ^ e.bits : Nat) : Int)
    let word : Nat → Word := fun c => if e.signed then BitVec.ofInt 64 (toSigned c e.bits) else BitVec.ofNat 64 (c % 2 ^ e.bits)
    let gives : Word → Prop := fun v => Does (.vred h k d a b) s [.x, .vstart] (fun t => t.sh.vstart = 0 ∧ t.sh.x = (s.sh.xset d v).x)
    (e.isInt = true → XReady (.vred h k d a b) s →
      (k = .sum → gives (word (((L.map val).sum % (2 ^ e.bits : Nat)).toNat))) ∧
      (k = .and → gives (word (L.foldl (· &&& ·) (2 ^ e.bits - 1)))) ∧ (k = .or → gives (word (L.foldl (· ||| ·) 0))) ∧
      (k = .xor → gives (word (L.foldl (· ^^^ ·) 0))) ∧
      (k = .min → L ≠ [] → ∃ m ∈ L, (∀ x ∈ L, val m ≤ val x) ∧ gives (word m)) ∧
      (k = .max → L ≠ [] → ∃ m ∈ L, (∀ x ∈ L, val x ≤ val m) ∧ gives (word m)) ∧
      (k = .min → L = [] → gives (word (if e.signed then 2 ^ (e.bits - 1) - 1 else 2 ^ e.bits - 1))) ∧
      (k = .max → L = [] → gives (word (if e.signed then 2 ^ (e.bits - 1) else 0)))) ∧
    (e = .f32 ∨ e = .bf16 ∨ e = .f16 ∨ e = .e4 ∨ e = .e5 → k = .sum → XReady (.vred h k d a b) s →
      let r := laneTree s.sh.lanes ((List.range s.sh.vlen.toNat).map (fun j =>
        if s.sh.active h j then widenF (EType.fmt e) (s.sh.elem a.val j e) else 0x80000000))
      Does (.vred h k d a b) s [.x, .vstart, .flags] (fun t => t.sh.vstart = 0 ∧ t.sh.x = (s.sh.xset d (BitVec.ofNat 64 r.1)).x ∧ Raises s t r.2)) ∧
    (e = .f32 ∨ e = .bf16 ∨ e = .f16 ∨ e = .e4 ∨ e = .e5 → k = .min ∨ k = .max → XReady (.vred h k d a b) s →
      let W := L.map (widenF (EType.fmt e))
      gives (BitVec.ofNat 64 (if k = .min then W.foldl (fMin (EType.fmt .f32)) 0x7F800000 else W.foldl (fMax (EType.fmt .f32)) 0xFF800000))) ∧
    (e = .f4 → k = .sum → s.sh.grp ≤ 4 → aligned b (2 * s.sh.grp) = true → XReady (.vred h k d a b) s →
      let F := EType.fmt .f4
      let v : Nat → FVal := fun j => F.val (s.sh.elem a.val j .f4)
      let block : Nat → Nat × Nat := fun n => match (s.sh.actives h).filter (fun j => j / 8 = n) with
        | [] => (0x80000000, 0)
        | j :: r => match r.foldl (fun x m => (FVal.add .rne x (v m)).1) (v j) with
          | .fin neg m x => (EType.fmt .f32).arith .rne (.fin neg m (x + toSigned (s.sh.elem b.val n .i8) 8))
          | x => (EType.fmt .f32).arith .rne x
      let blocks := (List.range ((s.sh.vlen.toNat + 7) / 8)).map block
      let r := laneTree s.sh.lanes (blocks.map Prod.fst)
      Does (.vred h k d a b) s [.x, .vstart, .flags] (fun t => t.sh.vstart = 0 ∧ t.sh.x = (s.sh.xset d (BitVec.ofNat 64 r.1)).x ∧
        Raises s t ((blocks.map Prod.snd).foldl (· ||| ·) r.2))) ∧
    (e = .f4 ∧ k ≠ .sum ∨ e.isInt = false ∧ k ∈ [.and, .or, .xor] → XReady (.vred h k d a b) s → Faults (.vred h k d a b) s (flt 0x04 4 true)) ∧
    (e ≠ .f4 → XReady (.vredo h d a b) s →
      let w := if s.sh.vstart = 0 then (s.sh.srcB b).toNat else s.sh.redst.toNat
      let r := redoRun e (if e.isInt then w % 2 ^ e.bits else widenF (EType.fmt .f32) (w % 2 ^ 32)) L
      Does (.vredo h d a b) s [.x, .vstart, .redst, .flags] (fun t => t.sh.vstart = 0 ∧
        t.sh.x = (s.sh.xset d (if e.isInt then word r.1 else BitVec.ofNat 64 r.1)).x ∧ Raises s t r.2 ∧
        t.sh.redst = (if s.sh.vstart.toNat < s.sh.vlen.toNat then BitVec.ofNat 64 r.1 else s.sh.redst))) ∧
    (e.isInt = true → ∀ (acc x : Nat) (l : List Nat), redoRun e acc [] = (acc, 0) ∧ (redoRun e acc (x :: l)).1 = (redoRun e ((acc + x) % 2 ^ e.bits) l).1) ∧
    (e.isInt = true → aligned d s.sh.grp = true → XReady (.vscan h ex d a) s → Does (.vscan h ex d a) s [.v, .vstart] (fun t => t.sh.vstart = 0 ∧
      Puts s t d e s.sh.grp (onActive s h (fun j =>
        (((s.sh.actives h).filter (fun m => if ex then m < j else m ≤ j)).map (fun m => s.sh.elem a.val m e)).sum % 2 ^ e.bits)))) ∧
    (e = .f32 ∨ e = .bf16 ∨ e = .f16 → aligned d s.sh.grp = true → XReady (.vscan h ex d a) s →
      let F := EType.fmt e
      let add : Nat → Nat → Nat × Nat := fun c j =>
        let x := FVal.add .rne (F.val c) (F.val (s.sh.elem a.val j e))
        ((F.arith .rne x.1).1, x.2 ||| (F.arith .rne x.1).2)
      let upTo : (Nat → Bool) → Nat := fun p => ((s.sh.actives h).filter p).foldl (fun c j => (add c j).1) (2 ^ (e.bits - 1))
      Does (.vscan h ex d a) s [.v, .vstart, .flags] (fun t => t.sh.vstart = 0 ∧
        Puts s t d e s.sh.grp (onActive s h (fun j => upTo (fun m => if ex then decide (m < j) else decide (m ≤ j)) % 2 ^ e.bits)) ∧
        Raises s t (flagsOf s h (fun j => (add (upTo (fun m => decide (m < j))) j).2))))

/-- The vector loads, at once or later, the vector stores and vldq. A ready vld, vlds or vldx whose every active element's access passes its
checks in turn, with no entry of the core covering it, writes the code that memory holds there to the active element; vst, vsts and vstx
put the elements' bytes into the write lane as plain writes, element by element in order. vld, vlds, vst and vsts stop at the lowest
active element whose access fails: the elements below it are done, vstart is its number, and its fault is reported; a store whose queue
takes no more waits there, with its active elements kept. vldx does every element that passes and reports the first that does not, with
their number as detail and zeros in its mask; vstx has no effect when one fails. With no active element, each leaves all but vstart as it
was. A type of another width than vtype's is refused with ALIGN 4. vldq writes the elements of the groups it pops, waits on an empty queue
and for an entry whose load has not read, and raises ECC at an element it would write from a poisoned word. In a turn in which loads read
later, a ready vld, vlds or vldx whose every active element's access passes its checks issues with its registers as they were and vstart
0: an element each becomes a load under way, and its destination registers are busy until the last has read. One of which an element
fails, or must wait, does what it does at once, after the loads under way that come before it at its port. It rests on the choices of the
model in log entries 13, 23, 33 and 34. -/
def Obligations.VectorMemory : Prop :=
  (∀ (h : Hd) (ty : EType) (it : IdxT) (sf : BitVec 2) (d a b pm : Fin 64) (off : BitVec 14) (s : State),
      let e := s.sh.et
      s.shaped → ty.bits = e.bits → aligned d s.sh.grp = true → s.sh.vpoison = [] →
      let idx := aligned b (s.sh.grp2 it.etype) = true ∧ s.sh.grp * it.etype.bits ≤ 8 * e.bits
      let acts := s.sh.actives h
      let n := max 1 (e.bits / 8)
      let base := effAddr (s.sh.srcA a) off
      let unit : Nat → Nat := fun j => (base + j * e.bits / 8) % 2 ^ 64
      let stride : Nat → Nat := fun j => (BitVec.ofInt 64 ((base : Int) + j * (s.sh.srcB b).toInt)).toNat
      let index : Nat → Nat := fun j => (base + s.sh.elem b.val j it.etype * 2 ^ sf.toNat) % 2 ^ 64
      let code : Nat → Loc → Nat := fun j l => s.mem.readLe l.key n / (if e = .f4 then 2 ^ (4 * (j % 2)) else 1) % 2 ^ e.bits
      let bytes : Nat → List Byte := fun j =>
        if e = .f4 then [BitVec.ofNat 8 (s.sh.vread d.val (j / 2 * 2) e + 16 * s.sh.vread d.val (j / 2 * 2 + 1) e)] else leBytes n (s.sh.vread d.val j e)
      let x : By := { a := [], x := [(s.sh.pos, s.headNo)], t := [] }
      let found : Nat → Nat → Nat → Nat → Nat → Flt := fun c f lv ea k => { flt c f true with va := ea, index := k, level := lv }
      let reads : (Nat → Nat) → (Nat → State) → (Nat → Loc) → Nat → Prop := fun addr σ L m => ∀ j k, j < m → acts[j]? = some k →
        check (σ j) s.who (addr k) n .read false true = (σ (j + 1), .ok (L k)) ∧ s.co.coversSpan (L k).key ((L k).key + n) = false
      let writes : (Nat → Nat) → (Nat → State) → Nat → Prop := fun addr σ m => ∀ j k, j < m → acts[j]? = some k →
        ∃ u l c, check (σ j) s.who (addr k) (bytes k).length .write false true = (u, .ok l) ∧ u.co.plain l.key (bytes k) false x = some c ∧
          σ (j + 1) = { u with co := c }
      let loads : Instr → (Nat → Nat) → Prop := fun i addr => XReady i s → ∀ (σ : Nat → State) (L : Nat → Loc), σ 0 = s.atIssue i →
        (reads addr σ L acts.length → Does i s [.v, .vstart, .xlats] (fun t => t.sh.vstart = 0 ∧ t.tlb = (σ acts.length).tlb ∧
          Puts s t d e s.sh.grp (onActive s h (fun j => code j (L j))))) ∧
        (∀ m k u c f lv, acts[m]? = some k → reads addr σ L m → check (σ m) s.who (addr k) n .read false true = (u, .bad c f lv) →
          ∃ w, exec i s = faultX (found c f lv (addr k) k) w ∧ w.sh.xq = s.sh.xq ∧ Only [.v, .vstart, .xlats] s w ∧ w.sh.vstart = BitVec.ofNat 13 k ∧
            Puts s w d e s.sh.grp (fun j => if s.sh.active h j ∧ j < k then some (code j (L j)) else none))
      let stores : Instr → (Nat → Nat) → Prop := fun i addr => XReady i s → s.sh.xProg = 0 → ∀ σ : Nat → State, σ 0 = s.atIssue i →
        (writes addr σ acts.length → Does i s [.lane, .vstart, .xlats, .mem, .marks] (fun t => t.sh.vstart = 0 ∧ t.mem = (σ acts.length).mem ∧
          t.latent = (σ acts.length).latent ∧ t.met = (σ acts.length).met ∧
          ∀ p, t.co.queue p = (σ acts.length).co.queue p)) ∧
        (∀ m k u c f lv, acts[m]? = some k → writes addr σ m → check (σ m) s.who (addr k) (bytes k).length .write false true = (u, .bad c f lv) →
          ∃ w, exec i s = faultX (found c f lv (addr k) k) w ∧ w.sh.xq = s.sh.xq ∧ Only [.lane, .vstart, .xlats, .mem, .marks] s w ∧
            w.sh.vstart = BitVec.ofNat 13 k ∧ ∀ p, w.co.queue p = (σ m).co.queue p) ∧
        (∀ m k u l, acts[m]? = some k → writes addr σ m → check (σ m) s.who (addr k) (bytes k).length .write false true = (u, .ok l) →
          u.co.plain l.key (bytes k) false x = none → ∃ t, exec i s = .next t ∧ t.sh.xWait = .other ∧ t.sh.xq = s.sh.xq ∧ t.sh.nX = s.sh.nX ∧
            t.sh.xProg = k ∧ t.sh.acts h = acts ∧ Only [.lane, .xlats, .mem, .marks] s t ∧ ∀ p, t.co.queue p = (σ m).co.queue p)
      let vldx : Instr := .vldx h ty it sf d a b pm off
      let vstx : Instr := .vstx h ty it sf d a b off
      loads (.vld h ty d a off) unit ∧ loads (.vlds h ty d a b off) stride ∧
      stores (.vst h ty d a off) unit ∧ stores (.vsts h ty d a b off) stride ∧
      (idx → XReady vldx s → pm.val = 63 ∨ pm.val < 48 → ∀ (σ : Nat → State) (L : Nat → Loc) (B : Nat → Option (Nat × Nat × Nat)), σ 0 = s.atIssue vldx →
        (∀ j k, acts[j]? = some k → match B k with
          | none => check (σ j) s.who (index k) n .read false true = (σ (j + 1), .ok (L k)) ∧ s.co.coversSpan (L k).key ((L k).key + n) = false
          | some (c, f, lv) => check (σ j) s.who (index k) n .read false true = (σ (j + 1), .bad c f lv)) →
        let bad := acts.filter (fun k => (B k).isSome)
        let put : State → Prop := fun t => Puts s t d e s.sh.grp (fun j => if s.sh.active h j ∧ B j = none then some (s.mem.readLe (L j).key n % 2 ^ e.bits) else none) ∧
          (pm.val ≠ 63 → ∀ j, j < s.sh.vlen.toNat → pm.val + j / 512 ≤ 47 → t.sh.pval pm.val j = !bad.contains j)
        (bad = [] → Does vldx s [.v, .vstart, .xlats, .p] (fun t => t.sh.vstart = 0 ∧ put t)) ∧
        (∀ k r c f lv, bad = k :: r → B k = some (c, f, lv) → ∃ w, put w ∧ w.sh.vstart = s.sh.vstart ∧
          exec vldx s = faultX { found c bad.length lv (index k) k with pushed := decide (pm.val ≠ 63), at' := some s.sh.xpc } w)) ∧
      (idx → XReady vstx s → s.sh.xProg = 0 → ∀ (σ : Nat → State) (L : Nat → Loc), σ 0 = s.atIssue vstx →
        let pass : Nat → Prop := fun m => ∀ j k, j < m → acts[j]? = some k → check (σ j) s.who (index k) n .write false true = (σ (j + 1), .ok (L k))
        (pass acts.length → ∀ c : Nat → Core, c 0 = (σ acts.length).co →
          (∀ j k, acts[j]? = some k → (c j).plain (L k).key (bytes k) false x = some (c (j + 1))) →
          Does vstx s [.lane, .vstart, .xlats, .mem, .marks] (fun t => t.sh.vstart = 0 ∧ t.mem = (σ acts.length).mem ∧ ∀ p, t.co.queue p = (c acts.length).queue p)) ∧
        (∀ m k u c f lv, acts[m]? = some k → pass m → check (σ m) s.who (index k) n .write false true = (u, .bad c f lv) →
          ∃ w, exec vstx s = faultX (found c f lv (index k) k) w ∧ w.sh.xq = s.sh.xq ∧ Only [.xlats, .mem, .marks] s w)) ∧
      (acts = [] → ∀ i ∈ [Instr.vld h ty d a off, .vlds h ty d a b off, .vst h ty d a off, .vsts h ty d a b off, vldx, vstx],
        (i = vldx ∨ i = vstx → idx) → (i = vldx → pm.val = 63) → s.sh.xProg = 0 → XReady i s → Does i s [.vstart] (fun t => t.sh.vstart = 0)) ∧
      (∀ t2 : EType, t2.bits ≠ e.bits → ∀ i ∈ [Instr.vld h t2 d a off, .vlds h t2 d a b off, .vldx h t2 it sf d a b pm off, .vst h t2 d a off,
        .vsts h t2 d a b off, .vstx h t2 it sf d a b off, .vldq h t2 d a], XReady i s → Faults i s (flt 0x04 4 true)) ∧
      (let G := s.sh.lanes * 128 / e.bits
       let k := (s.sh.vlen.toNat + G - 1) / G
       XReady (.vldq h ty d a) s → s.sh.xProg = 0 → s.sh.vstart = 0 → a.val < 6 →
        let bad : Nat → Prop := fun j => (j % G % s.sh.lanes * 128 + j % G / s.sh.lanes * e.bits) / 64 ∈ ((s.sh.dqOf a.val).getD (j / G) default).pois
        (k ≤ (s.sh.dqOf a.val).length → (∀ x ∈ (s.sh.dqOf a.val).take k, x.due = none) → (∀ j ∈ acts, ¬ bad j) → Does (.vldq h ty d a) s [.v, .vstart, .queues] (fun t => t.sh.vstart = 0 ∧
          t.sh.dqOf a.val = (s.sh.dqOf a.val).drop k ∧ (∀ q, q ≠ a.val → t.sh.dqOf q = s.sh.dqOf q) ∧ t.sh.rq = s.sh.rq ∧
          Puts s t d e s.sh.grp (onActive s h (fun j =>
            ((s.sh.dqOf a.val).getD (j / G) default).data.toNat / 2 ^ (j % G % s.sh.lanes * 128 + j % G / s.sh.lanes * e.bits) % 2 ^ e.bits)))) ∧
        (∀ j x r, s.sh.dqOf a.val = x :: r → x.due = none → j ∈ acts → j < G → bad j → (∀ m ∈ acts, m < j → ¬ bad m) → Faults (.vldq h ty d a) s (eccFlt j)) ∧
        (k ≠ 0 → s.sh.dqOf a.val = [] → Awaits (.vldq h ty d a) s .queue) ∧
        (k ≠ 0 → (∃ x r, s.sh.dqOf a.val = x :: r ∧ x.due ≠ none) → Awaits (.vldq h ty d a) s .other))) ∧
  (∀ (h : Hd) (ty : EType) (it : IdxT) (sf : BitVec 2) (d a b pm : Fin 64) (off : BitVec 14) (s : State),
      let e := s.sh.et
      s.shaped → ty.bits = e.bits → aligned d s.sh.grp = true → s.sh.vpoison = [] →
      let idx := aligned b (s.sh.grp2 it.etype) = true ∧ s.sh.grp * it.etype.bits ≤ 8 * e.bits
      let acts := s.sh.actives h
      let n := max 1 (e.bits / 8)
      let base := effAddr (s.sh.srcA a) off
      let unit : Nat → Nat := fun j => (base + j * e.bits / 8) % 2 ^ 64
      let stride : Nat → Nat := fun j => (BitVec.ofInt 64 ((base : Int) + j * (s.sh.srcB b).toInt)).toNat
      let index : Nat → Nat := fun j => (base + s.sh.elem b.val j it.etype * 2 ^ sf.toNat) % 2 ^ 64
      let starts : Instr → (Nat → Nat) → Bool → List Piece → Prop := fun i addr free l => XReady i s → ∀ (σ : Nat → State) (L : Nat → Loc), σ 0 = s.atIssue i →
        let pass : Nat → Prop := fun m => ∀ j k, j < m → acts[j]? = some k → check (σ j) s.who (addr k) n .read false true = (σ (j + 1), .ok (L k))
        (pass acts.length → ∃ t busy, execLate i s = .next t ∧ Issued i s t ∧ Only ([.vstart, .xlats, .lane] ++ l) s t ∧ t.sh.vstart = 0 ∧
          t.tlb = (σ acts.length).tlb ∧ (∀ p, t.co.queue p = s.co.queue p) ∧ (∀ r, r < s.sh.grp → RegId.v (d.val + r) ∈ busy) ∧
          t.co.loads = s.co.loads ++ acts.map (fun k =>
            { pos := s.sh.pos, no := s.co.loadNo + 1, dst := .v e d.val k, busy := busy, key := (L k).key, size := n, free := free, after := s.headNo + 1 })) ∧
        (∀ m k u r, acts[m]? = some k → pass m → check (σ m) s.who (addr k) n .read false true = (u, r) → (∀ l, r ≠ .ok l) →
          (readsAfter (s.atIssue i) = false → execLate i s = exec i s) ∧
          (readsAfter (s.atIssue i) = true → ∃ t, execLate i s = .next t ∧ t.sh.xWait = .other ∧ t.sh.xq = s.sh.xq ∧ t.sh.nX = s.sh.nX ∧ Only [] s t))
      starts (.vld h ty d a off) unit false [] ∧ starts (.vlds h ty d a b off) stride false [] ∧
      (idx → pm.val = 63 ∨ pm.val < 48 → starts (.vldx h ty it sf d a b pm off) index true [.p]))

/-- mown, mbind, mtl and the hold limit. mown.acq on the owner writes 1; else it takes its place in line, takes the free engine and writes 0
when it is first, and waits otherwise. mown.try takes the free engine and writes 0, and writes 1 to the owner and 2 to others. mown.rel by
the owner frees the engine with both operand FIFOs empty and unbound, and does nothing else, but that a command whose transfer waits at
one of them ends with err 10. mown.rd writes 0, 1 or 2. mbind by the owner empties and rebinds a FIFO, no heddle transfer being part-way
into it, and raises PERM 8 for others. mtl writes the least of each operand and 64, 128 and 1,024 to three registers. HOLD_LIMIT raises
event bit 3 for an owner beyond the limit another shuttle waits on, and makes a budget fault due beyond twice the limit. It rests on the
choices of the model in log entries 37, 87, 117 and 127. -/
def Obligations.EngineOwnership : Prop :=
  ∀ (h : Hd) (fb : Bool) (src : BindK) (ty : MType) (d a b c : Fin 64) (s : State),
    let me := s.sh.pos
    let own := s.co.owner = some me
    let gets : Instr → Word → Prop := fun i v => XReady i s → Does i s [.x] (fun t => t.sh.x = (s.sh.xset d v).x)
    let takes : Instr → List Nat → Prop := fun i l => XReady i s → Does i s [.x, .engine] (fun t => t.sh.x = (s.sh.xset d 0).x ∧
      t.co.owner = some me ∧ t.co.acqs = l ∧ t.co.fa = s.co.fa ∧ t.co.fb = s.co.fb)
    let line := if s.co.acqs.contains me then s.co.acqs else s.co.acqs ++ [me]
    (own → gets (.mownAcq h d) 1 ∧ gets (.mownTry h d) 1 ∧ gets (.mownRd h d) 1) ∧
    (s.co.owner = none → gets (.mownRd h d) 0 ∧ takes (.mownTry h d) s.co.acqs ∧ (line.head? = some me → takes (.mownAcq h d) line.tail)) ∧
    (∀ q, s.co.owner = some q → q ≠ me → gets (.mownTry h d) 2 ∧ gets (.mownRd h d) 2) ∧
    (¬ own → ¬ (s.co.owner = none ∧ line.head? = some me) → XReady (.mownAcq h d) s → ∃ t, exec (.mownAcq h d) s = .next t ∧ t.sh.xWait = .other ∧
      t.sh.xq = s.sh.xq ∧ Only [.engine] s t ∧ t.co.owner = s.co.owner ∧ t.co.acqs = line ∧ t.co.fa = s.co.fa ∧ t.co.fb = s.co.fb) ∧
    (own → XReady (.mownRel h) s → ∃ t, exec (.mownRel h) s = .next t ∧ Issued (.mownRel h) s t ∧ t.co.owner = none ∧
      (∀ k, (t.co.fifo k).src = .none ∧ (t.co.fifo k).runs = []) ∧
      ∀ n c, afind? s.co.cmds n = some c → some c.recId = s.co.recId → c.run = true → c.kind = .xfm → c.wrTo ≠ none →
        ∃ c', afind? t.co.cmds n = some c' ∧ c'.run = false ∧ c'.err = 10) ∧
    (own → delivering s false = [] → delivering s true = [] → XReady (.mownRel h) s → Does (.mownRel h) s [.engine] (fun t => t.co.owner = none ∧ t.co.acqs = s.co.acqs ∧
      (∀ k, (t.co.fifo k).src = .none ∧ (t.co.fifo k).runs = []))) ∧
    (¬ own → XReady (.mownRel h) s → Does (.mownRel h) s [] (fun _ => True)) ∧
    (XReady (.mbind h fb src ty a) s →
      (¬ own → Faults (.mbind h fb src ty a) s (flt 0x03 8 true)) ∧
      (own → delivering s fb = [] → Does (.mbind h fb src ty a) s [.engine] (fun t => t.co.owner = s.co.owner ∧
        t.co.acqs = s.co.acqs ∧ t.co.fifo (!fb) = s.co.fifo (!fb) ∧ (t.co.fifo fb).src = src ∧ (t.co.fifo fb).ty = ty ∧ (t.co.fifo fb).runs = [] ∧
        (src = .heddle → (t.co.fifo fb).tag = (s.sh.srcA a).toNat % 2 ^ 16)))) ∧
    (1 ≤ d.val → d.val ≤ 61 → XReady (.mtl h d a b c) s → Does (.mtl h d a b c) s [.x] (fun t => ∀ r : Fin 64, t.sh.xget r =
      if r.val = d.val then BitVec.ofNat 64 (min (s.sh.srcA a).toNat 64) else if r.val = d.val + 1 then BitVec.ofNat 64 (min (s.sh.srcB b).toNat 128)
      else if r.val = d.val + 2 then BitVec.ofNat 64 (min (s.sh.srcC c).toNat 1024) else s.sh.xget r)) ∧
    (let held := s.gn.t64.toNat - s.co.ownAt
     let lim := s.co.holdLim * 4000
     let waited := ∃ q ∈ s.co.acqs, q ≠ me
     (s.co.owner = none → exec .holdLimit s = .next s) ∧
     (own → lim = 0 ∨ ¬ waited ∨ held ≤ lim → exec .holdLimit s = .next s) ∧
     (own → lim ≠ 0 → waited → s.co.overHold = 0 → lim < held →
       exec .holdLimit s = .next { s with co := { s.co with overHold := 1 }, sh := { s.sh with events := s.sh.events ||| 8 } }) ∧
     (own → lim ≠ 0 → waited → s.co.overHold = 1 → 2 * lim < held →
       exec .holdLimit s = .next { s with co := { s.co with overHold := 2 }, sh := { s.sh with budgetDue := true } }))

/-- vpush and mfill put runs of 8 codes with their scales into an operand FIFO. By the owner of the engine, into a FIFO bound to it with the
type of vtype, a ready vpush appends a run for every 8 elements up to vlen rounded up to element groups, inactive elements as code 0, each
with its scale from X or 1.0, and waits while the next element group has no room. A ready mfill of an unframed matrix appends for every
row the runs that cover K elements, read at the row's address, and writes the number of rows. Of a framed one it appends the elements of
the row's blocks, one after another, under the effective scale of each run; a malformed block raises INTEG with detail 2, and one of
another format INTEG with detail 3. A misaligned base or stride raises ALIGN with detail 3. A translation fault beyond the first row ends
a first-fault fill with the rows before it. It rests on the choices of the model in log entries 33, 34, 35, 102 and 117. -/
def Obligations.MatrixOperands : Prop :=
  ∀ (h : Hd) (fb sc fr ff : Bool) (d a b c : Fin 64) (s : State),
    let e := s.sh.et
    let f := s.co.fifo fb
    let cap := if fb then 16384 else 8192
    let own := s.co.owner = some s.sh.pos
    let push : Instr := .vpush h fb sc a b
    let fill : Instr := .mfill h fb fr ff d a b c
    let G := s.sh.lanes * 128 / e.bits
    let n := (s.sh.vlen.toNat + G - 1) / G * (G / 8)
    let goes : Instr → List Piece → (List FRun → State → Prop) → Prop := fun i l P => Does i s (.engine :: l) (fun t => ∃ q,
      (t.co.fifo fb) = { f with runs := f.runs ++ q } ∧ t.co.fifo (!fb) = s.co.fifo (!fb) ∧ t.co.owner = s.co.owner ∧ t.co.acqs = s.co.acqs ∧ P q t)
    let nr := (s.sh.srcD d).toNat
    let K := (s.sh.srcC c).toNat
    let per := (K + 7) / 8
    let base := (s.sh.srcA a).toNat
    let step := s.sh.srcB b
    let al := if fr then 64 else elemBytes f.ty.etype
    let rowAt : Nat → Nat := fun r => (BitVec.ofInt 64 ((base : Int) + r * step.toInt)).toNat
    let z := s.atIssue fill
    (XReady push s → ¬ own → Faults push s (flt 0x03 8 true)) ∧
    (XReady fill s → ¬ own → Faults fill s (flt 0x03 8 true)) ∧
    (XReady push s → own → f.src ≠ .push → Faults push s (flt 0x03 7 true)) ∧
    (XReady fill s → own → f.src ≠ .fill → Faults fill s (flt 0x03 7 true)) ∧
    (XReady push s → own → f.src = .push → f.ty.etype ≠ e → Faults push s (flt 0x04 4 true)) ∧
    (XReady push s → own → f.src = .push → f.ty.etype = e → s.sh.lanes ∈ [4, 8, 16, 32] → aligned a s.sh.grp = true → s.sh.vpoison = [] →
      (sc = true → s.sh.grp * 16 ≤ 8 * e.bits ∧ aligned b (s.sh.grp2 .n16) = true) → s.sh.vstart = 0 → s.sh.xProg = 0 →
      (f.runs.length + n ≤ cap → goes push [.vstart] (fun q t => t.sh.vstart = 0 ∧ q.length = n ∧ ∀ j, j < n → ∃ r, q[j]? = some r ∧
        r.codes = (List.range 8).map (fun m => if s.sh.active h (8 * j + m) then s.sh.elem a.val (8 * j + m) e else 0) ∧
        r.scale = (if sc then s.sh.elem b.val j .n16 else 0x7F00))) ∧
      (s.sh.vlen ≠ 0 → cap < f.runs.length + G / 8 → Awaits push s (.fifo fb))) ∧
    (XReady fill s → own → f.src = .fill → (if fb then 128 else 64) < nr ∨ 1024 < K → Faults fill s (flt 0x04 7 true)) ∧
    (XReady fill s → own → f.src = .fill → nr ≤ (if fb then 128 else 64) → K ≤ 1024 →
      (nr = 0 ∨ K = 0 → Does fill s [] (fun _ => True)) ∧
      (nr ≠ 0 → K ≠ 0 → base % al ≠ 0 ∨ step.toNat % al ≠ 0 → Faults fill s { flt 0x04 3 true with va := base }) ∧
      (nr ≠ 0 → K ≠ 0 → base % al = 0 → step.toNat % al = 0 →
        (cap < f.runs.length + nr * per → Awaits fill s (.fifo fb)) ∧
        (f.runs.length + nr * per ≤ cap →
          (∀ s1 q, fillRows fr f.ty K rowAt z (List.range nr) = (s1, q, nr, none) → ∃ t, exec fill s = .next t ∧ Issued fill s t ∧
            t.co.fifo fb = { f with runs := f.runs ++ q } ∧ t.sh.x = (s.sh.xset d (BitVec.ofNat 64 nr)).x) ∧
          (∀ s1 q k x l ea, fillRows fr f.ty K rowAt z (List.range nr) = (s1, q, k, some (some (0x02, x, l, ea))) → ff = true → k ≠ 0 →
            ∃ t, exec fill s = .next t ∧ Issued fill s t ∧ t.co.fifo fb = { f with runs := f.runs ++ q } ∧
              t.sh.x = (s.sh.xset d (BitVec.ofNat 64 k)).x) ∧
          (∀ L : Nat → Nat → Loc, fr = false → s.latent = [] → s.poison = [] →
            let ew := elemBytes f.ty.etype
            let bits := f.ty.etype.bits
            (∀ r k, r < nr → k < K → check z z.who ((rowAt r + k * bits / 8) % 2 ^ 64) ew .read false false = (z, .ok (L r k)) ∧
              z.co.coversSpan (L r k).key ((L r k).key + ew) = false) →
            goes fill [.x] (fun q t => t.sh.x = (s.sh.xset d (BitVec.ofNat 64 nr)).x ∧ q.length = nr * per ∧
              ∀ r j, r < nr → j < per → ∃ u, q[r * per + j]? = some u ∧ u.scale = 0x7F00 ∧ u.poison = false ∧
                u.codes = (List.range 8).map (fun m => let k := 8 * j + m
                  if k < K then s.mem.readLe (L r k).key ew / (if bits = 4 then 2 ^ (4 * (k % 2)) else 1) % 2 ^ bits else 0))) ∧
          (∀ (L : Nat → Nat → Loc) (B : Nat → Nat), fr = true → s.latent = [] → s.poison = [] →
            let byte : Nat → Nat → Nat → Nat := fun r j k => s.mem.readLe ((L r j).key + k) 1
            let cnt : Nat → Nat → Nat := fun r j => byte r j 2
            let off : Nat → Nat → Nat := fun r j => ((List.range j).map (cnt r)).sum
            let read : Nat → Nat → Prop := fun r j => check z z.who ((rowAt r + 64 * j) % 2 ^ 64) 64 .read false false = (z, .ok (L r j)) ∧
              z.co.covers ((L r j).key / 64 * 64) = false
            let formed : Nat → Nat → Prop := fun r j => 1 ≤ byte r j 0 ∧ byte r j 0 ≤ 5 ∧ byte r j 3 = 0 ∧ 1 ≤ cnt r j ∧
              cnt r j ≤ (if byte r j 0 = 1 then 96 else if byte r j 0 = 5 then 30 else 60)
            let typed : Nat → Nat → Prop := fun r j => byte r j 0 =
              match f.ty with | .f4 => 1 | .e4 => 2 | .e5 => 3 | .i8 => 4 | .bf16 => 5
            let ends : Nat → Nat → Prop := fun r j => K ≤ off r j + cnt r j
            let good : Nat → Nat → Prop := fun r j => read r j ∧ formed r j ∧ typed r j ∧ off r j < K ∧ (ends r j ∨ cnt r j % 8 = 0)
            ((∀ r, r < nr → (∀ j, j < B r → good r j) ∧ K ≤ off r (B r)) →
              goes fill [.x] (fun q t => t.sh.x = (s.sh.xset d (BitVec.ofNat 64 nr)).x ∧ q.length = nr * per ∧
                ∀ r j m, r < nr → j < B r → 8 * m < min (cnt r j) (K - off r j) → ∃ u, q[r * per + off r j / 8 + m]? = some u ∧ u.poison = false ∧
                  u.scale = eff (byte r j 1) (if byte r j 0 = 1 then byte r j (4 + m) else 0x90) ∧
                  u.codes = (List.range 8).map (fun k => let n := 8 * m + k
                    if min (cnt r j) (K - off r j) ≤ n then 0
                    else if byte r j 0 = 1 then byte r j (16 + n / 2) / 2 ^ (4 * (n % 2)) % 16
                    else if byte r j 0 = 5 then byte r j (4 + 2 * n) + 256 * byte r j (5 + 2 * n) else byte r j (4 + n)))) ∧
            (∀ r, r < nr → (∀ k, k < r → (∀ j, j < B k → good k j) ∧ K ≤ off k (B k)) → (∀ j, j < B r → good r j) → off r (B r) < K → read r (B r) →
              (¬ formed r (B r) → Faults fill s { flt 0x0B 2 true with va := (rowAt r + 64 * B r) % 2 ^ 64, index := r }) ∧
              (formed r (B r) → ¬ typed r (B r) → Faults fill s { flt 0x0B 3 true with va := (rowAt r + 64 * B r) % 2 ^ 64, index := r }) ∧
              (formed r (B r) → typed r (B r) → ¬ ends r (B r) → cnt r (B r) % 8 ≠ 0 →
                Faults fill s { flt 0x0B 2 true with va := (rowAt r + 64 * B r) % 2 ^ 64, index := r }))))))

/-- mma takes its rows and columns from the operand FIFOs and adds their products into a tile. A ready mma raises PERM 8 for a shuttle that
does not own the engine, PERM 1 for a tile it is not granted, PERM 7 with a FIFO unbound, ALIGN 4 for other types than the FIFOs hold and
ALIGN 7 for a shape out of range; does nothing for an empty shape; waits while a FIFO holds too few runs; raises ECC on a poisoned run,
detail 1, and on a poisoned word of the tile that it adds to, detail 2; and else takes the rows of fa and of fb and writes element (m, n)
as the accumulation of row m of fa by row n of fb, from 0 or from the old element, with the flags this raises, and every other element as
it was. It rests on the choices of the model in log entries 23, 93 and 102. -/
def Obligations.MatrixMultiply : Prop :=
  ∀ (h : Hd) (z : Bool) (ta tb : MType) (zt : BitVec 8) (a b c : Fin 64) (s : State),
    let i : Instr := .mma h z ta tb zt a b c
    let gm := (s.sh.srcA a).toNat
    let gn := (s.sh.srcB b).toNat
    let gk := (s.sh.srcC c).toNat
    let per := (gk + 7) / 8
    let own := s.co.owner = some s.sh.pos
    let mine := s.sh.firstTile ≤ zt.toNat ∧ zt.toNat < s.sh.firstTile + s.sh.nTiles
    let bound := s.co.fa.src ≠ .none ∧ s.co.fb.src ≠ .none
    let typed := s.co.fa.ty = ta ∧ s.co.fb.ty = tb
    let fits := gm ≤ 64 ∧ gn ≤ 128 ∧ gk ≤ 1024
    let ra := s.co.fa.runs.take (gm * per)
    let rb := s.co.fb.runs.take (gn * per)
    let old := s.co.tile zt.toNat
    let bad := z = false ∧ ∃ w ∈ old.pois, w / 64 < gm ∧ w % 64 * 2 < gn
    let row : MType → List FRun → Nat → List (FVal × FVal) := fun ty l m => rowVals ty ((l.drop (m * per)).take per) gk
    let sum : Nat → Nat → Nat × Nat := fun m n =>
      accumulate (ta == .bf16) gk (if z then 0 else old.elem (128 * m + n)) (row ta ra m) (row tb rb n)
    XReady i s →
      (¬ own → Faults i s (flt 0x03 8 true)) ∧
      (own → ¬ mine → Faults i s (flt 0x03 1 true)) ∧
      (own → mine → ¬ bound → Faults i s (flt 0x03 7 true)) ∧
      (own → mine → bound → ¬ typed → Faults i s (flt 0x04 4 true)) ∧
      (own → mine → bound → typed → ¬ fits → Faults i s (flt 0x04 7 true)) ∧
      (own → mine → bound → typed → fits →
        (gm = 0 ∨ gn = 0 ∨ gk = 0 → Does i s [] (fun _ => True)) ∧
        (gm ≠ 0 → gn ≠ 0 → gk ≠ 0 →
          (s.co.fa.runs.length < gm * per → Awaits i s (.fifo false)) ∧
          (gm * per ≤ s.co.fa.runs.length → s.co.fb.runs.length < gn * per → Awaits i s (.fifo true)) ∧
          (gm * per ≤ s.co.fa.runs.length → gn * per ≤ s.co.fb.runs.length →
            ((∃ r ∈ ra ++ rb, r.poison = true) → Faults i s (flt 0x0C 1 true)) ∧
            ((∀ r ∈ ra ++ rb, r.poison = false) → bad → Faults i s (flt 0x0C 2 true)) ∧
            ((∀ r ∈ ra ++ rb, r.poison = false) → ¬ bad → Does i s [.engine, .tiles, .flags] (fun t =>
              t.co.owner = s.co.owner ∧ t.co.acqs = s.co.acqs ∧ t.co.fa = { s.co.fa with runs := s.co.fa.runs.drop (gm * per) } ∧
              t.co.fb = { s.co.fb with runs := s.co.fb.runs.drop (gn * per) } ∧
              (∀ m n, m < 64 → n < 128 → (t.co.tile zt.toNat).elem (128 * m + n) =
                if m < gm ∧ n < gn then (sum m n).1 % 2 ^ 32 else old.elem (128 * m + n)) ∧
              (∀ w, w ∈ (t.co.tile zt.toNat).pois ↔ w ∈ old.pois ∧ ¬ (w / 64 < gm ∧ w % 64 * 2 + 1 < gn)) ∧
              (t.co.tile zt.toNat).scale = old.scale ∧ (∀ k, k ≠ zt.toNat → t.co.tile k = s.co.tile k) ∧
              t.sh.landAll.sat = s.sh.landAll.sat ∧ t.sh.landAll.fflags = s.sh.landAll.fflags |||
                BitVec.ofNat 5 ((List.range (gm * gn)).foldr (fun f g => g ||| (sum (f / gn) (f % gn)).2) 0))))))

/-- mzero, mrd, mwr, mbs and mdrain read and write a granted tile. Each raises PERM 1 for a tile that is not granted. Of a granted one a ready
mzero makes every element +0 and the band scale 1.0; mbs sets the scale and mbs.rd writes it; mrd writes elements from X[s1] on times the
scale, converted to the type of vtype, up to one the conversion traps on with NUMOVF; mwr writes active elements of a group of .f32 into
the tile; mdrain puts the converted elements into the write lane as plain writes, row by row, once every access passes, and reports the
failing one of lowest address else; with a misaligned base or stride it raises ALIGN with detail 3, and NUMOVF where the conversion of its
first such element traps. An element or a scale that lies in a poisoned word raises ECC where it is read. Positions beyond the tile raise
ALIGN with detail 7. All else is as it was. It rests on the choices of the model in log entries 33, 35, 102 and 130. -/
def Obligations.TileReadWrite : Prop :=
  ∀ (h : Hd) (rm : Rm) (ov : Ov) (ty : EType) (zt : BitVec 8) (d a b c : Fin 64) (s : State),
    let e := s.sh.et
    let T := s.co.tile zt.toNat
    let mine := s.sh.firstTile ≤ zt.toNat ∧ zt.toNat < s.sh.firstTile + s.sh.nTiles
    let f0 := (s.sh.srcA a).toNat
    let bad : Nat → Prop := fun f => f / 2 ∈ T.pois ∨ 4096 ∈ T.pois
    let cv : Nat → Conv := fun j => readOut T e rm ov (f0 + j)
    let drain : Instr := .mdrain h ty rm ov zt d a b c
    let makes : Instr → List Piece → (Tile → Prop) → Prop := fun i l P => XReady i s → Does i s (.tiles :: l) (fun t =>
      P (t.co.tile zt.toNat) ∧ (∀ k, k ≠ zt.toNat → t.co.tile k = s.co.tile k) ∧ (.vstart ∈ l → t.sh.vstart = 0))
    (¬ mine → ∀ i ∈ [Instr.mzero h zt, .mrd h rm ov zt d a, .mwr h zt d a, .mbs h zt a, .mbsRd h zt d, drain], XReady i s → Faults i s (flt 0x03 1 true)) ∧
    (mine →
      makes (.mzero h zt) [] (fun u => u.data = 0 ∧ u.scale = 0x3F80 ∧ u.pois = []) ∧
      makes (.mbs h zt a) [] (fun u => u.data = T.data ∧ u.scale = (s.sh.srcA a).extractLsb' 0 16) ∧
      (4096 ∈ T.pois → XReady (.mbsRd h zt d) s → Faults (.mbsRd h zt d) s (eccFlt 0)) ∧
      (4096 ∉ T.pois → XReady (.mbsRd h zt d) s → Does (.mbsRd h zt d) s [.x] (fun t => t.sh.x = (s.sh.xset d (T.scale.zeroExtend 64)).x)) ∧
      (8192 < f0 + s.sh.vlen.toNat → XReady (.mrd h rm ov zt d a) s → Faults (.mrd h rm ov zt d a) s (flt 0x04 7 true)) ∧
      (s.shaped → f0 + s.sh.vlen.toNat ≤ 8192 → aligned d s.sh.grp = true → XReady (.mrd h rm ov zt d a) s →
        (∀ k, s.sh.active h k = true → bad (f0 + k) → (∀ j, j < k → s.sh.active h j = true → ¬ bad (f0 + j)) → Faults (.mrd h rm ov zt d a) s (eccFlt k)) ∧
        ((∀ j, s.sh.active h j = true → ¬ bad (f0 + j)) → (∀ j, s.sh.active h j = true → (cv j).trap = false) → Does (.mrd h rm ov zt d a) s [.v, .vstart, .flags] (fun t => t.sh.vstart = 0 ∧
          Puts s t d e s.sh.grp (onActive s h (fun j => (cv j).code % 2 ^ e.bits)) ∧ Raises s t (flagsOf s h (fun j => (cv j).flags)))) ∧
        ((∀ j, s.sh.active h j = true → ¬ bad (f0 + j)) → ∀ k, s.sh.active h k = true → (cv k).trap = true → (∀ j, j < k → s.sh.active h j = true → (cv j).trap = false) →
          ∃ u, exec (.mrd h rm ov zt d a) s = faultX { flt 0x11 k true with index := k } u ∧ u.sh.xq = s.sh.xq ∧ Only [.v, .vstart, .flags] s u ∧
            u.sh.vstart = BitVec.ofNat 13 k ∧
            Puts s u d e s.sh.grp (fun j => if s.sh.active h j ∧ j < k then some ((cv j).code % 2 ^ e.bits) else none))) ∧
      (e ≠ .f32 → XReady (.mwr h zt d a) s → Faults (.mwr h zt d a) s (flt 0x04 4 true)) ∧
      (e = .f32 → 8192 < f0 + s.sh.vlen.toNat → XReady (.mwr h zt d a) s → Faults (.mwr h zt d a) s (flt 0x04 7 true)) ∧
      (e = .f32 → f0 + s.sh.vlen.toNat ≤ 8192 → aligned d s.sh.grp = true → s.sh.vpoison = [] → makes (.mwr h zt d a) [.vstart] (fun u =>
        u.scale = T.scale ∧ ∀ f, f < 8192 → u.elem f = if f0 ≤ f ∧ s.sh.active h (f - f0) = true then s.sh.elem d.val (f - f0) .f32 else T.elem f)) ∧
      (let rows := (s.sh.srcD d).toNat
       let cols := (s.sh.srcC c).toNat
       let n := elemBytes ty
       let us := drainUnits ty rows cols
       let addr : Nat → Nat := fun k => drainAddr ty (s.sh.srcA a) (s.sh.srcB b) (us.getD k (0, 0))
       let out : Nat → Conv := readOut T ty rm ov
       let bytes : Nat → List Byte := fun k => drainBytes ty cols (fun f => (out f).code) (us.getD k (0, 0))
       XReady drain s →
        (64 < rows ∨ 128 < cols → Faults drain s (flt 0x04 7 true)) ∧
        (rows ≤ 64 → cols ≤ 128 → rows = 0 ∨ cols = 0 → Does drain s [] (fun _ => True)) ∧
        (1 ≤ rows → rows ≤ 64 → 1 ≤ cols → cols ≤ 128 → (s.sh.srcA a).toNat % n ≠ 0 ∨ (s.sh.srcB b).toNat % n ≠ 0 →
          Faults drain s { flt 0x04 3 true with va := (s.sh.srcA a).toNat }) ∧
        (1 ≤ rows → rows ≤ 64 → 1 ≤ cols → cols ≤ 128 → (s.sh.srcA a).toNat % n = 0 → (s.sh.srcB b).toNat % n = 0 → s.sh.xProg = 0 →
          ∀ m k, m < rows → k < cols → bad (128 * m + k) → (∀ m' k', m' < rows → k' < cols → bad (128 * m' + k') → 128 * m + k ≤ 128 * m' + k') →
            Faults drain s (eccFlt (128 * m + k))) ∧
        (1 ≤ rows → rows ≤ 64 → 1 ≤ cols → cols ≤ 128 → (s.sh.srcA a).toNat % n = 0 → (s.sh.srcB b).toNat % n = 0 → s.sh.xProg = 0 →
          (∀ m k, m < rows → k < cols → ¬ bad (128 * m + k)) →
          ∀ (σ : Nat → State) (L : Nat → Loc) (B : Nat → Option (Nat × Nat × Nat)), σ 0 = s.atIssue drain →
            (∀ j, j < us.length → match B j with
              | none => check (σ j) s.who (addr j) n .write false true = (σ (j + 1), .ok (L j))
              | some (k, x, l) => check (σ j) s.who (addr j) n .write false true = (σ (j + 1), .bad k x l)) →
            (∀ m k, (∀ j, j < us.length → B j = none) → m < rows → k < cols → (out (128 * m + k)).trap = true →
              (∀ m' k', m' < rows → k' < cols → (out (128 * m' + k')).trap = true → 128 * m + k ≤ 128 * m' + k') →
              ∃ w, exec drain s = faultX { flt 0x11 (128 * m + k) true with index := 128 * m + k } w ∧ w.sh.xq = s.sh.xq ∧ Only [.xlats, .mem, .marks] s w) ∧
            ((∀ j, j < us.length → B j = none) → (∀ m k, m < rows → k < cols → (out (128 * m + k)).trap = false) → ∀ q : Nat → Core, q 0 = (σ us.length).co.startDrain zt.toNat rows →
              (∀ j, j < us.length → (q j).plain (L j).key (bytes j) false { a := [], x := [(s.sh.pos, s.headNo)], t := [] } = some (q (j + 1))) →
              Does drain s [.lane, .flags, .xlats, .mem, .marks] (fun t => t.mem = (σ us.length).mem ∧
                t.latent = (σ us.length).latent ∧ t.met = (σ us.length).met ∧ (∀ p, t.co.queue p = (q us.length).queue p) ∧
                Raises s t ((List.range (rows * cols)).foldr (fun f g => g ||| (out (128 * (f / cols) + f % cols)).flags) 0))) ∧
            (∀ j k x l, j < us.length → B j = some (k, x, l) → (∀ i, i < us.length → B i ≠ none → addr j ≤ addr i ∧ (addr i = addr j → j ≤ i)) →
              ∃ w, exec drain s = faultX { flt k x true with va := addr j, level := l, index := 128 * (us.getD j (0, 0)).1 + (us.getD j (0, 0)).2 } w ∧
                w.sh.xq = s.sh.xq ∧ Only [.xlats, .mem, .marks] s w))))

/-- cdef, clen, ccur and cvec.ld. A ready cdef.arena sets the arena (of the base the 21 bits its field has, which an arena of size 0 may
exceed), empties every column register and clears the cursors; cdef of a type makes an empty column at an offset of the arena; cdef.len
sets a length up to the capacity; each faults with ALIGN 3, COLCAP 2 or PERM 4 as R206 says. clen writes the length, the capacity, the
descriptor or the arena word. ccur clears, writes and reads the stop cursor. cvec.ld writes active elements from a place of a column, fill
beyond its end, and the number of elements there were. It rests on the choices of the model in log entries 23 and 130. -/
def Obligations.ColumnRegisters : Prop :=
  ∀ (h : Hd) (ty : EType) (d a b c y : Fin 64) (s : State),
    let A := (s.sh.srcA a).toNat
    let B := (s.sh.srcB b).toNat
    let C := (s.sh.srcC c).toNat
    let w := s.who
    let defA : Instr := .cdefArena h a b c
    let defT : Instr := .cdefT h ty d a b
    let gets : Instr → Word → Prop := fun i v => XReady i s → Does i s [.x] (fun t => t.sh.x = (s.sh.xset d v).x)
    let room := arenaSize s.sh.arena - arenaScratch s.sh.arena
    (XReady defA s →
      let al := A % 64 = 0 ∧ B % 64 = 0 ∧ C % 64 = 0
      let granted := B = 0 ∨ w.lo ≤ A ∧ A + B ≤ w.lo + w.len
      (¬ al → Faults defA s (flt 0x04 3 true)) ∧ (al → B < C → Faults defA s (flt 0x07 2 true)) ∧
      (al → C ≤ B → ¬ granted → Faults defA s (flt 0x03 4 true)) ∧
      (al → C ≤ B → granted → B < 2 ^ 21 → Does defA s [.arena, .c, .ccur] (fun t => t.sh.ccur = 0 ∧ (∀ k, t.sh.cword k = 0) ∧
        arenaBase t.sh.arena = A % 2 ^ 21 ∧ arenaSize t.sh.arena = B ∧ arenaScratch t.sh.arena = C))) ∧
    (XReady defT s → d.val < 16 → ty ≠ .f4 →
      (A % 64 ≠ 0 → Faults defT s (flt 0x04 3 true)) ∧
      (A % 64 = 0 → 2 ^ 20 ≤ B ∨ room < A + B * (ty.bits / 8) → Faults defT s (flt 0x07 2 true)) ∧
      (A % 64 = 0 → B < 2 ^ 20 → A + B * (ty.bits / 8) ≤ room → Does defT s [.c] (fun t =>
        t.sh.col d.val = { et := ty, len := 0, cap := B, base := A / 64 % 2 ^ 16 } ∧ ∀ k, k ≠ d.val → t.sh.cword k = s.sh.cword k))) ∧
    (XReady (.cdefLen h d a) s → d.val < 16 →
      ((s.sh.col d.val).cap < A → Faults (.cdefLen h d a) s (flt 0x07 2 true)) ∧
      (A ≤ (s.sh.col d.val).cap → Does (.cdefLen h d a) s [.c] (fun t =>
        t.sh.col d.val = { s.sh.col d.val with len := A } ∧ ∀ k, k ≠ d.val → t.sh.cword k = s.sh.cword k))) ∧
    gets (.clen h d a) (BitVec.ofNat 64 (s.sh.col a.val).len) ∧ gets (.clenCap h d a) (BitVec.ofNat 64 (s.sh.col a.val).cap) ∧
    gets (.clenDesc h d a) (s.sh.cword a.val) ∧ gets (.clenArena h d) s.sh.arena ∧
    gets (.ccurRd h d) (s.sh.ccur.extractLsb' 0 64) ∧
    (XReady (.ccurClr h) s → Does (.ccurClr h) s [.ccur] (fun t => t.sh.curHi = s.sh.curHi ∧ t.sh.curLo = 0)) ∧
    (XReady (.ccurWr h a) s → Does (.ccurWr h a) s [.ccur] (fun t =>
      t.sh.ccur = (s.sh.ccur.extractLsb' 64 64 ++ s.sh.srcA a) &&& ccurMask)) ∧
    (let e := s.sh.et
     let col := s.sh.col a.val
     let ld : Instr := .cvecLd h d a b y
     s.shaped → aligned d s.sh.grp = true →
     ColChecks ld s (cctl 14 0 false y 63 []) [(a.val, false)] (e.bits == col.et.bits) (Does ld s [.v, .x, .vstart] (fun t => t.sh.vstart = 0 ∧
       t.sh.x = (s.sh.xset y (BitVec.ofNat 64 (min s.sh.vlen.toNat (col.len - B)))).x ∧
       Puts s t d e s.sh.grp (onActive s h (fun j => (if B + j < col.len then s.colElem col (B + j) else s.sh.fill.toNat) % 2 ^ e.bits)))))

/-- cld, cld.st, cscat and cvec.app move elements between columns, memory and vectors. A ready cld, or the cres of one, whose reads pass puts
what it reads into its column, through the near queue, until all is read, the column is full or the queue is, or an access fails, where it
stops with the cursor there. cld.st puts its elements into the write lane one by one in order, and cscat each at the position its second
column gives, as plain writes for swap and as reductions otherwise; both write how far they came; cscat stops with ALIGN 8 at an element
its second column gives no position for. cvec.app appends the active elements of a group of registers. Each makes the checks of R196
first. It rests on the choices of the model in log entries 23, 33, 49, 55, 56 and 111. -/
def Obligations.ColumnTransfers : Prop :=
  ∀ (h : Hd) (k : AmoK) (res : Bool) (d a b e y pp : Fin 64) (s : State),
    let col := s.sh.col d.val
    let base := (s.sh.srcA a).toNat
    let at' : Nat → Nat → Nat := fun n p => (base + p * n) % 2 ^ 64
    let z : Instr → State := fun i => { s.atIssue i with sh := (s.atIssue i).sh.setCur (s.sh.curHi % 2 ^ 63) s.sh.curLo }
    (let n := (s.sh.srcB b).toNat
     let c := cctl 2 0 res y pp [d.val]
     let i : Instr := if res then .cres h 2 0 d a b e y pp else .cld h d a b y pp
     let i0 := (cbegin s.sh c 0).1
     ColChecks i s c [] true (
       (n ≠ 0 → base % col.size ≠ 0 → Faults i s (flt 0x04 3 true)) ∧
       (n = 0 → EmptyCol i s [] c 0) ∧
       (base % col.size = 0 → n ≠ 0 → (cbegin s.sh c 0).2.1 = 0 → ∀ L : Nat → Loc,
         let got : Nat → List Nat := fun p => [s.mem.readLe (L p).key col.size]
         let finds : Nat → Chk → Prop := fun p r => ∀ q, let u : State := { z i with co := { (z i).co with qNS := q } }
           check u u.who (at' col.size p) col.size .read false true = (u, r)
         let passes : Nat → Prop := fun m => ∀ p, i0 ≤ p → p < m → finds p (.ok (L p)) ∧
           s.co.coversSpan (L p).key ((L p).key + col.size) = false ∧
           ((L p).key + col.size ≤ colKey s col 0 / 64 * 64 ∨ (colKey s col col.cap + 63) / 64 * 64 ≤ (L p).key)
         let places : Nat → List Nat := fun m => (List.range m).filter (fun p => i0 ≤ p)
         (passes n → Emits i s [] c 0 ((places n).map (fun p => (got p, p, 0))) 0) ∧
         (∀ m x f lv, i0 ≤ m → m < n → passes m → finds m (.bad x f lv) → FailsAt i s c ((places m).map got) 0
           { flt x f true with va := at' col.size m, index := m, level := lv } (m, 0))))) ∧
    (let chain : Instr → CCtl → Nat → List Col → (State → Nat → Nat) → (Nat → State → Loc → Option Core) → (State → Prop) → Prop :=
         fun i c len ins ea put Q => (cbegin s.sh c 0).1 ≤ len → ∀ σ : Nat → State, σ (cbegin s.sh c 0).1 = z i →
         (∀ p, (cbegin s.sh c 0).1 ≤ p → p < len → (σ p).poison = [] ∧
           (∀ q ∈ ins, (σ p).co.coversSpan (colKey (σ p) q p) (colKey (σ p) q p + q.size) = false) ∧
           ∃ u l co, check (σ p) (σ p).who (ea (σ p) p) col.size .write false true = (u, .ok l) ∧
             (k ≠ .swap → i = .cscat h k d a b y → poisonHit u l.key col.size = false) ∧
             put ((σ p).colElem col p) u l = some co ∧ σ (p + 1) = { u with co := co }) →
         Q (σ len)
     let ends : Instr → Nat → State → Prop := fun i len v => Does i s [.x, .lane, .ccur, .xlats, .mem, .marks] (fun t =>
       t.sh.x = (s.sh.xset y (BitVec.ofNat 64 len)).x ∧ t.sh.ccur = (s.sh.setCur (s.sh.curHi % 2 ^ 63) s.sh.curLo).ccur ∧ t.mem = v.mem ∧
       ∀ q, t.co.queue q = v.co.queue q)
     let ps := s.sh.col b.val
     let st : Instr := .cldSt h d a y
     let sc : Instr := .cscat h k d a b y
     let c1 := cctl 2 1 false y 63 []
     let c2 := cctl 6 k.code false y 63 []
     ColChecks st s c1 [(d.val, false)] true (
       (col.len ≠ 0 → base % col.size ≠ 0 → Faults st s (flt 0x04 3 true)) ∧
       (col.len = 0 → Does st s [.x] (fun t => t.sh.x = (s.sh.xset y 0).x)) ∧
       (col.len ≠ 0 → base % col.size = 0 →
         chain st c1 col.len [col] (fun _ => at' col.size) (fun v u l => u.co.plain l.key (leBytes col.size v) false (byX u)) (ends st col.len))) ∧
     ColChecks sc s c2 [(d.val, false), (b.val, false)] (ps.et == .n32 && scatType k col.et) (
       (col.len = 0 → Does sc s [.x] (fun t => t.sh.x = (s.sh.xset y 0).x)) ∧
       (let put : Nat → State → Loc → Option Core := fun v u l =>
          if k = .swap then u.co.plain l.key (leBytes col.size v) false (byX u) else u.co.red l.key col.size k (BitVec.ofNat 64 v) (byX u)
        let goes : Nat → (State → Prop) → Prop := fun len Q => chain sc c2 len [col, ps] (fun u p => at' col.size (u.colElem ps p)) put Q
        (col.len ≠ 0 → col.len ≤ ps.len → goes col.len (ends sc col.len)) ∧
        (ps.len < col.len → goes ps.len (fun v => ∃ u, exec sc s = faultX { flt 0x04 8 true with index := ps.len } u ∧ u.sh.xq = s.sh.xq ∧
          Only [.lane, .ccur, .xlats, .mem, .marks] s u ∧ u.sh.ccur = (s.sh.setCur (curWord false 6 k.code ps.len 0) s.sh.curLo).ccur ∧
          u.mem = v.mem ∧ ∀ q, u.co.queue q = v.co.queue q))))) ∧
    (let t := s.sh
     let c := cctl 14 1 res y pp [d.val]
     let i : Instr := if res then .cres h 14 1 d a b e y pp else .cvecApp h d a y pp
     let i0 := (cbegin s.sh c col.len).1
     let acts := (t.actives h).filter (fun j => i0 ≤ j)
     aligned a t.grp = true → t.vpoison = [] → ColChecks i s c [] (t.et.bits == col.et.bits) (
       (t.actives h = [] → EmptyCol i s [.vstart] c col.len) ∧
       (t.actives h ≠ [] → (cbegin s.sh c col.len).2.1 = 0 → Emits i s [.vstart] c col.len
         ((List.range acts.length).map (fun q => ([t.elem a.val (acts.getD q 0) t.et], acts.getD q 0, 0))) 0)))

/-- csel, cselp, cgath, cgrp, cuniq, cagg and their cres. Each of these, and the cres that continues it, makes the checks of R196, and puts
its values into its output column, through the near queue, from where its cursor has it begin: csel the positions whose element meets a
condition, cselp those of a position column whose element does, cgath the elements at the positions of a column, cgrp and cuniq.p the
first position of every run of equal keys, cuniq its key, cagg an aggregate of every group. At a position beyond its column, a key that
decreases or a group that R215 refuses each stops, ALIGN 8 or UNSORTED, with what it has put out before. A cres whose fields name no stop
cursor faults with COLCAP 5. It rests on the choices of the model in log entries 23, 49, 55, 56, 57 and 111. -/
def Obligations.ColumnSelections : Prop :=
  ∀ (h : Hd) (k : VCond) (g : AggK) (cc pos sat res : Bool) (o f : BitVec 4) (d a b e y pp : Fin 64) (s : State),
    let ca := s.sh.col a.val
    let cb := s.sh.col b.val
    let cd := s.sh.col d.val
    let A := s.colElem ca
    let B := s.colElem cb
    let code : Nat → BitVec 4 := BitVec.ofNat 4
    let cres : BitVec 4 → Nat → Instr := fun op fn => .cres h op (code fn) d a b e y pp
    let given : Instr → CCtl → Nat → (Nat → List (List Nat × Nat × Nat)) → (Nat → Nat) → Prop := fun i c drive vals fl =>
      let i0 := (cbegin s.sh c 0).1
      (drive = 0 → EmptyCol i s [] c 0) ∧ (drive ≠ 0 → (cbegin s.sh c 0).2.1 = 0 → Emits i s [] c 0 (vals i0) (fl i0))
    let places : Nat → (Nat → Bool) → (Nat → Nat) → Nat → List (List Nat × Nat × Nat) := fun m ok v i0 =>
      ((List.range m).filter (fun p => i0 ≤ p ∧ ok p = true)).map (fun p => ([v p], p, 0))
    let flagsFrom : Nat → (Nat → Nat) → Nat → Nat := fun m fl i0 => ((List.range m).filter (fun p => i0 ≤ p)).foldr (fun p g => g ||| fl p) 0
    let inA : Nat → Prop := fun m => ∀ p, p < m → B p < ca.len
    let stops : Instr → CCtl → (Nat → List (List Nat × Nat × Nat)) → (Nat → Nat) → Flt → Nat → Prop := fun i c vals fl f m =>
      let i0 := (cbegin s.sh c 0).1
      (cbegin s.sh c 0).2.1 = 0 → i0 ≤ m → FailsAt i s c ((vals i0).map Prod.fst) (fl i0) { f with index := m } (m, 0)
    (let m := if cc then min ca.len cb.len else ca.len
     let r : Nat → Bool × Nat := fun p => cond k ca.et (A p) (if cc then B p else (s.sh.srcB b).toNat % 2 ^ ca.et.bits)
     let c := cctl 3 (cselFn k cc) res y pp [d.val]
     let ins := if cc then [(a.val, true), (b.val, true)] else [(a.val, true)]
     let i := if res then cres 3 (cselFn k cc) else .csel h k cc d a b y pp
     ColChecks i s c ins (cd.et == .n32 && (!cc || ca.et == cb.et))
       (given i c ca.len (places m (fun p => (r p).1) id) (flagsFrom m (fun p => (r p).2)))) ∧
    (let r : Nat → Bool × Nat := fun p => cond k ca.et (A (B p)) ((s.sh.srcC e).toNat % 2 ^ ca.et.bits)
     let c := cctl 4 k.code res y pp [d.val]
     let i := if res then cres 4 k.code else .cselp h k d a b e y pp
     ColChecks i s c [(a.val, false), (b.val, true)] (cd.et == .n32 && cb.et == .n32)
       ((inA cb.len → given i c cb.len (places cb.len (fun p => (r p).1) B) (flagsFrom cb.len (fun p => (r p).2))) ∧
        ∀ m, m < cb.len → inA m → ca.len ≤ B m → stops i c (places m (fun p => (r p).1) B) (flagsFrom m (fun p => (r p).2)) (flt 0x04 8 true) m)) ∧
    (let c := cctl 5 0 res y pp [d.val]
     let i := if res then cres 5 0 else .cgath h d a b y pp
     ColChecks i s c [(a.val, false), (b.val, true)] (cd.et == ca.et && cb.et == .n32)
       ((inA cb.len → given i c cb.len (places cb.len (fun _ => true) (fun p => A (B p))) (fun _ => 0)) ∧
        ∀ m, m < cb.len → inA m → ca.len ≤ B m → stops i c (places m (fun _ => true) (fun p => A (B p))) (fun _ => 0) (flt 0x04 8 true) m)) ∧
    (let sorted : Nat → Prop := fun m => ∀ p, p + 1 < m → ca.key (A p) ≤ ca.key (A (p + 1))
     let falls : Nat → Prop := fun m => 0 < m ∧ m < ca.len ∧ sorted m ∧ ca.key (A m) < ca.key (A (m - 1))
     let first : Nat → Bool := fun p => p == 0 || A p != A (p - 1)
     let grp := cctl 9 0 res y pp [d.val]
     let uni := cctl 11 pos.toNat res y pp [d.val]
     let i := if res then cres 9 0 else .cgrp h d a y pp
     let j := if res then cres 11 pos.toNat else .cuniq h pos d a y pp
     ColChecks i s grp [(a.val, true)] (ca.et.isInt && cd.et == .n32) ((sorted ca.len → given i grp ca.len (places ca.len first id) (fun _ => 0)) ∧
       ∀ m, falls m → stops i grp (places m first id) (fun _ => 0) (flt 0x06 2 true) m) ∧
     ColChecks j s uni [(a.val, true)] (ca.et.isInt && cd.et == (if pos then .n32 else ca.et))
       ((sorted ca.len → given j uni ca.len (places ca.len first (if pos then id else A)) (fun _ => 0)) ∧
        ∀ m, falls m → stops j uni (places m first (if pos then id else A)) (fun _ => 0) (flt 0x06 2 true) m)) ∧
    (let rising := (∀ p, p < cb.len → B p < ca.len) ∧ ∀ p, p + 1 < cb.len → B p < B (p + 1)
     let wrong : Nat → Prop := fun p => ca.len ≤ B p ∨ 0 < p ∧ B p ≤ B (p - 1) ∨ p + 1 < cb.len ∧ (B (p + 1) ≤ B p ∨ ca.len ≤ B (p + 1))
     let upTo : Nat → Nat := fun p => if p + 1 < cb.len then B (p + 1) else ca.len
     let v : Nat → Nat × Nat := fun p => aggVal g sat cd.et ca.et (upTo p - B p)
       (if g = .cnt then [] else (List.range (upTo p - B p)).map (fun q => A (B p + q)))
     let c := cctl 10 (g.code + 8 * sat.toNat) res y pp [d.val]
     let i := if res then cres 10 (g.code + 8 * sat.toNat) else .cagg h g sat d a b y pp
     ColChecks i s c (if g = .cnt then [(b.val, false)] else [(a.val, false), (b.val, false)]) (cb.et == .n32 && aggType g sat cd.et ca.et)
       ((rising → given i c cb.len (places cb.len (fun _ => true) (fun p => (v p).1)) (flagsFrom cb.len (fun p => (v p).2))) ∧
        ∀ m, m < cb.len → wrong m → (∀ p, p < m → ¬ wrong p) →
          stops i c (places m (fun _ => true) (fun p => (v p).1)) (flagsFrom m (fun p => (v p).2)) (flt 0x06 3 true) m)) ∧
    (let i : Instr := .cres h o f d a b e y pp
     XReady i s → curIs s.sh.curLo o.toNat f.toNat = false → Faults i s (flt 0x07 5 true))

/-- cjoin joins two sorted key columns and csort sorts one. From fresh cursors a ready cjoin of two sorted key columns, or its cres, puts out
the pairs of positions with equal keys in order (inner), the left positions with a match (semi) or without one (anti). It stops with
UNSORTED at the first left position (detail 0) or right one (detail 1) it consumes that is less than the one before, with what it has put
out till then and the cursor there. A ready csort puts the positions, or the keys, of a column in ascending or descending order, equal
keys in the order they stood, given room, scratch and a near queue that takes them; once that queue has performed, all memory but its
output and its scratch is as before. It rests on the choices of the model in log entries 23, 49, 55, 56, 57, 111 and 130. -/
def Obligations.ColumnOrder : Prop :=
  ∀ (h : Hd) (k : JoinK) (res p dn : Bool) (d a b e y pp : Fin 64) (s : State),
    let ca := s.sh.col a.val
    let cb := s.sh.col b.val
    let cd := s.sh.col d.val
    let L : Nat → Int := fun q => ca.key (s.colElem ca q)
    let R : Nat → Int := fun q => cb.key (s.colElem cb q)
    (let outs := if k = .inner then [d.val, d.val + 1] else [d.val]
     let c := cctl 7 k.code res y pp outs
     let i : Instr := if res then .cres h 7 (BitVec.ofNat 4 k.code) d a b e y pp else .cjoin h k d a b y pp
     let below : Nat → Nat := fun q => ((List.range cb.len).filter (fun j => R j < L q)).length
     let has : Nat → Bool := fun q => (List.range cb.len).any (fun j => R j == L q)
     let vals : List (List Nat × Nat × Nat) := match k with
       | .inner => (List.range ca.len).flatMap (fun q => ((List.range cb.len).filter (fun j => R j = L q)).map (fun j => ([q, j], q, j)))
       | .semi => ((List.range ca.len).filter has).map (fun q => ([q], q, below q))
       | .anti => ((List.range ca.len).filter (fun q => !has q)).map (fun q => ([q], q, below q))
     ColChecks i s c [(a.val, false), (b.val, false)] (ca.et.isInt && ca.et == cb.et && outs.all (fun o => (s.sh.col o).et == .n32)) (
       (ca.len = 0 → EmptyCol i s [] c 0) ∧
       (ca.len ≠ 0 → cbegin s.sh c 0 = (0, 0, 0) → (∀ q, q + 1 < ca.len → L q ≤ L (q + 1)) → (∀ q, q + 1 < cb.len → R q ≤ R (q + 1)) →
         Emits i s [] c 0 vals 0) ∧
       (let up : (Nat → Int) → Nat → Prop := fun f m => ∀ q, q + 1 < m → f q ≤ f (q + 1)
        let seen : Nat → Nat → List (List Nat) := fun n m =>
          let hit : Nat → Bool := fun q => (List.range m).any (fun j => R j == L q)
          match k with
          | .inner => (List.range n).flatMap (fun q => ((List.range m).filter (fun j => R j = L q)).map (fun j => [q, j]))
          | .semi => ((List.range n).filter hit).map (fun q => [q])
          | .anti => ((List.range n).filter (fun q => !hit q)).map (fun q => [q])
        ca.len ≠ 0 → cbegin s.sh c 0 = (0, 0, 0) → ∀ p q : Nat,
          (0 < p → p < ca.len → up L p → L p < L (p - 1) → q ≤ cb.len → up R q →
            (∀ j, j < q → R j < L (p - 1) ∨ k = .inner ∧ R j = L (p - 1)) →
            (if q = cb.len then k = .anti else L (p - 1) < R q ∨ k ≠ .inner ∧ R q = L (p - 1) ∨
              k = .inner ∧ 0 < q ∧ R (q - 1) = L (p - 1) ∧ R q < L (p - 1) ∧ L p ≤ R q) →
            FailsAt i s c (seen p (if k = .inner then q else min (q + 1) cb.len)) 0 { flt 0x06 0 true with index := p } (p, q)) ∧
          (0 < q → q < cb.len → up R q → R q < R (q - 1) → p < ca.len → up L p → (∀ j, j < p → L j ≤ R (q - 1)) →
            R (q - 1) < L p ∨ k = .inner ∧ 0 < p ∧ L (p - 1) = R (q - 1) ∧ L p ≠ R (q - 1) ∧ R q < L p →
            FailsAt i s c (seen p q) 0 { flt 0x06 1 true with index := q } (p, q))))) ∧
    (let n := ca.len
     let i : Instr := .csort h p dn d a y
     let c := cctl 8 (p.toNat + 2 * dn.toNat) false y 63 [d.val]
     let scratch := arenaScratch s.sh.arena
     let top := arenaBase s.sh.arena + arenaSize s.sh.arena
     let room := n ≤ cd.cap ∧ (n * (ca.et.bits + 32) + 511) / 512 * 64 ≤ scratch
     ColChecks i s c [(a.val, !p)] (ca.et.isInt && cd.et == (if p then .n32 else ca.et)) (
       (¬ room → Faults i s (flt 0x07 1 true)) ∧
       (room → n = 0 → EmptyCol i s [] { c with pp := 63 } 0) ∧
       (room → n ≠ 0 → ∃ order : List Nat, order.Perm (List.range n) ∧
         order.Pairwise (fun q r => (if dn then L r < L q else L q < L r) ∨ L q = L r ∧ q < r) ∧
         (let out : Nat → Nat := fun q => if p then q else s.colElem ca q
          (s.putAll [cd] 0 (order.map (fun q => [out q]))).isSome = true →
          Does i s [.c, .x, .lane, .ccur, .mem, .others] (fun t => t.sh.c = (s.sh.setLen d.val n).c ∧ t.sh.x = (s.sh.xset y (BitVec.ofNat 64 n)).x ∧
           t.sh.ccur = (s.sh.setCur (s.sh.curHi % 2 ^ 63) s.sh.curLo).ccur ∧
           (∀ q, q < n → t.nearDone.colElem cd q = out (order.getD q 0) % 2 ^ (8 * cd.size)) ∧
           (∀ x, (x < colKey s cd 0 ∨ colKey s cd n ≤ x) → (x < nearKey s.co.id (top - scratch) ∨ nearKey s.co.id top ≤ x) →
             t.nearDone.mem.read x = s.mem.read x))))))

/-- xco configures the reed, xnext gives the next coordinates, and xcur holds the place. A ready xco whose descriptor is aligned to 64, lies
in the pads, passes its check and meets the limits of R237 sets the descriptor and a fresh cursor; misaligned or unfit it raises ALIGN 3,
outside the pads PERM 9. A ready xnext writes, to lane after lane of four registers, the row, the column and both positions of the next
surviving coordinates of two rising streams, those both hold, either holds or the first holds, all ones beyond the last, and their number
to X[b]; the cursor goes on past the last one and is done when none remains. A stream whose next coordinate does not come after the one
before it, consumed, ends it with UNSORTED, detail 4, the cursor there and nothing written. Without a cursor, or with a done one, it
writes 0. xcur is read, written and cleared. It rests on the choices of the model in log entries 49 and 125. -/
def Obligations.Reed : Prop :=
  ∀ (h : Hd) (m : ReedM) (d a b : Fin 64) (s : State),
    let ea := (s.sh.srcA a).toNat
    let co : Instr := .xco h m a
    let nx : Instr := .xnext h d b
    let gets : Instr → Word → Prop := fun i v => XReady i s → Does i s [.x] (fun t => t.sh.x = (s.sh.xset d v).x)
    let lo := s.sh.xcur.extractLsb' 0 64
    let hi := s.sh.xcur.extractLsb' 64 64
    let xcurIs : State → Bool → Nat → Bool → Nat → Nat → Nat → Prop := fun t v mode dn row col cnt =>
      t.sh.xcurV = v ∧ t.sh.xcurMode = mode ∧ t.sh.xcurDone = dn ∧ t.sh.xcurRow = row ∧ t.sh.xcurCol = col ∧ t.sh.xcurCnt = cnt
    (XReady co s →
      (ea % 64 ≠ 0 → Faults co s { flt 0x04 3 true with va := ea }) ∧
      (ea % 64 = 0 → inPads ea = false → Faults co s { flt 0x03 9 true with va := ea }) ∧
      (∀ l, ea % 64 = 0 → inPads ea = true → check (s.atIssue co) s.who ea 64 .read false true = (s.atIssue co, .ok l) →
        let desc := s.mem.readN l.key 64
        (s.co.coversSpan l.key (l.key + 64) = true → Awaits co s .other) ∧
        (s.co.coversSpan l.key (l.key + 64) = false → reedOk m desc = false → Faults co s { flt 0x04 3 true with va := ea }) ∧
        (s.co.coversSpan l.key (l.key + 64) = false → reedOk m desc = true → Does co s [.reed, .xcur] (fun t =>
          t.sh.reed = desc.mapIdx (fun k v => if k % 32 = 7 then v &&& 0xC0 else if k % 32 = 15 ∨ 24 ≤ k % 32 then 0 else v) ∧
          xcurIs t (m != .none) m.code false 0 0 0)))) ∧
    (XReady nx s → d.val % 4 ≠ 0 → Faults nx s (flt 0x04 1 true)) ∧
    (d.val % 4 = 0 → s.sh.xcurV = false ∨ s.sh.xcurDone = true → XReady nx s → Does nx s [.x] (fun t => t.sh.x = (s.sh.xset b 0).x)) ∧
    (d.val % 4 = 0 → s.sh.xcurV = true → s.sh.xcurDone = false → s.sh.lanes ≤ 32 → XReady nx s →
      let ta := Stream.ofBytes s.sh.reed 0
      let tb := Stream.ofBytes s.sh.reed 32
      let mode := s.sh.xcurMode
      let n := s.sh.lanes
      let z := s.atIssue nx
      ∀ (na nb : Nat) (A B : List (Nat × Nat × Nat)) (S : List Surv), mode ≠ 3 → na ≤ ta.fuel → nb ≤ tb.fuel →
        ta.listed z na (ta.start s.sh.xcurRow) = some A → (if mode = 2 then B = [] else tb.listed z nb (tb.start s.sh.xcurRow) = some B) →
        Rising A → Rising B → (∀ v ∈ A ++ B, v.1 < 2 ^ 32 ∧ v.2.1 < 2 ^ 32 ∧ v.2.2 < 2 ^ 32) →
        S.Pairwise (fun v w => cLt v.1 v.2.1 w.1 w.2.1 = true) →
        (∀ r c pa pb, (r, c, pa, pb) ∈ S ↔ cLt r c s.sh.xcurRow s.sh.xcurCol = false ∧ pa = posOf A r c ∧ pb = posOf B r c ∧
          (if mode = 0 then pa ≠ none ∧ pb ≠ none else pa ≠ none ∨ pb ≠ none)) →
        let out := S.take n
        let lane : State → Nat → Nat → Nat := fun t k j => bitsAt (t.sh.vreg (d.val + k)).toNat (512 * j) 32
        let ones := 2 ^ 32 - 1
        Does nx s [.x, .v, .xcur] (fun t => t.sh.x = (s.sh.xset b (BitVec.ofNat 64 out.length)).x ∧
          (∀ j, j < n → match out[j]? with
            | some (r, c, pa, pb) => lane t 0 j = r ∧ lane t 1 j = c ∧ lane t 2 j = pa.getD ones ∧ lane t 3 j = pb.getD ones
            | none => ∀ k, k < 4 → lane t k j = ones) ∧
          (∀ k q, k < 4 → 32 ≤ q % 512 ∨ 512 * n ≤ q → (t.sh.vreg (d.val + k)).getLsbD q = (s.sh.vreg (d.val + k)).getLsbD q) ∧
          (∀ r, r < d.val ∨ d.val + 4 ≤ r → t.sh.vreg r = s.sh.vreg r) ∧
          t.sh.xcurV = true ∧ t.sh.xcurMode = mode ∧ t.sh.xcurDone = decide (S.length ≤ n) ∧
          t.sh.xcurCnt = (s.sh.xcurCnt + out.length) % 2 ^ 32 ∧
          (∀ r c pa pb, out.getLast? = some (r, c, pa, pb) → c + 1 < 2 ^ 32 → t.sh.xcurRow = r ∧ t.sh.xcurCol = c + 1))) ∧
    (d.val % 4 = 0 → s.sh.xcurV = true → s.sh.xcurDone = false → s.sh.lanes ≤ 32 → XReady nx s →
      let ta := Stream.ofBytes s.sh.reed 0
      let tb := Stream.ofBytes s.sh.reed 32
      let mode := s.sh.xcurMode
      let z := s.atIssue nx
      ∀ (na nb : Nat) (A B A1 B1 : List (Nat × Nat × Nat)) (S : List Surv) (r c lr lc : Nat), mode ≠ 3 → na ≤ ta.fuel → nb ≤ tb.fuel →
        ta.listed z na (ta.start s.sh.xcurRow) = some A → (if mode = 2 then B = [] else tb.listed z nb (tb.start s.sh.xcurRow) = some B) →
        Rising A1 → Rising B1 → (∀ v ∈ A ++ B, v.1 < 2 ^ 32 ∧ v.2.1 < 2 ^ 32 ∧ v.2.2 < 2 ^ 32) →
        S.Pairwise (fun v w => cLt v.1 v.2.1 w.1 w.2.1 = true) →
        (∀ r' c' pa pb, (r', c', pa, pb) ∈ S ↔ cLt r' c' s.sh.xcurRow s.sh.xcurCol = false ∧ cLt lr lc r' c' = false ∧ pa = posOf A1 r' c' ∧
          pb = posOf B1 r' c' ∧ (if mode = 0 then pa ≠ none ∧ pb ≠ none else pa ≠ none ∨ pb ≠ none)) →
        S.length < s.sh.lanes → cLt r c s.sh.xcurRow s.sh.xcurCol = false → cLt lr lc r c = false →
        ((∃ p l v, A = A1 ++ (r, c, p) :: l ∧ A1.getLast? = some (lr, lc, v)) ∧ B = B1 ∧ (mode = 0 → ∃ v ∈ B, cLt v.1 v.2.1 lr lc = false) ∨
         mode ≠ 2 ∧ (∃ p l v, B = B1 ++ (r, c, p) :: l ∧ B1.getLast? = some (lr, lc, v)) ∧ A = A1 ∧ (mode = 0 → ∃ v ∈ A, cLt lr lc v.1 v.2.1 = true)) →
        ∃ u, exec nx s = faultX (flt 0x06 4 true) u ∧ u.sh.xq = s.sh.xq ∧ u.sh.nX = s.sh.nX ∧ Only [.xcur] s u ∧
          xcurIs u true mode false r c s.sh.xcurCnt) ∧
    gets (.xcurRdl h d) lo ∧ gets (.xcurRdh h d) hi ∧
    (XReady (.xcurWrl h a) s → Does (.xcurWrl h a) s [.xcur] (fun t => t.sh.xcur = hi ++ s.sh.srcA a)) ∧
    (XReady (.xcurWrh h a) s → Does (.xcurWrh h a) s [.xcur] (fun t => t.sh.xcur = (s.sh.srcA a ++ lo) &&& xcurMask)) ∧
    (XReady (.xcurClr h) s → Does (.xcurClr h) s [.xcur] (fun t => xcurIs t s.sh.xcurV s.sh.xcurMode false 0 0 0))

/-- Halting, stepping, breakpoints and the view of a halted core, and the steps of a core no word names. A debug request whose session is not
bound to the partition, or that comes before firmware runs, is answered with status 2, one with a word that must be zero, or for a core
that is not the partition's, with status 1, one for a free partition with status 4; what a request does comes with status 0. DEBUG_HALT
attaches a debugger and halts a core that runs a record, of one that runs none it changes nothing, its registers as they stand, at once or
once what has issued has completed; DEBUG_RESUME lets a halted one go on past its breakpoints; STEP_A and STEP_X let one pipe do an
instruction; BP sets or clears a comparator; BP_HIT halts a running shuttle's core at one. DEBUG_READ answers with at most 7 words of the
view and DEBUG_WRITE writes one; they, resuming and stepping are refused with status 4 on a core that is not halted; a word of the near
grant is the memory there, and a word of the live frame is the register it shows: a write to one gives each scalar, predicate, vector and
column register, loop counter and record, the arena word, apc and each state register the bits it keeps, and nothing else of a shuttle
that a write to x0's word leaves as it is, with its X queue and its poisoned words as the machine keeps them; so a write to a word of a
granted tile, or to the word of a tile entry. QUEUE_DEADLOCK raises SCHED 3 at the X-pipe when the A-pipe waits for the X-pipe, the X-pipe
for a queue or an unfed operand FIFO, and nothing issued is in flight. TRANSLATION_WALK, for a partition that is active or stopping,
installs the translation of an address when its tables permit the access, sets the leaf's dirty bit for a write, and does nothing else,
nor anything where a table it reads lies in die scratchpad no window of the partition with a loaded key reaches; for a fetch it waits for
writes into the page, scans it, and installs the translation or refuses the page, which stays refused. It rests on the choices of the
model in log entries 82, 84, 109 and 112. -/
def Obligations.Debugger : Prop :=
  ∀ (k : Fin 4) (addr off n : Nat) (val : Word) (pid va : Nat) (acc : Acc) (fb : Bool) (s : State),
    let stands := s.sh.endDue = none ∧ ∃ b ∈ s.co.bps, b.2 = s.sh.apc.toNat
    let here := stands ∧ s.sh.pos ∉ s.co.bpPass
    let said : State → Nat → List Word → State := fun t st ws => { t with out := t.out ++ [.answer s.dreq.session
      (BitVec.ofNat 64 (0x60 * 2 ^ 56 + s.dreq.part % 2 ^ 8 * 2 ^ 48 + st * 2 ^ 40 + s.dreq.id % 2 ^ 32) :: (List.range 7).map (fun j => ws.getD j 0))] }
    let bound := 6 ≤ s.bootStep ∧ ∃ x ∈ s.sessions, x.id = s.dreq.session ∧ (x.scope = s.dreq.part ∨ x.scope = 256)
    let formed := (s.dreq.args.drop 7).all (· == 0) = true
    let has : Part → Prop := fun p => ∃ u ∈ p.uses, u.die = s.co.id / 16 ∧ u.cores.getLsbD (s.co.id % 16) = true
    let answered : Nat → Prop := fun st => ∀ i ∈ [Instr.debugHalt, .debugResume, .stepA, .stepX, .bp k (some addr), .bp k none, .debugRead off n,
      .debugWrite off val], exec i s = .next (said s st [])
    let asked := bound ∧ formed ∧ ∃ p, s.part? s.dreq.part = some p ∧ has p
    let halted : State → Prop := fun t => if coreReturning s then t.co.haltDue = true ∧ t.co.halted = s.co.halted ∧ t.sh = s.sh ∧ Only [] s t
      else t.co.halted = true ∧ t.co.haltDue = false ∧ t.sh.apc = s.sh.apc ∧ t.sh.xq = s.sh.xq ∧ Only [.vstart, .flags, .c, .ccur] s t
    let co : Core → State := fun c => { s with co := c }
    let view := 524288 * s.sh.lanes * s.sh.pos + 8192 * s.sh.lanes + 8 * off
    let key := nearKey s.co.id (s.sh.pos * s.sh.lanes * 49152 + 8 * off)
    let mine := (s.sh.pos + 1) * s.sh.lanes ≤ 32 ∧ 8 * off + 8 ≤ s.sh.nearLen ∧ s.sh.nearLen ≤ 49152 * s.sh.lanes
    (¬ bound → answered 2) ∧ (bound → ¬ formed → answered 1) ∧ (bound → formed → s.part? s.dreq.part = none → answered 4) ∧
    (∀ p, bound → formed → s.part? s.dreq.part = some p → ¬ has p → answered 1) ∧
    (asked → s.co.recId ≠ none → ∃ t, exec .debugHalt s = .next (said t 0 []) ∧ t.co.dbg = true ∧ halted t) ∧
    (asked → s.co.recId = none → exec .debugHalt s = .next (said s 0 [])) ∧
    (asked → s.co.halted = false → ∀ i ∈ [Instr.debugResume, .stepA, .stepX, .debugRead off n, .debugWrite off val], exec i s = .next (said s 4 [])) ∧
    (asked → s.co.halted = true → ∃ t, exec .debugResume s = .next (said t 0 []) ∧ t.co.halted = false ∧ t.co.stepping = none ∧
      t.sh = { s.sh with aWait := .none, xWait := .none } ∧ Only [] s t ∧ (stands → s.sh.pos ∈ t.co.bpPass)) ∧
    (asked → s.co.halted = true → s.sh.status = .running → exec .stepA s = .next (said (co { s.co with stepping := some (s.sh.pos, false) }) 0 []) ∧
      exec .stepX s = .next (said (co { s.co with stepping := some (s.sh.pos, true) }) 0 [])) ∧
    (asked → s.co.halted = true → s.sh.status ≠ .running → exec .stepA s = .next (said s 4 []) ∧ exec .stepX s = .next (said s 4 [])) ∧
    (s.sh.status = .running → s.co.halted = false → here → s.co.recId ≠ none → ∃ t, exec .bpHit s = .next t ∧ t.co.dbg = s.co.dbg ∧ halted t) ∧
    (s.sh.status ≠ .running ∨ s.co.halted = true ∨ ¬ here → exec .bpHit s = .next s) ∧
    (asked → s.co.recId = none → exec (.bp k (some addr)) s = .next (said s 0 []) ∧ exec (.bp k none) s = .next (said s 0 [])) ∧
    (asked → s.co.recId ≠ none → ∀ a : Option Nat, ∃ t, exec (.bp k a) s = .next (said t 0 []) ∧ t.sh = s.sh ∧ Only [] s t ∧ t.co.dbg = true ∧
      afind? t.co.bps k.val = a ∧ ∀ j, j ≠ k.val → afind? t.co.bps j = afind? s.co.bps j) ∧
    (asked → s.co.halted = true → exec (.debugRead off n) s = .next (if 7 < n then said s 1 [] else
      said s 0 ((List.range n).map (fun j => BitVec.ofNat 64 (viewWord s (off / 8 * 8 + 8 * j)))))) ∧
    (mine → viewWord s view = s.mem.readLe key 8) ∧
    (asked → mine → s.co.halted = true → s.mem.wf = true → ∃ t, exec (.debugWrite view val) s = .next (said t 0 []) ∧
      ((∀ l ∈ s.latent, l + 64 ≤ key / 64 * 64 ∨ key / 64 * 64 + 64 ≤ l) → t.sh = s.sh ∧ Only [.mem] s t) ∧
      t.mem.readLe key 8 = val.toNat ∧ ∀ a, a < key ∨ key + 8 ≤ a → t.mem.read a = s.mem.read a) ∧
    (let L := s.sh.lanes
     let puts : Nat → Out3 := fun o => exec (.debugWrite (524288 * L * s.sh.pos + o) val) s
     let entries : State → List (Instr × Nat × Opnd × Opnd × Opnd × Opnd) := fun t => t.sh.xq.map (fun e => (e.instr, e.addr, e.opA, e.opB, e.opC, e.opD))
     let sets : Nat → List Piece → (Shuttle → Prop) → Prop := fun o l P => ∃ t, puts o = .next (said t 0 []) ∧ Only l s t ∧ entries t = entries s ∧ P t.sh
     asked → s.co.halted = true → s.sh.status ≠ .absent → L ∈ [4, 8, 16, 32] → (s.sh.pos + 1) * L ≤ 32 →
      (sets 0x200 [] (fun _ => True) → (∀ e ∈ s.sh.xq, decode (encode e.instr) = some e.instr ∧ e.instr.kind = .xClass ∧ scanWord s.feature (encode e.instr) = none) →
        (∀ n ∈ s.sh.xpois, n < 64) → (∀ q ∈ s.sh.ppois, q.1 < 48 ∧ q.2 < 8) → (∀ q ∈ s.sh.rqPois, 6 ≤ q.1 ∧ q.1 < 8 ∧ q.2 < 8) →
        (∀ k : Fin 6, ∀ e ∈ s.sh.dq[k], ∀ w ∈ e.pois, w < 2 * L) →
        (∀ n : Fin 64, n ≠ 0 → sets (0x200 + 8 * n.val) [.x] (fun t => ∀ q : Fin 64, t.xget q = if q = n then val else s.sh.xget q)) ∧
        (∀ (n : Fin 48) (b : Nat), b < 8 → sets (0x400 + 64 * n.val + 8 * b) [.p] (fun t => ∀ (q : Fin 48) (c : Nat), c < 8 →
          (t.p[q]).extractLsb' (64 * c) 64 = if q = n ∧ c = b then val else (s.sh.p[q]).extractLsb' (64 * c) 64)) ∧
        (∀ (n : Fin 64) (b : Nat), b < 8 * L → sets (0x2100 + 1536 * L + n.val * L * 64 + 8 * b) [.v] (fun t => ∀ (q : Fin 64) (c : Nat), c < 8 * L →
          (t.v[q]).extractLsb' (64 * c) 64 = if q = n ∧ c = b then val else (s.sh.v[q]).extractLsb' (64 * c) 64)) ∧
        (∀ n : Fin 16, sets (0xD8 + 8 * n.val) [.c] (fun t => ∀ q : Fin 16, t.c[q] = if q = n then val &&& 0xF0FFFFFFFFFFFFFF else s.sh.c[q])) ∧
        sets 0x8 [] (fun t => t.apc = BitVec.ofNat 56 val.toNat ∧ t.endDue = none) ∧
        sets 0x18 [.vset] (fun t => t.vlen = BitVec.ofNat 13 val.toNat ∧ t.vtype = s.sh.vtype) ∧
        sets 0x20 [.vset] (fun t => t.vlen = s.sh.vlen ∧ t.vtype = val &&& 0xFF300F) ∧
        sets 0x28 [.vstart] (fun t => t.vstart = BitVec.ofNat 13 val.toNat) ∧ sets 0x30 [.redst] (fun t => t.redst = val) ∧
        sets 0x38 [.fill] (fun t => t.fill = val) ∧
        sets 0x40 [.flags, .rounding] (fun t => t.sat = val.getLsbD 0 ∧ t.fflags = val.extractLsb' 8 5 ∧ t.rnd = val.extractLsb' 16 2 ∧
          t.frm = val.extractLsb' 24 2) ∧
        sets 0x48 [.ccur] (fun t => t.ccur = (s.sh.ccur.extractLsb' 64 64 ++ val : BitVec 128) &&& 0xFFC000FFFFFFFFFFBFC000FFFFFFFFFF) ∧
        sets 0x50 [.ccur] (fun t => t.ccur = (val ++ s.sh.ccur.extractLsb' 0 64 : BitVec 128) &&& 0xFFC000FFFFFFFFFFBFC000FFFFFFFFFF) ∧
        sets 0x58 [.xcur] (fun t => t.xcur = (s.sh.xcur.extractLsb' 64 64 ++ val : BitVec 128) &&& 0xF0000000FFFFFFFFFFFFFFFFFFFFFFFF) ∧
        sets 0x60 [.xcur] (fun t => t.xcur = (val ++ s.sh.xcur.extractLsb' 0 64 : BitVec 128) &&& 0xF0000000FFFFFFFFFFFFFFFFFFFFFFFF) ∧
        sets 0x68 [.hcsum] (fun t => t.hcsum = BitVec.ofNat 32 val.toNat) ∧
        sets 0x70 [.trap] (fun t => t.tvec = val &&& 0xFFFFFFFFFFFFFFF8 ∧ t.tcause = s.sh.tcause ∧ t.level = s.sh.level) ∧
        sets 0x78 [.trap] (fun t => t.tvec = s.sh.tvec ∧ t.tcause = val &&& 0xFFFFFFFF000100FF ∧ t.level = s.sh.level) ∧
        sets 0xD0 [.arena] (fun t => t.arena = val &&& 0x7FFFFFFFFFFFFFFF) ∧
        (∀ n : Fin 3, sets (0x88 + 8 * n.val) [.loops] (fun t => t.loops = s.sh.loops ∧
            ∀ q : Fin 3, t.lc[q] = if q = n then BitVec.ofNat 32 val.toNat else s.sh.lc[q]) ∧
          sets (0xA0 + 16 * n.val) [.loops] (fun t => t.lc = s.sh.lc ∧
            ∀ q : Fin 3, t.loops[q] = if q = n then { s.sh.loops[q] with start := val.toNat % 2 ^ 56 } else s.sh.loops[q]) ∧
          sets (0xA8 + 16 * n.val) [.loops] (fun t => t.lc = s.sh.lc ∧ ∀ q : Fin 3, t.loops[q] = if q = n then
            { act := val.getLsbD 63, kind := val.getLsbD 62, pred := val.toNat / 2 ^ 56 % 64, seq := val.toNat / 2 ^ 54 % 4, len := val.toNat % 512,
              start := s.sh.loops[q].start } else s.sh.loops[q]))) ∧
      (∀ k w, k < s.sh.nTiles → k < 8 * L → w < 4096 → ∃ t, puts (57344 * L + 32768 * k + 8 * w) = .next (said t 0 []) ∧ Only [.tiles] s t ∧ t.sh = s.sh ∧
        ∀ z, (t.co.tile z).scale = (s.co.tile z).scale ∧ ∀ c, c < 4096 → (t.co.tile z).data.extractLsb' (64 * c) 64 =
          if z = s.sh.firstTile + k ∧ c = w then val else (s.co.tile z).data.extractLsb' (64 * c) 64) ∧
      (∀ k, k < s.sh.nEnts → k < 25600 * L → ∃ t, puts (319488 * L + 8 * k) = .next (said t 0 []) ∧ Only [.ents] s t ∧ t.sh = s.sh ∧ ∀ z, t.co.tent z =
        if z = s.sh.firstTile + k then { state := val.toNat / 2 ^ 62 % 4, abort := val.toNat / 2 ^ 48 % 2 ^ 8, expect := val.toNat / 2 ^ 16 % 2 ^ 16,
                                         done := val.toNat % 2 ^ 16, bad := false }
        else s.co.tent z)) ∧
    (let fed : Bool → Prop := fun fb => (s.co.fifo fb).src = .heddle ∧ ∃ c ∈ s.allCores, ∃ e ∈ c.cmds,
       (c.id = s.co.id ∨ s.co.recId = some e.2.recId) ∧ e.2.run = true ∧ e.2.kind = .xfm ∧ e.2.toFifo = true ∧ e.2.tag = (s.co.fifo fb).tag
     let dead := s.sh.xWait = .queue ∨ s.sh.xWait = .fifo fb ∧ ¬ fed fb
     let stuck := s.sh.status = .running ∧ s.co.halted = false ∧ s.sh.due = none ∧ s.sh.aWait = .onX ∧ busyV s = [] ∧ ∀ f ∈ s.sh.flight, f.lands < s.co.cycle
     let r := faultX (flt 0x01 3 true) { s with sh := s.sh.stopPart }
     (stuck → dead → exec .queueDeadlock s = r ∧ ∃ t, r = .next t) ∧
     (¬ stuck ∨ s.sh.xWait = .other ∨ s.sh.xWait = .none ∨ (s.sh.xWait = .fifo fb ∧ fed fb) → exec .queueDeadlock s = .next s)) ∧
    (let walks := exec (.translationWalk pid acc va) s
     let live := pcbState s pid = 1 ∨ pcbState s pid = 2
     (windowOf va ≠ .xlat ∨ ¬ live → walks = .next s) ∧
     ((∃ x ∈ s.tlb, x.covers pid va = true ∧ x.permits acc = true) → walks = .next s) ∧
     (∀ root, (s.part? pid).bind (fun p => p.root) = some root → (∃ a ∈ walkPath s.mem va root 5 0, isDS a = true ∧ physOwned s pid a = false) → walks = .next s ∨
       ∃ x ∈ s.tlb, x.covers pid va = true ∧ x.permits acc = true) ∧
     (windowOf va = .xlat → live → (∀ x ∈ s.tlb, (x.covers pid va && x.permits acc) = false) →
       ((s.part? pid).bind (fun p => p.root) = none → walks = .next s) ∧
       ∀ root, (s.part? pid).bind (fun p => p.root) = some root → (∀ a ∈ walkPath s.mem va root 5 0, isDS a = true → physOwned s pid a = true) →
        (∀ e, walkFrom s.mem va root 5 0 = .error e → walks = .next s) ∧
        ∀ a e lv, walkFrom s.mem va root 5 0 = .ok (a, e, lv) →
          let bits := pageBits lv
          let pa := e / 2 ^ 16 % 2 ^ 40 * 2 ^ 16
          let b : Nat → Bool := fun j => e.testBit j
          let installs : List Piece → (Xlat → Bool) → (State → Prop) → Prop := fun l ok P => ∃ t, walks = .next t ∧ t.sh = s.sh ∧ t.co = s.co ∧
            Only l s t ∧ P t ∧ ∃ x ∈ t.tlb, x.covers pid va = true ∧ x.permits acc = true ∧ x.bits = bits ∧ x.pa = pa ∧ ok x = true
          let fits := va < 2 ^ 56
          (b 5 = true → b 6 = true ∨ b 4 = true → walks = .next s) ∧
          (¬ (b 5 = true ∧ (b 6 = true ∨ b 4 = true)) → fits →
            (acc = .read → b 7 = false → walks = .next s) ∧ (acc = .write → b 6 = false → walks = .next s) ∧ (acc = .fetch → b 5 = false → walks = .next s) ∧
            (acc = .read → b 7 = true → installs [.xlats] (fun x => x.r && !x.x && (x.w == (b 6 && b 1))) (fun _ => True)) ∧
            (acc = .write → b 6 = true → installs (if b 1 = false ∧ a / 64 * 64 ∈ s.latent then [.xlats, .mem, .marks] else [.xlats, .mem]) (fun x => x.w && !x.x) (fun t =>
              (s.mem.wf = true → ∀ j, j < a ∨ a + 8 ≤ j → t.mem.read j = s.mem.read j) ∧ (b 1 = true → t.mem = s.mem) ∧
              (b 1 = false → s.mem.wf = true → t.mem.readLe a 8 = (e + 2) % 2 ^ 64))) ∧
            (acc = .fetch → b 5 = true →
              let passed : State → Bool → Prop := fun u ok => ∀ j, j < 2 ^ (bits - 16) → (pa / 65536 + j, ok) ∈ u.granules
              let refused := ∃ x ∈ s.tlb, x.pa = pa ∧ x.bits = bits ∧ x.ref ≠ none
              let fits' := ∀ j, j < 2 ^ bits / 8 → scanWord s.feature (s.mem.readLe (pa + 8 * j) 8) = none
              let waits := pendingWrites s pa (pa + 2 ^ bits) = true
              (passed s true → installs [.xlats] (fun x => x.x && !x.w) (fun _ => True)) ∧
              (¬ passed s true → refused ∨ waits → walks = .next s) ∧
              (¬ passed s true → ¬ refused → ¬ waits → fits' → installs [.xlats] (fun x => x.x && !x.w) (fun t => passed t true)) ∧
              (¬ passed s true → ¬ refused → ¬ waits → ¬ fits' → ∃ t, walks = .next t ∧ t = { s with tlb := t.tlb, granules := t.granules } ∧
                passed t false ∧ (∀ x ∈ t.tlb, x ∈ s.tlb ∨ (∀ y, x.permits y = false) ∧ x.pa = pa ∧ x.ref ≠ none))))))

/-- Errors of stored bits, throttling, ports, and the gnomon's discipline. SOFT_ERROR counts a corrected error, or marks the line, or poisons
the register word, the operand run, the word of a state register, loop or descriptor, of a queue or of a tile, the tile entry or the
barrier slot, with a record; PATROL_SCRUB counts an uncorrectable error it meets in die scratchpad and poisons the line, with a record to
the partition whose window the line lies in. THROTTLE moves a die's clock one of three steps slower, THROTTLE_RECOVER one faster once 1 ms
has passed since the condition or the last step. PORT_DOWN takes a port out of use; UNSUPPORTED_PACKET counts a drop. Once firmware runs,
an offset measured on the port in use within 50 ns counts as good, and eight in a row lock, others being slewed away; 16 in a row on a
primary port that is not in use lead back to it, and its announce timeout begins the count anew; in lock state 3 it steps the time and
leads to lock state 2; above 1 µs it does in state 2. SYNC_TIMEOUT leads from lock to holdover, ANNOUNCE_TIMEOUT of the primary to the
backup and of both to holdover, and HOLDOVER_EXPIRY to lock state 2. It rests on the choices of the model in log entries 81, 105, 108 and
126. -/
def Obligations.HardwareEvents : Prop :=
  ∀ (place reg lane word die port line k : Nat) (fb : Bool) (o : Int) (s : State),
    let home := dieOf s.co.id
    let errs : State → Nat → Nat → Nat := fun t d k => aget 0 (t.die d).errs k
    let counted : Out3 → Nat → Nat → (State → Prop) → Prop := fun r d k P => ∃ t, r = .next t ∧ errs t d k = min (errs s d k + 1) (2 ^ 32 - 1) ∧
      (∀ e j, (e, j) ≠ (d, k) → errs t e j = errs s e j) ∧ P t
    let dies : State → Prop := fun t => t = { s with dies := t.dies }
    let l := place / 64 * 64
    let g := s.gn
    let gn : Gnomon → State := fun x => { s with gn := x }
    (place < 2 ^ 37 → counted (exec (.softError (.line place true)) s) (place / 2 ^ 32) 2 dies) ∧
    (mmBase ≤ place → place < 2 ^ 44 → counted (exec (.softError (.line place true)) s) 0 3 dies) ∧
    (∀ core o, o < 2 ^ 24 → core < 512 → counted (exec (.softError (.line (nearKey core o) true)) s) (core / 16) 0 dies) ∧
    (∀ cl o, o < 2 ^ 24 → cl < 128 → counted (exec (.softError (.line (clusKey cl o) true)) s) (cl / 4) 1 dies) ∧
    (l ∉ s.poison → exec (.softError (.line place false)) s = .next { s with poison := l :: s.poison, latent := l :: s.latent }) ∧
    (l ∈ s.poison → exec (.softError (.line place false)) s = .next s) ∧
    (∀ u ∈ [Upset.vword reg lane word true, .xword reg true, .pword reg word true, .run fb k true, .logic, .sword k true, .qword reg k word true,
      .tword k word true, .ent k true], counted (exec (.softError u) s) home 4 dies) ∧
    counted (exec (.softError (.bar die k true)) s) die 4 dies ∧
    (let known := 3 ≤ k ∧ k < 43 ∧ k ≠ 8 ∧ k ≠ 16 ∨ 100 ≤ k ∧ k < 104
     (¬ known → exec (.softError (.sword k false)) s = .next s) ∧
     (known → counted (exec (.softError (.sword k false)) s) home 5 (fun t => k ∈ t.sh.spois ∧ Only [.dies, .records, .events, .others] s t ∧
       t = { s with sh := t.sh, co := t.co, dies := t.dies }))) ∧
    (6 ≤ reg → reg < 8 → k < (s.sh.rqOf reg).length → counted (exec (.softError (.qword reg k word false)) s) home 5 (fun t => (reg, k) ∈ t.sh.rqPois ∧
      t.sh.rq = s.sh.rq ∧ t.sh.dq = s.sh.dq ∧ Only [.queues, .dies, .records, .events] s t)) ∧
    (∀ x, reg < 6 → (s.sh.dqOf reg)[k]? = some x → word < (if x.scalar then 1 else 2 * s.sh.lanes) → counted (exec (.softError (.qword reg k word false)) s) home 5
      (fun t => (∃ y, (t.sh.dqOf reg)[k]? = some y ∧ y = { x with pois := y.pois } ∧ ∀ w, w ∈ y.pois ↔ w = word ∨ w ∈ x.pois) ∧
        (∀ q e, (q, e) ≠ (reg, k) → (t.sh.dqOf q)[e]? = (s.sh.dqOf q)[e]?) ∧ t.sh.rq = s.sh.rq ∧ Only [.queues, .dies, .records, .events] s t)) ∧
    (word ≤ 4096 → counted (exec (.softError (.tword k word false)) s) home 5 (fun t => Only [.tiles, .dies, .records, .events] s t ∧ word ∈ (t.co.tile k).pois ∧
      ∀ z, (t.co.tile z).data = (s.co.tile z).data ∧ (t.co.tile z).scale = (s.co.tile z).scale)) ∧
    counted (exec (.softError (.ent k false)) s) home 5 (fun t => Only [.ents, .dies, .records, .events] s t ∧
      ∀ z, t.co.tent z = if z = k then { s.co.tent k with bad := true } else s.co.tent z) ∧
    counted (exec (.softError (.bar die k false)) s) die 5 (fun t => Only [.dies, .records, .events] s t ∧
      ∀ z, (t.die die).bar z = if z = k then { (s.die die).bar k with bad := true } else (s.die die).bar z) ∧
    counted (exec (.softError (.vword reg lane word false)) s) home 5 (fun t => (reg, lane, word) ∈ t.sh.vpoison ∧
      Only [.v, .dies, .records, .events] s t) ∧
    (reg ≠ 0 → counted (exec (.softError (.xword reg false)) s) home 5 (fun t => reg ∈ t.sh.xpois ∧ Only [.x, .dies, .records, .events] s t)) ∧
    (reg = 0 → exec (.softError (.xword reg false)) s = .next s) ∧
    counted (exec (.softError (.pword reg word false)) s) home 5 (fun t => (reg, word) ∈ t.sh.ppois ∧ Only [.p, .dies, .records, .events] s t) ∧
    ((s.co.fifo fb).runs.length ≤ k → exec (.softError (.run fb k false)) s = .next s) ∧
    (∀ r, s.named → (s.co.fifo fb).runs[k]? = some r → counted (exec (.softError (.run fb k false)) s) home 5 (fun t =>
      (t.co.fifo fb).runs = (s.co.fifo fb).runs.set k { r with poison := true } ∧ t.co.fifo (!fb) = s.co.fifo (!fb) ∧
      Only [.engine, .dies, .records, .events] s t)) ∧
    (isDS line = false ∨ (∀ k ∈ s.latent, line < k ∨ k + 64 ≤ line) → exec (.patrolScrub line) s = .next s) ∧
    (isDS line = true → s.latent = [line / 64 * 64] →
      let mine : Nat → Option Rec := fun pid => s.recs.find? (fun r => r.pid == pid && (s.core r.core).recId == some r.id)
      (s.rec? s.nextRec = none → (∀ pid, ownerOf s line = some pid → mine pid = none) →
        counted (exec (.patrolScrub line) s) (line / 2 ^ 32) 5 (fun t => t = { s with dies := t.dies, latent := [] })) ∧
      (∀ pid r, ownerOf s line = some pid → mine pid = some r → s.rec? r.id = some r →
        counted (exec (.patrolScrub line) s) (r.core / 16) 5 (fun t => ∃ u f, t = deliver u r.id 0 (.frec f) ∧ f.cause = 0x0C ∧ f.source = 2 ∧
          f.pa = line / 64 * 64 ∧ f.handle = r.handle ∧ u.latent = [] ∧ u.recs = s.recs ∧ u.sh = s.sh ∧ u.mem = s.mem))) ∧
    (∃ t, exec (.throttle die) s = .next t ∧ dies t ∧ (t.die die).clock = min 2 ((s.die die).clock + 1) ∧ (t.die die).hotAt = g.t64.toNat ∧ ∀ e, e ≠ die → t.die e = s.die e) ∧
    (g.t64.toNat < (s.die die).hotAt + 4000000 → exec (.throttleRecover die) s = .next s) ∧
    ((s.die die).hotAt + 4000000 ≤ g.t64.toNat → ∃ t, exec (.throttleRecover die) s = .next t ∧ dies t ∧ (t.die die).clock = (s.die die).clock - 1 ∧
      (t.die die).hotAt = g.t64.toNat ∧ ∀ e, e ≠ die → t.die e = s.die e) ∧
    (48 ≤ port → exec (.portDown port) s = .next s ∧ exec (.unsupportedPacket port) s = .next s) ∧
    (port < 48 → (∃ t, exec (.portDown port) s = .next t ∧ t = { s with portsDown := t.portsDown } ∧
        ∀ p, p ∈ t.portsDown ↔ p = port ∨ p ∈ s.portsDown) ∧
      ∃ t, exec (.unsupportedPacket port) s = .next t ∧ t = { s with drops := t.drops } ∧
        ∀ p, aget 0 t.drops p = aget 0 s.drops p + if p = port then 1 else 0) ∧
    (let good := -200 ≤ o ∧ o ≤ 200
     let far := o < -4000 ∨ 4000 < o
     let offset := exec (.ptpOffset g.port o) s
     let h : Gnomon := { g with annP := g.annP && g.port != g.primary, annB := g.annB && g.port != g.backup, offset := o }
     let more := g.good + 1
     let slew := - o * 1000000
     let then' : BitVec 64 := BitVec.ofNat 64 (((g.kept : Int) - o) % (2 ^ 48 * 4000000000)).toNat
     (s.bootStep < 6 → exec (.ptpOffset port o) s = .next s) ∧
     (6 ≤ s.bootStep →
       (port ≠ g.port → port ≠ g.primary → exec (.ptpOffset port o) s = .next (gn { g with annB := g.annB && port != g.backup })) ∧
       (port ≠ g.port → port = g.primary → let x := { g with annP := false, annB := g.annB && port != g.backup }
         (good → 16 ≤ g.back + 1 → exec (.ptpOffset port o) s = .next (gn { x with port := port, back := 0 })) ∧
         (good → g.back + 1 < 16 → exec (.ptpOffset port o) s = .next (gn { x with back := g.back + 1 })) ∧
         (¬ good → exec (.ptpOffset port o) s = .next (gn { x with back := 0 }))) ∧
       (g.lock = 0 → good → offset = .next (gn { h with good := more, slew := 0 })) ∧
       (g.lock = 0 → ¬ good → offset = .next (gn { h with good := 0, slew := slew })) ∧
       (g.lock = 1 → good → 8 ≤ more → offset = .next (gn { h with good := more, lock := 0, holdFrom := 0, slew := 0 })) ∧
       (g.lock = 1 → good → more < 8 → offset = .next (gn { h with good := more, slew := slew })) ∧
       (g.lock = 1 → ¬ good → offset = .next (gn { h with good := 0, slew := slew })) ∧
       (g.lock = 2 → good → offset = .next (gn { h with good := more, lock := if 8 ≤ more then 0 else 2 })) ∧
       (g.lock = 2 → ¬ good → ¬ far → offset = .next (gn { h with good := 0 })) ∧
       (g.lock = 2 → far → ∃ t, offset = .next t ∧ t.gn.t64 = then' ∧ t.gn.lock = 2 ∧ t.gn.good = 0 ∧ t.gn.slew = 0) ∧
       (g.lock = 3 → ∃ t, offset = .next t ∧ t.gn.t64 = then' ∧ t.gn.lock = 2 ∧ t.gn.slew = 0 ∧ (¬ good → t.gn.good = 0) ∧ (good → t.gn.good = more))) ∧
     let held : Gnomon → Gnomon := fun x => if g.lock = 0 then { x with lock := 1, holdFrom := g.t64, good := 0 } else x
     exec .syncTimeout s = .next (gn (held g)) ∧
     (g.primary ≠ g.backup →
       (port = g.primary → let x := { g with annP := true, port := if g.port = g.primary then g.backup else g.port, back := 0 }
         exec (.announceTimeout port) s = .next (gn (if g.annB then held x else x))) ∧
       (port = g.backup → let x := { g with annB := true }
         exec (.announceTimeout port) s = .next (gn (if g.annP then held x else x))) ∧
       (port ≠ g.primary → port ≠ g.backup → exec (.announceTimeout port) s = .next (gn (if g.annP && g.annB then held g else g)))) ∧
     let expired := g.lock = 1 ∧ 1000000 ≤ (g.t64 - g.holdFrom).toNat / 4000
     (¬ expired → exec .holdoverExpiry s = .next s) ∧
     (expired → ∃ t, exec .holdoverExpiry s = .next t ∧ t.gn = { g with lock := 2 } ∧
       ∀ x ∈ t.tokens, x.st = .bound → x.t ≤ g.t64.toNat))

/-- QUEUE_TAIL_READ takes records from a queue or stops it, and tokens are refilled and charged. For a registered, unstopped queue of an
active partition, an unreadable header stops the queue with reason 2, a malformed one with 3, a disabled one with 4, a tail too far ahead
with 1; at the tail nothing is taken; else the records from the next to be read up to the tail are taken one after another, each with the
values its words give: it waits, or completes at once with status 1 when malformed and 3 when timed without lock; one that cannot be read
stops the queue with reason 2. Of any other queue nothing is done, nor while what the device reads and writes for it lies in a die under
repair. TOKEN_REFILL, once for each 400,000 of T64, gives every tenant its refill less a quarter of it, at most its debt; TOKEN_CHARGE,
once for each 4,000, takes a token for every resident lane from a tenant whose balance stays positive. It rests on the choices of the
model in log entries 103 and 122. -/
def Obligations.QueuesAndTokens : Prop :=
  ∀ (q : Nat) (s : State),
    let r := exec (.queueTailRead q) s
    let live := ∃ (x : HQueue) (p : Part), s.queue? q = some x ∧ x.stop = 0 ∧ s.part? x.pid = some p ∧ p.state = 1 ∧ queueHeld s x = false
    (¬ live → r = .next s) ∧
    (∀ (x : HQueue) (p : Part) (s1 : State), s.queue? q = some x → x.no = q → x.stop = 0 → s.part? x.pid = some p → p.state = 1 → queueHeld s x = false → s1.queue? q = some x →
      let stops : Nat → Prop := fun why => ∃ t : State, r = .next t ∧ (t.queue? q).map (fun y => y.stop) = some why ∧ (s1.latent = [] → t.recs = s1.recs ∧ t.sh = s1.sh)
      (readHeader s x = (s1, none) → stops 2) ∧
      (∀ h : List Nat, readHeader s x = (s1, some h) →
        let tail := h.getD 0 0
        let n := 2 ^ (h.getD 4 0 % 32)
        let off := (h.getD 4 0).testBit 8
        let ahead := (tail + 2 ^ 64 - x.head) % 2 ^ 64
        let taken := (x.next + 2 ^ 64 - x.head) % 2 ^ 64
        (headerBad h = true → stops 3) ∧
        (headerBad h = false → off = true → stops 4) ∧
        (headerBad h = false → off = false → n < ahead → stops 1) ∧
        let takes : State → Nat → State := fun u m => takeRecords q (h.getD 2 0 % 2 ^ 56) n m u
        (headerBad h = false → off = false → ahead ≤ n → r = .next (takes s1 (ahead - taken))) ∧
        ∀ (u : State) (y : HQueue) (m : Nat), u.queue? q = some y → y.no = q → takes u 0 = u ∧ (y.stop ≠ 0 → takes u (m + 1) = u) ∧
          (∀ u1, y.stop = 0 → frameReader u y.pid (h.getD 2 0 % 2 ^ 56 + 64 * (y.next % n)) 64 = (u1, none) → takes u (m + 1) = stopQueue u1 y 2) ∧
          ∀ (u1 : State) (rd : Nat → Nat), y.stop = 0 → frameReader u y.pid (h.getD 2 0 % 2 ^ 56 + 64 * (y.next % n)) 64 = (u1, some rd) → u1.queue? q = some y →
            let now := some u1.gn.t64.toNat
            ∃ (v : State) (z : Rec), v.recs = u1.recs ++ [z] ∧ v.nextRec = u1.nextRec + 1 ∧ v.sh = u1.sh ∧ (v.queue? q).map (fun x => x.next) = some ((y.next + 1) % 2 ^ 64) ∧
              z.id = u1.nextRec ∧ z.stat = .waiting ∧ z.arrNo = (if u1.lastArr.2 = now then u1.lastArr.1 else u1.lastArr.1 + 1) ∧ v.lastArr = (z.arrNo, now) ∧
              z.pid = y.pid ∧ z.queue = q ∧ z.index = y.next ∧ z.entry = rd 0 % 2 ^ 56 ∧ z.timed = (rd 0).testBit 63 ∧
              z.arg = BitVec.ofNat 64 (rd 8) ∧ z.k = rd 16 % 64 ∧ z.lanes = 4 * 2 ^ (rd 16 / 64 % 4) ∧ z.ceil = rd 16 / 2 ^ 32 % 2 ^ 13 ∧
              z.handle = rd 24 % 2 ^ 32 ∧ z.gang = rd 24 / 2 ^ 32 % 2 ^ 32 ∧ z.launch = rd 32 ∧ z.cookie = BitVec.ofNat 64 (rd 40) ∧
              takes u (m + 1) = takes (if recordBad (fun k => rd (8 * k)) = true then completeRec v z 1
                else if z.timed = true ∧ 2 ≤ u1.gn.lock then completeRec v z 3 else v) m)) ∧
    (let now := s.gn.t64.toNat
     let distinct : List (Nat × List (Nat × Nat × Nat × Nat)) → Prop := fun ps => (ps.map Prod.fst).Nodup ∧ ∀ p ∈ ps, (p.2.map Prod.fst).Nodup
     (now / 400000 = s.gn.lastTok → exec .tokenRefill s = .next s) ∧
     (now / 400000 ≠ s.gn.lastTok → ∀ (s1 : State) (ps : List (Nat × List (Nat × Nat × Nat × Nat))), meetTenants { s with gn := { s.gn with lastTok := now / 400000 } } = (s1, ps) → distinct ps →
       ∃ t : State, exec .tokenRefill s = .next t ∧ t.gn = s1.gn ∧ (s1.latent = [] → t.sh = s1.sh) ∧ ∀ (p : Nat) (l : List (Nat × Nat × Nat × Nat)) (e : Nat × Nat × Nat × Nat) (u : Tenant), (p, l) ∈ ps → e ∈ l → u ∈ s1.tenants → u.pid = p → u.slot = e.1 →
         { u with debt := u.debt - min u.debt (e.2.2.1 / 4), bal := (e.2.2.1 : Int) - (min u.debt (e.2.2.1 / 4) : Nat) } ∈ t.tenants) ∧
     (now / 4000 = s.gn.lastChg → exec .tokenCharge s = .next s) ∧
     (now / 4000 ≠ s.gn.lastChg → ∀ (s1 : State) (ps : List (Nat × List (Nat × Nat × Nat × Nat))), meetTenants { s with gn := { s.gn with lastChg := now / 4000 } } = (s1, ps) → distinct ps →
       (∀ (p : Nat) (l : List (Nat × Nat × Nat × Nat)) (e : Nat × Nat × Nat × Nat) (u : Tenant), (p, l) ∈ ps → e ∈ l → u ∈ s1.tenants → u.pid = p → u.slot = e.1 → (lanesUnder s1 p e.1 : Int) < u.bal) →
       (∀ (p : Nat) (l : List (Nat × Nat × Nat × Nat)) (e : Nat × Nat × Nat × Nat), (p, l) ∈ ps → e ∈ l → ∃ u ∈ s1.tenants, u.pid = p ∧ u.slot = e.1) →
       ∃ t : State, exec .tokenCharge s = .next t ∧ t.gn = s1.gn ∧ (s1.latent = [] → t.sh = s1.sh) ∧ ∀ (p : Nat) (l : List (Nat × Nat × Nat × Nat)) (e : Nat × Nat × Nat × Nat) (u : Tenant), (p, l) ∈ ps → e ∈ l → u ∈ s1.tenants → u.pid = p → u.slot = e.1 →
         { u with bal := u.bal - lanesUnder s1 p e.1 } ∈ t.tenants))

/-- The life of a start record: placed, launched, pre-empted, saved, resumed, killed. RECORD_PLACE completes a waiting record whose region is
refused, and else places the next new one on its core: every shuttle stands at the entry with its argument, position and lanes in x1 to
x3, and on a core no record has been on since its scratchpad was cleared, memory is as it was. TIMED_LAUNCH lets a placed record's waiting
shuttles run once they may, late when its launch time is past. ALLOC_PREEMPT, while no core can take the first waiting record, marks its
victim to be saved, the one that started longest ago of those whose tenants have no balance if there is one, unless a save for the same
waiting record is under way; PREEMPT_REQUEST tells its shuttles with event bit 3; PREEMPT_TIMEOUT stops one between element groups 20 µs
later; SAVE_COMPLETE frees the core once all are saved or ended; RECORD_RESUME puts a saved record on a core again; KILL stops every
shuttle at once, of a waiting record too, an instruction that has issued going on to its end and its filling tile entries aborting with
code 2, and one already ending completes once its accesses have performed. None does anything else to a record that is not in its case. It
rests on the choices of the model in log entries 14, 67, 68, 69, 70 and 104. -/
def Obligations.Records : Prop :=
  ∀ (id : Nat) (s : State),
    let now := s.gn.t64.toNat
    let here := s.place? id s.sh.pos = some { core := s.co.id, pos := s.sh.pos }
    let met := (meetTenants s).1
    s.named →
    (∀ s1 cs bad, readCands met (waitingRecs met) = (s1, cs, bad) → s1.named →
      (∀ r e, bad.find? (fun b => b.1.stat == .waiting) = some (r, e) → exec .recordPlace s = .next (completeRec s1 r e)) ∧
      ((∀ b ∈ bad, b.1.stat ≠ .waiting) →
        (nextCand s1 cs = none → exec .recordPlace s = .next s1) ∧
        (∀ c k, nextCand s1 cs = some (c, k) → c.resumes = true → exec .recordPlace s = .next s1) ∧
        (∀ c k, nextCand s1 cs = some (c, k) → c.resumes = false → (s1.rec? c.r.id).isSome = true →
            ∃ t, exec .recordPlace s = .next t ∧ (t.core k).recId = some c.r.id ∧ (t.core k).nearUsed = true ∧
            ((s1.core k).nearUsed = false → t.mem = s1.mem) ∧
            (∃ z, t.rec? c.r.id = some z ∧ z.core = k ∧ z.region = c.g ∧ z.startT = s1.gn.t64.toNat ∧ (z.stat = .running ∨ z.stat = .placed) ∧
              (z.stat = .running ↔ (c.r.timed = true → c.r.launch ≤ s1.gn.t64.toNat) ∧ (c.r.gang ≠ 0 → z.gangIn = true)) ∧
              (z.late = true ↔ z.stat = .running ∧ c.r.timed = true ∧ c.r.launch < s1.gn.t64.toNat) ∧
              ∀ p, p < c.r.k → let u := t.shuttle { core := k, pos := p }
                u.apc = BitVec.ofNat 56 c.r.entry ∧ u.xget 1 = c.r.arg ∧ u.xget 2 = BitVec.ofNat 64 p ∧ u.xget 3 = BitVec.ofNat 64 c.r.lanes ∧
                (∀ j : Fin 64, 4 ≤ j.val → u.xget j = 0) ∧ u.pid = c.r.pid ∧ u.lanes = c.r.lanes ∧ u.tvec = 0 ∧
                u.status = (if z.stat = .running then .running else .waiting)))) ∧
      ((∃ b ∈ bad, b.1.id = id ∧ b.1.stat = .saved) → exec (.recordResume id) s = .next (endRec s1 id 4)) ∧
      ((∀ b ∈ bad, ¬ (b.1.id = id ∧ b.1.stat = .saved)) →
        ((∀ c k, nextCand s1 cs = some (c, k) → ¬ (c.r.id = id ∧ c.resumes = true)) → exec (.recordResume id) s = .next s1) ∧
        (∀ c k s2, nextCand s1 cs = some (c, k) → c.r.id = id → c.resumes = true →
          (resumeRec s1 c k = (s2, true) → exec (.recordResume id) s = .next s2 ∧ (s2.core k).recId = some id) ∧
          (resumeRec s1 c k = (s2, false) → exec (.recordResume id) s = .next (endRec s2 id 4)))) ∧
      (∀ c, firstCand cs = some c → 0 < c.bal → (∀ k, k < 512 → canTake s1 c k = false) → (∀ e ∈ s1.saving, e.1 = c.r.id → ∀ z, s1.rec? e.2 = some z → z.preAt = none) →
        (victim s1 c = none → exec .allocPreempt s = .next s1) ∧
        (∀ r, victim s1 c = some r → ∀ q ∈ s1.recs, victimOk s1 q = true → balance s1 q.pid q.region.tenant ≤ 0 →
          balance s1 r.pid r.region.tenant ≤ 0 ∧ r.startNo ≤ q.startNo) ∧
        (∀ r n, victim s1 c = some r → s1.rec? r.id = some r → freeSave s1 r.pid r.region = some n → ∃ t, exec .allocPreempt s = .next t ∧
          t.sh = s1.sh ∧ t.co = s1.co ∧ t.saving = (c.r.id, r.id) :: s1.saving ∧
          t.rec? r.id = some { r with preAt := some s1.gn.t64.toNat, save := some n, atOnce := false })) ∧
      (firstCand cs = none ∨ (∃ c, firstCand cs = some c ∧ (c.bal ≤ 0 ∨ (∃ k, k < 512 ∧ canTake s1 c k = true) ∨
          ∃ e ∈ s1.saving, e.1 = c.r.id ∧ ∃ z, s1.rec? e.2 = some z ∧ z.preAt ≠ none)) → exec .allocPreempt s = .next s1)) ∧
    (s.rec? id = none → ∀ i ∈ [Instr.timedLaunch id, .preemptRequest id, .saveComplete id, .kill id], exec i s = .next s) ∧
    (∀ r, s.rec? id = some r → r.k ≤ 32 → s.sh.pos < r.k →
      let may := (r.timed = true → r.launch ≤ now) ∧ (r.gang ≠ 0 → r.gangIn = true)
      (¬ (r.stat = .placed ∧ may) → exec (.timedLaunch id) s = .next s) ∧
      (r.stat = .placed → may → ∃ t, exec (.timedLaunch id) s = .next t ∧
        (∃ z, t.rec? id = some z ∧ z = { r with stat := .running, begun := true, startT := now, startNo := z.startNo, late := r.late || (!r.begun && r.timed && decide (r.launch < now)) } ∧
          (r.begun = true → z.startNo = r.startNo) ∧ (r.begun = false → ∀ q ∈ s.recs, q.startNo < z.startNo)) ∧
        (here → t.sh = if s.sh.status = .waiting then { s.sh with status := .running } else s.sh)) ∧
      (r.preAt = none → exec (.preemptRequest id) s = .next s ∧ exec (.saveComplete id) s = .next s) ∧
      (∀ a, r.preAt = some a → ∃ t, exec (.preemptRequest id) s = .next t ∧ Only [.events, .vstart, .c, .flags, .ccur] s { t with cores := s.cores } ∧
        (here → s.sh.status = .running → s.sh.halting = false → s.sh.pre = none → t.sh.events = s.sh.events ||| 8 ∧ t.sh.pre = some a ∧
          (r.atOnce = false → t.sh = { s.sh with events := s.sh.events ||| 8, pre := some a }))) ∧
      (r.preAt ≠ none → holdsCore s r = true →
        let st : Nat → SStat := fun p => (s.shuttle { core := r.core, pos := p }).status
        let all := (∀ p, p < r.k → st p = .saved ∨ (st p).ended = true) ∧ ∃ p, p < r.k ∧ st p = .saved
        (¬ all → exec (.saveComplete id) s = .next s) ∧
        (all → ∃ t, exec (.saveComplete id) s = .next t ∧ t.rec? id = some { r with stat := .saved, preAt := none, atOnce := false } ∧
          (t.core r.core).recId = none ∧ t.mem = s.mem)) ∧
      (∀ st, r.stat = .ending st → (recBusy s id = true → exec (.kill id) s = .next s) ∧ (recBusy s id = false → ∃ t, exec (.kill id) s = .next t ∧ t.rec? id = none)) ∧
      ((∀ st, r.stat ≠ .ending st) → ∃ t, exec (.kill id) s = .next t ∧
        (t.rec? id = none ∨ ∃ z, t.rec? id = some z ∧ z.stat = .ending 4) ∧
        ((s.core r.core).recId = some id → ∀ n, ((s.core r.core).tent n).state = 1 → ((t.core r.core).tent n).state = 0 ∧
          ((∀ c ∈ s.allCores, ∀ e ∈ c.cmds, e.2.tile ≠ some n) → ((t.core r.core).tent n).abort = 2)) ∧
        (here → t.sh.status ≠ .running ∧ t.sh.status ≠ .waiting ∧
          (s.sh.status = .running → s.sh.finishing = false → t.sh.xq = []) ∧ (s.sh.status = .running → s.sh.finishing = true → t.sh.xq.length ≤ 1)))) ∧
    (let due := ∃ a, s.sh.pre = some a ∧ (a + 80000 ≤ now ∨ ∃ r, s.myRec? = some r ∧ r.atOnce = true)
     let free := s.sh.status = .running ∧ s.sh.saveDue = none ∧ s.sh.due = none ∧ s.sh.midway = false
     (due → free → exec .preemptTimeout s = .next { s with sh := { s.sh.stopPart with saveDue := some 2 } }) ∧
     (¬ due ∨ ¬ free → exec .preemptTimeout s = .next s))

/-- Transport writes, reads and atomics, and the fabric write queues. A message that comes before firmware runs, or for a partition that is
not active, is answered with PERM 16, one whose flagged barrier fails its check with HANDLE 1, a span that fails its check with that
fault, a misaligned atomic with ALIGN 3; nothing else changes then; one of more than 16 MiB is dropped at its port and counted, one for a
die under repair or with its barrier there waits, and one for the boot buffer is refused with PERM 5. A write that passes enters the
queues, one entry a line part, each with its bytes and their poison and in the queue of the die that holds its bank, or for main memory of
its port's die; a read is answered with the bytes as they stand; an atomic enters one entry. FABRIC_WRITE_PERFORM does an entry that
nothing holds back, a barrier of a die under repair among what does, for 64 bytes of the budget: its bytes are written and no others, or
its word is changed and the old one answered; a write that is its message's last is acknowledged. Before firmware runs a write to the boot
buffer is plain, and one past its end, a read or an atomic is answered by the management endpoint with status 2. The port a message of an
active partition comes by is noted as one that carries its traffic. It rests on the choices of the model in log entries 74, 75, 79, 105,
107 and 121. -/
def Obligations.Transport : Prop :=
  ∀ (n : NetAcc) (data : List Byte) (bar : Option (Word × Bool)) (len size : Nat) (op : NetAtom) (v c : Word) (die k : Nat) (s : State),
    let wr := exec (.transportWrite n data bar none) s
    let rd := exec (.transportRead n len none) s
    let at' := exec (.transportAtomic n op size v c) s
    let tells : State → Nat → Nat → List Byte → State := fun t x d bs => { t with out := t.out ++ [.net n.conn x d bs] }
    let active := s.bootStep = 6 ∧ ∃ p, s.part? n.pid = some p ∧ p.state = 1
    let boot := 0x027FF0000000 + n.va.toNat
    let fits := data.length ≤ 2 ^ 24
    let dropped : Out3 → Prop := fun r => ∃ t, r = .next t ∧ t = { s with drops := t.drops } ∧ (n.port < 48 → aget 0 t.drops n.port = aget 0 s.drops n.port + 1) ∧
      ∀ j, j ≠ n.port → aget 0 t.drops j = aget 0 s.drops j
    let dieOf' : Nat → Nat := fun key => if isDS key then key / 2 ^ 32 else n.port % 48 / 3 * 2
    let start : List (Nat × Nat) → Nat → Nat := fun parts j => ((parts.take j).map Prod.snd).sum
    let z := notePorts s n.pid [n.port]
    let bootNo : Out3 := .next { s with out := s.out ++ [.answer n.conn (BitVec.ofNat 64 (2 * 2 ^ 40) :: List.replicate 7 0)] }
    let early := n.pid = 0xFF ∧ s.bootStep < 5
    let span := netSpan n.pid .write false (data.length / 64 + 2) z n.va.toNat data.length
    let barBad := ∃ w, bar = some (w, true) ∧ netBarOk z n.pid w = false
    let mends := ∃ w, bar = some (w, true) ∧ (z.die (barDie w)).repair = 1
    let enters : State → Out3 → Nat → FabOp → (FabEnt → Prop) → Prop := fun s2 r key x P => ∃ t e, r = .next t ∧
      let d := dieOf' key
      (t.die d).fabq = (s2.die d).fabq ++ [e] ∧ (∀ j, j ≠ d → t.die j = s2.die j) ∧ t.sh = s2.sh ∧ t.mem = s2.mem ∧ t.out = s2.out ∧
      e.addr = key ∧ e.line = key / 64 * 64 ∧ e.op = x ∧ e.conn = n.conn ∧ e.rod = n.ordered ∧ e.pid = n.pid ∧ P e
    (¬ fits → dropped wr) ∧ (2 ^ 24 < len → dropped rd) ∧
    (fits → n.pid = 0xFF → s.bootStep < 5 → n.va.toNat + data.length ≤ 2 ^ 28 → s.mem.wf = true → ∃ t, wr = .next t ∧ t = { s with mem := t.mem, goConn := t.goConn } ∧
      (t.goConn = if n.va.toNat < 24 ∧ 16 < n.va.toNat + data.length then some n.conn else s.goConn) ∧
      ∀ a, t.mem.read a = if boot ≤ a ∧ a < boot + data.length then data.getD (a - boot) 0 else s.mem.read a) ∧
    (fits → n.pid = 0xFF → s.bootStep < 5 → 2 ^ 28 < n.va.toNat + data.length → wr = bootNo) ∧
    (early → (len ≤ 2 ^ 24 → rd = bootNo) ∧ at' = bootNo) ∧
    (∃ ps, z = { s with parts := ps }) ∧ (∀ p, s.part? n.pid = some p → ∃ l, z.part? n.pid = some { p with ports := l } ∧ ∀ k, k ∈ l ↔ k = n.port ∨ k ∈ p.ports) ∧
    (fits → n.pid = 0xFF → 5 ≤ s.bootStep → wr = .next (tells s 0x03 16 [])) ∧
    (fits → n.pid ≠ 0xFF → ¬ active → wr = .next (tells s 0x03 16 [])) ∧
    (¬ active → ¬ early → (len ≤ 2 ^ 24 → rd = .next (tells s 0x03 16 [])) ∧ at' = .next (tells s 0x03 16 [])) ∧
    (fits → n.pid ≠ 0xFF → active → mends → wr = .next z) ∧
    (fits → n.pid ≠ 0xFF → active → ¬ mends → barBad → wr = .next (tells z 0x0A 1 [])) ∧
    (fits → n.pid ≠ 0xFF → active → ¬ mends → ¬ barBad → ∀ s2,
      (∀ x d, span = (s2, .error (some (x, d))) → wr = .next (tells s2 x d [])) ∧
      (span = (s2, .error none) → wr = .next s2) ∧
      (span = (s2, .ok []) → wr = .next (tells s2 0 0 [])) ∧
      (∀ parts, span = (s2, .ok parts) → inBoot parts = true → wr = .next (tells s2 0x03 5 [])) ∧
      (∀ parts, span = (s2, .ok parts) → parts ≠ [] → inBoot parts = false → start parts parts.length = data.length → ∃ (t : State) (es : List FabEnt), wr = .next t ∧
        t.sh = s2.sh ∧ t.co = s2.co ∧ t.mem = s2.mem ∧ t.out = s2.out ∧ es.length = parts.length ∧
        (∀ j, (t.die j).fabq = (s2.die j).fabq ++ es.filter (fun e => dieOf' e.addr == j)) ∧
        ∀ j e p, es[j]? = some e → parts[j]? = some p → e.addr = p.1 ∧ e.line = p.1 / 64 * 64 ∧ e.op = .bytes ((data.drop (start parts j)).take p.2) ∧
          e.conn = n.conn ∧ e.rod = n.ordered ∧ e.pid = n.pid ∧ e.tag = none ∧ e.msg = s2.freeCount + 1 ∧ e.bar = bar.map (fun b => (b.1, data.length)) ∧
          (e.poison = true ↔ ∃ q ∈ n.bad, q.1 < start parts j + p.2 ∧ start parts j < q.1 + q.2))) ∧
    (len ≤ 2 ^ 24 → active → ∀ s2,
      (∀ x d, netSpan n.pid .read true (len / 64 + 2) z n.va.toNat len = (s2, .error (some (x, d))) → rd = .next (tells s2 x d [])) ∧
      (∀ parts, netSpan n.pid .read true (len / 64 + 2) z n.va.toNat len = (s2, .ok parts) →
        rd = .next (tells s2 0 0 (parts.flatMap (fun p => (List.range p.2).map (fun j => s2.mem.read (p.1 + j))))))) ∧
    (active → (size ≠ 4 ∧ size ≠ 8) ∨ n.va.toNat % size ≠ 0 → at' = .next (tells z 0x04 3 [])) ∧
    (active → size = 4 ∨ size = 8 → n.va.toNat % size = 0 → ∀ s2,
      (∀ x d, netSpan n.pid .write true 2 z n.va.toNat size = (s2, .error (some (x, d))) → at' = .next (tells s2 x d [])) ∧
      (∀ key m, netSpan n.pid .write true 2 z n.va.toNat size = (s2, .ok [(key, m)]) → inBoot [(key, m)] = true → at' = .next (tells s2 0x03 5 [])) ∧
      (∀ key m, netSpan n.pid .write true 2 z n.va.toNat size = (s2, .ok [(key, m)]) → inBoot [(key, m)] = false → enters s2 at' key (.atom op size v c) (fun e => e.bar = none))) ∧
    (let d := s.die die
     let r := exec (.fabricWritePerform die k) s
     let waits : FabEnt → Prop := fun e => d.fabBud < 64 ∨ fabBarHeld s e = true ∨ (isDS e.line = true ∧ (s.die (e.line / 2 ^ 32)).repair = 1) ∨
       (e.rod = true ∧ ((∃ f ∈ d.fabq.take k, f.rod = true ∧ f.conn = e.conn) ∨
         ((∃ o z x y, e.op = .atom o z x y) ∧ ∃ q ∈ s.dies, ∃ f ∈ q.2.fabq, f.rod = true ∧ f.conn = e.conn ∧ f.msg < e.msg)))
     (d.fabq[k]? = none → r = .next s) ∧
     (∀ e, d.fabq[k]? = some e → waits e → r = .next s) ∧
     (∀ e, d.fabq[k]? = some e → ¬ waits e → s.latent = [] →
       ∃ t, r = .next t ∧ (t.die die).fabq = d.fabq.eraseIdx k ∧ (t.die die).fabBud = d.fabBud - 64 ∧ t.sh = s.sh ∧ (e.unit = none → t.co = s.co) ∧
         (∀ bs, e.op = .bytes bs →
           (s.mem.wf = true → ∀ a, t.mem.read a = if e.addr ≤ a ∧ a < e.addr + bs.length then bs.getD (a - e.addr) 0 else s.mem.read a) ∧
           (e.tag = none → e.left = none → (s.dies.map Prod.fst).Pairwise (· < ·) → (∀ j f, f ∈ (if j = die then d.fabq.eraseIdx k else (s.die j).fabq) → f.msg ≠ e.msg) →
             t.out = s.out ++ [.net e.conn 0 0 []])) ∧
         (∀ o z x y, e.op = .atom o z x y → s.mem.wf = true →
           let old := s.mem.readLe e.addr z
           let b := 2 ^ (8 * z)
           t.mem.readLe e.addr z = (match o with
             | .fetchAdd => (old + x.toNat) % b
             | .swap => x.toNat % b
             | .cas => if old = y.toNat % b then x.toNat % b else old) ∧
           (∀ a, a < e.addr ∨ e.addr + z ≤ a → t.mem.read a = s.mem.read a) ∧ t.out = s.out ++ [.net e.conn 0 0 (leBytes z old)])))

/-- The management requests. A request whose session is not bound to what it asks for, or that comes before bring-up is done, is answered with
status 2, one with a word set that is not listed with 1, one for a free partition with 4; nothing else changes then. Else feature.offer,
feature.accept, queue.reg, queue.dereg, fabric.map, xlat.root, bar.grant, bar.free, gang.reg, gang.req and tele.rd answer and do what
R349, R350, R366 and R376 say, each refusal with its status; what R349 does not say of these statuses is the model's: queue.dereg 3 while
records of the queue remain, gang.req 1 for no gang and 4 for one coordinated elsewhere; a request for what lies in a die under repair
waits. Telemetry of group 2 is for a partition that of the ports that carry its traffic, as the last snapshot holds it, rounded down.
SESSION_BIND binds a connection to the active partition its source names. It rests on the choices of the model in log entries 71, 72, 123,
125 and 128. -/
def Obligations.Management : Prop :=
  ∀ (m : MgmtReq) (id a4 a6 : Nat) (s : State),
    let tells : State → Nat → Nat → List Word → State := fun t op st ws => { t with out := t.out ++ [.answer m.session (answerWords op m st ws)] }
    let A : Nat → Nat := m.arg
    let up := 6 ≤ s.bootStep
    let modS := ∃ x ∈ s.sessions, x.id = m.session ∧ x.scope = 256
    let bound := ∃ x ∈ s.sessions, x.id = m.session ∧ (x.scope = m.part ∨ x.scope = 256)
    let short : Nat → Prop := fun n => ∀ w ∈ m.args.drop n, w = 0
    let table := tableHeld s m.part = true
    let modOps : List (Instr × Nat × Nat) := [(.featureOffer m, 0x01, 0), (.featureAccept m, 0x02, 4), (.fabricMap m, 0x12, 4)]
    let partOps : List (Instr × Nat × Nat) := [(.queueReg m, 0x10, 2), (.queueDereg m, 0x11, 1), (.xlatRoot m, 0x20, 1), (.barGrant m, 0x30, 2),
      (.barFree m, 0x31, 1), (.gangReg m, 0x40, 5), (.gangReq m, 0x41, 2)]
    let tele := exec (.teleRd m) s
    let mod := up ∧ m.part = 0xFF ∧ modS
    let part := up ∧ bound
    (∀ o ∈ modOps, (¬ mod → exec o.1 s = .next (tells s o.2.1 2 [])) ∧ (mod → ¬ short o.2.2 → exec o.1 s = .next (tells s o.2.1 1 []))) ∧
    (∀ o ∈ partOps, (¬ part → exec o.1 s = .next (tells s o.2.1 2 [])) ∧ (part → ¬ short o.2.2 → exec o.1 s = .next (tells s o.2.1 1 [])) ∧
      (part → short o.2.2 → s.part? m.part = none → exec o.1 s = .next (tells s o.2.1 4 []))) ∧
    (mod → short 0 → exec (.featureOffer m) s = .next (tells { s with offered := true } 0x01 0 [0xFF, 0, 0, 0])) ∧
    (mod → short 4 →
      let f := A 1 + A 2 * 2 ^ 64 + A 3 * 2 ^ 128 + A 4 * 2 ^ 192
      let ok := s.offered = true ∧ f % 2 = 1 ∧ f ≤ 0xFF
      (s.feature ≠ none → exec (.featureAccept m) s = .next (tells s 0x02 4 [])) ∧
      (s.feature = none → ¬ ok → exec (.featureAccept m) s = .next (tells s 0x02 1 [])) ∧
      (s.feature = none → ok → exec (.featureAccept m) s = .next (tells { s with feature := some f } 0x02 0 [])) ∧
      (2 ^ 32 ≤ A 1 → exec (.fabricMap m) s = .next (tells s 0x12 1 [])) ∧
      (A 1 < 2 ^ 32 → exec (.fabricMap m) s = .next (tells { s with fmap := aput s.fmap (A 1) ((m.args.drop 1).take 3) } 0x12 0 []))) ∧
    (∀ p : Part, part → s.part? m.part = some p →
      (short 2 → 1024 ≤ s.queues.length → exec (.queueReg m) s = .next (tells s 0x10 3 [])) ∧
      (short 2 → s.queues.length < 1024 → devHeld s m.part (A 1) 64 = true → exec (.queueReg m) s = .next s) ∧
      (short 2 → s.queues.length < 1024 → devHeld s m.part (A 1) 64 = false → ∃ (t : State) (q : HQueue), exec (.queueReg m) s = .next (tells t 0x10 0 [BitVec.ofNat 64 q.no]) ∧
        t.queues = s.queues ++ [q] ∧ t.sh = s.sh ∧ q.pid = m.part ∧ q.hdr = A 1 ∧ q.dies = A 2 % 2 ^ 32 ∧ q.stop = 0 ∧ q.done = [] ∧ q.next = q.head ∧
        (∀ x ∈ s.queues, x.no ≠ q.no) ∧ ∀ j, j < q.no → ∃ x ∈ s.queues, x.no = j) ∧
      (short 1 →
        let known := ∃ q ∈ s.queues, q.no = A 1 ∧ q.pid = m.part
        let busy := ∃ r ∈ s.recs, r.queue = A 1
        (¬ known → exec (.queueDereg m) s = .next (tells s 0x11 1 [])) ∧ (known → busy → exec (.queueDereg m) s = .next (tells s 0x11 3 [])) ∧
        (known → ¬ busy → ∃ t : State, exec (.queueDereg m) s = .next (tells t 0x11 0 []) ∧ t = { s with queues := t.queues } ∧
          ∀ q, q ∈ t.queues ↔ q ∈ s.queues ∧ q.no ≠ A 1)) ∧
      (short 1 →
        let good := A 1 % 65536 = 0 ∧ inRanges (A 1) 2048 = true
        let mine : Xlat → Bool := fun x => x.pid == m.part
        (¬ good → exec (.xlatRoot m) s = .next (tells s 0x20 1 [])) ∧ (good → xlatsBusy s mine = true → exec (.xlatRoot m) s = .next s) ∧
        (good → xlatsBusy s mine = false → ∃ t : State, exec (.xlatRoot m) s = .next (tells t 0x20 0 []) ∧ t.part? m.part = some { p with root := some (A 1) } ∧
          (∀ x, x ∈ t.tlb ↔ x ∈ s.tlb ∧ x.pid ≠ m.part) ∧ t.sh = s.sh ∧ t.co = s.co ∧ t.mem = s.mem)) ∧
      (short 2 →
        let home := A 2 % 32
        let waits := (s.die home).repair = 1 ∨ table
        (2 ^ 32 ≤ A 1 → exec (.barGrant m) s = .next (tells s 0x30 1 [])) ∧
        (A 1 < 2 ^ 32 → waits → exec (.barGrant m) s = .next s) ∧
        (A 1 < 2 ^ 32 → ¬ waits → ∀ s1 : State,
          (∀ e : Nat, readRegion s m.part (A 1) = (s1, .error e) → exec (.barGrant m) s = .next (tells s1 0x30 1 [])) ∧
          (∀ g : Region, readRegion s m.part (A 1) = (s1, .ok g) →
            let d := s1.die home
            let under := ∀ q ∈ g.chain, barsUnder s1 m.part q.1 < q.2.2.2
            (¬ under → exec (.barGrant m) s = .next (tells s1 0x30 3 [])) ∧
            ((∀ k, k < 4096 → (d.bar k).granted ≠ none) → exec (.barGrant m) s = .next (tells s1 0x30 3 [])) ∧
            (∀ k : Nat, under → k < 4096 → (d.bar k).granted = none → (∀ j, j < k → (d.bar j).granted ≠ none) → ∃ (t : State) (b : Bar),
              exec (.barGrant m) s = .next (tells t 0x30 0 [BitVec.ofNat 64 (b.gen.toNat * 2 ^ 20 + home * 2 ^ 12 + k)]) ∧ (t.die home).bar k = b ∧
              b = { gen := (d.bar k).gen + 1, phase := (d.bar k).phase, count := 0, arr := 0, bytes := 0, granted := some (m.part, A 1) } ∧
              (∀ j, j ≠ k → (t.die home).bar j = d.bar j) ∧ t.sh = s1.sh)))) ∧
      (short 1 → let w := BitVec.ofNat 64 (A 1)
        let mends := (s.die (barDie w)).repair = 1
        (mends → exec (.barFree m) s = .next s) ∧ (¬ mends → netBarOk s m.part w = false → exec (.barFree m) s = .next (tells s 0x31 1 [])) ∧
        (¬ mends → netBarOk s m.part w = true → exec (.barFree m) s = .next (tells (s.setBar w { s.bar w with granted := none }) 0x31 0 []))) ∧
      (short 5 →
        let good := A 1 ≠ 0 ∧ A 1 < 2 ^ 32 ∧ A 2 < 2 ^ 32 ∧ A 3 % 4 = 0 ∧ A 4 ≠ 0 ∧ A 4 ≤ 4096 ∧ A 5 < 2 ^ 32
        (¬ good → exec (.gangReg m) s = .next (tells s 0x40 1 [])) ∧
        let waits := table ∨ netHeld s m.part (A 3) (4 * A 4) = true
        (good → waits → exec (.gangReg m) s = .next s) ∧
        (good → ¬ waits → ∀ (s1 s2 : State) (g : Region) (e : Nat), (readRegion s m.part (A 5) = (s1, .error e) → exec (.gangReg m) s = .next (tells s1 0x40 1 [])) ∧
          (readRegion s m.part (A 5) = (s1, .ok g) → readNumbers m.part (A 4) (A 3) s1 = (s2, none) → exec (.gangReg m) s = .next (tells s2 0x40 1 []))) ∧
        (good → ¬ waits → ∀ (s1 s2 : State) (g : Region) (l : List Nat), readRegion s m.part (A 5) = (s1, .ok g) → readNumbers m.part (A 4) (A 3) s1 = (s2, some l) →
          ∃ (t : State) (x : Gang), exec (.gangReg m) s = .next (tells t 0x40 0 []) ∧ x.id = A 1 ∧ x.pid = m.part ∧ x.coord = A 2 ∧ x.members = l ∧ x.handle = A 5 ∧
            t.sh = s2.sh ∧ ∀ y, y ∈ t.gangs ↔ y = x ∨ y ∈ s2.gangs ∧ (y.id ≠ A 1 ∨ y.pid ≠ m.part))) ∧
      (short 2 →
        let inG := A 1 / 2 ^ 32
        let outG := A 1 % 2 ^ 32
        let mine : Nat → Prop := fun g => g = 0 ∨ ∃ x ∈ s.gangs, x.id = g ∧ x.pid = m.part ∧ x.coord = s.modNo
        let g : GangMsg := { seq := s.gangSeq + 1, incoming := inG, outgoing := outG, time := A 2, reason := 0, sender := s.modNo }
        (inG = 0 → outG = 0 → exec (.gangReq m) s = .next (tells s 0x41 1 [])) ∧
        (inG ≠ 0 ∨ outG ≠ 0 → ¬ (mine inG ∧ mine outG) → exec (.gangReq m) s = .next (tells s 0x41 4 [])) ∧
        let now := s.gn.t64.toNat
        let live : CoSwitch → Prop := fun c => c.go = false ∧ (now + 20000 < c.t ∨ c.sentConfirm = true ∧ now < c.t) ∧
          ((inG ≠ 0 ∧ (c.inG = inG ∨ c.outG = inG)) ∨ (outG ≠ 0 ∧ (c.inG = outG ∨ c.outG = outG)))
        (inG ≠ 0 ∨ outG ≠ 0 → mine inG → mine outG → (∃ c ∈ s.coords, live c) → exec (.gangReq m) s = .next (tells s 0x41 3 [])) ∧
        (inG ≠ 0 ∨ outG ≠ 0 → mine inG → mine outG → (∀ c ∈ s.coords, ¬ live c) → ∃ t : State,
          exec (.gangReq m) s = .next (tells t 0x41 0 [BitVec.ofNat 64 (s.gangSeq + 1)]) ∧ t.gangSeq = s.gangSeq + 1 ∧
          t.out = s.out ++ (switchMembers s inG outG).map (fun d => .gang d (if A 2 = 0 then 4 else 1) g) ∧
          (∃ c : CoSwitch, t.coords = s.coords ++ [c] ∧ c.seq = s.gangSeq + 1 ∧ c.inG = inG ∧ c.outG = outG ∧ c.t = A 2 ∧ c.acks = [] ∧ c.sentConfirm = false)))) ∧
    (let may := up ∧ if m.part = 0xFF then modS else bound
     (¬ may → tele = .next (tells s 0x50 2 [])) ∧ (may → ¬ short 1 → tele = .next (tells s 0x50 1 [])) ∧
     (may → short 1 → A 1 = 0 → m.part ≠ 0xFF → tele = .next (tells s 0x50 2 [])) ∧
     (may → short 1 → A 1 = 0 → m.part = 0xFF → ∃ t : State, tele = .next (tells t 0x50 0 ((List.range 7).map (fun k =>
       BitVec.ofNat 64 (min ((List.range 32).map (fun d => aget 0 (s.die d).errs k)).sum (2 ^ 32 - 1))))) ∧
       t = { s with dies := t.dies } ∧ ∀ d k, aget 0 (t.die d).errs k = 0) ∧
     (may → short 1 → A 1 = 1 → tele = .next (tells s 0x50 0
       [BitVec.ofNat 64 (s.gn.holdLeft % 2 ^ 32 * 2 ^ 32 + s.gn.lock % 4), BitVec.ofInt 64 (s.gn.offset / 4), BitVec.ofNat 64 (s.gn.port % 64)])) ∧
     (let gives : Nat → List Nat → List (Nat × Nat) → Nat → Nat → Word := fun c ports drops k r =>
        BitVec.ofNat 64 ((Config.telemetry c k ports (drops.filter (fun q => ports.contains q.1))).toNat / r * r)
      (may → short 1 → A 1 = 2 → m.part = 0xFF → ∃ c, tele = .next (tells { s with freeCount := s.freeCount + 1 } 0x50 0
        ((List.range 7).map (fun k => gives c (List.range 48) s.drops k 1)))) ∧
      (may → short 1 → A 1 = 2 → m.part ≠ 0xFF → let ports := ((s.part? m.part).map (fun p => p.ports)).getD []
        tele = .next (tells s 0x50 0 ((List.range 7).map (fun k => gives s.snapTele.2.1 ports s.snapTele.2.2 k 1024))))) ∧
     (may → short 1 → 3 ≤ A 1 → tele = .next (tells s 0x50 1 []))) ∧
    (let others := s.sessions.filter (fun x => x.id ≠ id)
     let named : Part → Prop := fun p => p.state = 1 ∧ (a4 ≠ 0 ∧ p.src4 = a4 ∨ a6 ≠ 0 ∧ p.src6 = a6)
     ((∀ p ∈ s.parts, ¬ named p.2) → exec (.sessionBind id a4 a6) s = .next { s with sessions := others }) ∧
     ((∃ p ∈ s.parts, named p.2) → ∃ p ∈ s.parts, named p.2 ∧
       exec (.sessionBind id a4 a6) s = .next { s with sessions := others ++ [{ id := id, scope := p.1 }] }))

/-- Gang switches at a member and at their coordinator. A switch arms the token of its pair and is acked when its number is new, or higher
than that of an armed one; it is refused for a gang not known here, or, whatever its number, while the gnomon refuses and the pair is
idle. Before firmware runs every message is answered by the management endpoint with status 2. A message to a member with a reserved field
set is refused. A confirm binds the armed token of its number before its window; a window that begins first lapses it. At its time a bound
token, and go on receipt, whatever its number, switches: switched is sent and the outgoing records that hold cores are to be saved, at
once, one that finds no free slot being killed; when none holds a core any more the incoming ones may begin. A stop drops a token that has
not begun to switch, is ignored while it switches, and has the records of a gang switched in saved. When the lock state becomes 2 a bound
token is dropped and refused. The coordinator confirms once every member has acked in time and none has refused or lapsed, and 2 µs after
the time of a confirmed switch records each member that has not switched, by its gang and its place in it, and sends stop. It rests on the
choices of the model in log entry 77. -/
def Obligations.Gangs : Prop :=
  ∀ (g : GangMsg) (seq : Nat) (s : State),
    let now : Int := s.gn.t64.toNat
    let knows : Nat → Prop := fun x => x = 0 ∨ ∃ y ∈ s.gangs, y.id = x
    let known := knows g.incoming ∧ knows g.outgoing
    let fresh := aget 0 s.seen g.sender < g.seq
    let tok : TokSt → Token := fun st => { st := st, seq := g.seq, inG := g.incoming, outG := g.outgoing, t := g.time, coord := g.sender }
    let mine := s.token? g.incoming g.outgoing
    let sent : State → Nat → Nat → Token → State := fun t kind why x => { t with out := t.out ++ [.gang x.coord kind
      { seq := x.seq, incoming := x.inG, outgoing := x.outG, time := x.t, reason := why, sender := t.modNo }] }
    let sw := exec (.gangSwitch g) s
    let arms : Prop := ∃ t, sw = .next (sent t 0x11 0 (tok .armed)) ∧ t.token? g.incoming g.outgoing = some (tok .armed) ∧ t.sh = s.sh ∧ t.recs = s.recs ∧
      t.out = s.out ∧ t.modNo = s.modNo ∧ ∀ i o, (i, o) ≠ (g.incoming, g.outgoing) → t.token? i o = s.token? i o
    let idle : State → Token → Prop := fun t x => t.token? x.inG x.outG = none
    let save : Bool → State → Rec → State := fun atOnce u r => match u.rec? r.id with
      | none => u
      | some z => if z.preAt ≠ none then u.setRec { z with atOnce := z.atOnce || atOnce } else match freeSave u z.pid z.region with
        | some n => u.setRec { z with preAt := some u.gn.t64.toNat, save := some n, atOnce := atOnce }
        | none => endRec u r.id 4
    let saved : Nat → Bool → State → State → Prop := fun x atOnce u t =>
      t = { (if x = 0 then u else (s.recs.filter (fun r => r.gang == x && r.gangIn && (r.stat == .placed || r.stat == .running))).foldl (save atOnce) u) with gangs := t.gangs } ∧
      (x ≠ 0 → ∀ y ∈ t.gangs, y.id = x → y.isIn = false)
    let switches : Out3 → Token → Prop := fun r x => ∃ u t : State, r = .next t ∧ saved x.outG true u t ∧
      u = { s with tokens := u.tokens, seen := u.seen, out := (sent s 0x13 0 x).out } ∧
      u.token? x.inG x.outG = some { x with st := .switching } ∧ ∀ i o, (i, o) ≠ (x.inG, x.outG) → u.token? i o = s.token? i o
    let up := 6 ≤ s.bootStep
    let clean := up ∧ g.resv = 0
    (¬ up → ∀ i ∈ [Instr.gangSwitch g, .confirm g, .gangStop g, .gangGo g, .gangAck g, .gangRefuse g, .gangSwitched g, .gangLapsed g],
      exec i s = .next { s with out := s.out ++ [.answer g.sender (BitVec.ofNat 64 (2 * 2 ^ 40) :: List.replicate 7 0)] }) ∧
    (up → g.resv ≠ 0 → sw = .next (sent s 0x12 0 (tok .armed)) ∧ exec (.confirm g) s = .next (sent s 0x12 0 (tok .armed)) ∧
      exec (.gangStop g) s = .next (sent s 0x12 0 (tok .armed)) ∧ exec (.gangGo g) s = .next (sent s 0x12 0 (tok .switching)) ∧
      ∀ i ∈ [Instr.gangAck g, .gangRefuse g, .gangSwitched g, .gangLapsed g], exec i s = .next s) ∧
    (clean → ¬ known → sw = .next (sent s 0x12 2 (tok .armed))) ∧
    (clean → known → mine = none → 2 ≤ s.gn.lock →
      sw = .next (sent { s with seen := aput s.seen g.sender (max (aget 0 s.seen g.sender) g.seq) } 0x12 1 (tok .armed))) ∧
    (clean → known → mine = none → s.gn.lock < 2 → ¬ fresh → sw = .next s) ∧
    (clean → known → mine = none → s.gn.lock < 2 → fresh → arms) ∧
    (∀ x, clean → known → mine = some x → x.st = .armed ∧ x.seq < g.seq → arms) ∧
    (∀ x, clean → known → mine = some x → ¬ (x.st = .armed ∧ x.seq < g.seq) → sw = .next s) ∧
    (clean → let r := exec (.confirm g) s
     (mine = none → r = .next s) ∧
     (∀ x, mine = some x → ¬ (x.st = .armed ∧ x.seq = g.seq ∧ now < x.t - 20000) → r = .next s) ∧
     (∀ x, mine = some x → x.st = .armed → x.seq = g.seq → now < x.t - 20000 → ∃ t, r = .next t ∧ t = { s with tokens := t.tokens } ∧
       t.token? g.incoming g.outgoing = some { x with st := .bound })) ∧
    (clean → let r := exec (.gangStop g) s
     (∀ x, mine = some x → x.seq ≠ g.seq ∨ x.st = .switching → r = .next s) ∧
     (∀ x, mine = some x → x.seq = g.seq → x.st ≠ .switching → ∃ t, r = .next t ∧ t = { s with tokens := t.tokens } ∧ idle t x) ∧
     (mine = none → (∀ y ∈ s.gangs, y.id = g.incoming → y.isIn = false) → r = .next s) ∧
     (mine = none → (∃ y ∈ s.gangs, y.id = g.incoming ∧ y.isIn = true) → ∃ t, r = .next t ∧ saved g.incoming false s t)) ∧
    (clean → ¬ known → exec (.gangGo g) s = .next (sent s 0x12 2 (tok .switching))) ∧
    (clean → known → switches (exec (.gangGo g) s) (tok .switching)) ∧
    (s.tokens[seq]? = none → ∀ i ∈ [Instr.gangWindowLapse seq, .gangSwitchTime seq, .switchingDone seq], exec i s = .next s) ∧
    (∀ x, s.tokens[seq]? = some x →
      let late := x.st = .armed ∧ (x.t : Int) - 20000 ≤ now
      let due := x.st = .bound ∧ (x.t : Int) ≤ now
      let over' := x.st = .switching ∧ (x.outG = 0 ∨ ∀ r ∈ s.recs, r.gang = x.outG → r.gangIn = true → holdsCore s r = false)
      (¬ late → exec (.gangWindowLapse seq) s = .next s) ∧
      (late → ∃ t, exec (.gangWindowLapse seq) s = .next (sent t 0x14 0 x) ∧ t = { s with tokens := t.tokens } ∧ idle t x) ∧
      (¬ due → exec (.gangSwitchTime seq) s = .next s) ∧
      (due → switches (exec (.gangSwitchTime seq) s) x) ∧
      (¬ over' → exec (.switchingDone seq) s = .next s) ∧
      (over' → ∃ t, exec (.switchingDone seq) s = .next t ∧ idle t x ∧ (x.inG ≠ 0 → ∀ y ∈ t.gangs, y.id = x.inG → y.isIn = true) ∧
        (x.inG ≠ 0 → ∀ r, s.rec? r.id = some r → r.gang = x.inG → r.stat = .placed → ∃ z, t.rec? r.id = some z ∧ z.gangIn = true ∧
          (z.stat = .running ↔ (r.timed = true → (r.launch : Int) ≤ now))))) ∧
    (clean → let c? := s.coord? g.seq
     (c? = none → ∀ i ∈ [Instr.gangAck g, .gangRefuse g, .gangSwitched g, .gangLapsed g], exec i s = .next s) ∧
     (∀ c, c? = some c →
       let ms := switchMembers s c.inG c.outG
       let acks := if g.sender ∈ c.acks then c.acks else c.acks ++ [g.sender]
       let all := c.go = false ∧ c.bad = false ∧ c.sentConfirm = false ∧ (∀ m ∈ ms, m ∈ acks) ∧ now + 20000 < c.t
       let put : CoSwitch → State := fun d => { s with coords := s.coords.map (fun e => if e.seq = g.seq then d else e) }
       let msg : GangMsg := { seq := c.seq, incoming := c.inG, outgoing := c.outG, time := c.t, reason := 0, sender := s.modNo }
       (¬ all → exec (.gangAck g) s = .next (put { c with acks := acks })) ∧
       (all → exec (.gangAck g) s = .next { put { c with acks := acks, sentConfirm := true } with out := s.out ++ ms.map (fun d => .gang d 2 msg) }) ∧
       exec (.gangRefuse g) s = .next (put { c with bad := true }) ∧ exec (.gangLapsed g) s = .next (put { c with bad := true }) ∧
       exec (.gangSwitched g) s = .next (put { c with switched := if g.sender ∈ c.switched then c.switched else c.switched ++ [g.sender] }))) ∧
    (let r := exec (.stragglerTimeout seq) s
     (s.coord? seq = none → r = .next s) ∧
     (∀ c, s.coord? seq = some c →
       let ms := switchMembers s c.inG c.outG
       let slow := ms.filter (fun m => !c.switched.contains m)
       let runs := c.go = false ∧ c.sentConfirm = true ∧ c.late = false ∧ slow ≠ [] ∧ (c.t : Int) + 8000 ≤ now
       let at' : Nat → Option (Gang × Nat) := fun m => [c.inG, c.outG].findSome? (fun id => if id = 0 then none else
         (s.gangs.find? (fun y => y.id == id)).bind (fun y => (y.members.findIdx? (· == m)).map (fun k => (y, k))))
       (¬ runs → r = .next s) ∧
       (runs → (∀ m ∈ slow, ∀ y k, at' m = some (y, k) → residentOf s y.pid (y.handle % 2 ^ 20) = none) →
         s.heldRecs.length + slow.length ≤ 16 → ∃ t, r = .next t ∧ t.sh = s.sh ∧ t.coord? seq = some { c with late := true } ∧
         t.out = s.out ++ ms.map (fun d => .gang d 3 { seq := c.seq, incoming := c.inG, outgoing := c.outG, time := c.t, reason := 0, sender := s.modNo }) ∧
         ∃ l, t.heldRecs = s.heldRecs ++ l ∧ l.map (fun e => (e.1, e.2.1, e.2.2.cause, e.2.2.source, e.2.2.detail, e.2.2.pa, e.2.2.handle)) =
           (slow.filterMap at').map (fun e => (e.1.pid, e.1.handle % 2 ^ 20, 0x0F, 4, e.2, e.1.id, e.1.handle))))) ∧
    (s.gn.lock = 1 → s.gn.holdLeft = 0 →
      let lost := s.tokens.filter (fun x => x.st == .bound && decide (now < x.t))
      ∃ t, exec .holdoverExpiry s = .next t ∧ t.gn.lock = 2 ∧
        t.out = s.out ++ lost.map (fun x => .gang x.coord 0x12 { seq := x.seq, incoming := x.inG, outgoing := x.outG, time := x.t, reason := 1, sender := s.modNo }) ∧
        ∀ x, x ∈ t.tokens ↔ x ∈ s.tokens ∧ ∀ y ∈ lost, (y.inG, y.outG) ≠ (x.inG, x.outG))

/-- The commands of a partition control block. Firmware, once it runs, acts on a block of slots 1 to 254 whose command carries a new sequence
number, unless one is in progress: no command of R361, and one not listed for the state, complete with result 3, and a command waits for
its own event. CREATE refuses a malformed block with 1 and a taken resource with 2, and else makes the partition active with keys for
every window; STOP moves it to stopping with its queues and sessions closed and its records that hold cores to be saved, one that finds no
free slot being killed, and it is stopped once nothing of it is under way; TEARDOWN forgets what the device holds of it, empties its key
slots and starts its scrubs, and frees it once they are done; RESUME, HARVEST, MEASURE and ATTEST complete with their results in word 1; a
harvest clears the dirty bits of the leaves it reports and writes an entry for each, a measurement writes its root. A harvest whose tables
lie in a fenced die, or where no window of the partition with a loaded key reaches, completes with result 1. What a command reads or
writes in a die under repair is awaited. Word 1 is written whole each time: state, result and sequence. It rests on the choices of the
model in log entries 64, 65, 73 and 78. -/
def Obligations.Partitions : Prop :=
  ∀ (pid : Nat) (s : State),
    let w0 := pcb s pid 0
    let cmd := w0 / 2 ^ 56 % 2 ^ 8
    let seq := w0 % 2 ^ 32
    let st := ((s.part? pid).map (fun p => p.state)).getD 0
    let block := 0x027FC0000000 + 0x800 * pid
    let word1 : State → Nat → Nat → Nat → State := fun t a b c =>
      let u : State := { t with mem := t.mem.writeLe (block + 8) 8 (a * 2 ^ 56 + b * 2 ^ 48 + c % 2 ^ 32) }
      match t.part? pid with
      | some p => u.setPart pid { p with last := (b, c % 2 ^ 32) }
      | none => u
    let open' := 6 ≤ s.bootStep ∧ 1 ≤ pid ∧ pid ≤ 254 ∧ seq ≠ pcb s pid 1 % 2 ^ 32 ∧ st ≠ 2 ∧ st ≠ 4
    let all : List (Instr × Nat × List Nat) := [(.create pid, 1, [0]), (.stop pid, 2, [1]), (.teardown pid, 3, [3]), (.harvest pid, 4, [1, 3]),
      (.measure pid, 5, [1, 3]), (.resume pid, 6, [3]), (.attest pid, 7, [1, 3])]
    let save : State → Rec → State := fun u r => match u.rec? r.id with
      | none => u
      | some z => if z.preAt ≠ none then u.setRec z else match freeSave u z.pid z.region with
        | some n => u.setRec { z with preAt := some u.gn.t64.toNat, save := some n, atOnce := false }
        | none => endRec u r.id 4
    let but : State → State → List Nat → Prop := fun u t ks => ∀ a, (∀ k ∈ ks, a < block + 8 * k ∨ block + 8 * k + 8 ≤ a) → t.mem.read a = u.mem.read a
    let arg := pcb s pid 5 % 2 ^ 56
    let n := pcb s pid 6 % 2 ^ 32
    let free : State → Prop := fun t => (∀ r ∈ t.recs, r.pid ≠ pid) ∧ (∀ q ∈ t.queues, q.pid ≠ pid) ∧ (∀ y ∈ t.gangs, y.pid ≠ pid) ∧
      (∀ y ∈ t.tenants, y.pid ≠ pid) ∧ (∀ e ∈ t.heldRecs, e.1 ≠ pid) ∧ (∀ k, ∀ e ∈ (t.core k).cmds, e.2.pid ≠ pid)
    (∀ c ∈ all,
      (¬ open' → exec c.1 s = .next s) ∧
      (open' → cmd = 0 ∨ 7 < cmd → exec c.1 s = .next (word1 s st 3 seq)) ∧
      (open' → 1 ≤ cmd → cmd ≤ 7 → cmd ≠ c.2.1 → exec c.1 s = .next s) ∧
      (open' → cmd = c.2.1 → st ∉ c.2.2 → exec c.1 s = .next (word1 s st 3 seq))) ∧
    (open' → cmd = 1 → st = 0 →
      let us := ((List.range 32).map (dieEntry s pid)).filter (fun u => u.cores != 0 || u.mask != 0 || u.clus.any (fun c => c.2 != 0))
      let base := pcb s pid 4 % 2 ^ 11
      let size := pcb s pid 4 / 2 ^ 16 % 2 ^ 11
      let taken := (∃ u ∈ us, useTaken s u = true) ∨ ∃ p ∈ s.parts, meet p.2.mmBase p.2.mmSize base size = true
      (createBad s pid = true → exec (.create pid) s = .next (word1 s st 1 seq)) ∧
      (createBad s pid = false → taken → exec (.create pid) s = .next (word1 s st 2 seq)) ∧
      (createBad s pid = false → ¬ taken → s.mem.wf = true → ∃ t p, exec (.create pid) s = .next t ∧ t.sh = s.sh ∧ t.co = s.co ∧ t.part? pid = some p ∧
        p.state = 1 ∧ p.mmBase = base ∧ p.mmSize = size ∧ p.tblBase = pcb s pid 2 % 2 ^ 56 ∧ p.tblSlots = pcb s pid 3 % 2 ^ 20 ∧
        p.sup = pcb s pid 3 / 2 ^ 32 % 2 ^ 8 ∧ p.root = none ∧ p.meas = 0 ∧ p.last = (0, seq) ∧ pcb t pid 1 = 2 ^ 56 + seq ∧
        ∀ u ∈ us, u.mask ≠ 0 → ∃ b ∈ (t.die u.die).banks, b.pid = pid ∧ b.mask = u.mask ∧ b.pbase = u.pbase ∧ b.pcap = u.pcap ∧
          b.key ∈ (t.die u.die).keys)) ∧
    (∀ p, open' → s.part? pid = some p →
      let waits := ∃ q ∈ s.queues, q.pid = pid ∧ q.stop = 0 ∧ devHeld s pid q.hdr 64 = true
      (cmd = 2 → p.state = 1 → waits → exec (.stop pid) s = .next s) ∧
      (cmd = 2 → p.state = 1 → ¬ waits → s.mem.wf = true → ∃ t v : State, exec (.stop pid) s = .next t ∧ v.gn = s.gn ∧ (s.latent = [] → v.recs = s.recs) ∧
        t.recs = ((v.recs.filter (fun r => r.pid == pid && (r.stat == .placed || r.stat == .running))).foldl save v).recs ∧ t.part? pid = some { p with state := 2, seq := seq } ∧
        (∀ q ∈ t.queues, q.pid = pid → q.stop ≠ 0) ∧ (∀ x ∈ t.sessions, x.scope ≠ pid) ∧ pcb t pid 1 = (2 * 2 ^ 56 + p.last.1 * 2 ^ 48 + p.last.2 % 2 ^ 32) % 2 ^ 64) ∧
      (cmd = 3 → p.state = 3 → s.mem.wf = true → ∃ t, exec (.teardown pid) s = .next t ∧ t.sh = s.sh ∧ t.part? pid = some { p with state := 4, seq := seq } ∧
        free t ∧ (∀ x ∈ t.sessions, x.scope ≠ pid) ∧ (∀ x ∈ t.tlb, x.pid ≠ pid) ∧ pcb t pid 1 = (4 * 2 ^ 56 + p.last.1 * 2 ^ 48 + p.last.2 % 2 ^ 32) % 2 ^ 64 ∧
        (∀ d, d < 32 → ∀ b ∈ (t.die d).banks, b.pid = pid → b.key ∉ (t.die d).keys) ∧
        (∀ d, d < 32 → (s.die d).scrub? pid = none → (s.die d).pend = [] → (s.die d).scrubs.length < 8 →
          ∃ r, (t.die d).scrub? pid = some r ∧ r.fin = false ∧ r.done = 0)) ∧
      (cmd = 6 → p.state = 3 → exec (.resume pid) s = .next (word1 (s.setPart pid { p with state := 1 }) 1 0 seq)) ∧
      (cmd = 4 → p.state = 1 ∨ p.state = 3 →
        let sel : Xlat → Bool := fun x => x.pid == pid && x.w
        let all := dirtyLeaves s pid
        let l := all.take n
        let held := xlatsBusy s sel = true ∨ harvestHeld s pid arg (8 * l.length) = true
        let barred := ∃ root, p.root = some root ∧ ∃ b ∈ tableBases s.mem 5 0 root, isDS b = true ∧ ((s.die (b / 2 ^ 32)).repair = 2 ∨ physOwned s pid b = false)
        (¬ held → barred → exec (.harvest pid) s = .next (word1 s p.state 1 seq)) ∧
        (held → exec (.harvest pid) s = .next s) ∧
        (∀ s1, ¬ held → ¬ barred → fwSpan s 0 arg (8 * l.length) .write = (s1, none) → exec (.harvest pid) s = .next (word1 s1 (((s1.part? pid).map (fun p => p.state)).getD 0) 1 seq)) ∧
        (∀ s1 ps, ¬ held → ¬ barred → fwSpan s 0 arg (8 * l.length) .write = (s1, some ps) →
          let u := writeParts (l.foldl (cleanLeaf pid) s1) 0 ps (l.flatMap (fun e => leBytes 8 (e.2.1 / 65536 * 65536 + (4 - e.2.2))))
          ∃ t, exec (.harvest pid) s = .next t ∧ (∀ x, x ∈ t.tlb ↔ x ∈ u.tlb ∧ sel x = false) ∧
            (u.mem.wf = true → but u t [1, 6] ∧ pcb t pid 6 = pcb u pid 6 % 2 ^ 32 + l.length * 2 ^ 32 ∧
              pcb t pid 1 = (pcbState u pid * 2 ^ 56 + (if n < all.length then 4 else 0) * 2 ^ 48 + seq) % 2 ^ 64)) ∧
        (∀ u e, (cleanLeaf pid u e).mem = u.mem.writeLe e.1 8 (u.mem.readLe e.1 8 - 2 * (u.mem.readLe e.1 8 / 2 % 2))) ∧
        (∀ t r, harvestRun s pid = some (t, r) → exec (.harvest pid) s = .next (word1 t (((t.part? pid).map (fun p => p.state)).getD 0) r seq)) ∧
        (¬ held → ¬ barred → all = [] → s.mem.wf = true → ∃ t, exec (.harvest pid) s = .next t ∧ t.sh = s.sh ∧
          (∀ x, x ∈ t.tlb ↔ x ∈ s.tlb ∧ sel x = false) ∧ pcb t pid 1 = p.state % 2 ^ 8 * 2 ^ 56 + seq ∧ pcb t pid 6 = n)) ∧
      (cmd = 5 → p.state = 1 ∨ p.state = 3 →
        (n = 0 → exec (.measure pid) s = .next (word1 s p.state 1 seq)) ∧
        let held := netHeld s pid arg (32 * n + 32) = true
        (n ≠ 0 → held → exec (.measure pid) s = .next s) ∧
        (∀ u q ps bs, (writeParts u q ps bs).mem = (cutParts ps bs).foldl (fun m p => m.writeN p.1 p.2) u.mem) ∧
        (n ≠ 0 → ¬ held → ∀ s1, fwSpan s pid arg (32 * n) .read = (s1, none) → exec (.measure pid) s = .next (word1 s1 (((s1.part? pid).map (fun p => p.state)).getD 0) 1 seq)) ∧
        (n ≠ 0 → ¬ held → ∀ s1 s2 ps qs q, fwSpan s pid arg (32 * n) .read = (s1, some ps) → fwSpan s1 pid (arg + 32 * n) 32 .write = (s2, some qs) → s2.part? pid = some q →
          let root := hashRoot 5 (cutN 32 n (ps.flatMap (fun p => s2.mem.readN p.1 p.2)))
          ∃ t, exec (.measure pid) s = .next t ∧ (s2.latent = [] → t.sh = s2.sh) ∧ t.part? pid = some { q with meas := BitVec.ofNat 256 (leNat (sha3 (leBytes 32 q.meas.toNat ++ root ++ leBytes 8 n))), last := (0, seq) } ∧
            (s2.mem.wf = true → pcb t pid 1 = q.state % 2 ^ 8 * 2 ^ 56 + seq ∧ but (writeParts s2 pid qs root) t [1, 10, 11, 12, 13]))) ∧
      (cmd = 7 → p.state = 1 ∨ p.state = 3 →
        let held := netHeld s 0 arg 4096 = true
        (held → exec (.attest pid) s = .next s) ∧
        (∀ s1, ¬ held → fwSpan s 0 arg 32 .read = (s1, none) → exec (.attest pid) s = .next (word1 s1 (((s1.part? pid).map (fun p => p.state)).getD 0) 1 seq)) ∧
        (∀ s1 s2 ns ps q, ¬ held → fwSpan s 0 arg 32 .read = (s1, some ns) → s1.part? pid = some q → fwSpan s1 0 arg 4096 .write = (s2, some ps) →
          let nonce := ns.flatMap (fun p => s2.mem.readN p.1 p.2)
          let head := nonce ++ padTo 32 s2.digest ++ leBytes 32 q.meas.toNat ++ leBytes 32 (s2.feature.getD 0) ++ leBytes 4 s2.modNo ++
            [BitVec.ofNat 8 pid, BitVec.ofNat 8 q.state, 0, 0] ++ leBytes 8 s2.gn.t64.toNat
          let all := head ++ padTo 2420 ((Config.signature head).take 2420) ++ List.replicate 12 0 ++ (List.range 1312).map Config.identityKey
          exec (.attest pid) s = .next (word1 (writeParts s2 0 ps (padTo 4096 all)) (((s2.part? pid).map (fun p => p.state)).getD 0) 0 seq)))) ∧
    (s.part? pid = none → exec (.stopDrained pid) s = .next s ∧ exec (.teardownDone pid) s = .next s) ∧
    (∀ p, s.part? pid = some p →
      (s.bootStep < 6 ∨ p.state ≠ 2 ∨ partQuiet s pid = false → exec (.stopDrained pid) s = .next s) ∧
      (6 ≤ s.bootStep → p.state = 2 → partQuiet s pid = true → ∀ t r, harvestRun s pid = some (t, r) → t.part? pid = some p →
        exec (.stopDrained pid) s = .next (word1 (t.setPart pid { p with state := 3 }) 3 r p.seq)) ∧
      (s.bootStep < 6 ∨ p.state ≠ 4 ∨ (∃ d, d < 32 ∧ ∀ r, (s.die d).scrub? pid = some r → r.fin = false) → exec (.teardownDone pid) s = .next s) ∧
      (6 ≤ s.bootStep → p.state = 4 → (∀ d, d < 32 → ∃ r, (s.die d).scrub? pid = some r ∧ r.fin = true) → s.mem.wf = true → ∃ t, exec (.teardownDone pid) s = .next t ∧
        t.sh = s.sh ∧ t.co = s.co ∧ t.part? pid = none ∧ (∀ d, ∀ b ∈ (t.die d).banks, b.pid ≠ pid) ∧ (∀ d, (t.die d).scrub? pid = none) ∧
        pcb t pid 1 = p.seq % 2 ^ 32))

/-- Resets, bring-up and the repair of a die. POWER_ON leaves the state after power-on; a watchdog or thermal reset, and command 9 of the
module block, leave it too, with their cause, but keep main memory, the partitions, and every die's keys, bank map and scrubs, with what
these have written. BOOT_GO verifies the image once the go word stands: refused, the go word is cleared and the status is 0xFE; accepted,
firmware runs, the measurement of the image is kept, the control partition is active and word 1 of the module block shows it with the last
sequence number as done, active and stopping partitions are stopped, and the connection that wrote the go word has module scope. REPAIR
starts on command 8, refuses others but reset with result 3, and once the die is quiet lets it rejoin, its cores as at reset, with result
0, or fences it with result 2; REPAIR_TIMEOUT fences it after 500 ms. It rests on the choices of the model in log entries 6, 7, 10, 73, 79
and 80. -/
def Obligations.Resets : Prop :=
  ∀ (id die : Nat) (s : State),
    let w0 := pcb s 0 0
    let cmd := w0 / 2 ^ 56 % 2 ^ 8
    let seq := w0 % 2 ^ 32
    let new := seq ≠ pcb s 0 1 % 2 ^ 32
    let word1 : State → Nat → Nat → State := fun t r q =>
      let u : State := { t with mem := t.mem.writeLe (0x027FC0000000 + 8) 8 ((((t.part? 0).map (fun p => p.state)).getD 0) * 2 ^ 56 + r * 2 ^ 48 + q % 2 ^ 32) }
      match t.part? 0 with
      | some p => u.setPart 0 { p with last := (r, q % 2 ^ 32) }
      | none => u
    let z := State.reset
    let warm : Out3 → Nat → Prop := fun r cause => ∃ t, r = .next t ∧ t.sh = z.sh ∧ t.co = z.co ∧ t.cores = [] ∧ t.tlb = [] ∧ t.granules = [] ∧
      t.feature = none ∧ t.bootStep = 3 ∧ t.cause = cause ∧ t.sessions = [] ∧ t.queues = [] ∧ t.recs = [] ∧ t.gangs = [] ∧ t.tokens = [] ∧
      t.gn = z.gn ∧ t.parts = s.parts ∧
      ((∀ e ∈ s.dies, e.1 < 32 ∧ ∀ b ∈ e.2.banks, b.pbase + b.pcap ≤ 65536) → ∀ a, mmBase ≤ a → a < 2 ^ 44 → t.mem.read a = s.mem.read a) ∧
      (s.mem.wf = true → ∀ d r b, r ∈ (s.die d).scrubs → r.cleared = true → r.fin = true ∨ r.done ≠ 0 → (s.die d).banks.find? (fun b => b.pid == r.pid) = some b →
        ∀ a, d * 2 ^ 32 + b.pbase * 65536 ≤ a → a < d * 2 ^ 32 + (b.pbase + min r.done b.pcap) * 65536 → t.mem.read a = 0) ∧
      ∀ d, (t.die d).keys = (s.die d).keys ∧ (t.die d).banks = (s.die d).banks ∧ (t.die d).scrubs = (s.die d).scrubs.map (fun r => { r with cleared := r.cleared && (r.fin || r.done != 0) }) ∧ (t.die d).pend = (s.die d).pend ∧
        (t.die d).fabq = [] ∧ (t.die d).errs = [] ∧ (t.die d).repair = 0
    exec .powerOn s = .next { z with turns := s.turns, freeCount := s.freeCount } ∧
    warm (exec .watchdogReset s) 1 ∧ warm (exec .thermalReset s) 1 ∧
    (let may := s.bootStep = 6 ∧ cmd = 9 ∧ new ∧ ∀ d, d < 32 → (s.die d).repair ≠ 1
     (may → warm (exec .moduleReset s) 2) ∧ (¬ may → exec .moduleReset s = .next s)) ∧
    (let base := 0x027FF0000000
     let W : Nat → Nat := fun k => s.mem.readLe (base + 8 * k) 8
     let put : State → Nat → Nat → State := fun t k v => { t with mem := t.mem.writeLe (base + 8 * k) 8 v }
     let image := s.mem.readN (base + 0x1000) (W 0)
     let ok := 4096 ≤ W 0 ∧ W 0 ≤ 0x0FFFF000 ∧ Config.imageVerifies image = true
     (s.bootStep ≠ 3 ∨ W 2 ≠ 1 ∨ s.goConn ≠ some id → exec (.bootGo id) s = .next s) ∧
     (s.bootStep = 3 → W 2 = 1 → s.goConn = some id → ∃ t, exec (.bootGo id) s = .next t ∧ t.sh = s.sh ∧
       (¬ ok → t = put (put s 2 0) 3 0xFE) ∧
       (ok → t.bootStep = 6 ∧ t.gn = { s.gn with lock := 3, good := 0 } ∧ t.digest = sha3 image ∧ t.modNo = W 1 % 2 ^ 32 ∧ t.sessions = [{ id := id, scope := 256 }] ∧
         (∃ p, t.part? 0 = some p ∧ p.state = 1 ∧ p.mmBase = 1535 ∧ p.mmSize = 1) ∧ (s.mem.wf = true → pcb t 0 1 = 2 ^ 56 + pcb s 0 0 % 2 ^ 32) ∧
         ∀ k p, k ≠ 0 → (s.parts.map Prod.fst).Nodup → s.part? k = some p → ∃ q, t.part? k = some q ∧
           q.state = (if p.state = 1 ∨ p.state = 2 then 3 else p.state) ∧ q.root = p.root ∧ q.uses = p.uses))) ∧
    (let r := exec .repair s
     (s.bootStep < 6 → r = .next s) ∧
     (6 ≤ s.bootStep → (∀ d, d < 32 → (s.die d).repair ≠ 1) →
       (¬ new ∨ cmd = 9 → r = .next s) ∧ (new → cmd ≠ 8 → cmd ≠ 9 → r = .next (word1 s 3 seq)) ∧
       (new → cmd = 8 → let d := pcb s 0 6 % 32
         ∃ t, r = .next t ∧ (t.die d).repair = 1 ∧ (t.die d).repairAt = s.gn.t64.toNat ∧ (t.die d).repairSeq = seq ∧ (t.die d).keys = (s.die d).keys)) ∧
     (∀ d, 6 ≤ s.bootStep → d < 32 → (s.die d).repair = 1 → (∀ e, e < d → (s.die e).repair ≠ 1) →
       (dieQuiet s d = false → r = .next s) ∧
       (dieQuiet s d = true → ∃ t, r = .next t ∧
         (Config.repairSucceeds (s.freeCount + 1) = true → (t.die d).repair = 0 ∧ (t.die d).keys = (s.die d).keys ∧ (t.die d).banks = (s.die d).banks ∧ (∀ k, dieOf k = d → t.core k = Core.reset k) ∧
           (∀ a, a < 2 ^ 44 → (a < 0x027FC0000008 ∨ 0x027FC0000010 ≤ a) → t.mem.read a = s.mem.read a) ∧
           (s.mem.wf = true → pcb t 0 1 = (pcbState s 0 * 2 ^ 56 + (s.die d).repairSeq % 2 ^ 32) % 2 ^ 64)) ∧
         (Config.repairSucceeds (s.freeCount + 1) = false → (t.die d).repair = 2 ∧ (t.die d).fabq = [] ∧
           ∀ p, s.part? 0 = some p → t.part? 0 = some { p with last := (2, (s.die d).repairSeq % 2 ^ 32) }))) ∧
     let late := (s.die die).repair = 1 ∧ (s.die die).repairAt + 2000000000 ≤ s.gn.t64.toNat
     (¬ late → exec (.repairTimeout die) s = .next s) ∧
     (late → ∃ t, exec (.repairTimeout die) s = .next t ∧ (t.die die).repair = 2 ∧ (t.die die).fabq = []))
end

