-- ==== Sys2Proof/Laws/Mem.lean ====
section
/-! SUPPORT. Tables and memory: what a read gives after a write, a clearing or a copy, and that each of them keeps memory in its
canonical form. -/

namespace Sys2Proof.Machine

/-! ## Tables by number -/

theorem aget_aput_self {α : Type} (d : α) (l : List (Nat × α)) (k : Nat) (v : α) : aget d (aput l k v) k = v := by
  induction l with
  | nil => simp [aput, aget]
  | cons e r ih =>
    obtain ⟨n, w⟩ := e
    simp only [aput]
    split
    · simp [aget]
    · split
      · simp [aget]
      · rename_i h1 h2
        simp [aget, ih, Ne.symm h2]

theorem aget_aput_ne {α : Type} (d : α) (l : List (Nat × α)) {k j : Nat} (v : α) (h : j ≠ k) : aget d (aput l k v) j = aget d l j := by
  induction l with
  | nil => simp [aput, aget, Ne.symm h]
  | cons e r ih =>
    obtain ⟨n, w⟩ := e
    simp only [aput]
    split
    · simp [aget, Ne.symm h]
    · split
      · rename_i h2
        simp [aget, ← h2, Ne.symm h]
      · simp [aget, ih]

theorem aget_aput {α : Type} (d : α) (l : List (Nat × α)) (k j : Nat) (v : α) : aget d (aput l k v) j = if j = k then v else aget d l j := by
  split
  · subst_vars; exact aget_aput_self _ _ _ _
  · exact aget_aput_ne _ _ _ (by assumption)

/-! ## Cells in rising order -/

theorem cellsRise_mono {lo lo' : Nat} {l : List Host.Cell} (h : cellsRise lo l = true) (hl : lo' ≤ lo) : cellsRise lo' l = true := by
  cases l with
  | nil => rfl
  | cons e r =>
    simp only [cellsRise, Bool.and_eq_true, decide_eq_true_eq] at h ⊢
    exact ⟨by omega, h.2⟩

theorem cellsRise_le {lo : Nat} {l : List Host.Cell} (h : cellsRise lo l = true) : ∀ e ∈ l, lo ≤ e.1 := by
  induction l generalizing lo with
  | nil => simp
  | cons e r ih =>
    obtain ⟨n, w⟩ := e
    simp only [cellsRise, Bool.and_eq_true, decide_eq_true_eq] at h
    intro x hx
    rcases List.mem_cons.1 hx with rfl | hx
    · exact h.1
    · have := ih h.2 x hx
      omega

theorem aget_absent {d : Byte} {l : List Host.Cell} {a : Nat} (h : ∀ e ∈ l, e.1 ≠ a) : aget d l a = d := by
  induction l with
  | nil => rfl
  | cons e r ih =>
    obtain ⟨n, w⟩ := e
    have h1 : n ≠ a := h _ (List.mem_cons_self ..)
    simp only [aget, h1, if_false]
    exact ih (fun x hx => h x (List.mem_cons_of_mem _ hx))

theorem cellsPut_rise {bl : Byte} {l : List Host.Cell} {lo a : Nat} {b : Byte} (h : cellsRise lo l = true) (ha : lo ≤ a) :
    cellsRise lo (cellsPut bl l a b) = true := by
  induction l generalizing lo with
  | nil => simp only [cellsPut]; split <;> simp [cellsRise, ha]
  | cons e r ih =>
    obtain ⟨n, w⟩ := e
    simp only [cellsRise, Bool.and_eq_true, decide_eq_true_eq] at h
    simp only [cellsPut]
    split
    · split
      · simp [cellsRise, h]
      · simp only [cellsRise, Bool.and_eq_true, decide_eq_true_eq]
        exact ⟨ha, by omega, h.2⟩
    · split
      · split
        · exact cellsRise_mono h.2 (by omega)
        · simp only [cellsRise, Bool.and_eq_true, decide_eq_true_eq]
          refine ⟨ha, ?_⟩
          have : a = n := by assumption
          exact this ▸ h.2
      · simp only [cellsRise, Bool.and_eq_true, decide_eq_true_eq]
        exact ⟨h.1, ih h.2 (by omega)⟩

theorem cellsPut_mem {bl : Byte} {l : List Host.Cell} {a : Nat} {b : Byte} {e : Host.Cell} (h : e ∈ cellsPut bl l a b) :
    e ∈ l ∨ e = (a, b) ∧ b ≠ bl := by
  induction l with
  | nil =>
    simp only [cellsPut] at h
    split at h
    · simp at h
    · simp only [List.mem_singleton] at h; exact .inr ⟨h, by assumption⟩
  | cons x r ih =>
    obtain ⟨n, w⟩ := x
    simp only [cellsPut] at h
    split at h
    · split at h
      · exact .inl h
      · rcases List.mem_cons.1 h with h | h
        · exact .inr ⟨h, by assumption⟩
        · exact .inl h
    · split at h
      · split at h
        · exact .inl (List.mem_cons_of_mem _ h)
        · rcases List.mem_cons.1 h with h | h
          · exact .inr ⟨h, by assumption⟩
          · exact .inl (List.mem_cons_of_mem _ h)
      · rcases List.mem_cons.1 h with h | h
        · exact .inl (h ▸ List.mem_cons_self ..)
        · rcases ih h with h | h
          · exact .inl (List.mem_cons_of_mem _ h)
          · exact .inr h

theorem cellsPut_self {bl : Byte} {l : List Host.Cell} {lo a : Nat} {b : Byte} (h : cellsRise lo l = true) :
    aget bl (cellsPut bl l a b) a = b := by
  induction l generalizing lo with
  | nil => simp only [cellsPut]; split <;> simp_all [aget]
  | cons e r ih =>
    obtain ⟨n, w⟩ := e
    simp only [cellsRise, Bool.and_eq_true, decide_eq_true_eq] at h
    have hr := cellsRise_le h.2
    simp only [cellsPut]
    split
    · split
      · rw [aget_absent, ‹b = bl›]
        intro x hx
        rcases List.mem_cons.1 hx with rfl | hx
        · simp; omega
        · have := hr x hx; omega
      · simp [aget]
    · split
      · split
        · rw [aget_absent, ‹b = bl›]
          intro x hx
          have := hr x hx
          omega
        · simp [aget]
      · have h2 : n ≠ a := Ne.symm (by assumption)
        simp only [aget, h2, if_false]
        exact ih h.2

theorem cellsPut_other {bl d : Byte} {l : List Host.Cell} {a c : Nat} {b : Byte} (h : c ≠ a) :
    aget d (cellsPut bl l a b) c = aget d l c := by
  induction l with
  | nil => simp only [cellsPut]; split <;> simp [aget, Ne.symm h]
  | cons e r ih =>
    obtain ⟨n, w⟩ := e
    simp only [cellsPut]
    split
    · split
      · rfl
      · simp [aget, Ne.symm h]
    · split
      · have h2 : n ≠ c := by omega
        split <;> simp_all [aget]

      · simp only [aget, ih]

/-! ## Reading after writing -/

theorem Memory.wf_rise {m : Memory} (h : m.wf = true) : cellsRise 0 m.cells = true := by
  simp only [Memory.wf, Bool.and_eq_true] at h
  exact h.1

theorem Memory.wf_listed {m : Memory} (h : m.wf = true) : ∀ e ∈ m.cells, e.2 ≠ Memory.blank m.undef e.1 := by
  simp only [Memory.wf, Bool.and_eq_true, List.all_eq_true, decide_eq_true_eq] at h
  exact h.2

theorem Memory.wf_of {m : Memory} (h1 : cellsRise 0 m.cells = true) (h2 : ∀ e ∈ m.cells, e.2 ≠ Memory.blank m.undef e.1) : m.wf = true := by
  simp only [Memory.wf, Bool.and_eq_true, List.all_eq_true, decide_eq_true_eq]
  exact ⟨h1, h2⟩

/-- A byte written is read back; every other address reads as before. -/
theorem Memory.read_write {m : Memory} (h : m.wf = true) (a c : Nat) (b : Byte) :
    (m.write a b).read c = if c = a then b else m.read c := by
  unfold Memory.read Memory.write
  split
  · subst_vars
    exact cellsPut_self (Memory.wf_rise h)
  · exact cellsPut_other (by assumption)

/-- A write keeps the canonical form. -/
theorem Memory.write_wf {m : Memory} (h : m.wf = true) (a : Nat) (b : Byte) : (m.write a b).wf = true := by
  refine Memory.wf_of (cellsPut_rise (Memory.wf_rise h) (Nat.zero_le _)) ?_
  intro e he
  rcases cellsPut_mem he with he | ⟨rfl, hb⟩
  · exact Memory.wf_listed h e he
  · exact hb

theorem Memory.writeN_wf {m : Memory} (h : m.wf = true) (a : Nat) (l : List Byte) : (m.writeN a l).wf = true := by
  induction l generalizing m a with
  | nil => exact h
  | cons b r ih => exact ih (Memory.write_wf h a b) (a + 1)

theorem Memory.writeLe_wf {m : Memory} (h : m.wf = true) (a n v : Nat) : (m.writeLe a n v).wf = true := Memory.writeN_wf h a _

/-- Bytes written from an address on are read back there, and nowhere else does a byte differ. -/
theorem Memory.read_writeN {m : Memory} (h : m.wf = true) (a c : Nat) (l : List Byte) :
    (m.writeN a l).read c = if hc : a ≤ c ∧ c < a + l.length then l[c - a]'(by omega) else m.read c := by
  induction l generalizing m a with
  | nil => simp [Memory.writeN]
  | cons b r ih =>
    rw [Memory.writeN, ih (Memory.write_wf h a b), Memory.read_write h]
    by_cases h1 : a + 1 ≤ c ∧ c < a + 1 + r.length
    · have h2 : a ≤ c ∧ c < a + (b :: r).length := by simp only [List.length_cons]; omega
      rw [dif_pos h1, dif_pos h2]
      have h3 : c - a = c - (a + 1) + 1 := by omega
      simp only [h3, List.getElem_cons_succ]
    · rw [dif_neg h1]
      by_cases h4 : c = a
      · subst h4
        simp
      · rw [if_neg h4, dif_neg]
        simp only [List.length_cons]
        omega

@[simp] theorem leBytes_length (n v : Nat) : (leBytes n v).length = n := by
  induction n generalizing v with
  | zero => rfl
  | succ n ih => simp [leBytes, ih]

theorem leNat_leBytes (n v : Nat) : leNat (leBytes n v) = v % 256 ^ n := by
  induction n generalizing v with
  | zero => simp [leBytes, leNat, Nat.mod_one]
  | succ n ih =>
    have h : (BitVec.ofNat 8 v).toNat = v % 256 := by simp
    rw [leBytes, leNat, ih, h, Nat.pow_succ', Nat.mod_mul]

/-- A little-endian number is read back. -/
theorem Memory.readLe_writeLe {m : Memory} (h : m.wf = true) (a n v : Nat) : (m.writeLe a n v).readLe a n = v % 256 ^ n := by
  rw [← leNat_leBytes]
  unfold Memory.readLe Memory.readN Memory.writeLe
  congr 1
  apply List.ext_getElem
  · simp
  · intro k h1 h2
    simp only [List.length_map, List.length_range] at h1
    simp [Memory.read_writeN h, h1]

theorem Memory.read_writeLe_other {m : Memory} (h : m.wf = true) {a n c : Nat} (v : Nat) (hc : c < a ∨ a + n ≤ c) :
    (m.writeLe a n v).read c = m.read c := by
  rw [Memory.writeLe, Memory.read_writeN h, dif_neg]
  simp only [leBytes_length]
  omega

/-! ## Clearing a range -/

theorem cellsRise_filter {lo : Nat} {l : List Host.Cell} (p : Host.Cell → Bool) (h : cellsRise lo l = true) :
    cellsRise lo (l.filter p) = true := by
  induction l generalizing lo with
  | nil => rfl
  | cons e r ih =>
    obtain ⟨n, w⟩ := e
    simp only [cellsRise, Bool.and_eq_true, decide_eq_true_eq] at h
    simp only [List.filter]
    split
    · simp [cellsRise, h.1, ih h.2]
    · exact cellsRise_mono (ih h.2) (by omega)

theorem cellsRise_append {lo : Nat} {l r : List Host.Cell} (hl : cellsRise lo l = true) (hr : cellsRise lo r = true)
    (h : ∀ e ∈ l, ∀ f ∈ r, e.1 < f.1) : cellsRise lo (l ++ r) = true := by
  induction l generalizing lo with
  | nil => exact hr
  | cons e l ih =>
    obtain ⟨n, w⟩ := e
    simp only [cellsRise, Bool.and_eq_true, decide_eq_true_eq] at hl
    simp only [List.cons_append, cellsRise, Bool.and_eq_true, decide_eq_true_eq]
    refine ⟨hl.1, ih hl.2 ?_ (fun x hx => h x (List.mem_cons_of_mem _ hx))⟩
    have h2 : ∀ f ∈ r, n + 1 ≤ f.1 := fun f hf => h _ (List.mem_cons_self ..) f hf
    cases r with
    | nil => rfl
    | cons f r =>
      simp only [cellsRise, Bool.and_eq_true, decide_eq_true_eq] at hr ⊢
      exact ⟨h2 f (List.mem_cons_self ..), hr.2⟩

theorem aget_filter {d : Byte} {l : List Host.Cell} (p : Nat → Bool) (a : Nat) :
    aget d (l.filter (fun c => p c.1)) a = if p a then aget d l a else d := by
  induction l with
  | nil => simp [aget]
  | cons e r ih =>
    obtain ⟨n, w⟩ := e
    by_cases hp : p n = true
    · simp only [List.filter, hp, aget, ih]
      by_cases hn : n = a
      · subst hn; simp [hp]
      · simp [hn]
    · simp only [List.filter, hp, ih, aget]
      by_cases hn : n = a
      · subst hn; simp [hp]
      · simp [hn]

theorem aget_append {d : Byte} {l r : List Host.Cell} (a : Nat) : aget d (l ++ r) a = aget (aget d r a) l a := by
  induction l with
  | nil => rfl
  | cons e l ih => obtain ⟨n, w⟩ := e; simp only [List.cons_append, aget, ih]

/-- What an unlisted address reads as, with ranges that do not hold it left out. -/
theorem Memory.blank_filter {u : List (Nat × Nat × Nat × Nat)} {p : Nat × Nat × Nat × Nat → Bool} {a : Nat}
    (h : ∀ r ∈ u, r.1 ≤ a → a < r.2.1 → p r = true) : Memory.blank (u.filter p) a = Memory.blank u a := by
  unfold Memory.blank
  suffices hs : (u.filter p).find? (fun r => r.1 ≤ a && a < r.2.1) = u.find? (fun r => r.1 ≤ a && a < r.2.1) by rw [hs]
  induction u with
  | nil => rfl
  | cons e u ih =>
    have ih' := ih (fun r hr => h r (List.mem_cons_of_mem _ hr))
    by_cases he : e.1 ≤ a ∧ a < e.2.1
    · have hp := h e (List.mem_cons_self ..) he.1 he.2
      simp [List.filter, hp, he]
    · have hf : (decide (e.1 ≤ a) && decide (a < e.2.1)) = false := by
        by_cases h1 : e.1 ≤ a <;> by_cases h2 : a < e.2.1 <;> simp_all
      simp only [List.filter]
      split
      · simp only [List.find?, hf, ih']
      · simp only [List.find?, hf, ih']

theorem Memory.blank_cons_out {u : List (Nat × Nat × Nat × Nat)} {lo hi e b a : Nat} (h : a < lo ∨ hi ≤ a) :
    Memory.blank ((lo, hi, e, b) :: u) a = Memory.blank u a := by
  have hf : (decide (lo ≤ a) && decide (a < hi)) = false := by
    by_cases h1 : lo ≤ a <;> by_cases h2 : a < hi <;> simp_all
    omega
  simp only [Memory.blank, List.find?, hf]

/-- A range cleared: outside it every address reads as before, and inside a zero epoch gives zeros (R365). -/
theorem Memory.read_cover (m : Memory) (lo hi epoch a : Nat) :
    (m.cover lo hi epoch).read a =
      if lo ≤ a ∧ a < hi then (if epoch = 0 then 0 else Config.freeByte epoch (lo + (a - lo))) else m.read a := by
  unfold Memory.cover
  by_cases h1 : hi ≤ lo
  · simp only [h1, if_true]
    rw [if_neg (by omega)]
  · simp only [h1, if_false]
    have hb : ∀ d, aget d (cellsBelow m.cells lo ++ cellsFrom m.cells hi) a = if lo ≤ a ∧ a < hi then d else aget d m.cells a := by
      intro d
      rw [aget_append]
      have e1 : ∀ x, aget x (cellsBelow m.cells lo) a = if a < lo then aget x m.cells a else x := by
        intro x; simpa [cellsBelow] using aget_filter (d := x) (l := m.cells) (fun n => decide (n < lo)) a
      have e2 : ∀ x, aget x (cellsFrom m.cells hi) a = if hi ≤ a then aget x m.cells a else x := by
        intro x; simpa [cellsFrom] using aget_filter (d := x) (l := m.cells) (fun n => decide (hi ≤ n)) a
      rw [e1, e2]
      by_cases h2 : a < lo
      · have h3 : ¬ hi ≤ a := by omega
        have h4 : ¬ (lo ≤ a ∧ a < hi) := by omega
        simp [h2, h3, h4]
      · by_cases h3 : hi ≤ a
        · have h4 : ¬ (lo ≤ a ∧ a < hi) := by omega
          simp [h2, h3, h4]
        · have h4 : lo ≤ a ∧ a < hi := by omega
          simp [h2, h3, h4]
    have hu : ∀ x, ¬ (lo ≤ x ∧ x < hi) →
        Memory.blank (m.undef.filter (fun r => !(decide (lo ≤ r.1) && decide (r.2.1 ≤ hi)))) x = Memory.blank m.undef x := by
      intro x hx
      apply Memory.blank_filter
      intro r _ h2 h3
      by_cases h5 : lo ≤ r.1 <;> by_cases h6 : r.2.1 ≤ hi <;> simp [h5, h6]
      omega
    simp only [Memory.read, hb]
    by_cases h2 : lo ≤ a ∧ a < hi
    · simp only [h2, and_self, if_true]
      split
      · rename_i hp
        simp only [Bool.and_eq_true, decide_eq_true_eq, Bool.not_eq_true', List.any_eq_false] at hp
        simp only [hp.1, if_true, Memory.blank]
        have : (m.undef.filter (fun r => !(decide (lo ≤ r.1) && decide (r.2.1 ≤ hi)))).find?
            (fun r => decide (r.1 ≤ a) && decide (a < r.2.1)) = none := by
          rw [List.find?_eq_none]
          intro r hr hc
          have := hp.2 r hr
          simp at hc this
          omega
        rw [this]
      · have ht : (decide (lo ≤ a) && decide (a < hi)) = true := by simp [h2]
        simp only [Memory.blank, List.find?, ht]
    · simp only [h2, if_false]
      congr 1
      split
      · exact hu a h2
      · rw [Memory.blank_cons_out (by omega)]
        exact hu a h2

/-- Clearing keeps the canonical form. -/
theorem Memory.cover_wf {m : Memory} (h : m.wf = true) (lo hi epoch : Nat) : (m.cover lo hi epoch).wf = true := by
  unfold Memory.cover
  by_cases h1 : hi ≤ lo
  · simpa [h1] using h
  · simp only [h1, if_false]
    have hr := Memory.wf_rise h
    refine Memory.wf_of (cellsRise_append (cellsRise_filter _ hr) (cellsRise_filter _ hr) ?_) ?_
    · intro e he f hf
      simp only [cellsBelow, cellsFrom, List.mem_filter, decide_eq_true_eq] at he hf
      omega
    · intro e he
      have hm : e ∈ m.cells ∧ ¬ (lo ≤ e.1 ∧ e.1 < hi) := by
        simp only [cellsBelow, cellsFrom, List.mem_append, List.mem_filter, decide_eq_true_eq] at he
        rcases he with he | he
        · exact ⟨he.1, by omega⟩
        · exact ⟨he.1, by omega⟩
      have hl := Memory.wf_listed h e hm.1
      have hu : Memory.blank (m.undef.filter (fun r => !(decide (lo ≤ r.1) && decide (r.2.1 ≤ hi)))) e.1 = Memory.blank m.undef e.1 := by
        apply Memory.blank_filter
        intro r _ h2 h3
        by_cases h5 : lo ≤ r.1 <;> by_cases h6 : r.2.1 ≤ hi <;> simp [h5, h6]
        omega
      simp only
      split
      · rw [hu]; exact hl
      · rw [Memory.blank_cons_out (by omega), hu]; exact hl

/-! ## Copying a range -/

theorem cellsRise_map {l : List Host.Cell} {lo src dst : Nat} (h : cellsRise lo l = true) (hs : src ≤ lo) :
    cellsRise (lo - src + dst) (l.map (fun c => (c.1 - src + dst, c.2))) = true := by
  induction l generalizing lo with
  | nil => rfl
  | cons e r ih =>
    obtain ⟨n, w⟩ := e
    simp only [cellsRise, Bool.and_eq_true, decide_eq_true_eq] at h
    simp only [List.map_cons, cellsRise, Bool.and_eq_true, decide_eq_true_eq]
    refine ⟨by omega, cellsRise_mono (ih h.2 (by omega)) (by omega)⟩

theorem Memory.blank_copy {u : List (Nat × Nat × Nat × Nat)} {src dst n a : Nat} (h1 : src ≤ a) (h2 : a < src + n) :
    Memory.blank (u.filterMap (fun r =>
      let lo := Nat.max r.1 src
      let hi := Nat.min r.2.1 (src + n)
      if lo < hi then some (lo - src + dst, hi - src + dst, r.2.2.1, r.2.2.2 + (lo - r.1)) else none) ++ (dst, dst + n, 0, dst) :: u)
        (a - src + dst) = Memory.blank u a := by
  have hmax : ∀ x y : Nat, Nat.max x y = max x y := fun _ _ => rfl
  have hmin : ∀ x y : Nat, Nat.min x y = min x y := fun _ _ => rfl
  suffices hs : ∀ v : List (Nat × Nat × Nat × Nat), Memory.blank (v.filterMap (fun r =>
      let lo := Nat.max r.1 src
      let hi := Nat.min r.2.1 (src + n)
      if lo < hi then some (lo - src + dst, hi - src + dst, r.2.2.1, r.2.2.2 + (lo - r.1)) else none) ++ (dst, dst + n, 0, dst) :: u)
        (a - src + dst) = Memory.blank v a from hs u
  intro v
  induction v with
  | nil =>
    have : (decide (dst ≤ a - src + dst) && decide (a - src + dst < dst + n)) = true := by simp; omega
    simp only [List.filterMap_nil, List.nil_append, Memory.blank, List.find?, this, if_true]
  | cons r v ih =>
    by_cases hr : r.1 ≤ a ∧ a < r.2.1
    · have hl : Nat.max r.1 src < Nat.min r.2.1 (src + n) := by rw [hmax, hmin]; omega
      have hf : (decide (Nat.max r.1 src - src + dst ≤ a - src + dst) && decide (a - src + dst < Nat.min r.2.1 (src + n) - src + dst)) = true := by
        simp only [Bool.and_eq_true, decide_eq_true_eq, hmax, hmin]; omega
      have hg : (decide (r.1 ≤ a) && decide (a < r.2.1)) = true := by simp [hr]
      have he : r.2.2.2 + (Nat.max r.1 src - r.1) + (a - src + dst - (Nat.max r.1 src - src + dst)) = r.2.2.2 + (a - r.1) := by
        rw [hmax]; omega
      simp only [List.filterMap_cons, hl, if_true, List.cons_append, Memory.blank, List.find?, hf, hg, he]
    · have hg : (decide (r.1 ≤ a) && decide (a < r.2.1)) = false := by
        by_cases h3 : r.1 ≤ a <;> by_cases h4 : a < r.2.1 <;> simp_all
      have hv : Memory.blank (r :: v) a = Memory.blank v a := by simp only [Memory.blank, List.find?, hg]
      rw [hv, ← ih]
      simp only [List.filterMap_cons]
      split
      · rfl
      · rename_i q hq
        split at hq
        · rename_i hl
          simp only [Option.some.injEq] at hq
          subst hq
          rw [List.cons_append, Memory.blank_cons_out]
          simp only [hmax, hmin] at hl ⊢
          omega
        · simp at hq

/-- Outside the destination an unlisted address reads as before. -/
theorem Memory.blank_copy_out {u v : List (Nat × Nat × Nat × Nat)} {src dst n a : Nat} (h : a < dst ∨ dst + n ≤ a) :
    Memory.blank (v.filterMap (fun r =>
      let lo := Nat.max r.1 src
      let hi := Nat.min r.2.1 (src + n)
      if lo < hi then some (lo - src + dst, hi - src + dst, r.2.2.1, r.2.2.2 + (lo - r.1)) else none) ++ (dst, dst + n, 0, dst) :: u)
        a = Memory.blank u a := by
  have hmax : ∀ x y : Nat, Nat.max x y = max x y := fun _ _ => rfl
  have hmin : ∀ x y : Nat, Nat.min x y = min x y := fun _ _ => rfl
  induction v with
  | nil => exact Memory.blank_cons_out h
  | cons r v ih =>
    simp only [List.filterMap_cons]
    split
    · exact ih
    · rename_i q hq
      split at hq
      · rename_i hl
        simp only [Option.some.injEq] at hq
        subst hq
        rw [List.cons_append, Memory.blank_cons_out, ih]
        simp only [hmax, hmin] at hl ⊢
        omega
      · simp at hq

/-- Copying keeps the canonical form. -/
theorem Memory.copy_wf {m : Memory} (h : m.wf = true) (src dst n : Nat) : (m.copy src dst n).wf = true := by
  unfold Memory.copy
  split
  · exact h
  · have hr := Memory.wf_rise h
    have hmv : cellsRise dst ((cellsBelow (cellsFrom m.cells src) (src + n)).map (fun c => (c.1 - src + dst, c.2))) = true := by
      have h1 : cellsRise src (cellsFrom m.cells src) = true := by
        clear h
        generalize m.cells = l at hr
        have : ∀ lo, cellsRise lo l = true → cellsRise (max lo src) (cellsFrom l src) = true := by
          induction l with
          | nil => intros; rfl
          | cons e r ih =>
            intro lo hl
            obtain ⟨k, w⟩ := e
            simp only [cellsRise, Bool.and_eq_true, decide_eq_true_eq] at hl
            have h3 := ih (cellsRise_mono hl.2 (Nat.zero_le _)) (k + 1) hl.2
            simp only [cellsFrom, List.filter] at h3 ⊢
            by_cases hk : src ≤ k
            · simp only [hk, decide_true, cellsRise, Bool.and_eq_true, decide_eq_true_eq]
              exact ⟨by omega, cellsRise_mono h3 (by omega)⟩
            · simp only [hk, decide_false]
              exact cellsRise_mono h3 (by omega)
        simpa using this 0 hr
      have h2 := cellsRise_map (dst := dst) (cellsRise_filter (fun c => decide (c.1 < src + n)) h1) (Nat.le_refl src)
      simpa [cellsBelow] using h2
    refine Memory.wf_of (cellsRise_append (cellsRise_append (cellsRise_filter _ hr) (cellsRise_mono hmv (Nat.zero_le _)) ?_)
      (cellsRise_filter _ hr) ?_) ?_
    · intro e he f hf
      simp only [cellsBelow, List.mem_filter, decide_eq_true_eq] at he
      have := cellsRise_le hmv f hf
      omega
    · intro e he f hf
      simp only [cellsFrom, List.mem_filter, decide_eq_true_eq] at hf
      simp only [cellsBelow, cellsFrom, List.mem_append, List.mem_filter, List.mem_map, decide_eq_true_eq] at he
      rcases he with he | ⟨x, hx, rfl⟩
      · omega
      · simp only; omega
    · intro e he
      simp only [cellsBelow, cellsFrom, List.mem_append, List.mem_filter, List.mem_map, decide_eq_true_eq] at he
      rcases he with (he | ⟨x, hx, rfl⟩) | he
      · rw [Memory.blank_copy_out (by omega)]
        exact Memory.wf_listed h e he.1
      · simp only
        rw [Memory.blank_copy (by omega) (by omega)]
        exact Memory.wf_listed h x hx.1.1
      · rw [Memory.blank_copy_out (by omega)]
        exact Memory.wf_listed h e he.1

end Sys2Proof.Machine
end

