-- ==== Sys2Proof/Laws/Elem.lean ====
section
/-! SUPPORT. Elements of vector groups: what reading one gives after another is written, and what a write of elements leaves alone. -/

namespace Sys2Proof.Machine

/-! ## Fields of bits -/

theorem testBit_bitsAt (w lo n k : Nat) : (bitsAt w lo n).testBit k = (decide (k < n) && w.testBit (lo + k)) := by
  simp [bitsAt, Nat.testBit_mod_two_pow, Nat.testBit_div_two_pow, Nat.add_comm]

theorem getLsbD_putBits {w : Nat} (b : BitVec w) (off n v k : Nat) (hk : k < w) :
    (putBits b off n v).getLsbD k = if off ≤ k ∧ k < off + n then v.testBit (k - off) else b.getLsbD k := by
  have h1 : ((2 ^ n - 1) * 2 ^ off).testBit k = (decide (off ≤ k) && decide (k - off < n)) := by
    simp [Nat.testBit_mul_two_pow, Nat.testBit_two_pow_sub_one]
  have h2 : (v % 2 ^ n * 2 ^ off).testBit k = (decide (off ≤ k) && (decide (k - off < n) && v.testBit (k - off))) := by
    simp [Nat.testBit_mul_two_pow, Nat.testBit_mod_two_pow]
  simp only [putBits, BitVec.getLsbD_or, BitVec.getLsbD_and, BitVec.getLsbD_not, BitVec.getLsbD_ofNat, h1, h2, hk, decide_true, Bool.true_and]
  by_cases h3 : off ≤ k
  · by_cases h4 : k - off < n
    · have h5 : off ≤ k ∧ k < off + n := by omega
      simp [h3, h4, h5]
    · have h5 : ¬ k < off + n := by omega
      simp [h3, h4, h5]
  · simp [h3]

/-- The field written holds the value. -/
theorem bitsAt_putBits_self {w : Nat} (b : BitVec w) (off n v : Nat) (h : off + n ≤ w) : bitsAt (putBits b off n v).toNat off n = v % 2 ^ n := by
  apply Nat.eq_of_testBit_eq
  intro k
  rw [testBit_bitsAt, Nat.testBit_mod_two_pow]
  by_cases hk : k < n
  · have : (putBits b off n v).toNat.testBit (off + k) = (putBits b off n v).getLsbD (off + k) := rfl
    rw [this, getLsbD_putBits _ _ _ _ _ (by omega), if_pos (by omega), Nat.add_sub_cancel_left]
  · simp [hk]

/-- A field apart from the one written keeps its value. -/
theorem bitsAt_putBits_apart {w : Nat} (b : BitVec w) (off n v off' n' : Nat) (hw : off' + n' ≤ w) (h : off' + n' ≤ off ∨ off + n ≤ off') :
    bitsAt (putBits b off n v).toNat off' n' = bitsAt b.toNat off' n' := by
  apply Nat.eq_of_testBit_eq
  intro k
  rw [testBit_bitsAt, testBit_bitsAt]
  by_cases hk : k < n'
  · have h1 : (putBits b off n v).toNat.testBit (off' + k) = (putBits b off n v).getLsbD (off' + k) := rfl
    have h2 : b.toNat.testBit (off' + k) = b.getLsbD (off' + k) := rfl
    rw [h1, h2, getLsbD_putBits _ _ _ _ _ (by omega), if_neg (by omega)]
  · simp [hk]

/-! ## Where elements lie -/

theorem EType.bits_pos (e : EType) : 0 < e.bits := by cases e <;> decide
theorem EType.bits_dvd (e : EType) : 512 / e.bits * e.bits = 512 := by cases e <;> decide
theorem EType.bits_le (e : EType) : e.bits ≤ 64 := by cases e <;> decide

theorem eper_eq (t : Shuttle) (e : EType) : t.eper e = t.lanes * (512 / e.bits) := by
  unfold Shuttle.eper
  rw [← EType.bits_dvd e, ← Nat.mul_assoc, Nat.mul_div_cancel _ (EType.bits_pos e), EType.bits_dvd]

/-- An element lies inside its register. -/
theorem elemOff_le {t : Shuttle} {e : EType} {j : Nat} (hl : 1 ≤ t.lanes) (hj : j < t.eper e) :
    t.elemOff e j + e.bits ≤ t.lanes * 512 ∧ j / t.lanes * e.bits + e.bits ≤ 512 := by
  rw [eper_eq, Nat.mul_comm] at hj
  have h1 : j / t.lanes < 512 / e.bits := (Nat.div_lt_iff_lt_mul (by omega)).2 hj
  have h2 : (j / t.lanes + 1) * e.bits ≤ 512 / e.bits * e.bits := Nat.mul_le_mul_right _ h1
  rw [EType.bits_dvd, Nat.add_mul, Nat.one_mul] at h2
  have h3 : j % t.lanes < t.lanes := Nat.mod_lt _ (by omega)
  have h4 : (j % t.lanes + 1) * 512 ≤ t.lanes * 512 := Nat.mul_le_mul_right _ h3
  unfold Shuttle.elemOff
  omega

/-- Two elements of a register lie apart. -/
theorem elemOff_apart {t : Shuttle} {e : EType} {j k : Nat} (hl : 1 ≤ t.lanes) (hj : j < t.eper e) (hk : k < t.eper e) (h : j ≠ k) :
    t.elemOff e j + e.bits ≤ t.elemOff e k ∨ t.elemOff e k + e.bits ≤ t.elemOff e j := by
  have a := (elemOff_le hl hj).2
  have b := (elemOff_le hl hk).2
  unfold Shuttle.elemOff
  by_cases hm : j % t.lanes = k % t.lanes
  · have hd : j / t.lanes ≠ k / t.lanes := by
      intro hd
      exact h (by rw [← Nat.div_add_mod j t.lanes, ← Nat.div_add_mod k t.lanes, hm, hd])
    rcases Nat.lt_or_gt_of_ne hd with hd | hd
    · have := Nat.mul_le_mul_right e.bits (Nat.succ_le_of_lt hd)
      rw [Nat.succ_mul] at this
      omega
    · have := Nat.mul_le_mul_right e.bits (Nat.succ_le_of_lt hd)
      rw [Nat.succ_mul] at this
      omega
  · rcases Nat.lt_or_gt_of_ne hm with hm | hm <;> omega

/-! ## Reading after writing -/

theorem vreg_set (t : Shuttle) (r k : Nat) (b : BitVec 16384) (h : r < 64) :
    (t.v.setIfInBounds r b).getD k 0 = if k = r then b else t.v.getD k 0 := by
  have hget : ∀ u : Vector (BitVec 16384) 64, u.getD k 0 = if hk : k < 64 then u[k] else 0 := by
    intro u
    by_cases hk : k < 64 <;> simp [Vector.getD, hk]
  rw [hget, hget]
  by_cases hk : k < 64
  · rw [dif_pos hk, dif_pos hk, Vector.getElem_setIfInBounds]
    simp only [eq_comm]
  · have : k ≠ r := by omega
    rw [dif_neg hk, dif_neg hk, if_neg this]

/-- The register of an element of a group, by its number. -/
theorem elem_reg {t : Shuttle} {n g i : Nat} {e : EType} (hl : 1 ≤ t.lanes) (hn : n + g ≤ 64) (hi : i < g * t.eper e) : n + i / t.eper e < 64 := by
  have : i / t.eper e < g := by
    have h0 : 0 < t.eper e := by
      rw [eper_eq]
      have : 0 < 512 / e.bits := by cases e <;> decide
      exact Nat.mul_pos hl this
    exact (Nat.div_lt_iff_lt_mul h0).2 hi
  omega

/-- Reading an element of a group after one of the group is written. -/
theorem elem_elemSet {t : Shuttle} {n g i j : Nat} {e : EType} (v : Nat) (hl : 1 ≤ t.lanes) (hl2 : t.lanes ≤ 32) (hn : n + g ≤ 64)
    (hi : i < g * t.eper e) (hj : j < g * t.eper e) :
    (t.elemSet n i e v).elem n j e = if j = i then v % 2 ^ e.bits else t.elem n j e := by
  have h0 : 0 < t.eper e := by
    rw [eper_eq]
    have : 0 < 512 / e.bits := by cases e <;> decide
    exact Nat.mul_pos hl this
  have hri := elem_reg hl hn hi
  have hE : (t.elemSet n i e v).eper e = t.eper e := rfl
  have hO : ∀ k, (t.elemSet n i e v).elemOff e k = t.elemOff e k := fun _ => rfl
  unfold Shuttle.elem
  rw [hE, hO]
  have hv : (t.elemSet n i e v).vreg (n + j / t.eper e) =
      if n + j / t.eper e = n + i / t.eper e then putBits (t.vreg (n + i / t.eper e)) (t.elemOff e (i % t.eper e)) e.bits v
      else t.vreg (n + j / t.eper e) := vreg_set t _ _ _ hri
  have li := elemOff_le hl (Nat.mod_lt i h0)
  have lj := elemOff_le hl (Nat.mod_lt j h0)
  have hL : t.lanes * 512 ≤ 16384 := by omega
  rw [hv]
  by_cases hji : j = i
  · subst hji
    rw [if_pos rfl, if_pos rfl]
    exact bitsAt_putBits_self _ _ _ _ (by omega)
  · rw [if_neg hji]
    split
    · have hd : j / t.eper e = i / t.eper e := by omega
      have hm : j % t.eper e ≠ i % t.eper e := by
        intro hm
        exact hji (by rw [← Nat.div_add_mod j (t.eper e), ← Nat.div_add_mod i (t.eper e), hd, hm])
      rw [bitsAt_putBits_apart _ _ _ _ _ _ (by omega) (elemOff_apart hl (Nat.mod_lt j h0) (Nat.mod_lt i h0) hm), hd]
    · rfl

/-- A register outside the group keeps its value. -/
theorem vreg_elemSet {t : Shuttle} {n g i r : Nat} {e : EType} (v : Nat) (hl : 1 ≤ t.lanes) (hn : n + g ≤ 64) (hi : i < g * t.eper e)
    (hr : r < n ∨ n + g ≤ r) : (t.elemSet n i e v).vreg r = t.vreg r := by
  have hri := elem_reg hl hn hi
  have h0 : 0 < t.eper e := by
    rw [eper_eq]
    have : 0 < 512 / e.bits := by cases e <;> decide
    exact Nat.mul_pos hl this
  have hg : i / t.eper e < g := (Nat.div_lt_iff_lt_mul h0).2 hi
  have hne : r ≠ n + i / t.eper e := by
    generalize i / t.eper e = q at *
    omega
  have hv : (t.elemSet n i e v).vreg r = if r = n + i / t.eper e then putBits (t.vreg (n + i / t.eper e)) (t.elemOff e (i % t.eper e)) e.bits v
      else t.vreg r := vreg_set t _ r _ hri
  rw [hv, if_neg hne]

/-! ## Writing many elements -/

/-- What is the same in two shuttles after elements are written: everything but the vector file, its dirty and its poison marks. -/
def Shuttle.sameButV (t u : Shuttle) : Prop := u = { t with v := u.v, vdirty := u.vdirty, vpoison := u.vpoison }

theorem Shuttle.sameButV_refl (t : Shuttle) : t.sameButV t := rfl
theorem Shuttle.sameButV_trans {t u w : Shuttle} (h1 : t.sameButV u) (h2 : u.sameButV w) : t.sameButV w := by
  unfold Shuttle.sameButV at *
  rw [h2]
  rw [h1]

theorem elemSet_sameButV (t : Shuttle) (n i : Nat) (e : EType) (v : Nat) : t.sameButV (t.elemSet n i e v) := rfl

theorem vputs_sameButV (t : Shuttle) (n : Nat) (e : EType) (l : List (Nat × Nat)) : t.sameButV (t.vputs n e l) := by
  induction l generalizing t with
  | nil => exact Shuttle.sameButV_refl t
  | cons x r ih =>
    simp only [Shuttle.vputs, Shuttle.vwrite]
    split
    · exact Shuttle.sameButV_trans (elemSet_sameButV _ _ _ _ _) (ih _)
    · exact ih _

theorem unpoison_sameButV (t : Shuttle) (n : Nat) (e : EType) (is : List Nat) : t.sameButV (t.unpoison n e is) := by
  unfold Shuttle.unpoison
  split <;> rfl

theorem unpoison_v (t : Shuttle) (n : Nat) (e : EType) (is : List Nat) : (t.unpoison n e is).v = t.v := by
  unfold Shuttle.unpoison
  split <;> rfl

theorem vwrites_sameButV (t : Shuttle) (n : Nat) (e : EType) (l : List (Nat × Nat)) : t.sameButV (t.vwrites n e l) :=
  Shuttle.sameButV_trans (vputs_sameButV t n e l) (unpoison_sameButV _ _ _ _)

theorem elem_congr {t u : Shuttle} (hv : u.v = t.v) (hl : u.lanes = t.lanes) (n i : Nat) (e : EType) : u.elem n i e = t.elem n i e := by
  simp [Shuttle.elem, Shuttle.vreg, Shuttle.eper, Shuttle.elemOff, hv, hl]

/-- An element of a group after elements of it are written one after another: the last value written to it, if any was. -/
theorem elem_vputs {t : Shuttle} {n g j : Nat} {e : EType} {l : List (Nat × Nat)} (hl : 1 ≤ t.lanes) (hl2 : t.lanes ≤ 32) (hn : n + g ≤ 64)
    (hg : t.vlen.toNat ≤ g * t.eper e) (hj : j < g * t.eper e) :
    (t.vputs n e l).elem n j e =
      match l.reverse.find? (fun x => x.1 == j && decide (x.1 < t.vlen.toNat)) with
      | some x => x.2 % 2 ^ e.bits
      | none => t.elem n j e := by
  induction l generalizing t with
  | nil => rfl
  | cons x r ih =>
    obtain ⟨i, v⟩ := x
    have hs : t.sameButV (t.vwrite n i e v) := by
      unfold Shuttle.vwrite
      split
      · exact elemSet_sameButV _ _ _ _ _
      · exact Shuttle.sameButV_refl t
    have hvl : (t.vwrite n i e v).vlen = t.vlen := by rw [hs]
    have hln : (t.vwrite n i e v).lanes = t.lanes := by rw [hs]
    have hep : (t.vwrite n i e v).eper e = t.eper e := by simp [Shuttle.eper, hln]
    have := ih (t := t.vwrite n i e v) (by rw [hln]; exact hl) (by rw [hln]; exact hl2) (by rw [hvl, hep]; exact hg) (by rw [hep]; exact hj)
    simp only [Shuttle.vputs, this, hvl, List.reverse_cons, List.find?_append]
    cases hf : r.reverse.find? (fun x => x.1 == j && decide (x.1 < t.vlen.toNat)) with
    | some y => simp
    | none =>
      simp only [Option.none_or, List.find?_cons, List.find?_nil]
      by_cases hi : i < t.vlen.toNat
      · simp only [Shuttle.vwrite, hi, if_true, decide_true, Bool.and_true]
        rw [elem_elemSet v hl hl2 hn (by omega) hj]
        by_cases hji : j = i
        · subst hji; simp
        · have : (i == j) = false := by simp; omega
          simp [this, hji]
      · simp [Shuttle.vwrite, hi]

/-- A register outside the group keeps its value. -/
theorem vreg_vputs {t : Shuttle} {n g r : Nat} {e : EType} {l : List (Nat × Nat)} (hl : 1 ≤ t.lanes) (hn : n + g ≤ 64)
    (hg : t.vlen.toNat ≤ g * t.eper e) (hr : r < n ∨ n + g ≤ r) : (t.vputs n e l).vreg r = t.vreg r := by
  induction l generalizing t with
  | nil => rfl
  | cons x l ih =>
    obtain ⟨i, v⟩ := x
    simp only [Shuttle.vputs, Shuttle.vwrite]
    split
    · rw [ih (t := t.elemSet n i e v) hl hg, vreg_elemSet v hl hn (by omega) hr]
    · exact ih hl hg

/-- The elements an instruction writes, as `elem_vputs` gives them. -/
theorem elem_vwrites {t : Shuttle} {n g j : Nat} {e : EType} {l : List (Nat × Nat)} (hl : 1 ≤ t.lanes) (hl2 : t.lanes ≤ 32) (hn : n + g ≤ 64)
    (hg : t.vlen.toNat ≤ g * t.eper e) (hj : j < g * t.eper e) :
    (t.vwrites n e l).elem n j e =
      match l.reverse.find? (fun x => x.1 == j && decide (x.1 < t.vlen.toNat)) with
      | some x => x.2 % 2 ^ e.bits
      | none => t.elem n j e := by
  rw [← elem_vputs hl hl2 hn hg hj]
  have h := unpoison_sameButV (t.vputs n e l) n e ((l.map Prod.fst).filter (fun i => decide (i < t.vlen.toNat)))
  exact elem_congr (unpoison_v _ _ _ _) (by rw [h]) n j e

theorem vreg_vwrites {t : Shuttle} {n g r : Nat} {e : EType} {l : List (Nat × Nat)} (hl : 1 ≤ t.lanes) (hn : n + g ≤ 64)
    (hg : t.vlen.toNat ≤ g * t.eper e) (hr : r < n ∨ n + g ≤ r) : (t.vwrites n e l).vreg r = t.vreg r := by
  rw [← vreg_vputs hl hn hg hr (l := l)]
  simp [Shuttle.vreg, Shuttle.vwrites, unpoison_v]

/-! ## Element results -/

theorem elemMap_fst (is : List Nat) (f : Nat → CF) : (elemMap is f).1 = is.map (fun i => (i, (f i).1)) := by
  induction is with
  | nil => rfl
  | cons i r ih => simp only [elemMap, List.foldr_cons, List.map_cons] at ih ⊢; rw [← ih]

theorem elemMap_snd (is : List Nat) (f : Nat → CF) : (elemMap is f).2 = is.foldr (fun i g => g ||| (f i).2) 0 := by
  induction is with
  | nil => rfl
  | cons i r ih => simp only [elemMap, List.foldr_cons] at ih ⊢; rw [← ih]

theorem actives_nodup (t : Shuttle) (h : Hd) : (t.actives h).Nodup := List.Nodup.filter _ List.nodup_range

theorem mem_actives {t : Shuttle} {h : Hd} {i : Nat} : i ∈ t.actives h ↔ i < t.vlen.toNat ∧ t.active h i = true := by
  simp [Shuttle.actives]

theorem active_lt {t : Shuttle} {h : Hd} {i : Nat} (ha : t.active h i = true) : i < t.vlen.toNat := by
  simp only [Shuttle.active, Shuttle.activeAt, Bool.and_eq_true, decide_eq_true_eq] at ha
  exact ha.2.1

theorem find_map_of_mem {is : List Nat} {f : Nat → Nat} {j n : Nat} (hm : j ∈ is) (hn : j < n) :
    (is.map (fun i => (i, f i))).reverse.find? (fun x => x.1 == j && decide (x.1 < n)) = some (j, f j) := by
  rw [← List.map_reverse, List.find?_map]
  have : (is.reverse).find? ((fun x : Nat × Nat => x.1 == j && decide (x.1 < n)) ∘ fun i => (i, f i)) = some j := by
    rw [List.find?_eq_some_iff_append]
    have hm' : j ∈ is.reverse := List.mem_reverse.2 hm
    obtain ⟨a, b, hab, hna⟩ := List.eq_append_cons_of_mem hm'
    refine ⟨by simp [hn], a, b, hab, ?_⟩
    intro x hx
    have : x ≠ j := fun h => hna (h ▸ hx)
    simp [this]
  rw [this]
  rfl

theorem find_map_of_not_mem {is : List Nat} {f : Nat → Nat} {j n : Nat} (hm : j ∉ is) :
    (is.map (fun i => (i, f i))).reverse.find? (fun x => x.1 == j && decide (x.1 < n)) = none := by
  rw [List.find?_eq_none]
  intro x hx
  simp only [List.mem_reverse, List.mem_map] at hx
  obtain ⟨i, hi, rfl⟩ := hx
  have : i ≠ j := fun h => hm (h ▸ hi)
  simp only [Bool.and_eq_true, beq_iff_eq, not_and]
  exact fun h => absurd h this

/-- The elements of the group after an element-wise instruction (R15, R141): active ones hold the results, the others keep their codes. -/
theorem elem_writeElems {t : Shuttle} {h : Hd} {d g j : Nat} {e : EType} {f : Nat → CF} (hl : 1 ≤ t.lanes) (hl2 : t.lanes ≤ 32) (hn : d + g ≤ 64)
    (hg : t.vlen.toNat ≤ g * t.eper e) (hj : j < g * t.eper e) :
    (t.writeElems h d e f).elem d j e = if t.active h j then (f j).1 % 2 ^ e.bits else t.elem d j e := by
  have hw : (t.writeElems h d e f).elem d j e = (t.vwrites d e (elemMap (t.actives h) f).1).elem d j e :=
    elem_congr (by simp only [Shuttle.writeElems, Shuttle.vdone, Shuttle.flag]) (by simp only [Shuttle.writeElems, Shuttle.vdone, Shuttle.flag]) d j e
  rw [hw, elem_vwrites hl hl2 hn hg hj, elemMap_fst]
  by_cases ha : t.active h j = true
  · rw [find_map_of_mem (mem_actives.2 ⟨active_lt ha, ha⟩) (active_lt ha)]
    simp [ha]
  · rw [find_map_of_not_mem (fun hm => ha (mem_actives.1 hm).2)]
    simp [ha]

theorem vreg_writeElems {t : Shuttle} {h : Hd} {d g r : Nat} {e : EType} {f : Nat → CF} (hl : 1 ≤ t.lanes) (hn : d + g ≤ 64)
    (hg : t.vlen.toNat ≤ g * t.eper e) (hr : r < d ∨ d + g ≤ r) : (t.writeElems h d e f).vreg r = t.vreg r := by
  have hw : (t.writeElems h d e f).vreg r = (t.vwrites d e (elemMap (t.actives h) f).1).vreg r := by
    simp only [Shuttle.writeElems, Shuttle.vdone, Shuttle.flag, Shuttle.vreg]
  rw [hw, vreg_vwrites hl hn hg hr]

end Sys2Proof.Machine
end

