-- ==== Sys2Proof/Laws/Encoding.lean ====
section
/-! SUPPORT. What the fields of a word give back (R69, R72, R82): the pieces of the round trip between `encode` and `decode`. -/

namespace Sys2Proof

theorem bitsAt_low {v n : Nat} (hv : v < 2 ^ n) : bitsAt v 0 n = v := by
  simp [bitsAt, Nat.mod_eq_of_lt hv]

@[simp] theorem reg_val (n : Fin 64) : reg n.val = n := by
  simp [reg]

theorem bitAt_eq {w k : Nat} {b : Bool} (hb : w / 2 ^ k % 2 = b.toNat) : bitAt w k = b := by
  cases b <;> simp_all [bitAt, bitsAt]

theorem ofNat_eq {w n : Nat} {v : BitVec w} (hv : n % 2 ^ w = v.toNat) : BitVec.ofNat w n = v := by
  apply BitVec.eq_of_toNat_eq
  simpa using hv

/-- The fields of a packed word are those packed. -/
theorem unpack_pack {op d a lo : Nat} (h : Hd) (ho : op < 256) (hd : d < 64) (ha : a < 64) (hl : lo < 2 ^ 34) :
    unpack (pack op h d a lo) = { op := op, h := h, d := d, a := a, lo := lo } := by
  obtain ⟨gd, ng, w⟩ := h
  have hg := gd.isLt
  have hw := w.isLt
  have hn : ng.toNat < 2 := Bool.toNat_lt ng
  simp only [unpack, pack, Raw.mk.injEq, Hd.mk.injEq]
  refine ⟨?_, ⟨?_, bitAt_eq ?_, ?_⟩, ?_, ?_, ?_⟩ <;> (try simp only [bitsAt, reg, Fin.ext_iff, Fin.val_ofNat, Nat.pow_zero, Nat.div_one]) <;> omega

/-- A well-formed instruction whose word packs the fields that build it is what its word decodes to. -/
theorem decode_pack {i : Instr} {op d a lo : Nat} {h : Hd} (hw : i.wf = true) (he : encode i = pack op h d a lo) (ho : op < 256)
    (hd : d < 64) (ha : a < 64) (hl : lo < 2 ^ 34) (hb : build { op := op, h := h, d := d, a := a, lo := lo } = some i) :
    decode (encode i) = some i := by
  have hu : build (unpack (encode i)) = some i := by rw [he, unpack_pack h ho hd ha hl, hb]
  simp [decode, hu, hw]

/-- A micro-op whose word builds it, with a listed format, is what its word decodes to. -/
theorem decodeMicro_build {i : Instr} (hb : buildMicro (encode i) = some i) (hf : bitsAt (encode i) 16 5 ≤ 17) :
    decodeMicro (encode i) = some i := by
  simp [decodeMicro, hb, hf]

/-! ## Coded fields -/

theorem EType.code_lt (k : EType) : k.code < 14 := by cases k <;> decide
@[simp] theorem EType.ofCode_code (k : EType) : EType.ofCode k.code = some k := by cases k <;> rfl

theorem MulK.code_lt (k : MulK) : k.code < 3 := by cases k <;> decide
@[simp] theorem MulK.ofCode_code (k : MulK) : MulK.ofCode k.code = some k := by cases k <;> rfl

theorem ShK.code_lt (k : ShK) : k.code < 4 := by cases k <;> decide
@[simp] theorem ShK.ofCode_code (k : ShK) : ShK.ofCode k.code = some k := by cases k <;> rfl

theorem CmpK.code_lt (k : CmpK) : k.code < 6 := by cases k <;> decide
@[simp] theorem CmpK.ofCode_code (k : CmpK) : CmpK.ofCode k.code = some k := by cases k <;> rfl

theorem BrK.code_lt (k : BrK) : k.code < 4 := by cases k <;> decide
@[simp] theorem BrK.ofCode_code (k : BrK) : BrK.ofCode k.code = some k := by cases k <;> rfl

theorem AmoK.code_lt (k : AmoK) : k.code < 10 := by cases k <;> decide
@[simp] theorem AmoK.ofCode_code (k : AmoK) : AmoK.ofCode k.code = some k := by cases k <;> rfl

theorem Rm.code_lt (k : Rm) : k.code < 4 := by cases k <;> decide
@[simp] theorem Rm.ofCode_code (k : Rm) : Rm.ofCode k.code = some k := by cases k <;> rfl

theorem IRm.code_lt (k : IRm) : k.code < 4 := by cases k <;> decide
@[simp] theorem IRm.ofCode_code (k : IRm) : IRm.ofCode k.code = some k := by cases k <;> rfl

theorem Ov.code_lt (k : Ov) : k.code < 4 := by cases k <;> decide
@[simp] theorem Ov.ofCode_code (k : Ov) : Ov.ofCode k.code = some k := by cases k <;> rfl

theorem VCond.code_lt (k : VCond) : k.code < 6 := by cases k <;> decide
@[simp] theorem VCond.ofCode_code (k : VCond) : VCond.ofCode k.code = some k := by cases k <;> rfl

theorem RedK.code_lt (k : RedK) : k.code < 6 := by cases k <;> decide
@[simp] theorem RedK.ofCode_code (k : RedK) : RedK.ofCode k.code = some k := by cases k <;> rfl

theorem SfuK.code_lt (k : SfuK) : k.code < 7 := by cases k <;> decide
@[simp] theorem SfuK.ofCode_code (k : SfuK) : SfuK.ofCode k.code = some k := by cases k <;> rfl

theorem IdxT.code_lt (k : IdxT) : k.code < 3 := by cases k <;> decide
@[simp] theorem IdxT.ofCode_code (k : IdxT) : IdxT.ofCode k.code = some k := by cases k <;> rfl

theorem MType.code_lt (k : MType) : k.code < 5 := by cases k <;> decide
@[simp] theorem MType.ofCode_code (k : MType) : MType.ofCode k.code = some k := by cases k <;> rfl

theorem BindK.code_lt (k : BindK) : k.code < 4 := by cases k <;> decide
@[simp] theorem BindK.ofCode_code (k : BindK) : BindK.ofCode k.code = some k := by cases k <;> rfl

theorem JoinK.code_lt (k : JoinK) : k.code < 3 := by cases k <;> decide
@[simp] theorem JoinK.ofCode_code (k : JoinK) : JoinK.ofCode k.code = some k := by cases k <;> rfl

theorem AggK.code_lt (k : AggK) : k.code < 4 := by cases k <;> decide
@[simp] theorem AggK.ofCode_code (k : AggK) : AggK.ofCode k.code = some k := by cases k <;> rfl

theorem ReedM.code_lt (k : ReedM) : k.code < 4 := by cases k <;> decide
@[simp] theorem ReedM.ofCode_code (k : ReedM) : ReedM.ofCode k.code = some k := by cases k <;> rfl

theorem CntK.sel_lt (k : CntK) : k.sel < 19 := by cases k <;> decide
@[simp] theorem CntK.ofSel_sel (k : CntK) : CntK.ofSel k.sel = some k := by cases k <;> rfl
theorem SReg.sel_lt (k : SReg) : k.sel < 20 := by cases k <;> decide
@[simp] theorem SReg.ofSel_sel (k : SReg) : SReg.ofSel k.sel = some k := by cases k <;> rfl
theorem src2Fn_lt (k : Src2) : src2Fn k < 5 := by cases k <;> decide

end Sys2Proof
end

