-- ==== Sys2Proof/Laws/State.lean ====
section
/-! SUPPORT. What the updates of a shuttle and of the module leave as it was, and what they set: one lemma for each field. -/

namespace Sys2Proof.Machine

/-! ## A shuttle -/

@[simp] theorem Shuttle.moved_pos (t : Shuttle) : (t.moved).pos = t.pos := rfl
@[simp] theorem Shuttle.moved_status (t : Shuttle) : (t.moved).status = t.status := rfl
@[simp] theorem Shuttle.moved_lanes (t : Shuttle) : (t.moved).lanes = t.lanes := rfl
@[simp] theorem Shuttle.moved_pid (t : Shuttle) : (t.moved).pid = t.pid := rfl
@[simp] theorem Shuttle.moved_priv (t : Shuttle) : (t.moved).priv = t.priv := rfl
@[simp] theorem Shuttle.moved_handle (t : Shuttle) : (t.moved).handle = t.handle := rfl
@[simp] theorem Shuttle.moved_ceil (t : Shuttle) : (t.moved).ceil = t.ceil := rfl
@[simp] theorem Shuttle.moved_nearLen (t : Shuttle) : (t.moved).nearLen = t.nearLen := rfl
@[simp] theorem Shuttle.moved_nTiles (t : Shuttle) : (t.moved).nTiles = t.nTiles := rfl
@[simp] theorem Shuttle.moved_nEnts (t : Shuttle) : (t.moved).nEnts = t.nEnts := rfl
@[simp] theorem Shuttle.moved_x (t : Shuttle) : (t.moved).x = t.x := rfl
@[simp] theorem Shuttle.moved_p (t : Shuttle) : (t.moved).p = t.p := rfl
@[simp] theorem Shuttle.moved_v (t : Shuttle) : (t.moved).v = t.v := rfl
@[simp] theorem Shuttle.moved_c (t : Shuttle) : (t.moved).c = t.c := rfl
@[simp] theorem Shuttle.moved_arena (t : Shuttle) : (t.moved).arena = t.arena := rfl
@[simp] theorem Shuttle.moved_dq (t : Shuttle) : (t.moved).dq = t.dq := rfl
@[simp] theorem Shuttle.moved_rq (t : Shuttle) : (t.moved).rq = t.rq := rfl
@[simp] theorem Shuttle.moved_lc (t : Shuttle) : (t.moved).lc = t.lc := rfl
@[simp] theorem Shuttle.moved_loops (t : Shuttle) : (t.moved).loops = t.loops := rfl
@[simp] theorem Shuttle.moved_vlen (t : Shuttle) : (t.moved).vlen = t.vlen := rfl
@[simp] theorem Shuttle.moved_vtype (t : Shuttle) : (t.moved).vtype = t.vtype := rfl
@[simp] theorem Shuttle.moved_vstart (t : Shuttle) : (t.moved).vstart = t.vstart := rfl
@[simp] theorem Shuttle.moved_redst (t : Shuttle) : (t.moved).redst = t.redst := rfl
@[simp] theorem Shuttle.moved_fill (t : Shuttle) : (t.moved).fill = t.fill := rfl
@[simp] theorem Shuttle.moved_sat (t : Shuttle) : (t.moved).sat = t.sat := rfl
@[simp] theorem Shuttle.moved_fflags (t : Shuttle) : (t.moved).fflags = t.fflags := rfl
@[simp] theorem Shuttle.moved_rnd (t : Shuttle) : (t.moved).rnd = t.rnd := rfl
@[simp] theorem Shuttle.moved_frm (t : Shuttle) : (t.moved).frm = t.frm := rfl
@[simp] theorem Shuttle.moved_ccur (t : Shuttle) : (t.moved).ccur = t.ccur := rfl
@[simp] theorem Shuttle.moved_xcur (t : Shuttle) : (t.moved).xcur = t.xcur := rfl
@[simp] theorem Shuttle.moved_hcsum (t : Shuttle) : (t.moved).hcsum = t.hcsum := rfl
@[simp] theorem Shuttle.moved_tvec (t : Shuttle) : (t.moved).tvec = t.tvec := rfl
@[simp] theorem Shuttle.moved_tcause (t : Shuttle) : (t.moved).tcause = t.tcause := rfl
@[simp] theorem Shuttle.moved_apc (t : Shuttle) : (t.moved).apc = t.apc := rfl
@[simp] theorem Shuttle.moved_pcHi (t : Shuttle) : (t.moved).pcHi = t.pcHi := rfl
@[simp] theorem Shuttle.moved_xq (t : Shuttle) : (t.moved).xq = t.xq := rfl
@[simp] theorem Shuttle.moved_level (t : Shuttle) : (t.moved).level = t.level := rfl
@[simp] theorem Shuttle.moved_events (t : Shuttle) : (t.moved).events = t.events := rfl
@[simp] theorem Shuttle.moved_frq (t : Shuttle) : (t.moved).frq = t.frq := rfl
@[simp] theorem Shuttle.moved_lost (t : Shuttle) : (t.moved).lost = t.lost := rfl
@[simp] theorem Shuttle.moved_timer (t : Shuttle) : (t.moved).timer = t.timer := rfl
@[simp] theorem Shuttle.moved_armed (t : Shuttle) : (t.moved).armed = t.armed := rfl
@[simp] theorem Shuttle.moved_prog (t : Shuttle) : (t.moved).prog = t.prog := rfl
@[simp] theorem Shuttle.moved_progOk (t : Shuttle) : (t.moved).progOk = t.progOk := rfl
@[simp] theorem Shuttle.moved_reed (t : Shuttle) : (t.moved).reed = t.reed := rfl
@[simp] theorem Shuttle.moved_vdirty (t : Shuttle) : (t.moved).vdirty = t.vdirty := rfl
@[simp] theorem Shuttle.moved_vpoison (t : Shuttle) : (t.moved).vpoison = t.vpoison := rfl
@[simp] theorem Shuttle.moved_xpois (t : Shuttle) : (t.moved).xpois = t.xpois := rfl
@[simp] theorem Shuttle.moved_ppois (t : Shuttle) : (t.moved).ppois = t.ppois := rfl
@[simp] theorem Shuttle.moved_rqPois (t : Shuttle) : (t.moved).rqPois = t.rqPois := rfl
@[simp] theorem Shuttle.moved_spois (t : Shuttle) : (t.moved).spois = t.spois := rfl
@[simp] theorem Shuttle.moved_flight (t : Shuttle) : (t.moved).flight = t.flight := rfl
@[simp] theorem Shuttle.moved_lastIssue (t : Shuttle) : (t.moved).lastIssue = t.lastIssue := rfl
@[simp] theorem Shuttle.moved_issueFrom (t : Shuttle) : (t.moved).issueFrom = t.issueFrom := rfl
@[simp] theorem Shuttle.moved_units (t : Shuttle) : (t.moved).units = t.units := rfl
@[simp] theorem Shuttle.moved_pre (t : Shuttle) : (t.moved).pre = t.pre := rfl
@[simp] theorem Shuttle.moved_preNos (t : Shuttle) : (t.moved).preNos = t.preNos := rfl
@[simp] theorem Shuttle.moved_saveDue (t : Shuttle) : (t.moved).saveDue = t.saveDue := rfl
@[simp] theorem Shuttle.moved_budgetDue (t : Shuttle) : (t.moved).budgetDue = t.budgetDue := rfl
@[simp] theorem Shuttle.moved_due (t : Shuttle) : (t.moved).due = t.due := rfl
@[simp] theorem Shuttle.moved_endDue (t : Shuttle) : (t.moved).endDue = t.endDue := rfl
@[simp] theorem Shuttle.moved_endSaved (t : Shuttle) : (t.moved).endSaved = t.endSaved := rfl
@[simp] theorem Shuttle.moved_xProg (t : Shuttle) : (t.moved).xProg = t.xProg := rfl
@[simp] theorem Shuttle.moved_xLocs (t : Shuttle) : (t.moved).xLocs = t.xLocs := rfl
@[simp] theorem Shuttle.moved_xIss (t : Shuttle) : (t.moved).xIss = t.xIss := rfl
@[simp] theorem Shuttle.moved_reach (t : Shuttle) : (t.moved).reach = t.reach := rfl
@[simp] theorem Shuttle.moved_cprog (t : Shuttle) : (t.moved).cprog = t.cprog := rfl
@[simp] theorem Shuttle.moved_halting (t : Shuttle) : (t.moved).halting = t.halting := rfl
@[simp] theorem Shuttle.moved_nA (t : Shuttle) : (t.moved).nA = t.nA := rfl
@[simp] theorem Shuttle.moved_nX (t : Shuttle) : (t.moved).nX = t.nX := rfl
@[simp] theorem Shuttle.moved_nWait (t : Shuttle) : (t.moved).nWait = t.nWait := rfl
@[simp] theorem Shuttle.moved_nD (t : Shuttle) : (t.moved).nD = t.nD := rfl
@[simp] theorem Shuttle.moved_parked (t : Shuttle) : (t.moved).parked = t.parked := rfl

@[simp] theorem Shuttle.moved_aWait (t : Shuttle) : t.moved.aWait = .none := rfl
@[simp] theorem Shuttle.moved_xWait (t : Shuttle) : t.moved.xWait = .none := rfl

@[simp] theorem Shuttle.fallThrough_pos (t : Shuttle) : (t.fallThrough).pos = t.pos := rfl
@[simp] theorem Shuttle.fallThrough_status (t : Shuttle) : (t.fallThrough).status = t.status := rfl
@[simp] theorem Shuttle.fallThrough_lanes (t : Shuttle) : (t.fallThrough).lanes = t.lanes := rfl
@[simp] theorem Shuttle.fallThrough_pid (t : Shuttle) : (t.fallThrough).pid = t.pid := rfl
@[simp] theorem Shuttle.fallThrough_priv (t : Shuttle) : (t.fallThrough).priv = t.priv := rfl
@[simp] theorem Shuttle.fallThrough_handle (t : Shuttle) : (t.fallThrough).handle = t.handle := rfl
@[simp] theorem Shuttle.fallThrough_ceil (t : Shuttle) : (t.fallThrough).ceil = t.ceil := rfl
@[simp] theorem Shuttle.fallThrough_nearLen (t : Shuttle) : (t.fallThrough).nearLen = t.nearLen := rfl
@[simp] theorem Shuttle.fallThrough_nTiles (t : Shuttle) : (t.fallThrough).nTiles = t.nTiles := rfl
@[simp] theorem Shuttle.fallThrough_nEnts (t : Shuttle) : (t.fallThrough).nEnts = t.nEnts := rfl
@[simp] theorem Shuttle.fallThrough_x (t : Shuttle) : (t.fallThrough).x = t.x := rfl
@[simp] theorem Shuttle.fallThrough_p (t : Shuttle) : (t.fallThrough).p = t.p := rfl
@[simp] theorem Shuttle.fallThrough_v (t : Shuttle) : (t.fallThrough).v = t.v := rfl
@[simp] theorem Shuttle.fallThrough_c (t : Shuttle) : (t.fallThrough).c = t.c := rfl
@[simp] theorem Shuttle.fallThrough_arena (t : Shuttle) : (t.fallThrough).arena = t.arena := rfl
@[simp] theorem Shuttle.fallThrough_dq (t : Shuttle) : (t.fallThrough).dq = t.dq := rfl
@[simp] theorem Shuttle.fallThrough_rq (t : Shuttle) : (t.fallThrough).rq = t.rq := rfl
@[simp] theorem Shuttle.fallThrough_lc (t : Shuttle) : (t.fallThrough).lc = t.lc := rfl
@[simp] theorem Shuttle.fallThrough_loops (t : Shuttle) : (t.fallThrough).loops = t.loops := rfl
@[simp] theorem Shuttle.fallThrough_vlen (t : Shuttle) : (t.fallThrough).vlen = t.vlen := rfl
@[simp] theorem Shuttle.fallThrough_vtype (t : Shuttle) : (t.fallThrough).vtype = t.vtype := rfl
@[simp] theorem Shuttle.fallThrough_vstart (t : Shuttle) : (t.fallThrough).vstart = t.vstart := rfl
@[simp] theorem Shuttle.fallThrough_redst (t : Shuttle) : (t.fallThrough).redst = t.redst := rfl
@[simp] theorem Shuttle.fallThrough_fill (t : Shuttle) : (t.fallThrough).fill = t.fill := rfl
@[simp] theorem Shuttle.fallThrough_sat (t : Shuttle) : (t.fallThrough).sat = t.sat := rfl
@[simp] theorem Shuttle.fallThrough_fflags (t : Shuttle) : (t.fallThrough).fflags = t.fflags := rfl
@[simp] theorem Shuttle.fallThrough_rnd (t : Shuttle) : (t.fallThrough).rnd = t.rnd := rfl
@[simp] theorem Shuttle.fallThrough_frm (t : Shuttle) : (t.fallThrough).frm = t.frm := rfl
@[simp] theorem Shuttle.fallThrough_ccur (t : Shuttle) : (t.fallThrough).ccur = t.ccur := rfl
@[simp] theorem Shuttle.fallThrough_xcur (t : Shuttle) : (t.fallThrough).xcur = t.xcur := rfl
@[simp] theorem Shuttle.fallThrough_hcsum (t : Shuttle) : (t.fallThrough).hcsum = t.hcsum := rfl
@[simp] theorem Shuttle.fallThrough_tvec (t : Shuttle) : (t.fallThrough).tvec = t.tvec := rfl
@[simp] theorem Shuttle.fallThrough_tcause (t : Shuttle) : (t.fallThrough).tcause = t.tcause := rfl
@[simp] theorem Shuttle.fallThrough_xq (t : Shuttle) : (t.fallThrough).xq = t.xq := rfl
@[simp] theorem Shuttle.fallThrough_level (t : Shuttle) : (t.fallThrough).level = t.level := rfl
@[simp] theorem Shuttle.fallThrough_events (t : Shuttle) : (t.fallThrough).events = t.events := rfl
@[simp] theorem Shuttle.fallThrough_frq (t : Shuttle) : (t.fallThrough).frq = t.frq := rfl
@[simp] theorem Shuttle.fallThrough_lost (t : Shuttle) : (t.fallThrough).lost = t.lost := rfl
@[simp] theorem Shuttle.fallThrough_timer (t : Shuttle) : (t.fallThrough).timer = t.timer := rfl
@[simp] theorem Shuttle.fallThrough_armed (t : Shuttle) : (t.fallThrough).armed = t.armed := rfl
@[simp] theorem Shuttle.fallThrough_prog (t : Shuttle) : (t.fallThrough).prog = t.prog := rfl
@[simp] theorem Shuttle.fallThrough_progOk (t : Shuttle) : (t.fallThrough).progOk = t.progOk := rfl
@[simp] theorem Shuttle.fallThrough_reed (t : Shuttle) : (t.fallThrough).reed = t.reed := rfl
@[simp] theorem Shuttle.fallThrough_vdirty (t : Shuttle) : (t.fallThrough).vdirty = t.vdirty := rfl
@[simp] theorem Shuttle.fallThrough_vpoison (t : Shuttle) : (t.fallThrough).vpoison = t.vpoison := rfl
@[simp] theorem Shuttle.fallThrough_xpois (t : Shuttle) : (t.fallThrough).xpois = t.xpois := rfl
@[simp] theorem Shuttle.fallThrough_ppois (t : Shuttle) : (t.fallThrough).ppois = t.ppois := rfl
@[simp] theorem Shuttle.fallThrough_rqPois (t : Shuttle) : (t.fallThrough).rqPois = t.rqPois := rfl
@[simp] theorem Shuttle.fallThrough_spois (t : Shuttle) : (t.fallThrough).spois = t.spois := rfl
@[simp] theorem Shuttle.fallThrough_flight (t : Shuttle) : (t.fallThrough).flight = t.flight := rfl
@[simp] theorem Shuttle.fallThrough_lastIssue (t : Shuttle) : (t.fallThrough).lastIssue = t.lastIssue := rfl
@[simp] theorem Shuttle.fallThrough_issueFrom (t : Shuttle) : (t.fallThrough).issueFrom = t.issueFrom := rfl
@[simp] theorem Shuttle.fallThrough_units (t : Shuttle) : (t.fallThrough).units = t.units := rfl
@[simp] theorem Shuttle.fallThrough_pre (t : Shuttle) : (t.fallThrough).pre = t.pre := rfl
@[simp] theorem Shuttle.fallThrough_preNos (t : Shuttle) : (t.fallThrough).preNos = t.preNos := rfl
@[simp] theorem Shuttle.fallThrough_saveDue (t : Shuttle) : (t.fallThrough).saveDue = t.saveDue := rfl
@[simp] theorem Shuttle.fallThrough_budgetDue (t : Shuttle) : (t.fallThrough).budgetDue = t.budgetDue := rfl
@[simp] theorem Shuttle.fallThrough_due (t : Shuttle) : (t.fallThrough).due = t.due := rfl
@[simp] theorem Shuttle.fallThrough_endSaved (t : Shuttle) : (t.fallThrough).endSaved = t.endSaved := rfl
@[simp] theorem Shuttle.fallThrough_xProg (t : Shuttle) : (t.fallThrough).xProg = t.xProg := rfl
@[simp] theorem Shuttle.fallThrough_xLocs (t : Shuttle) : (t.fallThrough).xLocs = t.xLocs := rfl
@[simp] theorem Shuttle.fallThrough_xIss (t : Shuttle) : (t.fallThrough).xIss = t.xIss := rfl
@[simp] theorem Shuttle.fallThrough_reach (t : Shuttle) : (t.fallThrough).reach = t.reach := rfl
@[simp] theorem Shuttle.fallThrough_cprog (t : Shuttle) : (t.fallThrough).cprog = t.cprog := rfl
@[simp] theorem Shuttle.fallThrough_halting (t : Shuttle) : (t.fallThrough).halting = t.halting := rfl
@[simp] theorem Shuttle.fallThrough_aWait (t : Shuttle) : (t.fallThrough).aWait = t.aWait := rfl
@[simp] theorem Shuttle.fallThrough_xWait (t : Shuttle) : (t.fallThrough).xWait = t.xWait := rfl
@[simp] theorem Shuttle.fallThrough_nA (t : Shuttle) : (t.fallThrough).nA = t.nA := rfl
@[simp] theorem Shuttle.fallThrough_nX (t : Shuttle) : (t.fallThrough).nX = t.nX := rfl
@[simp] theorem Shuttle.fallThrough_nWait (t : Shuttle) : (t.fallThrough).nWait = t.nWait := rfl
@[simp] theorem Shuttle.fallThrough_nD (t : Shuttle) : (t.fallThrough).nD = t.nD := rfl
@[simp] theorem Shuttle.fallThrough_parked (t : Shuttle) : (t.fallThrough).parked = t.parked := rfl

@[simp] theorem Shuttle.fallThrough_apc (t : Shuttle) : t.fallThrough.apc = t.apc + 8 := rfl
@[simp] theorem Shuttle.fallThrough_pcHi (t : Shuttle) : t.fallThrough.pcHi = BitVec.ofNat 8 ((t.apc.toNat + 8) / 2 ^ 56) := rfl

@[simp] theorem Shuttle.xset_pos (t : Shuttle) (n : Fin 64) (v : Word) : (t.xset n v).pos = t.pos := by unfold Shuttle.xset; split <;> rfl
@[simp] theorem Shuttle.xset_status (t : Shuttle) (n : Fin 64) (v : Word) : (t.xset n v).status = t.status := by unfold Shuttle.xset; split <;> rfl
@[simp] theorem Shuttle.xset_lanes (t : Shuttle) (n : Fin 64) (v : Word) : (t.xset n v).lanes = t.lanes := by unfold Shuttle.xset; split <;> rfl
@[simp] theorem Shuttle.xset_pid (t : Shuttle) (n : Fin 64) (v : Word) : (t.xset n v).pid = t.pid := by unfold Shuttle.xset; split <;> rfl
@[simp] theorem Shuttle.xset_priv (t : Shuttle) (n : Fin 64) (v : Word) : (t.xset n v).priv = t.priv := by unfold Shuttle.xset; split <;> rfl
@[simp] theorem Shuttle.xset_handle (t : Shuttle) (n : Fin 64) (v : Word) : (t.xset n v).handle = t.handle := by unfold Shuttle.xset; split <;> rfl
@[simp] theorem Shuttle.xset_ceil (t : Shuttle) (n : Fin 64) (v : Word) : (t.xset n v).ceil = t.ceil := by unfold Shuttle.xset; split <;> rfl
@[simp] theorem Shuttle.xset_nearLen (t : Shuttle) (n : Fin 64) (v : Word) : (t.xset n v).nearLen = t.nearLen := by unfold Shuttle.xset; split <;> rfl
@[simp] theorem Shuttle.xset_nTiles (t : Shuttle) (n : Fin 64) (v : Word) : (t.xset n v).nTiles = t.nTiles := by unfold Shuttle.xset; split <;> rfl
@[simp] theorem Shuttle.xset_nEnts (t : Shuttle) (n : Fin 64) (v : Word) : (t.xset n v).nEnts = t.nEnts := by unfold Shuttle.xset; split <;> rfl
@[simp] theorem Shuttle.xset_p (t : Shuttle) (n : Fin 64) (v : Word) : (t.xset n v).p = t.p := by unfold Shuttle.xset; split <;> rfl
@[simp] theorem Shuttle.xset_v (t : Shuttle) (n : Fin 64) (v : Word) : (t.xset n v).v = t.v := by unfold Shuttle.xset; split <;> rfl
@[simp] theorem Shuttle.xset_c (t : Shuttle) (n : Fin 64) (v : Word) : (t.xset n v).c = t.c := by unfold Shuttle.xset; split <;> rfl
@[simp] theorem Shuttle.xset_arena (t : Shuttle) (n : Fin 64) (v : Word) : (t.xset n v).arena = t.arena := by unfold Shuttle.xset; split <;> rfl
@[simp] theorem Shuttle.xset_dq (t : Shuttle) (n : Fin 64) (v : Word) : (t.xset n v).dq = t.dq := by unfold Shuttle.xset; split <;> rfl
@[simp] theorem Shuttle.xset_rq (t : Shuttle) (n : Fin 64) (v : Word) : (t.xset n v).rq = t.rq := by unfold Shuttle.xset; split <;> rfl
@[simp] theorem Shuttle.xset_lc (t : Shuttle) (n : Fin 64) (v : Word) : (t.xset n v).lc = t.lc := by unfold Shuttle.xset; split <;> rfl
@[simp] theorem Shuttle.xset_loops (t : Shuttle) (n : Fin 64) (v : Word) : (t.xset n v).loops = t.loops := by unfold Shuttle.xset; split <;> rfl
@[simp] theorem Shuttle.xset_vlen (t : Shuttle) (n : Fin 64) (v : Word) : (t.xset n v).vlen = t.vlen := by unfold Shuttle.xset; split <;> rfl
@[simp] theorem Shuttle.xset_vtype (t : Shuttle) (n : Fin 64) (v : Word) : (t.xset n v).vtype = t.vtype := by unfold Shuttle.xset; split <;> rfl
@[simp] theorem Shuttle.xset_vstart (t : Shuttle) (n : Fin 64) (v : Word) : (t.xset n v).vstart = t.vstart := by unfold Shuttle.xset; split <;> rfl
@[simp] theorem Shuttle.xset_redst (t : Shuttle) (n : Fin 64) (v : Word) : (t.xset n v).redst = t.redst := by unfold Shuttle.xset; split <;> rfl
@[simp] theorem Shuttle.xset_fill (t : Shuttle) (n : Fin 64) (v : Word) : (t.xset n v).fill = t.fill := by unfold Shuttle.xset; split <;> rfl
@[simp] theorem Shuttle.xset_sat (t : Shuttle) (n : Fin 64) (v : Word) : (t.xset n v).sat = t.sat := by unfold Shuttle.xset; split <;> rfl
@[simp] theorem Shuttle.xset_fflags (t : Shuttle) (n : Fin 64) (v : Word) : (t.xset n v).fflags = t.fflags := by unfold Shuttle.xset; split <;> rfl
@[simp] theorem Shuttle.xset_rnd (t : Shuttle) (n : Fin 64) (v : Word) : (t.xset n v).rnd = t.rnd := by unfold Shuttle.xset; split <;> rfl
@[simp] theorem Shuttle.xset_frm (t : Shuttle) (n : Fin 64) (v : Word) : (t.xset n v).frm = t.frm := by unfold Shuttle.xset; split <;> rfl
@[simp] theorem Shuttle.xset_ccur (t : Shuttle) (n : Fin 64) (v : Word) : (t.xset n v).ccur = t.ccur := by unfold Shuttle.xset; split <;> rfl
@[simp] theorem Shuttle.xset_xcur (t : Shuttle) (n : Fin 64) (v : Word) : (t.xset n v).xcur = t.xcur := by unfold Shuttle.xset; split <;> rfl
@[simp] theorem Shuttle.xset_hcsum (t : Shuttle) (n : Fin 64) (v : Word) : (t.xset n v).hcsum = t.hcsum := by unfold Shuttle.xset; split <;> rfl
@[simp] theorem Shuttle.xset_tvec (t : Shuttle) (n : Fin 64) (v : Word) : (t.xset n v).tvec = t.tvec := by unfold Shuttle.xset; split <;> rfl
@[simp] theorem Shuttle.xset_tcause (t : Shuttle) (n : Fin 64) (v : Word) : (t.xset n v).tcause = t.tcause := by unfold Shuttle.xset; split <;> rfl
@[simp] theorem Shuttle.xset_apc (t : Shuttle) (n : Fin 64) (v : Word) : (t.xset n v).apc = t.apc := by unfold Shuttle.xset; split <;> rfl
@[simp] theorem Shuttle.xset_pcHi (t : Shuttle) (n : Fin 64) (v : Word) : (t.xset n v).pcHi = t.pcHi := by unfold Shuttle.xset; split <;> rfl
@[simp] theorem Shuttle.xset_xq (t : Shuttle) (n : Fin 64) (v : Word) : (t.xset n v).xq = t.xq := by unfold Shuttle.xset; split <;> rfl
@[simp] theorem Shuttle.xset_level (t : Shuttle) (n : Fin 64) (v : Word) : (t.xset n v).level = t.level := by unfold Shuttle.xset; split <;> rfl
@[simp] theorem Shuttle.xset_events (t : Shuttle) (n : Fin 64) (v : Word) : (t.xset n v).events = t.events := by unfold Shuttle.xset; split <;> rfl
@[simp] theorem Shuttle.xset_frq (t : Shuttle) (n : Fin 64) (v : Word) : (t.xset n v).frq = t.frq := by unfold Shuttle.xset; split <;> rfl
@[simp] theorem Shuttle.xset_lost (t : Shuttle) (n : Fin 64) (v : Word) : (t.xset n v).lost = t.lost := by unfold Shuttle.xset; split <;> rfl
@[simp] theorem Shuttle.xset_timer (t : Shuttle) (n : Fin 64) (v : Word) : (t.xset n v).timer = t.timer := by unfold Shuttle.xset; split <;> rfl
@[simp] theorem Shuttle.xset_armed (t : Shuttle) (n : Fin 64) (v : Word) : (t.xset n v).armed = t.armed := by unfold Shuttle.xset; split <;> rfl
@[simp] theorem Shuttle.xset_prog (t : Shuttle) (n : Fin 64) (v : Word) : (t.xset n v).prog = t.prog := by unfold Shuttle.xset; split <;> rfl
@[simp] theorem Shuttle.xset_progOk (t : Shuttle) (n : Fin 64) (v : Word) : (t.xset n v).progOk = t.progOk := by unfold Shuttle.xset; split <;> rfl
@[simp] theorem Shuttle.xset_reed (t : Shuttle) (n : Fin 64) (v : Word) : (t.xset n v).reed = t.reed := by unfold Shuttle.xset; split <;> rfl
@[simp] theorem Shuttle.xset_vdirty (t : Shuttle) (n : Fin 64) (v : Word) : (t.xset n v).vdirty = t.vdirty := by unfold Shuttle.xset; split <;> rfl
@[simp] theorem Shuttle.xset_vpoison (t : Shuttle) (n : Fin 64) (v : Word) : (t.xset n v).vpoison = t.vpoison := by unfold Shuttle.xset; split <;> rfl
@[simp] theorem Shuttle.xset_ppois (t : Shuttle) (n : Fin 64) (v : Word) : (t.xset n v).ppois = t.ppois := by unfold Shuttle.xset; split <;> rfl
@[simp] theorem Shuttle.xset_rqPois (t : Shuttle) (n : Fin 64) (v : Word) : (t.xset n v).rqPois = t.rqPois := by unfold Shuttle.xset; split <;> rfl
@[simp] theorem Shuttle.xset_spois (t : Shuttle) (n : Fin 64) (v : Word) : (t.xset n v).spois = t.spois := by unfold Shuttle.xset; split <;> rfl
@[simp] theorem Shuttle.xset_flight (t : Shuttle) (n : Fin 64) (v : Word) : (t.xset n v).flight = t.flight := by unfold Shuttle.xset; split <;> rfl
@[simp] theorem Shuttle.xset_lastIssue (t : Shuttle) (n : Fin 64) (v : Word) : (t.xset n v).lastIssue = t.lastIssue := by unfold Shuttle.xset; split <;> rfl
@[simp] theorem Shuttle.xset_issueFrom (t : Shuttle) (n : Fin 64) (v : Word) : (t.xset n v).issueFrom = t.issueFrom := by unfold Shuttle.xset; split <;> rfl
@[simp] theorem Shuttle.xset_units (t : Shuttle) (n : Fin 64) (v : Word) : (t.xset n v).units = t.units := by unfold Shuttle.xset; split <;> rfl
@[simp] theorem Shuttle.xset_pre (t : Shuttle) (n : Fin 64) (v : Word) : (t.xset n v).pre = t.pre := by unfold Shuttle.xset; split <;> rfl
@[simp] theorem Shuttle.xset_preNos (t : Shuttle) (n : Fin 64) (v : Word) : (t.xset n v).preNos = t.preNos := by unfold Shuttle.xset; split <;> rfl
@[simp] theorem Shuttle.xset_saveDue (t : Shuttle) (n : Fin 64) (v : Word) : (t.xset n v).saveDue = t.saveDue := by unfold Shuttle.xset; split <;> rfl
@[simp] theorem Shuttle.xset_budgetDue (t : Shuttle) (n : Fin 64) (v : Word) : (t.xset n v).budgetDue = t.budgetDue := by unfold Shuttle.xset; split <;> rfl
@[simp] theorem Shuttle.xset_due (t : Shuttle) (n : Fin 64) (v : Word) : (t.xset n v).due = t.due := by unfold Shuttle.xset; split <;> rfl
@[simp] theorem Shuttle.xset_endDue (t : Shuttle) (n : Fin 64) (v : Word) : (t.xset n v).endDue = t.endDue := by unfold Shuttle.xset; split <;> rfl
@[simp] theorem Shuttle.xset_endSaved (t : Shuttle) (n : Fin 64) (v : Word) : (t.xset n v).endSaved = t.endSaved := by unfold Shuttle.xset; split <;> rfl
@[simp] theorem Shuttle.xset_xProg (t : Shuttle) (n : Fin 64) (v : Word) : (t.xset n v).xProg = t.xProg := by unfold Shuttle.xset; split <;> rfl
@[simp] theorem Shuttle.xset_xLocs (t : Shuttle) (n : Fin 64) (v : Word) : (t.xset n v).xLocs = t.xLocs := by unfold Shuttle.xset; split <;> rfl
@[simp] theorem Shuttle.xset_xIss (t : Shuttle) (n : Fin 64) (v : Word) : (t.xset n v).xIss = t.xIss := by unfold Shuttle.xset; split <;> rfl
@[simp] theorem Shuttle.xset_reach (t : Shuttle) (n : Fin 64) (v : Word) : (t.xset n v).reach = t.reach := by unfold Shuttle.xset; split <;> rfl
@[simp] theorem Shuttle.xset_cprog (t : Shuttle) (n : Fin 64) (v : Word) : (t.xset n v).cprog = t.cprog := by unfold Shuttle.xset; split <;> rfl
@[simp] theorem Shuttle.xset_halting (t : Shuttle) (n : Fin 64) (v : Word) : (t.xset n v).halting = t.halting := by unfold Shuttle.xset; split <;> rfl
@[simp] theorem Shuttle.xset_aWait (t : Shuttle) (n : Fin 64) (v : Word) : (t.xset n v).aWait = t.aWait := by unfold Shuttle.xset; split <;> rfl
@[simp] theorem Shuttle.xset_xWait (t : Shuttle) (n : Fin 64) (v : Word) : (t.xset n v).xWait = t.xWait := by unfold Shuttle.xset; split <;> rfl
@[simp] theorem Shuttle.xset_nA (t : Shuttle) (n : Fin 64) (v : Word) : (t.xset n v).nA = t.nA := by unfold Shuttle.xset; split <;> rfl
@[simp] theorem Shuttle.xset_nX (t : Shuttle) (n : Fin 64) (v : Word) : (t.xset n v).nX = t.nX := by unfold Shuttle.xset; split <;> rfl
@[simp] theorem Shuttle.xset_nWait (t : Shuttle) (n : Fin 64) (v : Word) : (t.xset n v).nWait = t.nWait := by unfold Shuttle.xset; split <;> rfl
@[simp] theorem Shuttle.xset_nD (t : Shuttle) (n : Fin 64) (v : Word) : (t.xset n v).nD = t.nD := by unfold Shuttle.xset; split <;> rfl
@[simp] theorem Shuttle.xset_parked (t : Shuttle) (n : Fin 64) (v : Word) : (t.xset n v).parked = t.parked := by unfold Shuttle.xset; split <;> rfl

@[simp] theorem Shuttle.pset_pos (t : Shuttle) (n : Nat) (b : BitVec 512) : (t.pset n b).pos = t.pos := rfl
@[simp] theorem Shuttle.pset_status (t : Shuttle) (n : Nat) (b : BitVec 512) : (t.pset n b).status = t.status := rfl
@[simp] theorem Shuttle.pset_lanes (t : Shuttle) (n : Nat) (b : BitVec 512) : (t.pset n b).lanes = t.lanes := rfl
@[simp] theorem Shuttle.pset_pid (t : Shuttle) (n : Nat) (b : BitVec 512) : (t.pset n b).pid = t.pid := rfl
@[simp] theorem Shuttle.pset_priv (t : Shuttle) (n : Nat) (b : BitVec 512) : (t.pset n b).priv = t.priv := rfl
@[simp] theorem Shuttle.pset_handle (t : Shuttle) (n : Nat) (b : BitVec 512) : (t.pset n b).handle = t.handle := rfl
@[simp] theorem Shuttle.pset_ceil (t : Shuttle) (n : Nat) (b : BitVec 512) : (t.pset n b).ceil = t.ceil := rfl
@[simp] theorem Shuttle.pset_nearLen (t : Shuttle) (n : Nat) (b : BitVec 512) : (t.pset n b).nearLen = t.nearLen := rfl
@[simp] theorem Shuttle.pset_nTiles (t : Shuttle) (n : Nat) (b : BitVec 512) : (t.pset n b).nTiles = t.nTiles := rfl
@[simp] theorem Shuttle.pset_nEnts (t : Shuttle) (n : Nat) (b : BitVec 512) : (t.pset n b).nEnts = t.nEnts := rfl
@[simp] theorem Shuttle.pset_x (t : Shuttle) (n : Nat) (b : BitVec 512) : (t.pset n b).x = t.x := rfl
@[simp] theorem Shuttle.pset_v (t : Shuttle) (n : Nat) (b : BitVec 512) : (t.pset n b).v = t.v := rfl
@[simp] theorem Shuttle.pset_c (t : Shuttle) (n : Nat) (b : BitVec 512) : (t.pset n b).c = t.c := rfl
@[simp] theorem Shuttle.pset_arena (t : Shuttle) (n : Nat) (b : BitVec 512) : (t.pset n b).arena = t.arena := rfl
@[simp] theorem Shuttle.pset_dq (t : Shuttle) (n : Nat) (b : BitVec 512) : (t.pset n b).dq = t.dq := rfl
@[simp] theorem Shuttle.pset_rq (t : Shuttle) (n : Nat) (b : BitVec 512) : (t.pset n b).rq = t.rq := rfl
@[simp] theorem Shuttle.pset_lc (t : Shuttle) (n : Nat) (b : BitVec 512) : (t.pset n b).lc = t.lc := rfl
@[simp] theorem Shuttle.pset_loops (t : Shuttle) (n : Nat) (b : BitVec 512) : (t.pset n b).loops = t.loops := rfl
@[simp] theorem Shuttle.pset_vlen (t : Shuttle) (n : Nat) (b : BitVec 512) : (t.pset n b).vlen = t.vlen := rfl
@[simp] theorem Shuttle.pset_vtype (t : Shuttle) (n : Nat) (b : BitVec 512) : (t.pset n b).vtype = t.vtype := rfl
@[simp] theorem Shuttle.pset_vstart (t : Shuttle) (n : Nat) (b : BitVec 512) : (t.pset n b).vstart = t.vstart := rfl
@[simp] theorem Shuttle.pset_redst (t : Shuttle) (n : Nat) (b : BitVec 512) : (t.pset n b).redst = t.redst := rfl
@[simp] theorem Shuttle.pset_fill (t : Shuttle) (n : Nat) (b : BitVec 512) : (t.pset n b).fill = t.fill := rfl
@[simp] theorem Shuttle.pset_sat (t : Shuttle) (n : Nat) (b : BitVec 512) : (t.pset n b).sat = t.sat := rfl
@[simp] theorem Shuttle.pset_fflags (t : Shuttle) (n : Nat) (b : BitVec 512) : (t.pset n b).fflags = t.fflags := rfl
@[simp] theorem Shuttle.pset_rnd (t : Shuttle) (n : Nat) (b : BitVec 512) : (t.pset n b).rnd = t.rnd := rfl
@[simp] theorem Shuttle.pset_frm (t : Shuttle) (n : Nat) (b : BitVec 512) : (t.pset n b).frm = t.frm := rfl
@[simp] theorem Shuttle.pset_ccur (t : Shuttle) (n : Nat) (b : BitVec 512) : (t.pset n b).ccur = t.ccur := rfl
@[simp] theorem Shuttle.pset_xcur (t : Shuttle) (n : Nat) (b : BitVec 512) : (t.pset n b).xcur = t.xcur := rfl
@[simp] theorem Shuttle.pset_hcsum (t : Shuttle) (n : Nat) (b : BitVec 512) : (t.pset n b).hcsum = t.hcsum := rfl
@[simp] theorem Shuttle.pset_tvec (t : Shuttle) (n : Nat) (b : BitVec 512) : (t.pset n b).tvec = t.tvec := rfl
@[simp] theorem Shuttle.pset_tcause (t : Shuttle) (n : Nat) (b : BitVec 512) : (t.pset n b).tcause = t.tcause := rfl
@[simp] theorem Shuttle.pset_apc (t : Shuttle) (n : Nat) (b : BitVec 512) : (t.pset n b).apc = t.apc := rfl
@[simp] theorem Shuttle.pset_pcHi (t : Shuttle) (n : Nat) (b : BitVec 512) : (t.pset n b).pcHi = t.pcHi := rfl
@[simp] theorem Shuttle.pset_xq (t : Shuttle) (n : Nat) (b : BitVec 512) : (t.pset n b).xq = t.xq := rfl
@[simp] theorem Shuttle.pset_level (t : Shuttle) (n : Nat) (b : BitVec 512) : (t.pset n b).level = t.level := rfl
@[simp] theorem Shuttle.pset_events (t : Shuttle) (n : Nat) (b : BitVec 512) : (t.pset n b).events = t.events := rfl
@[simp] theorem Shuttle.pset_frq (t : Shuttle) (n : Nat) (b : BitVec 512) : (t.pset n b).frq = t.frq := rfl
@[simp] theorem Shuttle.pset_lost (t : Shuttle) (n : Nat) (b : BitVec 512) : (t.pset n b).lost = t.lost := rfl
@[simp] theorem Shuttle.pset_timer (t : Shuttle) (n : Nat) (b : BitVec 512) : (t.pset n b).timer = t.timer := rfl
@[simp] theorem Shuttle.pset_armed (t : Shuttle) (n : Nat) (b : BitVec 512) : (t.pset n b).armed = t.armed := rfl
@[simp] theorem Shuttle.pset_prog (t : Shuttle) (n : Nat) (b : BitVec 512) : (t.pset n b).prog = t.prog := rfl
@[simp] theorem Shuttle.pset_progOk (t : Shuttle) (n : Nat) (b : BitVec 512) : (t.pset n b).progOk = t.progOk := rfl
@[simp] theorem Shuttle.pset_reed (t : Shuttle) (n : Nat) (b : BitVec 512) : (t.pset n b).reed = t.reed := rfl
@[simp] theorem Shuttle.pset_vdirty (t : Shuttle) (n : Nat) (b : BitVec 512) : (t.pset n b).vdirty = t.vdirty := rfl
@[simp] theorem Shuttle.pset_vpoison (t : Shuttle) (n : Nat) (b : BitVec 512) : (t.pset n b).vpoison = t.vpoison := rfl
@[simp] theorem Shuttle.pset_xpois (t : Shuttle) (n : Nat) (b : BitVec 512) : (t.pset n b).xpois = t.xpois := rfl
@[simp] theorem Shuttle.pset_ppois (t : Shuttle) (n : Nat) (b : BitVec 512) : (t.pset n b).ppois = t.ppois := rfl
@[simp] theorem Shuttle.pset_rqPois (t : Shuttle) (n : Nat) (b : BitVec 512) : (t.pset n b).rqPois = t.rqPois := rfl
@[simp] theorem Shuttle.pset_spois (t : Shuttle) (n : Nat) (b : BitVec 512) : (t.pset n b).spois = t.spois := rfl
@[simp] theorem Shuttle.pset_flight (t : Shuttle) (n : Nat) (b : BitVec 512) : (t.pset n b).flight = t.flight := rfl
@[simp] theorem Shuttle.pset_lastIssue (t : Shuttle) (n : Nat) (b : BitVec 512) : (t.pset n b).lastIssue = t.lastIssue := rfl
@[simp] theorem Shuttle.pset_issueFrom (t : Shuttle) (n : Nat) (b : BitVec 512) : (t.pset n b).issueFrom = t.issueFrom := rfl
@[simp] theorem Shuttle.pset_units (t : Shuttle) (n : Nat) (b : BitVec 512) : (t.pset n b).units = t.units := rfl
@[simp] theorem Shuttle.pset_pre (t : Shuttle) (n : Nat) (b : BitVec 512) : (t.pset n b).pre = t.pre := rfl
@[simp] theorem Shuttle.pset_preNos (t : Shuttle) (n : Nat) (b : BitVec 512) : (t.pset n b).preNos = t.preNos := rfl
@[simp] theorem Shuttle.pset_saveDue (t : Shuttle) (n : Nat) (b : BitVec 512) : (t.pset n b).saveDue = t.saveDue := rfl
@[simp] theorem Shuttle.pset_budgetDue (t : Shuttle) (n : Nat) (b : BitVec 512) : (t.pset n b).budgetDue = t.budgetDue := rfl
@[simp] theorem Shuttle.pset_due (t : Shuttle) (n : Nat) (b : BitVec 512) : (t.pset n b).due = t.due := rfl
@[simp] theorem Shuttle.pset_endDue (t : Shuttle) (n : Nat) (b : BitVec 512) : (t.pset n b).endDue = t.endDue := rfl
@[simp] theorem Shuttle.pset_endSaved (t : Shuttle) (n : Nat) (b : BitVec 512) : (t.pset n b).endSaved = t.endSaved := rfl
@[simp] theorem Shuttle.pset_xProg (t : Shuttle) (n : Nat) (b : BitVec 512) : (t.pset n b).xProg = t.xProg := rfl
@[simp] theorem Shuttle.pset_xLocs (t : Shuttle) (n : Nat) (b : BitVec 512) : (t.pset n b).xLocs = t.xLocs := rfl
@[simp] theorem Shuttle.pset_xIss (t : Shuttle) (n : Nat) (b : BitVec 512) : (t.pset n b).xIss = t.xIss := rfl
@[simp] theorem Shuttle.pset_reach (t : Shuttle) (n : Nat) (b : BitVec 512) : (t.pset n b).reach = t.reach := rfl
@[simp] theorem Shuttle.pset_cprog (t : Shuttle) (n : Nat) (b : BitVec 512) : (t.pset n b).cprog = t.cprog := rfl
@[simp] theorem Shuttle.pset_halting (t : Shuttle) (n : Nat) (b : BitVec 512) : (t.pset n b).halting = t.halting := rfl
@[simp] theorem Shuttle.pset_aWait (t : Shuttle) (n : Nat) (b : BitVec 512) : (t.pset n b).aWait = t.aWait := rfl
@[simp] theorem Shuttle.pset_xWait (t : Shuttle) (n : Nat) (b : BitVec 512) : (t.pset n b).xWait = t.xWait := rfl
@[simp] theorem Shuttle.pset_nA (t : Shuttle) (n : Nat) (b : BitVec 512) : (t.pset n b).nA = t.nA := rfl
@[simp] theorem Shuttle.pset_nX (t : Shuttle) (n : Nat) (b : BitVec 512) : (t.pset n b).nX = t.nX := rfl
@[simp] theorem Shuttle.pset_nWait (t : Shuttle) (n : Nat) (b : BitVec 512) : (t.pset n b).nWait = t.nWait := rfl
@[simp] theorem Shuttle.pset_nD (t : Shuttle) (n : Nat) (b : BitVec 512) : (t.pset n b).nD = t.nD := rfl
@[simp] theorem Shuttle.pset_parked (t : Shuttle) (n : Nat) (b : BitVec 512) : (t.pset n b).parked = t.parked := rfl

@[simp] theorem Shuttle.pset_p (t : Shuttle) (n : Nat) (b : BitVec 512) : (t.pset n b).p = t.p.setIfInBounds n b := rfl

@[simp] theorem Shuttle.vdone_pos (t : Shuttle) : (t.vdone).pos = t.pos := rfl
@[simp] theorem Shuttle.vdone_status (t : Shuttle) : (t.vdone).status = t.status := rfl
@[simp] theorem Shuttle.vdone_lanes (t : Shuttle) : (t.vdone).lanes = t.lanes := rfl
@[simp] theorem Shuttle.vdone_pid (t : Shuttle) : (t.vdone).pid = t.pid := rfl
@[simp] theorem Shuttle.vdone_priv (t : Shuttle) : (t.vdone).priv = t.priv := rfl
@[simp] theorem Shuttle.vdone_handle (t : Shuttle) : (t.vdone).handle = t.handle := rfl
@[simp] theorem Shuttle.vdone_ceil (t : Shuttle) : (t.vdone).ceil = t.ceil := rfl
@[simp] theorem Shuttle.vdone_nearLen (t : Shuttle) : (t.vdone).nearLen = t.nearLen := rfl
@[simp] theorem Shuttle.vdone_nTiles (t : Shuttle) : (t.vdone).nTiles = t.nTiles := rfl
@[simp] theorem Shuttle.vdone_nEnts (t : Shuttle) : (t.vdone).nEnts = t.nEnts := rfl
@[simp] theorem Shuttle.vdone_x (t : Shuttle) : (t.vdone).x = t.x := rfl
@[simp] theorem Shuttle.vdone_p (t : Shuttle) : (t.vdone).p = t.p := rfl
@[simp] theorem Shuttle.vdone_v (t : Shuttle) : (t.vdone).v = t.v := rfl
@[simp] theorem Shuttle.vdone_c (t : Shuttle) : (t.vdone).c = t.c := rfl
@[simp] theorem Shuttle.vdone_arena (t : Shuttle) : (t.vdone).arena = t.arena := rfl
@[simp] theorem Shuttle.vdone_dq (t : Shuttle) : (t.vdone).dq = t.dq := rfl
@[simp] theorem Shuttle.vdone_rq (t : Shuttle) : (t.vdone).rq = t.rq := rfl
@[simp] theorem Shuttle.vdone_lc (t : Shuttle) : (t.vdone).lc = t.lc := rfl
@[simp] theorem Shuttle.vdone_loops (t : Shuttle) : (t.vdone).loops = t.loops := rfl
@[simp] theorem Shuttle.vdone_vlen (t : Shuttle) : (t.vdone).vlen = t.vlen := rfl
@[simp] theorem Shuttle.vdone_vtype (t : Shuttle) : (t.vdone).vtype = t.vtype := rfl
@[simp] theorem Shuttle.vdone_redst (t : Shuttle) : (t.vdone).redst = t.redst := rfl
@[simp] theorem Shuttle.vdone_fill (t : Shuttle) : (t.vdone).fill = t.fill := rfl
@[simp] theorem Shuttle.vdone_sat (t : Shuttle) : (t.vdone).sat = t.sat := rfl
@[simp] theorem Shuttle.vdone_fflags (t : Shuttle) : (t.vdone).fflags = t.fflags := rfl
@[simp] theorem Shuttle.vdone_rnd (t : Shuttle) : (t.vdone).rnd = t.rnd := rfl
@[simp] theorem Shuttle.vdone_frm (t : Shuttle) : (t.vdone).frm = t.frm := rfl
@[simp] theorem Shuttle.vdone_ccur (t : Shuttle) : (t.vdone).ccur = t.ccur := rfl
@[simp] theorem Shuttle.vdone_xcur (t : Shuttle) : (t.vdone).xcur = t.xcur := rfl
@[simp] theorem Shuttle.vdone_hcsum (t : Shuttle) : (t.vdone).hcsum = t.hcsum := rfl
@[simp] theorem Shuttle.vdone_tvec (t : Shuttle) : (t.vdone).tvec = t.tvec := rfl
@[simp] theorem Shuttle.vdone_tcause (t : Shuttle) : (t.vdone).tcause = t.tcause := rfl
@[simp] theorem Shuttle.vdone_apc (t : Shuttle) : (t.vdone).apc = t.apc := rfl
@[simp] theorem Shuttle.vdone_pcHi (t : Shuttle) : (t.vdone).pcHi = t.pcHi := rfl
@[simp] theorem Shuttle.vdone_xq (t : Shuttle) : (t.vdone).xq = t.xq := rfl
@[simp] theorem Shuttle.vdone_level (t : Shuttle) : (t.vdone).level = t.level := rfl
@[simp] theorem Shuttle.vdone_events (t : Shuttle) : (t.vdone).events = t.events := rfl
@[simp] theorem Shuttle.vdone_frq (t : Shuttle) : (t.vdone).frq = t.frq := rfl
@[simp] theorem Shuttle.vdone_lost (t : Shuttle) : (t.vdone).lost = t.lost := rfl
@[simp] theorem Shuttle.vdone_timer (t : Shuttle) : (t.vdone).timer = t.timer := rfl
@[simp] theorem Shuttle.vdone_armed (t : Shuttle) : (t.vdone).armed = t.armed := rfl
@[simp] theorem Shuttle.vdone_prog (t : Shuttle) : (t.vdone).prog = t.prog := rfl
@[simp] theorem Shuttle.vdone_progOk (t : Shuttle) : (t.vdone).progOk = t.progOk := rfl
@[simp] theorem Shuttle.vdone_reed (t : Shuttle) : (t.vdone).reed = t.reed := rfl
@[simp] theorem Shuttle.vdone_vdirty (t : Shuttle) : (t.vdone).vdirty = t.vdirty := rfl
@[simp] theorem Shuttle.vdone_vpoison (t : Shuttle) : (t.vdone).vpoison = t.vpoison := rfl
@[simp] theorem Shuttle.vdone_xpois (t : Shuttle) : (t.vdone).xpois = t.xpois := rfl
@[simp] theorem Shuttle.vdone_ppois (t : Shuttle) : (t.vdone).ppois = t.ppois := rfl
@[simp] theorem Shuttle.vdone_rqPois (t : Shuttle) : (t.vdone).rqPois = t.rqPois := rfl
@[simp] theorem Shuttle.vdone_flight (t : Shuttle) : (t.vdone).flight = t.flight := rfl
@[simp] theorem Shuttle.vdone_lastIssue (t : Shuttle) : (t.vdone).lastIssue = t.lastIssue := rfl
@[simp] theorem Shuttle.vdone_issueFrom (t : Shuttle) : (t.vdone).issueFrom = t.issueFrom := rfl
@[simp] theorem Shuttle.vdone_units (t : Shuttle) : (t.vdone).units = t.units := rfl
@[simp] theorem Shuttle.vdone_pre (t : Shuttle) : (t.vdone).pre = t.pre := rfl
@[simp] theorem Shuttle.vdone_preNos (t : Shuttle) : (t.vdone).preNos = t.preNos := rfl
@[simp] theorem Shuttle.vdone_saveDue (t : Shuttle) : (t.vdone).saveDue = t.saveDue := rfl
@[simp] theorem Shuttle.vdone_budgetDue (t : Shuttle) : (t.vdone).budgetDue = t.budgetDue := rfl
@[simp] theorem Shuttle.vdone_due (t : Shuttle) : (t.vdone).due = t.due := rfl
@[simp] theorem Shuttle.vdone_endDue (t : Shuttle) : (t.vdone).endDue = t.endDue := rfl
@[simp] theorem Shuttle.vdone_endSaved (t : Shuttle) : (t.vdone).endSaved = t.endSaved := rfl
@[simp] theorem Shuttle.vdone_xProg (t : Shuttle) : (t.vdone).xProg = t.xProg := rfl
@[simp] theorem Shuttle.vdone_xLocs (t : Shuttle) : (t.vdone).xLocs = t.xLocs := rfl
@[simp] theorem Shuttle.vdone_xIss (t : Shuttle) : (t.vdone).xIss = t.xIss := rfl
@[simp] theorem Shuttle.vdone_reach (t : Shuttle) : (t.vdone).reach = t.reach := rfl
@[simp] theorem Shuttle.vdone_cprog (t : Shuttle) : (t.vdone).cprog = t.cprog := rfl
@[simp] theorem Shuttle.vdone_halting (t : Shuttle) : (t.vdone).halting = t.halting := rfl
@[simp] theorem Shuttle.vdone_aWait (t : Shuttle) : (t.vdone).aWait = t.aWait := rfl
@[simp] theorem Shuttle.vdone_xWait (t : Shuttle) : (t.vdone).xWait = t.xWait := rfl
@[simp] theorem Shuttle.vdone_nA (t : Shuttle) : (t.vdone).nA = t.nA := rfl
@[simp] theorem Shuttle.vdone_nX (t : Shuttle) : (t.vdone).nX = t.nX := rfl
@[simp] theorem Shuttle.vdone_nWait (t : Shuttle) : (t.vdone).nWait = t.nWait := rfl
@[simp] theorem Shuttle.vdone_nD (t : Shuttle) : (t.vdone).nD = t.nD := rfl
@[simp] theorem Shuttle.vdone_parked (t : Shuttle) : (t.vdone).parked = t.parked := rfl

@[simp] theorem Shuttle.vdone_vstart (t : Shuttle) : t.vdone.vstart = 0 := rfl

@[simp] theorem Shuttle.wash_pos (t : Shuttle) (ks : List Nat) : (t.wash ks).pos = t.pos := rfl
@[simp] theorem Shuttle.wash_status (t : Shuttle) (ks : List Nat) : (t.wash ks).status = t.status := rfl
@[simp] theorem Shuttle.wash_lanes (t : Shuttle) (ks : List Nat) : (t.wash ks).lanes = t.lanes := rfl
@[simp] theorem Shuttle.wash_pid (t : Shuttle) (ks : List Nat) : (t.wash ks).pid = t.pid := rfl
@[simp] theorem Shuttle.wash_priv (t : Shuttle) (ks : List Nat) : (t.wash ks).priv = t.priv := rfl
@[simp] theorem Shuttle.wash_handle (t : Shuttle) (ks : List Nat) : (t.wash ks).handle = t.handle := rfl
@[simp] theorem Shuttle.wash_ceil (t : Shuttle) (ks : List Nat) : (t.wash ks).ceil = t.ceil := rfl
@[simp] theorem Shuttle.wash_nearLen (t : Shuttle) (ks : List Nat) : (t.wash ks).nearLen = t.nearLen := rfl
@[simp] theorem Shuttle.wash_nTiles (t : Shuttle) (ks : List Nat) : (t.wash ks).nTiles = t.nTiles := rfl
@[simp] theorem Shuttle.wash_nEnts (t : Shuttle) (ks : List Nat) : (t.wash ks).nEnts = t.nEnts := rfl
@[simp] theorem Shuttle.wash_x (t : Shuttle) (ks : List Nat) : (t.wash ks).x = t.x := rfl
@[simp] theorem Shuttle.wash_p (t : Shuttle) (ks : List Nat) : (t.wash ks).p = t.p := rfl
@[simp] theorem Shuttle.wash_v (t : Shuttle) (ks : List Nat) : (t.wash ks).v = t.v := rfl
@[simp] theorem Shuttle.wash_c (t : Shuttle) (ks : List Nat) : (t.wash ks).c = t.c := rfl
@[simp] theorem Shuttle.wash_arena (t : Shuttle) (ks : List Nat) : (t.wash ks).arena = t.arena := rfl
@[simp] theorem Shuttle.wash_dq (t : Shuttle) (ks : List Nat) : (t.wash ks).dq = t.dq := rfl
@[simp] theorem Shuttle.wash_rq (t : Shuttle) (ks : List Nat) : (t.wash ks).rq = t.rq := rfl
@[simp] theorem Shuttle.wash_lc (t : Shuttle) (ks : List Nat) : (t.wash ks).lc = t.lc := rfl
@[simp] theorem Shuttle.wash_loops (t : Shuttle) (ks : List Nat) : (t.wash ks).loops = t.loops := rfl
@[simp] theorem Shuttle.wash_vlen (t : Shuttle) (ks : List Nat) : (t.wash ks).vlen = t.vlen := rfl
@[simp] theorem Shuttle.wash_vtype (t : Shuttle) (ks : List Nat) : (t.wash ks).vtype = t.vtype := rfl
@[simp] theorem Shuttle.wash_vstart (t : Shuttle) (ks : List Nat) : (t.wash ks).vstart = t.vstart := rfl
@[simp] theorem Shuttle.wash_redst (t : Shuttle) (ks : List Nat) : (t.wash ks).redst = t.redst := rfl
@[simp] theorem Shuttle.wash_fill (t : Shuttle) (ks : List Nat) : (t.wash ks).fill = t.fill := rfl
@[simp] theorem Shuttle.wash_sat (t : Shuttle) (ks : List Nat) : (t.wash ks).sat = t.sat := rfl
@[simp] theorem Shuttle.wash_fflags (t : Shuttle) (ks : List Nat) : (t.wash ks).fflags = t.fflags := rfl
@[simp] theorem Shuttle.wash_rnd (t : Shuttle) (ks : List Nat) : (t.wash ks).rnd = t.rnd := rfl
@[simp] theorem Shuttle.wash_frm (t : Shuttle) (ks : List Nat) : (t.wash ks).frm = t.frm := rfl
@[simp] theorem Shuttle.wash_ccur (t : Shuttle) (ks : List Nat) : (t.wash ks).ccur = t.ccur := rfl
@[simp] theorem Shuttle.wash_xcur (t : Shuttle) (ks : List Nat) : (t.wash ks).xcur = t.xcur := rfl
@[simp] theorem Shuttle.wash_hcsum (t : Shuttle) (ks : List Nat) : (t.wash ks).hcsum = t.hcsum := rfl
@[simp] theorem Shuttle.wash_tvec (t : Shuttle) (ks : List Nat) : (t.wash ks).tvec = t.tvec := rfl
@[simp] theorem Shuttle.wash_tcause (t : Shuttle) (ks : List Nat) : (t.wash ks).tcause = t.tcause := rfl
@[simp] theorem Shuttle.wash_apc (t : Shuttle) (ks : List Nat) : (t.wash ks).apc = t.apc := rfl
@[simp] theorem Shuttle.wash_pcHi (t : Shuttle) (ks : List Nat) : (t.wash ks).pcHi = t.pcHi := rfl
@[simp] theorem Shuttle.wash_xq (t : Shuttle) (ks : List Nat) : (t.wash ks).xq = t.xq := rfl
@[simp] theorem Shuttle.wash_level (t : Shuttle) (ks : List Nat) : (t.wash ks).level = t.level := rfl
@[simp] theorem Shuttle.wash_events (t : Shuttle) (ks : List Nat) : (t.wash ks).events = t.events := rfl
@[simp] theorem Shuttle.wash_frq (t : Shuttle) (ks : List Nat) : (t.wash ks).frq = t.frq := rfl
@[simp] theorem Shuttle.wash_lost (t : Shuttle) (ks : List Nat) : (t.wash ks).lost = t.lost := rfl
@[simp] theorem Shuttle.wash_timer (t : Shuttle) (ks : List Nat) : (t.wash ks).timer = t.timer := rfl
@[simp] theorem Shuttle.wash_armed (t : Shuttle) (ks : List Nat) : (t.wash ks).armed = t.armed := rfl
@[simp] theorem Shuttle.wash_prog (t : Shuttle) (ks : List Nat) : (t.wash ks).prog = t.prog := rfl
@[simp] theorem Shuttle.wash_progOk (t : Shuttle) (ks : List Nat) : (t.wash ks).progOk = t.progOk := rfl
@[simp] theorem Shuttle.wash_reed (t : Shuttle) (ks : List Nat) : (t.wash ks).reed = t.reed := rfl
@[simp] theorem Shuttle.wash_vdirty (t : Shuttle) (ks : List Nat) : (t.wash ks).vdirty = t.vdirty := rfl
@[simp] theorem Shuttle.wash_vpoison (t : Shuttle) (ks : List Nat) : (t.wash ks).vpoison = t.vpoison := rfl
@[simp] theorem Shuttle.wash_xpois (t : Shuttle) (ks : List Nat) : (t.wash ks).xpois = t.xpois := rfl
@[simp] theorem Shuttle.wash_ppois (t : Shuttle) (ks : List Nat) : (t.wash ks).ppois = t.ppois := rfl
@[simp] theorem Shuttle.wash_rqPois (t : Shuttle) (ks : List Nat) : (t.wash ks).rqPois = t.rqPois := rfl
@[simp] theorem Shuttle.wash_flight (t : Shuttle) (ks : List Nat) : (t.wash ks).flight = t.flight := rfl
@[simp] theorem Shuttle.wash_lastIssue (t : Shuttle) (ks : List Nat) : (t.wash ks).lastIssue = t.lastIssue := rfl
@[simp] theorem Shuttle.wash_issueFrom (t : Shuttle) (ks : List Nat) : (t.wash ks).issueFrom = t.issueFrom := rfl
@[simp] theorem Shuttle.wash_units (t : Shuttle) (ks : List Nat) : (t.wash ks).units = t.units := rfl
@[simp] theorem Shuttle.wash_pre (t : Shuttle) (ks : List Nat) : (t.wash ks).pre = t.pre := rfl
@[simp] theorem Shuttle.wash_preNos (t : Shuttle) (ks : List Nat) : (t.wash ks).preNos = t.preNos := rfl
@[simp] theorem Shuttle.wash_saveDue (t : Shuttle) (ks : List Nat) : (t.wash ks).saveDue = t.saveDue := rfl
@[simp] theorem Shuttle.wash_budgetDue (t : Shuttle) (ks : List Nat) : (t.wash ks).budgetDue = t.budgetDue := rfl
@[simp] theorem Shuttle.wash_due (t : Shuttle) (ks : List Nat) : (t.wash ks).due = t.due := rfl
@[simp] theorem Shuttle.wash_endDue (t : Shuttle) (ks : List Nat) : (t.wash ks).endDue = t.endDue := rfl
@[simp] theorem Shuttle.wash_endSaved (t : Shuttle) (ks : List Nat) : (t.wash ks).endSaved = t.endSaved := rfl
@[simp] theorem Shuttle.wash_xProg (t : Shuttle) (ks : List Nat) : (t.wash ks).xProg = t.xProg := rfl
@[simp] theorem Shuttle.wash_xLocs (t : Shuttle) (ks : List Nat) : (t.wash ks).xLocs = t.xLocs := rfl
@[simp] theorem Shuttle.wash_xIss (t : Shuttle) (ks : List Nat) : (t.wash ks).xIss = t.xIss := rfl
@[simp] theorem Shuttle.wash_reach (t : Shuttle) (ks : List Nat) : (t.wash ks).reach = t.reach := rfl
@[simp] theorem Shuttle.wash_cprog (t : Shuttle) (ks : List Nat) : (t.wash ks).cprog = t.cprog := rfl
@[simp] theorem Shuttle.wash_halting (t : Shuttle) (ks : List Nat) : (t.wash ks).halting = t.halting := rfl
@[simp] theorem Shuttle.wash_aWait (t : Shuttle) (ks : List Nat) : (t.wash ks).aWait = t.aWait := rfl
@[simp] theorem Shuttle.wash_xWait (t : Shuttle) (ks : List Nat) : (t.wash ks).xWait = t.xWait := rfl
@[simp] theorem Shuttle.wash_nA (t : Shuttle) (ks : List Nat) : (t.wash ks).nA = t.nA := rfl
@[simp] theorem Shuttle.wash_nX (t : Shuttle) (ks : List Nat) : (t.wash ks).nX = t.nX := rfl
@[simp] theorem Shuttle.wash_nWait (t : Shuttle) (ks : List Nat) : (t.wash ks).nWait = t.nWait := rfl
@[simp] theorem Shuttle.wash_nD (t : Shuttle) (ks : List Nat) : (t.wash ks).nD = t.nD := rfl
@[simp] theorem Shuttle.wash_parked (t : Shuttle) (ks : List Nat) : (t.wash ks).parked = t.parked := rfl

@[simp] theorem Shuttle.flag_pos (t : Shuttle) (f : Nat) : (t.flag f).pos = t.pos := rfl
@[simp] theorem Shuttle.flag_status (t : Shuttle) (f : Nat) : (t.flag f).status = t.status := rfl
@[simp] theorem Shuttle.flag_lanes (t : Shuttle) (f : Nat) : (t.flag f).lanes = t.lanes := rfl
@[simp] theorem Shuttle.flag_pid (t : Shuttle) (f : Nat) : (t.flag f).pid = t.pid := rfl
@[simp] theorem Shuttle.flag_priv (t : Shuttle) (f : Nat) : (t.flag f).priv = t.priv := rfl
@[simp] theorem Shuttle.flag_handle (t : Shuttle) (f : Nat) : (t.flag f).handle = t.handle := rfl
@[simp] theorem Shuttle.flag_ceil (t : Shuttle) (f : Nat) : (t.flag f).ceil = t.ceil := rfl
@[simp] theorem Shuttle.flag_nearLen (t : Shuttle) (f : Nat) : (t.flag f).nearLen = t.nearLen := rfl
@[simp] theorem Shuttle.flag_nTiles (t : Shuttle) (f : Nat) : (t.flag f).nTiles = t.nTiles := rfl
@[simp] theorem Shuttle.flag_nEnts (t : Shuttle) (f : Nat) : (t.flag f).nEnts = t.nEnts := rfl
@[simp] theorem Shuttle.flag_x (t : Shuttle) (f : Nat) : (t.flag f).x = t.x := rfl
@[simp] theorem Shuttle.flag_p (t : Shuttle) (f : Nat) : (t.flag f).p = t.p := rfl
@[simp] theorem Shuttle.flag_v (t : Shuttle) (f : Nat) : (t.flag f).v = t.v := rfl
@[simp] theorem Shuttle.flag_c (t : Shuttle) (f : Nat) : (t.flag f).c = t.c := rfl
@[simp] theorem Shuttle.flag_arena (t : Shuttle) (f : Nat) : (t.flag f).arena = t.arena := rfl
@[simp] theorem Shuttle.flag_dq (t : Shuttle) (f : Nat) : (t.flag f).dq = t.dq := rfl
@[simp] theorem Shuttle.flag_rq (t : Shuttle) (f : Nat) : (t.flag f).rq = t.rq := rfl
@[simp] theorem Shuttle.flag_lc (t : Shuttle) (f : Nat) : (t.flag f).lc = t.lc := rfl
@[simp] theorem Shuttle.flag_loops (t : Shuttle) (f : Nat) : (t.flag f).loops = t.loops := rfl
@[simp] theorem Shuttle.flag_vlen (t : Shuttle) (f : Nat) : (t.flag f).vlen = t.vlen := rfl
@[simp] theorem Shuttle.flag_vtype (t : Shuttle) (f : Nat) : (t.flag f).vtype = t.vtype := rfl
@[simp] theorem Shuttle.flag_vstart (t : Shuttle) (f : Nat) : (t.flag f).vstart = t.vstart := rfl
@[simp] theorem Shuttle.flag_redst (t : Shuttle) (f : Nat) : (t.flag f).redst = t.redst := rfl
@[simp] theorem Shuttle.flag_fill (t : Shuttle) (f : Nat) : (t.flag f).fill = t.fill := rfl
@[simp] theorem Shuttle.flag_rnd (t : Shuttle) (f : Nat) : (t.flag f).rnd = t.rnd := rfl
@[simp] theorem Shuttle.flag_frm (t : Shuttle) (f : Nat) : (t.flag f).frm = t.frm := rfl
@[simp] theorem Shuttle.flag_ccur (t : Shuttle) (f : Nat) : (t.flag f).ccur = t.ccur := rfl
@[simp] theorem Shuttle.flag_xcur (t : Shuttle) (f : Nat) : (t.flag f).xcur = t.xcur := rfl
@[simp] theorem Shuttle.flag_hcsum (t : Shuttle) (f : Nat) : (t.flag f).hcsum = t.hcsum := rfl
@[simp] theorem Shuttle.flag_tvec (t : Shuttle) (f : Nat) : (t.flag f).tvec = t.tvec := rfl
@[simp] theorem Shuttle.flag_tcause (t : Shuttle) (f : Nat) : (t.flag f).tcause = t.tcause := rfl
@[simp] theorem Shuttle.flag_apc (t : Shuttle) (f : Nat) : (t.flag f).apc = t.apc := rfl
@[simp] theorem Shuttle.flag_pcHi (t : Shuttle) (f : Nat) : (t.flag f).pcHi = t.pcHi := rfl
@[simp] theorem Shuttle.flag_xq (t : Shuttle) (f : Nat) : (t.flag f).xq = t.xq := rfl
@[simp] theorem Shuttle.flag_level (t : Shuttle) (f : Nat) : (t.flag f).level = t.level := rfl
@[simp] theorem Shuttle.flag_events (t : Shuttle) (f : Nat) : (t.flag f).events = t.events := rfl
@[simp] theorem Shuttle.flag_frq (t : Shuttle) (f : Nat) : (t.flag f).frq = t.frq := rfl
@[simp] theorem Shuttle.flag_lost (t : Shuttle) (f : Nat) : (t.flag f).lost = t.lost := rfl
@[simp] theorem Shuttle.flag_timer (t : Shuttle) (f : Nat) : (t.flag f).timer = t.timer := rfl
@[simp] theorem Shuttle.flag_armed (t : Shuttle) (f : Nat) : (t.flag f).armed = t.armed := rfl
@[simp] theorem Shuttle.flag_prog (t : Shuttle) (f : Nat) : (t.flag f).prog = t.prog := rfl
@[simp] theorem Shuttle.flag_progOk (t : Shuttle) (f : Nat) : (t.flag f).progOk = t.progOk := rfl
@[simp] theorem Shuttle.flag_reed (t : Shuttle) (f : Nat) : (t.flag f).reed = t.reed := rfl
@[simp] theorem Shuttle.flag_vdirty (t : Shuttle) (f : Nat) : (t.flag f).vdirty = t.vdirty := rfl
@[simp] theorem Shuttle.flag_vpoison (t : Shuttle) (f : Nat) : (t.flag f).vpoison = t.vpoison := rfl
@[simp] theorem Shuttle.flag_xpois (t : Shuttle) (f : Nat) : (t.flag f).xpois = t.xpois := rfl
@[simp] theorem Shuttle.flag_ppois (t : Shuttle) (f : Nat) : (t.flag f).ppois = t.ppois := rfl
@[simp] theorem Shuttle.flag_rqPois (t : Shuttle) (f : Nat) : (t.flag f).rqPois = t.rqPois := rfl
@[simp] theorem Shuttle.flag_spois (t : Shuttle) (f : Nat) : (t.flag f).spois = t.spois := rfl
@[simp] theorem Shuttle.flag_flight (t : Shuttle) (f : Nat) : (t.flag f).flight = t.flight := rfl
@[simp] theorem Shuttle.flag_lastIssue (t : Shuttle) (f : Nat) : (t.flag f).lastIssue = t.lastIssue := rfl
@[simp] theorem Shuttle.flag_issueFrom (t : Shuttle) (f : Nat) : (t.flag f).issueFrom = t.issueFrom := rfl
@[simp] theorem Shuttle.flag_units (t : Shuttle) (f : Nat) : (t.flag f).units = t.units := rfl
@[simp] theorem Shuttle.flag_pre (t : Shuttle) (f : Nat) : (t.flag f).pre = t.pre := rfl
@[simp] theorem Shuttle.flag_preNos (t : Shuttle) (f : Nat) : (t.flag f).preNos = t.preNos := rfl
@[simp] theorem Shuttle.flag_saveDue (t : Shuttle) (f : Nat) : (t.flag f).saveDue = t.saveDue := rfl
@[simp] theorem Shuttle.flag_budgetDue (t : Shuttle) (f : Nat) : (t.flag f).budgetDue = t.budgetDue := rfl
@[simp] theorem Shuttle.flag_due (t : Shuttle) (f : Nat) : (t.flag f).due = t.due := rfl
@[simp] theorem Shuttle.flag_endDue (t : Shuttle) (f : Nat) : (t.flag f).endDue = t.endDue := rfl
@[simp] theorem Shuttle.flag_endSaved (t : Shuttle) (f : Nat) : (t.flag f).endSaved = t.endSaved := rfl
@[simp] theorem Shuttle.flag_xProg (t : Shuttle) (f : Nat) : (t.flag f).xProg = t.xProg := rfl
@[simp] theorem Shuttle.flag_xLocs (t : Shuttle) (f : Nat) : (t.flag f).xLocs = t.xLocs := rfl
@[simp] theorem Shuttle.flag_xIss (t : Shuttle) (f : Nat) : (t.flag f).xIss = t.xIss := rfl
@[simp] theorem Shuttle.flag_reach (t : Shuttle) (f : Nat) : (t.flag f).reach = t.reach := rfl
@[simp] theorem Shuttle.flag_cprog (t : Shuttle) (f : Nat) : (t.flag f).cprog = t.cprog := rfl
@[simp] theorem Shuttle.flag_halting (t : Shuttle) (f : Nat) : (t.flag f).halting = t.halting := rfl
@[simp] theorem Shuttle.flag_aWait (t : Shuttle) (f : Nat) : (t.flag f).aWait = t.aWait := rfl
@[simp] theorem Shuttle.flag_xWait (t : Shuttle) (f : Nat) : (t.flag f).xWait = t.xWait := rfl
@[simp] theorem Shuttle.flag_nA (t : Shuttle) (f : Nat) : (t.flag f).nA = t.nA := rfl
@[simp] theorem Shuttle.flag_nX (t : Shuttle) (f : Nat) : (t.flag f).nX = t.nX := rfl
@[simp] theorem Shuttle.flag_nWait (t : Shuttle) (f : Nat) : (t.flag f).nWait = t.nWait := rfl
@[simp] theorem Shuttle.flag_nD (t : Shuttle) (f : Nat) : (t.flag f).nD = t.nD := rfl
@[simp] theorem Shuttle.flag_parked (t : Shuttle) (f : Nat) : (t.flag f).parked = t.parked := rfl

@[simp] theorem Shuttle.noFlags_pos (t : Shuttle) : (t.noFlags).pos = t.pos := rfl
@[simp] theorem Shuttle.noFlags_status (t : Shuttle) : (t.noFlags).status = t.status := rfl
@[simp] theorem Shuttle.noFlags_lanes (t : Shuttle) : (t.noFlags).lanes = t.lanes := rfl
@[simp] theorem Shuttle.noFlags_pid (t : Shuttle) : (t.noFlags).pid = t.pid := rfl
@[simp] theorem Shuttle.noFlags_priv (t : Shuttle) : (t.noFlags).priv = t.priv := rfl
@[simp] theorem Shuttle.noFlags_handle (t : Shuttle) : (t.noFlags).handle = t.handle := rfl
@[simp] theorem Shuttle.noFlags_ceil (t : Shuttle) : (t.noFlags).ceil = t.ceil := rfl
@[simp] theorem Shuttle.noFlags_nearLen (t : Shuttle) : (t.noFlags).nearLen = t.nearLen := rfl
@[simp] theorem Shuttle.noFlags_nTiles (t : Shuttle) : (t.noFlags).nTiles = t.nTiles := rfl
@[simp] theorem Shuttle.noFlags_nEnts (t : Shuttle) : (t.noFlags).nEnts = t.nEnts := rfl
@[simp] theorem Shuttle.noFlags_x (t : Shuttle) : (t.noFlags).x = t.x := rfl
@[simp] theorem Shuttle.noFlags_p (t : Shuttle) : (t.noFlags).p = t.p := rfl
@[simp] theorem Shuttle.noFlags_v (t : Shuttle) : (t.noFlags).v = t.v := rfl
@[simp] theorem Shuttle.noFlags_c (t : Shuttle) : (t.noFlags).c = t.c := rfl
@[simp] theorem Shuttle.noFlags_arena (t : Shuttle) : (t.noFlags).arena = t.arena := rfl
@[simp] theorem Shuttle.noFlags_dq (t : Shuttle) : (t.noFlags).dq = t.dq := rfl
@[simp] theorem Shuttle.noFlags_rq (t : Shuttle) : (t.noFlags).rq = t.rq := rfl
@[simp] theorem Shuttle.noFlags_lc (t : Shuttle) : (t.noFlags).lc = t.lc := rfl
@[simp] theorem Shuttle.noFlags_loops (t : Shuttle) : (t.noFlags).loops = t.loops := rfl
@[simp] theorem Shuttle.noFlags_vlen (t : Shuttle) : (t.noFlags).vlen = t.vlen := rfl
@[simp] theorem Shuttle.noFlags_vtype (t : Shuttle) : (t.noFlags).vtype = t.vtype := rfl
@[simp] theorem Shuttle.noFlags_vstart (t : Shuttle) : (t.noFlags).vstart = t.vstart := rfl
@[simp] theorem Shuttle.noFlags_redst (t : Shuttle) : (t.noFlags).redst = t.redst := rfl
@[simp] theorem Shuttle.noFlags_fill (t : Shuttle) : (t.noFlags).fill = t.fill := rfl
@[simp] theorem Shuttle.noFlags_rnd (t : Shuttle) : (t.noFlags).rnd = t.rnd := rfl
@[simp] theorem Shuttle.noFlags_frm (t : Shuttle) : (t.noFlags).frm = t.frm := rfl
@[simp] theorem Shuttle.noFlags_ccur (t : Shuttle) : (t.noFlags).ccur = t.ccur := rfl
@[simp] theorem Shuttle.noFlags_xcur (t : Shuttle) : (t.noFlags).xcur = t.xcur := rfl
@[simp] theorem Shuttle.noFlags_hcsum (t : Shuttle) : (t.noFlags).hcsum = t.hcsum := rfl
@[simp] theorem Shuttle.noFlags_tvec (t : Shuttle) : (t.noFlags).tvec = t.tvec := rfl
@[simp] theorem Shuttle.noFlags_tcause (t : Shuttle) : (t.noFlags).tcause = t.tcause := rfl
@[simp] theorem Shuttle.noFlags_apc (t : Shuttle) : (t.noFlags).apc = t.apc := rfl
@[simp] theorem Shuttle.noFlags_pcHi (t : Shuttle) : (t.noFlags).pcHi = t.pcHi := rfl
@[simp] theorem Shuttle.noFlags_xq (t : Shuttle) : (t.noFlags).xq = t.xq := rfl
@[simp] theorem Shuttle.noFlags_level (t : Shuttle) : (t.noFlags).level = t.level := rfl
@[simp] theorem Shuttle.noFlags_events (t : Shuttle) : (t.noFlags).events = t.events := rfl
@[simp] theorem Shuttle.noFlags_frq (t : Shuttle) : (t.noFlags).frq = t.frq := rfl
@[simp] theorem Shuttle.noFlags_lost (t : Shuttle) : (t.noFlags).lost = t.lost := rfl
@[simp] theorem Shuttle.noFlags_timer (t : Shuttle) : (t.noFlags).timer = t.timer := rfl
@[simp] theorem Shuttle.noFlags_armed (t : Shuttle) : (t.noFlags).armed = t.armed := rfl
@[simp] theorem Shuttle.noFlags_prog (t : Shuttle) : (t.noFlags).prog = t.prog := rfl
@[simp] theorem Shuttle.noFlags_progOk (t : Shuttle) : (t.noFlags).progOk = t.progOk := rfl
@[simp] theorem Shuttle.noFlags_reed (t : Shuttle) : (t.noFlags).reed = t.reed := rfl
@[simp] theorem Shuttle.noFlags_vdirty (t : Shuttle) : (t.noFlags).vdirty = t.vdirty := rfl
@[simp] theorem Shuttle.noFlags_vpoison (t : Shuttle) : (t.noFlags).vpoison = t.vpoison := rfl
@[simp] theorem Shuttle.noFlags_xpois (t : Shuttle) : (t.noFlags).xpois = t.xpois := rfl
@[simp] theorem Shuttle.noFlags_ppois (t : Shuttle) : (t.noFlags).ppois = t.ppois := rfl
@[simp] theorem Shuttle.noFlags_rqPois (t : Shuttle) : (t.noFlags).rqPois = t.rqPois := rfl
@[simp] theorem Shuttle.noFlags_spois (t : Shuttle) : (t.noFlags).spois = t.spois := rfl
@[simp] theorem Shuttle.noFlags_flight (t : Shuttle) : (t.noFlags).flight = t.flight := rfl
@[simp] theorem Shuttle.noFlags_lastIssue (t : Shuttle) : (t.noFlags).lastIssue = t.lastIssue := rfl
@[simp] theorem Shuttle.noFlags_issueFrom (t : Shuttle) : (t.noFlags).issueFrom = t.issueFrom := rfl
@[simp] theorem Shuttle.noFlags_units (t : Shuttle) : (t.noFlags).units = t.units := rfl
@[simp] theorem Shuttle.noFlags_pre (t : Shuttle) : (t.noFlags).pre = t.pre := rfl
@[simp] theorem Shuttle.noFlags_preNos (t : Shuttle) : (t.noFlags).preNos = t.preNos := rfl
@[simp] theorem Shuttle.noFlags_saveDue (t : Shuttle) : (t.noFlags).saveDue = t.saveDue := rfl
@[simp] theorem Shuttle.noFlags_budgetDue (t : Shuttle) : (t.noFlags).budgetDue = t.budgetDue := rfl
@[simp] theorem Shuttle.noFlags_due (t : Shuttle) : (t.noFlags).due = t.due := rfl
@[simp] theorem Shuttle.noFlags_endDue (t : Shuttle) : (t.noFlags).endDue = t.endDue := rfl
@[simp] theorem Shuttle.noFlags_endSaved (t : Shuttle) : (t.noFlags).endSaved = t.endSaved := rfl
@[simp] theorem Shuttle.noFlags_xProg (t : Shuttle) : (t.noFlags).xProg = t.xProg := rfl
@[simp] theorem Shuttle.noFlags_xLocs (t : Shuttle) : (t.noFlags).xLocs = t.xLocs := rfl
@[simp] theorem Shuttle.noFlags_xIss (t : Shuttle) : (t.noFlags).xIss = t.xIss := rfl
@[simp] theorem Shuttle.noFlags_reach (t : Shuttle) : (t.noFlags).reach = t.reach := rfl
@[simp] theorem Shuttle.noFlags_cprog (t : Shuttle) : (t.noFlags).cprog = t.cprog := rfl
@[simp] theorem Shuttle.noFlags_halting (t : Shuttle) : (t.noFlags).halting = t.halting := rfl
@[simp] theorem Shuttle.noFlags_aWait (t : Shuttle) : (t.noFlags).aWait = t.aWait := rfl
@[simp] theorem Shuttle.noFlags_xWait (t : Shuttle) : (t.noFlags).xWait = t.xWait := rfl
@[simp] theorem Shuttle.noFlags_nA (t : Shuttle) : (t.noFlags).nA = t.nA := rfl
@[simp] theorem Shuttle.noFlags_nX (t : Shuttle) : (t.noFlags).nX = t.nX := rfl
@[simp] theorem Shuttle.noFlags_nWait (t : Shuttle) : (t.noFlags).nWait = t.nWait := rfl
@[simp] theorem Shuttle.noFlags_nD (t : Shuttle) : (t.noFlags).nD = t.nD := rfl
@[simp] theorem Shuttle.noFlags_parked (t : Shuttle) : (t.noFlags).parked = t.parked := rfl

@[simp] theorem Shuttle.joinFlags_pos (t b : Shuttle) : (t.joinFlags b).pos = t.pos := rfl
@[simp] theorem Shuttle.joinFlags_status (t b : Shuttle) : (t.joinFlags b).status = t.status := rfl
@[simp] theorem Shuttle.joinFlags_lanes (t b : Shuttle) : (t.joinFlags b).lanes = t.lanes := rfl
@[simp] theorem Shuttle.joinFlags_pid (t b : Shuttle) : (t.joinFlags b).pid = t.pid := rfl
@[simp] theorem Shuttle.joinFlags_priv (t b : Shuttle) : (t.joinFlags b).priv = t.priv := rfl
@[simp] theorem Shuttle.joinFlags_handle (t b : Shuttle) : (t.joinFlags b).handle = t.handle := rfl
@[simp] theorem Shuttle.joinFlags_ceil (t b : Shuttle) : (t.joinFlags b).ceil = t.ceil := rfl
@[simp] theorem Shuttle.joinFlags_nearLen (t b : Shuttle) : (t.joinFlags b).nearLen = t.nearLen := rfl
@[simp] theorem Shuttle.joinFlags_nTiles (t b : Shuttle) : (t.joinFlags b).nTiles = t.nTiles := rfl
@[simp] theorem Shuttle.joinFlags_nEnts (t b : Shuttle) : (t.joinFlags b).nEnts = t.nEnts := rfl
@[simp] theorem Shuttle.joinFlags_x (t b : Shuttle) : (t.joinFlags b).x = t.x := rfl
@[simp] theorem Shuttle.joinFlags_p (t b : Shuttle) : (t.joinFlags b).p = t.p := rfl
@[simp] theorem Shuttle.joinFlags_v (t b : Shuttle) : (t.joinFlags b).v = t.v := rfl
@[simp] theorem Shuttle.joinFlags_c (t b : Shuttle) : (t.joinFlags b).c = t.c := rfl
@[simp] theorem Shuttle.joinFlags_arena (t b : Shuttle) : (t.joinFlags b).arena = t.arena := rfl
@[simp] theorem Shuttle.joinFlags_dq (t b : Shuttle) : (t.joinFlags b).dq = t.dq := rfl
@[simp] theorem Shuttle.joinFlags_rq (t b : Shuttle) : (t.joinFlags b).rq = t.rq := rfl
@[simp] theorem Shuttle.joinFlags_lc (t b : Shuttle) : (t.joinFlags b).lc = t.lc := rfl
@[simp] theorem Shuttle.joinFlags_loops (t b : Shuttle) : (t.joinFlags b).loops = t.loops := rfl
@[simp] theorem Shuttle.joinFlags_vlen (t b : Shuttle) : (t.joinFlags b).vlen = t.vlen := rfl
@[simp] theorem Shuttle.joinFlags_vtype (t b : Shuttle) : (t.joinFlags b).vtype = t.vtype := rfl
@[simp] theorem Shuttle.joinFlags_vstart (t b : Shuttle) : (t.joinFlags b).vstart = t.vstart := rfl
@[simp] theorem Shuttle.joinFlags_redst (t b : Shuttle) : (t.joinFlags b).redst = t.redst := rfl
@[simp] theorem Shuttle.joinFlags_fill (t b : Shuttle) : (t.joinFlags b).fill = t.fill := rfl
@[simp] theorem Shuttle.joinFlags_rnd (t b : Shuttle) : (t.joinFlags b).rnd = t.rnd := rfl
@[simp] theorem Shuttle.joinFlags_frm (t b : Shuttle) : (t.joinFlags b).frm = t.frm := rfl
@[simp] theorem Shuttle.joinFlags_ccur (t b : Shuttle) : (t.joinFlags b).ccur = t.ccur := rfl
@[simp] theorem Shuttle.joinFlags_xcur (t b : Shuttle) : (t.joinFlags b).xcur = t.xcur := rfl
@[simp] theorem Shuttle.joinFlags_hcsum (t b : Shuttle) : (t.joinFlags b).hcsum = t.hcsum := rfl
@[simp] theorem Shuttle.joinFlags_tvec (t b : Shuttle) : (t.joinFlags b).tvec = t.tvec := rfl
@[simp] theorem Shuttle.joinFlags_tcause (t b : Shuttle) : (t.joinFlags b).tcause = t.tcause := rfl
@[simp] theorem Shuttle.joinFlags_apc (t b : Shuttle) : (t.joinFlags b).apc = t.apc := rfl
@[simp] theorem Shuttle.joinFlags_pcHi (t b : Shuttle) : (t.joinFlags b).pcHi = t.pcHi := rfl
@[simp] theorem Shuttle.joinFlags_xq (t b : Shuttle) : (t.joinFlags b).xq = t.xq := rfl
@[simp] theorem Shuttle.joinFlags_level (t b : Shuttle) : (t.joinFlags b).level = t.level := rfl
@[simp] theorem Shuttle.joinFlags_events (t b : Shuttle) : (t.joinFlags b).events = t.events := rfl
@[simp] theorem Shuttle.joinFlags_frq (t b : Shuttle) : (t.joinFlags b).frq = t.frq := rfl
@[simp] theorem Shuttle.joinFlags_lost (t b : Shuttle) : (t.joinFlags b).lost = t.lost := rfl
@[simp] theorem Shuttle.joinFlags_timer (t b : Shuttle) : (t.joinFlags b).timer = t.timer := rfl
@[simp] theorem Shuttle.joinFlags_armed (t b : Shuttle) : (t.joinFlags b).armed = t.armed := rfl
@[simp] theorem Shuttle.joinFlags_prog (t b : Shuttle) : (t.joinFlags b).prog = t.prog := rfl
@[simp] theorem Shuttle.joinFlags_progOk (t b : Shuttle) : (t.joinFlags b).progOk = t.progOk := rfl
@[simp] theorem Shuttle.joinFlags_reed (t b : Shuttle) : (t.joinFlags b).reed = t.reed := rfl
@[simp] theorem Shuttle.joinFlags_vdirty (t b : Shuttle) : (t.joinFlags b).vdirty = t.vdirty := rfl
@[simp] theorem Shuttle.joinFlags_vpoison (t b : Shuttle) : (t.joinFlags b).vpoison = t.vpoison := rfl
@[simp] theorem Shuttle.joinFlags_xpois (t b : Shuttle) : (t.joinFlags b).xpois = t.xpois := rfl
@[simp] theorem Shuttle.joinFlags_ppois (t b : Shuttle) : (t.joinFlags b).ppois = t.ppois := rfl
@[simp] theorem Shuttle.joinFlags_rqPois (t b : Shuttle) : (t.joinFlags b).rqPois = t.rqPois := rfl
@[simp] theorem Shuttle.joinFlags_spois (t b : Shuttle) : (t.joinFlags b).spois = t.spois := rfl
@[simp] theorem Shuttle.joinFlags_flight (t b : Shuttle) : (t.joinFlags b).flight = t.flight := rfl
@[simp] theorem Shuttle.joinFlags_lastIssue (t b : Shuttle) : (t.joinFlags b).lastIssue = t.lastIssue := rfl
@[simp] theorem Shuttle.joinFlags_issueFrom (t b : Shuttle) : (t.joinFlags b).issueFrom = t.issueFrom := rfl
@[simp] theorem Shuttle.joinFlags_units (t b : Shuttle) : (t.joinFlags b).units = t.units := rfl
@[simp] theorem Shuttle.joinFlags_pre (t b : Shuttle) : (t.joinFlags b).pre = t.pre := rfl
@[simp] theorem Shuttle.joinFlags_preNos (t b : Shuttle) : (t.joinFlags b).preNos = t.preNos := rfl
@[simp] theorem Shuttle.joinFlags_saveDue (t b : Shuttle) : (t.joinFlags b).saveDue = t.saveDue := rfl
@[simp] theorem Shuttle.joinFlags_budgetDue (t b : Shuttle) : (t.joinFlags b).budgetDue = t.budgetDue := rfl
@[simp] theorem Shuttle.joinFlags_due (t b : Shuttle) : (t.joinFlags b).due = t.due := rfl
@[simp] theorem Shuttle.joinFlags_endDue (t b : Shuttle) : (t.joinFlags b).endDue = t.endDue := rfl
@[simp] theorem Shuttle.joinFlags_endSaved (t b : Shuttle) : (t.joinFlags b).endSaved = t.endSaved := rfl
@[simp] theorem Shuttle.joinFlags_xProg (t b : Shuttle) : (t.joinFlags b).xProg = t.xProg := rfl
@[simp] theorem Shuttle.joinFlags_xLocs (t b : Shuttle) : (t.joinFlags b).xLocs = t.xLocs := rfl
@[simp] theorem Shuttle.joinFlags_xIss (t b : Shuttle) : (t.joinFlags b).xIss = t.xIss := rfl
@[simp] theorem Shuttle.joinFlags_reach (t b : Shuttle) : (t.joinFlags b).reach = t.reach := rfl
@[simp] theorem Shuttle.joinFlags_cprog (t b : Shuttle) : (t.joinFlags b).cprog = t.cprog := rfl
@[simp] theorem Shuttle.joinFlags_halting (t b : Shuttle) : (t.joinFlags b).halting = t.halting := rfl
@[simp] theorem Shuttle.joinFlags_aWait (t b : Shuttle) : (t.joinFlags b).aWait = t.aWait := rfl
@[simp] theorem Shuttle.joinFlags_xWait (t b : Shuttle) : (t.joinFlags b).xWait = t.xWait := rfl
@[simp] theorem Shuttle.joinFlags_nA (t b : Shuttle) : (t.joinFlags b).nA = t.nA := rfl
@[simp] theorem Shuttle.joinFlags_nX (t b : Shuttle) : (t.joinFlags b).nX = t.nX := rfl
@[simp] theorem Shuttle.joinFlags_nWait (t b : Shuttle) : (t.joinFlags b).nWait = t.nWait := rfl
@[simp] theorem Shuttle.joinFlags_nD (t b : Shuttle) : (t.joinFlags b).nD = t.nD := rfl
@[simp] theorem Shuttle.joinFlags_parked (t b : Shuttle) : (t.joinFlags b).parked = t.parked := rfl

@[simp] theorem Shuttle.retire_pos (t : Shuttle) (c : Nat) : (t.retire c).pos = t.pos := rfl
@[simp] theorem Shuttle.retire_status (t : Shuttle) (c : Nat) : (t.retire c).status = t.status := rfl
@[simp] theorem Shuttle.retire_lanes (t : Shuttle) (c : Nat) : (t.retire c).lanes = t.lanes := rfl
@[simp] theorem Shuttle.retire_pid (t : Shuttle) (c : Nat) : (t.retire c).pid = t.pid := rfl
@[simp] theorem Shuttle.retire_priv (t : Shuttle) (c : Nat) : (t.retire c).priv = t.priv := rfl
@[simp] theorem Shuttle.retire_handle (t : Shuttle) (c : Nat) : (t.retire c).handle = t.handle := rfl
@[simp] theorem Shuttle.retire_ceil (t : Shuttle) (c : Nat) : (t.retire c).ceil = t.ceil := rfl
@[simp] theorem Shuttle.retire_nearLen (t : Shuttle) (c : Nat) : (t.retire c).nearLen = t.nearLen := rfl
@[simp] theorem Shuttle.retire_nTiles (t : Shuttle) (c : Nat) : (t.retire c).nTiles = t.nTiles := rfl
@[simp] theorem Shuttle.retire_nEnts (t : Shuttle) (c : Nat) : (t.retire c).nEnts = t.nEnts := rfl
@[simp] theorem Shuttle.retire_x (t : Shuttle) (c : Nat) : (t.retire c).x = t.x := rfl
@[simp] theorem Shuttle.retire_p (t : Shuttle) (c : Nat) : (t.retire c).p = t.p := rfl
@[simp] theorem Shuttle.retire_v (t : Shuttle) (c : Nat) : (t.retire c).v = t.v := rfl
@[simp] theorem Shuttle.retire_c (t : Shuttle) (c : Nat) : (t.retire c).c = t.c := rfl
@[simp] theorem Shuttle.retire_arena (t : Shuttle) (c : Nat) : (t.retire c).arena = t.arena := rfl
@[simp] theorem Shuttle.retire_dq (t : Shuttle) (c : Nat) : (t.retire c).dq = t.dq := rfl
@[simp] theorem Shuttle.retire_rq (t : Shuttle) (c : Nat) : (t.retire c).rq = t.rq := rfl
@[simp] theorem Shuttle.retire_lc (t : Shuttle) (c : Nat) : (t.retire c).lc = t.lc := rfl
@[simp] theorem Shuttle.retire_loops (t : Shuttle) (c : Nat) : (t.retire c).loops = t.loops := rfl
@[simp] theorem Shuttle.retire_vlen (t : Shuttle) (c : Nat) : (t.retire c).vlen = t.vlen := rfl
@[simp] theorem Shuttle.retire_vtype (t : Shuttle) (c : Nat) : (t.retire c).vtype = t.vtype := rfl
@[simp] theorem Shuttle.retire_vstart (t : Shuttle) (c : Nat) : (t.retire c).vstart = t.vstart := rfl
@[simp] theorem Shuttle.retire_redst (t : Shuttle) (c : Nat) : (t.retire c).redst = t.redst := rfl
@[simp] theorem Shuttle.retire_fill (t : Shuttle) (c : Nat) : (t.retire c).fill = t.fill := rfl
@[simp] theorem Shuttle.retire_sat (t : Shuttle) (c : Nat) : (t.retire c).sat = t.sat := rfl
@[simp] theorem Shuttle.retire_fflags (t : Shuttle) (c : Nat) : (t.retire c).fflags = t.fflags := rfl
@[simp] theorem Shuttle.retire_rnd (t : Shuttle) (c : Nat) : (t.retire c).rnd = t.rnd := rfl
@[simp] theorem Shuttle.retire_frm (t : Shuttle) (c : Nat) : (t.retire c).frm = t.frm := rfl
@[simp] theorem Shuttle.retire_ccur (t : Shuttle) (c : Nat) : (t.retire c).ccur = t.ccur := rfl
@[simp] theorem Shuttle.retire_xcur (t : Shuttle) (c : Nat) : (t.retire c).xcur = t.xcur := rfl
@[simp] theorem Shuttle.retire_hcsum (t : Shuttle) (c : Nat) : (t.retire c).hcsum = t.hcsum := rfl
@[simp] theorem Shuttle.retire_tvec (t : Shuttle) (c : Nat) : (t.retire c).tvec = t.tvec := rfl
@[simp] theorem Shuttle.retire_tcause (t : Shuttle) (c : Nat) : (t.retire c).tcause = t.tcause := rfl
@[simp] theorem Shuttle.retire_apc (t : Shuttle) (c : Nat) : (t.retire c).apc = t.apc := rfl
@[simp] theorem Shuttle.retire_pcHi (t : Shuttle) (c : Nat) : (t.retire c).pcHi = t.pcHi := rfl
@[simp] theorem Shuttle.retire_level (t : Shuttle) (c : Nat) : (t.retire c).level = t.level := rfl
@[simp] theorem Shuttle.retire_events (t : Shuttle) (c : Nat) : (t.retire c).events = t.events := rfl
@[simp] theorem Shuttle.retire_frq (t : Shuttle) (c : Nat) : (t.retire c).frq = t.frq := rfl
@[simp] theorem Shuttle.retire_lost (t : Shuttle) (c : Nat) : (t.retire c).lost = t.lost := rfl
@[simp] theorem Shuttle.retire_timer (t : Shuttle) (c : Nat) : (t.retire c).timer = t.timer := rfl
@[simp] theorem Shuttle.retire_armed (t : Shuttle) (c : Nat) : (t.retire c).armed = t.armed := rfl
@[simp] theorem Shuttle.retire_prog (t : Shuttle) (c : Nat) : (t.retire c).prog = t.prog := rfl
@[simp] theorem Shuttle.retire_progOk (t : Shuttle) (c : Nat) : (t.retire c).progOk = t.progOk := rfl
@[simp] theorem Shuttle.retire_reed (t : Shuttle) (c : Nat) : (t.retire c).reed = t.reed := rfl
@[simp] theorem Shuttle.retire_vdirty (t : Shuttle) (c : Nat) : (t.retire c).vdirty = t.vdirty := rfl
@[simp] theorem Shuttle.retire_vpoison (t : Shuttle) (c : Nat) : (t.retire c).vpoison = t.vpoison := rfl
@[simp] theorem Shuttle.retire_xpois (t : Shuttle) (c : Nat) : (t.retire c).xpois = t.xpois := rfl
@[simp] theorem Shuttle.retire_ppois (t : Shuttle) (c : Nat) : (t.retire c).ppois = t.ppois := rfl
@[simp] theorem Shuttle.retire_rqPois (t : Shuttle) (c : Nat) : (t.retire c).rqPois = t.rqPois := rfl
@[simp] theorem Shuttle.retire_spois (t : Shuttle) (c : Nat) : (t.retire c).spois = t.spois := rfl
@[simp] theorem Shuttle.retire_flight (t : Shuttle) (c : Nat) : (t.retire c).flight = t.flight := rfl
@[simp] theorem Shuttle.retire_issueFrom (t : Shuttle) (c : Nat) : (t.retire c).issueFrom = t.issueFrom := rfl
@[simp] theorem Shuttle.retire_units (t : Shuttle) (c : Nat) : (t.retire c).units = t.units := rfl
@[simp] theorem Shuttle.retire_pre (t : Shuttle) (c : Nat) : (t.retire c).pre = t.pre := rfl
@[simp] theorem Shuttle.retire_preNos (t : Shuttle) (c : Nat) : (t.retire c).preNos = t.preNos := rfl
@[simp] theorem Shuttle.retire_saveDue (t : Shuttle) (c : Nat) : (t.retire c).saveDue = t.saveDue := rfl
@[simp] theorem Shuttle.retire_budgetDue (t : Shuttle) (c : Nat) : (t.retire c).budgetDue = t.budgetDue := rfl
@[simp] theorem Shuttle.retire_due (t : Shuttle) (c : Nat) : (t.retire c).due = t.due := rfl
@[simp] theorem Shuttle.retire_endDue (t : Shuttle) (c : Nat) : (t.retire c).endDue = t.endDue := rfl
@[simp] theorem Shuttle.retire_endSaved (t : Shuttle) (c : Nat) : (t.retire c).endSaved = t.endSaved := rfl
@[simp] theorem Shuttle.retire_reach (t : Shuttle) (c : Nat) : (t.retire c).reach = t.reach := rfl
@[simp] theorem Shuttle.retire_halting (t : Shuttle) (c : Nat) : (t.retire c).halting = t.halting := rfl
@[simp] theorem Shuttle.retire_nA (t : Shuttle) (c : Nat) : (t.retire c).nA = t.nA := rfl
@[simp] theorem Shuttle.retire_nWait (t : Shuttle) (c : Nat) : (t.retire c).nWait = t.nWait := rfl
@[simp] theorem Shuttle.retire_nD (t : Shuttle) (c : Nat) : (t.retire c).nD = t.nD := rfl
@[simp] theorem Shuttle.retire_parked (t : Shuttle) (c : Nat) : (t.retire c).parked = t.parked := rfl

@[simp] theorem Shuttle.colDone_pos (t : Shuttle) : (t.colDone).pos = t.pos := rfl
@[simp] theorem Shuttle.colDone_status (t : Shuttle) : (t.colDone).status = t.status := rfl
@[simp] theorem Shuttle.colDone_lanes (t : Shuttle) : (t.colDone).lanes = t.lanes := rfl
@[simp] theorem Shuttle.colDone_pid (t : Shuttle) : (t.colDone).pid = t.pid := rfl
@[simp] theorem Shuttle.colDone_priv (t : Shuttle) : (t.colDone).priv = t.priv := rfl
@[simp] theorem Shuttle.colDone_handle (t : Shuttle) : (t.colDone).handle = t.handle := rfl
@[simp] theorem Shuttle.colDone_ceil (t : Shuttle) : (t.colDone).ceil = t.ceil := rfl
@[simp] theorem Shuttle.colDone_nearLen (t : Shuttle) : (t.colDone).nearLen = t.nearLen := rfl
@[simp] theorem Shuttle.colDone_nTiles (t : Shuttle) : (t.colDone).nTiles = t.nTiles := rfl
@[simp] theorem Shuttle.colDone_nEnts (t : Shuttle) : (t.colDone).nEnts = t.nEnts := rfl
@[simp] theorem Shuttle.colDone_x (t : Shuttle) : (t.colDone).x = t.x := rfl
@[simp] theorem Shuttle.colDone_p (t : Shuttle) : (t.colDone).p = t.p := rfl
@[simp] theorem Shuttle.colDone_v (t : Shuttle) : (t.colDone).v = t.v := rfl
@[simp] theorem Shuttle.colDone_c (t : Shuttle) : (t.colDone).c = t.c := rfl
@[simp] theorem Shuttle.colDone_arena (t : Shuttle) : (t.colDone).arena = t.arena := rfl
@[simp] theorem Shuttle.colDone_dq (t : Shuttle) : (t.colDone).dq = t.dq := rfl
@[simp] theorem Shuttle.colDone_rq (t : Shuttle) : (t.colDone).rq = t.rq := rfl
@[simp] theorem Shuttle.colDone_lc (t : Shuttle) : (t.colDone).lc = t.lc := rfl
@[simp] theorem Shuttle.colDone_loops (t : Shuttle) : (t.colDone).loops = t.loops := rfl
@[simp] theorem Shuttle.colDone_vlen (t : Shuttle) : (t.colDone).vlen = t.vlen := rfl
@[simp] theorem Shuttle.colDone_vtype (t : Shuttle) : (t.colDone).vtype = t.vtype := rfl
@[simp] theorem Shuttle.colDone_vstart (t : Shuttle) : (t.colDone).vstart = t.vstart := rfl
@[simp] theorem Shuttle.colDone_redst (t : Shuttle) : (t.colDone).redst = t.redst := rfl
@[simp] theorem Shuttle.colDone_fill (t : Shuttle) : (t.colDone).fill = t.fill := rfl
@[simp] theorem Shuttle.colDone_sat (t : Shuttle) : (t.colDone).sat = t.sat := rfl
@[simp] theorem Shuttle.colDone_fflags (t : Shuttle) : (t.colDone).fflags = t.fflags := rfl
@[simp] theorem Shuttle.colDone_rnd (t : Shuttle) : (t.colDone).rnd = t.rnd := rfl
@[simp] theorem Shuttle.colDone_frm (t : Shuttle) : (t.colDone).frm = t.frm := rfl
@[simp] theorem Shuttle.colDone_ccur (t : Shuttle) : (t.colDone).ccur = t.ccur := rfl
@[simp] theorem Shuttle.colDone_xcur (t : Shuttle) : (t.colDone).xcur = t.xcur := rfl
@[simp] theorem Shuttle.colDone_hcsum (t : Shuttle) : (t.colDone).hcsum = t.hcsum := rfl
@[simp] theorem Shuttle.colDone_tvec (t : Shuttle) : (t.colDone).tvec = t.tvec := rfl
@[simp] theorem Shuttle.colDone_tcause (t : Shuttle) : (t.colDone).tcause = t.tcause := rfl
@[simp] theorem Shuttle.colDone_apc (t : Shuttle) : (t.colDone).apc = t.apc := rfl
@[simp] theorem Shuttle.colDone_pcHi (t : Shuttle) : (t.colDone).pcHi = t.pcHi := rfl
@[simp] theorem Shuttle.colDone_xq (t : Shuttle) : (t.colDone).xq = t.xq := rfl
@[simp] theorem Shuttle.colDone_level (t : Shuttle) : (t.colDone).level = t.level := rfl
@[simp] theorem Shuttle.colDone_events (t : Shuttle) : (t.colDone).events = t.events := rfl
@[simp] theorem Shuttle.colDone_frq (t : Shuttle) : (t.colDone).frq = t.frq := rfl
@[simp] theorem Shuttle.colDone_lost (t : Shuttle) : (t.colDone).lost = t.lost := rfl
@[simp] theorem Shuttle.colDone_timer (t : Shuttle) : (t.colDone).timer = t.timer := rfl
@[simp] theorem Shuttle.colDone_armed (t : Shuttle) : (t.colDone).armed = t.armed := rfl
@[simp] theorem Shuttle.colDone_prog (t : Shuttle) : (t.colDone).prog = t.prog := rfl
@[simp] theorem Shuttle.colDone_progOk (t : Shuttle) : (t.colDone).progOk = t.progOk := rfl
@[simp] theorem Shuttle.colDone_reed (t : Shuttle) : (t.colDone).reed = t.reed := rfl
@[simp] theorem Shuttle.colDone_vdirty (t : Shuttle) : (t.colDone).vdirty = t.vdirty := rfl
@[simp] theorem Shuttle.colDone_vpoison (t : Shuttle) : (t.colDone).vpoison = t.vpoison := rfl
@[simp] theorem Shuttle.colDone_xpois (t : Shuttle) : (t.colDone).xpois = t.xpois := rfl
@[simp] theorem Shuttle.colDone_ppois (t : Shuttle) : (t.colDone).ppois = t.ppois := rfl
@[simp] theorem Shuttle.colDone_rqPois (t : Shuttle) : (t.colDone).rqPois = t.rqPois := rfl
@[simp] theorem Shuttle.colDone_spois (t : Shuttle) : (t.colDone).spois = t.spois := rfl
@[simp] theorem Shuttle.colDone_flight (t : Shuttle) : (t.colDone).flight = t.flight := rfl
@[simp] theorem Shuttle.colDone_lastIssue (t : Shuttle) : (t.colDone).lastIssue = t.lastIssue := rfl
@[simp] theorem Shuttle.colDone_issueFrom (t : Shuttle) : (t.colDone).issueFrom = t.issueFrom := rfl
@[simp] theorem Shuttle.colDone_units (t : Shuttle) : (t.colDone).units = t.units := rfl
@[simp] theorem Shuttle.colDone_pre (t : Shuttle) : (t.colDone).pre = t.pre := rfl
@[simp] theorem Shuttle.colDone_preNos (t : Shuttle) : (t.colDone).preNos = t.preNos := rfl
@[simp] theorem Shuttle.colDone_saveDue (t : Shuttle) : (t.colDone).saveDue = t.saveDue := rfl
@[simp] theorem Shuttle.colDone_budgetDue (t : Shuttle) : (t.colDone).budgetDue = t.budgetDue := rfl
@[simp] theorem Shuttle.colDone_due (t : Shuttle) : (t.colDone).due = t.due := rfl
@[simp] theorem Shuttle.colDone_endDue (t : Shuttle) : (t.colDone).endDue = t.endDue := rfl
@[simp] theorem Shuttle.colDone_endSaved (t : Shuttle) : (t.colDone).endSaved = t.endSaved := rfl
@[simp] theorem Shuttle.colDone_xProg (t : Shuttle) : (t.colDone).xProg = t.xProg := rfl
@[simp] theorem Shuttle.colDone_xLocs (t : Shuttle) : (t.colDone).xLocs = t.xLocs := rfl
@[simp] theorem Shuttle.colDone_reach (t : Shuttle) : (t.colDone).reach = t.reach := rfl
@[simp] theorem Shuttle.colDone_halting (t : Shuttle) : (t.colDone).halting = t.halting := rfl
@[simp] theorem Shuttle.colDone_aWait (t : Shuttle) : (t.colDone).aWait = t.aWait := rfl
@[simp] theorem Shuttle.colDone_xWait (t : Shuttle) : (t.colDone).xWait = t.xWait := rfl
@[simp] theorem Shuttle.colDone_nA (t : Shuttle) : (t.colDone).nA = t.nA := rfl
@[simp] theorem Shuttle.colDone_nX (t : Shuttle) : (t.colDone).nX = t.nX := rfl
@[simp] theorem Shuttle.colDone_nWait (t : Shuttle) : (t.colDone).nWait = t.nWait := rfl
@[simp] theorem Shuttle.colDone_nD (t : Shuttle) : (t.colDone).nD = t.nD := rfl
@[simp] theorem Shuttle.colDone_parked (t : Shuttle) : (t.colDone).parked = t.parked := rfl

@[simp] theorem Shuttle.colDone_cprog (t : Shuttle) : t.colDone.cprog = none := rfl
@[simp] theorem Shuttle.colDone_xIss (t : Shuttle) : t.colDone.xIss = none := rfl

@[simp] theorem Shuttle.elemSet_pos (t : Shuttle) (n i : Nat) (e : EType) (v : Nat) : (t.elemSet n i e v).pos = t.pos := rfl
@[simp] theorem Shuttle.elemSet_status (t : Shuttle) (n i : Nat) (e : EType) (v : Nat) : (t.elemSet n i e v).status = t.status := rfl
@[simp] theorem Shuttle.elemSet_lanes (t : Shuttle) (n i : Nat) (e : EType) (v : Nat) : (t.elemSet n i e v).lanes = t.lanes := rfl
@[simp] theorem Shuttle.elemSet_pid (t : Shuttle) (n i : Nat) (e : EType) (v : Nat) : (t.elemSet n i e v).pid = t.pid := rfl
@[simp] theorem Shuttle.elemSet_priv (t : Shuttle) (n i : Nat) (e : EType) (v : Nat) : (t.elemSet n i e v).priv = t.priv := rfl
@[simp] theorem Shuttle.elemSet_handle (t : Shuttle) (n i : Nat) (e : EType) (v : Nat) : (t.elemSet n i e v).handle = t.handle := rfl
@[simp] theorem Shuttle.elemSet_ceil (t : Shuttle) (n i : Nat) (e : EType) (v : Nat) : (t.elemSet n i e v).ceil = t.ceil := rfl
@[simp] theorem Shuttle.elemSet_nearLen (t : Shuttle) (n i : Nat) (e : EType) (v : Nat) : (t.elemSet n i e v).nearLen = t.nearLen := rfl
@[simp] theorem Shuttle.elemSet_nTiles (t : Shuttle) (n i : Nat) (e : EType) (v : Nat) : (t.elemSet n i e v).nTiles = t.nTiles := rfl
@[simp] theorem Shuttle.elemSet_nEnts (t : Shuttle) (n i : Nat) (e : EType) (v : Nat) : (t.elemSet n i e v).nEnts = t.nEnts := rfl
@[simp] theorem Shuttle.elemSet_x (t : Shuttle) (n i : Nat) (e : EType) (v : Nat) : (t.elemSet n i e v).x = t.x := rfl
@[simp] theorem Shuttle.elemSet_p (t : Shuttle) (n i : Nat) (e : EType) (v : Nat) : (t.elemSet n i e v).p = t.p := rfl
@[simp] theorem Shuttle.elemSet_c (t : Shuttle) (n i : Nat) (e : EType) (v : Nat) : (t.elemSet n i e v).c = t.c := rfl
@[simp] theorem Shuttle.elemSet_arena (t : Shuttle) (n i : Nat) (e : EType) (v : Nat) : (t.elemSet n i e v).arena = t.arena := rfl
@[simp] theorem Shuttle.elemSet_dq (t : Shuttle) (n i : Nat) (e : EType) (v : Nat) : (t.elemSet n i e v).dq = t.dq := rfl
@[simp] theorem Shuttle.elemSet_rq (t : Shuttle) (n i : Nat) (e : EType) (v : Nat) : (t.elemSet n i e v).rq = t.rq := rfl
@[simp] theorem Shuttle.elemSet_lc (t : Shuttle) (n i : Nat) (e : EType) (v : Nat) : (t.elemSet n i e v).lc = t.lc := rfl
@[simp] theorem Shuttle.elemSet_loops (t : Shuttle) (n i : Nat) (e : EType) (v : Nat) : (t.elemSet n i e v).loops = t.loops := rfl
@[simp] theorem Shuttle.elemSet_vlen (t : Shuttle) (n i : Nat) (e : EType) (v : Nat) : (t.elemSet n i e v).vlen = t.vlen := rfl
@[simp] theorem Shuttle.elemSet_vtype (t : Shuttle) (n i : Nat) (e : EType) (v : Nat) : (t.elemSet n i e v).vtype = t.vtype := rfl
@[simp] theorem Shuttle.elemSet_vstart (t : Shuttle) (n i : Nat) (e : EType) (v : Nat) : (t.elemSet n i e v).vstart = t.vstart := rfl
@[simp] theorem Shuttle.elemSet_redst (t : Shuttle) (n i : Nat) (e : EType) (v : Nat) : (t.elemSet n i e v).redst = t.redst := rfl
@[simp] theorem Shuttle.elemSet_fill (t : Shuttle) (n i : Nat) (e : EType) (v : Nat) : (t.elemSet n i e v).fill = t.fill := rfl
@[simp] theorem Shuttle.elemSet_sat (t : Shuttle) (n i : Nat) (e : EType) (v : Nat) : (t.elemSet n i e v).sat = t.sat := rfl
@[simp] theorem Shuttle.elemSet_fflags (t : Shuttle) (n i : Nat) (e : EType) (v : Nat) : (t.elemSet n i e v).fflags = t.fflags := rfl
@[simp] theorem Shuttle.elemSet_rnd (t : Shuttle) (n i : Nat) (e : EType) (v : Nat) : (t.elemSet n i e v).rnd = t.rnd := rfl
@[simp] theorem Shuttle.elemSet_frm (t : Shuttle) (n i : Nat) (e : EType) (v : Nat) : (t.elemSet n i e v).frm = t.frm := rfl
@[simp] theorem Shuttle.elemSet_ccur (t : Shuttle) (n i : Nat) (e : EType) (v : Nat) : (t.elemSet n i e v).ccur = t.ccur := rfl
@[simp] theorem Shuttle.elemSet_xcur (t : Shuttle) (n i : Nat) (e : EType) (v : Nat) : (t.elemSet n i e v).xcur = t.xcur := rfl
@[simp] theorem Shuttle.elemSet_hcsum (t : Shuttle) (n i : Nat) (e : EType) (v : Nat) : (t.elemSet n i e v).hcsum = t.hcsum := rfl
@[simp] theorem Shuttle.elemSet_tvec (t : Shuttle) (n i : Nat) (e : EType) (v : Nat) : (t.elemSet n i e v).tvec = t.tvec := rfl
@[simp] theorem Shuttle.elemSet_tcause (t : Shuttle) (n i : Nat) (e : EType) (v : Nat) : (t.elemSet n i e v).tcause = t.tcause := rfl
@[simp] theorem Shuttle.elemSet_apc (t : Shuttle) (n i : Nat) (e : EType) (v : Nat) : (t.elemSet n i e v).apc = t.apc := rfl
@[simp] theorem Shuttle.elemSet_pcHi (t : Shuttle) (n i : Nat) (e : EType) (v : Nat) : (t.elemSet n i e v).pcHi = t.pcHi := rfl
@[simp] theorem Shuttle.elemSet_xq (t : Shuttle) (n i : Nat) (e : EType) (v : Nat) : (t.elemSet n i e v).xq = t.xq := rfl
@[simp] theorem Shuttle.elemSet_level (t : Shuttle) (n i : Nat) (e : EType) (v : Nat) : (t.elemSet n i e v).level = t.level := rfl
@[simp] theorem Shuttle.elemSet_events (t : Shuttle) (n i : Nat) (e : EType) (v : Nat) : (t.elemSet n i e v).events = t.events := rfl
@[simp] theorem Shuttle.elemSet_frq (t : Shuttle) (n i : Nat) (e : EType) (v : Nat) : (t.elemSet n i e v).frq = t.frq := rfl
@[simp] theorem Shuttle.elemSet_lost (t : Shuttle) (n i : Nat) (e : EType) (v : Nat) : (t.elemSet n i e v).lost = t.lost := rfl
@[simp] theorem Shuttle.elemSet_timer (t : Shuttle) (n i : Nat) (e : EType) (v : Nat) : (t.elemSet n i e v).timer = t.timer := rfl
@[simp] theorem Shuttle.elemSet_armed (t : Shuttle) (n i : Nat) (e : EType) (v : Nat) : (t.elemSet n i e v).armed = t.armed := rfl
@[simp] theorem Shuttle.elemSet_prog (t : Shuttle) (n i : Nat) (e : EType) (v : Nat) : (t.elemSet n i e v).prog = t.prog := rfl
@[simp] theorem Shuttle.elemSet_progOk (t : Shuttle) (n i : Nat) (e : EType) (v : Nat) : (t.elemSet n i e v).progOk = t.progOk := rfl
@[simp] theorem Shuttle.elemSet_reed (t : Shuttle) (n i : Nat) (e : EType) (v : Nat) : (t.elemSet n i e v).reed = t.reed := rfl
@[simp] theorem Shuttle.elemSet_vpoison (t : Shuttle) (n i : Nat) (e : EType) (v : Nat) : (t.elemSet n i e v).vpoison = t.vpoison := rfl
@[simp] theorem Shuttle.elemSet_xpois (t : Shuttle) (n i : Nat) (e : EType) (v : Nat) : (t.elemSet n i e v).xpois = t.xpois := rfl
@[simp] theorem Shuttle.elemSet_ppois (t : Shuttle) (n i : Nat) (e : EType) (v : Nat) : (t.elemSet n i e v).ppois = t.ppois := rfl
@[simp] theorem Shuttle.elemSet_rqPois (t : Shuttle) (n i : Nat) (e : EType) (v : Nat) : (t.elemSet n i e v).rqPois = t.rqPois := rfl
@[simp] theorem Shuttle.elemSet_spois (t : Shuttle) (n i : Nat) (e : EType) (v : Nat) : (t.elemSet n i e v).spois = t.spois := rfl
@[simp] theorem Shuttle.elemSet_flight (t : Shuttle) (n i : Nat) (e : EType) (v : Nat) : (t.elemSet n i e v).flight = t.flight := rfl
@[simp] theorem Shuttle.elemSet_lastIssue (t : Shuttle) (n i : Nat) (e : EType) (v : Nat) : (t.elemSet n i e v).lastIssue = t.lastIssue := rfl
@[simp] theorem Shuttle.elemSet_issueFrom (t : Shuttle) (n i : Nat) (e : EType) (v : Nat) : (t.elemSet n i e v).issueFrom = t.issueFrom := rfl
@[simp] theorem Shuttle.elemSet_units (t : Shuttle) (n i : Nat) (e : EType) (v : Nat) : (t.elemSet n i e v).units = t.units := rfl
@[simp] theorem Shuttle.elemSet_pre (t : Shuttle) (n i : Nat) (e : EType) (v : Nat) : (t.elemSet n i e v).pre = t.pre := rfl
@[simp] theorem Shuttle.elemSet_preNos (t : Shuttle) (n i : Nat) (e : EType) (v : Nat) : (t.elemSet n i e v).preNos = t.preNos := rfl
@[simp] theorem Shuttle.elemSet_saveDue (t : Shuttle) (n i : Nat) (e : EType) (v : Nat) : (t.elemSet n i e v).saveDue = t.saveDue := rfl
@[simp] theorem Shuttle.elemSet_budgetDue (t : Shuttle) (n i : Nat) (e : EType) (v : Nat) : (t.elemSet n i e v).budgetDue = t.budgetDue := rfl
@[simp] theorem Shuttle.elemSet_due (t : Shuttle) (n i : Nat) (e : EType) (v : Nat) : (t.elemSet n i e v).due = t.due := rfl
@[simp] theorem Shuttle.elemSet_endDue (t : Shuttle) (n i : Nat) (e : EType) (v : Nat) : (t.elemSet n i e v).endDue = t.endDue := rfl
@[simp] theorem Shuttle.elemSet_endSaved (t : Shuttle) (n i : Nat) (e : EType) (v : Nat) : (t.elemSet n i e v).endSaved = t.endSaved := rfl
@[simp] theorem Shuttle.elemSet_xProg (t : Shuttle) (n i : Nat) (e : EType) (v : Nat) : (t.elemSet n i e v).xProg = t.xProg := rfl
@[simp] theorem Shuttle.elemSet_xLocs (t : Shuttle) (n i : Nat) (e : EType) (v : Nat) : (t.elemSet n i e v).xLocs = t.xLocs := rfl
@[simp] theorem Shuttle.elemSet_xIss (t : Shuttle) (n i : Nat) (e : EType) (v : Nat) : (t.elemSet n i e v).xIss = t.xIss := rfl
@[simp] theorem Shuttle.elemSet_reach (t : Shuttle) (n i : Nat) (e : EType) (v : Nat) : (t.elemSet n i e v).reach = t.reach := rfl
@[simp] theorem Shuttle.elemSet_cprog (t : Shuttle) (n i : Nat) (e : EType) (v : Nat) : (t.elemSet n i e v).cprog = t.cprog := rfl
@[simp] theorem Shuttle.elemSet_halting (t : Shuttle) (n i : Nat) (e : EType) (v : Nat) : (t.elemSet n i e v).halting = t.halting := rfl
@[simp] theorem Shuttle.elemSet_aWait (t : Shuttle) (n i : Nat) (e : EType) (v : Nat) : (t.elemSet n i e v).aWait = t.aWait := rfl
@[simp] theorem Shuttle.elemSet_xWait (t : Shuttle) (n i : Nat) (e : EType) (v : Nat) : (t.elemSet n i e v).xWait = t.xWait := rfl
@[simp] theorem Shuttle.elemSet_nA (t : Shuttle) (n i : Nat) (e : EType) (v : Nat) : (t.elemSet n i e v).nA = t.nA := rfl
@[simp] theorem Shuttle.elemSet_nX (t : Shuttle) (n i : Nat) (e : EType) (v : Nat) : (t.elemSet n i e v).nX = t.nX := rfl
@[simp] theorem Shuttle.elemSet_nWait (t : Shuttle) (n i : Nat) (e : EType) (v : Nat) : (t.elemSet n i e v).nWait = t.nWait := rfl
@[simp] theorem Shuttle.elemSet_nD (t : Shuttle) (n i : Nat) (e : EType) (v : Nat) : (t.elemSet n i e v).nD = t.nD := rfl
@[simp] theorem Shuttle.elemSet_parked (t : Shuttle) (n i : Nat) (e : EType) (v : Nat) : (t.elemSet n i e v).parked = t.parked := rfl

@[simp] theorem Shuttle.setDq_pos (t : Shuttle) (n : Nat) (q : List QEntry) : (t.setDq n q).pos = t.pos := rfl
@[simp] theorem Shuttle.setDq_status (t : Shuttle) (n : Nat) (q : List QEntry) : (t.setDq n q).status = t.status := rfl
@[simp] theorem Shuttle.setDq_lanes (t : Shuttle) (n : Nat) (q : List QEntry) : (t.setDq n q).lanes = t.lanes := rfl
@[simp] theorem Shuttle.setDq_pid (t : Shuttle) (n : Nat) (q : List QEntry) : (t.setDq n q).pid = t.pid := rfl
@[simp] theorem Shuttle.setDq_priv (t : Shuttle) (n : Nat) (q : List QEntry) : (t.setDq n q).priv = t.priv := rfl
@[simp] theorem Shuttle.setDq_handle (t : Shuttle) (n : Nat) (q : List QEntry) : (t.setDq n q).handle = t.handle := rfl
@[simp] theorem Shuttle.setDq_ceil (t : Shuttle) (n : Nat) (q : List QEntry) : (t.setDq n q).ceil = t.ceil := rfl
@[simp] theorem Shuttle.setDq_nearLen (t : Shuttle) (n : Nat) (q : List QEntry) : (t.setDq n q).nearLen = t.nearLen := rfl
@[simp] theorem Shuttle.setDq_nTiles (t : Shuttle) (n : Nat) (q : List QEntry) : (t.setDq n q).nTiles = t.nTiles := rfl
@[simp] theorem Shuttle.setDq_nEnts (t : Shuttle) (n : Nat) (q : List QEntry) : (t.setDq n q).nEnts = t.nEnts := rfl
@[simp] theorem Shuttle.setDq_x (t : Shuttle) (n : Nat) (q : List QEntry) : (t.setDq n q).x = t.x := rfl
@[simp] theorem Shuttle.setDq_p (t : Shuttle) (n : Nat) (q : List QEntry) : (t.setDq n q).p = t.p := rfl
@[simp] theorem Shuttle.setDq_v (t : Shuttle) (n : Nat) (q : List QEntry) : (t.setDq n q).v = t.v := rfl
@[simp] theorem Shuttle.setDq_c (t : Shuttle) (n : Nat) (q : List QEntry) : (t.setDq n q).c = t.c := rfl
@[simp] theorem Shuttle.setDq_arena (t : Shuttle) (n : Nat) (q : List QEntry) : (t.setDq n q).arena = t.arena := rfl
@[simp] theorem Shuttle.setDq_rq (t : Shuttle) (n : Nat) (q : List QEntry) : (t.setDq n q).rq = t.rq := rfl
@[simp] theorem Shuttle.setDq_lc (t : Shuttle) (n : Nat) (q : List QEntry) : (t.setDq n q).lc = t.lc := rfl
@[simp] theorem Shuttle.setDq_loops (t : Shuttle) (n : Nat) (q : List QEntry) : (t.setDq n q).loops = t.loops := rfl
@[simp] theorem Shuttle.setDq_vlen (t : Shuttle) (n : Nat) (q : List QEntry) : (t.setDq n q).vlen = t.vlen := rfl
@[simp] theorem Shuttle.setDq_vtype (t : Shuttle) (n : Nat) (q : List QEntry) : (t.setDq n q).vtype = t.vtype := rfl
@[simp] theorem Shuttle.setDq_vstart (t : Shuttle) (n : Nat) (q : List QEntry) : (t.setDq n q).vstart = t.vstart := rfl
@[simp] theorem Shuttle.setDq_redst (t : Shuttle) (n : Nat) (q : List QEntry) : (t.setDq n q).redst = t.redst := rfl
@[simp] theorem Shuttle.setDq_fill (t : Shuttle) (n : Nat) (q : List QEntry) : (t.setDq n q).fill = t.fill := rfl
@[simp] theorem Shuttle.setDq_sat (t : Shuttle) (n : Nat) (q : List QEntry) : (t.setDq n q).sat = t.sat := rfl
@[simp] theorem Shuttle.setDq_fflags (t : Shuttle) (n : Nat) (q : List QEntry) : (t.setDq n q).fflags = t.fflags := rfl
@[simp] theorem Shuttle.setDq_rnd (t : Shuttle) (n : Nat) (q : List QEntry) : (t.setDq n q).rnd = t.rnd := rfl
@[simp] theorem Shuttle.setDq_frm (t : Shuttle) (n : Nat) (q : List QEntry) : (t.setDq n q).frm = t.frm := rfl
@[simp] theorem Shuttle.setDq_ccur (t : Shuttle) (n : Nat) (q : List QEntry) : (t.setDq n q).ccur = t.ccur := rfl
@[simp] theorem Shuttle.setDq_xcur (t : Shuttle) (n : Nat) (q : List QEntry) : (t.setDq n q).xcur = t.xcur := rfl
@[simp] theorem Shuttle.setDq_hcsum (t : Shuttle) (n : Nat) (q : List QEntry) : (t.setDq n q).hcsum = t.hcsum := rfl
@[simp] theorem Shuttle.setDq_tvec (t : Shuttle) (n : Nat) (q : List QEntry) : (t.setDq n q).tvec = t.tvec := rfl
@[simp] theorem Shuttle.setDq_tcause (t : Shuttle) (n : Nat) (q : List QEntry) : (t.setDq n q).tcause = t.tcause := rfl
@[simp] theorem Shuttle.setDq_apc (t : Shuttle) (n : Nat) (q : List QEntry) : (t.setDq n q).apc = t.apc := rfl
@[simp] theorem Shuttle.setDq_pcHi (t : Shuttle) (n : Nat) (q : List QEntry) : (t.setDq n q).pcHi = t.pcHi := rfl
@[simp] theorem Shuttle.setDq_xq (t : Shuttle) (n : Nat) (q : List QEntry) : (t.setDq n q).xq = t.xq := rfl
@[simp] theorem Shuttle.setDq_level (t : Shuttle) (n : Nat) (q : List QEntry) : (t.setDq n q).level = t.level := rfl
@[simp] theorem Shuttle.setDq_events (t : Shuttle) (n : Nat) (q : List QEntry) : (t.setDq n q).events = t.events := rfl
@[simp] theorem Shuttle.setDq_frq (t : Shuttle) (n : Nat) (q : List QEntry) : (t.setDq n q).frq = t.frq := rfl
@[simp] theorem Shuttle.setDq_lost (t : Shuttle) (n : Nat) (q : List QEntry) : (t.setDq n q).lost = t.lost := rfl
@[simp] theorem Shuttle.setDq_timer (t : Shuttle) (n : Nat) (q : List QEntry) : (t.setDq n q).timer = t.timer := rfl
@[simp] theorem Shuttle.setDq_armed (t : Shuttle) (n : Nat) (q : List QEntry) : (t.setDq n q).armed = t.armed := rfl
@[simp] theorem Shuttle.setDq_prog (t : Shuttle) (n : Nat) (q : List QEntry) : (t.setDq n q).prog = t.prog := rfl
@[simp] theorem Shuttle.setDq_progOk (t : Shuttle) (n : Nat) (q : List QEntry) : (t.setDq n q).progOk = t.progOk := rfl
@[simp] theorem Shuttle.setDq_reed (t : Shuttle) (n : Nat) (q : List QEntry) : (t.setDq n q).reed = t.reed := rfl
@[simp] theorem Shuttle.setDq_vdirty (t : Shuttle) (n : Nat) (q : List QEntry) : (t.setDq n q).vdirty = t.vdirty := rfl
@[simp] theorem Shuttle.setDq_vpoison (t : Shuttle) (n : Nat) (q : List QEntry) : (t.setDq n q).vpoison = t.vpoison := rfl
@[simp] theorem Shuttle.setDq_xpois (t : Shuttle) (n : Nat) (q : List QEntry) : (t.setDq n q).xpois = t.xpois := rfl
@[simp] theorem Shuttle.setDq_ppois (t : Shuttle) (n : Nat) (q : List QEntry) : (t.setDq n q).ppois = t.ppois := rfl
@[simp] theorem Shuttle.setDq_rqPois (t : Shuttle) (n : Nat) (q : List QEntry) : (t.setDq n q).rqPois = t.rqPois := rfl
@[simp] theorem Shuttle.setDq_spois (t : Shuttle) (n : Nat) (q : List QEntry) : (t.setDq n q).spois = t.spois := rfl
@[simp] theorem Shuttle.setDq_flight (t : Shuttle) (n : Nat) (q : List QEntry) : (t.setDq n q).flight = t.flight := rfl
@[simp] theorem Shuttle.setDq_lastIssue (t : Shuttle) (n : Nat) (q : List QEntry) : (t.setDq n q).lastIssue = t.lastIssue := rfl
@[simp] theorem Shuttle.setDq_issueFrom (t : Shuttle) (n : Nat) (q : List QEntry) : (t.setDq n q).issueFrom = t.issueFrom := rfl
@[simp] theorem Shuttle.setDq_units (t : Shuttle) (n : Nat) (q : List QEntry) : (t.setDq n q).units = t.units := rfl
@[simp] theorem Shuttle.setDq_pre (t : Shuttle) (n : Nat) (q : List QEntry) : (t.setDq n q).pre = t.pre := rfl
@[simp] theorem Shuttle.setDq_preNos (t : Shuttle) (n : Nat) (q : List QEntry) : (t.setDq n q).preNos = t.preNos := rfl
@[simp] theorem Shuttle.setDq_saveDue (t : Shuttle) (n : Nat) (q : List QEntry) : (t.setDq n q).saveDue = t.saveDue := rfl
@[simp] theorem Shuttle.setDq_budgetDue (t : Shuttle) (n : Nat) (q : List QEntry) : (t.setDq n q).budgetDue = t.budgetDue := rfl
@[simp] theorem Shuttle.setDq_due (t : Shuttle) (n : Nat) (q : List QEntry) : (t.setDq n q).due = t.due := rfl
@[simp] theorem Shuttle.setDq_endDue (t : Shuttle) (n : Nat) (q : List QEntry) : (t.setDq n q).endDue = t.endDue := rfl
@[simp] theorem Shuttle.setDq_endSaved (t : Shuttle) (n : Nat) (q : List QEntry) : (t.setDq n q).endSaved = t.endSaved := rfl
@[simp] theorem Shuttle.setDq_xProg (t : Shuttle) (n : Nat) (q : List QEntry) : (t.setDq n q).xProg = t.xProg := rfl
@[simp] theorem Shuttle.setDq_xLocs (t : Shuttle) (n : Nat) (q : List QEntry) : (t.setDq n q).xLocs = t.xLocs := rfl
@[simp] theorem Shuttle.setDq_xIss (t : Shuttle) (n : Nat) (q : List QEntry) : (t.setDq n q).xIss = t.xIss := rfl
@[simp] theorem Shuttle.setDq_reach (t : Shuttle) (n : Nat) (q : List QEntry) : (t.setDq n q).reach = t.reach := rfl
@[simp] theorem Shuttle.setDq_cprog (t : Shuttle) (n : Nat) (q : List QEntry) : (t.setDq n q).cprog = t.cprog := rfl
@[simp] theorem Shuttle.setDq_halting (t : Shuttle) (n : Nat) (q : List QEntry) : (t.setDq n q).halting = t.halting := rfl
@[simp] theorem Shuttle.setDq_aWait (t : Shuttle) (n : Nat) (q : List QEntry) : (t.setDq n q).aWait = t.aWait := rfl
@[simp] theorem Shuttle.setDq_xWait (t : Shuttle) (n : Nat) (q : List QEntry) : (t.setDq n q).xWait = t.xWait := rfl
@[simp] theorem Shuttle.setDq_nA (t : Shuttle) (n : Nat) (q : List QEntry) : (t.setDq n q).nA = t.nA := rfl
@[simp] theorem Shuttle.setDq_nX (t : Shuttle) (n : Nat) (q : List QEntry) : (t.setDq n q).nX = t.nX := rfl
@[simp] theorem Shuttle.setDq_nWait (t : Shuttle) (n : Nat) (q : List QEntry) : (t.setDq n q).nWait = t.nWait := rfl
@[simp] theorem Shuttle.setDq_nD (t : Shuttle) (n : Nat) (q : List QEntry) : (t.setDq n q).nD = t.nD := rfl
@[simp] theorem Shuttle.setDq_parked (t : Shuttle) (n : Nat) (q : List QEntry) : (t.setDq n q).parked = t.parked := rfl

@[simp] theorem Shuttle.setRq_pos (t : Shuttle) (n : Nat) (q : List Word) : (t.setRq n q).pos = t.pos := rfl
@[simp] theorem Shuttle.setRq_status (t : Shuttle) (n : Nat) (q : List Word) : (t.setRq n q).status = t.status := rfl
@[simp] theorem Shuttle.setRq_lanes (t : Shuttle) (n : Nat) (q : List Word) : (t.setRq n q).lanes = t.lanes := rfl
@[simp] theorem Shuttle.setRq_pid (t : Shuttle) (n : Nat) (q : List Word) : (t.setRq n q).pid = t.pid := rfl
@[simp] theorem Shuttle.setRq_priv (t : Shuttle) (n : Nat) (q : List Word) : (t.setRq n q).priv = t.priv := rfl
@[simp] theorem Shuttle.setRq_handle (t : Shuttle) (n : Nat) (q : List Word) : (t.setRq n q).handle = t.handle := rfl
@[simp] theorem Shuttle.setRq_ceil (t : Shuttle) (n : Nat) (q : List Word) : (t.setRq n q).ceil = t.ceil := rfl
@[simp] theorem Shuttle.setRq_nearLen (t : Shuttle) (n : Nat) (q : List Word) : (t.setRq n q).nearLen = t.nearLen := rfl
@[simp] theorem Shuttle.setRq_nTiles (t : Shuttle) (n : Nat) (q : List Word) : (t.setRq n q).nTiles = t.nTiles := rfl
@[simp] theorem Shuttle.setRq_nEnts (t : Shuttle) (n : Nat) (q : List Word) : (t.setRq n q).nEnts = t.nEnts := rfl
@[simp] theorem Shuttle.setRq_x (t : Shuttle) (n : Nat) (q : List Word) : (t.setRq n q).x = t.x := rfl
@[simp] theorem Shuttle.setRq_p (t : Shuttle) (n : Nat) (q : List Word) : (t.setRq n q).p = t.p := rfl
@[simp] theorem Shuttle.setRq_v (t : Shuttle) (n : Nat) (q : List Word) : (t.setRq n q).v = t.v := rfl
@[simp] theorem Shuttle.setRq_c (t : Shuttle) (n : Nat) (q : List Word) : (t.setRq n q).c = t.c := rfl
@[simp] theorem Shuttle.setRq_arena (t : Shuttle) (n : Nat) (q : List Word) : (t.setRq n q).arena = t.arena := rfl
@[simp] theorem Shuttle.setRq_dq (t : Shuttle) (n : Nat) (q : List Word) : (t.setRq n q).dq = t.dq := rfl
@[simp] theorem Shuttle.setRq_lc (t : Shuttle) (n : Nat) (q : List Word) : (t.setRq n q).lc = t.lc := rfl
@[simp] theorem Shuttle.setRq_loops (t : Shuttle) (n : Nat) (q : List Word) : (t.setRq n q).loops = t.loops := rfl
@[simp] theorem Shuttle.setRq_vlen (t : Shuttle) (n : Nat) (q : List Word) : (t.setRq n q).vlen = t.vlen := rfl
@[simp] theorem Shuttle.setRq_vtype (t : Shuttle) (n : Nat) (q : List Word) : (t.setRq n q).vtype = t.vtype := rfl
@[simp] theorem Shuttle.setRq_vstart (t : Shuttle) (n : Nat) (q : List Word) : (t.setRq n q).vstart = t.vstart := rfl
@[simp] theorem Shuttle.setRq_redst (t : Shuttle) (n : Nat) (q : List Word) : (t.setRq n q).redst = t.redst := rfl
@[simp] theorem Shuttle.setRq_fill (t : Shuttle) (n : Nat) (q : List Word) : (t.setRq n q).fill = t.fill := rfl
@[simp] theorem Shuttle.setRq_sat (t : Shuttle) (n : Nat) (q : List Word) : (t.setRq n q).sat = t.sat := rfl
@[simp] theorem Shuttle.setRq_fflags (t : Shuttle) (n : Nat) (q : List Word) : (t.setRq n q).fflags = t.fflags := rfl
@[simp] theorem Shuttle.setRq_rnd (t : Shuttle) (n : Nat) (q : List Word) : (t.setRq n q).rnd = t.rnd := rfl
@[simp] theorem Shuttle.setRq_frm (t : Shuttle) (n : Nat) (q : List Word) : (t.setRq n q).frm = t.frm := rfl
@[simp] theorem Shuttle.setRq_ccur (t : Shuttle) (n : Nat) (q : List Word) : (t.setRq n q).ccur = t.ccur := rfl
@[simp] theorem Shuttle.setRq_xcur (t : Shuttle) (n : Nat) (q : List Word) : (t.setRq n q).xcur = t.xcur := rfl
@[simp] theorem Shuttle.setRq_hcsum (t : Shuttle) (n : Nat) (q : List Word) : (t.setRq n q).hcsum = t.hcsum := rfl
@[simp] theorem Shuttle.setRq_tvec (t : Shuttle) (n : Nat) (q : List Word) : (t.setRq n q).tvec = t.tvec := rfl
@[simp] theorem Shuttle.setRq_tcause (t : Shuttle) (n : Nat) (q : List Word) : (t.setRq n q).tcause = t.tcause := rfl
@[simp] theorem Shuttle.setRq_apc (t : Shuttle) (n : Nat) (q : List Word) : (t.setRq n q).apc = t.apc := rfl
@[simp] theorem Shuttle.setRq_pcHi (t : Shuttle) (n : Nat) (q : List Word) : (t.setRq n q).pcHi = t.pcHi := rfl
@[simp] theorem Shuttle.setRq_xq (t : Shuttle) (n : Nat) (q : List Word) : (t.setRq n q).xq = t.xq := rfl
@[simp] theorem Shuttle.setRq_level (t : Shuttle) (n : Nat) (q : List Word) : (t.setRq n q).level = t.level := rfl
@[simp] theorem Shuttle.setRq_events (t : Shuttle) (n : Nat) (q : List Word) : (t.setRq n q).events = t.events := rfl
@[simp] theorem Shuttle.setRq_frq (t : Shuttle) (n : Nat) (q : List Word) : (t.setRq n q).frq = t.frq := rfl
@[simp] theorem Shuttle.setRq_lost (t : Shuttle) (n : Nat) (q : List Word) : (t.setRq n q).lost = t.lost := rfl
@[simp] theorem Shuttle.setRq_timer (t : Shuttle) (n : Nat) (q : List Word) : (t.setRq n q).timer = t.timer := rfl
@[simp] theorem Shuttle.setRq_armed (t : Shuttle) (n : Nat) (q : List Word) : (t.setRq n q).armed = t.armed := rfl
@[simp] theorem Shuttle.setRq_prog (t : Shuttle) (n : Nat) (q : List Word) : (t.setRq n q).prog = t.prog := rfl
@[simp] theorem Shuttle.setRq_progOk (t : Shuttle) (n : Nat) (q : List Word) : (t.setRq n q).progOk = t.progOk := rfl
@[simp] theorem Shuttle.setRq_reed (t : Shuttle) (n : Nat) (q : List Word) : (t.setRq n q).reed = t.reed := rfl
@[simp] theorem Shuttle.setRq_vdirty (t : Shuttle) (n : Nat) (q : List Word) : (t.setRq n q).vdirty = t.vdirty := rfl
@[simp] theorem Shuttle.setRq_vpoison (t : Shuttle) (n : Nat) (q : List Word) : (t.setRq n q).vpoison = t.vpoison := rfl
@[simp] theorem Shuttle.setRq_xpois (t : Shuttle) (n : Nat) (q : List Word) : (t.setRq n q).xpois = t.xpois := rfl
@[simp] theorem Shuttle.setRq_ppois (t : Shuttle) (n : Nat) (q : List Word) : (t.setRq n q).ppois = t.ppois := rfl
@[simp] theorem Shuttle.setRq_rqPois (t : Shuttle) (n : Nat) (q : List Word) : (t.setRq n q).rqPois = t.rqPois := rfl
@[simp] theorem Shuttle.setRq_spois (t : Shuttle) (n : Nat) (q : List Word) : (t.setRq n q).spois = t.spois := rfl
@[simp] theorem Shuttle.setRq_flight (t : Shuttle) (n : Nat) (q : List Word) : (t.setRq n q).flight = t.flight := rfl
@[simp] theorem Shuttle.setRq_lastIssue (t : Shuttle) (n : Nat) (q : List Word) : (t.setRq n q).lastIssue = t.lastIssue := rfl
@[simp] theorem Shuttle.setRq_issueFrom (t : Shuttle) (n : Nat) (q : List Word) : (t.setRq n q).issueFrom = t.issueFrom := rfl
@[simp] theorem Shuttle.setRq_units (t : Shuttle) (n : Nat) (q : List Word) : (t.setRq n q).units = t.units := rfl
@[simp] theorem Shuttle.setRq_pre (t : Shuttle) (n : Nat) (q : List Word) : (t.setRq n q).pre = t.pre := rfl
@[simp] theorem Shuttle.setRq_preNos (t : Shuttle) (n : Nat) (q : List Word) : (t.setRq n q).preNos = t.preNos := rfl
@[simp] theorem Shuttle.setRq_saveDue (t : Shuttle) (n : Nat) (q : List Word) : (t.setRq n q).saveDue = t.saveDue := rfl
@[simp] theorem Shuttle.setRq_budgetDue (t : Shuttle) (n : Nat) (q : List Word) : (t.setRq n q).budgetDue = t.budgetDue := rfl
@[simp] theorem Shuttle.setRq_due (t : Shuttle) (n : Nat) (q : List Word) : (t.setRq n q).due = t.due := rfl
@[simp] theorem Shuttle.setRq_endDue (t : Shuttle) (n : Nat) (q : List Word) : (t.setRq n q).endDue = t.endDue := rfl
@[simp] theorem Shuttle.setRq_endSaved (t : Shuttle) (n : Nat) (q : List Word) : (t.setRq n q).endSaved = t.endSaved := rfl
@[simp] theorem Shuttle.setRq_xProg (t : Shuttle) (n : Nat) (q : List Word) : (t.setRq n q).xProg = t.xProg := rfl
@[simp] theorem Shuttle.setRq_xLocs (t : Shuttle) (n : Nat) (q : List Word) : (t.setRq n q).xLocs = t.xLocs := rfl
@[simp] theorem Shuttle.setRq_xIss (t : Shuttle) (n : Nat) (q : List Word) : (t.setRq n q).xIss = t.xIss := rfl
@[simp] theorem Shuttle.setRq_reach (t : Shuttle) (n : Nat) (q : List Word) : (t.setRq n q).reach = t.reach := rfl
@[simp] theorem Shuttle.setRq_cprog (t : Shuttle) (n : Nat) (q : List Word) : (t.setRq n q).cprog = t.cprog := rfl
@[simp] theorem Shuttle.setRq_halting (t : Shuttle) (n : Nat) (q : List Word) : (t.setRq n q).halting = t.halting := rfl
@[simp] theorem Shuttle.setRq_aWait (t : Shuttle) (n : Nat) (q : List Word) : (t.setRq n q).aWait = t.aWait := rfl
@[simp] theorem Shuttle.setRq_xWait (t : Shuttle) (n : Nat) (q : List Word) : (t.setRq n q).xWait = t.xWait := rfl
@[simp] theorem Shuttle.setRq_nA (t : Shuttle) (n : Nat) (q : List Word) : (t.setRq n q).nA = t.nA := rfl
@[simp] theorem Shuttle.setRq_nX (t : Shuttle) (n : Nat) (q : List Word) : (t.setRq n q).nX = t.nX := rfl
@[simp] theorem Shuttle.setRq_nWait (t : Shuttle) (n : Nat) (q : List Word) : (t.setRq n q).nWait = t.nWait := rfl
@[simp] theorem Shuttle.setRq_nD (t : Shuttle) (n : Nat) (q : List Word) : (t.setRq n q).nD = t.nD := rfl
@[simp] theorem Shuttle.setRq_parked (t : Shuttle) (n : Nat) (q : List Word) : (t.setRq n q).parked = t.parked := rfl

/-! ## The module -/

@[simp] theorem State.setCore_sh (s : State) (c : Core) : (s.setCore c).sh = s.sh := by unfold State.setCore; split <;> rfl
@[simp] theorem State.setCore_dies (s : State) (c : Core) : (s.setCore c).dies = s.dies := by unfold State.setCore; split <;> rfl
@[simp] theorem State.setCore_mem (s : State) (c : Core) : (s.setCore c).mem = s.mem := by unfold State.setCore; split <;> rfl
@[simp] theorem State.setCore_tlb (s : State) (c : Core) : (s.setCore c).tlb = s.tlb := by unfold State.setCore; split <;> rfl
@[simp] theorem State.setCore_evicted (s : State) (c : Core) : (s.setCore c).evicted = s.evicted := by unfold State.setCore; split <;> rfl
@[simp] theorem State.setCore_met (s : State) (c : Core) : (s.setCore c).met = s.met := by unfold State.setCore; split <;> rfl
@[simp] theorem State.setCore_granules (s : State) (c : Core) : (s.setCore c).granules = s.granules := by unfold State.setCore; split <;> rfl
@[simp] theorem State.setCore_poison (s : State) (c : Core) : (s.setCore c).poison = s.poison := by unfold State.setCore; split <;> rfl
@[simp] theorem State.setCore_latent (s : State) (c : Core) : (s.setCore c).latent = s.latent := by unfold State.setCore; split <;> rfl
@[simp] theorem State.setCore_feature (s : State) (c : Core) : (s.setCore c).feature = s.feature := by unfold State.setCore; split <;> rfl
@[simp] theorem State.setCore_offered (s : State) (c : Core) : (s.setCore c).offered = s.offered := by unfold State.setCore; split <;> rfl
@[simp] theorem State.setCore_bootStep (s : State) (c : Core) : (s.setCore c).bootStep = s.bootStep := by unfold State.setCore; split <;> rfl
@[simp] theorem State.setCore_goConn (s : State) (c : Core) : (s.setCore c).goConn = s.goConn := by unfold State.setCore; split <;> rfl
@[simp] theorem State.setCore_cause (s : State) (c : Core) : (s.setCore c).cause = s.cause := by unfold State.setCore; split <;> rfl
@[simp] theorem State.setCore_modNo (s : State) (c : Core) : (s.setCore c).modNo = s.modNo := by unfold State.setCore; split <;> rfl
@[simp] theorem State.setCore_fmap (s : State) (c : Core) : (s.setCore c).fmap = s.fmap := by unfold State.setCore; split <;> rfl
@[simp] theorem State.setCore_portsDown (s : State) (c : Core) : (s.setCore c).portsDown = s.portsDown := by unfold State.setCore; split <;> rfl
@[simp] theorem State.setCore_drops (s : State) (c : Core) : (s.setCore c).drops = s.drops := by unfold State.setCore; split <;> rfl
@[simp] theorem State.setCore_snapTele (s : State) (c : Core) : (s.setCore c).snapTele = s.snapTele := by unfold State.setCore; split <;> rfl
@[simp] theorem State.setCore_portIps (s : State) (c : Core) : (s.setCore c).portIps = s.portIps := by unfold State.setCore; split <;> rfl
@[simp] theorem State.setCore_heard (s : State) (c : Core) : (s.setCore c).heard = s.heard := by unfold State.setCore; split <;> rfl
@[simp] theorem State.setCore_sessions (s : State) (c : Core) : (s.setCore c).sessions = s.sessions := by unfold State.setCore; split <;> rfl
@[simp] theorem State.setCore_queues (s : State) (c : Core) : (s.setCore c).queues = s.queues := by unfold State.setCore; split <;> rfl
@[simp] theorem State.setCore_nextRec (s : State) (c : Core) : (s.setCore c).nextRec = s.nextRec := by unfold State.setCore; split <;> rfl
@[simp] theorem State.setCore_recs (s : State) (c : Core) : (s.setCore c).recs = s.recs := by unfold State.setCore; split <;> rfl
@[simp] theorem State.setCore_saving (s : State) (c : Core) : (s.setCore c).saving = s.saving := by unfold State.setCore; split <;> rfl
@[simp] theorem State.setCore_lastArr (s : State) (c : Core) : (s.setCore c).lastArr = s.lastArr := by unfold State.setCore; split <;> rfl
@[simp] theorem State.setCore_tenants (s : State) (c : Core) : (s.setCore c).tenants = s.tenants := by unfold State.setCore; split <;> rfl
@[simp] theorem State.setCore_parts (s : State) (c : Core) : (s.setCore c).parts = s.parts := by unfold State.setCore; split <;> rfl
@[simp] theorem State.setCore_gangs (s : State) (c : Core) : (s.setCore c).gangs = s.gangs := by unfold State.setCore; split <;> rfl
@[simp] theorem State.setCore_tokens (s : State) (c : Core) : (s.setCore c).tokens = s.tokens := by unfold State.setCore; split <;> rfl
@[simp] theorem State.setCore_seen (s : State) (c : Core) : (s.setCore c).seen = s.seen := by unfold State.setCore; split <;> rfl
@[simp] theorem State.setCore_coords (s : State) (c : Core) : (s.setCore c).coords = s.coords := by unfold State.setCore; split <;> rfl
@[simp] theorem State.setCore_gangSeq (s : State) (c : Core) : (s.setCore c).gangSeq = s.gangSeq := by unfold State.setCore; split <;> rfl
@[simp] theorem State.setCore_heldRecs (s : State) (c : Core) : (s.setCore c).heldRecs = s.heldRecs := by unfold State.setCore; split <;> rfl
@[simp] theorem State.setCore_gn (s : State) (c : Core) : (s.setCore c).gn = s.gn := by unfold State.setCore; split <;> rfl
@[simp] theorem State.setCore_digest (s : State) (c : Core) : (s.setCore c).digest = s.digest := by unfold State.setCore; split <;> rfl
@[simp] theorem State.setCore_out (s : State) (c : Core) : (s.setCore c).out = s.out := by unfold State.setCore; split <;> rfl
@[simp] theorem State.setCore_turns (s : State) (c : Core) : (s.setCore c).turns = s.turns := by unfold State.setCore; split <;> rfl
@[simp] theorem State.setCore_dreq (s : State) (c : Core) : (s.setCore c).dreq = s.dreq := by unfold State.setCore; split <;> rfl
@[simp] theorem State.setCore_share (s : State) (c : Core) : (s.setCore c).share = s.share := by unfold State.setCore; split <;> rfl
@[simp] theorem State.setCore_freeCount (s : State) (c : Core) : (s.setCore c).freeCount = s.freeCount := by unfold State.setCore; split <;> rfl

@[simp] theorem State.setDie_sh (s : State) (d : Nat) (x : Die) : (s.setDie d x).sh = s.sh := rfl
@[simp] theorem State.setDie_co (s : State) (d : Nat) (x : Die) : (s.setDie d x).co = s.co := rfl
@[simp] theorem State.setDie_cores (s : State) (d : Nat) (x : Die) : (s.setDie d x).cores = s.cores := rfl
@[simp] theorem State.setDie_mem (s : State) (d : Nat) (x : Die) : (s.setDie d x).mem = s.mem := rfl
@[simp] theorem State.setDie_tlb (s : State) (d : Nat) (x : Die) : (s.setDie d x).tlb = s.tlb := rfl
@[simp] theorem State.setDie_evicted (s : State) (d : Nat) (x : Die) : (s.setDie d x).evicted = s.evicted := rfl
@[simp] theorem State.setDie_met (s : State) (d : Nat) (x : Die) : (s.setDie d x).met = s.met := rfl
@[simp] theorem State.setDie_granules (s : State) (d : Nat) (x : Die) : (s.setDie d x).granules = s.granules := rfl
@[simp] theorem State.setDie_poison (s : State) (d : Nat) (x : Die) : (s.setDie d x).poison = s.poison := rfl
@[simp] theorem State.setDie_latent (s : State) (d : Nat) (x : Die) : (s.setDie d x).latent = s.latent := rfl
@[simp] theorem State.setDie_feature (s : State) (d : Nat) (x : Die) : (s.setDie d x).feature = s.feature := rfl
@[simp] theorem State.setDie_offered (s : State) (d : Nat) (x : Die) : (s.setDie d x).offered = s.offered := rfl
@[simp] theorem State.setDie_bootStep (s : State) (d : Nat) (x : Die) : (s.setDie d x).bootStep = s.bootStep := rfl
@[simp] theorem State.setDie_goConn (s : State) (d : Nat) (x : Die) : (s.setDie d x).goConn = s.goConn := rfl
@[simp] theorem State.setDie_cause (s : State) (d : Nat) (x : Die) : (s.setDie d x).cause = s.cause := rfl
@[simp] theorem State.setDie_modNo (s : State) (d : Nat) (x : Die) : (s.setDie d x).modNo = s.modNo := rfl
@[simp] theorem State.setDie_fmap (s : State) (d : Nat) (x : Die) : (s.setDie d x).fmap = s.fmap := rfl
@[simp] theorem State.setDie_portsDown (s : State) (d : Nat) (x : Die) : (s.setDie d x).portsDown = s.portsDown := rfl
@[simp] theorem State.setDie_drops (s : State) (d : Nat) (x : Die) : (s.setDie d x).drops = s.drops := rfl
@[simp] theorem State.setDie_snapTele (s : State) (d : Nat) (x : Die) : (s.setDie d x).snapTele = s.snapTele := rfl
@[simp] theorem State.setDie_portIps (s : State) (d : Nat) (x : Die) : (s.setDie d x).portIps = s.portIps := rfl
@[simp] theorem State.setDie_heard (s : State) (d : Nat) (x : Die) : (s.setDie d x).heard = s.heard := rfl
@[simp] theorem State.setDie_sessions (s : State) (d : Nat) (x : Die) : (s.setDie d x).sessions = s.sessions := rfl
@[simp] theorem State.setDie_queues (s : State) (d : Nat) (x : Die) : (s.setDie d x).queues = s.queues := rfl
@[simp] theorem State.setDie_nextRec (s : State) (d : Nat) (x : Die) : (s.setDie d x).nextRec = s.nextRec := rfl
@[simp] theorem State.setDie_recs (s : State) (d : Nat) (x : Die) : (s.setDie d x).recs = s.recs := rfl
@[simp] theorem State.setDie_saving (s : State) (d : Nat) (x : Die) : (s.setDie d x).saving = s.saving := rfl
@[simp] theorem State.setDie_lastArr (s : State) (d : Nat) (x : Die) : (s.setDie d x).lastArr = s.lastArr := rfl
@[simp] theorem State.setDie_tenants (s : State) (d : Nat) (x : Die) : (s.setDie d x).tenants = s.tenants := rfl
@[simp] theorem State.setDie_parts (s : State) (d : Nat) (x : Die) : (s.setDie d x).parts = s.parts := rfl
@[simp] theorem State.setDie_gangs (s : State) (d : Nat) (x : Die) : (s.setDie d x).gangs = s.gangs := rfl
@[simp] theorem State.setDie_tokens (s : State) (d : Nat) (x : Die) : (s.setDie d x).tokens = s.tokens := rfl
@[simp] theorem State.setDie_seen (s : State) (d : Nat) (x : Die) : (s.setDie d x).seen = s.seen := rfl
@[simp] theorem State.setDie_coords (s : State) (d : Nat) (x : Die) : (s.setDie d x).coords = s.coords := rfl
@[simp] theorem State.setDie_gangSeq (s : State) (d : Nat) (x : Die) : (s.setDie d x).gangSeq = s.gangSeq := rfl
@[simp] theorem State.setDie_heldRecs (s : State) (d : Nat) (x : Die) : (s.setDie d x).heldRecs = s.heldRecs := rfl
@[simp] theorem State.setDie_gn (s : State) (d : Nat) (x : Die) : (s.setDie d x).gn = s.gn := rfl
@[simp] theorem State.setDie_digest (s : State) (d : Nat) (x : Die) : (s.setDie d x).digest = s.digest := rfl
@[simp] theorem State.setDie_out (s : State) (d : Nat) (x : Die) : (s.setDie d x).out = s.out := rfl
@[simp] theorem State.setDie_turns (s : State) (d : Nat) (x : Die) : (s.setDie d x).turns = s.turns := rfl
@[simp] theorem State.setDie_dreq (s : State) (d : Nat) (x : Die) : (s.setDie d x).dreq = s.dreq := rfl
@[simp] theorem State.setDie_share (s : State) (d : Nat) (x : Die) : (s.setDie d x).share = s.share := rfl
@[simp] theorem State.setDie_freeCount (s : State) (d : Nat) (x : Die) : (s.setDie d x).freeCount = s.freeCount := rfl

@[simp] theorem State.setPart_sh (s : State) (pid : Nat) (p : Part) : (s.setPart pid p).sh = s.sh := rfl
@[simp] theorem State.setPart_co (s : State) (pid : Nat) (p : Part) : (s.setPart pid p).co = s.co := rfl
@[simp] theorem State.setPart_cores (s : State) (pid : Nat) (p : Part) : (s.setPart pid p).cores = s.cores := rfl
@[simp] theorem State.setPart_dies (s : State) (pid : Nat) (p : Part) : (s.setPart pid p).dies = s.dies := rfl
@[simp] theorem State.setPart_mem (s : State) (pid : Nat) (p : Part) : (s.setPart pid p).mem = s.mem := rfl
@[simp] theorem State.setPart_tlb (s : State) (pid : Nat) (p : Part) : (s.setPart pid p).tlb = s.tlb := rfl
@[simp] theorem State.setPart_evicted (s : State) (pid : Nat) (p : Part) : (s.setPart pid p).evicted = s.evicted := rfl
@[simp] theorem State.setPart_met (s : State) (pid : Nat) (p : Part) : (s.setPart pid p).met = s.met := rfl
@[simp] theorem State.setPart_granules (s : State) (pid : Nat) (p : Part) : (s.setPart pid p).granules = s.granules := rfl
@[simp] theorem State.setPart_poison (s : State) (pid : Nat) (p : Part) : (s.setPart pid p).poison = s.poison := rfl
@[simp] theorem State.setPart_latent (s : State) (pid : Nat) (p : Part) : (s.setPart pid p).latent = s.latent := rfl
@[simp] theorem State.setPart_feature (s : State) (pid : Nat) (p : Part) : (s.setPart pid p).feature = s.feature := rfl
@[simp] theorem State.setPart_offered (s : State) (pid : Nat) (p : Part) : (s.setPart pid p).offered = s.offered := rfl
@[simp] theorem State.setPart_bootStep (s : State) (pid : Nat) (p : Part) : (s.setPart pid p).bootStep = s.bootStep := rfl
@[simp] theorem State.setPart_goConn (s : State) (pid : Nat) (p : Part) : (s.setPart pid p).goConn = s.goConn := rfl
@[simp] theorem State.setPart_cause (s : State) (pid : Nat) (p : Part) : (s.setPart pid p).cause = s.cause := rfl
@[simp] theorem State.setPart_modNo (s : State) (pid : Nat) (p : Part) : (s.setPart pid p).modNo = s.modNo := rfl
@[simp] theorem State.setPart_fmap (s : State) (pid : Nat) (p : Part) : (s.setPart pid p).fmap = s.fmap := rfl
@[simp] theorem State.setPart_portsDown (s : State) (pid : Nat) (p : Part) : (s.setPart pid p).portsDown = s.portsDown := rfl
@[simp] theorem State.setPart_drops (s : State) (pid : Nat) (p : Part) : (s.setPart pid p).drops = s.drops := rfl
@[simp] theorem State.setPart_snapTele (s : State) (pid : Nat) (p : Part) : (s.setPart pid p).snapTele = s.snapTele := rfl
@[simp] theorem State.setPart_portIps (s : State) (pid : Nat) (p : Part) : (s.setPart pid p).portIps = s.portIps := rfl
@[simp] theorem State.setPart_heard (s : State) (pid : Nat) (p : Part) : (s.setPart pid p).heard = s.heard := rfl
@[simp] theorem State.setPart_sessions (s : State) (pid : Nat) (p : Part) : (s.setPart pid p).sessions = s.sessions := rfl
@[simp] theorem State.setPart_queues (s : State) (pid : Nat) (p : Part) : (s.setPart pid p).queues = s.queues := rfl
@[simp] theorem State.setPart_nextRec (s : State) (pid : Nat) (p : Part) : (s.setPart pid p).nextRec = s.nextRec := rfl
@[simp] theorem State.setPart_recs (s : State) (pid : Nat) (p : Part) : (s.setPart pid p).recs = s.recs := rfl
@[simp] theorem State.setPart_saving (s : State) (pid : Nat) (p : Part) : (s.setPart pid p).saving = s.saving := rfl
@[simp] theorem State.setPart_lastArr (s : State) (pid : Nat) (p : Part) : (s.setPart pid p).lastArr = s.lastArr := rfl
@[simp] theorem State.setPart_tenants (s : State) (pid : Nat) (p : Part) : (s.setPart pid p).tenants = s.tenants := rfl
@[simp] theorem State.setPart_gangs (s : State) (pid : Nat) (p : Part) : (s.setPart pid p).gangs = s.gangs := rfl
@[simp] theorem State.setPart_tokens (s : State) (pid : Nat) (p : Part) : (s.setPart pid p).tokens = s.tokens := rfl
@[simp] theorem State.setPart_seen (s : State) (pid : Nat) (p : Part) : (s.setPart pid p).seen = s.seen := rfl
@[simp] theorem State.setPart_coords (s : State) (pid : Nat) (p : Part) : (s.setPart pid p).coords = s.coords := rfl
@[simp] theorem State.setPart_gangSeq (s : State) (pid : Nat) (p : Part) : (s.setPart pid p).gangSeq = s.gangSeq := rfl
@[simp] theorem State.setPart_heldRecs (s : State) (pid : Nat) (p : Part) : (s.setPart pid p).heldRecs = s.heldRecs := rfl
@[simp] theorem State.setPart_gn (s : State) (pid : Nat) (p : Part) : (s.setPart pid p).gn = s.gn := rfl
@[simp] theorem State.setPart_digest (s : State) (pid : Nat) (p : Part) : (s.setPart pid p).digest = s.digest := rfl
@[simp] theorem State.setPart_out (s : State) (pid : Nat) (p : Part) : (s.setPart pid p).out = s.out := rfl
@[simp] theorem State.setPart_turns (s : State) (pid : Nat) (p : Part) : (s.setPart pid p).turns = s.turns := rfl
@[simp] theorem State.setPart_dreq (s : State) (pid : Nat) (p : Part) : (s.setPart pid p).dreq = s.dreq := rfl
@[simp] theorem State.setPart_share (s : State) (pid : Nat) (p : Part) : (s.setPart pid p).share = s.share := rfl
@[simp] theorem State.setPart_freeCount (s : State) (pid : Nat) (p : Part) : (s.setPart pid p).freeCount = s.freeCount := rfl

@[simp] theorem State.setRec_sh (s : State) (r : Rec) : (s.setRec r).sh = s.sh := rfl
@[simp] theorem State.setRec_co (s : State) (r : Rec) : (s.setRec r).co = s.co := rfl
@[simp] theorem State.setRec_cores (s : State) (r : Rec) : (s.setRec r).cores = s.cores := rfl
@[simp] theorem State.setRec_dies (s : State) (r : Rec) : (s.setRec r).dies = s.dies := rfl
@[simp] theorem State.setRec_mem (s : State) (r : Rec) : (s.setRec r).mem = s.mem := rfl
@[simp] theorem State.setRec_tlb (s : State) (r : Rec) : (s.setRec r).tlb = s.tlb := rfl
@[simp] theorem State.setRec_evicted (s : State) (r : Rec) : (s.setRec r).evicted = s.evicted := rfl
@[simp] theorem State.setRec_met (s : State) (r : Rec) : (s.setRec r).met = s.met := rfl
@[simp] theorem State.setRec_granules (s : State) (r : Rec) : (s.setRec r).granules = s.granules := rfl
@[simp] theorem State.setRec_poison (s : State) (r : Rec) : (s.setRec r).poison = s.poison := rfl
@[simp] theorem State.setRec_latent (s : State) (r : Rec) : (s.setRec r).latent = s.latent := rfl
@[simp] theorem State.setRec_feature (s : State) (r : Rec) : (s.setRec r).feature = s.feature := rfl
@[simp] theorem State.setRec_offered (s : State) (r : Rec) : (s.setRec r).offered = s.offered := rfl
@[simp] theorem State.setRec_bootStep (s : State) (r : Rec) : (s.setRec r).bootStep = s.bootStep := rfl
@[simp] theorem State.setRec_goConn (s : State) (r : Rec) : (s.setRec r).goConn = s.goConn := rfl
@[simp] theorem State.setRec_cause (s : State) (r : Rec) : (s.setRec r).cause = s.cause := rfl
@[simp] theorem State.setRec_modNo (s : State) (r : Rec) : (s.setRec r).modNo = s.modNo := rfl
@[simp] theorem State.setRec_fmap (s : State) (r : Rec) : (s.setRec r).fmap = s.fmap := rfl
@[simp] theorem State.setRec_portsDown (s : State) (r : Rec) : (s.setRec r).portsDown = s.portsDown := rfl
@[simp] theorem State.setRec_drops (s : State) (r : Rec) : (s.setRec r).drops = s.drops := rfl
@[simp] theorem State.setRec_snapTele (s : State) (r : Rec) : (s.setRec r).snapTele = s.snapTele := rfl
@[simp] theorem State.setRec_portIps (s : State) (r : Rec) : (s.setRec r).portIps = s.portIps := rfl
@[simp] theorem State.setRec_heard (s : State) (r : Rec) : (s.setRec r).heard = s.heard := rfl
@[simp] theorem State.setRec_sessions (s : State) (r : Rec) : (s.setRec r).sessions = s.sessions := rfl
@[simp] theorem State.setRec_queues (s : State) (r : Rec) : (s.setRec r).queues = s.queues := rfl
@[simp] theorem State.setRec_nextRec (s : State) (r : Rec) : (s.setRec r).nextRec = s.nextRec := rfl
@[simp] theorem State.setRec_saving (s : State) (r : Rec) : (s.setRec r).saving = s.saving := rfl
@[simp] theorem State.setRec_lastArr (s : State) (r : Rec) : (s.setRec r).lastArr = s.lastArr := rfl
@[simp] theorem State.setRec_tenants (s : State) (r : Rec) : (s.setRec r).tenants = s.tenants := rfl
@[simp] theorem State.setRec_parts (s : State) (r : Rec) : (s.setRec r).parts = s.parts := rfl
@[simp] theorem State.setRec_gangs (s : State) (r : Rec) : (s.setRec r).gangs = s.gangs := rfl
@[simp] theorem State.setRec_tokens (s : State) (r : Rec) : (s.setRec r).tokens = s.tokens := rfl
@[simp] theorem State.setRec_seen (s : State) (r : Rec) : (s.setRec r).seen = s.seen := rfl
@[simp] theorem State.setRec_coords (s : State) (r : Rec) : (s.setRec r).coords = s.coords := rfl
@[simp] theorem State.setRec_gangSeq (s : State) (r : Rec) : (s.setRec r).gangSeq = s.gangSeq := rfl
@[simp] theorem State.setRec_heldRecs (s : State) (r : Rec) : (s.setRec r).heldRecs = s.heldRecs := rfl
@[simp] theorem State.setRec_gn (s : State) (r : Rec) : (s.setRec r).gn = s.gn := rfl
@[simp] theorem State.setRec_digest (s : State) (r : Rec) : (s.setRec r).digest = s.digest := rfl
@[simp] theorem State.setRec_out (s : State) (r : Rec) : (s.setRec r).out = s.out := rfl
@[simp] theorem State.setRec_turns (s : State) (r : Rec) : (s.setRec r).turns = s.turns := rfl
@[simp] theorem State.setRec_dreq (s : State) (r : Rec) : (s.setRec r).dreq = s.dreq := rfl
@[simp] theorem State.setRec_share (s : State) (r : Rec) : (s.setRec r).share = s.share := rfl
@[simp] theorem State.setRec_freeCount (s : State) (r : Rec) : (s.setRec r).freeCount = s.freeCount := rfl

@[simp] theorem State.setShuttle_dies (s : State) (k : Nat) (t : Shuttle) : (s.setShuttle k t).dies = s.dies := by unfold State.setShuttle; split <;> simp
@[simp] theorem State.setShuttle_mem (s : State) (k : Nat) (t : Shuttle) : (s.setShuttle k t).mem = s.mem := by unfold State.setShuttle; split <;> simp
@[simp] theorem State.setShuttle_tlb (s : State) (k : Nat) (t : Shuttle) : (s.setShuttle k t).tlb = s.tlb := by unfold State.setShuttle; split <;> simp
@[simp] theorem State.setShuttle_evicted (s : State) (k : Nat) (t : Shuttle) : (s.setShuttle k t).evicted = s.evicted := by unfold State.setShuttle; split <;> simp
@[simp] theorem State.setShuttle_met (s : State) (k : Nat) (t : Shuttle) : (s.setShuttle k t).met = s.met := by unfold State.setShuttle; split <;> simp
@[simp] theorem State.setShuttle_granules (s : State) (k : Nat) (t : Shuttle) : (s.setShuttle k t).granules = s.granules := by unfold State.setShuttle; split <;> simp
@[simp] theorem State.setShuttle_poison (s : State) (k : Nat) (t : Shuttle) : (s.setShuttle k t).poison = s.poison := by unfold State.setShuttle; split <;> simp
@[simp] theorem State.setShuttle_latent (s : State) (k : Nat) (t : Shuttle) : (s.setShuttle k t).latent = s.latent := by unfold State.setShuttle; split <;> simp
@[simp] theorem State.setShuttle_feature (s : State) (k : Nat) (t : Shuttle) : (s.setShuttle k t).feature = s.feature := by unfold State.setShuttle; split <;> simp
@[simp] theorem State.setShuttle_offered (s : State) (k : Nat) (t : Shuttle) : (s.setShuttle k t).offered = s.offered := by unfold State.setShuttle; split <;> simp
@[simp] theorem State.setShuttle_bootStep (s : State) (k : Nat) (t : Shuttle) : (s.setShuttle k t).bootStep = s.bootStep := by unfold State.setShuttle; split <;> simp
@[simp] theorem State.setShuttle_goConn (s : State) (k : Nat) (t : Shuttle) : (s.setShuttle k t).goConn = s.goConn := by unfold State.setShuttle; split <;> simp
@[simp] theorem State.setShuttle_cause (s : State) (k : Nat) (t : Shuttle) : (s.setShuttle k t).cause = s.cause := by unfold State.setShuttle; split <;> simp
@[simp] theorem State.setShuttle_modNo (s : State) (k : Nat) (t : Shuttle) : (s.setShuttle k t).modNo = s.modNo := by unfold State.setShuttle; split <;> simp
@[simp] theorem State.setShuttle_fmap (s : State) (k : Nat) (t : Shuttle) : (s.setShuttle k t).fmap = s.fmap := by unfold State.setShuttle; split <;> simp
@[simp] theorem State.setShuttle_portsDown (s : State) (k : Nat) (t : Shuttle) : (s.setShuttle k t).portsDown = s.portsDown := by unfold State.setShuttle; split <;> simp
@[simp] theorem State.setShuttle_drops (s : State) (k : Nat) (t : Shuttle) : (s.setShuttle k t).drops = s.drops := by unfold State.setShuttle; split <;> simp
@[simp] theorem State.setShuttle_snapTele (s : State) (k : Nat) (t : Shuttle) : (s.setShuttle k t).snapTele = s.snapTele := by unfold State.setShuttle; split <;> simp
@[simp] theorem State.setShuttle_portIps (s : State) (k : Nat) (t : Shuttle) : (s.setShuttle k t).portIps = s.portIps := by unfold State.setShuttle; split <;> simp
@[simp] theorem State.setShuttle_heard (s : State) (k : Nat) (t : Shuttle) : (s.setShuttle k t).heard = s.heard := by unfold State.setShuttle; split <;> simp
@[simp] theorem State.setShuttle_sessions (s : State) (k : Nat) (t : Shuttle) : (s.setShuttle k t).sessions = s.sessions := by unfold State.setShuttle; split <;> simp
@[simp] theorem State.setShuttle_queues (s : State) (k : Nat) (t : Shuttle) : (s.setShuttle k t).queues = s.queues := by unfold State.setShuttle; split <;> simp
@[simp] theorem State.setShuttle_nextRec (s : State) (k : Nat) (t : Shuttle) : (s.setShuttle k t).nextRec = s.nextRec := by unfold State.setShuttle; split <;> simp
@[simp] theorem State.setShuttle_recs (s : State) (k : Nat) (t : Shuttle) : (s.setShuttle k t).recs = s.recs := by unfold State.setShuttle; split <;> simp
@[simp] theorem State.setShuttle_saving (s : State) (k : Nat) (t : Shuttle) : (s.setShuttle k t).saving = s.saving := by unfold State.setShuttle; split <;> simp
@[simp] theorem State.setShuttle_lastArr (s : State) (k : Nat) (t : Shuttle) : (s.setShuttle k t).lastArr = s.lastArr := by unfold State.setShuttle; split <;> simp
@[simp] theorem State.setShuttle_tenants (s : State) (k : Nat) (t : Shuttle) : (s.setShuttle k t).tenants = s.tenants := by unfold State.setShuttle; split <;> simp
@[simp] theorem State.setShuttle_parts (s : State) (k : Nat) (t : Shuttle) : (s.setShuttle k t).parts = s.parts := by unfold State.setShuttle; split <;> simp
@[simp] theorem State.setShuttle_gangs (s : State) (k : Nat) (t : Shuttle) : (s.setShuttle k t).gangs = s.gangs := by unfold State.setShuttle; split <;> simp
@[simp] theorem State.setShuttle_tokens (s : State) (k : Nat) (t : Shuttle) : (s.setShuttle k t).tokens = s.tokens := by unfold State.setShuttle; split <;> simp
@[simp] theorem State.setShuttle_seen (s : State) (k : Nat) (t : Shuttle) : (s.setShuttle k t).seen = s.seen := by unfold State.setShuttle; split <;> simp
@[simp] theorem State.setShuttle_coords (s : State) (k : Nat) (t : Shuttle) : (s.setShuttle k t).coords = s.coords := by unfold State.setShuttle; split <;> simp
@[simp] theorem State.setShuttle_gangSeq (s : State) (k : Nat) (t : Shuttle) : (s.setShuttle k t).gangSeq = s.gangSeq := by unfold State.setShuttle; split <;> simp
@[simp] theorem State.setShuttle_heldRecs (s : State) (k : Nat) (t : Shuttle) : (s.setShuttle k t).heldRecs = s.heldRecs := by unfold State.setShuttle; split <;> simp
@[simp] theorem State.setShuttle_gn (s : State) (k : Nat) (t : Shuttle) : (s.setShuttle k t).gn = s.gn := by unfold State.setShuttle; split <;> simp
@[simp] theorem State.setShuttle_digest (s : State) (k : Nat) (t : Shuttle) : (s.setShuttle k t).digest = s.digest := by unfold State.setShuttle; split <;> simp
@[simp] theorem State.setShuttle_out (s : State) (k : Nat) (t : Shuttle) : (s.setShuttle k t).out = s.out := by unfold State.setShuttle; split <;> simp
@[simp] theorem State.setShuttle_turns (s : State) (k : Nat) (t : Shuttle) : (s.setShuttle k t).turns = s.turns := by unfold State.setShuttle; split <;> simp
@[simp] theorem State.setShuttle_dreq (s : State) (k : Nat) (t : Shuttle) : (s.setShuttle k t).dreq = s.dreq := by unfold State.setShuttle; split <;> simp
@[simp] theorem State.setShuttle_share (s : State) (k : Nat) (t : Shuttle) : (s.setShuttle k t).share = s.share := by unfold State.setShuttle; split <;> simp
@[simp] theorem State.setShuttle_freeCount (s : State) (k : Nat) (t : Shuttle) : (s.setShuttle k t).freeCount = s.freeCount := by unfold State.setShuttle; split <;> simp

end Sys2Proof.Machine
end

