-- ==== Sys2Proof/Laws/Ops.lean ====
section
/-! SUPPORT. What each shared operation does, said once: waiting and going on, the shape of A-class and X-class instructions, taking a
fault, and that each goes on whatever the state. -/

namespace Sys2Proof.Machine

/-! ## The A-pipe -/

@[simp] theorem Shuttle.moved_loopAt (t : Shuttle) (pc : Nat) : t.moved.loopAt pc = t.loopAt pc := by simp [Shuttle.loopAt]

theorem doneA_eq (s : State) : doneA s = .next s.past := by
  unfold doneA Shuttle.fallThrough
  rw [Shuttle.moved_loopAt, Shuttle.moved_apc]
  rfl

theorem writeA_eq (s : State) (d : Fin 64) (v : Word) : writeA s d v = .next (s.setX d v).past := doneA_eq _

theorem jumpA_eq (s : State) (dst : Nat) : jumpA s dst = .next (s.goneTo dst) := rfl

theorem waitA_eq (s : State) (w : Wait) : waitA s w = .next (s.stays w) := rfl

/-- A ready A-class instruction does its own effect. -/
theorem aInstr_ready {h : Hd} {rs : List RegId} {s : State} (hr : Ready h rs s) (body : State → Out3) : aInstr h rs s body = body s := by
  obtain ⟨h1, h2, h3⟩ := hr
  simp [aInstr, h1, h2, h3]

/-- An A-class instruction whose guard fails only goes past (R14). -/
theorem aInstr_guard_fails {h : Hd} {rs : List RegId} {s : State} (h1 : aBlocked s (guard1 h) = none) (h2 : s.sh.guard h = false)
    (body : State → Out3) : aInstr h rs s body = .next s.past := by
  simp [aInstr, h1, h2, doneA_eq]

/-- An A-class instruction whose guard register is pending waits (R24). -/
theorem aInstr_guard_pending {h : Hd} {rs : List RegId} {s : State} {w : Wait} (h1 : aBlocked s (guard1 h) = some w)
    (body : State → Out3) : aInstr h rs s body = .next (s.stays w) := by
  simp [aInstr, h1, waitA_eq]

/-- An A-class instruction waits, goes past with its guard failed, or does its own effect. -/
theorem aInstr_cases (h : Hd) (rs : List RegId) (s : State) (body : State → Out3) :
    (∃ w, aInstr h rs s body = waitA s w) ∨ (s.sh.guard h = false ∧ aInstr h rs s body = .next s.past) ∨
      (Ready h rs s ∧ aInstr h rs s body = body s) := by
  unfold aInstr
  split
  · exact .inl ⟨_, rfl⟩
  · split
    · split
      · exact .inl ⟨_, rfl⟩
      · rename_i h1 h2 _ h3
        exact .inr (.inr ⟨⟨h1, h2, h3⟩, rfl⟩)
    · rename_i h2
      exact .inr (.inl ⟨by simpa using h2, rfl⟩)

theorem next_runs (t : State) : Runs (.next t) := ⟨t, rfl⟩
theorem waitA_runs (s : State) (w : Wait) : Runs (waitA s w) := ⟨_, rfl⟩
theorem waitX_runs (s : State) (w : Wait) : Runs (waitX s w) := ⟨_, rfl⟩
theorem doneA_runs (s : State) : Runs (doneA s) := ⟨_, doneA_eq s⟩
theorem writeA_runs (s : State) (d : Fin 64) (v : Word) : Runs (writeA s d v) := ⟨_, writeA_eq s d v⟩
theorem jumpA_runs (s : State) (dst : Nat) : Runs (jumpA s dst) := ⟨_, rfl⟩

theorem aInstr_runs {h : Hd} {rs : List RegId} {s : State} {body : State → Out3} (hb : Runs (body s)) : Runs (aInstr h rs s body) := by
  obtain ⟨w, hw⟩ | ⟨_, hw⟩ | ⟨_, hw⟩ := aInstr_cases h rs s body
  · exact hw ▸ waitA_runs s w
  · exact ⟨_, hw⟩
  · exact hw ▸ hb

theorem takeFault_runs (f : Flt) (s : State) : Runs (takeFault f s) := by
  unfold takeFault
  simp only
  repeat' split
  all_goals exact ⟨_, rfl⟩

theorem faultA_runs (f : Flt) (s : State) : Runs (faultA f s) := by
  unfold faultA
  split
  · exact takeFault_runs _ _
  · exact waitA_runs _ _

theorem raiseA_runs (c d : Nat) (s : State) : Runs (raiseA c d s) := faultA_runs _ _
theorem faultX_runs (f : Flt) (s : State) : Runs (faultX f s) := by
  unfold faultX
  split
  · exact next_runs _
  · exact takeFault_runs _ _
theorem raiseX_runs (c d : Nat) (s : State) : Runs (raiseX c d s) := faultX_runs _ _

/-! ## Flags that land -/

/-- Flags joined one after another. -/
theorem foldl_land (l : List Flight) (t : Shuttle) :
    l.foldl (fun t f => { t with fflags := t.fflags ||| f.fflags, sat := t.sat || f.sat }) t =
      { t with fflags := l.foldl (fun a f => a ||| f.fflags) t.fflags, sat := l.foldl (fun a f => a || f.sat) t.sat } := by
  induction l generalizing t with
  | nil => rfl
  | cons f l ih => simp [ih]

theorem foldl_or_start (l : List Flight) (a b : BitVec 5) :
    l.foldl (fun a f => a ||| f.fflags) (a ||| b) = a ||| l.foldl (fun a f => a ||| f.fflags) b := by
  induction l generalizing b with
  | nil => rfl
  | cons f l ih => simp only [List.foldl_cons, BitVec.or_assoc, ih]

theorem foldl_sat_start (l : List Flight) (a b : Bool) :
    l.foldl (fun a f => a || f.sat) (a || b) = (a || l.foldl (fun a f => a || f.sat) b) := by
  induction l generalizing b with
  | nil => rfl
  | cons f l ih => simp only [List.foldl_cons, Bool.or_assoc, ih]

/-- Everything landed: the flags in flight joined to those that stand. -/
theorem Shuttle.landAll_eq (t : Shuttle) :
    t.landAll = { t with flight := [], fflags := t.flight.foldl (fun a f => a ||| f.fflags) t.fflags
                         sat := t.flight.foldl (fun a f => a || f.sat) t.sat } := by
  simp [Shuttle.landAll, foldl_land]

theorem Shuttle.settle_eq (t : Shuttle) (c : Nat) :
    t.settle c = { t with flight := t.flight.filter (fun f => c ≤ f.lands)
                          fflags := (t.flight.filter (fun f => f.lands < c)).foldl (fun a f => a ||| f.fflags) t.fflags
                          sat := (t.flight.filter (fun f => f.lands < c)).foldl (fun a f => a || f.sat) t.sat } := by
  simp [Shuttle.settle, foldl_land]

/-- Flags in flight split by a condition are the same flags. -/
theorem foldl_or_split (l : List Flight) (c : Nat) (a : BitVec 5) :
    (l.filter (fun f => c ≤ f.lands)).foldl (fun a f => a ||| f.fflags) ((l.filter (fun f => f.lands < c)).foldl (fun a f => a ||| f.fflags) a) =
      l.foldl (fun a f => a ||| f.fflags) a := by
  induction l generalizing a with
  | nil => rfl
  | cons f l ih =>
    by_cases hc : f.lands < c
    · have h2 : ¬ c ≤ f.lands := by omega
      simp [hc, h2, ih]
    · have h2 : c ≤ f.lands := by omega
      simp only [hc, h2, decide_true, decide_false, List.filter_cons_of_pos, List.filter_cons_of_neg, List.foldl_cons, Bool.false_eq_true,
        not_false_eq_true]
      rw [← ih (a ||| f.fflags), BitVec.or_comm a f.fflags, foldl_or_start (l.filter (fun f => f.lands < c)) f.fflags a]
      congr 1
      exact BitVec.or_comm _ _

theorem foldl_sat_split (l : List Flight) (c : Nat) (a : Bool) :
    (l.filter (fun f => c ≤ f.lands)).foldl (fun a f => a || f.sat) ((l.filter (fun f => f.lands < c)).foldl (fun a f => a || f.sat) a) =
      l.foldl (fun a f => a || f.sat) a := by
  induction l generalizing a with
  | nil => rfl
  | cons f l ih =>
    by_cases hc : f.lands < c
    · have h2 : ¬ c ≤ f.lands := by omega
      simp [hc, h2, ih]
    · have h2 : c ≤ f.lands := by omega
      simp only [hc, h2, decide_true, decide_false, List.filter_cons_of_pos, List.filter_cons_of_neg, List.foldl_cons, Bool.false_eq_true,
        not_false_eq_true]
      rw [← ih (a || f.sat), Bool.or_comm a f.sat, foldl_sat_start (l.filter (fun f => f.lands < c)) f.sat a]
      congr 1
      exact Bool.or_comm _ _

/-- What has landed and what is still in flight are the same flags together. -/
theorem Shuttle.settle_landAll (t : Shuttle) (c : Nat) : (t.settle c).landAll = t.landAll := by
  simp [Shuttle.settle_eq, Shuttle.landAll_eq, foldl_or_split, foldl_sat_split]

/-! ## The X-pipe -/

theorem busyV_congr {s t : State} (h1 : t.co.entries = s.co.entries) (hl : t.co.loads = s.co.loads) (h2 : t.sh.pos = s.sh.pos)
    (h3 : t.sh.vtype = s.sh.vtype) : busyV t = busyV s := by
  simp [busyV, h1, hl, h2, h3, Shuttle.grp, Shuttle.et]

/-- A ready X-class instruction makes its effect. -/
theorem xIssue_ready {i : Instr} {s : State} (hr : XReady i s) (body : State → XOut) :
    xIssue i s body =
      match body (s.atIssue i) with
      | .done s2 => .next (s.issued i s2)
      | .wait w s2 => waitX { s2 with sh := s2.sh.joinFlags (s.sh.settle (issueCycle i s)) } w
      | .part w s2 =>
        let b := s.sh.settle (issueCycle i s)
        waitX { s2 with sh := { s2.sh.joinFlags b with xIss := some (b.atIssue (if elementWise i then b.acts i.hd else [])) } } w
      | .fault f s2 =>
        let t2 := s2.sh.joinFlags (s.sh.settle (issueCycle i s))
        faultX f { s2 with sh := if f.pushed then t2.retire (issueCycle i s) else t2 } := by
  obtain ⟨h1, h2, h3, hx, hp, h4⟩ := hr
  have hb : busyV { s with co := { s.co with cycle := issueCycle i s }, sh := s.sh.settle (issueCycle i s) } = busyV s := by
    apply busyV_congr <;> simp [Core.entries, Shuttle.settle_eq]
  unfold xIssue
  simp only [h1, h2, hb, h3, hx, hp, Option.isNone_none, Bool.true_and, if_true, Bool.false_eq_true]
  have h5 : ¬ ((!elementWise i && !s.sh.guard i.hd) = true) := by
    rcases h4 with h | h <;> simp [h]
  simp only [h5, if_false, Bool.false_eq_true]
  change (match body (s.atIssue i) with | .wait w s2 => _ | .part w s2 => _ | .done s2 => _ | .fault f s2 => _) = _
  cases body (s.atIssue i) <;> rfl

theorem xIssue_done {i : Instr} {s : State} {body : State → XOut} {e : State} (hr : XReady i s) (hb : body (s.atIssue i) = .done e) :
    xIssue i s body = .next (s.issued i e) := by
  simp [xIssue_ready hr, hb]

theorem xPlain_ready {i : Instr} {s : State} (hr : XReady i s) (f : Shuttle → Shuttle) :
    xPlain i s f = .next (s.issued i { s.atIssue i with sh := f (s.atIssue i).sh }) := xIssue_done hr rfl

theorem xIssue_runs (i : Instr) (s : State) (body : State → XOut) : Runs (xIssue i s body) := by
  unfold xIssue
  simp only
  repeat' split
  all_goals with_reducible first | exact next_runs _ | exact raiseX_runs _ _ _ | exact waitX_runs _ _ | exact faultX_runs _ _

/-- Cleaning changes the marks of predicate words alone, and none where no predicate register is written. -/
theorem Shuttle.cleanP_eq (t b : Shuttle) (i : Instr) (ds : List RegId) : t.cleanP b i ds = { t with ppois := (t.cleanP b i ds).ppois } := by
  unfold Shuttle.cleanP
  split <;> rfl

theorem Shuttle.cleanP_none {t b : Shuttle} {i : Instr} {ds : List RegId} (h : ∀ r ∈ ds, ∀ n, r ≠ .p n) : t.cleanP b i ds = t := by
  have hz : ds.filterMap RegId.pred? = [] := by
    rw [List.filterMap_eq_nil_iff]
    intro r hr
    cases r with
    | p n => exact absurd rfl (h _ hr n)
    | _ => rfl
  unfold Shuttle.cleanP
  split
  · rfl
  · simp [hz]

theorem xPlain_runs (i : Instr) (s : State) (f : Shuttle → Shuttle) : Runs (xPlain i s f) := xIssue_runs _ _ _

theorem vecOp_runs (i : Instr) (s : State) (ok : Shuttle → Bool) (g : Shuttle → List (Fin 64 × EType))
    (r : Shuttle → List (Nat × Nat × EType)) (f : Shuttle → Shuttle) : Runs (vecOp i s ok g r f) := xIssue_runs _ _ _

end Sys2Proof.Machine
end

