-- ==== Sys2Proof/Laws/Issue.lean ====
section
/-! SUPPORT. What issue leaves of an X-class instruction's effect: the X queue one shorter, the flags raised joined to those that stand once
they land, every other part as the effect made it. -/

namespace Sys2Proof.Machine

/-- Two states with the same parts but the flags. -/
theorem Only.of_all {l : List Piece} {s t : State} (h : ∀ k, k ∉ l → k.same s t) : Only l s t := h

theorem Piece.same_refl (k : Piece) (s : State) : k.same s s := by
  cases k <;> simp [Piece.same]

theorem Piece.same_trans {k : Piece} {s t u : State} (h1 : k.same s t) (h2 : k.same t u) : k.same s u := by
  cases k <;> simp only [Piece.same] at *
  case mem => exact fun a => (h2 a).trans (h1 a)
  case others => exact ⟨by rw [← h2.1, ← h1.1], fun k hk => h1.2 k (h2.2 k hk)⟩
  all_goals simp_all

theorem Only.trans {l m : List Piece} {s t u : State} (h1 : Only l s t) (h2 : Only m t u) : Only (l ++ m) s u := by
  intro k hk
  simp only [List.mem_append, not_or] at hk
  exact Piece.same_trans (h1 k hk.1) (h2 k hk.2)

theorem Only.mono {l m : List Piece} {s t : State} (h : Only l s t) (hs : ∀ k ∈ l, k ∈ m) : Only m s t :=
  fun k hk => h k (fun hl => hk (hs k hl))

/-- The clock moves and what has landed stands: no part but the flags differs. -/
theorem State.atIssue_only (s : State) (i : Instr) : Only [.flags] s (s.atIssue i) := by
  intro k hk
  cases k <;> simp_all [Piece.same, State.atIssue, Shuttle.noFlags, Shuttle.settle_eq]

/-- Issue leaves every part but the flags as the effect made it, and the marks of predicate words where it writes a predicate register. -/
theorem State.issued_only {s : State} {i : Instr} {l : List Piece}
    (hp : .p ∈ l ∨ ∀ r ∈ (xRegs s.sh (s.sh.vlmax s.sh.et s.sh.grp) i).w, ∀ n, r ≠ .p n) (e : State) : Only (.flags :: l) e (s.issued i e) := by
  intro k hk
  simp only [List.mem_cons, not_or] at hk
  rcases hp with hp | hp
  · have hk2 : k ≠ .p := fun h => hk.2 (h ▸ hp)
    unfold State.issued afterIssue
    dsimp only
    rw [Shuttle.cleanP_eq]
    cases k <;> simp_all [Piece.same, Shuttle.retire, Shuttle.moved]
  · unfold State.issued afterIssue
    dsimp only
    rw [Shuttle.cleanP_none hp]
    cases k <;> simp_all [Piece.same, Shuttle.retire, Shuttle.moved]

/-- The instruction has left the X queue. -/
theorem State.issued_issued {s : State} {i : Instr} {e : State} (hq : e.sh.xq = s.sh.xq) (hn : e.sh.nX = s.sh.nX)
    (hc : e.co.cycle = issueCycle i s) : Issued i s (s.issued i e) := by
  constructor <;>
  · unfold State.issued afterIssue
    dsimp only
    rw [Shuttle.cleanP_eq]
    simp [Shuttle.retire, *]

/-- The flags an effect raises join those that stand, once everything has landed (R18, R141). -/
theorem State.issued_flags {s : State} {i : Instr} {e : State} (hf : e.sh.flight = (s.atIssue i).sh.flight) :
    (s.issued i e).sh.landAll.fflags = s.sh.landAll.fflags ||| e.sh.fflags ∧
    (s.issued i e).sh.landAll.sat = (s.sh.landAll.sat || e.sh.sat) := by
  have hf' : e.sh.flight = (s.sh.settle (issueCycle i s)).flight := hf
  rw [← Shuttle.settle_landAll s.sh (issueCycle i s)]
  unfold State.issued
  generalize s.sh.settle (issueCycle i s) = b at *
  unfold afterIssue
  dsimp only
  rw [Shuttle.cleanP_eq]
  simp only [Shuttle.retire_fflags, Shuttle.retire_sat, Shuttle.retire_flight, Shuttle.landAll_eq, hf']
  split
  · rw [BitVec.or_comm b.fflags, Bool.or_comm b.sat, foldl_or_start, foldl_sat_start]
    exact ⟨BitVec.or_comm _ _, Bool.or_comm _ _⟩
  · simp only [List.foldl_cons]
    rw [BitVec.or_comm b.fflags, Bool.or_comm b.sat, foldl_or_start, foldl_sat_start]
    exact ⟨BitVec.or_comm _ _, Bool.or_comm _ _⟩

/-- Parts are the same but for flags, and the flags landed are the same. -/
theorem Only.drop_flags {l : List Piece} {s t : State} (h : Only (.flags :: l) s t) (hf : Piece.flags.same s t) : Only l s t := by
  intro k hk
  by_cases hk2 : k = .flags
  · exact hk2 ▸ hf
  · exact h k (by simp [hk2, hk])

/-- The effect of an instruction that is ready, from its effect on the state at issue (R22, R30, R141). -/
theorem issued_does {i : Instr} {s : State} {e : State} {l : List Piece} {P : State → Prop} (hx : exec i s = .next (s.issued i e))
    (hq : e.sh.xq = s.sh.xq) (hn : e.sh.nX = s.sh.nX) (hc : e.co.cycle = issueCycle i s) (hl : Only l (s.atIssue i) e)
    (hf : .flags ∈ l ∨ e.sh.flight = (s.atIssue i).sh.flight ∧ e.sh.fflags = 0 ∧ e.sh.sat = false)
    (hd : .p ∈ l ∨ ∀ r ∈ (xRegs s.sh (s.sh.vlmax s.sh.et s.sh.grp) i).w, ∀ n, r ≠ .p n) (hp : P (s.issued i e)) :
    Does i s l P := by
  refine ⟨_, hx, State.issued_issued hq hn hc, ?_, hp⟩
  have h1 : Only (.flags :: l) s (s.issued i e) :=
    (((State.atIssue_only s i).trans hl).trans (State.issued_only hd e)).mono (by simp; tauto)
  rcases hf with hf | ⟨h2, h3, h4⟩
  · exact h1.mono (by simp [hf])
  · refine h1.drop_flags ?_
    have := State.issued_flags (s := s) (i := i) h2
    simpa [Piece.same, h3, h4] using this

/-- A wait at issue changes nothing but the count of waits. -/
theorem xIssue_wait {i : Instr} {s : State} {body : State → XOut} {w : Wait} (hr : XReady i s)
    (hb : body (s.atIssue i) = .wait w (s.atIssue i)) (hx : exec i s = xIssue i s body) : Awaits i s w := by
  refine ⟨_, by rw [hx, xIssue_ready hr, hb]; rfl, ?_⟩
  have hf := Shuttle.settle_landAll s.sh (issueCycle i s)
  refine ⟨rfl, ?_, ?_, ?_, ?_⟩
  · simp [State.atIssue, Shuttle.joinFlags, Shuttle.noFlags, Shuttle.settle_eq]
  · simp [State.atIssue, Shuttle.joinFlags, Shuttle.noFlags, Shuttle.settle_eq]
  · simp [State.atIssue, Shuttle.joinFlags, Shuttle.noFlags, Shuttle.settle_eq]
  · intro k _
    cases k <;> simp_all [Piece.same, State.atIssue, Shuttle.joinFlags, Shuttle.noFlags, Shuttle.settle_eq, Shuttle.landAll_eq]

/-- A fault found at issue leaves the machine as it stood. -/
theorem xIssue_faults {i : Instr} {s : State} {body : State → XOut} {f : Flt} (hr : XReady i s)
    (hb : body (s.atIssue i) = .fault f (s.atIssue i)) (hp : f.pushed = false) (hx : exec i s = xIssue i s body) : Faults i s f := by
  refine ⟨_, by rw [hx, xIssue_ready hr, hb], ?_⟩
  have hf := Shuttle.settle_landAll s.sh (issueCycle i s)
  simp only [hp, Bool.false_eq_true, if_false]
  refine ⟨?_, ?_, ?_⟩
  · simp [State.atIssue, Shuttle.joinFlags, Shuttle.noFlags, Shuttle.settle_eq]
  · simp [State.atIssue, Shuttle.joinFlags, Shuttle.noFlags, Shuttle.settle_eq]
  · intro k _
    cases k <;> simp_all [Piece.same, State.atIssue, Shuttle.joinFlags, Shuttle.noFlags, Shuttle.settle_eq, Shuttle.landAll_eq]

end Sys2Proof.Machine
end

