-- ==== Sys2Proof/Laws/PerInstr.lean ====
section
/-! SUPPORT. For every instruction, as syntax: the word the encoder writes is one the decoder reads back. -/

/-- A well-formed instruction or micro-op is what its own word decodes to (R69, R72, R82); an event has no word. -/
def Sys2Proof.Laws.Coded.Statement (i : Sys2Proof.Instr) : Prop :=
  i.wf = true → match i.kind with
    | .aClass | .xClass => Sys2Proof.decode (Sys2Proof.encode i) = some i
    | .micro => Sys2Proof.decodeMicro (Sys2Proof.encode i) = some i
    | .event => True

namespace Sys2Proof

theorem Laws.Coded.add (h : Hd) (d : Fin 64) (a : Fin 64) (b : Fin 64) : Laws.Coded.Statement (.add h d a b) := by
  intro hw
  have b_d := d.isLt
  have b_a := a.isLt
  have b_b := b.isLt
  have f0 : bitsAt (loS b.val 0 0) 28 6 = b.val := by simp only [bitsAt, loS]; omega
  refine decode_pack (h := h) (op := 0x00) (d := d.val) (a := a.val) (lo := loS b.val 0 0) hw rfl (by decide) (by omega) (by omega) (by simp only [loS]; omega) ?_
  simp [build, build0, f0]

theorem Laws.Coded.sub (h : Hd) (d : Fin 64) (a : Fin 64) (b : Fin 64) : Laws.Coded.Statement (.sub h d a b) := by
  intro hw
  have b_d := d.isLt
  have b_a := a.isLt
  have b_b := b.isLt
  have f0 : bitsAt (loS b.val 0 0) 28 6 = b.val := by simp only [bitsAt, loS]; omega
  refine decode_pack (h := h) (op := 0x01) (d := d.val) (a := a.val) (lo := loS b.val 0 0) hw rfl (by decide) (by omega) (by omega) (by simp only [loS]; omega) ?_
  simp [build, build0, f0]

theorem Laws.Coded.mul (h : Hd) (d : Fin 64) (a : Fin 64) (b : Fin 64) : Laws.Coded.Statement (.mul h d a b) := by
  intro hw
  have b_d := d.isLt
  have b_a := a.isLt
  have b_b := b.isLt
  have f0 : bitsAt (loS b.val 0 0) 28 6 = b.val := by simp only [bitsAt, loS]; omega
  refine decode_pack (h := h) (op := 0x02) (d := d.val) (a := a.val) (lo := loS b.val 0 0) hw rfl (by decide) (by omega) (by omega) (by simp only [loS]; omega) ?_
  simp [build, build0, f0]

theorem Laws.Coded.mulh (h : Hd) (k : MulK) (d : Fin 64) (a : Fin 64) (b : Fin 64) : Laws.Coded.Statement (.mulh h k d a b) := by
  intro hw
  have b_k := k.code_lt
  have b_d := d.isLt
  have b_a := a.isLt
  have b_b := b.isLt
  have f0 : bitsAt (loS b.val 0 k.code) 28 6 = b.val := by simp only [bitsAt, loS]; omega
  have f1 : bitsAt (loS b.val 0 k.code) 14 8 = k.code := by simp only [bitsAt, loS]; omega
  have f2 : bitsAt (k.code) 0 8 = k.code := by simp only [bitsAt]; omega
  refine decode_pack (h := h) (op := 0x03) (d := d.val) (a := a.val) (lo := loS b.val 0 k.code) hw rfl (by decide) (by omega) (by omega) (by simp only [loS]; omega) ?_
  simp [build, build0, f0, f1, f2]

theorem Laws.Coded.div (h : Hd) (u : Bool) (d : Fin 64) (a : Fin 64) (b : Fin 64) : Laws.Coded.Statement (.div h u d a b) := by
  intro hw
  have b_u := Bool.toNat_lt u
  have b_d := d.isLt
  have b_a := a.isLt
  have b_b := b.isLt
  have f0 : bitsAt (loS b.val 0 u.toNat) 28 6 = b.val := by simp only [bitsAt, loS]; omega
  have f1 : bitsAt (loS b.val 0 u.toNat) 14 8 = u.toNat := by simp only [bitsAt, loS]; omega
  have f2 : bitAt (u.toNat) 0 = u := bitAt_eq (by omega)
  refine decode_pack (h := h) (op := 0x04) (d := d.val) (a := a.val) (lo := loS b.val 0 u.toNat) hw rfl (by decide) (by omega) (by omega) (by simp only [loS]; omega) ?_
  simp [build, build0, f0, f1, f2]

theorem Laws.Coded.rem (h : Hd) (u : Bool) (d : Fin 64) (a : Fin 64) (b : Fin 64) : Laws.Coded.Statement (.rem h u d a b) := by
  intro hw
  have b_u := Bool.toNat_lt u
  have b_d := d.isLt
  have b_a := a.isLt
  have b_b := b.isLt
  have f0 : bitsAt (loS b.val 0 u.toNat) 28 6 = b.val := by simp only [bitsAt, loS]; omega
  have f1 : bitsAt (loS b.val 0 u.toNat) 14 8 = u.toNat := by simp only [bitsAt, loS]; omega
  have f2 : bitAt (u.toNat) 0 = u := bitAt_eq (by omega)
  refine decode_pack (h := h) (op := 0x05) (d := d.val) (a := a.val) (lo := loS b.val 0 u.toNat) hw rfl (by decide) (by omega) (by omega) (by simp only [loS]; omega) ?_
  simp [build, build0, f0, f1, f2]

theorem Laws.Coded.and (h : Hd) (d : Fin 64) (a : Fin 64) (b : Fin 64) : Laws.Coded.Statement (.and h d a b) := by
  intro hw
  have b_d := d.isLt
  have b_a := a.isLt
  have b_b := b.isLt
  have f0 : bitsAt (loS b.val 0 0) 28 6 = b.val := by simp only [bitsAt, loS]; omega
  refine decode_pack (h := h) (op := 0x06) (d := d.val) (a := a.val) (lo := loS b.val 0 0) hw rfl (by decide) (by omega) (by omega) (by simp only [loS]; omega) ?_
  simp [build, build0, f0]

theorem Laws.Coded.or (h : Hd) (d : Fin 64) (a : Fin 64) (b : Fin 64) : Laws.Coded.Statement (.or h d a b) := by
  intro hw
  have b_d := d.isLt
  have b_a := a.isLt
  have b_b := b.isLt
  have f0 : bitsAt (loS b.val 0 0) 28 6 = b.val := by simp only [bitsAt, loS]; omega
  refine decode_pack (h := h) (op := 0x07) (d := d.val) (a := a.val) (lo := loS b.val 0 0) hw rfl (by decide) (by omega) (by omega) (by simp only [loS]; omega) ?_
  simp [build, build0, f0]

theorem Laws.Coded.xor (h : Hd) (d : Fin 64) (a : Fin 64) (b : Fin 64) : Laws.Coded.Statement (.xor h d a b) := by
  intro hw
  have b_d := d.isLt
  have b_a := a.isLt
  have b_b := b.isLt
  have f0 : bitsAt (loS b.val 0 0) 28 6 = b.val := by simp only [bitsAt, loS]; omega
  refine decode_pack (h := h) (op := 0x08) (d := d.val) (a := a.val) (lo := loS b.val 0 0) hw rfl (by decide) (by omega) (by omega) (by simp only [loS]; omega) ?_
  simp [build, build0, f0]

theorem Laws.Coded.sll (h : Hd) (d : Fin 64) (a : Fin 64) (b : Fin 64) : Laws.Coded.Statement (.sll h d a b) := by
  intro hw
  have b_d := d.isLt
  have b_a := a.isLt
  have b_b := b.isLt
  have f0 : bitsAt (loS b.val 0 0) 28 6 = b.val := by simp only [bitsAt, loS]; omega
  refine decode_pack (h := h) (op := 0x09) (d := d.val) (a := a.val) (lo := loS b.val 0 0) hw rfl (by decide) (by omega) (by omega) (by simp only [loS]; omega) ?_
  simp [build, build0, f0]

theorem Laws.Coded.srl (h : Hd) (d : Fin 64) (a : Fin 64) (b : Fin 64) : Laws.Coded.Statement (.srl h d a b) := by
  intro hw
  have b_d := d.isLt
  have b_a := a.isLt
  have b_b := b.isLt
  have f0 : bitsAt (loS b.val 0 0) 28 6 = b.val := by simp only [bitsAt, loS]; omega
  refine decode_pack (h := h) (op := 0x0a) (d := d.val) (a := a.val) (lo := loS b.val 0 0) hw rfl (by decide) (by omega) (by omega) (by simp only [loS]; omega) ?_
  simp [build, build0, f0]

theorem Laws.Coded.sra (h : Hd) (r : Bool) (d : Fin 64) (a : Fin 64) (b : Fin 64) : Laws.Coded.Statement (.sra h r d a b) := by
  intro hw
  have b_r := Bool.toNat_lt r
  have b_d := d.isLt
  have b_a := a.isLt
  have b_b := b.isLt
  have f0 : bitsAt (loS b.val 0 (r.toNat * 2)) 28 6 = b.val := by simp only [bitsAt, loS]; omega
  have f1 : bitsAt (loS b.val 0 (r.toNat * 2)) 14 8 = (r.toNat * 2) := by simp only [bitsAt, loS]; omega
  have f2 : bitAt (r.toNat * 2) 1 = r := bitAt_eq (by omega)
  refine decode_pack (h := h) (op := 0x0b) (d := d.val) (a := a.val) (lo := loS b.val 0 (r.toNat * 2)) hw rfl (by decide) (by omega) (by omega) (by simp only [loS]; omega) ?_
  simp [build, build0, f0, f1, f2]

theorem Laws.Coded.min (h : Hd) (u : Bool) (d : Fin 64) (a : Fin 64) (b : Fin 64) : Laws.Coded.Statement (.min h u d a b) := by
  intro hw
  have b_u := Bool.toNat_lt u
  have b_d := d.isLt
  have b_a := a.isLt
  have b_b := b.isLt
  have f0 : bitsAt (loS b.val 0 u.toNat) 28 6 = b.val := by simp only [bitsAt, loS]; omega
  have f1 : bitsAt (loS b.val 0 u.toNat) 14 8 = u.toNat := by simp only [bitsAt, loS]; omega
  have f2 : bitAt (u.toNat) 0 = u := bitAt_eq (by omega)
  refine decode_pack (h := h) (op := 0x0c) (d := d.val) (a := a.val) (lo := loS b.val 0 u.toNat) hw rfl (by decide) (by omega) (by omega) (by simp only [loS]; omega) ?_
  simp [build, build0, f0, f1, f2]

theorem Laws.Coded.max (h : Hd) (u : Bool) (d : Fin 64) (a : Fin 64) (b : Fin 64) : Laws.Coded.Statement (.max h u d a b) := by
  intro hw
  have b_u := Bool.toNat_lt u
  have b_d := d.isLt
  have b_a := a.isLt
  have b_b := b.isLt
  have f0 : bitsAt (loS b.val 0 u.toNat) 28 6 = b.val := by simp only [bitsAt, loS]; omega
  have f1 : bitsAt (loS b.val 0 u.toNat) 14 8 = u.toNat := by simp only [bitsAt, loS]; omega
  have f2 : bitAt (u.toNat) 0 = u := bitAt_eq (by omega)
  refine decode_pack (h := h) (op := 0x0d) (d := d.val) (a := a.val) (lo := loS b.val 0 u.toNat) hw rfl (by decide) (by omega) (by omega) (by simp only [loS]; omega) ?_
  simp [build, build0, f0, f1, f2]

theorem Laws.Coded.clz (h : Hd) (d : Fin 64) (a : Fin 64) : Laws.Coded.Statement (.clz h d a) := by
  intro hw
  have b_d := d.isLt
  have b_a := a.isLt
  refine decode_pack (h := h) (op := 0x0e) (d := d.val) (a := a.val) (lo := loS 0 0 0) hw rfl (by decide) (by omega) (by omega) (by decide) ?_
  simp [build, build0]

theorem Laws.Coded.ctz (h : Hd) (d : Fin 64) (a : Fin 64) : Laws.Coded.Statement (.ctz h d a) := by
  intro hw
  have b_d := d.isLt
  have b_a := a.isLt
  refine decode_pack (h := h) (op := 0x0f) (d := d.val) (a := a.val) (lo := loS 0 0 0) hw rfl (by decide) (by omega) (by omega) (by decide) ?_
  simp [build, build0]

theorem Laws.Coded.popc (h : Hd) (d : Fin 64) (a : Fin 64) : Laws.Coded.Statement (.popc h d a) := by
  intro hw
  have b_d := d.isLt
  have b_a := a.isLt
  refine decode_pack (h := h) (op := 0x10) (d := d.val) (a := a.val) (lo := loS 0 0 0) hw rfl (by decide) (by omega) (by omega) (by decide) ?_
  simp [build, build1]

theorem Laws.Coded.addi (h : Hd) (d : Fin 64) (a : Fin 64) (imm : BitVec 32) : Laws.Coded.Statement (.addi h d a imm) := by
  intro hw
  have b_d := d.isLt
  have b_a := a.isLt
  have b_imm := imm.isLt
  have f0 : bitsAt (loI 0 imm.toNat) 0 32 = imm.toNat := by simp only [bitsAt, loI]; omega
  have f1 : BitVec.ofNat 32 (imm.toNat) = imm := ofNat_eq (by omega)
  refine decode_pack (h := h) (op := 0x11) (d := d.val) (a := a.val) (lo := loI 0 imm.toNat) hw rfl (by decide) (by omega) (by omega) (by simp only [loI]; omega) ?_
  simp [build, build1, f0, f1]

theorem Laws.Coded.andi (h : Hd) (d : Fin 64) (a : Fin 64) (imm : BitVec 32) : Laws.Coded.Statement (.andi h d a imm) := by
  intro hw
  have b_d := d.isLt
  have b_a := a.isLt
  have b_imm := imm.isLt
  have f0 : bitsAt (loI 0 imm.toNat) 0 32 = imm.toNat := by simp only [bitsAt, loI]; omega
  have f1 : BitVec.ofNat 32 (imm.toNat) = imm := ofNat_eq (by omega)
  refine decode_pack (h := h) (op := 0x12) (d := d.val) (a := a.val) (lo := loI 0 imm.toNat) hw rfl (by decide) (by omega) (by omega) (by simp only [loI]; omega) ?_
  simp [build, build1, f0, f1]

theorem Laws.Coded.ori (h : Hd) (d : Fin 64) (a : Fin 64) (imm : BitVec 32) : Laws.Coded.Statement (.ori h d a imm) := by
  intro hw
  have b_d := d.isLt
  have b_a := a.isLt
  have b_imm := imm.isLt
  have f0 : bitsAt (loI 0 imm.toNat) 0 32 = imm.toNat := by simp only [bitsAt, loI]; omega
  have f1 : BitVec.ofNat 32 (imm.toNat) = imm := ofNat_eq (by omega)
  refine decode_pack (h := h) (op := 0x13) (d := d.val) (a := a.val) (lo := loI 0 imm.toNat) hw rfl (by decide) (by omega) (by omega) (by simp only [loI]; omega) ?_
  simp [build, build1, f0, f1]

theorem Laws.Coded.xori (h : Hd) (d : Fin 64) (a : Fin 64) (imm : BitVec 32) : Laws.Coded.Statement (.xori h d a imm) := by
  intro hw
  have b_d := d.isLt
  have b_a := a.isLt
  have b_imm := imm.isLt
  have f0 : bitsAt (loI 0 imm.toNat) 0 32 = imm.toNat := by simp only [bitsAt, loI]; omega
  have f1 : BitVec.ofNat 32 (imm.toNat) = imm := ofNat_eq (by omega)
  refine decode_pack (h := h) (op := 0x14) (d := d.val) (a := a.val) (lo := loI 0 imm.toNat) hw rfl (by decide) (by omega) (by omega) (by simp only [loI]; omega) ?_
  simp [build, build1, f0, f1]

theorem Laws.Coded.shi (h : Hd) (k : ShK) (d : Fin 64) (a : Fin 64) (n : BitVec 6) : Laws.Coded.Statement (.shi h k d a n) := by
  intro hw
  have b_k := k.code_lt
  have b_d := d.isLt
  have b_a := a.isLt
  have b_n := n.isLt
  have f0 : bitsAt (loI k.code n.toNat) 32 2 = k.code := by simp only [bitsAt, loI]; omega
  have f1 : bitsAt (loI k.code n.toNat) 0 32 = n.toNat := by simp only [bitsAt, loI]; omega
  have f2 : bitsAt (k.code) 0 2 = k.code := by simp only [bitsAt]; omega
  have f3 : BitVec.ofNat 6 (n.toNat) = n := ofNat_eq (by omega)
  refine decode_pack (h := h) (op := 0x15) (d := d.val) (a := a.val) (lo := loI k.code n.toNat) hw rfl (by decide) (by omega) (by omega) (by simp only [loI]; omega) ?_
  simp [build, build1, f0, f1, f2, f3]

theorem Laws.Coded.li (h : Hd) (z : Bool) (d : Fin 64) (imm : BitVec 32) : Laws.Coded.Statement (.li h z d imm) := by
  intro hw
  have b_z := Bool.toNat_lt z
  have b_d := d.isLt
  have b_imm := imm.isLt
  have f0 : bitsAt (loI z.toNat imm.toNat) 32 2 = z.toNat := by simp only [bitsAt, loI]; omega
  have f1 : bitsAt (loI z.toNat imm.toNat) 0 32 = imm.toNat := by simp only [bitsAt, loI]; omega
  have f2 : bitAt (z.toNat) 0 = z := bitAt_eq (by omega)
  have f3 : BitVec.ofNat 32 (imm.toNat) = imm := ofNat_eq (by omega)
  refine decode_pack (h := h) (op := 0x16) (d := d.val) (a := 0) (lo := loI z.toNat imm.toNat) hw rfl (by decide) (by omega) (by omega) (by simp only [loI]; omega) ?_
  simp [build, build1, f0, f1, f2, f3]

theorem Laws.Coded.lih (h : Hd) (d : Fin 64) (a : Fin 64) (imm : BitVec 32) : Laws.Coded.Statement (.lih h d a imm) := by
  intro hw
  have b_d := d.isLt
  have b_a := a.isLt
  have b_imm := imm.isLt
  have f0 : bitsAt (loI 0 imm.toNat) 0 32 = imm.toNat := by simp only [bitsAt, loI]; omega
  have f1 : BitVec.ofNat 32 (imm.toNat) = imm := ofNat_eq (by omega)
  refine decode_pack (h := h) (op := 0x17) (d := d.val) (a := a.val) (lo := loI 0 imm.toNat) hw rfl (by decide) (by omega) (by omega) (by simp only [loI]; omega) ?_
  simp [build, build1, f0, f1]

theorem Laws.Coded.addpc (h : Hd) (d : Fin 64) (imm : BitVec 32) : Laws.Coded.Statement (.addpc h d imm) := by
  intro hw
  have b_d := d.isLt
  have b_imm := imm.isLt
  have f0 : bitsAt (loI 0 imm.toNat) 0 32 = imm.toNat := by simp only [bitsAt, loI]; omega
  have f1 : BitVec.ofNat 32 (imm.toNat) = imm := ofNat_eq (by omega)
  refine decode_pack (h := h) (op := 0x18) (d := d.val) (a := 0) (lo := loI 0 imm.toNat) hw rfl (by decide) (by omega) (by omega) (by simp only [loI]; omega) ?_
  simp [build, build1, f0, f1]

theorem Laws.Coded.sel (h : Hd) (d : Fin 64) (a : Fin 64) (b : Fin 64) (e : Fin 64) : Laws.Coded.Statement (.sel h d a b e) := by
  intro hw
  have b_d := d.isLt
  have b_a := a.isLt
  have b_b := b.isLt
  have b_e := e.isLt
  have f0 : bitsAt (loS b.val e.val 0) 28 6 = b.val := by simp only [bitsAt, loS]; omega
  have f1 : bitsAt (loS b.val e.val 0) 22 6 = e.val := by simp only [bitsAt, loS]; omega
  refine decode_pack (h := h) (op := 0x19) (d := d.val) (a := a.val) (lo := loS b.val e.val 0) hw rfl (by decide) (by omega) (by omega) (by simp only [loS]; omega) ?_
  simp [build, build1, f0, f1]

theorem Laws.Coded.pcmp (h : Hd) (k : CmpK) (d : Fin 64) (a : Fin 64) (b : Fin 64) : Laws.Coded.Statement (.pcmp h k d a b) := by
  intro hw
  have b_k := k.code_lt
  have b_d := d.isLt
  have b_a := a.isLt
  have b_b := b.isLt
  have f0 : bitsAt (loS b.val 0 k.code) 28 6 = b.val := by simp only [bitsAt, loS]; omega
  have f1 : bitsAt (loS b.val 0 k.code) 14 8 = k.code := by simp only [bitsAt, loS]; omega
  have f2 : bitsAt (k.code) 0 8 = k.code := by simp only [bitsAt]; omega
  refine decode_pack (h := h) (op := 0x1a) (d := d.val) (a := a.val) (lo := loS b.val 0 k.code) hw rfl (by decide) (by omega) (by omega) (by simp only [loS]; omega) ?_
  simp [build, build1, f0, f1, f2]

theorem Laws.Coded.pcmpi (h : Hd) (k : CmpK) (d : Fin 64) (a : Fin 64) (imm : BitVec 32) : Laws.Coded.Statement (.pcmpi h k d a imm) := by
  intro hw
  have hc : k.code < 4 := by
    have hw := hw
    simp [Instr.wf] at hw
    omega
  have b_k := k.code_lt
  have b_d := d.isLt
  have b_a := a.isLt
  have b_imm := imm.isLt
  have f0 : bitsAt (loI k.code imm.toNat) 32 2 = k.code := by simp only [bitsAt, loI]; omega
  have f1 : bitsAt (loI k.code imm.toNat) 0 32 = imm.toNat := by simp only [bitsAt, loI]; omega
  have f2 : bitsAt (k.code) 0 2 = k.code := by simp only [bitsAt]; omega
  have f3 : BitVec.ofNat 32 (imm.toNat) = imm := ofNat_eq (by omega)
  refine decode_pack (h := h) (op := 0x1b) (d := d.val) (a := a.val) (lo := loI k.code imm.toNat) hw rfl (by decide) (by omega) (by omega) (by simp only [loI]; omega) ?_
  simp [build, build1, f0, f1, f2, f3]

theorem Laws.Coded.plog (h : Hd) (f : BitVec 4) (d : Fin 64) (a : Fin 64) (b : Fin 64) : Laws.Coded.Statement (.plog h f d a b) := by
  intro hw
  have b_f := f.isLt
  have b_d := d.isLt
  have b_a := a.isLt
  have b_b := b.isLt
  have f0 : bitsAt (loS b.val 0 f.toNat) 28 6 = b.val := by simp only [bitsAt, loS]; omega
  have f1 : bitsAt (loS b.val 0 f.toNat) 14 8 = f.toNat := by simp only [bitsAt, loS]; omega
  have f2 : BitVec.ofNat 4 (f.toNat) = f := ofNat_eq (by omega)
  refine decode_pack (h := h) (op := 0x1c) (d := d.val) (a := a.val) (lo := loS b.val 0 f.toNat) hw rfl (by decide) (by omega) (by omega) (by simp only [loS]; omega) ?_
  simp [build, build1, f0, f1, f2]

theorem Laws.Coded.psetAll (h : Hd) (v : Bool) (d : Fin 64) : Laws.Coded.Statement (.psetAll h v d) := by
  intro hw
  have b_v := Bool.toNat_lt v
  have b_d := d.isLt
  have f0 : bitsAt (loI 0 v.toNat) 32 2 = 0 := by simp only [bitsAt, loI]; omega
  have f1 : bitsAt (loI 0 v.toNat) 0 32 = v.toNat := by simp only [bitsAt, loI]; omega
  have f2 : bitAt (v.toNat) 0 = v := bitAt_eq (by omega)
  refine decode_pack (h := h) (op := 0x1d) (d := d.val) (a := 0) (lo := loI 0 v.toNat) hw rfl (by decide) (by omega) (by omega) (by simp only [loI]; omega) ?_
  simp [build, build1, f0, f1, f2]

theorem Laws.Coded.psetLt (h : Hd) (d : Fin 64) (a : Fin 64) (imm : BitVec 32) : Laws.Coded.Statement (.psetLt h d a imm) := by
  intro hw
  have b_d := d.isLt
  have b_a := a.isLt
  have b_imm := imm.isLt
  have f0 : bitsAt (loI 1 imm.toNat) 32 2 = 1 := by simp only [bitsAt, loI]; omega
  have f1 : bitsAt (loI 1 imm.toNat) 0 32 = imm.toNat := by simp only [bitsAt, loI]; omega
  have f2 : BitVec.ofNat 32 (imm.toNat) = imm := ofNat_eq (by omega)
  refine decode_pack (h := h) (op := 0x1d) (d := d.val) (a := a.val) (lo := loI 1 imm.toNat) hw rfl (by decide) (by omega) (by omega) (by simp only [loI]; omega) ?_
  simp [build, build1, f0, f1, f2]

theorem Laws.Coded.psetMod (h : Hd) (d : Fin 64) (imm : BitVec 32) : Laws.Coded.Statement (.psetMod h d imm) := by
  intro hw
  have b_d := d.isLt
  have b_imm := imm.isLt
  have f0 : bitsAt (loI 2 imm.toNat) 32 2 = 2 := by simp only [bitsAt, loI]; omega
  have f1 : bitsAt (loI 2 imm.toNat) 0 32 = imm.toNat := by simp only [bitsAt, loI]; omega
  have f2 : BitVec.ofNat 32 (imm.toNat) = imm := ofNat_eq (by omega)
  refine decode_pack (h := h) (op := 0x1d) (d := d.val) (a := 0) (lo := loI 2 imm.toNat) hw rfl (by decide) (by omega) (by omega) (by simp only [loI]; omega) ?_
  simp [build, build1, f0, f1, f2]

theorem Laws.Coded.psetBits (h : Hd) (d : Fin 64) (a : Fin 64) : Laws.Coded.Statement (.psetBits h d a) := by
  intro hw
  have b_d := d.isLt
  have b_a := a.isLt
  have f0 : bitsAt (loI 3 0) 32 2 = 3 := by simp only [bitsAt, loI]; omega
  refine decode_pack (h := h) (op := 0x1d) (d := d.val) (a := a.val) (lo := loI 3 0) hw rfl (by decide) (by omega) (by omega) (by decide) ?_
  simp [build, build1, f0]

theorem Laws.Coded.pcnt (h : Hd) (d : Fin 64) (a : Fin 64) : Laws.Coded.Statement (.pcnt h d a) := by
  intro hw
  have b_d := d.isLt
  have b_a := a.isLt
  refine decode_pack (h := h) (op := 0x1e) (d := d.val) (a := a.val) (lo := loS 0 0 0) hw rfl (by decide) (by omega) (by omega) (by decide) ?_
  simp [build, build1]

theorem Laws.Coded.pfirst (h : Hd) (d : Fin 64) (a : Fin 64) : Laws.Coded.Statement (.pfirst h d a) := by
  intro hw
  have b_d := d.isLt
  have b_a := a.isLt
  refine decode_pack (h := h) (op := 0x1f) (d := d.val) (a := a.val) (lo := loS 0 0 0) hw rfl (by decide) (by omega) (by omega) (by decide) ?_
  simp [build, build1]

theorem Laws.Coded.br (h : Hd) (k : BrK) (a : Fin 64) (disp : BitVec 32) : Laws.Coded.Statement (.br h k a disp) := by
  intro hw
  have b_k := k.code_lt
  have b_a := a.isLt
  have b_disp := disp.isLt
  have f0 : bitsAt (loB k.code disp.toNat) 32 2 = k.code := by simp only [bitsAt, loB]; omega
  have f1 : bitsAt (loB k.code disp.toNat) 0 32 = disp.toNat := by simp only [bitsAt, loB]; omega
  have f2 : bitsAt (k.code) 0 2 = k.code := by simp only [bitsAt]; omega
  have f3 : BitVec.ofNat 32 (disp.toNat) = disp := ofNat_eq (by omega)
  refine decode_pack (h := h) (op := 0x20) (d := 0) (a := a.val) (lo := loB k.code disp.toNat) hw rfl (by decide) (by omega) (by omega) (by simp only [loB]; omega) ?_
  simp [build, build2, f0, f1, f2, f3]

theorem Laws.Coded.jmp (h : Hd) (disp : BitVec 32) : Laws.Coded.Statement (.jmp h disp) := by
  intro hw
  have b_disp := disp.isLt
  have f0 : bitsAt (loB 0 disp.toNat) 0 32 = disp.toNat := by simp only [bitsAt, loB]; omega
  have f1 : BitVec.ofNat 32 (disp.toNat) = disp := ofNat_eq (by omega)
  refine decode_pack (h := h) (op := 0x21) (d := 0) (a := 0) (lo := loB 0 disp.toNat) hw rfl (by decide) (by omega) (by omega) (by simp only [loB]; omega) ?_
  simp [build, build2, f0, f1]

theorem Laws.Coded.call (h : Hd) (d : Fin 64) (disp : BitVec 32) : Laws.Coded.Statement (.call h d disp) := by
  intro hw
  have b_d := d.isLt
  have b_disp := disp.isLt
  have f0 : bitsAt (loB 0 disp.toNat) 0 32 = disp.toNat := by simp only [bitsAt, loB]; omega
  have f1 : BitVec.ofNat 32 (disp.toNat) = disp := ofNat_eq (by omega)
  refine decode_pack (h := h) (op := 0x22) (d := d.val) (a := 0) (lo := loB 0 disp.toNat) hw rfl (by decide) (by omega) (by omega) (by simp only [loB]; omega) ?_
  simp [build, build2, f0, f1]

theorem Laws.Coded.ret (h : Hd) (a : Fin 64) : Laws.Coded.Statement (.ret h a) := by
  intro hw
  have b_a := a.isLt
  refine decode_pack (h := h) (op := 0x23) (d := 0) (a := a.val) (lo := loS 0 0 0) hw rfl (by decide) (by omega) (by omega) (by decide) ?_
  simp [build, build2]

theorem Laws.Coded.jr (h : Hd) (d : Fin 64) (a : Fin 64) : Laws.Coded.Statement (.jr h d a) := by
  intro hw
  have b_d := d.isLt
  have b_a := a.isLt
  refine decode_pack (h := h) (op := 0x24) (d := d.val) (a := a.val) (lo := loS 0 0 0) hw rfl (by decide) (by omega) (by omega) (by decide) ?_
  simp [build, build2]

theorem Laws.Coded.loop (h : Hd) (im : Bool) (d : Fin 64) (a : Fin 64) (disp : BitVec 32) : Laws.Coded.Statement (.loop h im d a disp) := by
  intro hw
  have b_im := Bool.toNat_lt im
  have b_d := d.isLt
  have b_a := a.isLt
  have b_disp := disp.isLt
  have f0 : bitsAt (loB im.toNat disp.toNat) 32 2 = im.toNat := by simp only [bitsAt, loB]; omega
  have f1 : bitsAt (loB im.toNat disp.toNat) 0 32 = disp.toNat := by simp only [bitsAt, loB]; omega
  have f2 : bitAt (im.toNat) 0 = im := bitAt_eq (by omega)
  have f3 : BitVec.ofNat 32 (disp.toNat) = disp := ofNat_eq (by omega)
  refine decode_pack (h := h) (op := 0x25) (d := d.val) (a := a.val) (lo := loB im.toNat disp.toNat) hw rfl (by decide) (by omega) (by omega) (by simp only [loB]; omega) ?_
  simp [build, build2, f0, f1, f2, f3]

theorem Laws.Coded.loopx (h : Hd) (k : BitVec 2) (d : Fin 64) (a : Fin 64) (disp : BitVec 32) : Laws.Coded.Statement (.loopx h k d a disp) := by
  intro hw
  have b_k := k.isLt
  have b_d := d.isLt
  have b_a := a.isLt
  have b_disp := disp.isLt
  have f0 : bitsAt (loB k.toNat disp.toNat) 32 2 = k.toNat := by simp only [bitsAt, loB]; omega
  have f1 : bitsAt (loB k.toNat disp.toNat) 0 32 = disp.toNat := by simp only [bitsAt, loB]; omega
  have f2 : BitVec.ofNat 2 (k.toNat) = k := ofNat_eq (by omega)
  have f3 : BitVec.ofNat 32 (disp.toNat) = disp := ofNat_eq (by omega)
  refine decode_pack (h := h) (op := 0x26) (d := d.val) (a := a.val) (lo := loB k.toNat disp.toNat) hw rfl (by decide) (by omega) (by omega) (by simp only [loB]; omega) ?_
  simp [build, build2, f0, f1, f2, f3]

theorem Laws.Coded.loopEnd : Laws.Coded.Statement .loopEnd := fun _ => trivial


theorem Laws.Coded.xsync (h : Hd) : Laws.Coded.Statement (.xsync h) := by
  intro hw
  have f0 : bitsAt (loS 0 0 0) 14 8 = 0 := by simp only [bitsAt, loS]; omega
  refine decode_pack (h := h) (op := 0x27) (d := 0) (a := 0) (lo := loS 0 0 0) hw rfl (by decide) (by omega) (by omega) (by decide) ?_
  simp [build, build2, f0]

theorem Laws.Coded.xsyncI (h : Hd) : Laws.Coded.Statement (.xsyncI h) := by
  intro hw
  have f0 : bitsAt (loS 0 0 1) 14 8 = 1 := by simp only [bitsAt, loS]; omega
  refine decode_pack (h := h) (op := 0x27) (d := 0) (a := 0) (lo := loS 0 0 1) hw rfl (by decide) (by omega) (by omega) (by decide) ?_
  simp [build, build2, f0]

theorem Laws.Coded.xnop (h : Hd) (n : BitVec 16) : Laws.Coded.Statement (.xnop h n) := by
  intro hw
  have b_n := n.isLt
  have f0 : bitsAt (loI 0 n.toNat) 0 32 = n.toNat := by simp only [bitsAt, loI]; omega
  have f1 : BitVec.ofNat 16 (n.toNat) = n := ofNat_eq (by omega)
  refine decode_pack (h := h) (op := 0x28) (d := 0) (a := 0) (lo := loI 0 n.toNat) hw rfl (by decide) (by omega) (by omega) (by simp only [loI]; omega) ?_
  simp [build, build2, f0, f1]

theorem Laws.Coded.nop (h : Hd) : Laws.Coded.Statement (.nop h) := by
  intro hw
  refine decode_pack (h := h) (op := 0x29) (d := 0) (a := 0) (lo := loS 0 0 0) hw rfl (by decide) (by omega) (by omega) (by decide) ?_
  simp [build, build2]

theorem Laws.Coded.ld (h : Hd) (aq : Bool) (sz : BitVec 2) (sx : Bool) (d : Fin 64) (a : Fin 64) (off : BitVec 20) : Laws.Coded.Statement (.ld h aq sz sx d a off) := by
  intro hw
  have b_aq := Bool.toNat_lt aq
  have b_sz := sz.isLt
  have b_sx := Bool.toNat_lt sx
  have b_d := d.isLt
  have b_a := a.isLt
  have b_off := off.isLt
  have f0 : bitsAt (loM 0 sz.toNat sx.toNat aq.toNat off.toNat) 25 3 = sz.toNat := by simp only [bitsAt, loM]; omega
  have f1 : bitsAt (loM 0 sz.toNat sx.toNat aq.toNat off.toNat) 24 1 = sx.toNat := by simp only [bitsAt, loM]; omega
  have f2 : bitsAt (loM 0 sz.toNat sx.toNat aq.toNat off.toNat) 20 4 = aq.toNat := by simp only [bitsAt, loM]; omega
  have f3 : bitsAt (loM 0 sz.toNat sx.toNat aq.toNat off.toNat) 0 20 = off.toNat := by simp only [bitsAt, loM]; omega
  have f4 : bitAt (aq.toNat) 0 = aq := bitAt_eq (by omega)
  have f5 : BitVec.ofNat 2 (sz.toNat) = sz := ofNat_eq (by omega)
  have f6 : bitAt (sx.toNat) 0 = sx := bitAt_eq (by omega)
  have f7 : BitVec.ofNat 20 (off.toNat) = off := ofNat_eq (by omega)
  refine decode_pack (h := h) (op := 0x30) (d := d.val) (a := a.val) (lo := loM 0 sz.toNat sx.toNat aq.toNat off.toNat) hw rfl (by decide) (by omega) (by omega) (by simp only [loM]; omega) ?_
  simp [build, build3, f0, f1, f2, f3, f4, f5, f6, f7]

theorem Laws.Coded.st (h : Hd) (rl : Bool) (sz : BitVec 2) (d : Fin 64) (a : Fin 64) (off : BitVec 20) : Laws.Coded.Statement (.st h rl sz d a off) := by
  intro hw
  have b_rl := Bool.toNat_lt rl
  have b_sz := sz.isLt
  have b_d := d.isLt
  have b_a := a.isLt
  have b_off := off.isLt
  have f0 : bitsAt (loM 0 sz.toNat 0 rl.toNat off.toNat) 25 3 = sz.toNat := by simp only [bitsAt, loM]; omega
  have f1 : bitsAt (loM 0 sz.toNat 0 rl.toNat off.toNat) 20 4 = rl.toNat := by simp only [bitsAt, loM]; omega
  have f2 : bitsAt (loM 0 sz.toNat 0 rl.toNat off.toNat) 0 20 = off.toNat := by simp only [bitsAt, loM]; omega
  have f3 : bitAt (rl.toNat) 0 = rl := bitAt_eq (by omega)
  have f4 : BitVec.ofNat 2 (sz.toNat) = sz := ofNat_eq (by omega)
  have f5 : BitVec.ofNat 20 (off.toNat) = off := ofNat_eq (by omega)
  refine decode_pack (h := h) (op := 0x31) (d := d.val) (a := a.val) (lo := loM 0 sz.toNat 0 rl.toNat off.toNat) hw rfl (by decide) (by omega) (by omega) (by simp only [loM]; omega) ?_
  simp [build, build3, f0, f1, f2, f3, f4, f5]

theorem Laws.Coded.stnb (h : Hd) (sz : BitVec 2) (d : Fin 64) (a : Fin 64) (off : BitVec 20) : Laws.Coded.Statement (.stnb h sz d a off) := by
  intro hw
  have b_sz := sz.isLt
  have b_d := d.isLt
  have b_a := a.isLt
  have b_off := off.isLt
  have f0 : bitsAt (loM 0 sz.toNat 0 0 off.toNat) 25 3 = sz.toNat := by simp only [bitsAt, loM]; omega
  have f1 : bitsAt (loM 0 sz.toNat 0 0 off.toNat) 0 20 = off.toNat := by simp only [bitsAt, loM]; omega
  have f2 : BitVec.ofNat 2 (sz.toNat) = sz := ofNat_eq (by omega)
  have f3 : BitVec.ofNat 20 (off.toNat) = off := ofNat_eq (by omega)
  refine decode_pack (h := h) (op := 0x34) (d := d.val) (a := a.val) (lo := loM 0 sz.toNat 0 0 off.toNat) hw rfl (by decide) (by omega) (by omega) (by simp only [loM]; omega) ?_
  simp [build, build3, f0, f1, f2, f3]

theorem Laws.Coded.ldq (h : Hd) (sz : BitVec 2) (sx : Bool) (d : Fin 64) (a : Fin 64) (off : BitVec 20) : Laws.Coded.Statement (.ldq h sz sx d a off) := by
  intro hw
  have b_sz := sz.isLt
  have b_sx := Bool.toNat_lt sx
  have b_d := d.isLt
  have b_a := a.isLt
  have b_off := off.isLt
  have f0 : bitsAt (loM 0 sz.toNat sx.toNat 0 off.toNat) 25 3 = sz.toNat := by simp only [bitsAt, loM]; omega
  have f1 : bitsAt (loM 0 sz.toNat sx.toNat 0 off.toNat) 24 1 = sx.toNat := by simp only [bitsAt, loM]; omega
  have f2 : bitsAt (loM 0 sz.toNat sx.toNat 0 off.toNat) 20 4 = 0 := by simp only [bitsAt, loM]; omega
  have f3 : bitsAt (loM 0 sz.toNat sx.toNat 0 off.toNat) 0 20 = off.toNat := by simp only [bitsAt, loM]; omega
  have f4 : BitVec.ofNat 2 (sz.toNat) = sz := ofNat_eq (by omega)
  have f5 : bitAt (sx.toNat) 0 = sx := bitAt_eq (by omega)
  have f6 : BitVec.ofNat 20 (off.toNat) = off := ofNat_eq (by omega)
  refine decode_pack (h := h) (op := 0x32) (d := d.val) (a := a.val) (lo := loM 0 sz.toNat sx.toNat 0 off.toNat) hw rfl (by decide) (by omega) (by omega) (by simp only [loM]; omega) ?_
  simp [build, build3, f0, f1, f2, f3, f4, f5, f6]

theorem Laws.Coded.ldqG (h : Hd) (d : Fin 64) (a : Fin 64) (off : BitVec 20) : Laws.Coded.Statement (.ldqG h d a off) := by
  intro hw
  have b_d := d.isLt
  have b_a := a.isLt
  have b_off := off.isLt
  have f0 : bitsAt (loM 0 0 0 1 off.toNat) 20 4 = 1 := by simp only [bitsAt, loM]; omega
  have f1 : bitsAt (loM 0 0 0 1 off.toNat) 0 20 = off.toNat := by simp only [bitsAt, loM]; omega
  have f2 : BitVec.ofNat 20 (off.toNat) = off := ofNat_eq (by omega)
  refine decode_pack (h := h) (op := 0x32) (d := d.val) (a := a.val) (lo := loM 0 0 0 1 off.toNat) hw rfl (by decide) (by omega) (by omega) (by simp only [loM]; omega) ?_
  simp [build, build3, f0, f1, f2]

theorem Laws.Coded.ldqX (h : Hd) (d : Fin 64) (a : Fin 64) : Laws.Coded.Statement (.ldqX h d a) := by
  intro hw
  have b_d := d.isLt
  have b_a := a.isLt
  have f0 : bitsAt (loM 0 0 0 2 0) 20 4 = 2 := by simp only [bitsAt, loM]; omega
  refine decode_pack (h := h) (op := 0x32) (d := d.val) (a := a.val) (lo := loM 0 0 0 2 0) hw rfl (by decide) (by omega) (by omega) (by decide) ?_
  simp [build, build3, f0]

theorem Laws.Coded.ldqR (h : Hd) (d : Fin 64) (a : Fin 64) : Laws.Coded.Statement (.ldqR h d a) := by
  intro hw
  have b_d := d.isLt
  have b_a := a.isLt
  have f0 : bitsAt (loM 0 0 0 3 0) 20 4 = 3 := by simp only [bitsAt, loM]; omega
  refine decode_pack (h := h) (op := 0x32) (d := d.val) (a := a.val) (lo := loM 0 0 0 3 0) hw rfl (by decide) (by omega) (by omega) (by decide) ?_
  simp [build, build3, f0]

theorem Laws.Coded.qmovXq (h : Hd) (d : Fin 64) (a : Fin 64) : Laws.Coded.Statement (.qmovXq h d a) := by
  intro hw
  have b_d := d.isLt
  have b_a := a.isLt
  have f0 : bitsAt (loS 0 0 0) 14 8 = 0 := by simp only [bitsAt, loS]; omega
  refine decode_pack (h := h) (op := 0x33) (d := d.val) (a := a.val) (lo := loS 0 0 0) hw rfl (by decide) (by omega) (by omega) (by decide) ?_
  simp [build, build3, f0]

theorem Laws.Coded.qmovQx (h : Hd) (d : Fin 64) (a : Fin 64) : Laws.Coded.Statement (.qmovQx h d a) := by
  intro hw
  have b_d := d.isLt
  have b_a := a.isLt
  have f0 : bitsAt (loS 0 0 1) 14 8 = 1 := by simp only [bitsAt, loS]; omega
  refine decode_pack (h := h) (op := 0x33) (d := d.val) (a := a.val) (lo := loS 0 0 1) hw rfl (by decide) (by omega) (by omega) (by decide) ?_
  simp [build, build3, f0]

theorem Laws.Coded.qmovQq (h : Hd) (d : Fin 64) (a : Fin 64) : Laws.Coded.Statement (.qmovQq h d a) := by
  intro hw
  have b_d := d.isLt
  have b_a := a.isLt
  have f0 : bitsAt (loS 0 0 2) 14 8 = 2 := by simp only [bitsAt, loS]; omega
  refine decode_pack (h := h) (op := 0x33) (d := d.val) (a := a.val) (lo := loS 0 0 2) hw rfl (by decide) (by omega) (by omega) (by decide) ?_
  simp [build, build3, f0]

theorem Laws.Coded.amo (h : Hd) (k : AmoK) (dw : Bool) (sx : Bool) (d : Fin 64) (a : Fin 64) (b : Fin 64) (off : BitVec 20) : Laws.Coded.Statement (.amo h k dw sx d a b off) := by
  intro hw
  have b_k := k.code_lt
  have b_dw := Bool.toNat_lt dw
  have b_sx := Bool.toNat_lt sx
  have b_d := d.isLt
  have b_a := a.isLt
  have b_b := b.isLt
  have b_off := off.isLt
  have f0 : bitsAt (loM b.val ((2 + dw.toNat)) sx.toNat k.code off.toNat) 28 6 = b.val := by simp only [bitsAt, loM]; omega
  have f1 : bitsAt (loM b.val ((2 + dw.toNat)) sx.toNat k.code off.toNat) 25 3 = ((2 + dw.toNat)) := by simp only [bitsAt, loM]; omega
  have f2 : bitsAt (loM b.val ((2 + dw.toNat)) sx.toNat k.code off.toNat) 24 1 = sx.toNat := by simp only [bitsAt, loM]; omega
  have f3 : bitsAt (loM b.val ((2 + dw.toNat)) sx.toNat k.code off.toNat) 20 4 = k.code := by simp only [bitsAt, loM]; omega
  have f4 : bitsAt (loM b.val ((2 + dw.toNat)) sx.toNat k.code off.toNat) 0 20 = off.toNat := by simp only [bitsAt, loM]; omega
  have f5 : bitsAt (k.code) 0 4 = k.code := by simp only [bitsAt]; omega
  have f6 : bitAt (2 + dw.toNat) 0 = dw := bitAt_eq (by omega)
  have f7 : bitAt (sx.toNat) 0 = sx := bitAt_eq (by omega)
  have f8 : BitVec.ofNat 20 (off.toNat) = off := ofNat_eq (by omega)
  refine decode_pack (h := h) (op := 0x35) (d := d.val) (a := a.val) (lo := loM b.val ((2 + dw.toNat)) sx.toNat k.code off.toNat) hw rfl (by decide) (by omega) (by omega) (by simp only [loM]; omega) ?_
  simp [build, build3, f0, f1, f2, f3, f4, f5, f6, f7, f8]

theorem Laws.Coded.amocas (h : Hd) (dw : Bool) (sx : Bool) (d : Fin 64) (a : Fin 64) (b : Fin 64) (off : BitVec 20) : Laws.Coded.Statement (.amocas h dw sx d a b off) := by
  intro hw
  have b_dw := Bool.toNat_lt dw
  have b_sx := Bool.toNat_lt sx
  have b_d := d.isLt
  have b_a := a.isLt
  have b_b := b.isLt
  have b_off := off.isLt
  have f0 : bitsAt (loM b.val ((2 + dw.toNat)) sx.toNat 0 off.toNat) 28 6 = b.val := by simp only [bitsAt, loM]; omega
  have f1 : bitsAt (loM b.val ((2 + dw.toNat)) sx.toNat 0 off.toNat) 25 3 = ((2 + dw.toNat)) := by simp only [bitsAt, loM]; omega
  have f2 : bitsAt (loM b.val ((2 + dw.toNat)) sx.toNat 0 off.toNat) 24 1 = sx.toNat := by simp only [bitsAt, loM]; omega
  have f3 : bitsAt (loM b.val ((2 + dw.toNat)) sx.toNat 0 off.toNat) 0 20 = off.toNat := by simp only [bitsAt, loM]; omega
  have f4 : bitAt (2 + dw.toNat) 0 = dw := bitAt_eq (by omega)
  have f5 : bitAt (sx.toNat) 0 = sx := bitAt_eq (by omega)
  have f6 : BitVec.ofNat 20 (off.toNat) = off := ofNat_eq (by omega)
  refine decode_pack (h := h) (op := 0x36) (d := d.val) (a := a.val) (lo := loM b.val ((2 + dw.toNat)) sx.toNat 0 off.toNat) hw rfl (by decide) (by omega) (by omega) (by simp only [loM]; omega) ?_
  simp [build, build3, f0, f1, f2, f3, f4, f5, f6]

theorem Laws.Coded.red (h : Hd) (k : AmoK) (dw : Bool) (d : Fin 64) (a : Fin 64) (off : BitVec 20) : Laws.Coded.Statement (.red h k dw d a off) := by
  intro hw
  have b_k := k.code_lt
  have b_dw := Bool.toNat_lt dw
  have b_d := d.isLt
  have b_a := a.isLt
  have b_off := off.isLt
  have f0 : bitsAt (loM 0 ((2 + dw.toNat)) 0 k.code off.toNat) 25 3 = ((2 + dw.toNat)) := by simp only [bitsAt, loM]; omega
  have f1 : bitsAt (loM 0 ((2 + dw.toNat)) 0 k.code off.toNat) 20 4 = k.code := by simp only [bitsAt, loM]; omega
  have f2 : bitsAt (loM 0 ((2 + dw.toNat)) 0 k.code off.toNat) 0 20 = off.toNat := by simp only [bitsAt, loM]; omega
  have f3 : bitsAt (k.code) 0 4 = k.code := by simp only [bitsAt]; omega
  have f4 : bitAt (2 + dw.toNat) 0 = dw := bitAt_eq (by omega)
  have f5 : BitVec.ofNat 20 (off.toNat) = off := ofNat_eq (by omega)
  refine decode_pack (h := h) (op := 0x37) (d := d.val) (a := a.val) (lo := loM 0 ((2 + dw.toNat)) 0 k.code off.toNat) hw rfl (by decide) (by omega) (by omega) (by simp only [loM]; omega) ?_
  simp [build, build3, f0, f1, f2, f3, f4, f5]

theorem Laws.Coded.fas (h : Hd) (t : EType) (d : Fin 64) (a : Fin 64) (b : Fin 64) (off : BitVec 14) : Laws.Coded.Statement (.fas h t d a b off) := by
  intro hw
  have b_t := t.code_lt
  have b_d := d.isLt
  have b_a := a.isLt
  have b_b := b.isLt
  have b_off := off.isLt
  have f0 : bitsAt (loW b.val 0 t.code 0 off.toNat) 28 6 = b.val := by simp only [bitsAt, loW]; omega
  have f1 : bitsAt (loW b.val 0 t.code 0 off.toNat) 18 4 = t.code := by simp only [bitsAt, loW]; omega
  have f2 : bitsAt (loW b.val 0 t.code 0 off.toNat) 0 14 = off.toNat := by simp only [bitsAt, loW]; omega
  have f3 : BitVec.ofNat 14 (off.toNat) = off := ofNat_eq (by omega)
  refine decode_pack (h := h) (op := 0x38) (d := d.val) (a := a.val) (lo := loW b.val 0 t.code 0 off.toNat) hw rfl (by decide) (by omega) (by omega) (by simp only [loW]; omega) ?_
  simp [build, build3, f0, f1, f2, f3]

theorem Laws.Coded.fence (h : Hd) : Laws.Coded.Statement (.fence h) := by
  intro hw
  have f0 : bitsAt (loS 0 0 0) 14 8 = 0 := by simp only [bitsAt, loS]; omega
  refine decode_pack (h := h) (op := 0x39) (d := 0) (a := 0) (lo := loS 0 0 0) hw rfl (by decide) (by omega) (by omega) (by decide) ?_
  simp [build, build3, f0]

theorem Laws.Coded.fenceWl (h : Hd) : Laws.Coded.Statement (.fenceWl h) := by
  intro hw
  have f0 : bitsAt (loS 0 0 1) 14 8 = 1 := by simp only [bitsAt, loS]; omega
  refine decode_pack (h := h) (op := 0x39) (d := 0) (a := 0) (lo := loS 0 0 1) hw rfl (by decide) (by omega) (by omega) (by decide) ?_
  simp [build, build3, f0]

theorem Laws.Coded.fenceXa (h : Hd) : Laws.Coded.Statement (.fenceXa h) := by
  intro hw
  have f0 : bitsAt (loS 0 0 2) 14 8 = 2 := by simp only [bitsAt, loS]; omega
  refine decode_pack (h := h) (op := 0x39) (d := 0) (a := 0) (lo := loS 0 0 2) hw rfl (by decide) (by omega) (by omega) (by decide) ?_
  simp [build, build3, f0]

theorem Laws.Coded.barInit (h : Hd) (a : Fin 64) (b : Fin 64) : Laws.Coded.Statement (.barInit h a b) := by
  intro hw
  have b_a := a.isLt
  have b_b := b.isLt
  have f0 : bitsAt (loS b.val 0 0) 28 6 = b.val := by simp only [bitsAt, loS]; omega
  refine decode_pack (h := h) (op := 0x3a) (d := 0) (a := a.val) (lo := loS b.val 0 0) hw rfl (by decide) (by omega) (by omega) (by simp only [loS]; omega) ?_
  simp [build, build3, f0]

theorem Laws.Coded.barArv (h : Hd) (n : Bool) (d : Fin 64) (a : Fin 64) (b : Fin 64) : Laws.Coded.Statement (.barArv h n d a b) := by
  intro hw
  have b_n := Bool.toNat_lt n
  have b_d := d.isLt
  have b_a := a.isLt
  have b_b := b.isLt
  have f0 : bitsAt (loS b.val 0 n.toNat) 28 6 = b.val := by simp only [bitsAt, loS]; omega
  have f1 : bitsAt (loS b.val 0 n.toNat) 14 8 = n.toNat := by simp only [bitsAt, loS]; omega
  have f2 : bitAt (n.toNat) 0 = n := bitAt_eq (by omega)
  refine decode_pack (h := h) (op := 0x3b) (d := d.val) (a := a.val) (lo := loS b.val 0 n.toNat) hw rfl (by decide) (by omega) (by omega) (by simp only [loS]; omega) ?_
  simp [build, build3, f0, f1, f2]

theorem Laws.Coded.barExp (h : Hd) (a : Fin 64) (b : Fin 64) : Laws.Coded.Statement (.barExp h a b) := by
  intro hw
  have b_a := a.isLt
  have b_b := b.isLt
  have f0 : bitsAt (loS b.val 0 0) 28 6 = b.val := by simp only [bitsAt, loS]; omega
  refine decode_pack (h := h) (op := 0x3c) (d := 0) (a := a.val) (lo := loS b.val 0 0) hw rfl (by decide) (by omega) (by omega) (by simp only [loS]; omega) ?_
  simp [build, build3, f0]

theorem Laws.Coded.barWt (h : Hd) (d : Fin 64) (a : Fin 64) (b : Fin 64) : Laws.Coded.Statement (.barWt h d a b) := by
  intro hw
  have b_d := d.isLt
  have b_a := a.isLt
  have b_b := b.isLt
  have f0 : bitsAt (loS b.val 0 0) 28 6 = b.val := by simp only [bitsAt, loS]; omega
  refine decode_pack (h := h) (op := 0x3d) (d := d.val) (a := a.val) (lo := loS b.val 0 0) hw rfl (by decide) (by omega) (by omega) (by simp only [loS]; omega) ?_
  simp [build, build3, f0]

theorem Laws.Coded.barTwt (h : Hd) (d : Fin 64) (a : Fin 64) (b : Fin 64) (e : Fin 64) : Laws.Coded.Statement (.barTwt h d a b e) := by
  intro hw
  have b_d := d.isLt
  have b_a := a.isLt
  have b_b := b.isLt
  have b_e := e.isLt
  have f0 : bitsAt (loS b.val e.val 0) 28 6 = b.val := by simp only [bitsAt, loS]; omega
  have f1 : bitsAt (loS b.val e.val 0) 22 6 = e.val := by simp only [bitsAt, loS]; omega
  refine decode_pack (h := h) (op := 0x3e) (d := d.val) (a := a.val) (lo := loS b.val e.val 0) hw rfl (by decide) (by omega) (by omega) (by simp only [loS]; omega) ?_
  simp [build, build3, f0, f1]

theorem Laws.Coded.barTwtDeadline : Laws.Coded.Statement .barTwtDeadline := fun _ => trivial


theorem Laws.Coded.tileStRd (h : Hd) (d : Fin 64) (t : BitVec 8) : Laws.Coded.Statement (.tileStRd h d t) := by
  intro hw
  have b_d := d.isLt
  have b_t := t.isLt
  have f0 : bitsAt (loE 0 0 0 t.toNat 0) 8 8 = t.toNat := by simp only [bitsAt, loE]; omega
  have f1 : bitsAt (loE 0 0 0 t.toNat 0) 0 8 = 0 := by simp only [bitsAt, loE]; omega
  have f2 : BitVec.ofNat 8 (t.toNat) = t := ofNat_eq (by omega)
  refine decode_pack (h := h) (op := 0x3f) (d := d.val) (a := 0) (lo := loE 0 0 0 t.toNat 0) hw rfl (by decide) (by omega) (by omega) (by simp only [loE]; omega) ?_
  simp [build, build3, f0, f1, f2]

theorem Laws.Coded.tileStArm (h : Hd) (d : Fin 64) (a : Fin 64) (t : BitVec 8) : Laws.Coded.Statement (.tileStArm h d a t) := by
  intro hw
  have b_d := d.isLt
  have b_a := a.isLt
  have b_t := t.isLt
  have f0 : bitsAt (loE 0 0 0 t.toNat 1) 8 8 = t.toNat := by simp only [bitsAt, loE]; omega
  have f1 : bitsAt (loE 0 0 0 t.toNat 1) 0 8 = 1 := by simp only [bitsAt, loE]; omega
  have f2 : BitVec.ofNat 8 (t.toNat) = t := ofNat_eq (by omega)
  refine decode_pack (h := h) (op := 0x3f) (d := d.val) (a := a.val) (lo := loE 0 0 0 t.toNat 1) hw rfl (by decide) (by omega) (by omega) (by simp only [loE]; omega) ?_
  simp [build, build3, f0, f1, f2]

theorem Laws.Coded.tileStDone (h : Hd) (d : Fin 64) (t : BitVec 8) : Laws.Coded.Statement (.tileStDone h d t) := by
  intro hw
  have b_d := d.isLt
  have b_t := t.isLt
  have f0 : bitsAt (loE 0 0 0 t.toNat 2) 8 8 = t.toNat := by simp only [bitsAt, loE]; omega
  have f1 : bitsAt (loE 0 0 0 t.toNat 2) 0 8 = 2 := by simp only [bitsAt, loE]; omega
  have f2 : BitVec.ofNat 8 (t.toNat) = t := ofNat_eq (by omega)
  refine decode_pack (h := h) (op := 0x3f) (d := d.val) (a := 0) (lo := loE 0 0 0 t.toNat 2) hw rfl (by decide) (by omega) (by omega) (by simp only [loE]; omega) ?_
  simp [build, build3, f0, f1, f2]

theorem Laws.Coded.tileStAbort (h : Hd) (d : Fin 64) (t : BitVec 8) : Laws.Coded.Statement (.tileStAbort h d t) := by
  intro hw
  have b_d := d.isLt
  have b_t := t.isLt
  have f0 : bitsAt (loE 0 0 0 t.toNat 3) 8 8 = t.toNat := by simp only [bitsAt, loE]; omega
  have f1 : bitsAt (loE 0 0 0 t.toNat 3) 0 8 = 3 := by simp only [bitsAt, loE]; omega
  have f2 : BitVec.ofNat 8 (t.toNat) = t := ofNat_eq (by omega)
  refine decode_pack (h := h) (op := 0x3f) (d := d.val) (a := 0) (lo := loE 0 0 0 t.toNat 3) hw rfl (by decide) (by omega) (by omega) (by simp only [loE]; omega) ?_
  simp [build, build3, f0, f1, f2]

theorem Laws.Coded.tileStRel (h : Hd) (d : Fin 64) (t : BitVec 8) : Laws.Coded.Statement (.tileStRel h d t) := by
  intro hw
  have b_d := d.isLt
  have b_t := t.isLt
  have f0 : bitsAt (loE 0 0 0 t.toNat 4) 8 8 = t.toNat := by simp only [bitsAt, loE]; omega
  have f1 : bitsAt (loE 0 0 0 t.toNat 4) 0 8 = 4 := by simp only [bitsAt, loE]; omega
  have f2 : BitVec.ofNat 8 (t.toNat) = t := ofNat_eq (by omega)
  refine decode_pack (h := h) (op := 0x3f) (d := d.val) (a := 0) (lo := loE 0 0 0 t.toNat 4) hw rfl (by decide) (by omega) (by omega) (by simp only [loE]; omega) ?_
  simp [build, build3, f0, f1, f2]

theorem Laws.Coded.tileWt (h : Hd) (d : Fin 64) (t : BitVec 8) : Laws.Coded.Statement (.tileWt h d t) := by
  intro hw
  have b_d := d.isLt
  have b_t := t.isLt
  have f0 : bitsAt (loE 0 0 0 t.toNat 0) 8 8 = t.toNat := by simp only [bitsAt, loE]; omega
  have f1 : BitVec.ofNat 8 (t.toNat) = t := ofNat_eq (by omega)
  refine decode_pack (h := h) (op := 0x40) (d := d.val) (a := 0) (lo := loE 0 0 0 t.toNat 0) hw rfl (by decide) (by omega) (by omega) (by simp only [loE]; omega) ?_
  simp [build, build4, f0, f1]

theorem Laws.Coded.wlb (h : Hd) (d : Fin 64) (a : Fin 64) : Laws.Coded.Statement (.wlb h d a) := by
  intro hw
  have b_d := d.isLt
  have b_a := a.isLt
  have f0 : bitsAt (loS 0 0 0) 14 8 = 0 := by simp only [bitsAt, loS]; omega
  refine decode_pack (h := h) (op := 0x41) (d := d.val) (a := a.val) (lo := loS 0 0 0) hw rfl (by decide) (by omega) (by omega) (by decide) ?_
  simp [build, build4, f0]

theorem Laws.Coded.wlbWt (h : Hd) (a : Fin 64) (b : Fin 64) : Laws.Coded.Statement (.wlbWt h a b) := by
  intro hw
  have b_a := a.isLt
  have b_b := b.isLt
  have f0 : bitsAt (loS b.val 0 1) 28 6 = b.val := by simp only [bitsAt, loS]; omega
  have f1 : bitsAt (loS b.val 0 1) 14 8 = 1 := by simp only [bitsAt, loS]; omega
  refine decode_pack (h := h) (op := 0x41) (d := 0) (a := a.val) (lo := loS b.val 0 1) hw rfl (by decide) (by omega) (by omega) (by simp only [loS]; omega) ?_
  simp [build, build4, f0, f1]

theorem Laws.Coded.writeLanePerform (port : Port) : Laws.Coded.Statement (.writeLanePerform port) := fun _ => trivial


theorem Laws.Coded.wlbudRefill : Laws.Coded.Statement .wlbudRefill := fun _ => trivial


theorem Laws.Coded.vsetl (h : Hd) (g : BitVec 2) (mx : Bool) (t : EType) (live : BitVec 8) (d : Fin 64) (a : Fin 64) : Laws.Coded.Statement (.vsetl h g mx t live d a) := by
  intro hw
  have b_g := g.isLt
  have b_mx := Bool.toNat_lt mx
  have b_t := t.code_lt
  have b_live := live.isLt
  have b_d := d.isLt
  have b_a := a.isLt
  have f0 : bitsAt (loV 0 0 0 0 t.code (g.toNat + mx.toNat * 4) live.toNat) 14 4 = t.code := by simp only [bitsAt, loV]; omega
  have f1 : bitsAt (loV 0 0 0 0 t.code (g.toNat + mx.toNat * 4) live.toNat) 8 6 = (g.toNat + mx.toNat * 4) := by simp only [bitsAt, loV]; omega
  have f2 : bitsAt (loV 0 0 0 0 t.code (g.toNat + mx.toNat * 4) live.toNat) 0 8 = live.toNat := by simp only [bitsAt, loV]; omega
  have f3 : BitVec.ofNat 2 (g.toNat + mx.toNat * 4) = g := ofNat_eq (by omega)
  have f4 : bitAt (g.toNat + mx.toNat * 4) 2 = mx := bitAt_eq (by omega)
  have f5 : BitVec.ofNat 8 (live.toNat) = live := ofNat_eq (by omega)
  refine decode_pack (h := h) (op := 0x50) (d := d.val) (a := a.val) (lo := loV 0 0 0 0 t.code (g.toNat + mx.toNat * 4) live.toNat) hw rfl (by decide) (by omega) (by omega) (by simp only [loV]; omega) ?_
  simp [build, build5, f0, f1, f2, f3, f4, f5]

theorem Laws.Coded.vld (h : Hd) (t : EType) (d : Fin 64) (a : Fin 64) (off : BitVec 14) : Laws.Coded.Statement (.vld h t d a off) := by
  intro hw
  have b_t := t.code_lt
  have b_d := d.isLt
  have b_a := a.isLt
  have b_off := off.isLt
  have f0 : bitsAt (loW 0 0 t.code 0 off.toNat) 18 4 = t.code := by simp only [bitsAt, loW]; omega
  have f1 : bitsAt (loW 0 0 t.code 0 off.toNat) 0 14 = off.toNat := by simp only [bitsAt, loW]; omega
  have f2 : BitVec.ofNat 14 (off.toNat) = off := ofNat_eq (by omega)
  refine decode_pack (h := h) (op := 0x51) (d := d.val) (a := a.val) (lo := loW 0 0 t.code 0 off.toNat) hw rfl (by decide) (by omega) (by omega) (by simp only [loW]; omega) ?_
  simp [build, build5, f0, f1, f2]

theorem Laws.Coded.vlds (h : Hd) (t : EType) (d : Fin 64) (a : Fin 64) (b : Fin 64) (off : BitVec 14) : Laws.Coded.Statement (.vlds h t d a b off) := by
  intro hw
  have b_t := t.code_lt
  have b_d := d.isLt
  have b_a := a.isLt
  have b_b := b.isLt
  have b_off := off.isLt
  have f0 : bitsAt (loW b.val 0 t.code 0 off.toNat) 28 6 = b.val := by simp only [bitsAt, loW]; omega
  have f1 : bitsAt (loW b.val 0 t.code 0 off.toNat) 18 4 = t.code := by simp only [bitsAt, loW]; omega
  have f2 : bitsAt (loW b.val 0 t.code 0 off.toNat) 0 14 = off.toNat := by simp only [bitsAt, loW]; omega
  have f3 : BitVec.ofNat 14 (off.toNat) = off := ofNat_eq (by omega)
  refine decode_pack (h := h) (op := 0x52) (d := d.val) (a := a.val) (lo := loW b.val 0 t.code 0 off.toNat) hw rfl (by decide) (by omega) (by omega) (by simp only [loW]; omega) ?_
  simp [build, build5, f0, f1, f2, f3]

theorem Laws.Coded.vldx (h : Hd) (t : EType) (it : IdxT) (s : BitVec 2) (d : Fin 64) (a : Fin 64) (b : Fin 64) (pm : Fin 64) (off : BitVec 14) : Laws.Coded.Statement (.vldx h t it s d a b pm off) := by
  intro hw
  have b_t := t.code_lt
  have b_it := it.code_lt
  have b_s := s.isLt
  have b_d := d.isLt
  have b_a := a.isLt
  have b_b := b.isLt
  have b_pm := pm.isLt
  have b_off := off.isLt
  have f0 : bitsAt (loW b.val pm.val t.code (it.code * 4 + s.toNat) off.toNat) 28 6 = b.val := by simp only [bitsAt, loW]; omega
  have f1 : bitsAt (loW b.val pm.val t.code (it.code * 4 + s.toNat) off.toNat) 22 6 = pm.val := by simp only [bitsAt, loW]; omega
  have f2 : bitsAt (loW b.val pm.val t.code (it.code * 4 + s.toNat) off.toNat) 18 4 = t.code := by simp only [bitsAt, loW]; omega
  have f3 : bitsAt (loW b.val pm.val t.code (it.code * 4 + s.toNat) off.toNat) 14 4 = (it.code * 4 + s.toNat) := by simp only [bitsAt, loW]; omega
  have f4 : bitsAt (loW b.val pm.val t.code (it.code * 4 + s.toNat) off.toNat) 0 14 = off.toNat := by simp only [bitsAt, loW]; omega
  have f5 : bitsAt (it.code * 4 + s.toNat) 2 2 = it.code := by simp only [bitsAt]; omega
  have f6 : BitVec.ofNat 2 (it.code * 4 + s.toNat) = s := ofNat_eq (by omega)
  have f7 : BitVec.ofNat 14 (off.toNat) = off := ofNat_eq (by omega)
  refine decode_pack (h := h) (op := 0x53) (d := d.val) (a := a.val) (lo := loW b.val pm.val t.code (it.code * 4 + s.toNat) off.toNat) hw rfl (by decide) (by omega) (by omega) (by simp only [loW]; omega) ?_
  simp [build, build5, f0, f1, f2, f3, f4, f5, f6, f7]

theorem Laws.Coded.vst (h : Hd) (t : EType) (d : Fin 64) (a : Fin 64) (off : BitVec 14) : Laws.Coded.Statement (.vst h t d a off) := by
  intro hw
  have b_t := t.code_lt
  have b_d := d.isLt
  have b_a := a.isLt
  have b_off := off.isLt
  have f0 : bitsAt (loW 0 0 t.code 0 off.toNat) 18 4 = t.code := by simp only [bitsAt, loW]; omega
  have f1 : bitsAt (loW 0 0 t.code 0 off.toNat) 0 14 = off.toNat := by simp only [bitsAt, loW]; omega
  have f2 : BitVec.ofNat 14 (off.toNat) = off := ofNat_eq (by omega)
  refine decode_pack (h := h) (op := 0x54) (d := d.val) (a := a.val) (lo := loW 0 0 t.code 0 off.toNat) hw rfl (by decide) (by omega) (by omega) (by simp only [loW]; omega) ?_
  simp [build, build5, f0, f1, f2]

theorem Laws.Coded.vsts (h : Hd) (t : EType) (d : Fin 64) (a : Fin 64) (b : Fin 64) (off : BitVec 14) : Laws.Coded.Statement (.vsts h t d a b off) := by
  intro hw
  have b_t := t.code_lt
  have b_d := d.isLt
  have b_a := a.isLt
  have b_b := b.isLt
  have b_off := off.isLt
  have f0 : bitsAt (loW b.val 0 t.code 0 off.toNat) 28 6 = b.val := by simp only [bitsAt, loW]; omega
  have f1 : bitsAt (loW b.val 0 t.code 0 off.toNat) 18 4 = t.code := by simp only [bitsAt, loW]; omega
  have f2 : bitsAt (loW b.val 0 t.code 0 off.toNat) 0 14 = off.toNat := by simp only [bitsAt, loW]; omega
  have f3 : BitVec.ofNat 14 (off.toNat) = off := ofNat_eq (by omega)
  refine decode_pack (h := h) (op := 0x55) (d := d.val) (a := a.val) (lo := loW b.val 0 t.code 0 off.toNat) hw rfl (by decide) (by omega) (by omega) (by simp only [loW]; omega) ?_
  simp [build, build5, f0, f1, f2, f3]

theorem Laws.Coded.vstx (h : Hd) (t : EType) (it : IdxT) (s : BitVec 2) (d : Fin 64) (a : Fin 64) (b : Fin 64) (off : BitVec 14) : Laws.Coded.Statement (.vstx h t it s d a b off) := by
  intro hw
  have b_t := t.code_lt
  have b_it := it.code_lt
  have b_s := s.isLt
  have b_d := d.isLt
  have b_a := a.isLt
  have b_b := b.isLt
  have b_off := off.isLt
  have f0 : bitsAt (loW b.val 0 t.code (it.code * 4 + s.toNat) off.toNat) 28 6 = b.val := by simp only [bitsAt, loW]; omega
  have f1 : bitsAt (loW b.val 0 t.code (it.code * 4 + s.toNat) off.toNat) 18 4 = t.code := by simp only [bitsAt, loW]; omega
  have f2 : bitsAt (loW b.val 0 t.code (it.code * 4 + s.toNat) off.toNat) 14 4 = (it.code * 4 + s.toNat) := by simp only [bitsAt, loW]; omega
  have f3 : bitsAt (loW b.val 0 t.code (it.code * 4 + s.toNat) off.toNat) 0 14 = off.toNat := by simp only [bitsAt, loW]; omega
  have f4 : bitsAt (it.code * 4 + s.toNat) 2 2 = it.code := by simp only [bitsAt]; omega
  have f5 : BitVec.ofNat 2 (it.code * 4 + s.toNat) = s := ofNat_eq (by omega)
  have f6 : BitVec.ofNat 14 (off.toNat) = off := ofNat_eq (by omega)
  refine decode_pack (h := h) (op := 0x56) (d := d.val) (a := a.val) (lo := loW b.val 0 t.code (it.code * 4 + s.toNat) off.toNat) hw rfl (by decide) (by omega) (by omega) (by simp only [loW]; omega) ?_
  simp [build, build5, f0, f1, f2, f3, f4, f5, f6]

theorem Laws.Coded.vldq (h : Hd) (t : EType) (d : Fin 64) (a : Fin 64) : Laws.Coded.Statement (.vldq h t d a) := by
  intro hw
  have b_t := t.code_lt
  have b_d := d.isLt
  have b_a := a.isLt
  have f0 : bitsAt (loW 0 0 t.code 0 0) 18 4 = t.code := by simp only [bitsAt, loW]; omega
  refine decode_pack (h := h) (op := 0x57) (d := d.val) (a := a.val) (lo := loW 0 0 t.code 0 0) hw rfl (by decide) (by omega) (by omega) (by simp only [loW]; omega) ?_
  simp [build, build5, f0]

theorem Laws.Coded.vadd (h : Hd) (s : Bool) (vx : Bool) (rm : Rm) (d : Fin 64) (a : Fin 64) (b : Fin 64) : Laws.Coded.Statement (.vadd h s vx rm d a b) := by
  intro hw
  have b_s := Bool.toNat_lt s
  have b_vx := Bool.toNat_lt vx
  have b_rm := rm.code_lt
  have b_d := d.isLt
  have b_a := a.isLt
  have b_b := b.isLt
  have f0 : bitsAt (loV b.val 0 rm.code 0 0 (s.toNat * 2 + vx.toNat) 0) 28 6 = b.val := by simp only [bitsAt, loV]; omega
  have f1 : bitsAt (loV b.val 0 rm.code 0 0 (s.toNat * 2 + vx.toNat) 0) 20 2 = rm.code := by simp only [bitsAt, loV]; omega
  have f2 : bitsAt (loV b.val 0 rm.code 0 0 (s.toNat * 2 + vx.toNat) 0) 8 6 = (s.toNat * 2 + vx.toNat) := by simp only [bitsAt, loV]; omega
  have f3 : bitAt (s.toNat * 2 + vx.toNat) 1 = s := bitAt_eq (by omega)
  have f4 : bitAt (s.toNat * 2 + vx.toNat) 0 = vx := bitAt_eq (by omega)
  refine decode_pack (h := h) (op := 0x58) (d := d.val) (a := a.val) (lo := loV b.val 0 rm.code 0 0 (s.toNat * 2 + vx.toNat) 0) hw rfl (by decide) (by omega) (by omega) (by simp only [loV]; omega) ?_
  simp [build, build5, f0, f1, f2, f3, f4]

theorem Laws.Coded.vsub (h : Hd) (s : Bool) (vx : Bool) (rm : Rm) (d : Fin 64) (a : Fin 64) (b : Fin 64) : Laws.Coded.Statement (.vsub h s vx rm d a b) := by
  intro hw
  have b_s := Bool.toNat_lt s
  have b_vx := Bool.toNat_lt vx
  have b_rm := rm.code_lt
  have b_d := d.isLt
  have b_a := a.isLt
  have b_b := b.isLt
  have f0 : bitsAt (loV b.val 0 rm.code 0 0 (s.toNat * 2 + vx.toNat) 0) 28 6 = b.val := by simp only [bitsAt, loV]; omega
  have f1 : bitsAt (loV b.val 0 rm.code 0 0 (s.toNat * 2 + vx.toNat) 0) 20 2 = rm.code := by simp only [bitsAt, loV]; omega
  have f2 : bitsAt (loV b.val 0 rm.code 0 0 (s.toNat * 2 + vx.toNat) 0) 8 6 = (s.toNat * 2 + vx.toNat) := by simp only [bitsAt, loV]; omega
  have f3 : bitAt (s.toNat * 2 + vx.toNat) 1 = s := bitAt_eq (by omega)
  have f4 : bitAt (s.toNat * 2 + vx.toNat) 0 = vx := bitAt_eq (by omega)
  refine decode_pack (h := h) (op := 0x59) (d := d.val) (a := a.val) (lo := loV b.val 0 rm.code 0 0 (s.toNat * 2 + vx.toNat) 0) hw rfl (by decide) (by omega) (by omega) (by simp only [loV]; omega) ?_
  simp [build, build5, f0, f1, f2, f3, f4]

theorem Laws.Coded.vmul (h : Hd) (s : Bool) (vx : Bool) (rm : Rm) (d : Fin 64) (a : Fin 64) (b : Fin 64) : Laws.Coded.Statement (.vmul h s vx rm d a b) := by
  intro hw
  have b_s := Bool.toNat_lt s
  have b_vx := Bool.toNat_lt vx
  have b_rm := rm.code_lt
  have b_d := d.isLt
  have b_a := a.isLt
  have b_b := b.isLt
  have f0 : bitsAt (loV b.val 0 rm.code 0 0 (s.toNat * 2 + vx.toNat) 0) 28 6 = b.val := by simp only [bitsAt, loV]; omega
  have f1 : bitsAt (loV b.val 0 rm.code 0 0 (s.toNat * 2 + vx.toNat) 0) 20 2 = rm.code := by simp only [bitsAt, loV]; omega
  have f2 : bitsAt (loV b.val 0 rm.code 0 0 (s.toNat * 2 + vx.toNat) 0) 8 6 = (s.toNat * 2 + vx.toNat) := by simp only [bitsAt, loV]; omega
  have f3 : bitAt (s.toNat * 2 + vx.toNat) 1 = s := bitAt_eq (by omega)
  have f4 : bitAt (s.toNat * 2 + vx.toNat) 0 = vx := bitAt_eq (by omega)
  refine decode_pack (h := h) (op := 0x5a) (d := d.val) (a := a.val) (lo := loV b.val 0 rm.code 0 0 (s.toNat * 2 + vx.toNat) 0) hw rfl (by decide) (by omega) (by omega) (by simp only [loV]; omega) ?_
  simp [build, build5, f0, f1, f2, f3, f4]

theorem Laws.Coded.vfma (h : Hd) (vx : Bool) (rm : Rm) (d : Fin 64) (a : Fin 64) (b : Fin 64) (e : Fin 64) : Laws.Coded.Statement (.vfma h vx rm d a b e) := by
  intro hw
  have b_vx := Bool.toNat_lt vx
  have b_rm := rm.code_lt
  have b_d := d.isLt
  have b_a := a.isLt
  have b_b := b.isLt
  have b_e := e.isLt
  have f0 : bitsAt (loV b.val e.val rm.code 0 0 vx.toNat 0) 28 6 = b.val := by simp only [bitsAt, loV]; omega
  have f1 : bitsAt (loV b.val e.val rm.code 0 0 vx.toNat 0) 22 6 = e.val := by simp only [bitsAt, loV]; omega
  have f2 : bitsAt (loV b.val e.val rm.code 0 0 vx.toNat 0) 20 2 = rm.code := by simp only [bitsAt, loV]; omega
  have f3 : bitsAt (loV b.val e.val rm.code 0 0 vx.toNat 0) 8 6 = vx.toNat := by simp only [bitsAt, loV]; omega
  have f4 : bitAt (vx.toNat) 0 = vx := bitAt_eq (by omega)
  refine decode_pack (h := h) (op := 0x5b) (d := d.val) (a := a.val) (lo := loV b.val e.val rm.code 0 0 vx.toNat 0) hw rfl (by decide) (by omega) (by omega) (by simp only [loV]; omega) ?_
  simp [build, build5, f0, f1, f2, f3, f4]

theorem Laws.Coded.vfms (h : Hd) (vx : Bool) (rm : Rm) (d : Fin 64) (a : Fin 64) (b : Fin 64) (e : Fin 64) : Laws.Coded.Statement (.vfms h vx rm d a b e) := by
  intro hw
  have b_vx := Bool.toNat_lt vx
  have b_rm := rm.code_lt
  have b_d := d.isLt
  have b_a := a.isLt
  have b_b := b.isLt
  have b_e := e.isLt
  have f0 : bitsAt (loV b.val e.val rm.code 0 0 vx.toNat 0) 28 6 = b.val := by simp only [bitsAt, loV]; omega
  have f1 : bitsAt (loV b.val e.val rm.code 0 0 vx.toNat 0) 22 6 = e.val := by simp only [bitsAt, loV]; omega
  have f2 : bitsAt (loV b.val e.val rm.code 0 0 vx.toNat 0) 20 2 = rm.code := by simp only [bitsAt, loV]; omega
  have f3 : bitsAt (loV b.val e.val rm.code 0 0 vx.toNat 0) 8 6 = vx.toNat := by simp only [bitsAt, loV]; omega
  have f4 : bitAt (vx.toNat) 0 = vx := bitAt_eq (by omega)
  refine decode_pack (h := h) (op := 0x5c) (d := d.val) (a := a.val) (lo := loV b.val e.val rm.code 0 0 vx.toNat 0) hw rfl (by decide) (by omega) (by omega) (by simp only [loV]; omega) ?_
  simp [build, build5, f0, f1, f2, f3, f4]

theorem Laws.Coded.vmin (h : Hd) (vx : Bool) (d : Fin 64) (a : Fin 64) (b : Fin 64) : Laws.Coded.Statement (.vmin h vx d a b) := by
  intro hw
  have b_vx := Bool.toNat_lt vx
  have b_d := d.isLt
  have b_a := a.isLt
  have b_b := b.isLt
  have f0 : bitsAt (loV b.val 0 0 0 0 vx.toNat 0) 28 6 = b.val := by simp only [bitsAt, loV]; omega
  have f1 : bitsAt (loV b.val 0 0 0 0 vx.toNat 0) 8 6 = vx.toNat := by simp only [bitsAt, loV]; omega
  have f2 : bitAt (vx.toNat) 0 = vx := bitAt_eq (by omega)
  refine decode_pack (h := h) (op := 0x5d) (d := d.val) (a := a.val) (lo := loV b.val 0 0 0 0 vx.toNat 0) hw rfl (by decide) (by omega) (by omega) (by simp only [loV]; omega) ?_
  simp [build, build5, f0, f1, f2]

theorem Laws.Coded.vmax (h : Hd) (vx : Bool) (d : Fin 64) (a : Fin 64) (b : Fin 64) : Laws.Coded.Statement (.vmax h vx d a b) := by
  intro hw
  have b_vx := Bool.toNat_lt vx
  have b_d := d.isLt
  have b_a := a.isLt
  have b_b := b.isLt
  have f0 : bitsAt (loV b.val 0 0 0 0 vx.toNat 0) 28 6 = b.val := by simp only [bitsAt, loV]; omega
  have f1 : bitsAt (loV b.val 0 0 0 0 vx.toNat 0) 8 6 = vx.toNat := by simp only [bitsAt, loV]; omega
  have f2 : bitAt (vx.toNat) 0 = vx := bitAt_eq (by omega)
  refine decode_pack (h := h) (op := 0x5e) (d := d.val) (a := a.val) (lo := loV b.val 0 0 0 0 vx.toNat 0) hw rfl (by decide) (by omega) (by omega) (by simp only [loV]; omega) ?_
  simp [build, build5, f0, f1, f2]

theorem Laws.Coded.vabs (h : Hd) (s : Bool) (d : Fin 64) (a : Fin 64) : Laws.Coded.Statement (.vabs h s d a) := by
  intro hw
  have b_s := Bool.toNat_lt s
  have b_d := d.isLt
  have b_a := a.isLt
  have f0 : bitsAt (loV 0 0 0 0 0 (s.toNat * 2) 0) 8 6 = (s.toNat * 2) := by simp only [bitsAt, loV]; omega
  have f1 : bitAt (s.toNat * 2) 1 = s := bitAt_eq (by omega)
  refine decode_pack (h := h) (op := 0x5f) (d := d.val) (a := a.val) (lo := loV 0 0 0 0 0 (s.toNat * 2) 0) hw rfl (by decide) (by omega) (by omega) (by simp only [loV]; omega) ?_
  simp [build, build5, f0, f1]

theorem Laws.Coded.vneg (h : Hd) (s : Bool) (d : Fin 64) (a : Fin 64) : Laws.Coded.Statement (.vneg h s d a) := by
  intro hw
  have b_s := Bool.toNat_lt s
  have b_d := d.isLt
  have b_a := a.isLt
  have f0 : bitsAt (loV 0 0 0 0 0 (s.toNat * 2) 0) 8 6 = (s.toNat * 2) := by simp only [bitsAt, loV]; omega
  have f1 : bitAt (s.toNat * 2) 1 = s := bitAt_eq (by omega)
  refine decode_pack (h := h) (op := 0x60) (d := d.val) (a := a.val) (lo := loV 0 0 0 0 0 (s.toNat * 2) 0) hw rfl (by decide) (by omega) (by omega) (by simp only [loV]; omega) ?_
  simp [build, build6, f0, f1]

theorem Laws.Coded.vand (h : Hd) (vx : Bool) (d : Fin 64) (a : Fin 64) (b : Fin 64) : Laws.Coded.Statement (.vand h vx d a b) := by
  intro hw
  have b_vx := Bool.toNat_lt vx
  have b_d := d.isLt
  have b_a := a.isLt
  have b_b := b.isLt
  have f0 : bitsAt (loV b.val 0 0 0 0 vx.toNat 0) 28 6 = b.val := by simp only [bitsAt, loV]; omega
  have f1 : bitsAt (loV b.val 0 0 0 0 vx.toNat 0) 8 6 = vx.toNat := by simp only [bitsAt, loV]; omega
  have f2 : bitAt (vx.toNat) 0 = vx := bitAt_eq (by omega)
  refine decode_pack (h := h) (op := 0x61) (d := d.val) (a := a.val) (lo := loV b.val 0 0 0 0 vx.toNat 0) hw rfl (by decide) (by omega) (by omega) (by simp only [loV]; omega) ?_
  simp [build, build6, f0, f1, f2]

theorem Laws.Coded.vor (h : Hd) (vx : Bool) (d : Fin 64) (a : Fin 64) (b : Fin 64) : Laws.Coded.Statement (.vor h vx d a b) := by
  intro hw
  have b_vx := Bool.toNat_lt vx
  have b_d := d.isLt
  have b_a := a.isLt
  have b_b := b.isLt
  have f0 : bitsAt (loV b.val 0 0 0 0 vx.toNat 0) 28 6 = b.val := by simp only [bitsAt, loV]; omega
  have f1 : bitsAt (loV b.val 0 0 0 0 vx.toNat 0) 8 6 = vx.toNat := by simp only [bitsAt, loV]; omega
  have f2 : bitAt (vx.toNat) 0 = vx := bitAt_eq (by omega)
  refine decode_pack (h := h) (op := 0x62) (d := d.val) (a := a.val) (lo := loV b.val 0 0 0 0 vx.toNat 0) hw rfl (by decide) (by omega) (by omega) (by simp only [loV]; omega) ?_
  simp [build, build6, f0, f1, f2]

theorem Laws.Coded.vxor (h : Hd) (vx : Bool) (d : Fin 64) (a : Fin 64) (b : Fin 64) : Laws.Coded.Statement (.vxor h vx d a b) := by
  intro hw
  have b_vx := Bool.toNat_lt vx
  have b_d := d.isLt
  have b_a := a.isLt
  have b_b := b.isLt
  have f0 : bitsAt (loV b.val 0 0 0 0 vx.toNat 0) 28 6 = b.val := by simp only [bitsAt, loV]; omega
  have f1 : bitsAt (loV b.val 0 0 0 0 vx.toNat 0) 8 6 = vx.toNat := by simp only [bitsAt, loV]; omega
  have f2 : bitAt (vx.toNat) 0 = vx := bitAt_eq (by omega)
  refine decode_pack (h := h) (op := 0x63) (d := d.val) (a := a.val) (lo := loV b.val 0 0 0 0 vx.toNat 0) hw rfl (by decide) (by omega) (by omega) (by simp only [loV]; omega) ?_
  simp [build, build6, f0, f1, f2]

theorem Laws.Coded.vsll (h : Hd) (k : Src2) (d : Fin 64) (a : Fin 64) (b : Fin 64) (imm : BitVec 8) : Laws.Coded.Statement (.vsll h k d a b imm) := by
  intro hw
  have b_k := src2Fn_lt k
  have b_d := d.isLt
  have b_a := a.isLt
  have b_b := b.isLt
  have b_imm := imm.isLt
  have f0 : bitsAt (loV b.val 0 0 0 0 (src2Fn k) imm.toNat) 28 6 = b.val := by simp only [bitsAt, loV]; omega
  have f1 : bitsAt (loV b.val 0 0 0 0 (src2Fn k) imm.toNat) 8 6 = (src2Fn k) := by simp only [bitsAt, loV]; omega
  have f2 : bitsAt (loV b.val 0 0 0 0 (src2Fn k) imm.toNat) 0 8 = imm.toNat := by simp only [bitsAt, loV]; omega
  have f3 : src2Of (src2Fn k) = some k := by cases k <;> rfl
  have f4 : BitVec.ofNat 8 (imm.toNat) = imm := ofNat_eq (by omega)
  refine decode_pack (h := h) (op := 0x64) (d := d.val) (a := a.val) (lo := loV b.val 0 0 0 0 (src2Fn k) imm.toNat) hw rfl (by decide) (by omega) (by omega) (by simp only [loV]; omega) ?_
  simp [build, build6, f0, f1, f2, f3, f4]

theorem Laws.Coded.vsrl (h : Hd) (k : Src2) (d : Fin 64) (a : Fin 64) (b : Fin 64) (imm : BitVec 8) : Laws.Coded.Statement (.vsrl h k d a b imm) := by
  intro hw
  have b_k := src2Fn_lt k
  have b_d := d.isLt
  have b_a := a.isLt
  have b_b := b.isLt
  have b_imm := imm.isLt
  have f0 : bitsAt (loV b.val 0 0 0 0 (src2Fn k) imm.toNat) 28 6 = b.val := by simp only [bitsAt, loV]; omega
  have f1 : bitsAt (loV b.val 0 0 0 0 (src2Fn k) imm.toNat) 8 6 = (src2Fn k) := by simp only [bitsAt, loV]; omega
  have f2 : bitsAt (loV b.val 0 0 0 0 (src2Fn k) imm.toNat) 0 8 = imm.toNat := by simp only [bitsAt, loV]; omega
  have f3 : src2Of (src2Fn k) = some k := by cases k <;> rfl
  have f4 : BitVec.ofNat 8 (imm.toNat) = imm := ofNat_eq (by omega)
  refine decode_pack (h := h) (op := 0x65) (d := d.val) (a := a.val) (lo := loV b.val 0 0 0 0 (src2Fn k) imm.toNat) hw rfl (by decide) (by omega) (by omega) (by simp only [loV]; omega) ?_
  simp [build, build6, f0, f1, f2, f3, f4]

theorem Laws.Coded.vsra (h : Hd) (k : Src2) (r : Bool) (rm : IRm) (d : Fin 64) (a : Fin 64) (b : Fin 64) (imm : BitVec 8) : Laws.Coded.Statement (.vsra h k r rm d a b imm) := by
  intro hw
  have b_k := src2Fn_lt k
  have b_r := Bool.toNat_lt r
  have b_rm := rm.code_lt
  have b_d := d.isLt
  have b_a := a.isLt
  have b_b := b.isLt
  have b_imm := imm.isLt
  have f0 : bitsAt (loV b.val 0 rm.code 0 0 (src2Fn k + r.toNat * 8) imm.toNat) 28 6 = b.val := by simp only [bitsAt, loV]; omega
  have f1 : bitsAt (loV b.val 0 rm.code 0 0 (src2Fn k + r.toNat * 8) imm.toNat) 20 2 = rm.code := by simp only [bitsAt, loV]; omega
  have f2 : bitsAt (loV b.val 0 rm.code 0 0 (src2Fn k + r.toNat * 8) imm.toNat) 8 6 = (src2Fn k + r.toNat * 8) := by simp only [bitsAt, loV]; omega
  have f3 : bitsAt (loV b.val 0 rm.code 0 0 (src2Fn k + r.toNat * 8) imm.toNat) 0 8 = imm.toNat := by simp only [bitsAt, loV]; omega
  have f4 : src2Of (src2Fn k + r.toNat * 8) = some k := by cases k <;> cases r <;> rfl
  have f5 : bitAt (src2Fn k + r.toNat * 8) 3 = r := bitAt_eq (by omega)
  have f6 : BitVec.ofNat 8 (imm.toNat) = imm := ofNat_eq (by omega)
  refine decode_pack (h := h) (op := 0x66) (d := d.val) (a := a.val) (lo := loV b.val 0 rm.code 0 0 (src2Fn k + r.toNat * 8) imm.toNat) hw rfl (by decide) (by omega) (by omega) (by simp only [loV]; omega) ?_
  simp [build, build6, f0, f1, f2, f3, f4, f5, f6]

theorem Laws.Coded.vmulh (h : Hd) (vx : Bool) (d : Fin 64) (a : Fin 64) (b : Fin 64) : Laws.Coded.Statement (.vmulh h vx d a b) := by
  intro hw
  have b_vx := Bool.toNat_lt vx
  have b_d := d.isLt
  have b_a := a.isLt
  have b_b := b.isLt
  have f0 : bitsAt (loV b.val 0 0 0 0 vx.toNat 0) 28 6 = b.val := by simp only [bitsAt, loV]; omega
  have f1 : bitsAt (loV b.val 0 0 0 0 vx.toNat 0) 8 6 = vx.toNat := by simp only [bitsAt, loV]; omega
  have f2 : bitAt (vx.toNat) 0 = vx := bitAt_eq (by omega)
  refine decode_pack (h := h) (op := 0x67) (d := d.val) (a := a.val) (lo := loV b.val 0 0 0 0 vx.toNat 0) hw rfl (by decide) (by omega) (by omega) (by simp only [loV]; omega) ?_
  simp [build, build6, f0, f1, f2]

theorem Laws.Coded.vdot2 (h : Hd) (s : Bool) (vx : Bool) (d : Fin 64) (a : Fin 64) (b : Fin 64) : Laws.Coded.Statement (.vdot2 h s vx d a b) := by
  intro hw
  have b_s := Bool.toNat_lt s
  have b_vx := Bool.toNat_lt vx
  have b_d := d.isLt
  have b_a := a.isLt
  have b_b := b.isLt
  have f0 : bitsAt (loV b.val 0 0 0 0 (s.toNat * 2 + vx.toNat) 0) 28 6 = b.val := by simp only [bitsAt, loV]; omega
  have f1 : bitsAt (loV b.val 0 0 0 0 (s.toNat * 2 + vx.toNat) 0) 8 6 = (s.toNat * 2 + vx.toNat) := by simp only [bitsAt, loV]; omega
  have f2 : bitAt (s.toNat * 2 + vx.toNat) 1 = s := bitAt_eq (by omega)
  have f3 : bitAt (s.toNat * 2 + vx.toNat) 0 = vx := bitAt_eq (by omega)
  refine decode_pack (h := h) (op := 0x68) (d := d.val) (a := a.val) (lo := loV b.val 0 0 0 0 (s.toNat * 2 + vx.toNat) 0) hw rfl (by decide) (by omega) (by omega) (by simp only [loV]; omega) ?_
  simp [build, build6, f0, f1, f2, f3]

theorem Laws.Coded.vmacw (h : Hd) (s : Bool) (rm : Rm) (d : Fin 64) (a : Fin 64) (b : Fin 64) : Laws.Coded.Statement (.vmacw h s rm d a b) := by
  intro hw
  have b_s := Bool.toNat_lt s
  have b_rm := rm.code_lt
  have b_d := d.isLt
  have b_a := a.isLt
  have b_b := b.isLt
  have f0 : bitsAt (loV b.val 0 rm.code 0 0 (s.toNat * 2) 0) 28 6 = b.val := by simp only [bitsAt, loV]; omega
  have f1 : bitsAt (loV b.val 0 rm.code 0 0 (s.toNat * 2) 0) 20 2 = rm.code := by simp only [bitsAt, loV]; omega
  have f2 : bitsAt (loV b.val 0 rm.code 0 0 (s.toNat * 2) 0) 8 6 = (s.toNat * 2) := by simp only [bitsAt, loV]; omega
  have f3 : bitAt (s.toNat * 2) 1 = s := bitAt_eq (by omega)
  refine decode_pack (h := h) (op := 0x69) (d := d.val) (a := a.val) (lo := loV b.val 0 rm.code 0 0 (s.toNat * 2) 0) hw rfl (by decide) (by omega) (by omega) (by simp only [loV]; omega) ?_
  simp [build, build6, f0, f1, f2, f3]

theorem Laws.Coded.vnarrow (h : Hd) (s : Bool) (t2 : EType) (rm : IRm) (n : BitVec 8) (d : Fin 64) (a : Fin 64) : Laws.Coded.Statement (.vnarrow h s t2 rm n d a) := by
  intro hw
  have b_s := Bool.toNat_lt s
  have b_t2 := t2.code_lt
  have b_rm := rm.code_lt
  have b_n := n.isLt
  have b_d := d.isLt
  have b_a := a.isLt
  have f0 : bitsAt (loV 0 0 rm.code 0 t2.code (s.toNat * 2) n.toNat) 20 2 = rm.code := by simp only [bitsAt, loV]; omega
  have f1 : bitsAt (loV 0 0 rm.code 0 t2.code (s.toNat * 2) n.toNat) 14 4 = t2.code := by simp only [bitsAt, loV]; omega
  have f2 : bitsAt (loV 0 0 rm.code 0 t2.code (s.toNat * 2) n.toNat) 8 6 = (s.toNat * 2) := by simp only [bitsAt, loV]; omega
  have f3 : bitsAt (loV 0 0 rm.code 0 t2.code (s.toNat * 2) n.toNat) 0 8 = n.toNat := by simp only [bitsAt, loV]; omega
  have f4 : bitAt (s.toNat * 2) 1 = s := bitAt_eq (by omega)
  have f5 : BitVec.ofNat 8 (n.toNat) = n := ofNat_eq (by omega)
  refine decode_pack (h := h) (op := 0x6a) (d := d.val) (a := a.val) (lo := loV 0 0 rm.code 0 t2.code (s.toNat * 2) n.toNat) hw rfl (by decide) (by omega) (by omega) (by simp only [loV]; omega) ?_
  simp [build, build6, f0, f1, f2, f3, f4, f5]

theorem Laws.Coded.vwiden (h : Hd) (t2 : EType) (d : Fin 64) (a : Fin 64) : Laws.Coded.Statement (.vwiden h t2 d a) := by
  intro hw
  have b_t2 := t2.code_lt
  have b_d := d.isLt
  have b_a := a.isLt
  have f0 : bitsAt (loV 0 0 0 0 t2.code 0 0) 14 4 = t2.code := by simp only [bitsAt, loV]; omega
  refine decode_pack (h := h) (op := 0x6b) (d := d.val) (a := a.val) (lo := loV 0 0 0 0 t2.code 0 0) hw rfl (by decide) (by omega) (by omega) (by simp only [loV]; omega) ?_
  simp [build, build6, f0]

theorem Laws.Coded.vcvt (h : Hd) (t2 : EType) (rm : Rm) (ov : Ov) (d : Fin 64) (a : Fin 64) : Laws.Coded.Statement (.vcvt h t2 rm ov d a) := by
  intro hw
  have b_t2 := t2.code_lt
  have b_rm := rm.code_lt
  have b_ov := ov.code_lt
  have b_d := d.isLt
  have b_a := a.isLt
  have f0 : bitsAt (loV 0 0 rm.code ov.code t2.code 0 0) 20 2 = rm.code := by simp only [bitsAt, loV]; omega
  have f1 : bitsAt (loV 0 0 rm.code ov.code t2.code 0 0) 18 2 = ov.code := by simp only [bitsAt, loV]; omega
  have f2 : bitsAt (loV 0 0 rm.code ov.code t2.code 0 0) 14 4 = t2.code := by simp only [bitsAt, loV]; omega
  refine decode_pack (h := h) (op := 0x6c) (d := d.val) (a := a.val) (lo := loV 0 0 rm.code ov.code t2.code 0 0) hw rfl (by decide) (by omega) (by omega) (by simp only [loV]; omega) ?_
  simp [build, build6, f0, f1, f2]

theorem Laws.Coded.vcmp (h : Hd) (k : VCond) (vx : Bool) (d : Fin 64) (a : Fin 64) (b : Fin 64) : Laws.Coded.Statement (.vcmp h k vx d a b) := by
  intro hw
  have b_k := k.code_lt
  have b_vx := Bool.toNat_lt vx
  have b_d := d.isLt
  have b_a := a.isLt
  have b_b := b.isLt
  have f0 : bitsAt (loV b.val 0 0 0 0 (k.code + vx.toNat * 8) 0) 28 6 = b.val := by simp only [bitsAt, loV]; omega
  have f1 : bitsAt (loV b.val 0 0 0 0 (k.code + vx.toNat * 8) 0) 8 6 = (k.code + vx.toNat * 8) := by simp only [bitsAt, loV]; omega
  have f2 : bitsAt (k.code + vx.toNat * 8) 0 3 = k.code := by simp only [bitsAt]; omega
  have f3 : bitAt (k.code + vx.toNat * 8) 3 = vx := bitAt_eq (by omega)
  refine decode_pack (h := h) (op := 0x6d) (d := d.val) (a := a.val) (lo := loV b.val 0 0 0 0 (k.code + vx.toNat * 8) 0) hw rfl (by decide) (by omega) (by omega) (by simp only [loV]; omega) ?_
  simp [build, build6, f0, f1, f2, f3]

theorem Laws.Coded.vsel (h : Hd) (d : Fin 64) (a : Fin 64) (b : Fin 64) (e : Fin 64) : Laws.Coded.Statement (.vsel h d a b e) := by
  intro hw
  have b_d := d.isLt
  have b_a := a.isLt
  have b_b := b.isLt
  have b_e := e.isLt
  have f0 : bitsAt (loV b.val e.val 0 0 0 0 0) 28 6 = b.val := by simp only [bitsAt, loV]; omega
  have f1 : bitsAt (loV b.val e.val 0 0 0 0 0) 22 6 = e.val := by simp only [bitsAt, loV]; omega
  refine decode_pack (h := h) (op := 0x6e) (d := d.val) (a := a.val) (lo := loV b.val e.val 0 0 0 0 0) hw rfl (by decide) (by omega) (by omega) (by simp only [loV]; omega) ?_
  simp [build, build6, f0, f1]

theorem Laws.Coded.vslide (h : Hd) (dn : Bool) (vi : Bool) (d : Fin 64) (a : Fin 64) (b : Fin 64) (imm : BitVec 8) : Laws.Coded.Statement (.vslide h dn vi d a b imm) := by
  intro hw
  have b_dn := Bool.toNat_lt dn
  have b_vi := Bool.toNat_lt vi
  have b_d := d.isLt
  have b_a := a.isLt
  have b_b := b.isLt
  have b_imm := imm.isLt
  have f0 : bitsAt (loV b.val 0 0 0 0 (dn.toNat + vi.toNat * 2) imm.toNat) 28 6 = b.val := by simp only [bitsAt, loV]; omega
  have f1 : bitsAt (loV b.val 0 0 0 0 (dn.toNat + vi.toNat * 2) imm.toNat) 8 6 = (dn.toNat + vi.toNat * 2) := by simp only [bitsAt, loV]; omega
  have f2 : bitsAt (loV b.val 0 0 0 0 (dn.toNat + vi.toNat * 2) imm.toNat) 0 8 = imm.toNat := by simp only [bitsAt, loV]; omega
  have f3 : bitAt (dn.toNat + vi.toNat * 2) 0 = dn := bitAt_eq (by omega)
  have f4 : bitAt (dn.toNat + vi.toNat * 2) 1 = vi := bitAt_eq (by omega)
  have f5 : BitVec.ofNat 8 (imm.toNat) = imm := ofNat_eq (by omega)
  refine decode_pack (h := h) (op := 0x6f) (d := d.val) (a := a.val) (lo := loV b.val 0 0 0 0 (dn.toNat + vi.toNat * 2) imm.toNat) hw rfl (by decide) (by omega) (by omega) (by simp only [loV]; omega) ?_
  simp [build, build6, f0, f1, f2, f3, f4, f5]

theorem Laws.Coded.vperm (h : Hd) (t2 : EType) (d : Fin 64) (a : Fin 64) (b : Fin 64) : Laws.Coded.Statement (.vperm h t2 d a b) := by
  intro hw
  have b_t2 := t2.code_lt
  have b_d := d.isLt
  have b_a := a.isLt
  have b_b := b.isLt
  have f0 : bitsAt (loV b.val 0 0 0 t2.code 0 0) 28 6 = b.val := by simp only [bitsAt, loV]; omega
  have f1 : bitsAt (loV b.val 0 0 0 t2.code 0 0) 14 4 = t2.code := by simp only [bitsAt, loV]; omega
  refine decode_pack (h := h) (op := 0x70) (d := d.val) (a := a.val) (lo := loV b.val 0 0 0 t2.code 0 0) hw rfl (by decide) (by omega) (by omega) (by simp only [loV]; omega) ?_
  simp [build, build7, f0, f1]

theorem Laws.Coded.vbcast (h : Hd) (d : Fin 64) (a : Fin 64) : Laws.Coded.Statement (.vbcast h d a) := by
  intro hw
  have b_d := d.isLt
  have b_a := a.isLt
  have f0 : bitsAt (loV 0 0 0 0 0 0 0) 8 6 = 0 := by simp only [bitsAt, loV]; omega
  refine decode_pack (h := h) (op := 0x71) (d := d.val) (a := a.val) (lo := loV 0 0 0 0 0 0 0) hw rfl (by decide) (by omega) (by omega) (by decide) ?_
  simp [build, build7, f0]

theorem Laws.Coded.vbcastEl (h : Hd) (d : Fin 64) (a : Fin 64) (b : Fin 64) : Laws.Coded.Statement (.vbcastEl h d a b) := by
  intro hw
  have b_d := d.isLt
  have b_a := a.isLt
  have b_b := b.isLt
  have f0 : bitsAt (loV b.val 0 0 0 0 1 0) 28 6 = b.val := by simp only [bitsAt, loV]; omega
  have f1 : bitsAt (loV b.val 0 0 0 0 1 0) 8 6 = 1 := by simp only [bitsAt, loV]; omega
  refine decode_pack (h := h) (op := 0x71) (d := d.val) (a := a.val) (lo := loV b.val 0 0 0 0 1 0) hw rfl (by decide) (by omega) (by omega) (by simp only [loV]; omega) ?_
  simp [build, build7, f0, f1]

theorem Laws.Coded.vmovx (h : Hd) (d : Fin 64) (a : Fin 64) (b : Fin 64) : Laws.Coded.Statement (.vmovx h d a b) := by
  intro hw
  have b_d := d.isLt
  have b_a := a.isLt
  have b_b := b.isLt
  have f0 : bitsAt (loV b.val 0 0 0 0 0 0) 28 6 = b.val := by simp only [bitsAt, loV]; omega
  have f1 : bitsAt (loV b.val 0 0 0 0 0 0) 8 6 = 0 := by simp only [bitsAt, loV]; omega
  refine decode_pack (h := h) (op := 0x72) (d := d.val) (a := a.val) (lo := loV b.val 0 0 0 0 0 0) hw rfl (by decide) (by omega) (by omega) (by simp only [loV]; omega) ?_
  simp [build, build7, f0, f1]

theorem Laws.Coded.vmovxV (h : Hd) (d : Fin 64) (a : Fin 64) (b : Fin 64) : Laws.Coded.Statement (.vmovxV h d a b) := by
  intro hw
  have b_d := d.isLt
  have b_a := a.isLt
  have b_b := b.isLt
  have f0 : bitsAt (loV b.val 0 0 0 0 1 0) 28 6 = b.val := by simp only [bitsAt, loV]; omega
  have f1 : bitsAt (loV b.val 0 0 0 0 1 0) 8 6 = 1 := by simp only [bitsAt, loV]; omega
  refine decode_pack (h := h) (op := 0x72) (d := d.val) (a := a.val) (lo := loV b.val 0 0 0 0 1 0) hw rfl (by decide) (by omega) (by omega) (by simp only [loV]; omega) ?_
  simp [build, build7, f0, f1]

theorem Laws.Coded.vred (h : Hd) (k : RedK) (d : Fin 64) (a : Fin 64) (b : Fin 64) : Laws.Coded.Statement (.vred h k d a b) := by
  intro hw
  have b_k := k.code_lt
  have b_d := d.isLt
  have b_a := a.isLt
  have b_b := b.isLt
  have f0 : bitsAt (loV b.val 0 0 0 0 k.code 0) 28 6 = b.val := by simp only [bitsAt, loV]; omega
  have f1 : bitsAt (loV b.val 0 0 0 0 k.code 0) 8 6 = k.code := by simp only [bitsAt, loV]; omega
  have f2 : bitsAt (k.code) 0 6 = k.code := by simp only [bitsAt]; omega
  refine decode_pack (h := h) (op := 0x73) (d := d.val) (a := a.val) (lo := loV b.val 0 0 0 0 k.code 0) hw rfl (by decide) (by omega) (by omega) (by simp only [loV]; omega) ?_
  simp [build, build7, f0, f1, f2]

theorem Laws.Coded.vredo (h : Hd) (d : Fin 64) (a : Fin 64) (b : Fin 64) : Laws.Coded.Statement (.vredo h d a b) := by
  intro hw
  have b_d := d.isLt
  have b_a := a.isLt
  have b_b := b.isLt
  have f0 : bitsAt (loV b.val 0 0 0 0 0 0) 28 6 = b.val := by simp only [bitsAt, loV]; omega
  refine decode_pack (h := h) (op := 0x74) (d := d.val) (a := a.val) (lo := loV b.val 0 0 0 0 0 0) hw rfl (by decide) (by omega) (by omega) (by simp only [loV]; omega) ?_
  simp [build, build7, f0]

theorem Laws.Coded.vscan (h : Hd) (ex : Bool) (d : Fin 64) (a : Fin 64) : Laws.Coded.Statement (.vscan h ex d a) := by
  intro hw
  have b_ex := Bool.toNat_lt ex
  have b_d := d.isLt
  have b_a := a.isLt
  have f0 : bitsAt (loV 0 0 0 0 0 ex.toNat 0) 8 6 = ex.toNat := by simp only [bitsAt, loV]; omega
  have f1 : bitAt (ex.toNat) 0 = ex := bitAt_eq (by omega)
  refine decode_pack (h := h) (op := 0x75) (d := d.val) (a := a.val) (lo := loV 0 0 0 0 0 ex.toNat 0) hw rfl (by decide) (by omega) (by omega) (by simp only [loV]; omega) ?_
  simp [build, build7, f0, f1]

theorem Laws.Coded.viota (h : Hd) (d : Fin 64) (a : Fin 64) : Laws.Coded.Statement (.viota h d a) := by
  intro hw
  have b_d := d.isLt
  have b_a := a.isLt
  have f0 : bitsAt (loV 0 0 0 0 0 0 0) 8 6 = 0 := by simp only [bitsAt, loV]; omega
  refine decode_pack (h := h) (op := 0x76) (d := d.val) (a := a.val) (lo := loV 0 0 0 0 0 0 0) hw rfl (by decide) (by omega) (by omega) (by decide) ?_
  simp [build, build7, f0]

theorem Laws.Coded.viotaIdx (h : Hd) (d : Fin 64) : Laws.Coded.Statement (.viotaIdx h d) := by
  intro hw
  have b_d := d.isLt
  have f0 : bitsAt (loV 0 0 0 0 0 1 0) 8 6 = 1 := by simp only [bitsAt, loV]; omega
  refine decode_pack (h := h) (op := 0x76) (d := d.val) (a := 0) (lo := loV 0 0 0 0 0 1 0) hw rfl (by decide) (by omega) (by omega) (by decide) ?_
  simp [build, build7, f0]

theorem Laws.Coded.vcompress (h : Hd) (d : Fin 64) (a : Fin 64) (b : Fin 64) : Laws.Coded.Statement (.vcompress h d a b) := by
  intro hw
  have b_d := d.isLt
  have b_a := a.isLt
  have b_b := b.isLt
  have f0 : bitsAt (loV b.val 0 0 0 0 0 0) 28 6 = b.val := by simp only [bitsAt, loV]; omega
  refine decode_pack (h := h) (op := 0x77) (d := d.val) (a := a.val) (lo := loV b.val 0 0 0 0 0 0) hw rfl (by decide) (by omega) (by omega) (by simp only [loV]; omega) ?_
  simp [build, build7, f0]

theorem Laws.Coded.vexpand (h : Hd) (d : Fin 64) (a : Fin 64) (b : Fin 64) : Laws.Coded.Statement (.vexpand h d a b) := by
  intro hw
  have b_d := d.isLt
  have b_a := a.isLt
  have b_b := b.isLt
  have f0 : bitsAt (loV b.val 0 0 0 0 0 0) 28 6 = b.val := by simp only [bitsAt, loV]; omega
  refine decode_pack (h := h) (op := 0x78) (d := d.val) (a := a.val) (lo := loV b.val 0 0 0 0 0 0) hw rfl (by decide) (by omega) (by omega) (by simp only [loV]; omega) ?_
  simp [build, build7, f0]

theorem Laws.Coded.vsfu (h : Hd) (k : SfuK) (rm : Rm) (d : Fin 64) (a : Fin 64) : Laws.Coded.Statement (.vsfu h k rm d a) := by
  intro hw
  have b_k := k.code_lt
  have b_rm := rm.code_lt
  have b_d := d.isLt
  have b_a := a.isLt
  have f0 : bitsAt (loV 0 0 rm.code 0 0 k.code 0) 20 2 = rm.code := by simp only [bitsAt, loV]; omega
  have f1 : bitsAt (loV 0 0 rm.code 0 0 k.code 0) 8 6 = k.code := by simp only [bitsAt, loV]; omega
  have f2 : bitsAt (k.code) 0 6 = k.code := by simp only [bitsAt]; omega
  refine decode_pack (h := h) (op := 0x79) (d := d.val) (a := a.val) (lo := loV 0 0 rm.code 0 0 k.code 0) hw rfl (by decide) (by omega) (by omega) (by simp only [loV]; omega) ?_
  simp [build, build7, f0, f1, f2]

theorem Laws.Coded.vscl (h : Hd) (rm : Rm) (k : BitVec 8) (d : Fin 64) (a : Fin 64) (b : Fin 64) : Laws.Coded.Statement (.vscl h rm k d a b) := by
  intro hw
  have b_rm := rm.code_lt
  have b_k := k.isLt
  have b_d := d.isLt
  have b_a := a.isLt
  have b_b := b.isLt
  have f0 : bitsAt (loV b.val 0 rm.code 0 0 0 k.toNat) 28 6 = b.val := by simp only [bitsAt, loV]; omega
  have f1 : bitsAt (loV b.val 0 rm.code 0 0 0 k.toNat) 20 2 = rm.code := by simp only [bitsAt, loV]; omega
  have f2 : bitsAt (loV b.val 0 rm.code 0 0 0 k.toNat) 0 8 = k.toNat := by simp only [bitsAt, loV]; omega
  have f3 : BitVec.ofNat 8 (k.toNat) = k := ofNat_eq (by omega)
  refine decode_pack (h := h) (op := 0x7a) (d := d.val) (a := a.val) (lo := loV b.val 0 rm.code 0 0 0 k.toNat) hw rfl (by decide) (by omega) (by omega) (by simp only [loV]; omega) ?_
  simp [build, build7, f0, f1, f2, f3]

theorem Laws.Coded.vpush (h : Hd) (fb : Bool) (sc : Bool) (a : Fin 64) (b : Fin 64) : Laws.Coded.Statement (.vpush h fb sc a b) := by
  intro hw
  have b_fb := Bool.toNat_lt fb
  have b_sc := Bool.toNat_lt sc
  have b_a := a.isLt
  have b_b := b.isLt
  have f0 : bitsAt (loV b.val 0 0 0 0 (fb.toNat + sc.toNat * 2) 0) 28 6 = b.val := by simp only [bitsAt, loV]; omega
  have f1 : bitsAt (loV b.val 0 0 0 0 (fb.toNat + sc.toNat * 2) 0) 8 6 = (fb.toNat + sc.toNat * 2) := by simp only [bitsAt, loV]; omega
  have f2 : bitAt (fb.toNat + sc.toNat * 2) 0 = fb := bitAt_eq (by omega)
  have f3 : bitAt (fb.toNat + sc.toNat * 2) 1 = sc := bitAt_eq (by omega)
  refine decode_pack (h := h) (op := 0x7b) (d := 0) (a := a.val) (lo := loV b.val 0 0 0 0 (fb.toNat + sc.toNat * 2) 0) hw rfl (by decide) (by omega) (by omega) (by simp only [loV]; omega) ?_
  simp [build, build7, f0, f1, f2, f3]

theorem Laws.Coded.mtl (h : Hd) (d : Fin 64) (a : Fin 64) (b : Fin 64) (e : Fin 64) : Laws.Coded.Statement (.mtl h d a b e) := by
  intro hw
  have b_d := d.isLt
  have b_a := a.isLt
  have b_b := b.isLt
  have b_e := e.isLt
  have f0 : bitsAt (loE b.val e.val 0 0 0) 28 6 = b.val := by simp only [bitsAt, loE]; omega
  have f1 : bitsAt (loE b.val e.val 0 0 0) 22 6 = e.val := by simp only [bitsAt, loE]; omega
  refine decode_pack (h := h) (op := 0x90) (d := d.val) (a := a.val) (lo := loE b.val e.val 0 0 0) hw rfl (by decide) (by omega) (by omega) (by simp only [loE]; omega) ?_
  simp [build, build9, f0, f1]

theorem Laws.Coded.mbind (h : Hd) (fb : Bool) (src : BindK) (t : MType) (a : Fin 64) : Laws.Coded.Statement (.mbind h fb src t a) := by
  intro hw
  have b_fb := Bool.toNat_lt fb
  have b_src := src.code_lt
  have b_t := t.code_lt
  have b_a := a.isLt
  have f0 : bitsAt (loE 0 0 0 0 (fb.toNat + src.code * 2 + t.code * 8)) 0 8 = (fb.toNat + src.code * 2 + t.code * 8) := by simp only [bitsAt, loE]; omega
  have f1 : bitsAt (fb.toNat + src.code * 2 + t.code * 8) 1 2 = src.code := by simp only [bitsAt]; omega
  have f2 : bitsAt (fb.toNat + src.code * 2 + t.code * 8) 3 5 = t.code := by simp only [bitsAt]; omega
  have f3 : bitAt (fb.toNat + src.code * 2 + t.code * 8) 0 = fb := bitAt_eq (by omega)
  refine decode_pack (h := h) (op := 0x91) (d := 0) (a := a.val) (lo := loE 0 0 0 0 (fb.toNat + src.code * 2 + t.code * 8)) hw rfl (by decide) (by omega) (by omega) (by simp only [loE]; omega) ?_
  simp [build, build9, f0, f1, f2, f3]

theorem Laws.Coded.mfill (h : Hd) (fb : Bool) (fr : Bool) (ff : Bool) (d : Fin 64) (a : Fin 64) (b : Fin 64) (e : Fin 64) : Laws.Coded.Statement (.mfill h fb fr ff d a b e) := by
  intro hw
  have b_fb := Bool.toNat_lt fb
  have b_fr := Bool.toNat_lt fr
  have b_ff := Bool.toNat_lt ff
  have b_d := d.isLt
  have b_a := a.isLt
  have b_b := b.isLt
  have b_e := e.isLt
  have f0 : bitsAt (loE b.val e.val 0 0 (fb.toNat + fr.toNat * 2 + ff.toNat * 4)) 28 6 = b.val := by simp only [bitsAt, loE]; omega
  have f1 : bitsAt (loE b.val e.val 0 0 (fb.toNat + fr.toNat * 2 + ff.toNat * 4)) 22 6 = e.val := by simp only [bitsAt, loE]; omega
  have f2 : bitsAt (loE b.val e.val 0 0 (fb.toNat + fr.toNat * 2 + ff.toNat * 4)) 0 8 = (fb.toNat + fr.toNat * 2 + ff.toNat * 4) := by simp only [bitsAt, loE]; omega
  have f3 : bitAt (fb.toNat + fr.toNat * 2 + ff.toNat * 4) 0 = fb := bitAt_eq (by omega)
  have f4 : bitAt (fb.toNat + fr.toNat * 2 + ff.toNat * 4) 1 = fr := bitAt_eq (by omega)
  have f5 : bitAt (fb.toNat + fr.toNat * 2 + ff.toNat * 4) 2 = ff := bitAt_eq (by omega)
  refine decode_pack (h := h) (op := 0x92) (d := d.val) (a := a.val) (lo := loE b.val e.val 0 0 (fb.toNat + fr.toNat * 2 + ff.toNat * 4)) hw rfl (by decide) (by omega) (by omega) (by simp only [loE]; omega) ?_
  simp [build, build9, f0, f1, f2, f3, f4, f5]

theorem Laws.Coded.mma (h : Hd) (z : Bool) (ta : MType) (tb : MType) (t : BitVec 8) (a : Fin 64) (b : Fin 64) (e : Fin 64) : Laws.Coded.Statement (.mma h z ta tb t a b e) := by
  intro hw
  have b_z := Bool.toNat_lt z
  have b_ta := ta.code_lt
  have b_tb := tb.code_lt
  have b_t := t.isLt
  have b_a := a.isLt
  have b_b := b.isLt
  have b_e := e.isLt
  have f0 : bitsAt (loE b.val e.val 0 t.toNat (z.toNat * 64 + ta.code + tb.code * 8)) 28 6 = b.val := by simp only [bitsAt, loE]; omega
  have f1 : bitsAt (loE b.val e.val 0 t.toNat (z.toNat * 64 + ta.code + tb.code * 8)) 22 6 = e.val := by simp only [bitsAt, loE]; omega
  have f2 : bitsAt (loE b.val e.val 0 t.toNat (z.toNat * 64 + ta.code + tb.code * 8)) 8 8 = t.toNat := by simp only [bitsAt, loE]; omega
  have f3 : bitsAt (loE b.val e.val 0 t.toNat (z.toNat * 64 + ta.code + tb.code * 8)) 0 8 = (z.toNat * 64 + ta.code + tb.code * 8) := by simp only [bitsAt, loE]; omega
  have f4 : bitsAt (z.toNat * 64 + ta.code + tb.code * 8) 0 3 = ta.code := by simp only [bitsAt]; omega
  have f5 : bitsAt (z.toNat * 64 + ta.code + tb.code * 8) 3 3 = tb.code := by simp only [bitsAt]; omega
  have f6 : bitAt (z.toNat * 64 + ta.code + tb.code * 8) 6 = z := bitAt_eq (by omega)
  have f7 : BitVec.ofNat 8 (t.toNat) = t := ofNat_eq (by omega)
  refine decode_pack (h := h) (op := 0x93) (d := 0) (a := a.val) (lo := loE b.val e.val 0 t.toNat (z.toNat * 64 + ta.code + tb.code * 8)) hw rfl (by decide) (by omega) (by omega) (by simp only [loE]; omega) ?_
  simp [build, build9, f0, f1, f2, f3, f4, f5, f6, f7]

theorem Laws.Coded.mzero (h : Hd) (t : BitVec 8) : Laws.Coded.Statement (.mzero h t) := by
  intro hw
  have b_t := t.isLt
  have f0 : bitsAt (loE 0 0 0 t.toNat 0) 8 8 = t.toNat := by simp only [bitsAt, loE]; omega
  have f1 : BitVec.ofNat 8 (t.toNat) = t := ofNat_eq (by omega)
  refine decode_pack (h := h) (op := 0x94) (d := 0) (a := 0) (lo := loE 0 0 0 t.toNat 0) hw rfl (by decide) (by omega) (by omega) (by simp only [loE]; omega) ?_
  simp [build, build9, f0, f1]

theorem Laws.Coded.mrd (h : Hd) (rm : Rm) (ov : Ov) (t : BitVec 8) (d : Fin 64) (a : Fin 64) : Laws.Coded.Statement (.mrd h rm ov t d a) := by
  intro hw
  have b_rm := rm.code_lt
  have b_ov := ov.code_lt
  have b_t := t.isLt
  have b_d := d.isLt
  have b_a := a.isLt
  have f0 : bitsAt (loE 0 0 0 t.toNat (rm.code + ov.code * 4)) 8 8 = t.toNat := by simp only [bitsAt, loE]; omega
  have f1 : bitsAt (loE 0 0 0 t.toNat (rm.code + ov.code * 4)) 0 8 = (rm.code + ov.code * 4) := by simp only [bitsAt, loE]; omega
  have f2 : bitsAt (rm.code + ov.code * 4) 0 2 = rm.code := by simp only [bitsAt]; omega
  have f3 : bitsAt (rm.code + ov.code * 4) 2 2 = ov.code := by simp only [bitsAt]; omega
  have f4 : BitVec.ofNat 8 (t.toNat) = t := ofNat_eq (by omega)
  refine decode_pack (h := h) (op := 0x95) (d := d.val) (a := a.val) (lo := loE 0 0 0 t.toNat (rm.code + ov.code * 4)) hw rfl (by decide) (by omega) (by omega) (by simp only [loE]; omega) ?_
  simp [build, build9, f0, f1, f2, f3, f4]

theorem Laws.Coded.mwr (h : Hd) (t : BitVec 8) (d : Fin 64) (a : Fin 64) : Laws.Coded.Statement (.mwr h t d a) := by
  intro hw
  have b_t := t.isLt
  have b_d := d.isLt
  have b_a := a.isLt
  have f0 : bitsAt (loE 0 0 0 t.toNat 0) 8 8 = t.toNat := by simp only [bitsAt, loE]; omega
  have f1 : BitVec.ofNat 8 (t.toNat) = t := ofNat_eq (by omega)
  refine decode_pack (h := h) (op := 0x96) (d := d.val) (a := a.val) (lo := loE 0 0 0 t.toNat 0) hw rfl (by decide) (by omega) (by omega) (by simp only [loE]; omega) ?_
  simp [build, build9, f0, f1]

theorem Laws.Coded.mbs (h : Hd) (t : BitVec 8) (a : Fin 64) : Laws.Coded.Statement (.mbs h t a) := by
  intro hw
  have b_t := t.isLt
  have b_a := a.isLt
  have f0 : bitsAt (loE 0 0 0 t.toNat 0) 8 8 = t.toNat := by simp only [bitsAt, loE]; omega
  have f1 : bitsAt (loE 0 0 0 t.toNat 0) 0 8 = 0 := by simp only [bitsAt, loE]; omega
  have f2 : BitVec.ofNat 8 (t.toNat) = t := ofNat_eq (by omega)
  refine decode_pack (h := h) (op := 0x97) (d := 0) (a := a.val) (lo := loE 0 0 0 t.toNat 0) hw rfl (by decide) (by omega) (by omega) (by simp only [loE]; omega) ?_
  simp [build, build9, f0, f1, f2]

theorem Laws.Coded.mbsRd (h : Hd) (t : BitVec 8) (d : Fin 64) : Laws.Coded.Statement (.mbsRd h t d) := by
  intro hw
  have b_t := t.isLt
  have b_d := d.isLt
  have f0 : bitsAt (loE 0 0 0 t.toNat 1) 8 8 = t.toNat := by simp only [bitsAt, loE]; omega
  have f1 : bitsAt (loE 0 0 0 t.toNat 1) 0 8 = 1 := by simp only [bitsAt, loE]; omega
  have f2 : BitVec.ofNat 8 (t.toNat) = t := ofNat_eq (by omega)
  refine decode_pack (h := h) (op := 0x97) (d := d.val) (a := 0) (lo := loE 0 0 0 t.toNat 1) hw rfl (by decide) (by omega) (by omega) (by simp only [loE]; omega) ?_
  simp [build, build9, f0, f1, f2]

theorem Laws.Coded.mdrain (h : Hd) (ty : EType) (rm : Rm) (ov : Ov) (t : BitVec 8) (d : Fin 64) (a : Fin 64) (b : Fin 64) (e : Fin 64) : Laws.Coded.Statement (.mdrain h ty rm ov t d a b e) := by
  intro hw
  have b_ty := ty.code_lt
  have b_rm := rm.code_lt
  have b_ov := ov.code_lt
  have b_t := t.isLt
  have b_d := d.isLt
  have b_a := a.isLt
  have b_b := b.isLt
  have b_e := e.isLt
  have f0 : bitsAt (loE b.val e.val 0 t.toNat (ty.code + rm.code * 16 + ov.code * 64)) 28 6 = b.val := by simp only [bitsAt, loE]; omega
  have f1 : bitsAt (loE b.val e.val 0 t.toNat (ty.code + rm.code * 16 + ov.code * 64)) 22 6 = e.val := by simp only [bitsAt, loE]; omega
  have f2 : bitsAt (loE b.val e.val 0 t.toNat (ty.code + rm.code * 16 + ov.code * 64)) 8 8 = t.toNat := by simp only [bitsAt, loE]; omega
  have f3 : bitsAt (loE b.val e.val 0 t.toNat (ty.code + rm.code * 16 + ov.code * 64)) 0 8 = (ty.code + rm.code * 16 + ov.code * 64) := by simp only [bitsAt, loE]; omega
  have f4 : bitsAt (ty.code + rm.code * 16 + ov.code * 64) 0 4 = ty.code := by simp only [bitsAt]; omega
  have f5 : bitsAt (ty.code + rm.code * 16 + ov.code * 64) 4 2 = rm.code := by simp only [bitsAt]; omega
  have f6 : bitsAt (ty.code + rm.code * 16 + ov.code * 64) 6 2 = ov.code := by simp only [bitsAt]; omega
  have f7 : BitVec.ofNat 8 (t.toNat) = t := ofNat_eq (by omega)
  refine decode_pack (h := h) (op := 0x98) (d := d.val) (a := a.val) (lo := loE b.val e.val 0 t.toNat (ty.code + rm.code * 16 + ov.code * 64)) hw rfl (by decide) (by omega) (by omega) (by simp only [loE]; omega) ?_
  simp [build, build9, f0, f1, f2, f3, f4, f5, f6, f7]

theorem Laws.Coded.mownAcq (h : Hd) (d : Fin 64) : Laws.Coded.Statement (.mownAcq h d) := by
  intro hw
  have b_d := d.isLt
  have f0 : bitsAt (loE 0 0 0 0 0) 0 8 = 0 := by simp only [bitsAt, loE]; omega
  refine decode_pack (h := h) (op := 0x99) (d := d.val) (a := 0) (lo := loE 0 0 0 0 0) hw rfl (by decide) (by omega) (by omega) (by decide) ?_
  simp [build, build9, f0]

theorem Laws.Coded.mownTry (h : Hd) (d : Fin 64) : Laws.Coded.Statement (.mownTry h d) := by
  intro hw
  have b_d := d.isLt
  have f0 : bitsAt (loE 0 0 0 0 1) 0 8 = 1 := by simp only [bitsAt, loE]; omega
  refine decode_pack (h := h) (op := 0x99) (d := d.val) (a := 0) (lo := loE 0 0 0 0 1) hw rfl (by decide) (by omega) (by omega) (by decide) ?_
  simp [build, build9, f0]

theorem Laws.Coded.mownRel (h : Hd) : Laws.Coded.Statement (.mownRel h) := by
  intro hw
  have f0 : bitsAt (loE 0 0 0 0 2) 0 8 = 2 := by simp only [bitsAt, loE]; omega
  refine decode_pack (h := h) (op := 0x99) (d := 0) (a := 0) (lo := loE 0 0 0 0 2) hw rfl (by decide) (by omega) (by omega) (by decide) ?_
  simp [build, build9, f0]

theorem Laws.Coded.mownRd (h : Hd) (d : Fin 64) : Laws.Coded.Statement (.mownRd h d) := by
  intro hw
  have b_d := d.isLt
  have f0 : bitsAt (loE 0 0 0 0 3) 0 8 = 3 := by simp only [bitsAt, loE]; omega
  refine decode_pack (h := h) (op := 0x99) (d := d.val) (a := 0) (lo := loE 0 0 0 0 3) hw rfl (by decide) (by omega) (by omega) (by decide) ?_
  simp [build, build9, f0]

theorem Laws.Coded.holdLimit : Laws.Coded.Statement .holdLimit := fun _ => trivial


theorem Laws.Coded.cdefArena (h : Hd) (a : Fin 64) (b : Fin 64) (e : Fin 64) : Laws.Coded.Statement (.cdefArena h a b e) := by
  intro hw
  have b_a := a.isLt
  have b_b := b.isLt
  have b_e := e.isLt
  have f0 : bitsAt (loC b.val e.val 0 0 0) 28 6 = b.val := by simp only [bitsAt, loC]; omega
  have f1 : bitsAt (loC b.val e.val 0 0 0) 22 6 = e.val := by simp only [bitsAt, loC]; omega
  have f2 : bitsAt (loC b.val e.val 0 0 0) 8 8 = 0 := by simp only [bitsAt, loC]; omega
  refine decode_pack (h := h) (op := 0xa0) (d := 0) (a := a.val) (lo := loC b.val e.val 0 0 0) hw rfl (by decide) (by omega) (by omega) (by simp only [loC]; omega) ?_
  simp [build, buildA, f0, f1, f2]

theorem Laws.Coded.cdefT (h : Hd) (t : EType) (d : Fin 64) (a : Fin 64) (b : Fin 64) : Laws.Coded.Statement (.cdefT h t d a b) := by
  intro hw
  have b_t := t.code_lt
  have b_d := d.isLt
  have b_a := a.isLt
  have b_b := b.isLt
  have f0 : bitsAt (loC b.val 0 0 1 t.code) 28 6 = b.val := by simp only [bitsAt, loC]; omega
  have f1 : bitsAt (loC b.val 0 0 1 t.code) 8 8 = 1 := by simp only [bitsAt, loC]; omega
  have f2 : bitsAt (loC b.val 0 0 1 t.code) 0 8 = t.code := by simp only [bitsAt, loC]; omega
  have f3 : bitsAt (t.code) 0 8 = t.code := by simp only [bitsAt]; omega
  refine decode_pack (h := h) (op := 0xa0) (d := d.val) (a := a.val) (lo := loC b.val 0 0 1 t.code) hw rfl (by decide) (by omega) (by omega) (by simp only [loC]; omega) ?_
  simp [build, buildA, f0, f1, f2, f3]

theorem Laws.Coded.cdefLen (h : Hd) (d : Fin 64) (a : Fin 64) : Laws.Coded.Statement (.cdefLen h d a) := by
  intro hw
  have b_d := d.isLt
  have b_a := a.isLt
  have f0 : bitsAt (loC 0 0 0 2 0) 8 8 = 2 := by simp only [bitsAt, loC]; omega
  refine decode_pack (h := h) (op := 0xa0) (d := d.val) (a := a.val) (lo := loC 0 0 0 2 0) hw rfl (by decide) (by omega) (by omega) (by decide) ?_
  simp [build, buildA, f0]

theorem Laws.Coded.clen (h : Hd) (d : Fin 64) (a : Fin 64) : Laws.Coded.Statement (.clen h d a) := by
  intro hw
  have b_d := d.isLt
  have b_a := a.isLt
  have f0 : bitsAt (loC 0 0 0 0 0) 8 8 = 0 := by simp only [bitsAt, loC]; omega
  refine decode_pack (h := h) (op := 0xa1) (d := d.val) (a := a.val) (lo := loC 0 0 0 0 0) hw rfl (by decide) (by omega) (by omega) (by decide) ?_
  simp [build, buildA, f0]

theorem Laws.Coded.clenCap (h : Hd) (d : Fin 64) (a : Fin 64) : Laws.Coded.Statement (.clenCap h d a) := by
  intro hw
  have b_d := d.isLt
  have b_a := a.isLt
  have f0 : bitsAt (loC 0 0 0 1 0) 8 8 = 1 := by simp only [bitsAt, loC]; omega
  refine decode_pack (h := h) (op := 0xa1) (d := d.val) (a := a.val) (lo := loC 0 0 0 1 0) hw rfl (by decide) (by omega) (by omega) (by decide) ?_
  simp [build, buildA, f0]

theorem Laws.Coded.clenDesc (h : Hd) (d : Fin 64) (a : Fin 64) : Laws.Coded.Statement (.clenDesc h d a) := by
  intro hw
  have b_d := d.isLt
  have b_a := a.isLt
  have f0 : bitsAt (loC 0 0 0 2 0) 8 8 = 2 := by simp only [bitsAt, loC]; omega
  refine decode_pack (h := h) (op := 0xa1) (d := d.val) (a := a.val) (lo := loC 0 0 0 2 0) hw rfl (by decide) (by omega) (by omega) (by decide) ?_
  simp [build, buildA, f0]

theorem Laws.Coded.clenArena (h : Hd) (d : Fin 64) : Laws.Coded.Statement (.clenArena h d) := by
  intro hw
  have b_d := d.isLt
  have f0 : bitsAt (loC 0 0 0 3 0) 8 8 = 3 := by simp only [bitsAt, loC]; omega
  refine decode_pack (h := h) (op := 0xa1) (d := d.val) (a := 0) (lo := loC 0 0 0 3 0) hw rfl (by decide) (by omega) (by omega) (by decide) ?_
  simp [build, buildA, f0]

theorem Laws.Coded.cld (h : Hd) (d : Fin 64) (a : Fin 64) (b : Fin 64) (y : Fin 64) (pp : Fin 64) : Laws.Coded.Statement (.cld h d a b y pp) := by
  intro hw
  have b_d := d.isLt
  have b_a := a.isLt
  have b_b := b.isLt
  have b_y := y.isLt
  have b_pp := pp.isLt
  have f0 : bitsAt (loC b.val 0 pp.val 0 y.val) 28 6 = b.val := by simp only [bitsAt, loC]; omega
  have f1 : bitsAt (loC b.val 0 pp.val 0 y.val) 16 6 = pp.val := by simp only [bitsAt, loC]; omega
  have f2 : bitsAt (loC b.val 0 pp.val 0 y.val) 8 8 = 0 := by simp only [bitsAt, loC]; omega
  have f3 : bitsAt (loC b.val 0 pp.val 0 y.val) 0 8 = y.val := by simp only [bitsAt, loC]; omega
  refine decode_pack (h := h) (op := 0xa2) (d := d.val) (a := a.val) (lo := loC b.val 0 pp.val 0 y.val) hw rfl (by decide) (by omega) (by omega) (by simp only [loC]; omega) ?_
  simp [build, buildA, f0, f1, f2, f3]

theorem Laws.Coded.cldSt (h : Hd) (d : Fin 64) (a : Fin 64) (y : Fin 64) : Laws.Coded.Statement (.cldSt h d a y) := by
  intro hw
  have b_d := d.isLt
  have b_a := a.isLt
  have b_y := y.isLt
  have f0 : bitsAt (loC 0 0 0 1 y.val) 8 8 = 1 := by simp only [bitsAt, loC]; omega
  have f1 : bitsAt (loC 0 0 0 1 y.val) 0 8 = y.val := by simp only [bitsAt, loC]; omega
  refine decode_pack (h := h) (op := 0xa2) (d := d.val) (a := a.val) (lo := loC 0 0 0 1 y.val) hw rfl (by decide) (by omega) (by omega) (by simp only [loC]; omega) ?_
  simp [build, buildA, f0, f1]

theorem Laws.Coded.csel (h : Hd) (k : VCond) (cc : Bool) (d : Fin 64) (a : Fin 64) (b : Fin 64) (y : Fin 64) (pp : Fin 64) : Laws.Coded.Statement (.csel h k cc d a b y pp) := by
  intro hw
  have b_k := k.code_lt
  have b_cc := Bool.toNat_lt cc
  have b_d := d.isLt
  have b_a := a.isLt
  have b_b := b.isLt
  have b_y := y.isLt
  have b_pp := pp.isLt
  have f0 : bitsAt (loC b.val 0 pp.val (k.code + cc.toNat * 8) y.val) 28 6 = b.val := by simp only [bitsAt, loC]; omega
  have f1 : bitsAt (loC b.val 0 pp.val (k.code + cc.toNat * 8) y.val) 16 6 = pp.val := by simp only [bitsAt, loC]; omega
  have f2 : bitsAt (loC b.val 0 pp.val (k.code + cc.toNat * 8) y.val) 8 8 = (k.code + cc.toNat * 8) := by simp only [bitsAt, loC]; omega
  have f3 : bitsAt (loC b.val 0 pp.val (k.code + cc.toNat * 8) y.val) 0 8 = y.val := by simp only [bitsAt, loC]; omega
  have f4 : bitsAt (k.code + cc.toNat * 8) 0 3 = k.code := by simp only [bitsAt]; omega
  have f5 : bitAt (k.code + cc.toNat * 8) 3 = cc := bitAt_eq (by omega)
  refine decode_pack (h := h) (op := 0xa3) (d := d.val) (a := a.val) (lo := loC b.val 0 pp.val (k.code + cc.toNat * 8) y.val) hw rfl (by decide) (by omega) (by omega) (by simp only [loC]; omega) ?_
  simp [build, buildA, f0, f1, f2, f3, f4, f5]

theorem Laws.Coded.cselp (h : Hd) (k : VCond) (d : Fin 64) (a : Fin 64) (b : Fin 64) (e : Fin 64) (y : Fin 64) (pp : Fin 64) : Laws.Coded.Statement (.cselp h k d a b e y pp) := by
  intro hw
  have b_k := k.code_lt
  have b_d := d.isLt
  have b_a := a.isLt
  have b_b := b.isLt
  have b_e := e.isLt
  have b_y := y.isLt
  have b_pp := pp.isLt
  have f0 : bitsAt (loC b.val e.val pp.val k.code y.val) 28 6 = b.val := by simp only [bitsAt, loC]; omega
  have f1 : bitsAt (loC b.val e.val pp.val k.code y.val) 22 6 = e.val := by simp only [bitsAt, loC]; omega
  have f2 : bitsAt (loC b.val e.val pp.val k.code y.val) 16 6 = pp.val := by simp only [bitsAt, loC]; omega
  have f3 : bitsAt (loC b.val e.val pp.val k.code y.val) 8 8 = k.code := by simp only [bitsAt, loC]; omega
  have f4 : bitsAt (loC b.val e.val pp.val k.code y.val) 0 8 = y.val := by simp only [bitsAt, loC]; omega
  have f5 : bitsAt (k.code) 0 8 = k.code := by simp only [bitsAt]; omega
  refine decode_pack (h := h) (op := 0xa4) (d := d.val) (a := a.val) (lo := loC b.val e.val pp.val k.code y.val) hw rfl (by decide) (by omega) (by omega) (by simp only [loC]; omega) ?_
  simp [build, buildA, f0, f1, f2, f3, f4, f5]

theorem Laws.Coded.cgath (h : Hd) (d : Fin 64) (a : Fin 64) (b : Fin 64) (y : Fin 64) (pp : Fin 64) : Laws.Coded.Statement (.cgath h d a b y pp) := by
  intro hw
  have b_d := d.isLt
  have b_a := a.isLt
  have b_b := b.isLt
  have b_y := y.isLt
  have b_pp := pp.isLt
  have f0 : bitsAt (loC b.val 0 pp.val 0 y.val) 28 6 = b.val := by simp only [bitsAt, loC]; omega
  have f1 : bitsAt (loC b.val 0 pp.val 0 y.val) 16 6 = pp.val := by simp only [bitsAt, loC]; omega
  have f2 : bitsAt (loC b.val 0 pp.val 0 y.val) 0 8 = y.val := by simp only [bitsAt, loC]; omega
  refine decode_pack (h := h) (op := 0xa5) (d := d.val) (a := a.val) (lo := loC b.val 0 pp.val 0 y.val) hw rfl (by decide) (by omega) (by omega) (by simp only [loC]; omega) ?_
  simp [build, buildA, f0, f1, f2]

theorem Laws.Coded.cscat (h : Hd) (k : AmoK) (d : Fin 64) (a : Fin 64) (b : Fin 64) (y : Fin 64) : Laws.Coded.Statement (.cscat h k d a b y) := by
  intro hw
  have b_k := k.code_lt
  have b_d := d.isLt
  have b_a := a.isLt
  have b_b := b.isLt
  have b_y := y.isLt
  have f0 : bitsAt (loC b.val 0 0 k.code y.val) 28 6 = b.val := by simp only [bitsAt, loC]; omega
  have f1 : bitsAt (loC b.val 0 0 k.code y.val) 8 8 = k.code := by simp only [bitsAt, loC]; omega
  have f2 : bitsAt (loC b.val 0 0 k.code y.val) 0 8 = y.val := by simp only [bitsAt, loC]; omega
  have f3 : bitsAt (k.code) 0 8 = k.code := by simp only [bitsAt]; omega
  refine decode_pack (h := h) (op := 0xa6) (d := d.val) (a := a.val) (lo := loC b.val 0 0 k.code y.val) hw rfl (by decide) (by omega) (by omega) (by simp only [loC]; omega) ?_
  simp [build, buildA, f0, f1, f2, f3]

theorem Laws.Coded.cjoin (h : Hd) (k : JoinK) (d : Fin 64) (a : Fin 64) (b : Fin 64) (y : Fin 64) (pp : Fin 64) : Laws.Coded.Statement (.cjoin h k d a b y pp) := by
  intro hw
  have b_k := k.code_lt
  have b_d := d.isLt
  have b_a := a.isLt
  have b_b := b.isLt
  have b_y := y.isLt
  have b_pp := pp.isLt
  have f0 : bitsAt (loC b.val 0 pp.val k.code y.val) 28 6 = b.val := by simp only [bitsAt, loC]; omega
  have f1 : bitsAt (loC b.val 0 pp.val k.code y.val) 16 6 = pp.val := by simp only [bitsAt, loC]; omega
  have f2 : bitsAt (loC b.val 0 pp.val k.code y.val) 8 8 = k.code := by simp only [bitsAt, loC]; omega
  have f3 : bitsAt (loC b.val 0 pp.val k.code y.val) 0 8 = y.val := by simp only [bitsAt, loC]; omega
  have f4 : bitsAt (k.code) 0 8 = k.code := by simp only [bitsAt]; omega
  refine decode_pack (h := h) (op := 0xa7) (d := d.val) (a := a.val) (lo := loC b.val 0 pp.val k.code y.val) hw rfl (by decide) (by omega) (by omega) (by simp only [loC]; omega) ?_
  simp [build, buildA, f0, f1, f2, f3, f4]

theorem Laws.Coded.csort (h : Hd) (p : Bool) (dn : Bool) (d : Fin 64) (a : Fin 64) (y : Fin 64) : Laws.Coded.Statement (.csort h p dn d a y) := by
  intro hw
  have b_p := Bool.toNat_lt p
  have b_dn := Bool.toNat_lt dn
  have b_d := d.isLt
  have b_a := a.isLt
  have b_y := y.isLt
  have f0 : bitsAt (loC 0 0 0 (p.toNat + dn.toNat * 2) y.val) 8 8 = (p.toNat + dn.toNat * 2) := by simp only [bitsAt, loC]; omega
  have f1 : bitsAt (loC 0 0 0 (p.toNat + dn.toNat * 2) y.val) 0 8 = y.val := by simp only [bitsAt, loC]; omega
  have f2 : bitAt (p.toNat + dn.toNat * 2) 0 = p := bitAt_eq (by omega)
  have f3 : bitAt (p.toNat + dn.toNat * 2) 1 = dn := bitAt_eq (by omega)
  refine decode_pack (h := h) (op := 0xa8) (d := d.val) (a := a.val) (lo := loC 0 0 0 (p.toNat + dn.toNat * 2) y.val) hw rfl (by decide) (by omega) (by omega) (by simp only [loC]; omega) ?_
  simp [build, buildA, f0, f1, f2, f3]

theorem Laws.Coded.cgrp (h : Hd) (d : Fin 64) (a : Fin 64) (y : Fin 64) (pp : Fin 64) : Laws.Coded.Statement (.cgrp h d a y pp) := by
  intro hw
  have b_d := d.isLt
  have b_a := a.isLt
  have b_y := y.isLt
  have b_pp := pp.isLt
  have f0 : bitsAt (loC 0 0 pp.val 0 y.val) 16 6 = pp.val := by simp only [bitsAt, loC]; omega
  have f1 : bitsAt (loC 0 0 pp.val 0 y.val) 0 8 = y.val := by simp only [bitsAt, loC]; omega
  refine decode_pack (h := h) (op := 0xa9) (d := d.val) (a := a.val) (lo := loC 0 0 pp.val 0 y.val) hw rfl (by decide) (by omega) (by omega) (by simp only [loC]; omega) ?_
  simp [build, buildA, f0, f1]

theorem Laws.Coded.cagg (h : Hd) (k : AggK) (s : Bool) (d : Fin 64) (a : Fin 64) (b : Fin 64) (y : Fin 64) (pp : Fin 64) : Laws.Coded.Statement (.cagg h k s d a b y pp) := by
  intro hw
  have b_k := k.code_lt
  have b_s := Bool.toNat_lt s
  have b_d := d.isLt
  have b_a := a.isLt
  have b_b := b.isLt
  have b_y := y.isLt
  have b_pp := pp.isLt
  have f0 : bitsAt (loC b.val 0 pp.val (k.code + s.toNat * 8) y.val) 28 6 = b.val := by simp only [bitsAt, loC]; omega
  have f1 : bitsAt (loC b.val 0 pp.val (k.code + s.toNat * 8) y.val) 16 6 = pp.val := by simp only [bitsAt, loC]; omega
  have f2 : bitsAt (loC b.val 0 pp.val (k.code + s.toNat * 8) y.val) 8 8 = (k.code + s.toNat * 8) := by simp only [bitsAt, loC]; omega
  have f3 : bitsAt (loC b.val 0 pp.val (k.code + s.toNat * 8) y.val) 0 8 = y.val := by simp only [bitsAt, loC]; omega
  have f4 : bitsAt (k.code + s.toNat * 8) 0 3 = k.code := by simp only [bitsAt]; omega
  have f5 : bitAt (k.code + s.toNat * 8) 3 = s := bitAt_eq (by omega)
  refine decode_pack (h := h) (op := 0xaa) (d := d.val) (a := a.val) (lo := loC b.val 0 pp.val (k.code + s.toNat * 8) y.val) hw rfl (by decide) (by omega) (by omega) (by simp only [loC]; omega) ?_
  simp [build, buildA, f0, f1, f2, f3, f4, f5]

theorem Laws.Coded.cuniq (h : Hd) (p : Bool) (d : Fin 64) (a : Fin 64) (y : Fin 64) (pp : Fin 64) : Laws.Coded.Statement (.cuniq h p d a y pp) := by
  intro hw
  have b_p := Bool.toNat_lt p
  have b_d := d.isLt
  have b_a := a.isLt
  have b_y := y.isLt
  have b_pp := pp.isLt
  have f0 : bitsAt (loC 0 0 pp.val p.toNat y.val) 16 6 = pp.val := by simp only [bitsAt, loC]; omega
  have f1 : bitsAt (loC 0 0 pp.val p.toNat y.val) 8 8 = p.toNat := by simp only [bitsAt, loC]; omega
  have f2 : bitsAt (loC 0 0 pp.val p.toNat y.val) 0 8 = y.val := by simp only [bitsAt, loC]; omega
  have f3 : bitAt (p.toNat) 0 = p := bitAt_eq (by omega)
  refine decode_pack (h := h) (op := 0xab) (d := d.val) (a := a.val) (lo := loC 0 0 pp.val p.toNat y.val) hw rfl (by decide) (by omega) (by omega) (by simp only [loC]; omega) ?_
  simp [build, buildA, f0, f1, f2, f3]

theorem Laws.Coded.cres (h : Hd) (o : BitVec 4) (f : BitVec 4) (d : Fin 64) (a : Fin 64) (b : Fin 64) (e : Fin 64) (y : Fin 64) (pp : Fin 64) : Laws.Coded.Statement (.cres h o f d a b e y pp) := by
  intro hw
  have b_o := o.isLt
  have b_f := f.isLt
  have b_d := d.isLt
  have b_a := a.isLt
  have b_b := b.isLt
  have b_e := e.isLt
  have b_y := y.isLt
  have b_pp := pp.isLt
  have f0 : bitsAt (loC b.val e.val pp.val (o.toNat * 16 + f.toNat) y.val) 28 6 = b.val := by simp only [bitsAt, loC]; omega
  have f1 : bitsAt (loC b.val e.val pp.val (o.toNat * 16 + f.toNat) y.val) 22 6 = e.val := by simp only [bitsAt, loC]; omega
  have f2 : bitsAt (loC b.val e.val pp.val (o.toNat * 16 + f.toNat) y.val) 16 6 = pp.val := by simp only [bitsAt, loC]; omega
  have f3 : bitsAt (loC b.val e.val pp.val (o.toNat * 16 + f.toNat) y.val) 8 8 = (o.toNat * 16 + f.toNat) := by simp only [bitsAt, loC]; omega
  have f4 : bitsAt (loC b.val e.val pp.val (o.toNat * 16 + f.toNat) y.val) 0 8 = y.val := by simp only [bitsAt, loC]; omega
  have f5 : BitVec.ofNat 4 ((o.toNat * 16 + f.toNat) / 16) = o := ofNat_eq (by omega)
  have f6 : BitVec.ofNat 4 (o.toNat * 16 + f.toNat) = f := ofNat_eq (by omega)
  refine decode_pack (h := h) (op := 0xac) (d := d.val) (a := a.val) (lo := loC b.val e.val pp.val (o.toNat * 16 + f.toNat) y.val) hw rfl (by decide) (by omega) (by omega) (by simp only [loC]; omega) ?_
  simp [build, buildA, f0, f1, f2, f3, f4, f5, f6]

theorem Laws.Coded.ccurClr (h : Hd) : Laws.Coded.Statement (.ccurClr h) := by
  intro hw
  have f0 : bitsAt (loC 0 0 0 0 0) 8 8 = 0 := by simp only [bitsAt, loC]; omega
  refine decode_pack (h := h) (op := 0xad) (d := 0) (a := 0) (lo := loC 0 0 0 0 0) hw rfl (by decide) (by omega) (by omega) (by decide) ?_
  simp [build, buildA, f0]

theorem Laws.Coded.ccurRd (h : Hd) (d : Fin 64) : Laws.Coded.Statement (.ccurRd h d) := by
  intro hw
  have b_d := d.isLt
  have f0 : bitsAt (loC 0 0 0 1 0) 8 8 = 1 := by simp only [bitsAt, loC]; omega
  refine decode_pack (h := h) (op := 0xad) (d := d.val) (a := 0) (lo := loC 0 0 0 1 0) hw rfl (by decide) (by omega) (by omega) (by decide) ?_
  simp [build, buildA, f0]

theorem Laws.Coded.ccurWr (h : Hd) (a : Fin 64) : Laws.Coded.Statement (.ccurWr h a) := by
  intro hw
  have b_a := a.isLt
  have f0 : bitsAt (loC 0 0 0 2 0) 8 8 = 2 := by simp only [bitsAt, loC]; omega
  refine decode_pack (h := h) (op := 0xad) (d := 0) (a := a.val) (lo := loC 0 0 0 2 0) hw rfl (by decide) (by omega) (by omega) (by decide) ?_
  simp [build, buildA, f0]

theorem Laws.Coded.cvecLd (h : Hd) (d : Fin 64) (a : Fin 64) (b : Fin 64) (y : Fin 64) : Laws.Coded.Statement (.cvecLd h d a b y) := by
  intro hw
  have b_d := d.isLt
  have b_a := a.isLt
  have b_b := b.isLt
  have b_y := y.isLt
  have f0 : bitsAt (loC b.val 0 0 0 y.val) 28 6 = b.val := by simp only [bitsAt, loC]; omega
  have f1 : bitsAt (loC b.val 0 0 0 y.val) 8 8 = 0 := by simp only [bitsAt, loC]; omega
  have f2 : bitsAt (loC b.val 0 0 0 y.val) 0 8 = y.val := by simp only [bitsAt, loC]; omega
  refine decode_pack (h := h) (op := 0xae) (d := d.val) (a := a.val) (lo := loC b.val 0 0 0 y.val) hw rfl (by decide) (by omega) (by omega) (by simp only [loC]; omega) ?_
  simp [build, buildA, f0, f1, f2]

theorem Laws.Coded.cvecApp (h : Hd) (d : Fin 64) (a : Fin 64) (y : Fin 64) (pp : Fin 64) : Laws.Coded.Statement (.cvecApp h d a y pp) := by
  intro hw
  have b_d := d.isLt
  have b_a := a.isLt
  have b_y := y.isLt
  have b_pp := pp.isLt
  have f0 : bitsAt (loC 0 0 pp.val 1 y.val) 16 6 = pp.val := by simp only [bitsAt, loC]; omega
  have f1 : bitsAt (loC 0 0 pp.val 1 y.val) 8 8 = 1 := by simp only [bitsAt, loC]; omega
  have f2 : bitsAt (loC 0 0 pp.val 1 y.val) 0 8 = y.val := by simp only [bitsAt, loC]; omega
  refine decode_pack (h := h) (op := 0xae) (d := d.val) (a := a.val) (lo := loC 0 0 pp.val 1 y.val) hw rfl (by decide) (by omega) (by omega) (by simp only [loC]; omega) ?_
  simp [build, buildA, f0, f1, f2]

theorem Laws.Coded.hcopy (h : Hd) (ck : BitVec 3) (ts : Bool) (bar : Bool) (crc : Bool) (nb : Bool) (d : Fin 64) (a : Fin 64) (b : Fin 64) (e : Fin 64) (pm : Fin 64) (t : BitVec 8) : Laws.Coded.Statement (.hcopy h ck ts bar crc nb d a b e pm t) := by
  intro hw
  have b_ck := ck.isLt
  have b_ts := Bool.toNat_lt ts
  have b_bar := Bool.toNat_lt bar
  have b_crc := Bool.toNat_lt crc
  have b_nb := Bool.toNat_lt nb
  have b_d := d.isLt
  have b_a := a.isLt
  have b_b := b.isLt
  have b_e := e.isLt
  have b_pm := pm.isLt
  have b_t := t.isLt
  have f0 : bitsAt (loE b.val e.val pm.val t.toNat (ck.toNat + ts.toNat * 8 + bar.toNat * 16 + crc.toNat * 32 + nb.toNat * 64)) 28 6 = b.val := by simp only [bitsAt, loE]; omega
  have f1 : bitsAt (loE b.val e.val pm.val t.toNat (ck.toNat + ts.toNat * 8 + bar.toNat * 16 + crc.toNat * 32 + nb.toNat * 64)) 22 6 = e.val := by simp only [bitsAt, loE]; omega
  have f2 : bitsAt (loE b.val e.val pm.val t.toNat (ck.toNat + ts.toNat * 8 + bar.toNat * 16 + crc.toNat * 32 + nb.toNat * 64)) 16 6 = pm.val := by simp only [bitsAt, loE]; omega
  have f3 : bitsAt (loE b.val e.val pm.val t.toNat (ck.toNat + ts.toNat * 8 + bar.toNat * 16 + crc.toNat * 32 + nb.toNat * 64)) 8 8 = t.toNat := by simp only [bitsAt, loE]; omega
  have f4 : bitsAt (loE b.val e.val pm.val t.toNat (ck.toNat + ts.toNat * 8 + bar.toNat * 16 + crc.toNat * 32 + nb.toNat * 64)) 0 8 = (ck.toNat + ts.toNat * 8 + bar.toNat * 16 + crc.toNat * 32 + nb.toNat * 64) := by simp only [bitsAt, loE]; omega
  have f5 : BitVec.ofNat 3 (ck.toNat + ts.toNat * 8 + bar.toNat * 16 + crc.toNat * 32 + nb.toNat * 64) = ck := ofNat_eq (by omega)
  have f6 : bitAt (ck.toNat + ts.toNat * 8 + bar.toNat * 16 + crc.toNat * 32 + nb.toNat * 64) 3 = ts := bitAt_eq (by omega)
  have f7 : bitAt (ck.toNat + ts.toNat * 8 + bar.toNat * 16 + crc.toNat * 32 + nb.toNat * 64) 4 = bar := bitAt_eq (by omega)
  have f8 : bitAt (ck.toNat + ts.toNat * 8 + bar.toNat * 16 + crc.toNat * 32 + nb.toNat * 64) 5 = crc := bitAt_eq (by omega)
  have f9 : bitAt (ck.toNat + ts.toNat * 8 + bar.toNat * 16 + crc.toNat * 32 + nb.toNat * 64) 6 = nb := bitAt_eq (by omega)
  have f10 : BitVec.ofNat 8 (t.toNat) = t := ofNat_eq (by omega)
  refine decode_pack (h := h) (op := 0xb0) (d := d.val) (a := a.val) (lo := loE b.val e.val pm.val t.toNat (ck.toNat + ts.toNat * 8 + bar.toNat * 16 + crc.toNat * 32 + nb.toNat * 64)) hw rfl (by decide) (by omega) (by omega) (by simp only [loE]; omega) ?_
  simp [build, buildB, f0, f1, f2, f3, f4, f5, f6, f7, f8, f9, f10]

theorem Laws.Coded.hxfm (h : Hd) (ts : Bool) (bar : Bool) (nb : Bool) (d : Fin 64) (a : Fin 64) (pm : Fin 64) (t : BitVec 8) : Laws.Coded.Statement (.hxfm h ts bar nb d a pm t) := by
  intro hw
  have b_ts := Bool.toNat_lt ts
  have b_bar := Bool.toNat_lt bar
  have b_nb := Bool.toNat_lt nb
  have b_d := d.isLt
  have b_a := a.isLt
  have b_pm := pm.isLt
  have b_t := t.isLt
  have f0 : bitsAt (loE 0 0 pm.val t.toNat (ts.toNat * 8 + bar.toNat * 16 + nb.toNat * 64)) 16 6 = pm.val := by simp only [bitsAt, loE]; omega
  have f1 : bitsAt (loE 0 0 pm.val t.toNat (ts.toNat * 8 + bar.toNat * 16 + nb.toNat * 64)) 8 8 = t.toNat := by simp only [bitsAt, loE]; omega
  have f2 : bitsAt (loE 0 0 pm.val t.toNat (ts.toNat * 8 + bar.toNat * 16 + nb.toNat * 64)) 0 8 = (ts.toNat * 8 + bar.toNat * 16 + nb.toNat * 64) := by simp only [bitsAt, loE]; omega
  have f3 : bitAt (ts.toNat * 8 + bar.toNat * 16 + nb.toNat * 64) 3 = ts := bitAt_eq (by omega)
  have f4 : bitAt (ts.toNat * 8 + bar.toNat * 16 + nb.toNat * 64) 4 = bar := bitAt_eq (by omega)
  have f5 : bitAt (ts.toNat * 8 + bar.toNat * 16 + nb.toNat * 64) 6 = nb := bitAt_eq (by omega)
  have f6 : BitVec.ofNat 8 (t.toNat) = t := ofNat_eq (by omega)
  refine decode_pack (h := h) (op := 0xb1) (d := d.val) (a := a.val) (lo := loE 0 0 pm.val t.toNat (ts.toNat * 8 + bar.toNat * 16 + nb.toNat * 64)) hw rfl (by decide) (by omega) (by omega) (by simp only [loE]; omega) ?_
  simp [build, buildB, f0, f1, f2, f3, f4, f5, f6]

theorem Laws.Coded.hprog (h : Hd) (d : Fin 64) (a : Fin 64) : Laws.Coded.Statement (.hprog h d a) := by
  intro hw
  have b_d := d.isLt
  have b_a := a.isLt
  refine decode_pack (h := h) (op := 0xb2) (d := d.val) (a := a.val) (lo := loE 0 0 0 0 0) hw rfl (by decide) (by omega) (by omega) (by decide) ?_
  simp [build, buildB]

theorem Laws.Coded.hfab (h : Hd) (ck : BitVec 3) (get : Bool) (bar : Bool) (crc : Bool) (nb : Bool) (fold : Bool) (d : Fin 64) (a : Fin 64) (b : Fin 64) (e : Fin 64) (pm : Fin 64) (peer : BitVec 8) : Laws.Coded.Statement (.hfab h ck get bar crc nb fold d a b e pm peer) := by
  intro hw
  have b_ck := ck.isLt
  have b_get := Bool.toNat_lt get
  have b_bar := Bool.toNat_lt bar
  have b_crc := Bool.toNat_lt crc
  have b_nb := Bool.toNat_lt nb
  have b_fold := Bool.toNat_lt fold
  have b_d := d.isLt
  have b_a := a.isLt
  have b_b := b.isLt
  have b_e := e.isLt
  have b_pm := pm.isLt
  have b_peer := peer.isLt
  have f0 : bitsAt (loE b.val e.val pm.val peer.toNat (ck.toNat + get.toNat * 8 + bar.toNat * 16 + crc.toNat * 32 + nb.toNat * 64 + fold.toNat * 128)) 28 6 = b.val := by simp only [bitsAt, loE]; omega
  have f1 : bitsAt (loE b.val e.val pm.val peer.toNat (ck.toNat + get.toNat * 8 + bar.toNat * 16 + crc.toNat * 32 + nb.toNat * 64 + fold.toNat * 128)) 22 6 = e.val := by simp only [bitsAt, loE]; omega
  have f2 : bitsAt (loE b.val e.val pm.val peer.toNat (ck.toNat + get.toNat * 8 + bar.toNat * 16 + crc.toNat * 32 + nb.toNat * 64 + fold.toNat * 128)) 16 6 = pm.val := by simp only [bitsAt, loE]; omega
  have f3 : bitsAt (loE b.val e.val pm.val peer.toNat (ck.toNat + get.toNat * 8 + bar.toNat * 16 + crc.toNat * 32 + nb.toNat * 64 + fold.toNat * 128)) 8 8 = peer.toNat := by simp only [bitsAt, loE]; omega
  have f4 : bitsAt (loE b.val e.val pm.val peer.toNat (ck.toNat + get.toNat * 8 + bar.toNat * 16 + crc.toNat * 32 + nb.toNat * 64 + fold.toNat * 128)) 0 8 = (ck.toNat + get.toNat * 8 + bar.toNat * 16 + crc.toNat * 32 + nb.toNat * 64 + fold.toNat * 128) := by simp only [bitsAt, loE]; omega
  have f5 : BitVec.ofNat 3 (ck.toNat + get.toNat * 8 + bar.toNat * 16 + crc.toNat * 32 + nb.toNat * 64 + fold.toNat * 128) = ck := ofNat_eq (by omega)
  have f6 : bitAt (ck.toNat + get.toNat * 8 + bar.toNat * 16 + crc.toNat * 32 + nb.toNat * 64 + fold.toNat * 128) 3 = get := bitAt_eq (by omega)
  have f7 : bitAt (ck.toNat + get.toNat * 8 + bar.toNat * 16 + crc.toNat * 32 + nb.toNat * 64 + fold.toNat * 128) 4 = bar := bitAt_eq (by omega)
  have f8 : bitAt (ck.toNat + get.toNat * 8 + bar.toNat * 16 + crc.toNat * 32 + nb.toNat * 64 + fold.toNat * 128) 5 = crc := bitAt_eq (by omega)
  have f9 : bitAt (ck.toNat + get.toNat * 8 + bar.toNat * 16 + crc.toNat * 32 + nb.toNat * 64 + fold.toNat * 128) 6 = nb := bitAt_eq (by omega)
  have f10 : bitAt (ck.toNat + get.toNat * 8 + bar.toNat * 16 + crc.toNat * 32 + nb.toNat * 64 + fold.toNat * 128) 7 = fold := bitAt_eq (by omega)
  have f11 : BitVec.ofNat 8 (peer.toNat) = peer := ofNat_eq (by omega)
  refine decode_pack (h := h) (op := 0xb3) (d := d.val) (a := a.val) (lo := loE b.val e.val pm.val peer.toNat (ck.toNat + get.toNat * 8 + bar.toNat * 16 + crc.toNat * 32 + nb.toNat * 64 + fold.toNat * 128)) hw rfl (by decide) (by omega) (by omega) (by simp only [loE]; omega) ?_
  simp [build, buildB, f0, f1, f2, f3, f4, f5, f6, f7, f8, f9, f10, f11]

theorem Laws.Coded.chunkFinish (slot : Nat) (chunk : Nat) : Laws.Coded.Statement (.chunkFinish slot chunk) := fun _ => trivial


theorem Laws.Coded.peerTimeout (slot : Nat) : Laws.Coded.Statement (.peerTimeout slot) := fun _ => trivial


theorem Laws.Coded.hstatRd (h : Hd) (d : Fin 64) (a : Fin 64) : Laws.Coded.Statement (.hstatRd h d a) := by
  intro hw
  have b_d := d.isLt
  have b_a := a.isLt
  have f0 : bitsAt (loE 0 0 0 0 0) 0 8 = 0 := by simp only [bitsAt, loE]; omega
  refine decode_pack (h := h) (op := 0xb4) (d := d.val) (a := a.val) (lo := loE 0 0 0 0 0) hw rfl (by decide) (by omega) (by omega) (by decide) ?_
  simp [build, buildB, f0]

theorem Laws.Coded.hstatWt (h : Hd) (d : Fin 64) (a : Fin 64) : Laws.Coded.Statement (.hstatWt h d a) := by
  intro hw
  have b_d := d.isLt
  have b_a := a.isLt
  have f0 : bitsAt (loE 0 0 0 0 1) 0 8 = 1 := by simp only [bitsAt, loE]; omega
  refine decode_pack (h := h) (op := 0xb4) (d := d.val) (a := a.val) (lo := loE 0 0 0 0 1) hw rfl (by decide) (by omega) (by omega) (by decide) ?_
  simp [build, buildB, f0]

theorem Laws.Coded.hstatRel (h : Hd) (d : Fin 64) (a : Fin 64) : Laws.Coded.Statement (.hstatRel h d a) := by
  intro hw
  have b_d := d.isLt
  have b_a := a.isLt
  have f0 : bitsAt (loE 0 0 0 0 2) 0 8 = 2 := by simp only [bitsAt, loE]; omega
  refine decode_pack (h := h) (op := 0xb4) (d := d.val) (a := a.val) (lo := loE 0 0 0 0 2) hw rfl (by decide) (by omega) (by omega) (by decide) ?_
  simp [build, buildB, f0]

theorem Laws.Coded.hstatAbort (h : Hd) (d : Fin 64) (a : Fin 64) : Laws.Coded.Statement (.hstatAbort h d a) := by
  intro hw
  have b_d := d.isLt
  have b_a := a.isLt
  have f0 : bitsAt (loE 0 0 0 0 3) 0 8 = 3 := by simp only [bitsAt, loE]; omega
  refine decode_pack (h := h) (op := 0xb4) (d := d.val) (a := a.val) (lo := loE 0 0 0 0 3) hw rfl (by decide) (by omega) (by omega) (by decide) ?_
  simp [build, buildB, f0]

theorem Laws.Coded.hcsumRd (h : Hd) (d : Fin 64) : Laws.Coded.Statement (.hcsumRd h d) := by
  intro hw
  have b_d := d.isLt
  have f0 : bitsAt (loE 0 0 0 0 0) 0 8 = 0 := by simp only [bitsAt, loE]; omega
  refine decode_pack (h := h) (op := 0xb5) (d := d.val) (a := 0) (lo := loE 0 0 0 0 0) hw rfl (by decide) (by omega) (by omega) (by decide) ?_
  simp [build, buildB, f0]

theorem Laws.Coded.hcsumSet (h : Hd) (a : Fin 64) : Laws.Coded.Statement (.hcsumSet h a) := by
  intro hw
  have b_a := a.isLt
  have f0 : bitsAt (loE 0 0 0 0 1) 0 8 = 1 := by simp only [bitsAt, loE]; omega
  refine decode_pack (h := h) (op := 0xb5) (d := 0) (a := a.val) (lo := loE 0 0 0 0 1) hw rfl (by decide) (by omega) (by omega) (by decide) ?_
  simp [build, buildB, f0]

theorem Laws.Coded.hcsumChk (h : Hd) (d : Fin 64) (a : Fin 64) : Laws.Coded.Statement (.hcsumChk h d a) := by
  intro hw
  have b_d := d.isLt
  have b_a := a.isLt
  have f0 : bitsAt (loE 0 0 0 0 2) 0 8 = 2 := by simp only [bitsAt, loE]; omega
  refine decode_pack (h := h) (op := 0xb5) (d := d.val) (a := a.val) (lo := loE 0 0 0 0 2) hw rfl (by decide) (by omega) (by omega) (by decide) ?_
  simp [build, buildB, f0]

theorem Laws.Coded.xco (h : Hd) (m : ReedM) (a : Fin 64) : Laws.Coded.Statement (.xco h m a) := by
  intro hw
  have b_m := m.code_lt
  have b_a := a.isLt
  have f0 : bitsAt (loE 0 0 0 0 m.code) 0 8 = m.code := by simp only [bitsAt, loE]; omega
  have f1 : bitsAt (m.code) 0 8 = m.code := by simp only [bitsAt]; omega
  refine decode_pack (h := h) (op := 0xb6) (d := 0) (a := a.val) (lo := loE 0 0 0 0 m.code) hw rfl (by decide) (by omega) (by omega) (by simp only [loE]; omega) ?_
  simp [build, buildB, f0, f1]

theorem Laws.Coded.xnext (h : Hd) (d : Fin 64) (b : Fin 64) : Laws.Coded.Statement (.xnext h d b) := by
  intro hw
  have b_d := d.isLt
  have b_b := b.isLt
  have f0 : bitsAt (loE b.val 0 0 0 0) 28 6 = b.val := by simp only [bitsAt, loE]; omega
  refine decode_pack (h := h) (op := 0xb7) (d := d.val) (a := 0) (lo := loE b.val 0 0 0 0) hw rfl (by decide) (by omega) (by omega) (by simp only [loE]; omega) ?_
  simp [build, buildB, f0]

theorem Laws.Coded.xcurRdl (h : Hd) (d : Fin 64) : Laws.Coded.Statement (.xcurRdl h d) := by
  intro hw
  have b_d := d.isLt
  have f0 : bitsAt (loE 0 0 0 0 0) 0 8 = 0 := by simp only [bitsAt, loE]; omega
  refine decode_pack (h := h) (op := 0xb8) (d := d.val) (a := 0) (lo := loE 0 0 0 0 0) hw rfl (by decide) (by omega) (by omega) (by decide) ?_
  simp [build, buildB, f0]

theorem Laws.Coded.xcurRdh (h : Hd) (d : Fin 64) : Laws.Coded.Statement (.xcurRdh h d) := by
  intro hw
  have b_d := d.isLt
  have f0 : bitsAt (loE 0 0 0 0 1) 0 8 = 1 := by simp only [bitsAt, loE]; omega
  refine decode_pack (h := h) (op := 0xb8) (d := d.val) (a := 0) (lo := loE 0 0 0 0 1) hw rfl (by decide) (by omega) (by omega) (by decide) ?_
  simp [build, buildB, f0]

theorem Laws.Coded.xcurWrl (h : Hd) (a : Fin 64) : Laws.Coded.Statement (.xcurWrl h a) := by
  intro hw
  have b_a := a.isLt
  have f0 : bitsAt (loE 0 0 0 0 2) 0 8 = 2 := by simp only [bitsAt, loE]; omega
  refine decode_pack (h := h) (op := 0xb8) (d := 0) (a := a.val) (lo := loE 0 0 0 0 2) hw rfl (by decide) (by omega) (by omega) (by decide) ?_
  simp [build, buildB, f0]

theorem Laws.Coded.xcurWrh (h : Hd) (a : Fin 64) : Laws.Coded.Statement (.xcurWrh h a) := by
  intro hw
  have b_a := a.isLt
  have f0 : bitsAt (loE 0 0 0 0 3) 0 8 = 3 := by simp only [bitsAt, loE]; omega
  refine decode_pack (h := h) (op := 0xb8) (d := 0) (a := a.val) (lo := loE 0 0 0 0 3) hw rfl (by decide) (by omega) (by omega) (by decide) ?_
  simp [build, buildB, f0]

theorem Laws.Coded.xcurClr (h : Hd) : Laws.Coded.Statement (.xcurClr h) := by
  intro hw
  have f0 : bitsAt (loE 0 0 0 0 4) 0 8 = 4 := by simp only [bitsAt, loE]; omega
  refine decode_pack (h := h) (op := 0xb8) (d := 0) (a := 0) (lo := loE 0 0 0 0 4) hw rfl (by decide) (by omega) (by omega) (by decide) ?_
  simp [build, buildB, f0]

theorem Laws.Coded.tnow (h : Hd) (d : Fin 64) : Laws.Coded.Statement (.tnow h d) := by
  intro hw
  have b_d := d.isLt
  have f0 : bitsAt (loE 0 0 0 0 0) 0 8 = 0 := by simp only [bitsAt, loE]; omega
  refine decode_pack (h := h) (op := 0xb9) (d := d.val) (a := 0) (lo := loE 0 0 0 0 0) hw rfl (by decide) (by omega) (by omega) (by decide) ?_
  simp [build, buildB, f0]

theorem Laws.Coded.tnowSt (h : Hd) (d : Fin 64) : Laws.Coded.Statement (.tnowSt h d) := by
  intro hw
  have b_d := d.isLt
  have f0 : bitsAt (loE 0 0 0 0 1) 0 8 = 1 := by simp only [bitsAt, loE]; omega
  refine decode_pack (h := h) (op := 0xb9) (d := d.val) (a := 0) (lo := loE 0 0 0 0 1) hw rfl (by decide) (by omega) (by omega) (by decide) ?_
  simp [build, buildB, f0]

theorem Laws.Coded.tarm (h : Hd) (d : Fin 64) (a : Fin 64) : Laws.Coded.Statement (.tarm h d a) := by
  intro hw
  have b_d := d.isLt
  have b_a := a.isLt
  have f0 : bitsAt (loE 0 0 0 0 0) 0 8 = 0 := by simp only [bitsAt, loE]; omega
  refine decode_pack (h := h) (op := 0xba) (d := d.val) (a := a.val) (lo := loE 0 0 0 0 0) hw rfl (by decide) (by omega) (by omega) (by decide) ?_
  simp [build, buildB, f0]

theorem Laws.Coded.tarmClr (h : Hd) (d : Fin 64) : Laws.Coded.Statement (.tarmClr h d) := by
  intro hw
  have b_d := d.isLt
  have f0 : bitsAt (loE 0 0 0 0 1) 0 8 = 1 := by simp only [bitsAt, loE]; omega
  refine decode_pack (h := h) (op := 0xba) (d := d.val) (a := 0) (lo := loE 0 0 0 0 1) hw rfl (by decide) (by omega) (by omega) (by decide) ?_
  simp [build, buildB, f0]

theorem Laws.Coded.timerFire : Laws.Coded.Statement .timerFire := fun _ => trivial


theorem Laws.Coded.trap (h : Hd) (n : BitVec 16) : Laws.Coded.Statement (.trap h n) := by
  intro hw
  have b_n := n.isLt
  have f0 : bitsAt (loY 0 0 n.toNat) 0 16 = n.toNat := by simp only [bitsAt, loY]; omega
  have f1 : BitVec.ofNat 16 (n.toNat) = n := ofNat_eq (by omega)
  refine decode_pack (h := h) (op := 0xc0) (d := 0) (a := 0) (lo := loY 0 0 n.toNat) hw rfl (by decide) (by omega) (by omega) (by simp only [loY]; omega) ?_
  simp [build, buildC, f0, f1]

theorem Laws.Coded.eret (h : Hd) : Laws.Coded.Statement (.eret h) := by
  intro hw
  refine decode_pack (h := h) (op := 0xc1) (d := 0) (a := 0) (lo := loY 0 0 0) hw rfl (by decide) (by omega) (by omega) (by decide) ?_
  simp [build, buildC]

theorem Laws.Coded.srd (h : Hd) (k : SReg) (d : Fin 64) : Laws.Coded.Statement (.srd h k d) := by
  intro hw
  have b_k := k.sel_lt
  have b_d := d.isLt
  have f0 : bitsAt (loY 0 k.sel 0) 16 12 = k.sel := by simp only [bitsAt, loY]; omega
  refine decode_pack (h := h) (op := 0xc2) (d := d.val) (a := 0) (lo := loY 0 k.sel 0) hw rfl (by decide) (by omega) (by omega) (by simp only [loY]; omega) ?_
  simp [build, buildC, f0]

theorem Laws.Coded.swr (h : Hd) (k : SReg) (a : Fin 64) : Laws.Coded.Statement (.swr h k a) := by
  intro hw
  have b_k := k.sel_lt
  have b_a := a.isLt
  have f0 : bitsAt (loY 0 k.sel 0) 16 12 = k.sel := by simp only [bitsAt, loY]; omega
  refine decode_pack (h := h) (op := 0xc3) (d := 0) (a := a.val) (lo := loY 0 k.sel 0) hw rfl (by decide) (by omega) (by omega) (by simp only [loY]; omega) ?_
  simp [build, buildC, f0]

theorem Laws.Coded.halt (h : Hd) (n : BitVec 16) : Laws.Coded.Statement (.halt h n) := by
  intro hw
  have b_n := n.isLt
  have f0 : bitsAt (loY 0 0 n.toNat) 0 16 = n.toNat := by simp only [bitsAt, loY]; omega
  have f1 : BitVec.ofNat 16 (n.toNat) = n := ofNat_eq (by omega)
  refine decode_pack (h := h) (op := 0xc4) (d := 0) (a := 0) (lo := loY 0 0 n.toNat) hw rfl (by decide) (by omega) (by omega) (by simp only [loY]; omega) ?_
  simp [build, buildC, f0, f1]

theorem Laws.Coded.bkpt (h : Hd) (n : BitVec 16) : Laws.Coded.Statement (.bkpt h n) := by
  intro hw
  have b_n := n.isLt
  have f0 : bitsAt (loY 0 0 n.toNat) 0 16 = n.toNat := by simp only [bitsAt, loY]; omega
  have f1 : BitVec.ofNat 16 (n.toNat) = n := ofNat_eq (by omega)
  refine decode_pack (h := h) (op := 0xc5) (d := 0) (a := 0) (lo := loY 0 0 n.toNat) hw rfl (by decide) (by omega) (by omega) (by simp only [loY]; omega) ?_
  simp [build, buildC, f0, f1]

theorem Laws.Coded.yield (h : Hd) : Laws.Coded.Statement (.yield h) := by
  intro hw
  refine decode_pack (h := h) (op := 0xc6) (d := 0) (a := 0) (lo := loY 0 0 0) hw rfl (by decide) (by omega) (by omega) (by decide) ?_
  simp [build, buildC]

theorem Laws.Coded.xinvPg (h : Hd) (a : Fin 64) (b : Fin 64) : Laws.Coded.Statement (.xinvPg h a b) := by
  intro hw
  have b_a := a.isLt
  have b_b := b.isLt
  have f0 : bitsAt (loY b.val 0 0) 28 6 = b.val := by simp only [bitsAt, loY]; omega
  have f1 : bitsAt (loY b.val 0 0) 0 16 = 0 := by simp only [bitsAt, loY]; omega
  refine decode_pack (h := h) (op := 0xc7) (d := 0) (a := a.val) (lo := loY b.val 0 0) hw rfl (by decide) (by omega) (by omega) (by simp only [loY]; omega) ?_
  simp [build, buildC, f0, f1]

theorem Laws.Coded.xinvAll (h : Hd) (a : Fin 64) : Laws.Coded.Statement (.xinvAll h a) := by
  intro hw
  have b_a := a.isLt
  have f0 : bitsAt (loY 0 0 1) 0 16 = 1 := by simp only [bitsAt, loY]; omega
  refine decode_pack (h := h) (op := 0xc7) (d := 0) (a := a.val) (lo := loY 0 0 1) hw rfl (by decide) (by omega) (by omega) (by decide) ?_
  simp [build, buildC, f0]

theorem Laws.Coded.keyz (h : Hd) (a : Fin 64) : Laws.Coded.Statement (.keyz h a) := by
  intro hw
  have b_a := a.isLt
  refine decode_pack (h := h) (op := 0xc8) (d := 0) (a := a.val) (lo := loY 0 0 0) hw rfl (by decide) (by omega) (by omega) (by decide) ?_
  simp [build, buildC]

theorem Laws.Coded.scrubSt (h : Hd) (a : Fin 64) : Laws.Coded.Statement (.scrubSt h a) := by
  intro hw
  have b_a := a.isLt
  have f0 : bitsAt (loY 0 0 0) 0 16 = 0 := by simp only [bitsAt, loY]; omega
  refine decode_pack (h := h) (op := 0xc9) (d := 0) (a := a.val) (lo := loY 0 0 0) hw rfl (by decide) (by omega) (by omega) (by decide) ?_
  simp [build, buildC, f0]

theorem Laws.Coded.scrubRd (h : Hd) (d : Fin 64) (a : Fin 64) : Laws.Coded.Statement (.scrubRd h d a) := by
  intro hw
  have b_d := d.isLt
  have b_a := a.isLt
  have f0 : bitsAt (loY 0 0 1) 0 16 = 1 := by simp only [bitsAt, loY]; omega
  refine decode_pack (h := h) (op := 0xc9) (d := d.val) (a := a.val) (lo := loY 0 0 1) hw rfl (by decide) (by omega) (by omega) (by decide) ?_
  simp [build, buildC, f0]

theorem Laws.Coded.scrubWt (h : Hd) (a : Fin 64) : Laws.Coded.Statement (.scrubWt h a) := by
  intro hw
  have b_a := a.isLt
  have f0 : bitsAt (loY 0 0 2) 0 16 = 2 := by simp only [bitsAt, loY]; omega
  refine decode_pack (h := h) (op := 0xc9) (d := 0) (a := a.val) (lo := loY 0 0 2) hw rfl (by decide) (by omega) (by omega) (by decide) ?_
  simp [build, buildC, f0]

theorem Laws.Coded.scrubGranule (die : Nat) (pid : Nat) : Laws.Coded.Statement (.scrubGranule die pid) := fun _ => trivial


theorem Laws.Coded.scrubPendingStart (die : Nat) : Laws.Coded.Statement (.scrubPendingStart die) := fun _ => trivial


theorem Laws.Coded.frqN (h : Hd) (d : Fin 64) : Laws.Coded.Statement (.frqN h d) := by
  intro hw
  have b_d := d.isLt
  have f0 : bitsAt (loY 0 0 0) 0 16 = 0 := by simp only [bitsAt, loY]; omega
  refine decode_pack (h := h) (op := 0xca) (d := d.val) (a := 0) (lo := loY 0 0 0) hw rfl (by decide) (by omega) (by omega) (by decide) ?_
  simp [build, buildC, f0]

theorem Laws.Coded.frqPop (h : Hd) (d : Fin 64) (a : Fin 64) : Laws.Coded.Statement (.frqPop h d a) := by
  intro hw
  have b_d := d.isLt
  have b_a := a.isLt
  have f0 : bitsAt (loY 0 0 1) 0 16 = 1 := by simp only [bitsAt, loY]; omega
  refine decode_pack (h := h) (op := 0xca) (d := d.val) (a := a.val) (lo := loY 0 0 1) hw rfl (by decide) (by omega) (by omega) (by decide) ?_
  simp [build, buildC, f0]

theorem Laws.Coded.wfe (h : Hd) (m : BitVec 16) (d : Fin 64) : Laws.Coded.Statement (.wfe h m d) := by
  intro hw
  have b_m := m.isLt
  have b_d := d.isLt
  have f0 : bitsAt (loY 0 0 m.toNat) 0 16 = m.toNat := by simp only [bitsAt, loY]; omega
  have f1 : BitVec.ofNat 16 (m.toNat) = m := ofNat_eq (by omega)
  refine decode_pack (h := h) (op := 0xcb) (d := d.val) (a := 0) (lo := loY 0 0 m.toNat) hw rfl (by decide) (by omega) (by omega) (by simp only [loY]; omega) ?_
  simp [build, buildC, f0, f1]

theorem Laws.Coded.cnt (h : Hd) (k : CntK) (d : Fin 64) : Laws.Coded.Statement (.cnt h k d) := by
  intro hw
  have b_k := k.sel_lt
  have b_d := d.isLt
  have f0 : bitsAt (loY 0 k.sel 0) 16 12 = k.sel := by simp only [bitsAt, loY]; omega
  refine decode_pack (h := h) (op := 0xcc) (d := d.val) (a := 0) (lo := loY 0 k.sel 0) hw rfl (by decide) (by omega) (by omega) (by simp only [loY]; omega) ?_
  simp [build, buildC, f0]

theorem Laws.Coded.hrd (d : Fin 8) (i : BitVec 12) : Laws.Coded.Statement (.hrd d i) := by
  intro hw
  have b_d := d.isLt
  have b_i := i.isLt
  have ho : bitsAt (0 * 134217728 + d.val * 16777216 + i.toNat) 27 5 = 0 := by simp only [bitsAt]; omega
  have f0 : Fin.ofNat 8 (bitsAt (0 * 134217728 + d.val * 16777216 + i.toNat) 24 3) = d := by simp only [Fin.ext_iff, Fin.val_ofNat, bitsAt]; omega
  have f1 : BitVec.ofNat 12 (bitsAt (0 * 134217728 + d.val * 16777216 + i.toNat) 0 12) = i := ofNat_eq (by simp only [bitsAt]; omega)
  refine decodeMicro_build ?_ (by
    show bitsAt (0 * 134217728 + d.val * 16777216 + i.toNat) 16 5 ≤ 17
    simp only [bitsAt]; omega)
  show buildMicro (0 * 134217728 + d.val * 16777216 + i.toNat) = _
  simp only [buildMicro, Nat.reduceEqDiff, reduceIte, ho, f0, f1]

theorem Laws.Coded.hwr (s : Fin 8) (i : BitVec 12) : Laws.Coded.Statement (.hwr s i) := by
  intro hw
  have b_s := s.isLt
  have b_i := i.isLt
  have ho : bitsAt (1 * 134217728 + s.val * 2097152 + i.toNat) 27 5 = 1 := by simp only [bitsAt]; omega
  have f0 : Fin.ofNat 8 (bitsAt (1 * 134217728 + s.val * 2097152 + i.toNat) 21 3) = s := by simp only [Fin.ext_iff, Fin.val_ofNat, bitsAt]; omega
  have f1 : BitVec.ofNat 12 (bitsAt (1 * 134217728 + s.val * 2097152 + i.toNat) 0 12) = i := ofNat_eq (by simp only [bitsAt]; omega)
  refine decodeMicro_build ?_ (by
    show bitsAt (1 * 134217728 + s.val * 2097152 + i.toNat) 16 5 ≤ 17
    simp only [bitsAt]; omega)
  show buildMicro (1 * 134217728 + s.val * 2097152 + i.toNat) = _
  simp only [buildMicro, Nat.reduceEqDiff, one_ne_zero, reduceIte, ho, f0, f1]

theorem Laws.Coded.hcvt (d : Fin 8) (s : Fin 8) (f : BitVec 5) (rm : Rm) (ov : Ov) (src : BitVec 5) : Laws.Coded.Statement (.hcvt d s f rm ov src) := by
  intro hw
  have b_d := d.isLt
  have b_s := s.isLt
  have b_f := f.isLt
  have b_rm := rm.code_lt
  have b_ov := ov.code_lt
  have b_src := src.isLt
  have ho : bitsAt (2 * 134217728 + d.val * 16777216 + s.val * 2097152 + f.toNat * 65536 + rm.code * 16384 + ov.code * 4096 + src.toNat) 27 5 = 2 := by simp only [bitsAt]; omega
  have f0 : bitsAt (2 * 134217728 + d.val * 16777216 + s.val * 2097152 + f.toNat * 65536 + rm.code * 16384 + ov.code * 4096 + src.toNat) 14 2 = rm.code := by simp only [bitsAt]; omega
  have f1 : bitsAt (2 * 134217728 + d.val * 16777216 + s.val * 2097152 + f.toNat * 65536 + rm.code * 16384 + ov.code * 4096 + src.toNat) 12 2 = ov.code := by simp only [bitsAt]; omega
  have f2 : Fin.ofNat 8 (bitsAt (2 * 134217728 + d.val * 16777216 + s.val * 2097152 + f.toNat * 65536 + rm.code * 16384 + ov.code * 4096 + src.toNat) 24 3) = d := by simp only [Fin.ext_iff, Fin.val_ofNat, bitsAt]; omega
  have f3 : Fin.ofNat 8 (bitsAt (2 * 134217728 + d.val * 16777216 + s.val * 2097152 + f.toNat * 65536 + rm.code * 16384 + ov.code * 4096 + src.toNat) 21 3) = s := by simp only [Fin.ext_iff, Fin.val_ofNat, bitsAt]; omega
  have f4 : BitVec.ofNat 5 (bitsAt (2 * 134217728 + d.val * 16777216 + s.val * 2097152 + f.toNat * 65536 + rm.code * 16384 + ov.code * 4096 + src.toNat) 16 5) = f := ofNat_eq (by simp only [bitsAt]; omega)
  have f5 : BitVec.ofNat 5 (bitsAt (2 * 134217728 + d.val * 16777216 + s.val * 2097152 + f.toNat * 65536 + rm.code * 16384 + ov.code * 4096 + src.toNat) 0 5) = src := ofNat_eq (by simp only [bitsAt]; omega)
  have hf : f.toNat ≤ 17 := by
    simp [Instr.wf] at hw
    omega
  refine decodeMicro_build ?_ (by
    show bitsAt (2 * 134217728 + d.val * 16777216 + s.val * 2097152 + f.toNat * 65536 + rm.code * 16384 + ov.code * 4096 + src.toNat) 16 5 ≤ 17
    simp only [bitsAt]; omega)
  show buildMicro (2 * 134217728 + d.val * 16777216 + s.val * 2097152 + f.toNat * 65536 + rm.code * 16384 + ov.code * 4096 + src.toNat) = _
  simp only [buildMicro, Nat.reduceEqDiff, OfNat.ofNat_ne_zero, reduceIte, Option.bind_some, Rm.ofCode_code, Ov.ofCode_code, ho, f0, f1, f2, f3, f4, f5]

theorem Laws.Coded.hqnt (d : Fin 8) (s : Fin 8) (f : BitVec 5) (rm : Rm) (ov : Ov) (src : BitVec 5) (mx : Bool) : Laws.Coded.Statement (.hqnt d s f rm ov src mx) := by
  intro hw
  have b_d := d.isLt
  have b_s := s.isLt
  have b_f := f.isLt
  have b_rm := rm.code_lt
  have b_ov := ov.code_lt
  have b_src := src.isLt
  have b_mx := Bool.toNat_lt mx
  have ho : bitsAt (3 * 134217728 + d.val * 16777216 + s.val * 2097152 + f.toNat * 65536 + rm.code * 16384 + ov.code * 4096 + src.toNat + mx.toNat * 32) 27 5 = 3 := by simp only [bitsAt]; omega
  have f0 : bitsAt (3 * 134217728 + d.val * 16777216 + s.val * 2097152 + f.toNat * 65536 + rm.code * 16384 + ov.code * 4096 + src.toNat + mx.toNat * 32) 14 2 = rm.code := by simp only [bitsAt]; omega
  have f1 : bitsAt (3 * 134217728 + d.val * 16777216 + s.val * 2097152 + f.toNat * 65536 + rm.code * 16384 + ov.code * 4096 + src.toNat + mx.toNat * 32) 12 2 = ov.code := by simp only [bitsAt]; omega
  have f2 : Fin.ofNat 8 (bitsAt (3 * 134217728 + d.val * 16777216 + s.val * 2097152 + f.toNat * 65536 + rm.code * 16384 + ov.code * 4096 + src.toNat + mx.toNat * 32) 24 3) = d := by simp only [Fin.ext_iff, Fin.val_ofNat, bitsAt]; omega
  have f3 : Fin.ofNat 8 (bitsAt (3 * 134217728 + d.val * 16777216 + s.val * 2097152 + f.toNat * 65536 + rm.code * 16384 + ov.code * 4096 + src.toNat + mx.toNat * 32) 21 3) = s := by simp only [Fin.ext_iff, Fin.val_ofNat, bitsAt]; omega
  have f4 : BitVec.ofNat 5 (bitsAt (3 * 134217728 + d.val * 16777216 + s.val * 2097152 + f.toNat * 65536 + rm.code * 16384 + ov.code * 4096 + src.toNat + mx.toNat * 32) 16 5) = f := ofNat_eq (by simp only [bitsAt]; omega)
  have f5 : BitVec.ofNat 5 (bitsAt (3 * 134217728 + d.val * 16777216 + s.val * 2097152 + f.toNat * 65536 + rm.code * 16384 + ov.code * 4096 + src.toNat + mx.toNat * 32) 0 5) = src := ofNat_eq (by simp only [bitsAt]; omega)
  have f6 : bitAt (3 * 134217728 + d.val * 16777216 + s.val * 2097152 + f.toNat * 65536 + rm.code * 16384 + ov.code * 4096 + src.toNat + mx.toNat * 32) 5 = mx := bitAt_eq (by omega)
  have hf : f.toNat ≤ 17 := by
    simp [Instr.wf] at hw
    omega
  refine decodeMicro_build ?_ (by
    show bitsAt (3 * 134217728 + d.val * 16777216 + s.val * 2097152 + f.toNat * 65536 + rm.code * 16384 + ov.code * 4096 + src.toNat + mx.toNat * 32) 16 5 ≤ 17
    simp only [bitsAt]; omega)
  show buildMicro (3 * 134217728 + d.val * 16777216 + s.val * 2097152 + f.toNat * 65536 + rm.code * 16384 + ov.code * 4096 + src.toNat + mx.toNat * 32) = _
  simp only [buildMicro, Nat.reduceEqDiff, OfNat.ofNat_ne_zero, reduceIte, Option.bind_some, Rm.ofCode_code, Ov.ofCode_code, ho, f0, f1, f2, f3, f4, f5, f6]

theorem Laws.Coded.hfrm (d : Fin 8) (s : Fin 8) (f : BitVec 5) (co : BitVec 8) (mx : Bool) : Laws.Coded.Statement (.hfrm d s f co mx) := by
  intro hw
  have b_d := d.isLt
  have b_s := s.isLt
  have b_f := f.isLt
  have b_co := co.isLt
  have b_mx := Bool.toNat_lt mx
  have ho : bitsAt (4 * 134217728 + d.val * 16777216 + s.val * 2097152 + f.toNat * 65536 + co.toNat + mx.toNat * 256) 27 5 = 4 := by simp only [bitsAt]; omega
  have f0 : Fin.ofNat 8 (bitsAt (4 * 134217728 + d.val * 16777216 + s.val * 2097152 + f.toNat * 65536 + co.toNat + mx.toNat * 256) 24 3) = d := by simp only [Fin.ext_iff, Fin.val_ofNat, bitsAt]; omega
  have f1 : Fin.ofNat 8 (bitsAt (4 * 134217728 + d.val * 16777216 + s.val * 2097152 + f.toNat * 65536 + co.toNat + mx.toNat * 256) 21 3) = s := by simp only [Fin.ext_iff, Fin.val_ofNat, bitsAt]; omega
  have f2 : BitVec.ofNat 5 (bitsAt (4 * 134217728 + d.val * 16777216 + s.val * 2097152 + f.toNat * 65536 + co.toNat + mx.toNat * 256) 16 5) = f := ofNat_eq (by simp only [bitsAt]; omega)
  have f3 : BitVec.ofNat 8 (bitsAt (4 * 134217728 + d.val * 16777216 + s.val * 2097152 + f.toNat * 65536 + co.toNat + mx.toNat * 256) 0 8) = co := ofNat_eq (by simp only [bitsAt]; omega)
  have f4 : bitAt (4 * 134217728 + d.val * 16777216 + s.val * 2097152 + f.toNat * 65536 + co.toNat + mx.toNat * 256) 8 = mx := bitAt_eq (by omega)
  have hf : f.toNat ≤ 17 := by
    simp [Instr.wf] at hw
    omega
  refine decodeMicro_build ?_ (by
    show bitsAt (4 * 134217728 + d.val * 16777216 + s.val * 2097152 + f.toNat * 65536 + co.toNat + mx.toNat * 256) 16 5 ≤ 17
    simp only [bitsAt]; omega)
  show buildMicro (4 * 134217728 + d.val * 16777216 + s.val * 2097152 + f.toNat * 65536 + co.toNat + mx.toNat * 256) = _
  simp only [buildMicro, Nat.reduceEqDiff, OfNat.ofNat_ne_zero, reduceIte, ho, f0, f1, f2, f3, f4]

theorem Laws.Coded.hunf (d : Fin 8) (s : Fin 8) (f : BitVec 5) (rm : Rm) (ov : Ov) (run : Bool) : Laws.Coded.Statement (.hunf d s f rm ov run) := by
  intro hw
  have b_d := d.isLt
  have b_s := s.isLt
  have b_f := f.isLt
  have b_rm := rm.code_lt
  have b_ov := ov.code_lt
  have b_run := Bool.toNat_lt run
  have ho : bitsAt (5 * 134217728 + d.val * 16777216 + s.val * 2097152 + f.toNat * 65536 + rm.code * 16384 + ov.code * 4096 + run.toNat) 27 5 = 5 := by simp only [bitsAt]; omega
  have f0 : bitsAt (5 * 134217728 + d.val * 16777216 + s.val * 2097152 + f.toNat * 65536 + rm.code * 16384 + ov.code * 4096 + run.toNat) 14 2 = rm.code := by simp only [bitsAt]; omega
  have f1 : bitsAt (5 * 134217728 + d.val * 16777216 + s.val * 2097152 + f.toNat * 65536 + rm.code * 16384 + ov.code * 4096 + run.toNat) 12 2 = ov.code := by simp only [bitsAt]; omega
  have f2 : Fin.ofNat 8 (bitsAt (5 * 134217728 + d.val * 16777216 + s.val * 2097152 + f.toNat * 65536 + rm.code * 16384 + ov.code * 4096 + run.toNat) 24 3) = d := by simp only [Fin.ext_iff, Fin.val_ofNat, bitsAt]; omega
  have f3 : Fin.ofNat 8 (bitsAt (5 * 134217728 + d.val * 16777216 + s.val * 2097152 + f.toNat * 65536 + rm.code * 16384 + ov.code * 4096 + run.toNat) 21 3) = s := by simp only [Fin.ext_iff, Fin.val_ofNat, bitsAt]; omega
  have f4 : BitVec.ofNat 5 (bitsAt (5 * 134217728 + d.val * 16777216 + s.val * 2097152 + f.toNat * 65536 + rm.code * 16384 + ov.code * 4096 + run.toNat) 16 5) = f := ofNat_eq (by simp only [bitsAt]; omega)
  have f5 : bitAt (5 * 134217728 + d.val * 16777216 + s.val * 2097152 + f.toNat * 65536 + rm.code * 16384 + ov.code * 4096 + run.toNat) 0 = run := bitAt_eq (by omega)
  have hf : f.toNat ≤ 17 := by
    simp [Instr.wf] at hw
    omega
  refine decodeMicro_build ?_ (by
    show bitsAt (5 * 134217728 + d.val * 16777216 + s.val * 2097152 + f.toNat * 65536 + rm.code * 16384 + ov.code * 4096 + run.toNat) 16 5 ≤ 17
    simp only [bitsAt]; omega)
  show buildMicro (5 * 134217728 + d.val * 16777216 + s.val * 2097152 + f.toNat * 65536 + rm.code * 16384 + ov.code * 4096 + run.toNat) = _
  simp only [buildMicro, Nat.reduceEqDiff, OfNat.ofNat_ne_zero, reduceIte, Option.bind_some, Rm.ofCode_code, Ov.ofCode_code, ho, f0, f1, f2, f3, f4, f5]

theorem Laws.Coded.hxps (d : Fin 8) (s : Fin 8) (f : BitVec 5) (i : BitVec 12) : Laws.Coded.Statement (.hxps d s f i) := by
  intro hw
  have b_d := d.isLt
  have b_s := s.isLt
  have b_f := f.isLt
  have b_i := i.isLt
  have ho : bitsAt (6 * 134217728 + d.val * 16777216 + s.val * 2097152 + f.toNat * 65536 + i.toNat) 27 5 = 6 := by simp only [bitsAt]; omega
  have f0 : Fin.ofNat 8 (bitsAt (6 * 134217728 + d.val * 16777216 + s.val * 2097152 + f.toNat * 65536 + i.toNat) 24 3) = d := by simp only [Fin.ext_iff, Fin.val_ofNat, bitsAt]; omega
  have f1 : Fin.ofNat 8 (bitsAt (6 * 134217728 + d.val * 16777216 + s.val * 2097152 + f.toNat * 65536 + i.toNat) 21 3) = s := by simp only [Fin.ext_iff, Fin.val_ofNat, bitsAt]; omega
  have f2 : BitVec.ofNat 5 (bitsAt (6 * 134217728 + d.val * 16777216 + s.val * 2097152 + f.toNat * 65536 + i.toNat) 16 5) = f := ofNat_eq (by simp only [bitsAt]; omega)
  have f3 : BitVec.ofNat 12 (bitsAt (6 * 134217728 + d.val * 16777216 + s.val * 2097152 + f.toNat * 65536 + i.toNat) 0 12) = i := ofNat_eq (by simp only [bitsAt]; omega)
  have hf : f.toNat ≤ 17 := by
    simp [Instr.wf] at hw
    omega
  refine decodeMicro_build ?_ (by
    show bitsAt (6 * 134217728 + d.val * 16777216 + s.val * 2097152 + f.toNat * 65536 + i.toNat) 16 5 ≤ 17
    simp only [bitsAt]; omega)
  show buildMicro (6 * 134217728 + d.val * 16777216 + s.val * 2097152 + f.toNat * 65536 + i.toNat) = _
  simp only [buildMicro, Nat.reduceEqDiff, OfNat.ofNat_ne_zero, reduceIte, ho, f0, f1, f2, f3]

theorem Laws.Coded.hprm (d : Fin 8) (s : Fin 8) (f : BitVec 5) (i : BitVec 12) : Laws.Coded.Statement (.hprm d s f i) := by
  intro hw
  have b_d := d.isLt
  have b_s := s.isLt
  have b_f := f.isLt
  have b_i := i.isLt
  have ho : bitsAt (7 * 134217728 + d.val * 16777216 + s.val * 2097152 + f.toNat * 65536 + i.toNat) 27 5 = 7 := by simp only [bitsAt]; omega
  have f0 : Fin.ofNat 8 (bitsAt (7 * 134217728 + d.val * 16777216 + s.val * 2097152 + f.toNat * 65536 + i.toNat) 24 3) = d := by simp only [Fin.ext_iff, Fin.val_ofNat, bitsAt]; omega
  have f1 : Fin.ofNat 8 (bitsAt (7 * 134217728 + d.val * 16777216 + s.val * 2097152 + f.toNat * 65536 + i.toNat) 21 3) = s := by simp only [Fin.ext_iff, Fin.val_ofNat, bitsAt]; omega
  have f2 : BitVec.ofNat 5 (bitsAt (7 * 134217728 + d.val * 16777216 + s.val * 2097152 + f.toNat * 65536 + i.toNat) 16 5) = f := ofNat_eq (by simp only [bitsAt]; omega)
  have f3 : BitVec.ofNat 12 (bitsAt (7 * 134217728 + d.val * 16777216 + s.val * 2097152 + f.toNat * 65536 + i.toNat) 0 12) = i := ofNat_eq (by simp only [bitsAt]; omega)
  have hf : f.toNat ≤ 17 := by
    simp [Instr.wf] at hw
    omega
  refine decodeMicro_build ?_ (by
    show bitsAt (7 * 134217728 + d.val * 16777216 + s.val * 2097152 + f.toNat * 65536 + i.toNat) 16 5 ≤ 17
    simp only [bitsAt]; omega)
  show buildMicro (7 * 134217728 + d.val * 16777216 + s.val * 2097152 + f.toNat * 65536 + i.toNat) = _
  simp only [buildMicro, Nat.reduceEqDiff, OfNat.ofNat_ne_zero, reduceIte, ho, f0, f1, f2, f3]

theorem Laws.Coded.hpak (d : Fin 8) (s : Fin 8) (pad : Bool) : Laws.Coded.Statement (.hpak d s pad) := by
  intro hw
  have b_d := d.isLt
  have b_s := s.isLt
  have b_pad := Bool.toNat_lt pad
  have ho : bitsAt (8 * 134217728 + d.val * 16777216 + s.val * 2097152 + pad.toNat) 27 5 = 8 := by simp only [bitsAt]; omega
  have f0 : Fin.ofNat 8 (bitsAt (8 * 134217728 + d.val * 16777216 + s.val * 2097152 + pad.toNat) 24 3) = d := by simp only [Fin.ext_iff, Fin.val_ofNat, bitsAt]; omega
  have f1 : Fin.ofNat 8 (bitsAt (8 * 134217728 + d.val * 16777216 + s.val * 2097152 + pad.toNat) 21 3) = s := by simp only [Fin.ext_iff, Fin.val_ofNat, bitsAt]; omega
  have f2 : bitAt (8 * 134217728 + d.val * 16777216 + s.val * 2097152 + pad.toNat) 0 = pad := bitAt_eq (by omega)
  refine decodeMicro_build ?_ (by
    show bitsAt (8 * 134217728 + d.val * 16777216 + s.val * 2097152 + pad.toNat) 16 5 ≤ 17
    simp only [bitsAt]; omega)
  show buildMicro (8 * 134217728 + d.val * 16777216 + s.val * 2097152 + pad.toNat) = _
  simp only [buildMicro, Nat.reduceEqDiff, OfNat.ofNat_ne_zero, reduceIte, ho, f0, f1, f2]

theorem Laws.Coded.hfold (d : Fin 8) (s : Fin 8) : Laws.Coded.Statement (.hfold d s) := by
  intro hw
  have b_d := d.isLt
  have b_s := s.isLt
  have ho : bitsAt (9 * 134217728 + d.val * 16777216 + s.val * 2097152) 27 5 = 9 := by simp only [bitsAt]; omega
  have f0 : Fin.ofNat 8 (bitsAt (9 * 134217728 + d.val * 16777216 + s.val * 2097152) 24 3) = d := by simp only [Fin.ext_iff, Fin.val_ofNat, bitsAt]; omega
  have f1 : Fin.ofNat 8 (bitsAt (9 * 134217728 + d.val * 16777216 + s.val * 2097152) 21 3) = s := by simp only [Fin.ext_iff, Fin.val_ofNat, bitsAt]; omega
  refine decodeMicro_build ?_ (by
    show bitsAt (9 * 134217728 + d.val * 16777216 + s.val * 2097152) 16 5 ≤ 17
    simp only [bitsAt]; omega)
  show buildMicro (9 * 134217728 + d.val * 16777216 + s.val * 2097152) = _
  simp only [buildMicro, Nat.reduceEqDiff, OfNat.ofNat_ne_zero, reduceIte, ho, f0, f1]

theorem Laws.Coded.hunfold (d : Fin 8) (s : Fin 8) : Laws.Coded.Statement (.hunfold d s) := by
  intro hw
  have b_d := d.isLt
  have b_s := s.isLt
  have ho : bitsAt (10 * 134217728 + d.val * 16777216 + s.val * 2097152) 27 5 = 10 := by simp only [bitsAt]; omega
  have f0 : Fin.ofNat 8 (bitsAt (10 * 134217728 + d.val * 16777216 + s.val * 2097152) 24 3) = d := by simp only [Fin.ext_iff, Fin.val_ofNat, bitsAt]; omega
  have f1 : Fin.ofNat 8 (bitsAt (10 * 134217728 + d.val * 16777216 + s.val * 2097152) 21 3) = s := by simp only [Fin.ext_iff, Fin.val_ofNat, bitsAt]; omega
  refine decodeMicro_build ?_ (by
    show bitsAt (10 * 134217728 + d.val * 16777216 + s.val * 2097152) 16 5 ≤ 17
    simp only [bitsAt]; omega)
  show buildMicro (10 * 134217728 + d.val * 16777216 + s.val * 2097152) = _
  simp only [buildMicro, Nat.reduceEqDiff, OfNat.ofNat_ne_zero, reduceIte, ho, f0, f1]

theorem Laws.Coded.hcrc (s : Fin 8) : Laws.Coded.Statement (.hcrc s) := by
  intro hw
  have b_s := s.isLt
  have ho : bitsAt (11 * 134217728 + s.val * 2097152) 27 5 = 11 := by simp only [bitsAt]; omega
  have f0 : Fin.ofNat 8 (bitsAt (11 * 134217728 + s.val * 2097152) 21 3) = s := by simp only [Fin.ext_iff, Fin.val_ofNat, bitsAt]; omega
  refine decodeMicro_build ?_ (by
    show bitsAt (11 * 134217728 + s.val * 2097152) 16 5 ≤ 17
    simp only [bitsAt]; omega)
  show buildMicro (11 * 134217728 + s.val * 2097152) = _
  simp only [buildMicro, Nat.reduceEqDiff, OfNat.ofNat_ne_zero, reduceIte, ho, f0]

theorem Laws.Coded.hhsh (s : Fin 8) : Laws.Coded.Statement (.hhsh s) := by
  intro hw
  have b_s := s.isLt
  have ho : bitsAt (12 * 134217728 + s.val * 2097152) 27 5 = 12 := by simp only [bitsAt]; omega
  have f0 : Fin.ofNat 8 (bitsAt (12 * 134217728 + s.val * 2097152) 21 3) = s := by simp only [Fin.ext_iff, Fin.val_ofNat, bitsAt]; omega
  refine decodeMicro_build ?_ (by
    show bitsAt (12 * 134217728 + s.val * 2097152) 16 5 ≤ 17
    simp only [bitsAt]; omega)
  show buildMicro (12 * 134217728 + s.val * 2097152) = _
  simp only [buildMicro, Nat.reduceEqDiff, OfNat.ofNat_ne_zero, reduceIte, ho, f0]

theorem Laws.Coded.hloop (l : BitVec 6) (n : BitVec 6) : Laws.Coded.Statement (.hloop l n) := by
  intro hw
  have b_l := l.isLt
  have b_n := n.isLt
  have ho : bitsAt (13 * 134217728 + l.toNat * 64 + n.toNat) 27 5 = 13 := by simp only [bitsAt]; omega
  have f0 : BitVec.ofNat 6 (bitsAt (13 * 134217728 + l.toNat * 64 + n.toNat) 6 6) = l := ofNat_eq (by simp only [bitsAt]; omega)
  have f1 : BitVec.ofNat 6 (bitsAt (13 * 134217728 + l.toNat * 64 + n.toNat) 0 6) = n := ofNat_eq (by simp only [bitsAt]; omega)
  refine decodeMicro_build ?_ (by
    show bitsAt (13 * 134217728 + l.toNat * 64 + n.toNat) 16 5 ≤ 17
    simp only [bitsAt]; omega)
  show buildMicro (13 * 134217728 + l.toNat * 64 + n.toNat) = _
  simp only [buildMicro, Nat.reduceEqDiff, OfNat.ofNat_ne_zero, reduceIte, ho, f0, f1]

theorem Laws.Coded.endPass : Laws.Coded.Statement .endPass := by
  intro hw
  have ho : bitsAt (14 * 134217728) 27 5 = 14 := by simp only [bitsAt]; omega
  refine decodeMicro_build ?_ (by
    show bitsAt (14 * 134217728) 16 5 ≤ 17
    simp only [bitsAt]; omega)
  show buildMicro (14 * 134217728) = _
  simp only [buildMicro, Nat.reduceEqDiff, OfNat.ofNat_ne_zero, reduceIte, ho]

theorem Laws.Coded.hnop : Laws.Coded.Statement .hnop := by
  intro hw
  have ho : bitsAt (15 * 134217728) 27 5 = 15 := by simp only [bitsAt]; omega
  refine decodeMicro_build ?_ (by
    show bitsAt (15 * 134217728) 16 5 ≤ 17
    simp only [bitsAt]; omega)
  show buildMicro (15 * 134217728) = _
  simp only [buildMicro, Nat.reduceEqDiff, OfNat.ofNat_ne_zero, reduceIte, ho]

theorem Laws.Coded.queueDeadlock : Laws.Coded.Statement .queueDeadlock := fun _ => trivial


theorem Laws.Coded.trapEntry : Laws.Coded.Statement .trapEntry := fun _ => trivial


theorem Laws.Coded.translationWalk (pid : Nat) (acc : Acc) (va : Nat) : Laws.Coded.Statement (.translationWalk pid acc va) := fun _ => trivial


theorem Laws.Coded.bpHit : Laws.Coded.Statement .bpHit := fun _ => trivial


theorem Laws.Coded.debugHalt : Laws.Coded.Statement .debugHalt := fun _ => trivial


theorem Laws.Coded.debugResume : Laws.Coded.Statement .debugResume := fun _ => trivial


theorem Laws.Coded.stepA : Laws.Coded.Statement .stepA := fun _ => trivial


theorem Laws.Coded.stepX : Laws.Coded.Statement .stepX := fun _ => trivial


theorem Laws.Coded.debugRead (off : Nat) (n : Nat) : Laws.Coded.Statement (.debugRead off n) := fun _ => trivial


theorem Laws.Coded.debugWrite (off : Nat) (val : Word) : Laws.Coded.Statement (.debugWrite off val) := fun _ => trivial


theorem Laws.Coded.bp (k : Fin 4) (addr : Option Nat) : Laws.Coded.Statement (.bp k addr) := fun _ => trivial


theorem Laws.Coded.queueTailRead (q : Nat) : Laws.Coded.Statement (.queueTailRead q) := fun _ => trivial


theorem Laws.Coded.recordPlace : Laws.Coded.Statement .recordPlace := fun _ => trivial


theorem Laws.Coded.allocPreempt : Laws.Coded.Statement .allocPreempt := fun _ => trivial


theorem Laws.Coded.timedLaunch (id : Nat) : Laws.Coded.Statement (.timedLaunch id) := fun _ => trivial


theorem Laws.Coded.preemptRequest (id : Nat) : Laws.Coded.Statement (.preemptRequest id) := fun _ => trivial


theorem Laws.Coded.preemptTimeout : Laws.Coded.Statement .preemptTimeout := fun _ => trivial


theorem Laws.Coded.saveComplete (id : Nat) : Laws.Coded.Statement (.saveComplete id) := fun _ => trivial


theorem Laws.Coded.recordResume (id : Nat) : Laws.Coded.Statement (.recordResume id) := fun _ => trivial


theorem Laws.Coded.kill (id : Nat) : Laws.Coded.Statement (.kill id) := fun _ => trivial


theorem Laws.Coded.tokenRefill : Laws.Coded.Statement .tokenRefill := fun _ => trivial


theorem Laws.Coded.tokenCharge : Laws.Coded.Statement .tokenCharge := fun _ => trivial


theorem Laws.Coded.transportWrite (n : NetAcc) (data : List Byte) (bar : Option (Word × Bool)) (unit : Option Nat) : Laws.Coded.Statement (.transportWrite n data bar unit) := fun _ => trivial


theorem Laws.Coded.transportRead (n : NetAcc) (len : Nat) (unit : Option Nat) : Laws.Coded.Statement (.transportRead n len unit) := fun _ => trivial


theorem Laws.Coded.transportAtomic (n : NetAcc) (k : NetAtom) (size : Nat) (v : Word) (c : Word) : Laws.Coded.Statement (.transportAtomic n k size v c) := fun _ => trivial


theorem Laws.Coded.fabricWritePerform (die : Nat) (k : Nat) : Laws.Coded.Statement (.fabricWritePerform die k) := fun _ => trivial


theorem Laws.Coded.portDown (port : Nat) : Laws.Coded.Statement (.portDown port) := fun _ => trivial


theorem Laws.Coded.featureOffer (m : MgmtReq) : Laws.Coded.Statement (.featureOffer m) := fun _ => trivial


theorem Laws.Coded.featureAccept (m : MgmtReq) : Laws.Coded.Statement (.featureAccept m) := fun _ => trivial


theorem Laws.Coded.queueReg (m : MgmtReq) : Laws.Coded.Statement (.queueReg m) := fun _ => trivial


theorem Laws.Coded.queueDereg (m : MgmtReq) : Laws.Coded.Statement (.queueDereg m) := fun _ => trivial


theorem Laws.Coded.fabricMap (m : MgmtReq) : Laws.Coded.Statement (.fabricMap m) := fun _ => trivial


theorem Laws.Coded.xlatRoot (m : MgmtReq) : Laws.Coded.Statement (.xlatRoot m) := fun _ => trivial


theorem Laws.Coded.barGrant (m : MgmtReq) : Laws.Coded.Statement (.barGrant m) := fun _ => trivial


theorem Laws.Coded.barFree (m : MgmtReq) : Laws.Coded.Statement (.barFree m) := fun _ => trivial


theorem Laws.Coded.gangReg (m : MgmtReq) : Laws.Coded.Statement (.gangReg m) := fun _ => trivial


theorem Laws.Coded.gangReq (m : MgmtReq) : Laws.Coded.Statement (.gangReq m) := fun _ => trivial


theorem Laws.Coded.teleRd (m : MgmtReq) : Laws.Coded.Statement (.teleRd m) := fun _ => trivial


theorem Laws.Coded.gangSwitch (g : GangMsg) : Laws.Coded.Statement (.gangSwitch g) := fun _ => trivial


theorem Laws.Coded.confirm (g : GangMsg) : Laws.Coded.Statement (.confirm g) := fun _ => trivial


theorem Laws.Coded.gangStop (g : GangMsg) : Laws.Coded.Statement (.gangStop g) := fun _ => trivial


theorem Laws.Coded.gangGo (g : GangMsg) : Laws.Coded.Statement (.gangGo g) := fun _ => trivial


theorem Laws.Coded.gangAck (g : GangMsg) : Laws.Coded.Statement (.gangAck g) := fun _ => trivial


theorem Laws.Coded.gangRefuse (g : GangMsg) : Laws.Coded.Statement (.gangRefuse g) := fun _ => trivial


theorem Laws.Coded.gangSwitched (g : GangMsg) : Laws.Coded.Statement (.gangSwitched g) := fun _ => trivial


theorem Laws.Coded.gangLapsed (g : GangMsg) : Laws.Coded.Statement (.gangLapsed g) := fun _ => trivial


theorem Laws.Coded.gangWindowLapse (seq : Nat) : Laws.Coded.Statement (.gangWindowLapse seq) := fun _ => trivial


theorem Laws.Coded.gangSwitchTime (seq : Nat) : Laws.Coded.Statement (.gangSwitchTime seq) := fun _ => trivial


theorem Laws.Coded.switchingDone (seq : Nat) : Laws.Coded.Statement (.switchingDone seq) := fun _ => trivial


theorem Laws.Coded.stragglerTimeout (seq : Nat) : Laws.Coded.Statement (.stragglerTimeout seq) := fun _ => trivial


theorem Laws.Coded.ptpOffset (port : Nat) (o : Int) : Laws.Coded.Statement (.ptpOffset port o) := fun _ => trivial


theorem Laws.Coded.syncTimeout : Laws.Coded.Statement .syncTimeout := fun _ => trivial


theorem Laws.Coded.announceTimeout (port : Nat) : Laws.Coded.Statement (.announceTimeout port) := fun _ => trivial


theorem Laws.Coded.holdoverExpiry : Laws.Coded.Statement .holdoverExpiry := fun _ => trivial


theorem Laws.Coded.patrolScrub (line : Nat) : Laws.Coded.Statement (.patrolScrub line) := fun _ => trivial


theorem Laws.Coded.create (pid : Nat) : Laws.Coded.Statement (.create pid) := fun _ => trivial


theorem Laws.Coded.stop (pid : Nat) : Laws.Coded.Statement (.stop pid) := fun _ => trivial


theorem Laws.Coded.stopDrained (pid : Nat) : Laws.Coded.Statement (.stopDrained pid) := fun _ => trivial


theorem Laws.Coded.teardown (pid : Nat) : Laws.Coded.Statement (.teardown pid) := fun _ => trivial


theorem Laws.Coded.teardownDone (pid : Nat) : Laws.Coded.Statement (.teardownDone pid) := fun _ => trivial


theorem Laws.Coded.harvest (pid : Nat) : Laws.Coded.Statement (.harvest pid) := fun _ => trivial


theorem Laws.Coded.measure (pid : Nat) : Laws.Coded.Statement (.measure pid) := fun _ => trivial


theorem Laws.Coded.resume (pid : Nat) : Laws.Coded.Statement (.resume pid) := fun _ => trivial


theorem Laws.Coded.attest (pid : Nat) : Laws.Coded.Statement (.attest pid) := fun _ => trivial


theorem Laws.Coded.repair : Laws.Coded.Statement .repair := fun _ => trivial


theorem Laws.Coded.repairTimeout (die : Nat) : Laws.Coded.Statement (.repairTimeout die) := fun _ => trivial


theorem Laws.Coded.moduleReset : Laws.Coded.Statement .moduleReset := fun _ => trivial


theorem Laws.Coded.powerOn : Laws.Coded.Statement .powerOn := fun _ => trivial


theorem Laws.Coded.watchdogReset : Laws.Coded.Statement .watchdogReset := fun _ => trivial


theorem Laws.Coded.thermalReset : Laws.Coded.Statement .thermalReset := fun _ => trivial


theorem Laws.Coded.bootGo (session : Nat) : Laws.Coded.Statement (.bootGo session) := fun _ => trivial


theorem Laws.Coded.throttle (die : Nat) : Laws.Coded.Statement (.throttle die) := fun _ => trivial


theorem Laws.Coded.throttleRecover (die : Nat) : Laws.Coded.Statement (.throttleRecover die) := fun _ => trivial


theorem Laws.Coded.softError (u : Upset) : Laws.Coded.Statement (.softError u) := fun _ => trivial


theorem Laws.Coded.sessionBind (session : Nat) (src4 : Nat) (src6 : Nat) : Laws.Coded.Statement (.sessionBind session src4 src6) := fun _ => trivial


theorem Laws.Coded.unsupportedPacket (port : Nat) : Laws.Coded.Statement (.unsupportedPacket port) := fun _ => trivial


end Sys2Proof
end

