-- ==== Sys2Proof/Laws/Shape.lean ====
section
/-! SUPPORT. The shape of every meaning: an A-class instruction waits for its guard and registers before its effect, an X-class one issues. -/

namespace Sys2Proof.Machine

/-- Every A-class instruction has its guard and the registers it names before it. -/
theorem aClass_shape (i : Instr) (s : State) (hk : i.kind = .aClass) : ∃ rs body, exec i s = aInstr i.hd rs s body := by
  cases i
  case add => simp only [exec]; unfold execAdd aluRR; exact ⟨_, _, rfl⟩
  case sub => simp only [exec]; unfold execSub aluRR; exact ⟨_, _, rfl⟩
  case mul => simp only [exec]; unfold execMul aluRR; exact ⟨_, _, rfl⟩
  case mulh => simp only [exec]; unfold execMulh aluRR; exact ⟨_, _, rfl⟩
  case div => simp only [exec]; unfold execDiv aluRR; exact ⟨_, _, rfl⟩
  case rem => simp only [exec]; unfold execRem aluRR; exact ⟨_, _, rfl⟩
  case and => simp only [exec]; unfold execAnd aluRR; exact ⟨_, _, rfl⟩
  case or => simp only [exec]; unfold execOr aluRR; exact ⟨_, _, rfl⟩
  case xor => simp only [exec]; unfold execXor aluRR; exact ⟨_, _, rfl⟩
  case sll => simp only [exec]; unfold execSll aluRR; exact ⟨_, _, rfl⟩
  case srl => simp only [exec]; unfold execSrl aluRR; exact ⟨_, _, rfl⟩
  case sra => simp only [exec]; unfold execSra aluRR; exact ⟨_, _, rfl⟩
  case min => simp only [exec]; unfold execMin aluRR; exact ⟨_, _, rfl⟩
  case max => simp only [exec]; unfold execMax aluRR; exact ⟨_, _, rfl⟩
  case clz => simp only [exec]; unfold execClz aluR; exact ⟨_, _, rfl⟩
  case ctz => simp only [exec]; unfold execCtz aluR; exact ⟨_, _, rfl⟩
  case popc => simp only [exec]; unfold execPopc aluR; exact ⟨_, _, rfl⟩
  case addi => simp only [exec]; unfold execAddi aluR; exact ⟨_, _, rfl⟩
  case andi => simp only [exec]; unfold execAndi aluR; exact ⟨_, _, rfl⟩
  case ori => simp only [exec]; unfold execOri aluR; exact ⟨_, _, rfl⟩
  case xori => simp only [exec]; unfold execXori aluR; exact ⟨_, _, rfl⟩
  case shi => simp only [exec]; unfold execShi aluR; exact ⟨_, _, rfl⟩
  case li => simp only [exec]; unfold execLi; exact ⟨_, _, rfl⟩
  case lih => simp only [exec]; unfold execLih aluR; exact ⟨_, _, rfl⟩
  case addpc => simp only [exec]; unfold execAddpc; exact ⟨_, _, rfl⟩
  case sel => simp only [exec]; unfold execSel; exact ⟨_, _, rfl⟩
  case pcmp => simp only [exec]; unfold execPcmp; exact ⟨_, _, rfl⟩
  case pcmpi => simp only [exec]; unfold execPcmpi; exact ⟨_, _, rfl⟩
  case plog => exact absurd hk (by simp [Instr.kind])
  case psetAll => exact absurd hk (by simp [Instr.kind])
  case psetLt => exact absurd hk (by simp [Instr.kind])
  case psetMod => exact absurd hk (by simp [Instr.kind])
  case psetBits => exact absurd hk (by simp [Instr.kind])
  case pcnt => exact absurd hk (by simp [Instr.kind])
  case pfirst => exact absurd hk (by simp [Instr.kind])
  case br => simp only [exec]; unfold execBr; exact ⟨_, _, rfl⟩
  case jmp => simp only [exec]; unfold execJmp; exact ⟨_, _, rfl⟩
  case call => simp only [exec]; unfold execCall; exact ⟨_, _, rfl⟩
  case ret => simp only [exec]; unfold execRet; exact ⟨_, _, rfl⟩
  case jr => simp only [exec]; unfold execJr; exact ⟨_, _, rfl⟩
  case loop => simp only [exec]; unfold execLoop; exact ⟨_, _, rfl⟩
  case loopx => simp only [exec]; unfold execLoopx; exact ⟨_, _, rfl⟩
  case loopEnd => exact absurd hk (by simp [Instr.kind])
  case xsync => simp only [exec]; unfold execXsync; exact ⟨_, _, rfl⟩
  case xsyncI => simp only [exec]; unfold execXsyncI; exact ⟨_, _, rfl⟩
  case xnop => exact absurd hk (by simp [Instr.kind])
  case nop => simp only [exec]; unfold execNop; exact ⟨_, _, rfl⟩
  case ld => simp only [exec]; unfold execLd; exact ⟨_, _, rfl⟩
  case st => simp only [exec]; unfold execSt; exact ⟨_, _, rfl⟩
  case stnb => simp only [exec]; unfold execStnb; exact ⟨_, _, rfl⟩
  case ldq => simp only [exec]; unfold execLdq; exact ⟨_, _, rfl⟩
  case ldqG => simp only [exec]; unfold execLdqG; exact ⟨_, _, rfl⟩
  case ldqX => simp only [exec]; unfold execLdqX; exact ⟨_, _, rfl⟩
  case ldqR => simp only [exec]; unfold execLdqR; exact ⟨_, _, rfl⟩
  case qmovXq => exact absurd hk (by simp [Instr.kind])
  case qmovQx => exact absurd hk (by simp [Instr.kind])
  case qmovQq => exact absurd hk (by simp [Instr.kind])
  case amo => simp only [exec]; unfold execAmo; exact ⟨_, _, rfl⟩
  case amocas => simp only [exec]; unfold execAmocas; exact ⟨_, _, rfl⟩
  case red => simp only [exec]; unfold execRed; exact ⟨_, _, rfl⟩
  case fas => exact absurd hk (by simp [Instr.kind])
  case fence => simp only [exec]; unfold execFence; exact ⟨_, _, rfl⟩
  case fenceWl => simp only [exec]; unfold execFenceWl; exact ⟨_, _, rfl⟩
  case fenceXa => simp only [exec]; unfold execFenceXa; exact ⟨_, _, rfl⟩
  case barInit => simp only [exec]; unfold execBarInit; exact ⟨_, _, rfl⟩
  case barArv => simp only [exec]; unfold execBarArv; exact ⟨_, _, rfl⟩
  case barExp => simp only [exec]; unfold execBarExp; exact ⟨_, _, rfl⟩
  case barWt => exact absurd hk (by simp [Instr.kind])
  case barTwt => exact absurd hk (by simp [Instr.kind])
  case barTwtDeadline => exact absurd hk (by simp [Instr.kind])
  case tileStRd => simp only [exec]; unfold execTileStRd tileSt; exact ⟨_, _, rfl⟩
  case tileStArm => simp only [exec]; unfold execTileStArm tileSt; exact ⟨_, _, rfl⟩
  case tileStDone => simp only [exec]; unfold execTileStDone tileSt; exact ⟨_, _, rfl⟩
  case tileStAbort => simp only [exec]; unfold execTileStAbort tileSt; exact ⟨_, _, rfl⟩
  case tileStRel => simp only [exec]; unfold execTileStRel tileSt; exact ⟨_, _, rfl⟩
  case tileWt => exact absurd hk (by simp [Instr.kind])
  case wlb => simp only [exec]; unfold execWlb; exact ⟨_, _, rfl⟩
  case wlbWt => simp only [exec]; unfold execWlbWt; exact ⟨_, _, rfl⟩
  case writeLanePerform => exact absurd hk (by simp [Instr.kind])
  case wlbudRefill => exact absurd hk (by simp [Instr.kind])
  case vsetl => exact absurd hk (by simp [Instr.kind])
  case vld => exact absurd hk (by simp [Instr.kind])
  case vlds => exact absurd hk (by simp [Instr.kind])
  case vldx => exact absurd hk (by simp [Instr.kind])
  case vst => exact absurd hk (by simp [Instr.kind])
  case vsts => exact absurd hk (by simp [Instr.kind])
  case vstx => exact absurd hk (by simp [Instr.kind])
  case vldq => exact absurd hk (by simp [Instr.kind])
  case vadd => exact absurd hk (by simp [Instr.kind])
  case vsub => exact absurd hk (by simp [Instr.kind])
  case vmul => exact absurd hk (by simp [Instr.kind])
  case vfma => exact absurd hk (by simp [Instr.kind])
  case vfms => exact absurd hk (by simp [Instr.kind])
  case vmin => exact absurd hk (by simp [Instr.kind])
  case vmax => exact absurd hk (by simp [Instr.kind])
  case vabs => exact absurd hk (by simp [Instr.kind])
  case vneg => exact absurd hk (by simp [Instr.kind])
  case vand => exact absurd hk (by simp [Instr.kind])
  case vor => exact absurd hk (by simp [Instr.kind])
  case vxor => exact absurd hk (by simp [Instr.kind])
  case vsll => exact absurd hk (by simp [Instr.kind])
  case vsrl => exact absurd hk (by simp [Instr.kind])
  case vsra => exact absurd hk (by simp [Instr.kind])
  case vmulh => exact absurd hk (by simp [Instr.kind])
  case vdot2 => exact absurd hk (by simp [Instr.kind])
  case vmacw => exact absurd hk (by simp [Instr.kind])
  case vnarrow => exact absurd hk (by simp [Instr.kind])
  case vwiden => exact absurd hk (by simp [Instr.kind])
  case vcvt => exact absurd hk (by simp [Instr.kind])
  case vcmp => exact absurd hk (by simp [Instr.kind])
  case vsel => exact absurd hk (by simp [Instr.kind])
  case vslide => exact absurd hk (by simp [Instr.kind])
  case vperm => exact absurd hk (by simp [Instr.kind])
  case vbcast => exact absurd hk (by simp [Instr.kind])
  case vbcastEl => exact absurd hk (by simp [Instr.kind])
  case vmovx => exact absurd hk (by simp [Instr.kind])
  case vmovxV => exact absurd hk (by simp [Instr.kind])
  case vred => exact absurd hk (by simp [Instr.kind])
  case vredo => exact absurd hk (by simp [Instr.kind])
  case vscan => exact absurd hk (by simp [Instr.kind])
  case viota => exact absurd hk (by simp [Instr.kind])
  case viotaIdx => exact absurd hk (by simp [Instr.kind])
  case vcompress => exact absurd hk (by simp [Instr.kind])
  case vexpand => exact absurd hk (by simp [Instr.kind])
  case vsfu => exact absurd hk (by simp [Instr.kind])
  case vscl => exact absurd hk (by simp [Instr.kind])
  case vpush => exact absurd hk (by simp [Instr.kind])
  case mtl => exact absurd hk (by simp [Instr.kind])
  case mbind => exact absurd hk (by simp [Instr.kind])
  case mfill => exact absurd hk (by simp [Instr.kind])
  case mma => exact absurd hk (by simp [Instr.kind])
  case mzero => exact absurd hk (by simp [Instr.kind])
  case mrd => exact absurd hk (by simp [Instr.kind])
  case mwr => exact absurd hk (by simp [Instr.kind])
  case mbs => exact absurd hk (by simp [Instr.kind])
  case mbsRd => exact absurd hk (by simp [Instr.kind])
  case mdrain => exact absurd hk (by simp [Instr.kind])
  case mownAcq => exact absurd hk (by simp [Instr.kind])
  case mownTry => exact absurd hk (by simp [Instr.kind])
  case mownRel => exact absurd hk (by simp [Instr.kind])
  case mownRd => exact absurd hk (by simp [Instr.kind])
  case holdLimit => exact absurd hk (by simp [Instr.kind])
  case cdefArena => exact absurd hk (by simp [Instr.kind])
  case cdefT => exact absurd hk (by simp [Instr.kind])
  case cdefLen => exact absurd hk (by simp [Instr.kind])
  case clen => exact absurd hk (by simp [Instr.kind])
  case clenCap => exact absurd hk (by simp [Instr.kind])
  case clenDesc => exact absurd hk (by simp [Instr.kind])
  case clenArena => exact absurd hk (by simp [Instr.kind])
  case cld => exact absurd hk (by simp [Instr.kind])
  case cldSt => exact absurd hk (by simp [Instr.kind])
  case csel => exact absurd hk (by simp [Instr.kind])
  case cselp => exact absurd hk (by simp [Instr.kind])
  case cgath => exact absurd hk (by simp [Instr.kind])
  case cscat => exact absurd hk (by simp [Instr.kind])
  case cjoin => exact absurd hk (by simp [Instr.kind])
  case csort => exact absurd hk (by simp [Instr.kind])
  case cgrp => exact absurd hk (by simp [Instr.kind])
  case cagg => exact absurd hk (by simp [Instr.kind])
  case cuniq => exact absurd hk (by simp [Instr.kind])
  case cres => exact absurd hk (by simp [Instr.kind])
  case ccurClr => exact absurd hk (by simp [Instr.kind])
  case ccurRd => exact absurd hk (by simp [Instr.kind])
  case ccurWr => exact absurd hk (by simp [Instr.kind])
  case cvecLd => exact absurd hk (by simp [Instr.kind])
  case cvecApp => exact absurd hk (by simp [Instr.kind])
  case hcopy => simp only [exec]; unfold execHcopy; exact ⟨_, _, rfl⟩
  case hxfm => simp only [exec]; unfold execHxfm; exact ⟨_, _, rfl⟩
  case hprog => simp only [exec]; unfold execHprog; exact ⟨_, _, rfl⟩
  case hfab => simp only [exec]; unfold execHfab; exact ⟨_, _, rfl⟩
  case chunkFinish => exact absurd hk (by simp [Instr.kind])
  case peerTimeout => exact absurd hk (by simp [Instr.kind])
  case hstatRd => simp only [exec]; unfold execHstatRd; exact ⟨_, _, rfl⟩
  case hstatWt => simp only [exec]; unfold execHstatWt; exact ⟨_, _, rfl⟩
  case hstatRel => simp only [exec]; unfold execHstatRel; exact ⟨_, _, rfl⟩
  case hstatAbort => simp only [exec]; unfold execHstatAbort; exact ⟨_, _, rfl⟩
  case hcsumRd => simp only [exec]; unfold execHcsumRd; exact ⟨_, _, rfl⟩
  case hcsumSet => simp only [exec]; unfold execHcsumSet; exact ⟨_, _, rfl⟩
  case hcsumChk => simp only [exec]; unfold execHcsumChk; exact ⟨_, _, rfl⟩
  case xco => exact absurd hk (by simp [Instr.kind])
  case xnext => exact absurd hk (by simp [Instr.kind])
  case xcurRdl => exact absurd hk (by simp [Instr.kind])
  case xcurRdh => exact absurd hk (by simp [Instr.kind])
  case xcurWrl => exact absurd hk (by simp [Instr.kind])
  case xcurWrh => exact absurd hk (by simp [Instr.kind])
  case xcurClr => exact absurd hk (by simp [Instr.kind])
  case tnow => simp only [exec]; unfold execTnow; exact ⟨_, _, rfl⟩
  case tnowSt => simp only [exec]; unfold execTnowSt; exact ⟨_, _, rfl⟩
  case tarm => simp only [exec]; unfold execTarm; exact ⟨_, _, rfl⟩
  case tarmClr => simp only [exec]; unfold execTarmClr; exact ⟨_, _, rfl⟩
  case timerFire => exact absurd hk (by simp [Instr.kind])
  case trap => simp only [exec]; unfold execTrap; exact ⟨_, _, rfl⟩
  case eret => simp only [exec]; unfold execEret; exact ⟨_, _, rfl⟩
  case srd => simp only [exec]; unfold execSrd; exact ⟨_, _, rfl⟩
  case swr => simp only [exec]; unfold execSwr; exact ⟨_, _, rfl⟩
  case halt => simp only [exec]; unfold execHalt; exact ⟨_, _, rfl⟩
  case bkpt => simp only [exec]; unfold execBkpt; exact ⟨_, _, rfl⟩
  case yield => simp only [exec]; unfold execYield; exact ⟨_, _, rfl⟩
  case xinvPg => simp only [exec]; unfold execXinvPg; exact ⟨_, _, rfl⟩
  case xinvAll => simp only [exec]; unfold execXinvAll; exact ⟨_, _, rfl⟩
  case keyz => simp only [exec]; unfold execKeyz; exact ⟨_, _, rfl⟩
  case scrubSt => simp only [exec]; unfold execScrubSt; exact ⟨_, _, rfl⟩
  case scrubRd => simp only [exec]; unfold execScrubRd; exact ⟨_, _, rfl⟩
  case scrubWt => simp only [exec]; unfold execScrubWt; exact ⟨_, _, rfl⟩
  case scrubGranule => exact absurd hk (by simp [Instr.kind])
  case scrubPendingStart => exact absurd hk (by simp [Instr.kind])
  case frqN => simp only [exec]; unfold execFrqN; exact ⟨_, _, rfl⟩
  case frqPop => simp only [exec]; unfold execFrqPop; exact ⟨_, _, rfl⟩
  case wfe => simp only [exec]; unfold execWfe; exact ⟨_, _, rfl⟩
  case cnt => simp only [exec]; unfold execCnt; exact ⟨_, _, rfl⟩
  case hrd => exact absurd hk (by simp [Instr.kind])
  case hwr => exact absurd hk (by simp [Instr.kind])
  case hcvt => exact absurd hk (by simp [Instr.kind])
  case hqnt => exact absurd hk (by simp [Instr.kind])
  case hfrm => exact absurd hk (by simp [Instr.kind])
  case hunf => exact absurd hk (by simp [Instr.kind])
  case hxps => exact absurd hk (by simp [Instr.kind])
  case hprm => exact absurd hk (by simp [Instr.kind])
  case hpak => exact absurd hk (by simp [Instr.kind])
  case hfold => exact absurd hk (by simp [Instr.kind])
  case hunfold => exact absurd hk (by simp [Instr.kind])
  case hcrc => exact absurd hk (by simp [Instr.kind])
  case hhsh => exact absurd hk (by simp [Instr.kind])
  case hloop => exact absurd hk (by simp [Instr.kind])
  case endPass => exact absurd hk (by simp [Instr.kind])
  case hnop => exact absurd hk (by simp [Instr.kind])
  case queueDeadlock => exact absurd hk (by simp [Instr.kind])
  case trapEntry => exact absurd hk (by simp [Instr.kind])
  case translationWalk => exact absurd hk (by simp [Instr.kind])
  case bpHit => exact absurd hk (by simp [Instr.kind])
  case debugHalt => exact absurd hk (by simp [Instr.kind])
  case debugResume => exact absurd hk (by simp [Instr.kind])
  case stepA => exact absurd hk (by simp [Instr.kind])
  case stepX => exact absurd hk (by simp [Instr.kind])
  case debugRead => exact absurd hk (by simp [Instr.kind])
  case debugWrite => exact absurd hk (by simp [Instr.kind])
  case bp => exact absurd hk (by simp [Instr.kind])
  case queueTailRead => exact absurd hk (by simp [Instr.kind])
  case recordPlace => exact absurd hk (by simp [Instr.kind])
  case allocPreempt => exact absurd hk (by simp [Instr.kind])
  case timedLaunch => exact absurd hk (by simp [Instr.kind])
  case preemptRequest => exact absurd hk (by simp [Instr.kind])
  case preemptTimeout => exact absurd hk (by simp [Instr.kind])
  case saveComplete => exact absurd hk (by simp [Instr.kind])
  case recordResume => exact absurd hk (by simp [Instr.kind])
  case kill => exact absurd hk (by simp [Instr.kind])
  case tokenRefill => exact absurd hk (by simp [Instr.kind])
  case tokenCharge => exact absurd hk (by simp [Instr.kind])
  case transportWrite => exact absurd hk (by simp [Instr.kind])
  case transportRead => exact absurd hk (by simp [Instr.kind])
  case transportAtomic => exact absurd hk (by simp [Instr.kind])
  case fabricWritePerform => exact absurd hk (by simp [Instr.kind])
  case portDown => exact absurd hk (by simp [Instr.kind])
  case featureOffer => exact absurd hk (by simp [Instr.kind])
  case featureAccept => exact absurd hk (by simp [Instr.kind])
  case queueReg => exact absurd hk (by simp [Instr.kind])
  case queueDereg => exact absurd hk (by simp [Instr.kind])
  case fabricMap => exact absurd hk (by simp [Instr.kind])
  case xlatRoot => exact absurd hk (by simp [Instr.kind])
  case barGrant => exact absurd hk (by simp [Instr.kind])
  case barFree => exact absurd hk (by simp [Instr.kind])
  case gangReg => exact absurd hk (by simp [Instr.kind])
  case gangReq => exact absurd hk (by simp [Instr.kind])
  case teleRd => exact absurd hk (by simp [Instr.kind])
  case gangSwitch => exact absurd hk (by simp [Instr.kind])
  case confirm => exact absurd hk (by simp [Instr.kind])
  case gangStop => exact absurd hk (by simp [Instr.kind])
  case gangGo => exact absurd hk (by simp [Instr.kind])
  case gangAck => exact absurd hk (by simp [Instr.kind])
  case gangRefuse => exact absurd hk (by simp [Instr.kind])
  case gangSwitched => exact absurd hk (by simp [Instr.kind])
  case gangLapsed => exact absurd hk (by simp [Instr.kind])
  case gangWindowLapse => exact absurd hk (by simp [Instr.kind])
  case gangSwitchTime => exact absurd hk (by simp [Instr.kind])
  case switchingDone => exact absurd hk (by simp [Instr.kind])
  case stragglerTimeout => exact absurd hk (by simp [Instr.kind])
  case ptpOffset => exact absurd hk (by simp [Instr.kind])
  case syncTimeout => exact absurd hk (by simp [Instr.kind])
  case announceTimeout => exact absurd hk (by simp [Instr.kind])
  case holdoverExpiry => exact absurd hk (by simp [Instr.kind])
  case patrolScrub => exact absurd hk (by simp [Instr.kind])
  case create => exact absurd hk (by simp [Instr.kind])
  case stop => exact absurd hk (by simp [Instr.kind])
  case stopDrained => exact absurd hk (by simp [Instr.kind])
  case teardown => exact absurd hk (by simp [Instr.kind])
  case teardownDone => exact absurd hk (by simp [Instr.kind])
  case harvest => exact absurd hk (by simp [Instr.kind])
  case measure => exact absurd hk (by simp [Instr.kind])
  case resume => exact absurd hk (by simp [Instr.kind])
  case attest => exact absurd hk (by simp [Instr.kind])
  case repair => exact absurd hk (by simp [Instr.kind])
  case repairTimeout => exact absurd hk (by simp [Instr.kind])
  case moduleReset => exact absurd hk (by simp [Instr.kind])
  case powerOn => exact absurd hk (by simp [Instr.kind])
  case watchdogReset => exact absurd hk (by simp [Instr.kind])
  case thermalReset => exact absurd hk (by simp [Instr.kind])
  case bootGo => exact absurd hk (by simp [Instr.kind])
  case throttle => exact absurd hk (by simp [Instr.kind])
  case throttleRecover => exact absurd hk (by simp [Instr.kind])
  case softError => exact absurd hk (by simp [Instr.kind])
  case sessionBind => exact absurd hk (by simp [Instr.kind])
  case unsupportedPacket => exact absurd hk (by simp [Instr.kind])

/-- Every X-class instruction is issued. -/
theorem xClass_shape (i : Instr) (s : State) (hk : i.kind = .xClass) : ∃ body, exec i s = xIssue i s body := by
  cases i
  case add => exact absurd hk (by simp [Instr.kind])
  case sub => exact absurd hk (by simp [Instr.kind])
  case mul => exact absurd hk (by simp [Instr.kind])
  case mulh => exact absurd hk (by simp [Instr.kind])
  case div => exact absurd hk (by simp [Instr.kind])
  case rem => exact absurd hk (by simp [Instr.kind])
  case and => exact absurd hk (by simp [Instr.kind])
  case or => exact absurd hk (by simp [Instr.kind])
  case xor => exact absurd hk (by simp [Instr.kind])
  case sll => exact absurd hk (by simp [Instr.kind])
  case srl => exact absurd hk (by simp [Instr.kind])
  case sra => exact absurd hk (by simp [Instr.kind])
  case min => exact absurd hk (by simp [Instr.kind])
  case max => exact absurd hk (by simp [Instr.kind])
  case clz => exact absurd hk (by simp [Instr.kind])
  case ctz => exact absurd hk (by simp [Instr.kind])
  case popc => exact absurd hk (by simp [Instr.kind])
  case addi => exact absurd hk (by simp [Instr.kind])
  case andi => exact absurd hk (by simp [Instr.kind])
  case ori => exact absurd hk (by simp [Instr.kind])
  case xori => exact absurd hk (by simp [Instr.kind])
  case shi => exact absurd hk (by simp [Instr.kind])
  case li => exact absurd hk (by simp [Instr.kind])
  case lih => exact absurd hk (by simp [Instr.kind])
  case addpc => exact absurd hk (by simp [Instr.kind])
  case sel => exact absurd hk (by simp [Instr.kind])
  case pcmp => exact absurd hk (by simp [Instr.kind])
  case pcmpi => exact absurd hk (by simp [Instr.kind])
  case plog => simp only [exec]; unfold execPlog xPlain; exact ⟨_, rfl⟩
  case psetAll => simp only [exec]; unfold execPsetAll xPlain; exact ⟨_, rfl⟩
  case psetLt => simp only [exec]; unfold execPsetLt xPlain; exact ⟨_, rfl⟩
  case psetMod => simp only [exec]; unfold execPsetMod xPlain; exact ⟨_, rfl⟩
  case psetBits => simp only [exec]; unfold execPsetBits xPlain; exact ⟨_, rfl⟩
  case pcnt => simp only [exec]; unfold execPcnt xPlain; exact ⟨_, rfl⟩
  case pfirst => simp only [exec]; unfold execPfirst xPlain; exact ⟨_, rfl⟩
  case br => exact absurd hk (by simp [Instr.kind])
  case jmp => exact absurd hk (by simp [Instr.kind])
  case call => exact absurd hk (by simp [Instr.kind])
  case ret => exact absurd hk (by simp [Instr.kind])
  case jr => exact absurd hk (by simp [Instr.kind])
  case loop => exact absurd hk (by simp [Instr.kind])
  case loopx => exact absurd hk (by simp [Instr.kind])
  case loopEnd => exact absurd hk (by simp [Instr.kind])
  case xsync => exact absurd hk (by simp [Instr.kind])
  case xsyncI => exact absurd hk (by simp [Instr.kind])
  case xnop => simp only [exec]; unfold execXnop; exact ⟨_, rfl⟩
  case nop => exact absurd hk (by simp [Instr.kind])
  case ld => exact absurd hk (by simp [Instr.kind])
  case st => exact absurd hk (by simp [Instr.kind])
  case stnb => exact absurd hk (by simp [Instr.kind])
  case ldq => exact absurd hk (by simp [Instr.kind])
  case ldqG => exact absurd hk (by simp [Instr.kind])
  case ldqX => exact absurd hk (by simp [Instr.kind])
  case ldqR => exact absurd hk (by simp [Instr.kind])
  case qmovXq => simp only [exec]; unfold execQmovXq; exact ⟨_, rfl⟩
  case qmovQx => simp only [exec]; unfold execQmovQx; exact ⟨_, rfl⟩
  case qmovQq => simp only [exec]; unfold execQmovQq; exact ⟨_, rfl⟩
  case amo => exact absurd hk (by simp [Instr.kind])
  case amocas => exact absurd hk (by simp [Instr.kind])
  case red => exact absurd hk (by simp [Instr.kind])
  case fas => simp only [exec]; unfold execFas; exact ⟨_, rfl⟩
  case fence => exact absurd hk (by simp [Instr.kind])
  case fenceWl => exact absurd hk (by simp [Instr.kind])
  case fenceXa => exact absurd hk (by simp [Instr.kind])
  case barInit => exact absurd hk (by simp [Instr.kind])
  case barArv => exact absurd hk (by simp [Instr.kind])
  case barExp => exact absurd hk (by simp [Instr.kind])
  case barWt => simp only [exec]; unfold execBarWt; exact ⟨_, rfl⟩
  case barTwt => simp only [exec]; unfold execBarTwt; exact ⟨_, rfl⟩
  case barTwtDeadline => exact absurd hk (by simp [Instr.kind])
  case tileStRd => exact absurd hk (by simp [Instr.kind])
  case tileStArm => exact absurd hk (by simp [Instr.kind])
  case tileStDone => exact absurd hk (by simp [Instr.kind])
  case tileStAbort => exact absurd hk (by simp [Instr.kind])
  case tileStRel => exact absurd hk (by simp [Instr.kind])
  case tileWt => simp only [exec]; unfold execTileWt; exact ⟨_, rfl⟩
  case wlb => exact absurd hk (by simp [Instr.kind])
  case wlbWt => exact absurd hk (by simp [Instr.kind])
  case writeLanePerform => exact absurd hk (by simp [Instr.kind])
  case wlbudRefill => exact absurd hk (by simp [Instr.kind])
  case vsetl => simp only [exec]; unfold execVsetl; exact ⟨_, rfl⟩
  case vld => simp only [exec]; unfold execVld vldAt vload; exact ⟨_, rfl⟩
  case vlds => simp only [exec]; unfold execVlds vldsAt vload; exact ⟨_, rfl⟩
  case vldx => simp only [exec]; unfold execVldx vldxAt; exact ⟨_, rfl⟩
  case vst => simp only [exec]; unfold execVst vstore; exact ⟨_, rfl⟩
  case vsts => simp only [exec]; unfold execVsts vstore; exact ⟨_, rfl⟩
  case vstx => simp only [exec]; unfold execVstx; exact ⟨_, rfl⟩
  case vldq => simp only [exec]; unfold execVldq; exact ⟨_, rfl⟩
  case vadd => simp only [exec]; unfold execVadd elem2 vecOp; exact ⟨_, rfl⟩
  case vsub => simp only [exec]; unfold execVsub elem2 vecOp; exact ⟨_, rfl⟩
  case vmul => simp only [exec]; unfold execVmul elem2 vecOp; exact ⟨_, rfl⟩
  case vfma => simp only [exec]; unfold execVfma fused vecOp; exact ⟨_, rfl⟩
  case vfms => simp only [exec]; unfold execVfms fused vecOp; exact ⟨_, rfl⟩
  case vmin => simp only [exec]; unfold execVmin elem2 vecOp; exact ⟨_, rfl⟩
  case vmax => simp only [exec]; unfold execVmax elem2 vecOp; exact ⟨_, rfl⟩
  case vabs => simp only [exec]; unfold execVabs elem1 vecOp; exact ⟨_, rfl⟩
  case vneg => simp only [exec]; unfold execVneg elem1 vecOp; exact ⟨_, rfl⟩
  case vand => simp only [exec]; unfold execVand elem2 vecOp; exact ⟨_, rfl⟩
  case vor => simp only [exec]; unfold execVor elem2 vecOp; exact ⟨_, rfl⟩
  case vxor => simp only [exec]; unfold execVxor elem2 vecOp; exact ⟨_, rfl⟩
  case vsll => simp only [exec]; unfold execVsll shiftOp vecOp; exact ⟨_, rfl⟩
  case vsrl => simp only [exec]; unfold execVsrl shiftOp vecOp; exact ⟨_, rfl⟩
  case vsra => simp only [exec]; unfold execVsra shiftOp vecOp; exact ⟨_, rfl⟩
  case vmulh => simp only [exec]; unfold execVmulh elem2 vecOp; exact ⟨_, rfl⟩
  case vdot2 => simp only [exec]; unfold execVdot2 vecOp; exact ⟨_, rfl⟩
  case vmacw => simp only [exec]; unfold execVmacw vecOp; exact ⟨_, rfl⟩
  case vnarrow => simp only [exec]; unfold execVnarrow vecOp; exact ⟨_, rfl⟩
  case vwiden => simp only [exec]; unfold execVwiden vecOp; exact ⟨_, rfl⟩
  case vcvt => simp only [exec]; unfold execVcvt; exact ⟨_, rfl⟩
  case vcmp => simp only [exec]; unfold execVcmp vecOp; exact ⟨_, rfl⟩
  case vsel => simp only [exec]; unfold execVsel vecOp; exact ⟨_, rfl⟩
  case vslide => simp only [exec]; unfold execVslide; exact ⟨_, rfl⟩
  case vperm => simp only [exec]; unfold execVperm vecOp; exact ⟨_, rfl⟩
  case vbcast => simp only [exec]; unfold execVbcast vecOp; exact ⟨_, rfl⟩
  case vbcastEl => simp only [exec]; unfold execVbcastEl vecOp; exact ⟨_, rfl⟩
  case vmovx => simp only [exec]; unfold execVmovx vecOp; exact ⟨_, rfl⟩
  case vmovxV => simp only [exec]; unfold execVmovxV vecOp; exact ⟨_, rfl⟩
  case vred => simp only [exec]; unfold execVred vecOp; exact ⟨_, rfl⟩
  case vredo => simp only [exec]; unfold execVredo; exact ⟨_, rfl⟩
  case vscan => simp only [exec]; unfold execVscan vecOp; exact ⟨_, rfl⟩
  case viota => simp only [exec]; unfold execViota vecOp; exact ⟨_, rfl⟩
  case viotaIdx => simp only [exec]; unfold execViotaIdx vecOp; exact ⟨_, rfl⟩
  case vcompress => simp only [exec]; unfold execVcompress packOp; exact ⟨_, rfl⟩
  case vexpand => simp only [exec]; unfold execVexpand packOp; exact ⟨_, rfl⟩
  case vsfu => simp only [exec]; unfold execVsfu elem1 vecOp; exact ⟨_, rfl⟩
  case vscl => simp only [exec]; unfold execVscl vecOp; exact ⟨_, rfl⟩
  case vpush => simp only [exec]; unfold execVpush; exact ⟨_, rfl⟩
  case mtl => simp only [exec]; unfold execMtl xPlain; exact ⟨_, rfl⟩
  case mbind => simp only [exec]; unfold execMbind; exact ⟨_, rfl⟩
  case mfill => simp only [exec]; unfold execMfill; exact ⟨_, rfl⟩
  case mma => simp only [exec]; unfold execMma; exact ⟨_, rfl⟩
  case mzero => simp only [exec]; unfold execMzero tileOp; exact ⟨_, rfl⟩
  case mrd => simp only [exec]; unfold execMrd tileOp; exact ⟨_, rfl⟩
  case mwr => simp only [exec]; unfold execMwr tileOp; exact ⟨_, rfl⟩
  case mbs => simp only [exec]; unfold execMbs tileOp; exact ⟨_, rfl⟩
  case mbsRd => simp only [exec]; unfold execMbsRd tileOp; exact ⟨_, rfl⟩
  case mdrain => simp only [exec]; unfold execMdrain tileOp; exact ⟨_, rfl⟩
  case mownAcq => simp only [exec]; unfold execMownAcq; exact ⟨_, rfl⟩
  case mownTry => simp only [exec]; unfold execMownTry; exact ⟨_, rfl⟩
  case mownRel => simp only [exec]; unfold execMownRel; exact ⟨_, rfl⟩
  case mownRd => simp only [exec]; unfold execMownRd; exact ⟨_, rfl⟩
  case holdLimit => exact absurd hk (by simp [Instr.kind])
  case cdefArena => simp only [exec]; unfold execCdefArena; exact ⟨_, rfl⟩
  case cdefT => simp only [exec]; unfold execCdefT; exact ⟨_, rfl⟩
  case cdefLen => simp only [exec]; unfold execCdefLen; exact ⟨_, rfl⟩
  case clen => simp only [exec]; unfold execClen xPlain; exact ⟨_, rfl⟩
  case clenCap => simp only [exec]; unfold execClenCap xPlain; exact ⟨_, rfl⟩
  case clenDesc => simp only [exec]; unfold execClenDesc xPlain; exact ⟨_, rfl⟩
  case clenArena => simp only [exec]; unfold execClenArena xPlain; exact ⟨_, rfl⟩
  case cld => simp only [exec]; unfold execCld; exact ⟨_, rfl⟩
  case cldSt => simp only [exec]; unfold execCldSt; exact ⟨_, rfl⟩
  case csel => simp only [exec]; unfold execCsel; exact ⟨_, rfl⟩
  case cselp => simp only [exec]; unfold execCselp; exact ⟨_, rfl⟩
  case cgath => simp only [exec]; unfold execCgath; exact ⟨_, rfl⟩
  case cscat => simp only [exec]; unfold execCscat; exact ⟨_, rfl⟩
  case cjoin => simp only [exec]; unfold execCjoin; exact ⟨_, rfl⟩
  case csort => simp only [exec]; unfold execCsort; exact ⟨_, rfl⟩
  case cgrp => simp only [exec]; unfold execCgrp; exact ⟨_, rfl⟩
  case cagg => simp only [exec]; unfold execCagg; exact ⟨_, rfl⟩
  case cuniq => simp only [exec]; unfold execCuniq; exact ⟨_, rfl⟩
  case cres => simp only [exec]; unfold execCres; exact ⟨_, rfl⟩
  case ccurClr => simp only [exec]; unfold execCcurClr xPlain; exact ⟨_, rfl⟩
  case ccurRd => simp only [exec]; unfold execCcurRd xPlain; exact ⟨_, rfl⟩
  case ccurWr => simp only [exec]; unfold execCcurWr xPlain; exact ⟨_, rfl⟩
  case cvecLd => simp only [exec]; unfold execCvecLd; exact ⟨_, rfl⟩
  case cvecApp => simp only [exec]; unfold execCvecApp; exact ⟨_, rfl⟩
  case hcopy => exact absurd hk (by simp [Instr.kind])
  case hxfm => exact absurd hk (by simp [Instr.kind])
  case hprog => exact absurd hk (by simp [Instr.kind])
  case hfab => exact absurd hk (by simp [Instr.kind])
  case chunkFinish => exact absurd hk (by simp [Instr.kind])
  case peerTimeout => exact absurd hk (by simp [Instr.kind])
  case hstatRd => exact absurd hk (by simp [Instr.kind])
  case hstatWt => exact absurd hk (by simp [Instr.kind])
  case hstatRel => exact absurd hk (by simp [Instr.kind])
  case hstatAbort => exact absurd hk (by simp [Instr.kind])
  case hcsumRd => exact absurd hk (by simp [Instr.kind])
  case hcsumSet => exact absurd hk (by simp [Instr.kind])
  case hcsumChk => exact absurd hk (by simp [Instr.kind])
  case xco => simp only [exec]; unfold execXco; exact ⟨_, rfl⟩
  case xnext => simp only [exec]; unfold execXnext; exact ⟨_, rfl⟩
  case xcurRdl => simp only [exec]; unfold execXcurRdl xPlain; exact ⟨_, rfl⟩
  case xcurRdh => simp only [exec]; unfold execXcurRdh xPlain; exact ⟨_, rfl⟩
  case xcurWrl => simp only [exec]; unfold execXcurWrl xPlain; exact ⟨_, rfl⟩
  case xcurWrh => simp only [exec]; unfold execXcurWrh xPlain; exact ⟨_, rfl⟩
  case xcurClr => simp only [exec]; unfold execXcurClr xPlain; exact ⟨_, rfl⟩
  case tnow => exact absurd hk (by simp [Instr.kind])
  case tnowSt => exact absurd hk (by simp [Instr.kind])
  case tarm => exact absurd hk (by simp [Instr.kind])
  case tarmClr => exact absurd hk (by simp [Instr.kind])
  case timerFire => exact absurd hk (by simp [Instr.kind])
  case trap => exact absurd hk (by simp [Instr.kind])
  case eret => exact absurd hk (by simp [Instr.kind])
  case srd => exact absurd hk (by simp [Instr.kind])
  case swr => exact absurd hk (by simp [Instr.kind])
  case halt => exact absurd hk (by simp [Instr.kind])
  case bkpt => exact absurd hk (by simp [Instr.kind])
  case yield => exact absurd hk (by simp [Instr.kind])
  case xinvPg => exact absurd hk (by simp [Instr.kind])
  case xinvAll => exact absurd hk (by simp [Instr.kind])
  case keyz => exact absurd hk (by simp [Instr.kind])
  case scrubSt => exact absurd hk (by simp [Instr.kind])
  case scrubRd => exact absurd hk (by simp [Instr.kind])
  case scrubWt => exact absurd hk (by simp [Instr.kind])
  case scrubGranule => exact absurd hk (by simp [Instr.kind])
  case scrubPendingStart => exact absurd hk (by simp [Instr.kind])
  case frqN => exact absurd hk (by simp [Instr.kind])
  case frqPop => exact absurd hk (by simp [Instr.kind])
  case wfe => exact absurd hk (by simp [Instr.kind])
  case cnt => exact absurd hk (by simp [Instr.kind])
  case hrd => exact absurd hk (by simp [Instr.kind])
  case hwr => exact absurd hk (by simp [Instr.kind])
  case hcvt => exact absurd hk (by simp [Instr.kind])
  case hqnt => exact absurd hk (by simp [Instr.kind])
  case hfrm => exact absurd hk (by simp [Instr.kind])
  case hunf => exact absurd hk (by simp [Instr.kind])
  case hxps => exact absurd hk (by simp [Instr.kind])
  case hprm => exact absurd hk (by simp [Instr.kind])
  case hpak => exact absurd hk (by simp [Instr.kind])
  case hfold => exact absurd hk (by simp [Instr.kind])
  case hunfold => exact absurd hk (by simp [Instr.kind])
  case hcrc => exact absurd hk (by simp [Instr.kind])
  case hhsh => exact absurd hk (by simp [Instr.kind])
  case hloop => exact absurd hk (by simp [Instr.kind])
  case endPass => exact absurd hk (by simp [Instr.kind])
  case hnop => exact absurd hk (by simp [Instr.kind])
  case queueDeadlock => exact absurd hk (by simp [Instr.kind])
  case trapEntry => exact absurd hk (by simp [Instr.kind])
  case translationWalk => exact absurd hk (by simp [Instr.kind])
  case bpHit => exact absurd hk (by simp [Instr.kind])
  case debugHalt => exact absurd hk (by simp [Instr.kind])
  case debugResume => exact absurd hk (by simp [Instr.kind])
  case stepA => exact absurd hk (by simp [Instr.kind])
  case stepX => exact absurd hk (by simp [Instr.kind])
  case debugRead => exact absurd hk (by simp [Instr.kind])
  case debugWrite => exact absurd hk (by simp [Instr.kind])
  case bp => exact absurd hk (by simp [Instr.kind])
  case queueTailRead => exact absurd hk (by simp [Instr.kind])
  case recordPlace => exact absurd hk (by simp [Instr.kind])
  case allocPreempt => exact absurd hk (by simp [Instr.kind])
  case timedLaunch => exact absurd hk (by simp [Instr.kind])
  case preemptRequest => exact absurd hk (by simp [Instr.kind])
  case preemptTimeout => exact absurd hk (by simp [Instr.kind])
  case saveComplete => exact absurd hk (by simp [Instr.kind])
  case recordResume => exact absurd hk (by simp [Instr.kind])
  case kill => exact absurd hk (by simp [Instr.kind])
  case tokenRefill => exact absurd hk (by simp [Instr.kind])
  case tokenCharge => exact absurd hk (by simp [Instr.kind])
  case transportWrite => exact absurd hk (by simp [Instr.kind])
  case transportRead => exact absurd hk (by simp [Instr.kind])
  case transportAtomic => exact absurd hk (by simp [Instr.kind])
  case fabricWritePerform => exact absurd hk (by simp [Instr.kind])
  case portDown => exact absurd hk (by simp [Instr.kind])
  case featureOffer => exact absurd hk (by simp [Instr.kind])
  case featureAccept => exact absurd hk (by simp [Instr.kind])
  case queueReg => exact absurd hk (by simp [Instr.kind])
  case queueDereg => exact absurd hk (by simp [Instr.kind])
  case fabricMap => exact absurd hk (by simp [Instr.kind])
  case xlatRoot => exact absurd hk (by simp [Instr.kind])
  case barGrant => exact absurd hk (by simp [Instr.kind])
  case barFree => exact absurd hk (by simp [Instr.kind])
  case gangReg => exact absurd hk (by simp [Instr.kind])
  case gangReq => exact absurd hk (by simp [Instr.kind])
  case teleRd => exact absurd hk (by simp [Instr.kind])
  case gangSwitch => exact absurd hk (by simp [Instr.kind])
  case confirm => exact absurd hk (by simp [Instr.kind])
  case gangStop => exact absurd hk (by simp [Instr.kind])
  case gangGo => exact absurd hk (by simp [Instr.kind])
  case gangAck => exact absurd hk (by simp [Instr.kind])
  case gangRefuse => exact absurd hk (by simp [Instr.kind])
  case gangSwitched => exact absurd hk (by simp [Instr.kind])
  case gangLapsed => exact absurd hk (by simp [Instr.kind])
  case gangWindowLapse => exact absurd hk (by simp [Instr.kind])
  case gangSwitchTime => exact absurd hk (by simp [Instr.kind])
  case switchingDone => exact absurd hk (by simp [Instr.kind])
  case stragglerTimeout => exact absurd hk (by simp [Instr.kind])
  case ptpOffset => exact absurd hk (by simp [Instr.kind])
  case syncTimeout => exact absurd hk (by simp [Instr.kind])
  case announceTimeout => exact absurd hk (by simp [Instr.kind])
  case holdoverExpiry => exact absurd hk (by simp [Instr.kind])
  case patrolScrub => exact absurd hk (by simp [Instr.kind])
  case create => exact absurd hk (by simp [Instr.kind])
  case stop => exact absurd hk (by simp [Instr.kind])
  case stopDrained => exact absurd hk (by simp [Instr.kind])
  case teardown => exact absurd hk (by simp [Instr.kind])
  case teardownDone => exact absurd hk (by simp [Instr.kind])
  case harvest => exact absurd hk (by simp [Instr.kind])
  case measure => exact absurd hk (by simp [Instr.kind])
  case resume => exact absurd hk (by simp [Instr.kind])
  case attest => exact absurd hk (by simp [Instr.kind])
  case repair => exact absurd hk (by simp [Instr.kind])
  case repairTimeout => exact absurd hk (by simp [Instr.kind])
  case moduleReset => exact absurd hk (by simp [Instr.kind])
  case powerOn => exact absurd hk (by simp [Instr.kind])
  case watchdogReset => exact absurd hk (by simp [Instr.kind])
  case thermalReset => exact absurd hk (by simp [Instr.kind])
  case bootGo => exact absurd hk (by simp [Instr.kind])
  case throttle => exact absurd hk (by simp [Instr.kind])
  case throttleRecover => exact absurd hk (by simp [Instr.kind])
  case softError => exact absurd hk (by simp [Instr.kind])
  case sessionBind => exact absurd hk (by simp [Instr.kind])
  case unsupportedPacket => exact absurd hk (by simp [Instr.kind])

end Sys2Proof.Machine
end

