-- ==== Sys2Proof/Tests/Slice0.lean ====
section
/-! SUPPORT. Tests of the model: words the spec writes out, terms that are no instruction, worked examples of the spec, and states that meet
the hypotheses of the statements. Every expected value is the spec's own, at the rule or the listing named. -/

section

set_option Elab.async false

open Sys2Proof Sys2Proof.Machine

/-! ## Decoding: words written out in the spec's listings (R72, R76, R82 and chapters 4 to 23) -/

/-- The worked encoding of chapter 3: op 0x00, gd 63, d 3, a 1, s2 2. -/
theorem test_decode_add : decode 0x001F830420000000 = some (.add Hd.free 3 1 2) := by decide
/-- The second one: `(!p5) vadd.w2 v9, v4, v5`. -/
theorem test_decode_vadd : decode 0x5842C91050000000 = some (.vadd { gd := 5, ng := true, w := 2 } false false .rne 9 4 5) := by decide
theorem test_decode_div : decode 0x041F830420004000 = some (.div Hd.free true 3 1 2) := by decide
theorem test_decode_li : decode 0x161F8800000003E8 = some (.li Hd.free false 8 1000) := by decide
theorem test_decode_shi : decode 0x151F861800000001 = some (.shi Hd.free .sll 6 6 1) := by decide
theorem test_decode_pcmp : decode 0x1A1F811880008000 = some (.pcmp Hd.free .lt 1 6 8) := by decide
theorem test_decode_loopx : decode 0x261F811D00000003 = some (.loopx Hd.free 1 1 7 3) := by decide
theorem test_decode_loop : decode 0x251F80110000000F = some (.loop Hd.free true 0 4 15) := by decide
theorem test_decode_nop : decode 0x291F800000000000 = some (.nop Hd.free) := by decide
theorem test_decode_xnop : decode 0x281F800000000008 = some (.xnop Hd.free 8) := by decide
/-- R117: `ld.i32 x5, [x1 + 16]` and `st.n64 x6, [x2 - 8]`. -/
theorem test_decode_ld : decode 0x301F850405000010 = some (.ld Hd.free false 2 true 5 1 16) := by decide
theorem test_decode_st : decode 0x311F8608060FFFF8 = some (.st Hd.free false 3 6 2 0xFFFF8) := by decide
theorem test_decode_vsetl : decode 0x501F840C00020003 = some (.vsetl Hd.free 0 false .f32 3 4 3) := by decide
theorem test_decode_vfma : decode 0x5B1F840420C00000 = some (.vfma Hd.free false .rne 4 1 2 3) := by decide
theorem test_decode_vldx : decode 0x5304445022598000 = some (.vldx { gd := 8, ng := true, w := 0 } .n32 .n32 2 4 20 2 9 0) := by decide
theorem test_decode_vsts : decode 0x557F8959A0040002 = some (.vsts { gd := 63, ng := false, w := 3 } .i16 9 22 26 2) := by decide
theorem test_decode_vslide : decode 0x6F1F830800000301 = some (.vslide Hd.free true true 3 2 0 1) := by decide
theorem test_decode_vdot2 : decode 0x681F8409E0000300 = some (.vdot2 Hd.free true true 4 2 30) := by decide
theorem test_decode_vnarrow : decode 0x6A1F88100000820F = some (.vnarrow Hd.free true .i32 .hu 15 8 4) := by decide
theorem test_decode_vred : decode 0x731F852000000000 = some (.vred Hd.free .sum 5 8 0) := by decide
theorem test_decode_mzero : decode 0x941F800000000700 = some (.mzero Hd.free 7) := by decide
theorem test_decode_mbind : decode 0x911F807800000015 = some (.mbind Hd.free true .heddle .f4 30) := by decide
theorem test_decode_mfill : decode 0x923F9460D5800006 = some (.mfill { gd := 63, ng := false, w := 1 } false true true 20 24 13 22) := by decide
theorem test_decode_mma : decode 0x933F805155800052 = some (.mma { gd := 63, ng := false, w := 1 } true .f4 .f4 0 20 21 22) := by decide
theorem test_decode_mdrain : decode 0x981F9464E5400008 = some (.mdrain Hd.free .f32 .rne .sat 0 20 25 14 21) := by decide
theorem test_decode_mown : decode 0x991F8F0000000000 = some (.mownAcq Hd.free 15) := by decide
theorem test_decode_cjoin : decode 0xA71F840020030009 = some (.cjoin Hd.free .inner 4 0 2 9 3) := by decide
theorem test_decode_cres : decode 0xAC1F840020037009 = some (.cres Hd.free 7 0 4 0 2 0 9 3) := by decide
theorem test_decode_csel : decode 0xA31F8404A03F0428 = some (.csel Hd.free .gt false 4 1 10 40 63) := by decide
theorem test_decode_csort : decode 0xA81F87140000012B = some (.csort Hd.free true false 7 5 43) := by decide
theorem test_decode_cagg : decode 0xAA1F8F30E03F0032 = some (.cagg Hd.free .sum false 15 12 14 50 63) := by decide
theorem test_decode_hcopy : decode 0xB01F936165FF0013 = some (.hcopy Hd.free 3 false true false false 19 24 22 23 63 0) := by decide
theorem test_decode_hxfm : decode 0xB11F9454003F0000 = some (.hxfm Hd.free false false false 20 21 63 0) := by decide
theorem test_decode_hfab : decode 0xB31F8B1051BF0223 = some (.hfab Hd.free 3 false false true false false 11 4 5 6 63 2) := by decide
theorem test_decode_hcsum : decode 0xB51F8A2000000002 = some (.hcsumChk Hd.free 10 8) := by decide
theorem test_decode_srd : decode 0xC21F850000010000 = some (.srd Hd.free .vlen 5) := by decide
theorem test_decode_halt : decode 0xC41F800000000002 = some (.halt Hd.free 2) := by decide
theorem test_decode_keyz : decode 0xC81F801400000000 = some (.keyz Hd.free 5) := by decide
theorem test_decode_scrub : decode 0xC91F861400000001 = some (.scrubRd Hd.free 6 5) := by decide
theorem test_decode_frq : decode 0xCA1FABB000000001 = some (.frqPop Hd.free 43 44) := by decide
/-- The heddle program of chapter 21, and R82's two words of no fields. -/
theorem test_decode_micro : [0x00000007, 0x29000001, 0x68000041, 0x08200007, 0x70000000, 0x78000000].map decodeMicro =
    [some (.hrd 0 7), some (.hunf 1 0 0 .rne .sat true), some (.hloop 1 1), some (.hwr 1 7), some .endPass, some .hnop] := by decide

/-! ## Decoding: words put together here from the fields of R72 and the entry's table -/

/-- `bar.arv x3, x4`: op 0x39 of R74 in format S. -/
theorem test_decode_reserved_op : decode 0x801F800000000000 = none ∧ decode 0x421F800000000000 = none := by decide
/-- R71: an unused field that is not zero. -/
theorem test_decode_unused : decode 0x001F800000000001 = none ∧ decode 0x291F800400000000 = none := by decide
/-- R14, R70: a guard 48 to 62, a predicate above p47, a column above c15. -/
theorem test_decode_ranges : decode 0x0018000000000000 = none ∧ decode 0x1A1FB01800008000 = none ∧ decode 0xA31F9404A03F0428 = none := by decide
/-- R30: a wait in an A-class word. -/
theorem test_decode_wait : decode 0x003F830420000000 = none := by decide
/-- R82: a format above 17 in a micro-op. -/
theorem test_decode_micro_format : decodeMicro 0x10120000 = none := by decide

/-! ## Terms that are no instruction, one for each check of WellFormed -/

theorem test_wf_guard : (Instr.xnop { gd := 48, ng := false, w := 0 } 1).wf = false := by decide
theorem test_wf_wait_in_a : (Instr.add { gd := 63, ng := false, w := 1 } 1 2 3).wf = false := by decide
theorem test_wf_predicates : (Instr.sel Hd.free 1 2 3 48).wf = false ∧ (Instr.pcmp Hd.free .lt 48 0 0).wf = false ∧
    (Instr.pcmpi Hd.free .eq 48 0 0).wf = false ∧ (Instr.plog Hd.free 0 48 0 0).wf = false ∧ (Instr.plog Hd.free 0 0 48 0).wf = false ∧
    (Instr.plog Hd.free 0 0 0 48).wf = false ∧ (Instr.psetAll Hd.free true 48).wf = false ∧ (Instr.psetLt Hd.free 48 0 0).wf = false ∧
    (Instr.psetBits Hd.free 48 0).wf = false ∧ (Instr.pcnt Hd.free 0 48).wf = false ∧ (Instr.pfirst Hd.free 0 48).wf = false ∧
    (Instr.loopx Hd.free 0 48 0 3).wf = false ∧ (Instr.vcmp Hd.free .eq false 48 0 0).wf = false ∧ (Instr.vsel Hd.free 0 0 0 48).wf = false ∧
    (Instr.viota Hd.free 0 48).wf = false ∧ (Instr.vcompress Hd.free 0 0 48).wf = false ∧ (Instr.vexpand Hd.free 0 0 48).wf = false := by decide
theorem test_wf_pcmpi_unsigned : (Instr.pcmpi Hd.free .ltu 0 0 0).wf = false := by decide
theorem test_wf_pset_mod : (Instr.psetMod Hd.free 0 0).wf = false ∧ (Instr.psetMod Hd.free 0 4097).wf = false ∧ (Instr.psetMod Hd.free 48 1).wf = false := by decide
theorem test_wf_loops : (Instr.loop Hd.free false 3 0 3).wf = false ∧ (Instr.loop Hd.free false 0 0 1).wf = false ∧
    (Instr.loop Hd.free false 0 0 258).wf = false ∧ (Instr.loopx Hd.free 3 0 0 3).wf = false ∧ (Instr.loopx Hd.free 0 0 0 1).wf = false := by decide
theorem test_wf_queues : (Instr.ldq Hd.free 0 false 6 0 0).wf = false ∧ (Instr.ldqG Hd.free 6 0 0).wf = false ∧ (Instr.ldqX Hd.free 6 0).wf = false ∧
    (Instr.ldqR Hd.free 0 5).wf = false ∧ (Instr.qmovXq Hd.free 0 6).wf = false ∧ (Instr.qmovQx Hd.free 5 0).wf = false ∧
    (Instr.qmovQq Hd.free 5 0).wf = false ∧ (Instr.qmovQq Hd.free 6 6).wf = false ∧ (Instr.vldq Hd.free .i8 0 6).wf = false := by decide
theorem test_wf_atomics : (Instr.amo Hd.free .fadd true false 0 0 0 0).wf = false ∧ (Instr.red Hd.free .swap false 0 0 0).wf = false ∧
    (Instr.red Hd.free .fadd true 0 0 0).wf = false ∧ (Instr.fas Hd.free .bf16 0 0 0 0).wf = false := by decide
theorem test_wf_bar_arv : (Instr.barArv Hd.free false 0 0 1).wf = false := by decide
theorem test_wf_vsetl_max : (Instr.vsetl Hd.free 0 true .i8 0 0 1).wf = false := by decide
theorem test_wf_fp4_stride : (Instr.vlds Hd.free .f4 0 0 0 0).wf = false ∧ (Instr.vsts Hd.free .f4 0 0 0 0).wf = false ∧
    (Instr.vldx Hd.free .f4 .n32 0 0 0 0 63 0).wf = false ∧ (Instr.vstx Hd.free .f4 .n32 0 0 0 0 0).wf = false ∧
    (Instr.cdefT Hd.free .f4 0 0 0).wf = false := by decide
theorem test_wf_masks : (Instr.vldx Hd.free .i8 .n32 0 0 0 0 48 0).wf = false ∧ (Instr.hcopy Hd.free 0 false false false false 0 0 0 0 48 0).wf = false ∧
    (Instr.hxfm Hd.free false false false 0 0 48 0).wf = false ∧ (Instr.hfab Hd.free 0 false false false false false 0 0 0 0 48 0).wf = false := by decide
theorem test_wf_shifts : (Instr.vsll Hd.free .vv 0 0 0 1).wf = false ∧ (Instr.vsrl Hd.free .vi 0 0 1 0).wf = false ∧
    (Instr.vsra Hd.free .vv false .he 0 0 0 0).wf = false ∧ (Instr.vnarrow Hd.free false .i8 .hu 128 0 0).wf = false ∧
    (Instr.vslide Hd.free false false 0 0 0 1).wf = false ∧ (Instr.vslide Hd.free false true 0 0 1 0).wf = false := by decide
theorem test_wf_vector_types : (Instr.vperm Hd.free .i8 0 0 0).wf = false ∧ (Instr.vpush Hd.free false false 0 1).wf = false ∧ (Instr.vscl Hd.free .rne 13 0 0 0).wf = false := by decide
theorem test_wf_matrix : (Instr.mtl Hd.free 62 0 0 0).wf = false ∧ (Instr.mtl Hd.free 0 0 0 0).wf = false ∧ (Instr.mbind Hd.free false .none .f4 0).wf = false ∧
    (Instr.mbind Hd.free false .fill .e4 1).wf = false ∧ (Instr.mma Hd.free false .e4 .i8 0 0 0 0).wf = false ∧
    (Instr.mdrain Hd.free .i64 .rne .sat 0 0 0 0 0).wf = false := by decide
theorem test_wf_columns : (Instr.cdefT Hd.free .i8 16 0 0).wf = false ∧ (Instr.cdefLen Hd.free 16 0).wf = false ∧ (Instr.clen Hd.free 0 16).wf = false ∧
    (Instr.clenCap Hd.free 0 16).wf = false ∧ (Instr.clenDesc Hd.free 0 16).wf = false ∧ (Instr.cldSt Hd.free 16 0 0).wf = false ∧
    (Instr.csel Hd.free .gt true 4 1 16 0 63).wf = false ∧ (Instr.csel Hd.free .gt false 4 1 16 0 48).wf = false ∧
    (Instr.cselp Hd.free .gt 4 1 16 0 0 63).wf = false ∧ (Instr.cgath Hd.free 16 0 0 0 63).wf = false ∧
    (Instr.cjoin Hd.free .inner 15 0 0 0 63).wf = false ∧ (Instr.csort Hd.free false false 0 16 0).wf = false ∧
    (Instr.cgrp Hd.free 16 0 0 63).wf = false ∧ (Instr.cagg Hd.free .sum false 0 0 16 0 63).wf = false ∧ (Instr.cvecLd Hd.free 0 16 0 0).wf = false ∧
    (Instr.cvecApp Hd.free 16 0 0 63).wf = false ∧ (Instr.cscat Hd.free .add 0 0 16 0).wf = false ∧ (Instr.cuniq Hd.free false 16 0 0 63).wf = false ∧
    (Instr.cld Hd.free 0 0 0 0 48).wf = false := by decide
theorem test_wf_cres : (Instr.cres Hd.free 6 0 0 0 0 0 0 63).wf = false ∧ (Instr.cres Hd.free 7 3 0 0 0 0 0 63).wf = false := by decide
theorem test_wf_engine_tile : (Instr.hcopy Hd.free 0 false false false false 0 0 0 0 63 1).wf = false ∧
    (Instr.hxfm Hd.free false false false 0 0 63 1).wf = false := by decide
theorem test_wf_micro : (Instr.hcvt 0 0 16 .rne .sat 8).wf = false ∧ (Instr.hqnt 0 0 8 .rne .sat 8 false).wf = false ∧ (Instr.hfrm 0 0 8 0 false).wf = false ∧
    (Instr.hunf 0 0 14 .rne .sat false).wf = false ∧ (Instr.hxps 0 0 16 0).wf = false ∧ (Instr.hprm 0 0 16 0).wf = false ∧
    (Instr.hloop 0 1).wf = false ∧ (Instr.hloop 32 1).wf = false := by decide

/-! ## Worked examples of the spec -/

/-- A running shuttle with grants, and nothing else. -/
def tiny : State :=
  { State.reset with sh := { State.reset.sh with status := .running, pid := 1, nearLen := 0x180000, nTiles := 8, nEnts := 8 } }

/-- The same with registers set. -/
def tinyX (l : List (Fin 64 × Word)) : State := l.foldl (fun s e => s.setX e.1 e.2) tiny

/-- A word at the head of the X queue, its scalar sources captured. -/
def atHead (i : Instr) (s : State) : State := placeEntry s i

/-- What holds of the next state an instruction gives. -/
def next? (r : Out3) (f : State → Bool) : Bool := match r with | .next t => f t | _ => false

/-- R89: `li.z x4, 0x89AB_CDEF` then `lih x4, x4, 0x0123_4567` leaves 0x0123_4567_89AB_CDEF. -/
theorem test_lih : next? (exec (.li Hd.free true 4 0x89ABCDEF) tiny) (fun t =>
    next? (exec (.lih Hd.free 4 4 0x01234567) t) (fun u => u.sh.xget 4 == 0x0123456789ABCDEF)) = true := by decide +kernel
/-- R206, R212: the cursor word of the stopped join of chapter 8. -/
theorem test_cursor : curWord false 7 0 3 3 = 0x9C00000000300003 := by decide
/-- R228: the check value of the checksum. -/
theorem test_crc : crcFold 0 [0x31, 0x32, 0x33, 0x34, 0x35, 0x36, 0x37, 0x38, 0x39] = 0xE3069283 := by decide +kernel
/-- R281 and its worked example: 33 bytes, and back. -/
def foldUnit : List Byte :=
  let b := leBytes 8 0x0007000800060005 ++ (List.range 28).flatMap (fun _ => leBytes 2 7)
  b ++ b ++ List.replicate 3968 0
def foldWords : List Byte := leBytes 16 7 ++ [0x04, 0x2A, 0x14] ++ List.replicate 14 0
theorem test_fold_unit : foldEnc foldUnit = foldWords := by decide +kernel
theorem test_fold_back : (foldDecode (foldWords ++ List.replicate 4127 0)).map (fun p => (p.1.take 132, p.1.length)) =
    some (foldUnit.take 132, 4096) := by decide +kernel
/-- R339 and its worked example: the walk reaches the leaf at level 4. -/
def walkTables : Memory :=
  [(0x010000000000, 0x8000010000010000), (0x0100000104A0, 0x8000010000020000), (0x010000020240, 0x8000010000030000),
   (0x010000030D10, 0x8000010000040000), (0x0100000400B0, 0xC0000100012300C2)].foldl (fun m e => m.writeLe e.1 8 e.2) State.reset.mem
theorem test_walk : walkFrom walkTables 0x00004A1234567890 0x010000000000 5 0 = .ok (0x0100000400B0, 0xC0000100012300C2, 4) := by decide +kernel
/-- R137, R140: the entry word of the aborted copy. -/
theorem test_tile_word : TEnt.word { state := 0, abort := 4, expect := 4, done := 2 } = 0x0004000000040002 := by decide
/-- R370, R373: the register a reset leaves, and the granule the scrub goes on at. -/
theorem test_scrub_word : Scrub.word { pid := 5, fin := false, total := 2048, done := 1500, cleared := true } = 0x05400000800005DC := by decide
theorem test_scrub_granule :
    granuleAt ((tiny.setDie 3 { Die.reset with banks := [{ key := 0, pid := 5, pbase := 0, pcap := 1024, mask := 0 }] }).setPart 5
      { controlPart with mmBase := 10, mmSize := 2 }) 3 5 1500 = 0x0102BB830000 := by decide +kernel
/-- R20 in the gather of chapter 19: the cause word. -/
theorem test_tcause : tcauseOf (flt 0x02 3 true) = 0x0000000300010002 := by decide

/-! ## Single steps -/

/-- R87, R88 at their edges. -/
theorem test_add_wraps : next? (exec (.add Hd.free 3 1 2) (tinyX [(1, 0xFFFFFFFFFFFFFFFF), (2, 2)])) (fun t => t.sh.xget 3 == 1) = true := by decide +kernel
theorem test_x0 : next? (exec (.addi Hd.free 0 1 5) tiny) (fun t => t.sh.xget 0 == 0 && t.sh.apc == 8) = true := by decide +kernel
theorem test_mulh_su : next? (exec (.mulh Hd.free .su 3 1 2) (tinyX [(1, 0xFFFFFFFFFFFFFFFF), (2, 2)])) (fun t => t.sh.xget 3 == 0xFFFFFFFFFFFFFFFF) = true := by
  decide +kernel
theorem test_div_edge : next? (exec (.div Hd.free false 3 1 2) (tinyX [(1, 0x8000000000000000), (2, 0xFFFFFFFFFFFFFFFF)])) (fun t =>
    t.sh.xget 3 == 0x8000000000000000) = true := by decide +kernel
theorem test_rem_zero : next? (exec (.rem Hd.free false 3 1 2) (tinyX [(1, 7)])) (fun t => t.sh.xget 3 == 7) = true := by decide +kernel
theorem test_clz_zero : next? (exec (.clz Hd.free 3 1) tiny) (fun t => t.sh.xget 3 == 64) = true := by decide +kernel
theorem test_shift_six_bits : next? (exec (.sll Hd.free 3 1 2) (tinyX [(1, 1), (2, 65)])) (fun t => t.sh.xget 3 == 2) = true := by decide +kernel
/-- R91: a compare fills the whole register. -/
theorem test_pcmp : next? (exec (.pcmp Hd.free .lt 5 1 2) (tinyX [(1, 0xFFFFFFFFFFFFFFFF)])) (fun t => t.sh.preg 5 == BitVec.allOnes 512) = true := by
  decide +kernel
/-- R99: the target of `jr` is read before the register is written. -/
theorem test_jr_same : next? (exec (.jr Hd.free 9 9) (tinyX [(9, 64)])) (fun t => t.sh.apc == 64 && t.sh.xget 9 == 8) = true := by decide +kernel
/-- R100, R101: a count of zero leaves the body out. -/
theorem test_loop_none : next? (exec (.loop Hd.free true 0 0 3) tiny) (fun t => t.sh.apc == 24 && !(t.sh.loops[0].act)) = true := by decide +kernel
/-- R113, R115: a store changes memory only when its entry performs. -/
theorem test_store : next? (exec (.st Hd.free false 2 6 2 0) (tinyX [(2, 64), (6, 0x11223344)])) (fun t =>
    t.mem == tiny.mem && next? (exec (.writeLanePerform .ns) t) (fun u => u.mem.readLe (nearKey 0 64) 4 == 0x11223344)) = true := by decide +kernel
/-- R111: an address outside the grant raises PERM 4, and with no handler the shuttle ends (R325). -/
theorem test_load_out : next? (exec (.ld Hd.free false 3 false 5 1 0) (tinyX [(1, 0x180000)])) (fun t => t.sh.status == .faulted) = true := by decide +kernel
/-- R139: the word as it stood, then the event. -/
theorem test_tile_arm : next? (exec (.tileStArm Hd.free 3 1 0) (tinyX [(1, 4)])) (fun t =>
    t.sh.xget 3 == 0 && t.co.tent 0 == { state := 1, abort := 0, expect := 4, done := 0 }) = true := by decide +kernel
/-- R166, R168 and their example: 4 lanes of FP32, six elements, the exact sum 4. -/
def sums (i : Instr) : State :=
  let s := { tiny with sh := { tiny.sh with lanes := 4, vtype := 8, vlen := 6 }, co := { tiny.co with lanes := 4 } }
  let l : List (Nat × Nat) := [(0, 0x4B800000), (1, 0x3F800000), (2, 0x3F800000), (3, 0x3F800000), (4, 0x3F800000), (5, 0xCB800000)]
  atHead i { s with sh := s.sh.vputs 8 .f32 l }
theorem test_vred : next? (exec (.vred Hd.free .sum 5 8 0) (sums (.vred Hd.free .sum 5 8 0))) (fun t => t.sh.xget 5 == 0x40400000) = true := by decide +kernel
theorem test_vredo : next? (exec (.vredo Hd.free 6 8 0) (sums (.vredo Hd.free 6 8 0))) (fun t => t.sh.xget 6 == 0) = true := by decide +kernel
/-- R144: the grant of the worked `vsetl`, 512 elements. -/
theorem test_vsetl : next? (exec (.vsetl Hd.free 0 false .f32 3 4 3) (atHead (.vsetl Hd.free 0 false .f32 3 4 3) (tinyX [(3, 1000)]))) (fun t =>
    t.sh.xget 4 == 512 && t.sh.vlen == 512) = true := by decide +kernel
/-- R138, R188 in one: a cleared tile holds +0. -/
theorem test_mzero : next? (exec (.mzero Hd.free 7) (atHead (.mzero Hd.free 7) tiny)) (fun t => (t.co.tile 7).data == 0 && t.sh.nX == 1) = true := by decide +kernel
/-- R240: the timer in a state that never locked answers 2. -/
theorem test_tarm_unlocked : next? (exec (.tarm Hd.free 3 1) tiny) (fun t => t.sh.xget 3 == 2 && !t.sh.armed) = true := by decide +kernel
/-- R242: a read-only register refuses a write. -/
theorem test_swr_read_only : next? (exec (.swr Hd.free .vlen 1) tiny) (fun t => t.sh.status == .faulted) = true := by decide +kernel
/-- R371: the mode check of a privileged form. -/
theorem test_keyz_user : next? (exec (.keyz Hd.free 5) tiny) (fun t => t.sh.status == .faulted) = true := by decide +kernel
/-- R325: with a handler and a frame that cannot be written the shuttle ends too. -/
theorem test_trap_no_frame : next? (exec (.trap Hd.free 3) { tiny with sh := { tiny.sh with tvec := 64 } }) (fun t => t.sh.status == .faulted) = true := by
  decide +kernel
/-- `step` fetches the word placed at `apc` and does it (R22, R68). -/
theorem test_step_word : next? (step (tiny.withFetchWord 64 0x161F860000000001)) (fun t => t.sh.xget 6 == 1) = true := by decide +kernel
/-- `step` runs a placed micro-op (R233). -/
theorem test_step_micro : next? (step (tiny.withFetchWord 32 0x68000041)) (fun t => (afind? t.co.cmds 0).any (fun c => c.loops == [(1, 2, 1)])) = true := by
  decide +kernel

/-! ## States that meet the hypotheses of the statements -/

/-- Readiness as a computation. -/
def readyB (h : Hd) (rs : List RegId) (s : State) : Bool := (aBlocked s (guard1 h)).isNone && s.sh.guard h && (aBlocked s rs).isNone
theorem ready_of {h : Hd} {rs : List RegId} {s : State} (w : readyB h rs s = true) : Ready h rs s := by
  simp only [readyB, Bool.and_eq_true, Option.isNone_iff_eq_none] at w
  exact ⟨w.1.1, w.1.2, w.2⟩

def xReadyB (i : Instr) (s : State) : Bool :=
  let rw := xRegs s.sh (s.sh.vlmax s.sh.et s.sh.grp) i
  let c := issueCycle i s
  !(rw.r ++ s.sh.boundRegs).any (s.sh.shadowed c (mmaTile i)) && !rw.w.any (s.sh.shadowed c (mmaTile i)) &&
    !(rw.r ++ rw.w).any (fun r => (busyV s).contains r) && s.sh.xIss.isNone && (s.sh.badAt i rw.r).isNone && (elementWise i || s.sh.guard i.hd)
theorem xready_of {i : Instr} {s : State} (w : xReadyB i s = true) : XReady i s := by
  simp only [xReadyB, Bool.and_eq_true, Bool.not_eq_true', Bool.or_eq_true, Option.isNone_iff_eq_none] at w
  exact ⟨w.1.1.1.1.1, w.1.1.1.1.2, w.1.1.1.2, w.1.1.2, w.1.2, w.2⟩

/-- Each of some X-class instructions is ready at the head of the X queue. -/
theorem heads_of {s : State} {l : List Instr} (w : l.all (fun i => xReadyB i (atHead i s)) = true) : ∀ i ∈ l, XReady i (atHead i s) :=
  fun i hi => xready_of (List.all_eq_true.mp w i hi)

/-- A partition with a page of main memory mapped at the lowest translated address, for read, write and fetch. -/
def paged (cmp frm : Bool) : State :=
  { tiny with
    parts := [(1, { controlPart with mmBase := 0, mmSize := 1 })]
    tlb := [{ pid := 1, va := placeVa, bits := 16, pa := placePage, r := true, w := true, x := true, cmp := cmp, frm := frm }] }

/-- Vectors of a type in groups of 2 ^ g, with some elements. -/
def vecs (e : EType) (g n : Nat) : State :=
  { tiny with sh := { tiny.sh with vtype := BitVec.ofNat 64 (e.code + 4096 * g), vlen := BitVec.ofNat 13 n } }

theorem wit_ScalarFrame : ∃ t, exec (.pcmp Hd.free .lt 5 1 2) tiny = .next t := ⟨_, rfl⟩
theorem wit_ScalarArithmetic : Ready Hd.free (xs [3, 1, 2]) tiny ∧ Ready Hd.free (xs [0, 63]) tiny := ⟨ready_of (by decide), ready_of (by decide)⟩
theorem wit_ScalarDivision : Ready Hd.free (xs [3, 1, 2]) (tinyX [(1, BitVec.ofNat 64 (2 ^ 63)), (2, BitVec.allOnes 64)]) ∧
    (tinyX [(1, BitVec.ofNat 64 (2 ^ 63)), (2, BitVec.allOnes 64)]).sh.xget 1 = BitVec.ofNat 64 (2 ^ 63) ∧
    (tinyX [(1, BitVec.ofNat 64 (2 ^ 63)), (2, BitVec.allOnes 64)]).sh.xget 2 = BitVec.allOnes 64 := ⟨ready_of (by decide +kernel), by decide +kernel⟩
theorem wit_ScalarImmediates : Ready Hd.free (.p 47 :: xs [3, 1, 2]) tiny ∧ Ready Hd.free (xs [3, 1]) tiny ∧ Ready Hd.free (xs [3]) tiny :=
  ⟨ready_of (by decide), ready_of (by decide), ready_of (by decide)⟩
/-- No reader of the predicate waits; a reader of it waits. -/
theorem wit_ScalarCompares : Ready Hd.free (.p 47 :: xs [1, 2]) tiny ∧ queueReadsP tiny.sh 47 = false ∧
    Ready Hd.free (.p 5 :: xs [1, 2]) (atHead (.pcnt Hd.free 9 5) tiny) ∧ queueReadsP (atHead (.pcnt Hd.free 9 5) tiny).sh 5 = true :=
  ⟨ready_of (by decide), by decide, ready_of (by decide +kernel), by decide +kernel⟩
/-- A guard that fails, one that waits, an empty machine and one with an access and a waiting instruction. -/
theorem wit_GuardsAndWaits :
    aBlocked tiny (guard1 { gd := 5, ng := false, w := 0 }) = none ∧ tiny.sh.guard { gd := 5, ng := false, w := 0 } = false ∧
    (aBlocked (atHead (.psetAll Hd.free true 5) tiny) (guard1 { gd := 5, ng := false, w := 0 })).isSome = true ∧
    Ready Hd.free [] tiny ∧ marksClear tiny = true ∧ tiny.sh.xq = [] ∧ tiny.co.admittedBy tiny.sh.pos = false ∧ tiny.co.admittedX tiny.sh.pos = false ∧
    next? (exec (.st Hd.free false 3 1 2 0) tiny) (fun t => t.co.admittedBy t.sh.pos) = true ∧ marksClear (atHead (.psetAll Hd.free true 5) tiny) = false := by
  refine ⟨by decide +kernel, by decide +kernel, by decide +kernel, ready_of (by decide +kernel), by decide +kernel⟩
theorem wit_Branches : Ready Hd.free (xs [1, 2]) tiny ∧ Ready Hd.free (xs [2]) tiny ∧ Ready Hd.free (xs [1]) tiny ∧ Ready Hd.free [] tiny ∧
    (tinyX [(2, 8)]).sh.xget 2 % 8 = 0 ∧ (tinyX [(2, 9)]).sh.xget 2 % 8 ≠ 0 :=
  ⟨ready_of (by decide), ready_of (by decide), ready_of (by decide), ready_of (by decide), by decide +kernel⟩
/-- The greatest body; and a loop whose test is due. -/
def looped : State :=
  { tiny with sh := { tiny.sh with
      lc := Vector.replicate 3 2, endDue := some 16
      loops := Vector.replicate 3 { act := true, kind := true, pred := 5, seq := 1, len := 2, start := 8 } } }
theorem wit_Loops : Ready Hd.free [] tiny ∧ Ready Hd.free (xs [7]) tiny ∧ 2 ≤ (257 : BitVec 32).toNat ∧ (257 : BitVec 32).toNat ≤ 257 ∧
    looped.sh.endDue = some 16 ∧ (looped.sh.loopAt 16).isSome = true ∧ aBlocked looped [.p 5] = none ∧ pipeMoves looped false = true :=
  ⟨ready_of (by decide), ready_of (by decide), by decide +kernel⟩
/-- An address of each window, at the ends of the near grant. -/
theorem wit_LoadFaults_windows :
    windowOf 0x180000 = .none ∧ windowOf 0x17FFFF = .near ∧ windowOf 0x1000000 = .cluster ∧ windowOf 0x1FFFFFF = .cluster ∧ windowOf placeVa = .xlat ∧
    tiny.who.lo ≤ 0x17FFF8 ∧ 0x17FFF8 + 8 ≤ tiny.who.lo + tiny.who.len ∧ clusGranted tiny 1 0 0 = false := by decide +kernel
/-- A page found whose place is the partition's; a locked granule, a framed and a compressed page; a page not mapped. -/
theorem wit_LoadFaults_pages :
    (∃ t, translate (paged false false) 1 placeVa .read = (paged false false, .ok (some t)) ∧ physOwned (paged false false) 1 t.pa = true) ∧
    (∃ t, translate (paged true false) 1 placeVa .read = (paged true false, .ok (some t)) ∧ t.cmp = true) ∧
    (∃ t, translate (paged false true) 1 placeVa .write = (paged false true, .ok (some t)) ∧ t.frm = true) ∧
    locked { paged false false with granules := [(placePage / 65536, true)] } placePage = true ∧
    (check { tiny with poison := [nearKey 0 0], latent := [nearKey 0 0] } tiny.who 0 8 .read false true).2 = .bad cECC 0 0 ∧ (∀ d, ((paged false false).die d).repair = 0) ∧ physOwned tiny 1 placePage = false ∧
    (∃ s1 c d l, translate tiny 1 placeVa .read = (s1, .error (c, d, l))) := by
  refine ⟨⟨_, rfl, by decide +kernel⟩, ⟨_, rfl, by decide +kernel⟩, ⟨_, rfl, by decide +kernel⟩, by decide +kernel, by decide +kernel,
    fun _ => rfl, by decide +kernel, ⟨_, _, _, _, rfl⟩⟩
theorem wit_LoadFaults_bad : Ready Hd.free (xs [5, 1]) tiny ∧ Ready Hd.free (xs [5, 1, 2]) tiny ∧
    (∃ s1 c e l, check tiny tiny.who (effAddr (tiny.sh.xget 1) (1 : BitVec 20)) (2 ^ (3 : BitVec 2).toNat) .read false true = (s1, .bad c e l) ∧ s1.sh.xq = []) ∧
    fenceWait tiny = none := by
  refine ⟨ready_of (by decide), ready_of (by decide), ⟨_, _, _, _, rfl, rfl⟩, by decide⟩
/-- A doubleword at the last place of the near grant. -/
theorem wit_Loads : ∃ s1 l, check (tinyX [(1, 0x17FFF8)]) (tinyX [(1, 0x17FFF8)]).who (effAddr ((tinyX [(1, 0x17FFF8)]).sh.xget 1) (0 : BitVec 20)) 8 .read false true = (s1, .ok l) ∧
    spanBlocked s1 true 0x17FFF8 8 .ns = false ∧ s1.co.coversSpan l.key (l.key + 8) = false ∧ Ready Hd.free (xs [5, 1]) (tinyX [(1, 0x17FFF8)]) ∧
    ((tinyX [(1, 0x17FFF8)]).sh.dqOf 5).length < 16 :=
  ⟨_, _, rfl, by decide +kernel, by decide +kernel, ready_of (by decide +kernel), by decide +kernel⟩
/-- A queue with 64 entries of the core's near port, which takes no plain write of another line. -/
def fullLane : State :=
  { tiny with co := { tiny.co with qNS := (List.range 64).map (fun k =>
      { line := nearKey 0 (64 * k + 4096), bytes := [], ops := [], atom := some (0, 8, .amo .swap 0, .x 7 1 64 false), poison := false, aBy := [], xBy := [], tags := [] }) } }
theorem wit_Stores : Ready Hd.free (xs [6, 2]) tiny ∧
    (∃ l, check tiny tiny.who (effAddr (tiny.sh.xget 2) (0 : BitVec 20)) 8 .write false true = (tiny, .ok l) ∧ spanBlocked tiny false 0 8 .ns = false ∧
      (tiny.co.plain l.key (leBytes 8 1) false { a := [0], x := [], t := [] }).isSome = true) ∧ fenceWait tiny = none ∧
    (∃ l, check fullLane fullLane.who (effAddr (fullLane.sh.xget 2) (0 : BitVec 20)) 8 .write false true = (fullLane, .ok l) ∧
      fullLane.co.plain l.key (leBytes 8 1) false { a := [0], x := [], t := [] } = none) ∧
    (fenceWait (atHead (.vst Hd.free .i8 1 2 0) tiny)).isSome = true := by
  refine ⟨ready_of (by decide), ⟨{ key := nearKey 0 0, frm := false, cmp := false }, by decide +kernel⟩, by decide +kernel,
    ⟨{ key := nearKey 0 0, frm := false, cmp := false }, by decide +kernel⟩, by decide +kernel⟩
/-- A write at the last byte of a line, merged and not; an entry that may perform, with the budget it needs and without. -/
theorem wit_LaneOrder : (∃ r, admitPlain [] 63 [1] false { a := [], x := [], t := [] } = some r) ∧ 63 % 64 + ([1] : List Byte).length ≤ 64 ∧
    (∃ e r, fullLane.co.queue .ns = e :: r ∧ fullLane.latent = [] ∧ e.atom.isSome = true) ∧ ¬ (tiny.co.wlbud < 64) ∧
    ({ tiny with co := { tiny.co with wlbud := 63 } } : State).co.wlbud < 64 := by
  refine ⟨⟨_, rfl⟩, by decide, ⟨_, _, rfl, rfl, by decide +kernel⟩, by decide +kernel⟩
theorem wit_Atomics : Ready Hd.free (xs [5, 1, 2]) tiny ∧ Ready Hd.free (xs [5, 1]) tiny ∧
    (∃ s1 l, check tiny tiny.who (effAddr (tiny.sh.xget 1) (0 : BitVec 20)) 8 .write false true = (s1, .ok l) ∧ spanBlocked s1 true 0 8 .ns = false ∧
      poisonHit s1 l.key 8 = false ∧ (s1.co.queue (portOf l.key)).length < 64) ∧ 64 ≤ (fullLane.co.queue .ns).length ∧
    XReady (.fas Hd.free .i32 4 1 8 0) (atHead (.fas Hd.free .i32 4 1 8 0) (vecs .i32 0 8)) := by
  refine ⟨ready_of (by decide), ready_of (by decide), ⟨_, _, rfl, by decide +kernel⟩, by decide +kernel, xready_of (by decide +kernel)⟩
theorem wit_QueueMoves : Ready Hd.free (xs [1]) tiny ∧ tiny.sh.rqOf 6 = [] ∧ ({ tiny with sh := tiny.sh.setRq 7 [9] } : State).sh.rqOf 7 = [9] ∧
    (∀ i ∈ [Instr.qmovXq Hd.free 3 5, .qmovQx Hd.free 6 3, .qmovQq Hd.free 7 0], XReady i (atHead i tiny)) ∧
    ({ tiny with sh := tiny.sh.setDq 5 [QEntry.ofScalar 4] } : State).sh.dqOf 5 = [QEntry.ofScalar 4] ∧
    16 ≤ (({ tiny with sh := tiny.sh.setDq 5 (List.replicate 16 (QEntry.ofScalar 4)) } : State).sh.dqOf 5).length ∧
    8 ≤ (({ tiny with sh := tiny.sh.setRq 7 (List.replicate 8 9) } : State).sh.rqOf 7).length :=
  ⟨ready_of (by decide), by decide, by decide +kernel, heads_of (by decide +kernel), by decide +kernel⟩
theorem wit_LaneStatus : wlbPort tiny (tiny.sh.xget 1).toNat = (tiny, .ok (some .ns)) ∧ Ready Hd.free (xs [3, 1]) tiny ∧ Ready Hd.free (xs [1, 2]) tiny :=
  ⟨rfl, ready_of (by decide), ready_of (by decide)⟩
/-- A barrier slot granted to the region of the shuttle, at generation 1, the last slot of a die; and the handles its checks refuse. -/
def barred : State := tiny.setBar (BitVec.ofNat 64 (2 ^ 20 + 4095)) { Bar.reset with gen := 1, granted := some (1, 0), count := 1, arr := 1 }
def barOf (w : Word) : State := { barred with sh := barred.sh.xset 1 w }
theorem wit_Barriers : Ready Hd.free (xs [3, 1, 2]) (barOf 0x100FFF) ∧ barHeld (barOf 0x100FFF) ((barOf 0x100FFF).sh.xget 1) = false ∧
    ((barOf 0x100FFF).bar 0x100FFF).granted = some ((barOf 0x100FFF).sh.pid, (barOf 0x100FFF).sh.handle) ∧
    barCheck (barOf 0x100FFF) 0x100FFF = none ∧ (barCheck (barOf 0x200FFF) 0x200FFF).isSome = true ∧ (barCheck (barOf 0x100FFE) 0x000FFE).isSome = true ∧
    fenceWait (barOf 0x100FFF) = none ∧ pipeMoves (barOf 0x100FFF) true = true ∧
    (∀ i ∈ [Instr.barWt Hd.free 3 1 2, .barTwt Hd.free 3 1 2 4], XReady i (atHead i (barOf 0x100FFF)))  := by
  refine ⟨ready_of (by decide +kernel), ?_⟩
  and_intros <;> first | decide +kernel | exact heads_of (by decide +kernel)
/-- The first and the last granted entry, one past the grant, and an entry in each state. -/
theorem wit_TileTable : Ready Hd.free (xs [3, 1]) tiny ∧ (tiny.sh.firstTile ≤ 7 ∧ 7 < tiny.sh.firstTile + tiny.sh.nEnts) ∧
    ¬ (tiny.sh.firstTile ≤ 8 ∧ 8 < tiny.sh.firstTile + tiny.sh.nEnts) ∧ (tiny.co.tent 0).state = 0 ∧
    (tiny.co.setTent 7 { state := 1, abort := 0, expect := 1, done := 0 }).tent 7 = { state := 1, abort := 0, expect := 1, done := 0 } ∧
    XReady (.tileWt Hd.free 3 7) (atHead (.tileWt Hd.free 3 7) tiny) :=
  ⟨ready_of (by decide), by decide, by decide, by decide, by decide, xready_of (by decide +kernel)⟩

/-- A handler set, and the memory of a frame that can be written: partition 1's table region at the lowest translated address. -/
def handled : State :=
  { paged false false with
    sh := { tiny.sh with tvec := 0x100000000, lanes := 4 }
    co := { tiny.co with lanes := 4, recId := some 1 }
    recs := [{ (default : Rec) with id := 1, pid := 1, k := 1, lanes := 4, stat := .running, core := 0 }] }
theorem wit_TrapEntry : (0x12 : Nat) ≠ 0x0C ∧ (0x12 : Nat) < 2 ^ 16 ∧ handled.co.returning handled.sh.pos = false ∧ frameHeld handled = false ∧
    fullLane.co.returning 7 = true ∧
    handled.sh.landAll.tvec ≠ 0 ∧ handled.sh.landAll.level < 2 ∧ tiny.sh.landAll.tvec = 0 ∧
    ({ tiny with sh := { tiny.sh with due := some (flt 1 3 true) } } : State).sh.due = some (flt 1 3 true) ∧
    (∃ s1 rc, pushRecord handled { core := 0, pos := 0 } (flt 0x12 5 false) 0 = (s1, rc)) := by
  and_intros <;> first | decide +kernel | exact ⟨_, _, rfl⟩
/-- Level 0; and level 1 with a frame that cannot be read. -/
theorem wit_TrapReturn : Ready Hd.free [] tiny ∧ tiny.sh.level = 0 ∧
    (let s : State := { tiny with sh := { tiny.sh with level := 1 } }
     s.sh.level ≠ 0 ∧ s.sh.xq = [] ∧ s.co.outstanding s.sh.pos = false ∧ devHeldBy s s.co.id s.sh.pid (frameAddr s 0) (0x2100 + 5632 * s.sh.lanes) = false ∧ (frameReader s s.sh.pid (frameAddr s 0) (0x2100 + 5632 * s.sh.lanes)).2.isNone = true) ∧
    (atHead (.xnop Hd.free 1) tiny).sh.xq ≠ [] := by
  refine ⟨ready_of (by decide +kernel), by decide +kernel⟩
theorem wit_AskedTraps : Ready Hd.free [] tiny ∧ tiny.sh.xq = [] ∧ tiny.co.dbg = false ∧ marksClear tiny = true ∧ tiny.co.admittedBy tiny.sh.pos = false ∧
    tiny.co.outstanding tiny.sh.pos = false ∧ coreReturning tiny = false ∧ cmdsRun tiny 0 tiny.sh.pos = false ∧ complHeld handled default = false ∧ tiny.co.owner ≠ some tiny.sh.pos ∧ tiny.myRec? = none ∧
    (∃ r, handled.myRec? = some r ∧ r.core = handled.co.id ∧ handled.sh.pos < r.k) ∧ (atHead (.xnop Hd.free 1) tiny).sh.xq ≠ [] := by
  exact ⟨ready_of (by decide +kernel), by decide +kernel⟩
theorem wit_StateRegisters : Ready Hd.free (xs [5]) tiny ∧ Ready Hd.free (xs [63]) tiny := ⟨ready_of (by decide +kernel), ready_of (by decide +kernel)⟩
/-- Each lock state, a deadline ahead and one past, and something due at `yield`. -/
theorem wit_TimeAndEvents : Ready Hd.free (xs [3]) tiny ∧ Ready Hd.free (xs [3, 1]) tiny ∧ 2 ≤ tiny.gn.lock ∧
    (let s : State := { tiny with gn := { tiny.gn with lock := 0 } }
     s.gn.lock < 2 ∧ s.gn.t64.toNat < (1 : Word).toNat ∧ (0 : Word).toNat ≤ s.gn.t64.toNat) ∧
    tiny.sh.budgetDue = false ∧ tiny.sh.pre = none ∧ ({ tiny with sh := { tiny.sh with budgetDue := true } } : State).sh.budgetDue = true := by
  refine ⟨ready_of (by decide +kernel), ready_of (by decide +kernel), by decide +kernel⟩
/-- A privileged shuttle of partition 1, which supervises stopped partition 2, whose one key slot on die 0 is loaded. -/
def supervisor : State :=
  { tiny with
    sh := { tiny.sh with priv := true, x := tiny.sh.x.set 1 2 }
    parts := [(2, { controlPart with state := 3, sup := 1 })]
    dies := [(0, { Die.reset with banks := [{ key := 2, pid := 2, pbase := 0, pcap := 1, mask := 0 }], keys := [2] })] }
theorem wit_Privileged : Ready Hd.free (xs [3, 1]) supervisor ∧ Ready Hd.free (xs [1, 2]) supervisor ∧ Ready Hd.free [] supervisor ∧ tiny.sh.priv = false ∧
    supervisor.sh.priv = true ∧ (∃ p, supervisor.part? 2 = some p ∧ p.state = 3 ∧ p.sup = supervisor.sh.pid ∧ p.sup ≠ 0) ∧
    2 ∈ (supervisor.die 0).keys ∧ 63 ∉ (supervisor.die 31).keys ∧ keysEmpty supervisor 2 = false ∧ keysEmpty tiny 2 = true ∧
    (supervisor.die 0).scrub? 2 = none := by
  refine ⟨ready_of (by decide +kernel), ready_of (by decide +kernel), ready_of (by decide +kernel), by decide +kernel, by decide +kernel,
    ⟨_, rfl, rfl, rfl, by decide +kernel⟩, by decide +kernel⟩
theorem wit_Privileged_scrub : (({ Die.reset with scrubs := [{ pid := 2, fin := false, total := 1, done := 0, cleared := true }] } : Die).scrub? 2).isSome = true ∧
    Die.reset.pend = [] ∧ ({ Die.reset with pend := [2] } : Die).pend = [2] := by decide +kernel
/-- An address that is a multiple of 64 and one that is not; a queue with a record. -/
theorem wit_RecordsAndCounters : Ready Hd.free (xs [3, 1]) tiny ∧ (tiny.sh.xget 1).toNat % 64 = 0 ∧ ((tinyX [(1, 32)]).sh.xget 1).toNat % 64 ≠ 0 ∧
    tiny.sh.frq = [] ∧ (∃ l, check tiny tiny.who 0 64 .write false true = (tiny, .ok l)) ∧ spanBlocked tiny false 0 64 .ns = false :=
  ⟨ready_of (by decide +kernel), by decide +kernel, by decide +kernel, by decide +kernel, ⟨{ key := nearKey 0 0, frm := false, cmp := false }, by decide +kernel⟩,
   by decide +kernel⟩
/-- Nothing to do, as many chunks as may be, one too many; a loaded program; a free slot. -/
theorem wit_CommandsStart : Ready Hd.free (xs [3, 1, 2, 4]) tiny ∧ Ready Hd.free (xs [3, 1]) tiny ∧ (tiny.sh.xget 4).toNat = 0 ∧
    ((tinyX [(4, 64 * 4096)]).sh.xget 4).toNat ≠ 0 ∧ ¬ (4096 < ((tinyX [(4, 64 * 4096)]).sh.xget 4).toNat / 64) ∧
    4096 < (((tinyX [(4, 64 * 4096 + 1)]).sh.xget 4).toNat + 63) / 64 ∧ aBlocked tiny [] = none ∧ freeSlot tiny = some 0 ∧ tiny.sh.progOk = false ∧
    ({ tiny with sh := { tiny.sh with progOk := true } } : State).region.shapeN ≤ 0 % 2 ^ 20 ∧ entGranted tiny.sh 7 = true ∧ entGranted tiny.sh 8 = false := by
  refine ⟨ready_of (by decide +kernel), ready_of (by decide +kernel), by decide +kernel⟩
/-- A core with a command in a slot. -/
def commanded (c : Cmd) : State := { tiny with co := { tiny.co with cmds := [(0, c)] } }
def copyCmd : Cmd := { (default : Cmd) with kind := .copy, run := true, expect := 2, len := 128, chunk := 64, pm := 63, seq := 1 }
theorem wit_ProgramsAndStatus : Ready Hd.free (xs [3, 1]) tiny ∧ Ready Hd.free (xs [3]) tiny ∧ Ready Hd.free (xs [1]) tiny ∧
    afind? ((commanded copyCmd).core 0).cmds 0 = some copyCmd ∧ copyCmd.seq = 0x100 / 2 ^ 8 % 2 ^ 24 ∧ copyCmd.run = true ∧
    ({ copyCmd with run := false } : Cmd).run = false ∧ foldsDue tiny = false := by
  refine ⟨ready_of (by decide +kernel), ready_of (by decide +kernel), ready_of (by decide +kernel), by decide +kernel⟩
/-- The program `hprog` reads in the first near word: one `end`. -/
theorem wit_ProgramsAndStatus_read :
    ∃ s1, ∀ k, readProg { tiny with mem := tiny.mem.writeLe (nearKey 0 0) 4 0x70000000 } 0 32 k = k s1 [0x70000000] := ⟨_, fun _ => rfl⟩
/-- A running transform with a buffer of four FP32 elements. -/
def shaping : Cmd :=
  { (default : Cmd) with
    kind := .xfm
    run := true
    expect := 1
    bufs := [leBytes 16 0x3F800000, [], [], [], [], [], [], []]
    bpois := List.replicate 8 false
    runFmt := List.replicate 8 none
    chunk := 1
    prog := [0x70000000] }
theorem wit_MicroOps : afind? (commanded shaping).co.cmds (commanded shaping).co.hslot = some shaping ∧ shaping.run = true ∧ shaping.kind = .xfm ∧
    shaping.stop = false ∧ (elemsOf 8 (shaping.bufs.getD 0 [])).isSome = true ∧ elemsOf 8 [0] = none ∧ shaping.loops = [] := by
  refine (by decide +kernel)
theorem wit_ChunksFinish : afind? (commanded { copyCmd with moved := [(0, 64)] }).co.cmds 0 = some { copyCmd with moved := [(0, 64)] } ∧
    chunkReady (commanded copyCmd) 0 0 0 copyCmd = false ∧
    chunkReady (commanded { copyCmd with moved := [(0, 64)] }) 0 0 0 { copyCmd with moved := [(0, 64)] } = true ∧ copyCmd.done + 1 ≠ copyCmd.expect ∧
    (let c : Cmd := { copyCmd with kind := .get, sent := [1] }
     c.waits = [1] ∧ c.heardAt tiny + 40000000 ≤ ({ tiny with gn := { tiny.gn with t64 := 40000000 } } : State).gn.t64.toNat ∧ copyCmd.waits = []) := by
  decide +kernel

/-! ### The X-pipe -/

theorem wit_Predicates : ∀ i ∈ [Instr.plog Hd.free 8 5 6 7, .psetAll Hd.free true 47, .psetLt Hd.free 5 1 4, .psetMod Hd.free 5 4096, .psetBits Hd.free 5 1,
    .pcnt Hd.free 3 47, .pfirst Hd.free 3 0], XReady i (atHead i (vecs .i32 0 512)) := heads_of (by decide +kernel)
theorem wit_Shapes : (∀ i ∈ [Instr.vsetl Hd.free 0 false .f32 3 4 3, .vsetl Hd.free 3 true .i8 255 4 0, .xnop Hd.free 8], XReady i (atHead i tiny)) ∧
    (atHead (.xnop Hd.free 8) tiny).co.admittedX 0 = false ∧ tiny.sh.budgetDue = false ∧ (Instr.xnop { gd := 5, ng := false, w := 0 } 8).kind = .xClass ∧
    elementWise (.xnop { gd := 5, ng := false, w := 0 } 8) = false ∧ tiny.sh.guard { gd := 5, ng := false, w := 0 } = false :=
  ⟨heads_of (by decide +kernel), by decide +kernel⟩
/-- The greatest group, at its highest register; each integer type's smallest and largest width. -/
theorem wit_VectorIntegers : (∀ i ∈ [Instr.vadd Hd.free true false .rne 56 48 8, .vsub Hd.free false true .rne 0 8 3, .vmul Hd.free false false .rne 8 16 24,
    .vabs Hd.free true 8 16, .vneg Hd.free false 8 16, .vdot2 Hd.free true false 8 16 24, .vmin Hd.free false 8 16 24, .vmax Hd.free false 8 16 24,
    .vand Hd.free false 8 16 24, .vor Hd.free false 8 16 24, .vxor Hd.free false 8 16 24, .vmulh Hd.free false 8 16 24, .vsll Hd.free .vi 8 16 0 32,
    .vsrl Hd.free .vv 8 16 24 0, .vsra Hd.free .vx true .he 8 16 3 0], XReady i (atHead i (vecs .i32 3 4096))) ∧
    (vecs .i32 3 4096).sh.vlen.toNat ≤ (vecs .i32 3 4096).sh.grp * (vecs .i32 3 4096).sh.eper (vecs .i32 3 4096).sh.et ∧ aligned 56 8 = true ∧
    (vecs .i32 3 4096).sh.et.isInt = true ∧ (vecs .n64 0 1).sh.et.isInt = true := by
  refine ⟨heads_of (by decide +kernel), by decide +kernel⟩
theorem wit_VectorFloats : (∀ i ∈ [Instr.vadd Hd.free false false .rne 8 9 10, .vsub Hd.free false true .rz 8 9 3, .vmul Hd.free true false .rne 8 9 10,
    .vfma Hd.free false .rne 8 9 10 11, .vfms Hd.free true .rne 8 9 3 11, .vmin Hd.free false 8 9 10, .vmax Hd.free false 8 9 10, .vabs Hd.free false 8 9,
    .vneg Hd.free true 8 9, .vsfu Hd.free .rcp .rne 8 9, .vscl Hd.free .rne 4 8 9 10, .vmulh Hd.free false 8 9 10], XReady i (atHead i (vecs .f32 0 512))) ∧
    (vecs .f32 0 512).sh.et = .f32 ∧ (vecs .bf16 0 1).sh.et = .bf16 ∧ (vecs .f16 0 1).sh.et = .f16 ∧ aligned 10 ((vecs .f32 0 512).sh.grp2 .bf16) = true := by
  refine ⟨heads_of (by decide +kernel), by decide +kernel⟩
theorem wit_VectorWidths : (∀ i ∈ [Instr.vmacw Hd.free true .rne 8 10 12, .vnarrow Hd.free true .i64 .hu 63 8 10, .vwiden Hd.free .i16 8 10,
    .vcvt Hd.free .f32 .rne .trap 8 10], XReady i (atHead i (vecs .i32 0 512))) ∧
    XReady (.vmacw Hd.free true .rne 8 10 12) (atHead (.vmacw Hd.free true .rne 8 10 12) (vecs .bf16 0 4)) ∧ aligned 8 2 = true ∧
    (vecs .i32 0 512).sh.grp2 .i64 = 2 ∧ (vecs .i32 0 512).sh.grp * EType.f32.bits ≤ 8 * EType.i32.bits ∧ widenOk .i32 .i16 = true ∧ EType.i64.bits = 2 * EType.i32.bits := by
  refine ⟨heads_of (by decide +kernel), xready_of (by decide +kernel), by decide +kernel⟩
theorem wit_VectorMoves : (∀ i ∈ [Instr.vcmp Hd.free .eq false 47 8 9, .vsel Hd.free 8 9 10 5, .vslide Hd.free true true 8 9 0 255, .vperm Hd.free .n32 8 9 10,
    .vbcast Hd.free 8 3, .vbcastEl Hd.free 8 9 3, .viota Hd.free 8 5, .viotaIdx Hd.free 8, .vmovx Hd.free 3 8 4, .vmovxV Hd.free 8 3 4,
    .vcompress Hd.free 8 9 5, .vexpand Hd.free 8 9 5], XReady i (atHead i (vecs .i32 0 512))) ∧ (vecs .i32 0 512).sh.vstart = 0 ∧
    (let s : State := { vecs .i32 0 512 with sh := { (vecs .i32 0 512).sh with vstart := 1 } }
     s.sh.vstart ≠ 0) ∧ (vecs .i32 0 512).sh.grp * EType.n32.bits ≤ 8 * EType.i32.bits := by
  refine ⟨heads_of (by decide +kernel), by decide +kernel⟩
theorem wit_VectorReductions : (∀ i ∈ [Instr.vred Hd.free .min 3 8 0, .vredo Hd.free 3 8 4, .vscan Hd.free true 8 9], XReady i (atHead i (vecs .i32 0 512))) ∧
    (∀ i ∈ [Instr.vred Hd.free .sum 3 8 0, .vredo Hd.free 3 8 4], XReady i (atHead i (vecs .e5 0 0))) ∧ ((vecs .i32 0 0).sh.actives Hd.free) = [] ∧
    ((vecs .i32 0 1).sh.actives Hd.free) = [0] := by
  refine ⟨heads_of (by decide +kernel), heads_of (by decide +kernel), by decide +kernel⟩
/-- One element at address 0 and at one outside the grant, for a load and a store; a queue that takes no more; no element active. -/
theorem wit_VectorMemory : (∀ i ∈ [Instr.vld Hd.free .i32 8 1 0, .vlds Hd.free .f32 8 1 2 4, .vldx Hd.free .i32 .n32 2 8 1 10 47 0, .vst Hd.free .i32 8 1 0,
    .vsts Hd.free .i32 8 1 2 0, .vstx Hd.free .i32 .n16 0 8 1 10 0, .vldq Hd.free .i32 8 5, .vld Hd.free .i8 8 1 0],
      XReady i (atHead i (vecs .i32 0 1)) ∧ XReady i (atHead i (vecs .i32 0 0)) ∧ (atHead i (vecs .i32 0 1)).shaped) ∧
    (vecs .i32 0 1).sh.actives Hd.free = [0] ∧ (vecs .i32 0 0).sh.actives Hd.free = [] ∧ (vecs .i32 0 1).sh.xProg = 0 ∧ (vecs .i32 0 1).sh.vstart = 0 ∧
    (vecs .i32 0 1).sh.dqOf 5 = [] := by
  refine ⟨fun i hi => ⟨heads_of (by decide +kernel) i hi, heads_of (by decide +kernel) i hi, ?_⟩, by decide +kernel⟩
  simp only [List.mem_cons, List.mem_nil_iff, or_false] at hi
  unfold State.shaped
  rcases hi with rfl | rfl | rfl | rfl | rfl | rfl | rfl | rfl <;> decide +kernel
theorem wit_VectorMemory_reads :
    let i : Instr := .vld Hd.free .i32 8 1 0
    let s := atHead i (vecs .i32 0 1)
    check (s.atIssue i) s.who 0 4 .read false true = (s.atIssue i, .ok { key := nearKey 0 0, frm := false, cmp := false }) ∧
    s.co.coversSpan (nearKey 0 0) (nearKey 0 0 + 4) = false ∧ check (s.atIssue i) s.who 0x180000 4 .read false true = (s.atIssue i, .bad 0x03 3 0) := by
  decide +kernel
theorem wit_VectorMemory_writes :
    let i : Instr := .vst Hd.free .i32 8 1 0
    let s := atHead i (vecs .i32 0 1)
    let x : By := { a := [], x := [0], t := [] }
    check (s.atIssue i) s.who 0 4 .write false true = (s.atIssue i, .ok { key := nearKey 0 0, frm := false, cmp := false }) ∧
    ((s.atIssue i).co.plain (nearKey 0 0) (leBytes 4 1) false x).isSome = true ∧ fullLane.co.plain (nearKey 0 0) (leBytes 4 1) false x = none ∧
    check (s.atIssue i) s.who 0x180000 4 .write false true = (s.atIssue i, .bad 0x03 3 0) := by
  decide +kernel
/-- A free engine, an owned one, and one another shuttle holds. -/
def owned (q : Nat) : State := { tiny with co := { tiny.co with owner := some q, acqs := [1], fa := { Fifo.reset with src := .fill, ty := .i8 }, fb := { Fifo.reset with src := .push, ty := .i8 } } }
theorem wit_EngineOwnership : (∀ i ∈ [Instr.mownAcq Hd.free 3, .mownTry Hd.free 3, .mownRel Hd.free, .mownRd Hd.free 3, .mbind Hd.free true .push .i8 0,
    .mtl Hd.free 61 1 2 4], XReady i (atHead i tiny) ∧ XReady i (atHead i (owned 0)) ∧ XReady i (atHead i (owned 2))) ∧
    tiny.co.owner = none ∧ (owned 0).co.owner = some (owned 0).sh.pos ∧ (∃ q, (owned 2).co.owner = some q ∧ q ≠ (owned 2).sh.pos) ∧ (∃ q ∈ (owned 0).co.acqs, q ≠ 0) ∧
    delivering (owned 0) true = [] := by
  refine ⟨fun i hi => ⟨heads_of (by decide +kernel) i hi, heads_of (by decide +kernel) i hi, heads_of (by decide +kernel) i hi⟩, by decide +kernel, by decide +kernel,
    ⟨2, by decide +kernel⟩, by decide +kernel⟩
/-- The owner, with eight INT8 elements to push and one row of eight to fill. -/
def feeding : State := { owned 0 with sh := { (vecs .i8 0 8).sh with x := ((tiny.sh.x.set 3 8).set 4 1).set 5 8, lanes := 4 } }
theorem wit_MatrixOperands : XReady (.vpush Hd.free true false 8 0) (atHead (.vpush Hd.free true false 8 0) feeding) ∧
    XReady (.mfill Hd.free false false true 4 1 5 3) (atHead (.mfill Hd.free false false true 4 1 5 3) feeding) ∧
    feeding.co.owner = some feeding.sh.pos ∧ (feeding.co.fifo true).src = .push ∧ (feeding.co.fifo false).src = .fill ∧ feeding.sh.lanes ∈ [4, 8, 16, 32] ∧
    (feeding.co.fifo true).ty.etype = feeding.sh.et ∧ (tiny.co.fifo true).src ≠ .push := by
  refine ⟨xready_of (by decide +kernel), xready_of (by decide +kernel), by decide +kernel⟩
/-- One row by one row of eight products; and the largest shape. -/
def multiplying : State :=
  let f : Fifo := { Fifo.reset with src := .fill, ty := .e4, runs := [{ (default : FRun) with codes := [0, 0, 0, 0, 0, 0, 0, 0], scale := 0x7F00, poison := false }] }
  { tiny with co := { tiny.co with owner := some 0, fa := f, fb := f }, sh := { tiny.sh with x := ((tiny.sh.x.set 1 1).set 2 1).set 3 8 } }
theorem wit_MatrixMultiply : XReady (.mma Hd.free true .e4 .e4 7 1 2 3) (atHead (.mma Hd.free true .e4 .e4 7 1 2 3) multiplying) ∧
    multiplying.co.owner = some multiplying.sh.pos ∧ (multiplying.sh.firstTile ≤ 7 ∧ 7 < multiplying.sh.firstTile + multiplying.sh.nTiles) ∧
    ¬ (8 < multiplying.sh.firstTile + multiplying.sh.nTiles) ∧ (multiplying.co.fa.src ≠ .none ∧ multiplying.co.fb.src ≠ .none) ∧ multiplying.co.fa.ty = .e4 ∧
    ((multiplying.sh.xget 1).toNat ≤ 64 ∧ (multiplying.sh.xget 3).toNat ≤ 1024) ∧
    (multiplying.sh.xget 1).toNat * (((multiplying.sh.xget 3).toNat + 7) / 8) ≤ multiplying.co.fa.runs.length ∧
    (∀ r ∈ multiplying.co.fa.runs ++ multiplying.co.fb.runs, r.poison = false) := by
  refine ⟨xready_of (by decide +kernel), by decide +kernel⟩
theorem wit_TileReadWrite : (∀ i ∈ [Instr.mzero Hd.free 7, .mrd Hd.free .rne .trap 7 8 0, .mwr Hd.free 7 8 0, .mbs Hd.free 7 1, .mbsRd Hd.free 7 3,
    .mdrain Hd.free .f32 .rne .sat 7 1 2 3 4], XReady i (atHead i (vecs .f32 0 1))) ∧ ((vecs .f32 0 1).sh.firstTile ≤ 7 ∧ 7 < (vecs .f32 0 1).sh.firstTile + (vecs .f32 0 1).sh.nTiles) ∧
    ¬ ((vecs .f32 0 1).sh.firstTile ≤ 8 ∧ 8 < (vecs .f32 0 1).sh.firstTile + (vecs .f32 0 1).sh.nTiles) ∧ 0 + (vecs .f32 0 1).sh.vlen.toNat ≤ 8192 ∧
    (vecs .f32 0 1).sh.et = .f32 ∧ (vecs .i32 0 1).sh.et ≠ .f32 := by
  refine ⟨heads_of (by decide +kernel), by decide +kernel⟩

/-- The same with a save area the frame fits: a trap is taken (R325). -/
def framed : State :=
  { handled with
    tlb := [{ pid := 1, va := placeVa, bits := 21, pa := placePage, r := true, w := true, x := false, cmp := false, frm := false }]
    recs := [{ (default : Rec) with id := 1, pid := 1, k := 1, lanes := 4, stat := .running, core := 0, region := { Region.none with saveBase := placeVa, saveN := 1 } }] }
theorem wit_TrapEntry_taken : next? (exec (.trap Hd.free 5) framed) (fun t => t.sh.level == 1 && t.sh.apc == 0x100000000 && t.sh.xget 1 == BitVec.ofNat 64 (frameAddr framed 0) &&
    t.sh.tcause == 0x0000000500000012) = true := by decide +kernel
/-- And returned from (R326): after `trap` at 0, `eret` goes on at 8. -/
theorem wit_TrapReturn_taken : next? (exec (.trap Hd.free 5) framed) (fun t => next? (exec (.eret Hd.free) t) (fun u => u.sh.level == 0 && u.sh.apc == 8)) = true := by
  decide +kernel

/-! ### Columns and the reed -/

/-- An arena of 64 KiB with INT32 columns: c0 and c1 of two elements, c2 and c3 empty, each with room for 16, and NAT32 ones c4 to c7. -/
def columned : State :=
  let s := { tiny with sh := { tiny.sh with x := ((((tiny.sh.x.set 1 0).set 2 0x10000).set 3 0x1000).set 4 16) } }
  let run (i : Instr) (s : State) : State := match exec i (atHead i s) with | .next t => { t with sh := { t.sh with lastIssue := 0 } } | _ => s
  let s1 := run (.cdefArena Hd.free 1 2 3) s
  (List.range 8).foldl (fun s k =>
    let s2 := { s with sh := s.sh.xset 5 (BitVec.ofNat 64 (64 * k)) }
    run (.cdefT Hd.free (if k < 4 then .i32 else .n32) (Fin.ofNat 64 k) 5 4) s2) s1
theorem test_cdef : (columned.sh.col 7).cap = 16 ∧ (columned.sh.col 7).len = 0 ∧ arenaSize columned.sh.arena = 0x10000 := by decide +kernel
theorem wit_ColumnRegisters : (∀ i ∈ [Instr.cdefArena Hd.free 1 2 3, .cdefT Hd.free .i64 15 1 4, .cdefLen Hd.free 7 4, .clen Hd.free 3 7, .clenCap Hd.free 3 7,
    .clenDesc Hd.free 3 7, .clenArena Hd.free 3, .ccurRd Hd.free 3, .ccurClr Hd.free, .ccurWr Hd.free 1], XReady i (atHead i columned)) ∧
    (columned.sh.xget 2).toNat % 64 = 0 ∧ (tiny.who.lo ≤ 0 ∧ 0 + 0x10000 ≤ tiny.who.lo + tiny.who.len) ∧ 0x10000 < 2 ^ 21 ∧ (columned.sh.xget 4).toNat ≤ (columned.sh.col 7).cap := by
  refine ⟨heads_of (by decide +kernel), by decide +kernel⟩
theorem wit_ColumnTransfers : (∀ i ∈ [Instr.cld Hd.free 2 1 4 9 63, .cldSt Hd.free 0 1 9, .cscat Hd.free .add 0 1 4 9, .cvecApp Hd.free 2 8 9 5],
    XReady i (atHead i columned)) ∧ ColReady columned (cctl 2 0 false 9 63 [2]) [] ∧
    ColReady columned (cctl 6 AmoK.add.code false 9 63 []) [(0, false), (4, false)] ∧
    (columned.sh.xget 1).toNat % (columned.sh.col 2).size = 0 ∧ scatType .add .i32 = true := by
  refine ⟨heads_of (by decide +kernel), (by unfold ColReady; decide +kernel), (by unfold ColReady; decide +kernel), by decide +kernel⟩
theorem wit_ColumnSelections : (∀ i ∈ [Instr.csel Hd.free .gt false 4 0 3 9 63, .cselp Hd.free .lt 5 0 4 3 9 5, .cgath Hd.free 2 0 4 9 63, .cgrp Hd.free 5 0 9 63,
    .cuniq Hd.free false 2 0 9 63, .cagg Hd.free .sum true 2 0 4 9 63, .cres Hd.free 3 4 4 0 3 0 9 63], XReady i (atHead i columned)) ∧
    ColReady columned (cctl 3 (cselFn .gt false) false 9 63 [4]) [(0, true)] ∧ ColReady columned (cctl 10 0 false 9 63 [2]) [(0, false), (4, false)] ∧
    curIs columned.sh.curLo 3 4 = false ∧ curIs (curWord false 3 4 0 0) 3 4 = true := by
  refine ⟨heads_of (by decide +kernel), (by unfold ColReady; decide +kernel), (by unfold ColReady; decide +kernel), by decide +kernel⟩
theorem wit_ColumnOrder : (∀ i ∈ [Instr.cjoin Hd.free .inner 4 0 1 9 63, .csort Hd.free true true 4 0 9, .csort Hd.free false false 2 0 9], XReady i (atHead i columned)) ∧
    ColReady columned (cctl 7 0 false 9 63 [4, 5]) [(0, false), (1, false)] ∧ ColReady columned (cctl 8 1 false 9 63 [4]) [(0, false)] ∧
    cbegin columned.sh (cctl 7 0 false 9 63 [4, 5]) 0 = (0, 0, 0) ∧ (16 * (EType.i32.bits + 32) + 511) / 512 * 64 ≤ arenaScratch columned.sh.arena := by
  refine ⟨heads_of (by decide +kernel), (by unfold ColReady; decide +kernel), (by unfold ColReady; decide +kernel), by decide +kernel⟩
/-- A descriptor at 0 of the near window and one out of place; a cursor that stands, and one that is done. -/
theorem wit_Reed : (∀ i ∈ [Instr.xco Hd.free .and 1, .xnext Hd.free 8 3, .xcurRdl Hd.free 3, .xcurRdh Hd.free 3, .xcurWrl Hd.free 1, .xcurWrh Hd.free 1, .xcurClr Hd.free],
    XReady i (atHead i tiny)) ∧ (tiny.sh.xget 1).toNat % 64 = 0 ∧ inPads 0 = true ∧ inPads placeVa = false ∧ (8 : Fin 64).val % 4 = 0 ∧ (9 : Fin 64).val % 4 ≠ 0 ∧
    tiny.sh.xcurV = false := by
  refine ⟨heads_of (by decide +kernel), by decide +kernel⟩

/-! ### The module -/

theorem wit_Debugger : framed.co.recId ≠ none ∧ tiny.co.recId = none ∧ tiny.co.halted = false ∧ framed.sh.status = .running ∧
    (let s : State := { framed with co := { framed.co with halted := true, bps := [(3, 0)] } }
     s.co.halted = true ∧ (∃ b ∈ s.co.bps, b.2 = s.sh.apc.toNat) ∧ s.sh.pos ∉ s.co.bpPass) ∧
    ((framed.sh.pos + 1) * framed.sh.lanes ≤ 32) ∧ windowOf placeVa = .xlat ∧ windowOf 0 ≠ .xlat ∧ (∃ x ∈ framed.tlb, x.covers 1 placeVa = true ∧ x.permits .read = true) := by
  refine ⟨by decide +kernel, by decide +kernel, by decide +kernel, by decide +kernel, (by decide +kernel), by decide +kernel⟩
/-- A request on a session of the partition that has the core; and one on no session. -/
def debugged : State :=
  { framed with
    bootStep := 6
    sessions := [{ id := 2, scope := 1 }]
    parts := [(1, { controlPart with uses := [{ die := 0, cores := 1, mask := 0, key := 0, pbase := 0, pcap := 0, clus := [] }] })]
    dreq := { session := 2, part := 1, id := 7, args := [0, 0, 0, 0, 0, 0, 0] } }
theorem wit_Debugger_asked : 6 ≤ debugged.bootStep ∧ (∃ x ∈ debugged.sessions, x.id = debugged.dreq.session ∧ (x.scope = debugged.dreq.part ∨ x.scope = 256)) ∧
    (debugged.dreq.args.drop 7).all (· == 0) = true ∧ debugged.dreq.resv = 0 ∧
    (∃ p, debugged.part? debugged.dreq.part = some p ∧ ∃ u ∈ p.uses, u.die = debugged.co.id / 16 ∧ u.cores.getLsbD (debugged.co.id % 16) = true) ∧
    coreReturning debugged = false ∧ (¬ ∃ x ∈ framed.sessions, x.id = framed.dreq.session) ∧
    next? (exec .debugHalt debugged) (fun t => t.co.halted && t.co.dbg && next? (exec .stepA t) (fun u => u.co.stepping == some (0, false))) = true := by
  refine ⟨by decide +kernel, by decide +kernel, by decide +kernel, by decide +kernel, ⟨_, rfl, by decide +kernel⟩, by decide +kernel⟩
/-- Both pipes wait for one another, at a queue. -/
theorem wit_Debugger_deadlock : (let s : State := { tiny with sh := { tiny.sh with aWait := .onX, xWait := .queue } }
    s.sh.status = .running ∧ s.co.halted = false ∧ s.sh.due = none ∧ s.sh.aWait = .onX ∧ s.sh.xWait = .queue ∧ ∀ f ∈ s.sh.flight, f.lands < s.co.cycle) := by decide +kernel
/-- The walk of R339 in place of a fault: partition 1 with its root. -/
theorem wit_Debugger_walk : (let s : State := { tiny with mem := walkTables, parts := [(1, { controlPart with root := some 0x010000000000 })] }
    (s.part? 1).bind (fun p => p.root) = some 0x010000000000 ∧ walkFrom s.mem 0x00004A1234567890 0x010000000000 5 0 = .ok (0x0100000400B0, 0xC0000100012300C2, 4) ∧
      s.tlb = []) := by decide +kernel
theorem wit_HardwareEvents : (0 : Nat) ∉ tiny.poison ∧ (0 : Nat) ∈ ({ tiny with poison := [0] } : State).poison ∧ isDS 0x1FFFFFFFFF = true ∧ isDS mmBase = false ∧
    tiny.rec? tiny.nextRec = none ∧ tiny.gn.lock = 3 ∧ tiny.gn.primary ≠ tiny.gn.backup ∧ (-200 : Int) ≤ 200 ∧ ¬ (tiny.gn.lock = 1) := by decide +kernel
/-- A registered queue of an active partition; its header cannot be read. -/
def queued : State := { tiny with parts := [(1, controlPart)], queues := [{ (default : HQueue) with no := 3, pid := 1, hdr := placeVa, dies := 1 }] }
theorem wit_QueuesAndTokens : (∃ x p, queued.queue? 3 = some x ∧ x.no = 3 ∧ x.stop = 0 ∧ queued.part? x.pid = some p ∧ p.state = 1 ∧ queueHeld queued x = false ∧ readHeader queued x = (queued, none)) ∧ queued.latent = [] ∧
    tiny.queue? 3 = none ∧ tiny.gn.t64.toNat / 400000 = tiny.gn.lastTok ∧
    (let s : State := { tiny with gn := { tiny.gn with t64 := 400000 } }
     s.gn.t64.toNat / 400000 ≠ s.gn.lastTok ∧ s.gn.t64.toNat / 4000 ≠ s.gn.lastChg ∧ (meetTenants s).2 = []) := by
  refine ⟨⟨_, _, rfl, by decide +kernel, by decide +kernel, rfl, by decide +kernel⟩, by decide +kernel⟩
theorem wit_Records : tiny.named ∧ waitingRecs tiny = [] ∧ readCands tiny [] = (tiny, [], []) ∧ tiny.rec? 1 = none ∧
    (∃ r, framed.rec? 1 = some r ∧ r.k ≤ 32 ∧ framed.sh.pos < r.k ∧ r.stat = .running ∧ r.preAt = none) ∧
    (({ framed with recs := framed.recs.map (fun r => { r with stat := .waiting }) } : State).rec? 1).map (fun r => r.stat) = some .waiting ∧
    recBusy framed 1 = false ∧
    (let s : State := { tiny with sh := { tiny.sh with pre := some 0 }, gn := { tiny.gn with t64 := 80000 } }
     s.sh.pre = some 0 ∧ 0 + 80000 ≤ s.gn.t64.toNat ∧ s.sh.saveDue = none ∧ s.sh.midway = false) := by
  refine ⟨⟨fun k => ?_, fun k p => ?_⟩, by decide +kernel, rfl, by decide +kernel, ⟨_, rfl, by decide +kernel⟩, by decide +kernel⟩
  · by_cases h : k = 0 <;> simp [State.core, tiny, State.reset, Core.reset, aget, h]
  · by_cases h : k = 0 ∧ p = 0
    · simp [State.shuttle, tiny, State.reset, Core.reset, Shuttle.reset, h]
    · by_cases hk : k = 0 <;> simp_all [State.shuttle, State.core, tiny, State.reset, Core.reset, Shuttle.reset, aget]
/-- An active partition, firmware running: with no page, and with one. -/
def serving : State := { queued with bootStep := 6 }
def servingPage : State := { paged false false with bootStep := 6, parts := [(1, { controlPart with state := 1, mmBase := 0, mmSize := 1 })] }
/-- A span of no line, of one and of two, and one that is refused; a place in the boot buffer. -/
theorem wit_Transport : (serving.bootStep = 6 ∧ ∃ p, serving.part? 1 = some p ∧ p.state = 1) ∧ tiny.part? 1 = none ∧ tiny.bootStep < 5 ∧
    (∃ x d, netSpan 1 .write false 3 (notePorts serving 1 [0]) 0x100000000 64 = (notePorts serving 1 [0], .error (some (x, d)))) ∧
    netSpan 1 .write false 2 (notePorts servingPage 1 [0]) 0x100000000 0 = (notePorts servingPage 1 [0], .ok []) ∧
    netSpan 1 .write false 3 (notePorts servingPage 1 [0]) 0x100000000 64 = (notePorts servingPage 1 [0], .ok [(placePage, 64)]) ∧
    netSpan 1 .write false 4 (notePorts servingPage 1 [0]) 0x100000020 128 = (notePorts servingPage 1 [0], .ok [(placePage + 32, 32), (placePage + 64, 64), (placePage + 128, 32)]) ∧
    inBoot [(placePage, 64)] = false ∧ inBoot [(0x027FF0000000, 64)] = true ∧ (tiny.die 0).fabq[0]? = none ∧ ¬ ((tiny.die 0).fabBud < 64) := by
  refine ⟨⟨rfl, _, rfl, by decide +kernel⟩, by decide +kernel, by decide +kernel, ⟨_, _, rfl⟩, by decide +kernel⟩
/-- Bring-up done, with a session of module scope and one of partition 1. -/
def managed : State := { queued with bootStep := 6, sessions := [{ id := 1, scope := 256 }, { id := 2, scope := 1 }], feature := none, offered := true }
theorem wit_Management :
    next? (exec (.featureOffer { session := 1, part := 0xFF, id := 9, args := List.replicate 6 0 }) managed) (fun t => t.out.length == 1 && t.offered) = true ∧
    next? (exec (.featureAccept { session := 1, part := 0xFF, id := 9, args := [0xFF, 0, 0, 0, 0, 0] }) managed) (fun t => t.feature == some 0xFF) = true ∧
    next? (exec (.queueReg { session := 2, part := 1, id := 9, args := [64, 1, 0, 0, 0, 0] }) managed) (fun t => t.queues.length == 2) = true ∧
    next? (exec (.queueReg { session := 3, part := 1, id := 9, args := [64, 1, 0, 0, 0, 0] }) managed) (fun t => t.queues.length == 1) = true := by decide +kernel
/-- A gang known here, in lock, and its switch. -/
def ganged : State := { tiny with bootStep := 6, gn := { tiny.gn with lock := 0 }, gangs := [{ id := 7, pid := 1, coord := 5, members := [0], handle := 0, isIn := false }] }
theorem wit_Gangs : (∃ y ∈ ganged.gangs, y.id = 7) ∧ ganged.token? 7 0 = none ∧ aget 0 ganged.seen 5 < 1 ∧ ganged.gn.lock < 2 ∧ 2 ≤ tiny.gn.lock ∧
    next? (exec (.gangSwitch { seq := 1, incoming := 7, outgoing := 0, time := 100000, reason := 0, sender := 5 }) ganged) (fun t =>
      (t.token? 7 0).any (fun x => x.st == .armed) && t.out.length == 1 &&
      next? (exec (.confirm { seq := 1, incoming := 7, outgoing := 0, time := 100000, reason := 0, sender := 5 }) t) (fun u =>
        (u.token? 7 0).any (fun x => x.st == .bound))) = true ∧ ganged.coord? 1 = none ∧ ganged.tokens[1]? = none := by decide +kernel
/-- A block that asks for a partition, and one whose command is unlisted. -/
def asked (w : Nat) : State := { tiny with bootStep := 6, mem := tiny.mem.writeLe (0x027FC0000000 + 0x800) 8 w, parts := [] }
theorem wit_Partitions : (6 ≤ (asked (2 ^ 56 + 1)).bootStep ∧ pcb (asked (2 ^ 56 + 1)) 1 0 % 2 ^ 32 ≠ pcb (asked (2 ^ 56 + 1)) 1 1 % 2 ^ 32) ∧
    pcb (asked (2 ^ 56 + 1)) 1 0 / 2 ^ 56 % 2 ^ 8 = 1 ∧ pcb (asked (8 * 2 ^ 56 + 1)) 1 0 / 2 ^ 56 % 2 ^ 8 = 8 ∧ (asked 1).part? 1 = none ∧ createBad (asked (2 ^ 56 + 1)) 1 = true ∧
    (supervisor.part? 2).map (fun p => p.state) = some 3 ∧ partQuiet queued 1 = true ∧ dirtyLeaves queued 1 = [] ∧ xlatsBusy queued (fun _ => true) = false := by decide +kernel
theorem wit_Resets : tiny.bootStep = 3 ∧ tiny.mem.readLe (0x027FF0000000 + 16) 8 ≠ 1 ∧
    (let s : State := { tiny with mem := tiny.mem.writeLe (0x027FF0000000 + 16) 8 1 }
     s.mem.readLe (0x027FF0000000 + 16) 8 = 1) ∧
    (let s : State := { tiny with bootStep := 6, mem := tiny.mem.writeLe 0x027FC0000000 8 (9 * 2 ^ 56 + 1) }
     s.bootStep = 6 ∧ pcb s 0 0 / 2 ^ 56 % 2 ^ 8 = 9 ∧ pcb s 0 0 % 2 ^ 32 ≠ pcb s 0 1 % 2 ^ 32 ∧ (s.die 31).repair ≠ 1 ∧ dieQuiet s 0 = true) := by decide +kernel
theorem wit_CodingRoundTrip : (Instr.add Hd.free 3 1 2).wf = true ∧ (Instr.add Hd.free 3 1 2).kind = .aClass ∧ (Instr.hrd 7 0xFFF).wf = true ∧ (Instr.hrd 7 0xFFF).kind = .micro := by decide
/-- A turn of each pipe that runs an instruction. -/
theorem wit_StepRunsDecoded : (∃ ts, (tiny.withFetchWord 64 0x161F860000000001).turns = .apipe { core := 0, pos := 0 } :: ts) ∧
    (let s := (tiny.withFetchWord 64 0x161F860000000001).refocus { core := 0, pos := 0 }
     s.sh.status = .running ∧ s.sh.due = none ∧ s.sh.endDue = none ∧ s.co.halted = false ∧ bpHere s = false ∧ (match (fetch s).2 with | .word w => w == 0x161F860000000001 | _ => false) = true) ∧
    (tiny.withFetchWord 64 0x581F881870000000).sh.xq ≠ [] := by
  refine ⟨⟨_, rfl⟩, (by decide +kernel), by decide +kernel⟩
theorem wit_Invariants : State.reset.mem.wf = true ∧ next? (step { tiny with turns := [.clock 0] }) (fun t => t.co.cycle == 1) = true := by decide +kernel

/-! ### Further cases: loads under way, waits for a die, what a switch or a save is for, and errors met late -/

/-- Two loads under way of a shuttle at the near port, the older one for a data queue. -/
def loading : State :=
  let l : Load := { pos := 0, no := 1, dst := .q 5 64 false, busy := [], key := nearKey 0 64, size := 8, free := false, after := 0 }
  { tiny with
    sh := tiny.sh.setDq 5 [{ scalar := true, data := 0, due := some 1 }]
    co := { tiny.co with loadNo := 2, loads := [l, { l with no := 2, dst := .x 7 64 false, key := nearKey 0 0 }] } }
theorem wit_Loads_late : loading.co.loads[0]?.map (fun l => l.pos) = some loading.sh.pos ∧ loading.co.coversSpan (nearKey 0 64) (nearKey 0 64 + 8) = false ∧
    (∃ e l, loading.co.loads[0]? = some e ∧ loading.co.loads[1]? = some l ∧ e.pos = l.pos ∧ portOf e.key = portOf l.key ∧ e.no ≠ l.no ∧ e.free = false ∧ l.free = false) ∧
    loadMet loading .ns = true ∧ loadMet tiny .ns = false ∧ (loading.sh.dqOf 5)[0]?.bind (fun e => e.due) = some 1 ∧
    spanBlocked (atHead (.vst Hd.free .i32 8 1 0) (vecs .i32 0 1)) true 0 8 .ns = true := by
  refine ⟨by decide +kernel, by decide +kernel, ⟨_, _, rfl, rfl, by decide +kernel⟩, by decide +kernel⟩
theorem wit_QueueMoves_due : (∀ i ∈ [Instr.qmovXq Hd.free 3 5, .qmovQq Hd.free 7 5], XReady i (atHead i loading)) ∧
    (∃ e r, loading.sh.dqOf 5 = e :: r ∧ e.due.isSome = true) := ⟨heads_of (by decide +kernel), ⟨_, _, rfl, by decide +kernel⟩⟩
/-- Tables on a die under repair, and on a fenced one; and a page there. -/
def mending (st : Nat) : State :=
  { paged false false with
    parts := [(1, { controlPart with root := some 0x100000000 })]
    dies := [(1, { Die.reset with repair := st, keys := [3], banks := [{ key := 3, pid := 1, pbase := 0, pcap := 16, mask := 0 }] })]
    tlb := [{ pid := 1, va := placeVa, bits := 16, pa := 0x100000000, r := true, w := true, x := false, cmp := false, frm := false }] }
theorem wit_LoadFaults_repair : walkMeets (mending 1) 0 1 0x200000000 .read 1 = true ∧ walkMeets (mending 2) 0 1 0x200000000 .read 2 = true ∧
    walkMeets (mending 2) 0 1 0x200000000 .read 1 = false ∧ walkMeets (mending 1) 0 1 placeVa .read 1 = false ∧
    physOwned (mending 1) 1 0x100000000 = true ∧ isDS 0x100000000 = true ∧ ((mending 1).die 1).repair = 1 ∧ ((mending 2).die 1).repair = 2 := by decide +kernel
/-- A `fas` of two elements at the head of its port's queue. -/
theorem wit_LaneOrder_fas :
    let e : LaneEnt := { line := nearKey 0 0, bytes := [], ops := [], atom := some (0, 4, .fas .i32 [1, 2], .fas 0 .i32 8 [0, 3]), poison := false, aBy := [], xBy := [(0, 1)], tags := [] }
    let s : State := { vecs .i32 0 4 with co := { tiny.co with qNS := [e] } }
    s.co.queue .ns = [e] ∧ s.latent = [] ∧ ([1, 2] : List Nat).length = ([0, 3] : List Nat).length ∧ ([0, 3] : List Nat).Nodup ∧ 1 ≤ s.sh.lanes ∧ s.sh.lanes ≤ 32 ∧
      ∀ j ∈ [0, 3], 8 + j / s.sh.eper .i32 < 64 := by decide +kernel
theorem wit_TrapEntry_ecc : (0x0C : Nat) < 2 ^ 16 ∧ (countErr handled 0 6).co.returning 0 = false ∧ frameHeld (countErr handled 0 6) = false ∧
    ({ atHead (.mdrain Hd.free .f32 .rne .sat 0 1 2 3 4) tiny with
       sh := { (atHead (.mdrain Hd.free .f32 .rne .sat 0 1 2 3 4) tiny).sh with xIss := some (tiny.sh.atIssue []), due := some (flt 1 3 true) } } : State).sh.finishing = true := by decide +kernel
/-- A pre-emption asked for, and the `vsetl` dispatched after it. -/
theorem wit_Shapes_save :
    let i : Instr := .vsetl Hd.free 0 false .f32 3 4 3
    let s : State := { atHead i tiny with sh := { (atHead i tiny).sh with pre := some 0, preNos := (atHead i tiny).sh.xq.map (fun e => e.no) } }
    XReady i s ∧ s.co.admittedX s.sh.pos = false ∧ s.sh.pre ≠ none ∧ (∃ q r, s.sh.xq = q :: r ∧ q.no ∈ s.sh.preNos) ∧ s.sh.xq.length < 64 ∧
      s.co.xReturning s.sh.pos (4 : Fin 64).val = false ∧ ({ s with sh := { s.sh with budgetDue := true } } : State).sh.budgetDue = true :=
  ⟨xready_of (by decide +kernel), by decide +kernel, by decide +kernel, ⟨_, _, rfl, by decide +kernel⟩, by decide +kernel⟩
theorem wit_VectorIntegers_bits : ∀ i ∈ [Instr.vand Hd.free false 8 16 24, .vor Hd.free false 8 16 24, .vxor Hd.free true 8 16 3], XReady i (atHead i (vecs .bf16 0 4)) :=
  heads_of (by decide +kernel)
theorem wit_VectorReductions_floats : XReady (.vred Hd.free .sum 3 8 16) (atHead (.vred Hd.free .sum 3 8 16) (vecs .f4 0 9)) ∧
    (vecs .f4 0 9).sh.grp ≤ 4 ∧ aligned 16 (2 * (vecs .f4 0 9).sh.grp) = true ∧
    XReady (.vscan Hd.free true 8 16) (atHead (.vscan Hd.free true 8 16) (vecs .f16 0 3)) ∧
    (∀ i ∈ [Instr.vred Hd.free .min 3 8 16, .vred Hd.free .and 3 8 16], XReady i (atHead i (vecs .f4 0 9))) :=
  ⟨xready_of (by decide +kernel), by decide +kernel, by decide +kernel, xready_of (by decide +kernel), heads_of (by decide +kernel)⟩
/-- An `mown.rel` while a transform still delivers to an operand FIFO. -/
def fed : State :=
  let s := owned 0
  { s with co := { s.co with recId := some 3, fa := { s.co.fa with src := .heddle, tag := 9 }
                             cmds := [(0, { (default : Cmd) with kind := .xfm, run := true, wrTo := some false, recId := 3, expect := 1 })] } }
theorem wit_EngineOwnership_delivers : XReady (.mownRel Hd.free) (atHead (.mownRel Hd.free) fed) ∧ (delivering fed false).map (fun q => q.2.1) = [0] ∧ delivering fed true = [] :=
  ⟨xready_of (by decide +kernel), by decide +kernel⟩
/-- The last chunk of a copy with `.crc`, and of a transform whose program has ended. -/
theorem wit_ChunksFinish_last :
    let c : Cmd := { copyCmd with expect := 1, len := 64, moved := [(0, 64)], crc := true, recId := 1, gather := [(0, [1, 2])] }
    let x : Cmd := { (default : Cmd) with kind := .xfm, run := true, expect := 1, chunk := 1, chunkNo := 1, pm := 63, prog := [0x70000000], pc := 1, recId := 1 }
    let s : Cmd → State := fun c => { handled with co := { handled.co with cmds := [(0, c)] } }
    chunkReady (s c) 0 0 0 c = true ∧ chunkReady (s x) 0 0 0 x = true ∧ (s c).live? 1 0 = some { core := (s c).co.id, pos := (s c).sh.pos } ∧
      c.barHeld (s c) = false ∧ c.done + 1 = c.expect ∧ x.prog.length ≤ x.pc ∧ (s c).co.cmds.Pairwise (fun x y => x.1 < y.1) ∧
      (∃ q, (s c).rec? 1 = some q ∧ q.folds = []) := by
  decide +kernel
/-- A fetch of a page: passed before, passed now, refused before, and waiting for a write. -/
def fetching (g : List (Nat × Bool)) : State :=
  { tiny with mem := walkTables, parts := [(1, { controlPart with root := some 0x010000000000 })], granules := g }
theorem wit_Debugger_fetch :
    let a := (0x0100000400B0 : Nat)
    let s : State := { fetching [] with feature := some 0xFF, mem := walkTables.writeLe a 8 0xC0000100012300A0 }
    walkFrom s.mem 0x00004A1234567890 0x010000000000 5 0 = .ok (a, 0xC0000100012300A0, 4) ∧ pageBits 4 = 16 ∧
      pendingWrites s 0x010001230000 0x010001240000 = false ∧ refusedPage s 0x010001230000 16 = none ∧
      scanWord s.feature (s.mem.readLe 0x010001230000 8) = none ∧ pcbState s 1 = 1 ∧ busyV s = [] ∧ s.sh.endDue = none ∧
      pendingWrites { s with co := { s.co with qMM := [{ line := 0x010001230000, bytes := [], ops := [], atom := none, poison := false, aBy := [0], xBy := [], tags := [] }] } }
        0x010001230000 0x010001240000 = true ∧
      refusedPage { s with tlb := [{ pid := 1, va := 0, bits := 16, pa := 0x010001230000, r := false, w := false, x := false, cmp := false, frm := false, ref := some (1, 0) }] }
        0x010001230000 16 = some (1, 0) := by decide +kernel
theorem wit_HardwareEvents_owner :
    let s : State := { framed with latent := [64], dies := [(0, { Die.reset with banks := [{ key := 0, pid := 1, pbase := 0, pcap := 1, mask := 0 }] })] }
    isDS 70 = true ∧ s.latent = [70 / 64 * 64] ∧ ownerOf s 70 = some 1 ∧ ownerOf s 0x20000 = none ∧
      (∃ r, s.recs.find? (fun r => r.pid == 1 && (s.core r.core).recId == some r.id) = some r ∧ s.rec? r.id = some r) :=
  ⟨by decide +kernel, by decide +kernel, by decide +kernel, by decide +kernel, ⟨_, rfl, rfl⟩⟩
/-- A queue of 16 entries whose tail lies two records ahead. -/
def ahead : State :=
  { servingPage with
    queues := [{ (default : HQueue) with no := 3, pid := 1, hdr := placeVa, dies := 1 }]
    mem := [(0, 2), (16, placeVa + 64), (24, placeVa + 0x8000), (32, 4)].foldl (fun m e => m.writeLe (placePage + e.1) 8 e.2) tiny.mem }
theorem wit_QueuesAndTokens_ahead : ∃ x h, ahead.queue? 3 = some x ∧ x.no = 3 ∧ x.stop = 0 ∧ readHeader ahead x = (ahead, some h) ∧ headerBad h = false ∧
    (h.getD 4 0).testBit 8 = false ∧ (h.getD 0 0 + 2 ^ 64 - x.head) % 2 ^ 64 = 2 ∧ 2 ≤ 2 ^ (h.getD 4 0 % 32) ∧ queueHeld ahead x = false ∧
    (∃ rd, frameReader ahead 1 (h.getD 2 0 % 2 ^ 56 + 64 * (x.next % 16)) 64 = (ahead, some rd) ∧ recordBad (fun k => rd (8 * k)) = true) := by
  refine ⟨_, _, rfl, by decide +kernel, by decide +kernel, rfl, by decide +kernel, by decide +kernel, by decide +kernel, by decide +kernel, by decide +kernel, ⟨_, rfl, by decide +kernel⟩⟩
/-- A save under way for record 5; a record that finishes what it has issued when it is killed. -/
theorem wit_Records_saving :
    let s : State := { framed with saving := [(5, 1)], recs := framed.recs.map (fun r => { r with preAt := some 0 }) }
    (s.saving.any (fun e => e.1 == 5 && (s.rec? e.2).any (fun z => z.preAt.isSome))) = true ∧ s.saves 5 = true ∧ framed.saving = [] ∧ framed.sh.finishing = false := by
  decide +kernel
/-- A switch of gang 7 that is live, a die without a slot left, one under repair, a list that cannot be read. -/
theorem wit_Management_refused :
    let m : MgmtReq := { session := 2, part := 1, id := 9, args := [7 * 2 ^ 32, 50000, 0, 0, 0, 0] }
    let s : State := { managed with gangs := [{ id := 7, pid := 1, coord := 0, members := [0], handle := 0, isIn := false }] }
    m.short 2 = true ∧ next? (exec (.gangReq m) s) (fun t => t.coords.length == 1) = true ∧
      (let c : CoSwitch := { seq := 1, inG := 7, outG := 0, t := 50000, go := false, acks := [], bad := false, sentConfirm := false, switched := [], late := false }
       next? (exec (.gangReq m) { s with coords := [c] }) (fun t => t.coords.length == 1 && t.out.length == 1)) = true ∧
      tableHeld s 1 = false ∧ netHeld s 1 0 4 = false ∧ devHeld s 1 64 64 = false ∧ (readNumbers 1 1 0 s).2 = none ∧
      netBarOk s 1 0 = false ∧ (s.die (barDie 0)).repair = 0 := by decide +kernel
/-- A gang switched in with a record to be saved; a bound token when holdover ends; a late member of the outgoing gang alone. -/
def switching : State :=
  { framed with
    gangs := [{ id := 7, pid := 1, coord := 0, members := [0], handle := 0, isIn := true }, { id := 8, pid := 1, coord := 0, members := [4], handle := 1, isIn := false }]
    recs := framed.recs.map (fun r => { r with gang := 7, gangIn := true })
    tokens := [{ st := .bound, seq := 1, inG := 8, outG := 7, t := 9000, coord := 0 }]
    coords := [{ seq := 1, inG := 8, outG := 7, t := 100, go := false, acks := [], bad := false, sentConfirm := true, switched := [4], late := false }]
    gn := { framed.gn with lock := 1, t64 := 8500 } }
theorem wit_Gangs_records : (∃ r ∈ switching.recs, r.gang = 7 ∧ r.gangIn = true ∧ r.stat = .running ∧ r.preAt = none ∧ freeSave switching r.pid r.region = none) ∧
    (∃ y ∈ switching.gangs, y.id = 7 ∧ y.isIn = true) ∧ switching.token? 7 0 = none ∧ switching.tokens.length = 1 ∧
    (switching.coord? 1).map (fun c => ((switchMembers switching c.inG c.outG).filter (fun m => !c.switched.contains m), (c.memberOf switching 0).map Prod.snd)) = some ([0], some 0) ∧
    ({ switching with gn := { switching.gn with holdFrom := 0, t64 := 4000000000 } } : State).gn.holdLeft = 0 := by decide +kernel
/-- A queue of the partition that is read at once; a leaf to harvest; a measurement that can be read. -/
theorem wit_Partitions_run :
    let s : State := { fetching [] with bootStep := 6 }
    leavesFrom s.mem 1 4 0x010000040000 0x00004A1234400000 = [(0x0100000400B0, 0x00004A1234560000, 4)] ∧ devHeld queued 1 placeVa 64 = false ∧ harvestHeld queued 1 0 8 = false ∧
      netHeld servingPage 1 placeVa 64 = false ∧ (fwSpan servingPage 1 placeVa 32 .read).2 = some [(placePage, 32)] ∧
      (fwSpan servingPage 1 (placeVa + 32) 32 .write).2 = some [(placePage + 32, 32)] ∧ (framed.recs.any (fun r => r.stat == .running)) = true := by decide +kernel
theorem wit_Resets_go : ({ tiny with goConn := some 4 } : State).goConn = some 4 ∧ tiny.goConn = none ∧ pcbState tiny 0 = 0 ∧ (tiny.part? 0).isNone = true := by decide +kernel

/-! ### Errors in stored state -/

/-- A poisoned entry of a return queue and of a data queue; an entry and a barrier slot with an error found. -/
def marred : State :=
  let s := barOf 0x100FFF
  { s with
    sh := { (s.sh.setRq 7 [9]).setDq 5 [{ QEntry.ofScalar 4 with pois := [0] }] with rqPois := [(7, 0)] }
    co := s.co.setTent 7 { (s.co.tent 7) with bad := true } }
theorem wit_QueueMoves_poison : Ready Hd.free (xs [3]) marred ∧ (7, 0) ∈ marred.sh.rqPois ∧ marred.sh.rqOf 7 = [9] ∧
    (∃ e r, marred.sh.dqOf 5 = e :: r ∧ e.due = none ∧ 0 ∈ e.pois) ∧ (∀ i ∈ [Instr.qmovXq Hd.free 3 5, .qmovQq Hd.free 6 5], XReady i (atHead i marred)) :=
  ⟨ready_of (by decide +kernel), by decide +kernel, by decide +kernel, ⟨_, _, rfl, by decide +kernel⟩, heads_of (by decide +kernel)⟩
theorem wit_TileTable_bad : (marred.co.tent 7).bad = true ∧ (marred.sh.firstTile ≤ 7 ∧ 7 < marred.sh.firstTile + marred.sh.nEnts) ∧
    Ready Hd.free (xs [3, 1]) marred ∧ XReady (.tileWt Hd.free 3 7) (atHead (.tileWt Hd.free 3 7) marred) :=
  ⟨by decide +kernel, by decide +kernel, ready_of (by decide +kernel), xready_of (by decide +kernel)⟩
theorem wit_Barriers_bad : (let s := marred.setBar 0x100FFF { marred.bar 0x100FFF with bad := true }
    (s.sh.xget 1) = 0x100FFF ∧ (s.bar 0x100FFF).bad = true ∧ barHeld s 0x100FFF = false ∧ (0x100FFF : Word).toNat / 2 ^ 17 % 8 = 0) ∧
    (0x2FFFF : Word).toNat / 2 ^ 17 % 8 ≠ 0 := by decide +kernel
/-- A page's table in a die under repair, and one not mapped. -/
theorem wit_LaneStatus_stops : (let s := mending 1
    wlbPort { s with sh := s.sh.xset 1 0x200000000 } 0x200000000 = ({ s with sh := s.sh.xset 1 0x200000000 }, .ok none)) ∧
    (∃ s1 c e lv, wlbPort tiny placeVa = (s1, .error (c, e, lv)) ∧ s1.sh.xq = []) := ⟨by decide +kernel, ⟨_, _, _, _, rfl, rfl⟩⟩
theorem wit_VectorMemory_poison :
    let i : Instr := .vldq Hd.free .i32 8 5
    let s := atHead i { vecs .i32 0 4 with sh := (vecs .i32 0 4).sh.setDq 5 [{ scalar := false, data := 0, due := none, pois := [2] }] }
    XReady i s ∧ s.sh.xProg = 0 ∧ s.sh.vstart = 0 ∧ s.sh.actives Hd.free = [0, 1, 2, 3] ∧ (1 % 128 % s.sh.lanes * 128 + 1 % 128 / s.sh.lanes * 32) / 64 = 2 ∧
      next? (exec i s) (fun t => t.sh.status == .faulted && (t.sh.dqOf 5).length == 1) = true ∧ readsAfter s = false ∧
      readsAfter (atHead (.vld Hd.free .i32 8 1 0) { vecs .i32 0 1 with co := loading.co }) = true :=
  ⟨xready_of (by decide +kernel), by decide +kernel⟩
/-- A key column of one element that falls, on the left and on the right of a join. -/
def keyed (k : Fin 16) (l : List Nat) (s : State) : State :=
  { s with mem := (List.range l.length).foldl (fun m j => m.writeLe (colKey s (s.sh.col k.val) j) 4 (l.getD j 0)) s.mem, sh := s.sh.setLens [k.val] l.length }
def falling : State := keyed 0 [2, 1] (keyed 1 [2] columned)
theorem wit_ColumnOrder_unsorted : XReady (.cjoin Hd.free .inner 4 0 1 9 63) (atHead (.cjoin Hd.free .inner 4 0 1 9 63) falling) ∧
    ColReady falling (cctl 7 0 false 9 63 [4, 5]) [(0, false), (1, false)] ∧ ColReady (keyed 0 [2, 3] (keyed 1 [2, 1] columned)) (cctl 7 0 false 9 63 [4, 5]) [(0, false), (1, false)] ∧
    [0, 1].map (falling.colElem (falling.sh.col 0)) = [2, 1] ∧ [0].map (falling.colElem (falling.sh.col 1)) = [2] := by
  refine ⟨xready_of (by decide +kernel), (by unfold ColReady; decide +kernel), (by unfold ColReady; decide +kernel), by decide +kernel⟩
/-- Pairs (0, 1), (0, 3), (0, 2) against the pair (0, 3), under `and`. -/
def unsortedReed : State :=
  { tiny with
    sh := { tiny.sh with reed := leBytes 8 (2 ^ 62) ++ leBytes 8 0 ++ leBytes 8 3 ++ leBytes 8 0 ++ leBytes 8 (2 ^ 62 + 64) ++ leBytes 8 0 ++ leBytes 8 1 ++ leBytes 8 0
                         xcur := xcurWord true 0 false 0 0 0 }
    mem := [(4, 1), (12, 3), (20, 2), (68, 3)].foldl (fun m e => m.writeLe (nearKey 0 e.1) 4 e.2) tiny.mem }
theorem wit_Reed_unsorted :
    let i : Instr := .xnext Hd.free 8 3
    let s := atHead i unsortedReed
    let ta := Stream.ofBytes s.sh.reed 0
    let tb := Stream.ofBytes s.sh.reed 32
    XReady i s ∧ s.sh.xcurV = true ∧ s.sh.xcurDone = false ∧ s.sh.xcurMode = 0 ∧ ta.listed (s.atIssue i) 4 (ta.start 0) = some [(0, 1, 0), (0, 3, 1), (0, 2, 2)] ∧
      tb.listed (s.atIssue i) 2 (tb.start 0) = some [(0, 3, 0)] ∧ Rising [(0, 1, 0), (0, 3, 1)] ∧ 4 ≤ ta.fuel ∧ s.sh.lanes = 32 ∧
      next? (exec i { s with co := { s.co with loads := [{ pos := 0, no := 1, dst := .x 7 64 false, busy := [], key := nearKey 0 4096, size := 8, free := false, after := 0 }] } }) (fun t => t.sh.due.any (fun f => f.cause == cUNSORTED && f.detail == 4) && t.sh.xcurCol == 2) = true := by
  refine ⟨xready_of (by decide +kernel), by decide +kernel, by decide +kernel, by decide +kernel, by decide +kernel, by decide +kernel, (by unfold Rising; decide +kernel), by decide +kernel⟩
theorem wit_ColumnRegisters_empty : (let s := tinyX [(1, 2 ^ 21 + 64), (4, 0)]
    (s.sh.xget 1).toNat % 64 = 0 ∧ (s.sh.xget 4).toNat = 0 ∧ XReady (.cdefArena Hd.free 1 4 4) (atHead (.cdefArena Hd.free 1 4 4) s) ∧
      next? (exec (.cdefArena Hd.free 1 4 4) (atHead (.cdefArena Hd.free 1 4 4) s)) (fun t => arenaBase t.sh.arena == 64 && arenaSize t.sh.arena == 0) = true) :=
  ⟨by decide +kernel, by decide +kernel, xready_of (by decide +kernel), by decide +kernel⟩
/-- One row of a framed matrix at address 0: a block of eight INT8 elements, and that with other first bytes. -/
def blocked (b : List Byte) : State :=
  { feeding with
    sh := { feeding.sh with x := feeding.sh.x.set 5 64 }
    mem := ((b ++ [1, 2, 3, 4, 5, 6, 7, 8]).foldl (fun (p : Nat × Memory) v => (p.1 + 1, p.2.write p.1 v)) (nearKey 0 0, feeding.mem)).2 }
theorem wit_MatrixOperands_framed :
    let i : Instr := .mfill Hd.free false true false 4 1 5 3
    let s := atHead i (blocked [4, 0x7F, 8, 0])
    let z := s.atIssue i
    XReady i s ∧ s.co.owner = some s.sh.pos ∧ (s.co.fifo false).src = .fill ∧ (s.co.fifo false).ty = .i8 ∧ (s.sh.srcD 4).toNat = 1 ∧ (s.sh.srcC 3).toNat = 8 ∧
      (s.sh.srcA 1).toNat = 0 ∧ (s.sh.srcB 5).toNat = 64 ∧ s.latent = [] ∧ s.poison = [] ∧
      check z z.who 0 64 .read false false = (z, .ok { key := nearKey 0 0, frm := false, cmp := false }) ∧ z.co.covers (nearKey 0 0) = false ∧
      next? (exec i s) (fun t => t.co.fa.runs.map (fun r => (r.codes, r.poison)) == [([1, 2, 3, 4, 5, 6, 7, 8], false)]) = true := by
  refine ⟨xready_of (by decide +kernel), by decide +kernel⟩
theorem wit_MatrixOperands_blocks : ([[4, 0, 8, 1], [2, 0, 8, 0], [4, 0, 7, 0]] : List (List Byte)).all (fun b =>
    next? (exec (.mfill Hd.free false true false 4 1 5 3) (atHead (.mfill Hd.free false true false 4 1 5 3) (blocked b))) (fun t => t.sh.status == .faulted)) = true ∧
    next? (exec (.mfill Hd.free false true false 4 2 5 3) (atHead (.mfill Hd.free false true false 4 2 5 3) { blocked [4, 0, 8, 0] with
      sh := (blocked []).sh.xset 2 32 })) (fun t => t.sh.status == .faulted) = true := by decide +kernel
/-- A tile with a poisoned word, and one with a poisoned scale; places at and past the last. -/
def tiled (w n : Nat) : State :=
  { vecs .f32 0 n with
    co := (vecs .f32 0 n).co.setTile 7 { Tile.reset with pois := [w] }
    sh := { (vecs .f32 0 n).sh with x := (((tiny.sh.x.set 1 8190).set 3 2).set 4 2).set 2 4 } }
theorem wit_TileReadWrite_poison :
    (let s := atHead (.mrd Hd.free .rne .trap 7 8 1) (tiled 4095 2)
     XReady (.mrd Hd.free .rne .trap 7 8 1) s ∧ s.shaped ∧ s.sh.active Hd.free 0 = true ∧ 8190 / 2 ∈ (s.co.tile 7).pois ∧ (s.sh.srcA 1).toNat + s.sh.vlen.toNat ≤ 8192) ∧
    (let s := atHead (.mbsRd Hd.free 7 3) (tiled 4096 1)
     XReady (.mbsRd Hd.free 7 3) s ∧ 4096 ∈ (s.co.tile 7).pois) ∧
    (let s := atHead (.mwr Hd.free 7 8 1) (tiled 0 3)
     XReady (.mwr Hd.free 7 8 1) s ∧ s.sh.et = .f32 ∧ 8192 < (s.sh.srcA 1).toNat + s.sh.vlen.toNat) := by
  refine ⟨⟨xready_of (by decide +kernel), (by unfold State.shaped; decide +kernel), by decide +kernel⟩, ⟨xready_of (by decide +kernel), by decide +kernel⟩, xready_of (by decide +kernel), by decide +kernel⟩
theorem wit_TileReadWrite_drain :
    (let i : Instr := .mdrain Hd.free .f32 .rne .sat 7 4 1 2 3
     XReady i (atHead i (tiled 64 1)) ∧ ((atHead i (tiled 64 1)).sh.srcA 1).toNat % 4 ≠ 0 ∧ next? (exec i (atHead i (tiled 64 1))) (fun t => t.sh.status == .faulted) = true) ∧
    (let i : Instr := .mdrain Hd.free .f32 .rne .sat 7 4 0 2 3
     XReady i (atHead i (tiled 64 1)) ∧ 128 / 2 ∈ ((tiled 64 1).co.tile 7).pois ∧ next? (exec i (atHead i (tiled 64 1))) (fun t => t.sh.status == .faulted) = true) ∧
    (let i : Instr := .mdrain Hd.free .e4 .rne .trap 7 4 0 2 3
     let s := atHead i { tiled 0 1 with co := (tiled 0 1).co.setTile 7 { Tile.reset with data := 0x7F000000 } }
     XReady i s ∧ (readOut (s.co.tile 7) .e4 .rne .trap 0).trap = true ∧ next? (exec i s) (fun t => t.sh.status == .faulted) = true) := by
  refine ⟨⟨xready_of (by decide +kernel), by decide +kernel⟩, ⟨xready_of (by decide +kernel), by decide +kernel⟩, xready_of (by decide +kernel), by decide +kernel⟩
theorem wit_MatrixMultiply_poison :
    let i : Instr := .mma Hd.free false .e4 .e4 7 1 2 3
    let s := atHead i { multiplying with co := multiplying.co.setTile 7 { Tile.reset with pois := [0] } }
    XReady i s ∧ (∃ w ∈ (s.co.tile 7).pois, w / 64 < (s.sh.srcA 1).toNat ∧ w % 64 * 2 < (s.sh.srcB 2).toNat) ∧
      next? (exec i s) (fun t => t.sh.status == .faulted) = true := by
  refine ⟨xready_of (by decide +kernel), by decide +kernel⟩
theorem wit_EngineOwnership_ends : (let s := atHead (.mownRel Hd.free) fed
    afind? s.co.cmds 0 = some ((fed.co.cmds.getD 0 default).2) ∧ some 3 = s.co.recId ∧
      next? (exec (.mownRel Hd.free) s) (fun t => (afind? t.co.cmds 0).any (fun c => !c.run && c.err == 10)) = true) := by decide +kernel
/-! ### Commands -/

/-- A transform that writes 96 bytes of its buffer 2 as three rows at 1024, 960 and 896; and one that delivers 16 elements to a FIFO. -/
def writing (shape : List Word) (n : Nat) (form : Option Nat) : Cmd :=
  { shaping with bufs := shaping.bufs.set 2 ((List.range n).map (fun j => BitVec.ofNat 8 (j + 1))), shape := shape, runFmt := shaping.runFmt.set 2 form,
                 pid := 1, nearLen := 0x180000, recId := 3 }
theorem wit_MicroOps_memory :
    let c := writing [0, 1024, 0, -64, 0, 0, 0, 0] 96 none
    let s := commanded c
    afind? s.co.cmds 0 = some c ∧ c.toFifo = false ∧ c.chunkNo < c.expect ∧ c.wrAt = 0 ∧
      (∀ p ∈ [1024, 960, 896], xAhead s c false p 32 = false ∧ check s (c.who 0) p 1 .write true false = (s, .ok { key := nearKey 0 p, frm := false, cmp := false })) ∧
      next? (exec (.hwr 2 2) s) (fun t => t.co.qNS.map (fun e => (e.line, e.bytes.length, e.tags)) == [1024, 960, 896].map (fun p => (nearKey 0 p, 32, [(0, 0)]))) = true := by
  decide +kernel
theorem wit_MicroOps_fifo :
    let s (c : Cmd) : State := { commanded c with co := { (commanded c).co with recId := some 3, fa := { Fifo.reset with src := .heddle, ty := .i8, tag := 7 } } }
    let c := writing [0, 7, 0, 0, 0, 1, 0, 0] 16 none
    c.toFifo = true ∧ fifoSaved (s c) c = false ∧ c.wrTo = none ∧ elemsOf MType.i8.etype.code [1, 2] = some [1, 2] ∧
      next? (exec (.hwr 2 0) (s c)) (fun t => t.co.fa.runs.length == 2 && t.co.fa.runs.all (fun r => r.scale == 0x7F00)) = true ∧
      next? (exec (.hwr 2 0) (s (writing [0, 7, 0, 0, 0, 1, 0, 0] 16 (some 9)))) (fun t => (afind? t.co.cmds 0).any (fun c => c.err == 3)) = true ∧
      next? (exec (.hwr 2 0) (s (writing [0, 8, 0, 0, 0, 1, 0, 0] 16 none))) (fun t => (afind? t.co.cmds 0).any (fun c => c.err == 10)) = true := by
  decide +kernel
/-- A block of no format, an element beyond FP8, a digest that differs. -/
theorem wit_MicroOps_endings :
    let ends (r : Out3) (e : Nat) : Bool := next? r (fun t => (afind? t.co.cmds 0).any (fun c => !c.run && c.err == e))
    let big := { shaping with bufs := shaping.bufs.set 1 (leBytes 4 0x7F7FFFFF) }
    ends (exec (.hunf 0 1 8 .rne .sat false) (commanded { shaping with bufs := shaping.bufs.set 1 (List.replicate 64 0) })) 3 = true ∧
      (List.replicate 64 (0 : Byte)).length % 64 = 0 ∧ blockBad (List.replicate 64 0) = true ∧
      elemsOf 8 (leBytes 4 0x7F7FFFFF) = some [0x7F7FFFFF] ∧ ((fmtKind 11).convert .rne .trap false ((fmtKind 8).val 0x7F7FFFFF)).trap = true ∧
      ends (exec (.hcvt 0 1 11 .rne .trap 8) (commanded big)) 6 = true ∧ ends (exec (.hqnt 0 1 11 .rne .trap 8 false) (commanded big)) 6 = true ∧
      ends (exec (.hunfold 0 1) (commanded { shaping with bufs := shaping.bufs.set 1 (List.replicate 4160 255) })) 3 = true := by
  decide +kernel
/-- An ended command with a write still to perform. -/
theorem wit_ProgramsAndStatus_rel :
    let c : Cmd := { copyCmd with run := false, err := 7, recId := 3 }
    let e : LaneEnt := { line := nearKey 0 0, bytes := [(0, 1)], ops := [], atom := none, poison := false, aBy := [], xBy := [], tags := [(0, 1)] }
    let s : State := { commanded c with sh := tiny.sh.xset 1 0x100, co := { (commanded c).co with qNS := [e] } }
    Ready Hd.free (xs [3, 1]) s ∧ afind? (s.core 0).cmds 0 = some c ∧ c.seq = (s.sh.xget 1).toNat / 2 ^ 8 % 2 ^ 24 ∧ c.run = false ∧ (s.core 0).id = 0 ∧
      next? (exec (.hstatRel Hd.free 3 1) s) (fun t => (t.core 0).cmds.isEmpty && t.co.qNS.all (fun e => e.left.contains (3, 0) && e.tags.isEmpty)) = true :=
  ⟨ready_of (by decide +kernel), by decide +kernel⟩
theorem wit_Loads_group : (let s := tinyX [(1, 512)]
    Ready Hd.free (xs [1]) s ∧ (s.sh.dqOf 5).length < 16 ∧ (16 * s.sh.lanes + 63) / 64 = 8 ∧
      next? (execLate (.ldqG Hd.free 5 1 0) s) (fun t => t.co.loads.map (fun l => (l.key, l.size)) == (List.range 8).map (fun k => (nearKey 0 (512 + 64 * k), 64)) &&
        (loadReturn t 0 3).co.loads.length == 7 && ((loadReturn t 0 3).sh.dqOf 5).all (fun e => e.due.isSome)) = true) :=
  ⟨ready_of (by decide +kernel), by decide +kernel⟩
/-- A reduction that merges with the one of its line, one that opens an entry, and a queue without room. -/
theorem wit_Atomics_reductions :
    let o : WOp := { off := 8, size := 8, fn := .add, val := 5 }
    let e : LaneEnt := { line := 64, bytes := [], ops := [o], atom := none, poison := false, aBy := [0], xBy := [], tags := [] }
    (admitRed [e] 72 8 .add 2 { a := [1], x := [], t := [] }).map (fun q => q.map LaneEnt.ops) = some [[{ o with val := 7 }]] ∧
      (admitRed [e] 72 8 .min 2 { a := [1], x := [], t := [] }).map List.length = some 2 ∧
      admitRed (List.replicate 64 e) 72 8 .min 2 { a := [1], x := [], t := [] } = none ∧ e.line % 64 = 0 ∧ o.off % o.size = 0 ∧ tiny.mem.wf = true := by decide +kernel
theorem wit_VectorFloats_values : (EType.fmt .f32).val 0x40800000 = .fin false 8388608 (-21) ∧ (EType.fmt .f32).val 0xFF800000 = .inf true ∧
    (EType.fmt .f32).val 0x80000000 = .fin true 0 (-149) ∧ (EType.fmt .f32).val 0xFFC00001 = .nan ∧ (EType.fmt .bf16).val 0x4080 = .fin false (2 ^ 7) (-5) ∧
    (∀ e ∈ [EType.e4, .e5, .f4, .i32], (vecs e 0 1).sh.et = e) ∧
    XReady (.vsll Hd.free .vv 8 9 10 0) (atHead (.vsll Hd.free .vv 8 9 10 0) (vecs .f32 0 1)) ∧ XReady (.vfma Hd.free false .rne 8 9 10 11) (atHead (.vfma Hd.free false .rne 8 9 10 11) (vecs .e4 0 1)) := by
  refine ⟨by decide +kernel, by decide +kernel, by decide +kernel, by decide +kernel, by decide +kernel, by decide +kernel, xready_of (by decide +kernel), xready_of (by decide +kernel)⟩

/-! ### The module, further -/

/-- A core that runs no record; a halted one, with registers to write; tables where no window of the partition reaches. -/
def halted : State := { debugged with feature := some 0xFF, co := { debugged.co with halted := true } }
theorem wit_Debugger_writes :
    let sets (o : Nat) (f : State → Bool) : Bool := next? (exec (.debugWrite o 0x123456789) halted) (fun t => f t && t.out.length == 1)
    halted.sh.status ≠ .absent ∧ halted.sh.lanes = 4 ∧ (halted.sh.pos + 1) * 4 ≤ 32 ∧ sets 0x200 (fun t => t.sh.x == halted.sh.x) = true ∧
      sets (0x200 + 8 * 63) (fun t => t.sh.xget 63 == 0x123456789) = true ∧ sets 0xD8 (fun t => t.sh.c[(0 : Fin 16)] == 0x123456789) = true ∧
      sets (57344 * 4 + 32768 * 7 + 8 * 4095) (fun t => (t.co.tile 7).data.extractLsb' (64 * 4095) 64 == 0x123456789) = true ∧
      sets (319488 * 4 + 8 * 7) (fun t => (t.co.tent 7).expect == 0x2345) = true ∧
      next? (exec .debugHalt { debugged with co := { debugged.co with recId := none } }) (fun t => !t.co.halted && !t.co.dbg) = true := by decide +kernel
theorem wit_Debugger_barred : (let s : State := { tiny with parts := [(1, { controlPart with root := some 0 })] }
    (s.part? 1).bind (fun p => p.root) = some 0 ∧ 0 ∈ walkPath s.mem 0x100000000 0 5 0 ∧ isDS 0 = true ∧ physOwned s 1 0 = false ∧
      next? (exec (.translationWalk 1 .read 0x100000000) s) (fun t => t.tlb.isEmpty) = true) := by decide +kernel
/-- Upsets of each kind that are not corrected. -/
theorem wit_HardwareEvents_words : (6 : Nat) < 8 ∧ 0 < (marred.sh.rqOf 7).length ∧ (marred.sh.dqOf 5)[0]?.any (fun x => x.scalar) = true ∧
    next? (exec (.softError (.sword 5 false)) marred) (fun t => t.sh.spois.contains 5) = true ∧
    next? (exec (.softError (.qword 7 0 0 false)) { marred with sh := { marred.sh with rqPois := [] } }) (fun t => t.sh.rqPois == [(7, 0)]) = true ∧
    next? (exec (.softError (.tword 7 4096 false)) tiny) (fun t => (t.co.tile 7).pois.contains 4096) = true ∧
    next? (exec (.softError (.ent 7 false)) tiny) (fun t => (t.co.tent 7).bad) = true ∧
    next? (exec (.softError (.bar 0 4095 false)) tiny) (fun t => ((t.die 0).bar 4095).bad) = true := by decide +kernel
/-- A record placed at a core whose near scratchpad is fresh, and one that another has used; one that is killed with a filling entry. -/
theorem wit_Records_near : framed.co.nearUsed = false ∧ ({ framed with co := { framed.co with nearUsed := true } } : State).co.nearUsed = true ∧
    (let s : State := { framed with co := framed.co.setTent 7 { state := 1, abort := 0, expect := 2, done := 1 } }
     (s.co.tent 7).state = 1 ∧ (∀ c ∈ s.allCores, c.cmds = []) ∧ next? (exec (.kill 1) s) (fun t => (t.core 0).tent 7 == TEnt.reset || ((t.core 0).tent 7).abort == 2) = true) ∧
    (∀ r ∈ framed.recs, ∀ q ∈ framed.recs, r.startNo ≤ q.startNo) := by decide +kernel
/-- A message before firmware runs, and the port of one after. -/
theorem wit_Transport_ports : (let n : NetAcc := { conn := 4, ordered := false, port := 7, pid := 0xFF, va := 0, bad := [] }
    n.pid = 0xFF ∧ tiny.bootStep < 5 ∧ next? (exec (.transportRead n 8 none) tiny) (fun t => t.out.length == 1)) = true ∧
    (notePorts serving 1 [7]).part? 1 = some { controlPart with state := 1, ports := [7] } := by decide +kernel
/-- Telemetry of group 2, for the module and for a partition from its snapshot; a message to a gang's member before firmware runs; a harvest of
tables on a fenced die. -/
theorem wit_Management_telemetry :
    next? (exec (.teleRd { session := 1, part := 0xFF, id := 9, args := [2, 0, 0, 0, 0, 0] }) managed) (fun t => t.freeCount == managed.freeCount + 1) = true ∧
    next? (exec (.teleRd { session := 2, part := 1, id := 9, args := [2, 0, 0, 0, 0, 0] }) managed) (fun t => t.freeCount == managed.freeCount && t.out.length == 1) = true := by
  decide +kernel
theorem wit_Gangs_boot : tiny.bootStep < 6 ∧
    next? (exec (.gangGo { seq := 1, incoming := 7, outgoing := 0, time := 100000, reason := 0, sender := 5 }) tiny) (fun t => t.out.length == 1 && t.tokens.isEmpty) = true := by decide +kernel
theorem wit_Partitions_barred : (let s := mending 2
    (s.part? 1).bind (fun p => p.root) = some 0x100000000 ∧ tableBases s.mem 5 0 0x100000000 = [0x100000000] ∧ isDS 0x100000000 = true ∧ (s.die 1).repair = 2 ∧
      xlatsBusy s (fun _ => true) = false ∧ harvestHeld s 1 0 0 = false) := by decide +kernel

end
end

section
/-! SUPPORT. Every step keeps memory in its canonical form: addresses strictly rising, no byte listed that its address reads as when
unlisted. A byte of memory changes only through `Memory.write`, `writeN`, `writeLe`, `cover` and `copy`, and each of them keeps the form
(Laws/Mem). So the layer below has one lemma for each function through which a state passes on its way through a turn: from a state with
canonical memory it makes one. A proof names the functions its own is made of; the case split over branches that leaves only those is
routine, and as no goal is about numbers, `grind` runs without its arithmetic. -/

namespace Sys2Proof.Machine

/-! ## Canonical memory -/

/-- The memory of a state is in its canonical form. -/
abbrev State.Canon (s : State) : Prop := s.mem.wf = true

/-- The state an outcome goes on with, if it goes on, has canonical memory. -/
def NextCanon : Out3 → Prop
  | .next t => t.Canon
  | .fault _ | .refused _ => True

/-- The state an X-class instruction leaves at issue has canonical memory, however it ends. -/
def XOut.Canon : XOut → Prop
  | .done t | .wait _ t | .part _ t | .fault _ t => t.Canon

/-- The state a micro-op leaves has canonical memory, however it ends. -/
def MOut.Canon : MOut → Prop
  | .next t _ | .wait t | .fail t _ _ => t.Canon

theorem canon_of_eq {α : Type} {p : State × α} {t : State} {a : α} (e : p = (t, a)) (h : p.1.Canon) : t.Canon := by
  rw [e] at h
  exact h

/-- The eliminator that makes a function a variable of which only the hypotheses at hand are known, in the proof term too, where a step of
`generalize` leaves no trace. The kernel, asked whether two forms of a body are equal, evaluates what a `match` is on, and where that is a walk
over memory it does not end: the proofs about such bodies first make the walking functions variables, by `generalize` where that is enough. -/
theorem of_forall {α : Sort*} {motive : α → Prop} (h : ∀ a, motive a) (a : α) : motive a := h a

theorem foldl_canon {α : Type} {f : State → α → State} {l : List α} {s : State} (hs : s.Canon)
    (hf : ∀ t a, t.Canon → (f t a).Canon) : (l.foldl f s).Canon := by
  induction l generalizing s with
  | nil => exact hs
  | cons a l ih => exact ih (hf s a hs)

theorem foldl_canon_fst {α β : Type} {f : State × β → α → State × β} {l : List α} {s : State} {b : β} (hs : s.Canon)
    (hf : ∀ q a, q.1.Canon → (f q a).1.Canon) : (l.foldl f (s, b)).1.Canon := by
  induction l generalizing s b with
  | nil => exact hs
  | cons a l ih => exact ih (hf (s, b) a hs)

theorem foldl_wf {α : Type} {f : Memory → α → Memory} {l : List α} {m : Memory} (hm : m.wf = true)
    (hf : ∀ n a, n.wf = true → (f n a).wf = true) : (l.foldl f m).wf = true := by
  induction l generalizing m with
  | nil => exact hm
  | cons a l ih => exact ih (hf m a hm)

variable {s : State}

/-! ## Tables of the module -/

theorem State.setCore_canon {c} (hs : s.Canon) : (s.setCore c).Canon := by
  unfold State.setCore
  split <;> exact hs

theorem State.setShuttle_canon {k t} (hs : s.Canon) : (s.setShuttle k t).Canon := by
  unfold State.setShuttle
  grind -linarith -order [State.setCore_canon]

theorem State.refocus_canon {r} (hs : s.Canon) : (s.refocus r).Canon := by
  unfold State.refocus
  split <;> exact hs

theorem State.setDie_canon {d x} (hs : s.Canon) : (s.setDie d x).Canon := hs

theorem State.setPart_canon {pid p} (hs : s.Canon) : (s.setPart pid p).Canon := hs

theorem State.fresh_canon (hs : s.Canon) : s.fresh.2.Canon := hs

/-! ## Addresses and translation -/

theorem dropXlats_canon {sel} (hs : s.Canon) : (dropXlats s sel).Canon := hs

theorem installData_canon {pid va t} (hs : s.Canon) : (installData s pid va t).Canon := hs

theorem walk_canon {pid va acc} (hs : s.Canon) : (walk s pid va acc).1.Canon := by
  unfold walk
  grind -linarith -order [installData_canon, Memory.writeLe_wf]

theorem translate_canon {pid va acc} (hs : s.Canon) : (translate s pid va acc).1.Canon := by
  unfold translate
  grind -linarith -order [walk_canon]

theorem State.putPoison_canon {l} (hs : s.Canon) : (s.putPoison l).Canon := hs

theorem State.linePoison_canon {line whole poison} (hs : s.Canon) : (s.linePoison line whole poison).Canon := by
  unfold State.linePoison
  grind -linarith -order [State.putPoison_canon]

theorem check_canon {w ea size acc raw ecc} (hs : s.Canon) : (check s w ea size acc raw ecc).1.Canon := by
  unfold check
  grind -linarith -order [translate_canon]

/-! ## The write lane -/

theorem WOp.apply_wf {m line o} (hk : m.wf = true) : (WOp.apply m line o).wf = true := by
  unfold WOp.apply
  grind -linarith -order [Memory.writeLe_wf]

theorem LaneEnt.apply_wf {m e} (hk : m.wf = true) : (LaneEnt.apply m e).wf = true := by
  unfold LaneEnt.apply
  grind -linarith -order [foldl_wf, Memory.write_wf, WOp.apply_wf]

/-! ## Records, fault records and commands -/

theorem State.setRec_canon {r} (hs : s.Canon) : (s.setRec r).Canon := hs

theorem pushRecord_canon {r f addr} (hs : s.Canon) : (pushRecord s r f addr).1.Canon := by
  unfold pushRecord
  grind -linarith -order [State.setCore_canon, State.setShuttle_canon]

theorem setEvent_canon {r b} (hs : s.Canon) : (setEvent s r b).Canon := State.setShuttle_canon hs

theorem countErr_canon {die k} (hs : s.Canon) : (countErr s die k).Canon := hs

theorem havoc_canon {rs} (hs : s.Canon) : (havoc s rs).Canon := by
  unfold havoc
  grind -linarith -order [State.fresh_canon, foldl_wf, Memory.cover_wf]

theorem havocChunks_canon {core c} (hs : s.Canon) : (havocChunks s core c).Canon := by
  unfold havocChunks
  grind -linarith -order [havoc_canon]

theorem setEntry_canon {core k e} (hs : s.Canon) : (setEntry s core k e).Canon := by
  unfold setEntry
  grind -linarith -order [State.setCore_canon, foldl_canon, havocChunks_canon]

theorem pushFRec_canon {r rc} (hs : s.Canon) : (pushFRec s r rc).Canon := by
  unfold pushFRec
  grind -linarith -order [State.setCore_canon, State.setShuttle_canon]

theorem applyHeld_canon {r e} (hs : s.Canon) : (applyHeld s r e).Canon := by
  unfold applyHeld
  grind -linarith -order [State.setShuttle_canon, setEntry_canon, setEvent_canon, pushFRec_canon]

theorem deliver_canon {id pos e} (hs : s.Canon) : (deliver s id pos e).Canon := by
  unfold deliver
  grind -linarith -order [applyHeld_canon, State.setRec_canon]

theorem killEntries_canon {r} (hs : s.Canon) : (killEntries s r).Canon := by
  unfold killEntries
  grind -linarith -order [foldl_canon, setEntry_canon]

theorem meetLatent_canon {id pos key n} (hs : s.Canon) : (meetLatent s id pos key n).Canon := by
  unfold meetLatent
  grind -linarith -order [foldl_canon, countErr_canon, State.setCore_canon, deliver_canon]

theorem meetPart_canon {pid key n} (hs : s.Canon) : (meetPart s pid key n).Canon := by
  unfold meetPart
  grind -linarith -order [meetLatent_canon]

theorem settleMet_canon (hs : s.Canon) : (settleMet s).Canon := by
  unfold settleMet
  grind -linarith -order [foldl_canon, meetPart_canon]

theorem settleFolds_canon {id pos} (hs : s.Canon) : (settleFolds s id pos).Canon := by
  unfold settleFolds
  grind -linarith -order [State.setRec_canon, State.setShuttle_canon]

theorem endCmdErr_canon {core slot err first f} (hs : s.Canon) : (endCmdErr s core slot err first f).Canon := by
  unfold endCmdErr
  grind -linarith -order [havocChunks_canon, State.setCore_canon, deliver_canon, countErr_canon, settleFolds_canon]

theorem endCmdOk_canon {core slot} (hs : s.Canon) : (endCmdOk s core slot).Canon := by
  unfold endCmdOk
  grind -linarith -order [State.setCore_canon, State.setRec_canon, settleFolds_canon, deliver_canon]

/-! ## The image of a shuttle in memory -/

theorem devAt_canon {pid acc va} (hs : s.Canon) : (devAt s pid acc va).1.Canon := by
  unfold devAt
  grind -linarith -order [check_canon, translate_canon]

theorem devSpan_canon {pid acc fuel va n} (hs : s.Canon) : (devSpan s pid acc fuel va n).1.Canon := by
  induction fuel generalizing s va n with
  | zero => exact hs
  | succ fuel ih => unfold devSpan; grind -linarith -order [devAt_canon]

theorem meetEdges_canon {pid ps} (hs : s.Canon) : (meetEdges s pid ps).Canon := by
  unfold meetEdges
  grind -linarith -order [foldl_canon, meetPart_canon]

theorem devWrite_canon {pid va len ws} (hs : s.Canon) : (devWrite s pid va len ws).1.Canon := by
  unfold devWrite
  grind -linarith -order [devSpan_canon, meetEdges_canon, foldl_wf, Memory.cover_wf, Memory.writeLe_wf, State.putPoison_canon]

theorem devPut_canon {pid va w} (hs : s.Canon) : (devPut s pid va w).1.Canon := by
  unfold devPut
  grind -linarith -order [devSpan_canon, meetPart_canon, Memory.writeLe_wf]

theorem frameReader_canon {pid va len} (hs : s.Canon) : (frameReader s pid va len).1.Canon := by
  unfold frameReader
  grind -linarith -order [devSpan_canon]

/-! ## Regions and completion entries -/

theorem readBlock_canon {pid addr} (hs : s.Canon) : (readBlock s pid addr).1.Canon := by
  unfold readBlock
  grind -linarith -order [frameReader_canon]

theorem readChain_canon {pid n addr} (hs : s.Canon) : (readChain s pid n addr).1.Canon := by
  induction n generalizing s addr with
  | zero => exact hs
  | succ n ih => unfold readChain; grind -linarith -order [readBlock_canon]

theorem readRegion_canon {pid handle} (hs : s.Canon) : (readRegion s pid handle).1.Canon := by
  unfold readRegion
  grind -linarith -order [readChain_canon]

theorem State.setQueueRec_canon {q} (hs : s.Canon) : (s.setQueueRec q).Canon := hs

theorem readHeader_canon {q} (hs : s.Canon) : (readHeader s q).1.Canon := by
  unfold readHeader
  grind -linarith -order [frameReader_canon]

theorem stopQueue_canon {q why} (hs : s.Canon) : (stopQueue s q why).Canon := devPut_canon hs

theorem writeCompletion_canon {r status} (hs : s.Canon) : (writeCompletion s r status).Canon := by
  unfold writeCompletion
  grind -linarith -order [readHeader_canon, stopQueue_canon, devPut_canon, State.setQueueRec_canon]

/-! ## Shared operations -/

theorem waitA_canon {w} (hs : s.Canon) : NextCanon (waitA s w) := hs

theorem waitX_canon {w} (hs : s.Canon) : NextCanon (waitX s w) := hs

theorem doneA_canon (hs : s.Canon) : NextCanon (doneA s) := hs

theorem jumpA_canon {dst} (hs : s.Canon) : NextCanon (jumpA s dst) := hs

theorem writeA_canon {d v} (hs : s.Canon) : NextCanon (writeA s d v) := hs

theorem aInstr_canon {h rs body} (hs : s.Canon) (hk : NextCanon (body s)) : NextCanon (aInstr h rs s body) := by
  unfold aInstr
  grind -linarith -order [waitA_canon, doneA_canon]

theorem clearCore_canon {k} (hs : s.Canon) : (clearCore s k).Canon := by
  unfold clearCore
  grind -linarith -order [State.setCore_canon]

theorem completeRec_canon {r status} (hs : s.Canon) : (completeRec s r status).Canon := by
  unfold completeRec
  grind -linarith -order [writeCompletion_canon, foldl_canon, State.setCore_canon, clearCore_canon]

theorem dropDeliveries_canon {id tags} (hs : s.Canon) : (dropDeliveries s id tags).Canon := by
  unfold dropDeliveries
  grind -linarith -order [foldl_canon, endCmdErr_canon]

theorem dropEngine_canon {k pos} (hs : s.Canon) : (dropEngine s k pos).Canon := by
  unfold dropEngine
  grind -linarith -order [dropDeliveries_canon, State.setCore_canon]

theorem killShuttles_canon {r} (hs : s.Canon) : (killShuttles s r).Canon := by
  unfold killShuttles
  grind -linarith -order [foldl_canon, dropEngine_canon, State.setShuttle_canon, dropDeliveries_canon]

theorem killCmds_canon {id} (hs : s.Canon) : (killCmds s id).Canon := by
  unfold killCmds
  grind -linarith -order [foldl_canon, endCmdErr_canon]

theorem endRec_canon {id status} (hs : s.Canon) : (endRec s id status).Canon := by
  unfold endRec
  grind -linarith -order [killEntries_canon, killCmds_canon, killShuttles_canon, State.setRec_canon, completeRec_canon]

theorem faultEnd_canon (hs : s.Canon) : (faultEnd s).Canon := by
  unfold faultEnd
  grind -linarith -order [dropEngine_canon, endRec_canon, foldl_canon]

theorem trapEntry_canon {f} (hs : s.Canon) : (trapEntry f s).Canon := by
  have hp : ∀ {s r f a}, s.Canon → (pushRecord s r f a).1.Canon := pushRecord_canon
  have hd : ∀ {s pid va n ws}, s.Canon → (devWrite s pid va n ws).1.Canon := devWrite_canon
  unfold trapEntry
  generalize pushRecord = push at hp ⊢
  generalize devWrite = write at hd ⊢
  grind -linarith -order [faultEnd_canon]

theorem takeFault_canon {f} (hs : s.Canon) : NextCanon (takeFault f s) := by
  unfold takeFault
  grind -linarith -order [countErr_canon, trapEntry_canon, NextCanon]

theorem faultX_canon {f} (hs : s.Canon) : NextCanon (faultX f s) := by
  unfold faultX
  grind -linarith -order [takeFault_canon, NextCanon]

theorem faultA_canon {f} (hs : s.Canon) : NextCanon (faultA f s) := by
  unfold faultA
  grind -linarith -order [takeFault_canon, waitA_canon]

theorem raiseA_canon {cause detail} (hs : s.Canon) : NextCanon (raiseA cause detail s) := faultA_canon hs

theorem raiseX_canon {cause detail} (hs : s.Canon) : NextCanon (raiseX cause detail s) := faultX_canon hs

theorem trapReturn_canon (hs : s.Canon) : NextCanon (trapReturn s) := by
  unfold trapReturn
  grind -linarith -order [raiseA_canon, waitA_canon, frameReader_canon, faultEnd_canon, NextCanon]

theorem copyLines_canon {src dst n} (hs : s.Canon) : (copyLines s src dst n).Canon := by
  unfold copyLines
  grind -linarith -order [State.putPoison_canon, Memory.copy_wf]

theorem copyInto_canon {src va ps} (hs : s.Canon) : (copyInto s src va ps).Canon := by
  unfold copyInto
  grind -linarith -order [foldl_canon, copyLines_canon]

theorem saveShuttle_canon {mode} (hs : s.Canon) : (saveShuttle s mode).1.Canon := by
  have hm : ∀ {s id pos a n}, s.Canon → (meetLatent s id pos a n).Canon := meetLatent_canon
  have hw : ∀ {s pid va n ws}, s.Canon → (devWrite s pid va n ws).1.Canon := devWrite_canon
  have hp : ∀ {s pid va w}, s.Canon → (devPut s pid va w).1.Canon := devPut_canon
  have hd : ∀ {s pid acc d va n}, s.Canon → (devSpan s pid acc d va n).1.Canon := devSpan_canon
  generalize hf : saveShuttle = f
  delta saveShuttle at hf
  generalize meetLatent = meet at hm hf
  generalize devWrite = write at hw hf
  generalize devPut = put at hp hf
  generalize devSpan = span at hd hf
  generalize coreAreaWords = words at hf
  subst hf
  grind -linarith -order [foldl_canon_fst, copyInto_canon, State.setRec_canon, canon_of_eq]

theorem trySave_canon (hs : s.Canon) : NextCanon (trySave s) := by
  unfold trySave
  grind -linarith -order [waitA_canon, saveShuttle_canon, faultEnd_canon, NextCanon]

theorem afterIssue_canon {before i dests tim} (hs : s.Canon) : (afterIssue before i dests tim s).Canon := hs

theorem xIssue_canon {i body} (hs : s.Canon) (hk : ∀ t, t.Canon → (body t).Canon) : NextCanon (xIssue i s body) := by
  unfold xIssue
  grind -linarith -order [raiseX_canon, faultX_canon, waitX_canon, afterIssue_canon, NextCanon, XOut.Canon]

theorem xPlain_canon {i f} (hs : s.Canon) : NextCanon (xPlain i s f) := xIssue_canon hs fun _ ht => ht

theorem xFault_canon {cause detail} (hs : s.Canon) : (xFault cause detail s).Canon := hs

theorem vecOp_canon {i ok groups reads f} (hs : s.Canon) : NextCanon (vecOp i s ok groups reads f) :=
  xIssue_canon hs fun _ ht => by
    grind -linarith -order [xFault_canon, XOut.Canon]

/-! ## Transfers of control -/

theorem leaveTo_canon {dst} (hs : s.Canon) : NextCanon (leaveTo s dst) := hs

theorem execBr_canon {h k a disp} (hs : s.Canon) : NextCanon (execBr h k a disp s) :=
  aInstr_canon hs <| by
    grind -linarith -order [leaveTo_canon, doneA_canon]

theorem execRet_canon {h a} (hs : s.Canon) : NextCanon (execRet h a s) :=
  aInstr_canon hs <| by
    grind -linarith -order [raiseA_canon, leaveTo_canon]

theorem execJr_canon {h d a} (hs : s.Canon) : NextCanon (execJr h d a s) :=
  aInstr_canon hs <| by
    grind -linarith -order [raiseA_canon, leaveTo_canon]

theorem loopStart_canon {k kind pred n disp} (hs : s.Canon) : NextCanon (loopStart s k kind pred n disp) := by
  unfold loopStart
  split <;> exact hs

theorem execLoopEnd_canon (hs : s.Canon) : NextCanon (execLoopEnd s) := by
  unfold execLoopEnd
  grind -linarith -order [waitA_canon, NextCanon]

theorem execXsync_canon {h} (hs : s.Canon) : NextCanon (execXsync h s) :=
  aInstr_canon hs <| by
    grind -linarith -order [waitA_canon, doneA_canon]

theorem execXsyncI_canon {h} (hs : s.Canon) : NextCanon (execXsyncI h s) :=
  aInstr_canon hs <| by
    grind -linarith -order [waitA_canon, doneA_canon]

/-! ## A-class accesses -/

theorem accessA_canon {ea n acc rd k} (hs : s.Canon) (hk : ∀ t l, t.Canon → NextCanon (k t l)) :
    NextCanon (accessA s ea n acc rd k) := by
  unfold accessA
  grind -linarith -order [check_canon, faultA_canon, waitA_canon]

theorem startA_canon {ea n dst take} (hs : s.Canon) (hk : ∀ t n, t.Canon → (take t n).Canon) : NextCanon (startA s ea n dst take) := by
  unfold startA
  grind -linarith -order [check_canon, faultA_canon, waitA_canon, doneA_canon]

theorem readA_canon {ea n k} (hs : s.Canon) (hk : ∀ t v, t.Canon → NextCanon (k t v)) : NextCanon (readA s ea n k) := by
  unfold readA
  grind -linarith -order [accessA_canon, waitA_canon]

/-! ## Loads, stores, queues, atomics and fences -/

theorem loadA_canon {sz sx a off k} (hs : s.Canon) (hk : ∀ t v, t.Canon → NextCanon (k t v)) : NextCanon (loadA s sz sx a off k) := by
  unfold loadA
  grind -linarith -order [readA_canon]

theorem execLd_canon {h _aq sz sx d a off} (hs : s.Canon) : NextCanon (execLd h _aq sz sx d a off s) :=
  aInstr_canon hs <| by
    grind -linarith -order [loadA_canon, writeA_canon]

theorem startLd_canon {h sz sx d a off} (hs : s.Canon) : NextCanon (startLd h sz sx d a off s) :=
  aInstr_canon hs <| by
    grind -linarith -order [startA_canon]

theorem storeA_canon {sz d a off full} (hs : s.Canon) (hk : ∀ t l, t.Canon → NextCanon (full t l)) :
    NextCanon (storeA s sz d a off full) := by
  unfold storeA
  grind -linarith -order [accessA_canon, doneA_canon]

theorem execSt_canon {h rl sz d a off} (hs : s.Canon) : NextCanon (execSt h rl sz d a off s) :=
  aInstr_canon hs <| by
    grind -linarith -order [waitA_canon, storeA_canon]

theorem execStnb_canon {h sz d a off} (hs : s.Canon) : NextCanon (execStnb h sz d a off s) :=
  aInstr_canon hs <| by
    grind -linarith -order [storeA_canon, faultA_canon]

theorem withRoom_canon {q k} (hs : s.Canon) (hk : NextCanon k) : NextCanon (withRoom s q k) := by
  unfold withRoom
  grind -linarith -order [waitA_canon]

theorem pushDq_canon {q e} (hs : s.Canon) : (pushDq s q e).Canon := hs

theorem execLdq_canon {h sz sx d a off} (hs : s.Canon) : NextCanon (execLdq h sz sx d a off s) :=
  aInstr_canon hs <| by
    grind -linarith -order [withRoom_canon, loadA_canon, doneA_canon, pushDq_canon]

theorem execLdqG_canon {h d a off} (hs : s.Canon) : NextCanon (execLdqG h d a off s) :=
  aInstr_canon hs <| by
    grind -linarith -order [withRoom_canon, readA_canon, doneA_canon, pushDq_canon]

theorem startLdq_canon {h sz sx d a off} (hs : s.Canon) : NextCanon (startLdq h sz sx d a off s) :=
  aInstr_canon hs <| by
    grind -linarith -order [withRoom_canon, startA_canon, pushDq_canon]

theorem startLdqG_canon {h d a off} (hs : s.Canon) : NextCanon (startLdqG h d a off s) :=
  aInstr_canon hs <| by
    grind -linarith -order [withRoom_canon, startA_canon, pushDq_canon]

theorem execLdqX_canon {h d a} (hs : s.Canon) : NextCanon (execLdqX h d a s) :=
  aInstr_canon hs <| by
    grind -linarith -order [withRoom_canon, doneA_canon, pushDq_canon]

theorem execLdqR_canon {h d a} (hs : s.Canon) : NextCanon (execLdqR h d a s) :=
  aInstr_canon hs <| by
    grind -linarith -order [waitA_canon, raiseA_canon, writeA_canon]

theorem execQmovXq_canon {h d a} (hs : s.Canon) : NextCanon (execQmovXq h d a s) :=
  xIssue_canon hs fun _ ht => by
    grind -linarith -order [XOut.Canon]

theorem execQmovQx_canon {h d a} (hs : s.Canon) : NextCanon (execQmovQx h d a s) :=
  xIssue_canon hs fun _ ht => by
    grind -linarith -order [XOut.Canon]

theorem execQmovQq_canon {h d a} (hs : s.Canon) : NextCanon (execQmovQq h d a s) :=
  xIssue_canon hs fun _ ht => by
    grind -linarith -order [XOut.Canon]

theorem atomA_canon {dw sx d a off k} (hs : s.Canon) : NextCanon (atomA s dw sx d a off k) := by
  unfold atomA
  grind -linarith -order [accessA_canon, faultA_canon, doneA_canon, waitA_canon]

theorem execRed_canon {h k dw d a off} (hs : s.Canon) : NextCanon (execRed h k dw d a off s) :=
  aInstr_canon hs <| by
    grind -linarith -order [accessA_canon, faultA_canon, doneA_canon, waitA_canon]

theorem execFas_canon {h t d a b off} (hs : s.Canon) : NextCanon (execFas h t d a b off s) :=
  xIssue_canon hs fun _ ht => by
    grind -linarith -order [xFault_canon, check_canon, XOut.Canon]

theorem execFence_canon {h} (hs : s.Canon) : NextCanon (execFence h s) :=
  aInstr_canon hs <| by
    grind -linarith -order [waitA_canon, doneA_canon]

theorem execFenceWl_canon {h} (hs : s.Canon) : NextCanon (execFenceWl h s) :=
  aInstr_canon hs <| by
    grind -linarith -order [waitA_canon, doneA_canon]

theorem execFenceXa_canon {h} (hs : s.Canon) : NextCanon (execFenceXa h s) :=
  aInstr_canon hs <| by
    grind -linarith -order [waitA_canon, doneA_canon]

theorem wlbPort_canon {ea} (hs : s.Canon) : (wlbPort s ea).1.Canon := by
  unfold wlbPort
  grind -linarith -order [walk_canon]

theorem execWlb_canon {h d a} (hs : s.Canon) : NextCanon (execWlb h d a s) :=
  aInstr_canon hs <| by
    grind -linarith -order [wlbPort_canon, faultA_canon, waitA_canon, writeA_canon]

theorem execWlbWt_canon {h a b} (hs : s.Canon) : NextCanon (execWlbWt h a b s) :=
  aInstr_canon hs <| by
    grind -linarith -order [wlbPort_canon, faultA_canon, waitA_canon, doneA_canon]

theorem returnTo_canon {core r vs fl} (hs : s.Canon) : (returnTo s core r vs fl).Canon := by
  unfold returnTo
  grind -linarith -order [State.setShuttle_canon]

theorem performEntry_canon {core e} (hs : s.Canon) : (performEntry s core e).1.Canon := by
  unfold performEntry
  grind -linarith -order [meetLatent_canon, State.linePoison_canon, LaneEnt.apply_wf, Memory.writeLe_wf, returnTo_canon]

theorem execWriteLanePerform_canon {port} (hs : s.Canon) : NextCanon (execWriteLanePerform port s) := by
  unfold execWriteLanePerform
  grind -linarith -order [performEntry_canon, NextCanon]

theorem refillBudgets_canon (hs : s.Canon) : (refillBudgets s).Canon := by
  unfold refillBudgets
  split <;> exact hs

/-! ## Barriers and tiles -/

theorem State.setBar_canon {w b} (hs : s.Canon) : (s.setBar w b).Canon := hs

theorem barA_canon {a k} (hs : s.Canon) (hk : ∀ w, NextCanon (k w)) : NextCanon (barA s a k) := by
  unfold barA
  grind -linarith -order [waitA_canon, raiseA_canon]

theorem execBarInit_canon {h a b} (hs : s.Canon) : NextCanon (execBarInit h a b s) :=
  aInstr_canon hs <| by
    grind -linarith -order [barA_canon, raiseA_canon, doneA_canon, State.setBar_canon]

theorem execBarArv_canon {h n d a b} (hs : s.Canon) : NextCanon (execBarArv h n d a b s) :=
  aInstr_canon hs <| by
    grind -linarith -order [barA_canon, waitA_canon, writeA_canon, State.setBar_canon]

theorem execBarExp_canon {h a b} (hs : s.Canon) : NextCanon (execBarExp h a b s) :=
  aInstr_canon hs <| by
    grind -linarith -order [barA_canon, doneA_canon, State.setBar_canon]

theorem execBarWt_canon {h d a b} (hs : s.Canon) : NextCanon (execBarWt h d a b s) :=
  xIssue_canon hs fun _ ht => by
    grind -linarith -order [xFault_canon, XOut.Canon]

theorem execBarTwt_canon {h d a b e} (hs : s.Canon) : NextCanon (execBarTwt h d a b e s) :=
  xIssue_canon hs fun _ ht => by
    grind -linarith -order [xFault_canon, XOut.Canon]

theorem execBarTwtDeadline_canon (hs : s.Canon) : NextCanon (execBarTwtDeadline s) := by
  unfold execBarTwtDeadline
  grind -linarith -order [execBarTwt_canon, NextCanon]

theorem tileSt_canon {h d rs t ev} (hs : s.Canon) : NextCanon (tileSt h d rs t ev s) :=
  aInstr_canon hs <| by
    grind -linarith -order [raiseA_canon, writeA_canon, setEntry_canon]

theorem execTileWt_canon {h d t} (hs : s.Canon) : NextCanon (execTileWt h d t s) :=
  xIssue_canon hs fun _ ht => by
    grind -linarith -order [xFault_canon, XOut.Canon]

/-! ## Element arithmetic -/

theorem elem2_canon {i h vx d a b ok f} (hs : s.Canon) : NextCanon (elem2 i h vx d a b ok f s) := vecOp_canon hs

theorem elem1_canon {i h d a ok f} (hs : s.Canon) : NextCanon (elem1 i h d a ok f s) := vecOp_canon hs

theorem fused_canon {i h vx rm d a b e neg} (hs : s.Canon) : NextCanon (fused i h vx rm d a b e neg s) := vecOp_canon hs

theorem shiftOp_canon {i h k d a b imm f} (hs : s.Canon) : NextCanon (shiftOp i h k d a b imm f s) := vecOp_canon hs

theorem convEnd_canon {d r keep} (hs : s.Canon) : (convEnd s d r keep).Canon := by
  unfold convEnd
  grind -linarith -order [XOut.Canon]

theorem execVcvt_canon {h t2 rm ov d a} (hs : s.Canon) : NextCanon (execVcvt h t2 rm ov d a s) :=
  xIssue_canon hs fun _ ht => by
    grind -linarith -order [xFault_canon, convEnd_canon, XOut.Canon]

/-! ## Vector memory -/

theorem execVsetl_canon {h g mx t live d a} (hs : s.Canon) : NextCanon (execVsetl h g mx t live d a s) :=
  xIssue_canon hs fun _ ht => by
    grind -linarith -order [xFault_canon, XOut.Canon]

theorem loadRun_canon {addr n l} (hs : s.Canon) : (loadRun addr n s l).1.Canon := by
  induction l generalizing s with
  | nil => exact hs
  | cons i l ih => unfold loadRun; grind -linarith -order [check_canon]

theorem checkRun_canon {acc addr n l} (hs : s.Canon) : (checkRun acc addr n s l).1.Canon := by
  induction l generalizing s with
  | nil => exact hs
  | cons i l ih => unfold checkRun; grind -linarith -order [check_canon]

theorem startV_canon {i d free addr fin now} (hs : s.Canon) (hk : now.Canon) : (startV i d free addr fin s now).Canon := by
  unfold startV
  grind -linarith -order [checkRun_canon, XOut.Canon]

theorem vload_canon {late i h t d addr} (hs : s.Canon) : NextCanon (vload late i h t d addr s) :=
  xIssue_canon hs fun _ ht => by
    grind -linarith -order [xFault_canon, loadRun_canon, startV_canon, XOut.Canon]

theorem vldAt_canon {late h t d a off} (hs : s.Canon) : NextCanon (vldAt late h t d a off s) := vload_canon hs

theorem vldsAt_canon {late h t d a b off} (hs : s.Canon) : NextCanon (vldsAt late h t d a b off s) := vload_canon hs

theorem gatherRun_canon {addr n l} (hs : s.Canon) : (gatherRun addr n s l).1.Canon := by
  induction l generalizing s with
  | nil => exact hs
  | cons i l ih => unfold gatherRun; grind -linarith -order [check_canon]

theorem pushElems_canon {addr at' bs} (hs : s.Canon) : (pushElems s addr at' bs).Canon := by
  unfold pushElems
  grind -linarith -order [foldl_canon, countErr_canon, pushRecord_canon]

theorem vldxAt_canon {late h t it sf d a b pm off} (hs : s.Canon) : NextCanon (vldxAt late h t it sf d a b pm off s) :=
  xIssue_canon hs fun _ ht => by
    grind -linarith -order [xFault_canon, gatherRun_canon, pushElems_canon, startV_canon, XOut.Canon]

theorem storeRun_canon {addr bytes l} (hs : s.Canon) : (storeRun addr bytes s l).1.Canon := by
  induction l generalizing s with
  | nil => exact hs
  | cons i l ih => unfold storeRun; grind -linarith -order [check_canon]

theorem storeEnd_canon {addr vst r} (hk : r.1.Canon) : (storeEnd addr vst r).Canon := by
  unfold storeEnd
  grind -linarith -order [XOut.Canon]

theorem vstore_canon {i h t d addr} (hs : s.Canon) : NextCanon (vstore i h t d addr s) :=
  xIssue_canon hs fun _ ht => by
    grind -linarith -order [xFault_canon, storeRun_canon, storeEnd_canon, XOut.Canon]

theorem admitRun_canon {bytes l} (hs : s.Canon) : (admitRun bytes s l).1.Canon := by
  induction l generalizing s with
  | nil => exact hs
  | cons e l ih => unfold admitRun; grind -linarith -order

theorem admitAll_canon {bytes l fin} (hs : s.Canon) (hk : ∀ t, t.Canon → (fin t).Canon) : (admitAll bytes s l fin).Canon := by
  unfold admitAll
  grind -linarith -order [admitRun_canon, XOut.Canon]

theorem execVstx_canon {h t it sf d a b off} (hs : s.Canon) : NextCanon (execVstx h t it sf d a b off s) :=
  xIssue_canon hs fun _ ht => by
    grind -linarith -order [xFault_canon, admitAll_canon, checkRun_canon, XOut.Canon]

theorem execVldq_canon {h t d a} (hs : s.Canon) : NextCanon (execVldq h t d a s) :=
  xIssue_canon hs fun _ ht => by
    grind -linarith -order [xFault_canon, XOut.Canon]

/-! ## The matrix engine -/

theorem pushWait_canon {fb f q k0 m G} (hs : s.Canon) : (pushWait s fb f q k0 m G).Canon := by
  unfold pushWait
  split <;> exact hs

theorem execVpush_canon {h fb sc a b} (hs : s.Canon) : NextCanon (execVpush h fb sc a b s) :=
  xIssue_canon hs fun _ ht => by
    grind -linarith -order [xFault_canon, pushWait_canon, XOut.Canon]

theorem execMbind_canon {h fb src t a} (hs : s.Canon) : NextCanon (execMbind h fb src t a s) :=
  xIssue_canon hs fun _ ht => by
    grind -linarith -order [xFault_canon, foldl_canon, endCmdErr_canon, XOut.Canon]

theorem plainRow_canon {t base l} (hs : s.Canon) : (plainRow t base s l).1.Canon := by
  induction l generalizing s with
  | nil => exact hs
  | cons k l ih => unfold plainRow; grind -linarith -order [check_canon, meetLatent_canon]

theorem framedRow_canon {ty fuel ea left} (hs : s.Canon) : (framedRow ty fuel s ea left).1.Canon := by
  induction fuel generalizing s ea left with
  | zero => exact hs
  | succ fuel ih => unfold framedRow; grind -linarith -order [check_canon, meetLatent_canon]

theorem fillRow_canon {fr ty ea K} (hs : s.Canon) : (fillRow s fr ty ea K).1.Canon := by
  unfold fillRow
  grind -linarith -order [framedRow_canon, plainRow_canon]

theorem fillRows_canon {fr ty K addr l} (hs : s.Canon) : (fillRows fr ty K addr s l).1.Canon := by
  induction l generalizing s with
  | nil => exact hs
  | cons r l ih => unfold fillRows; grind -linarith -order [fillRow_canon]

theorem execMfill_canon {h fb fr ff d a b e} (hs : s.Canon) : NextCanon (execMfill h fb fr ff d a b e s) :=
  xIssue_canon hs fun _ ht => by
    grind -linarith -order [xFault_canon, fillRows_canon, XOut.Canon]

theorem execMma_canon {h z ta tb zt a b e} (hs : s.Canon) : NextCanon (execMma h z ta tb zt a b e s) := by
  refine xIssue_canon hs fun t ht => ?_
  dsimp only
  repeat' refine iteInduction (motive := XOut.Canon) (fun _ => ht) fun _ => ?_
  exact ht

theorem tileOp_canon {i z f} (hs : s.Canon) (hk : ∀ t z, t.Canon → (f t z).Canon) : NextCanon (tileOp i z s f) :=
  xIssue_canon hs fun _ ht => by
    grind -linarith -order [xFault_canon]

theorem execMzero_canon {h t} (hs : s.Canon) : NextCanon (execMzero h t s) :=
  tileOp_canon hs fun _ _ ht => by
    grind -linarith -order [XOut.Canon]

theorem execMrd_canon {h rm ov t d a} (hs : s.Canon) : NextCanon (execMrd h rm ov t d a s) :=
  tileOp_canon hs fun _ _ ht => by
    grind -linarith -order [xFault_canon, convEnd_canon, XOut.Canon]

theorem execMwr_canon {h t d a} (hs : s.Canon) : NextCanon (execMwr h t d a s) :=
  tileOp_canon hs fun _ _ ht => by
    grind -linarith -order [xFault_canon, XOut.Canon]

theorem execMbs_canon {h t a} (hs : s.Canon) : NextCanon (execMbs h t a s) :=
  tileOp_canon hs fun _ _ ht => by
    grind -linarith -order [XOut.Canon]

theorem execMbsRd_canon {h t d} (hs : s.Canon) : NextCanon (execMbsRd h t d s) :=
  tileOp_canon hs fun _ _ ht => by
    grind -linarith -order [XOut.Canon]

theorem drainCheck_canon {addr n l best} (hs : s.Canon) : (drainCheck addr n s l best).1.Canon := by
  induction l generalizing s best with
  | nil => exact hs
  | cons i l ih => unfold drainCheck; grind -linarith -order [check_canon]

theorem execMdrain_canon {h ty rm ov t d a b e} (hs : s.Canon) : NextCanon (execMdrain h ty rm ov t d a b e s) :=
  tileOp_canon hs fun _ _ ht => by
    grind -linarith -order [xFault_canon, admitAll_canon, drainCheck_canon, XOut.Canon]

theorem execMownAcq_canon {h d} (hs : s.Canon) : NextCanon (execMownAcq h d s) :=
  xIssue_canon hs fun _ ht => by
    grind -linarith -order [XOut.Canon]

theorem execMownTry_canon {h d} (hs : s.Canon) : NextCanon (execMownTry h d s) :=
  xIssue_canon hs fun _ ht => by
    grind -linarith -order [XOut.Canon]

theorem execMownRel_canon {h} (hs : s.Canon) : NextCanon (execMownRel h s) :=
  xIssue_canon hs fun _ ht => by
    grind -linarith -order [foldl_canon, endCmdErr_canon, XOut.Canon]

theorem execHoldLimit_canon (hs : s.Canon) : NextCanon (execHoldLimit s) := by
  unfold execHoldLimit
  grind -linarith -order [setEvent_canon, State.setShuttle_canon, NextCanon]

/-! ## Heddle commands -/

theorem engRead_canon {core w id pos fuel ea n} (hs : s.Canon) : (engRead core w id pos fuel s ea n).1.Canon := by
  induction fuel generalizing s ea n with
  | zero => exact hs
  | succ fuel ih => unfold engRead; grind -linarith -order [check_canon, meetLatent_canon]

theorem engCheck_canon {w ea n} (hs : s.Canon) : (engCheck w s ea n).1.Canon := by
  unfold engCheck
  grind -linarith -order [check_canon]

theorem engWrite_canon {core slot chunk w ea bs poison} (hs : s.Canon) : (engWrite core slot chunk w s ea bs poison).1.Canon := by
  unfold engWrite
  grind -linarith -order [engCheck_canon, State.setCore_canon]

theorem failChunk_canon {core slot chunk c d l ea} (hs : s.Canon) : (failChunk s core slot chunk c d l ea).Canon := endCmdErr_canon hs

theorem State.setCmd_canon {core slot c} (hs : s.Canon) : (s.setCmd core slot c).Canon := State.setCore_canon hs

theorem slotStep_canon {pid acc fuel ea u} (hs : s.Canon) : (slotStep pid acc fuel s ea u).1.Canon := by
  induction fuel generalizing s ea u with
  | zero => exact hs
  | succ fuel ih => unfold slotStep; grind -linarith -order [translate_canon]

theorem pieceDone_canon {core slot chunk k keep} (hs : s.Canon) : (pieceDone s core slot chunk k keep).Canon := by
  unfold pieceDone
  grind -linarith -order [State.setCmd_canon, State.setCore_canon]

theorem overlapBytes_canon {c src bs} (hs : s.Canon) : (overlapBytes s c src bs).1.Canon := by
  unfold overlapBytes
  dsimp only
  split <;> exact hs

theorem readAhead_canon {core c need fuel ea left got} (hs : s.Canon) : (readAhead core c need fuel s ea left got).1.Canon := by
  induction fuel generalizing s ea left got with
  | zero => exact hs
  | succ fuel ih => unfold readAhead; grind -linarith -order [engRead_canon, overlapBytes_canon]

theorem copyPiece_canon {core slot chunk c} (hs : s.Canon) : (copyPiece s core slot chunk c).Canon := by
  unfold copyPiece
  grind -linarith -order [readAhead_canon, failChunk_canon, engWrite_canon, pieceDone_canon, State.setCmd_canon]

theorem countFab_canon {pid n} (hs : s.Canon) : (countFab s pid n).Canon := by
  unfold countFab
  split <;> exact hs

theorem notePorts_canon {pid l} (hs : s.Canon) : (notePorts s pid l).Canon := by
  unfold notePorts
  split <;> exact hs

theorem sendFab_canon {c va data want unit bar bad} (hs : s.Canon) : (sendFab s c va data want unit bar bad).Canon :=
  notePorts_canon (countFab_canon hs)

theorem stampSent_canon {core slot} (hs : s.Canon) : (stampSent s core slot).Canon := by
  unfold stampSent
  grind -linarith -order [State.setCmd_canon]

theorem markSent_canon {core slot chunk} (hs : s.Canon) : (markSent s core slot chunk).Canon := by
  unfold markSent
  grind -linarith -order [State.setCmd_canon]

theorem badPiece_canon {core slot chunk o n p} (hs : s.Canon) : (badPiece s core slot chunk o n p).Canon := by
  unfold badPiece
  grind -linarith -order [State.setCmd_canon]

theorem putPiece_canon {core slot chunk c} (hs : s.Canon) : (putPiece s core slot chunk c).Canon := by
  unfold putPiece
  grind -linarith -order [engRead_canon, failChunk_canon, badPiece_canon, pieceDone_canon, markSent_canon, stampSent_canon, sendFab_canon]

theorem putUnit_canon {core slot chunk c} (hs : s.Canon) : (putUnit s core slot chunk c).Canon := by
  unfold putUnit
  grind -linarith -order [slotStep_canon, failChunk_canon, engRead_canon, State.setCmd_canon, sendFab_canon, stampSent_canon,
    pieceDone_canon, markSent_canon]

theorem pushFab_canon {die e} (hs : s.Canon) : (pushFab s die e).Canon := hs

theorem getPiece_canon {core slot chunk c} (hs : s.Canon) : (getPiece s core slot chunk c).Canon := by
  unfold getPiece
  grind -linarith -order [slotStep_canon, failChunk_canon, engCheck_canon, pieceDone_canon, pushFab_canon, State.setCore_canon]

theorem getAsk_canon {core slot chunk c} (hs : s.Canon) : (getAsk s core slot chunk c).Canon := by
  unfold getAsk
  grind -linarith -order [stampSent_canon, sendFab_canon, State.setCmd_canon]

theorem moveChunk_canon {core slot chunk} (hs : s.Canon) : (moveChunk s core slot chunk).Canon := by
  unfold moveChunk
  grind -linarith -order [copyPiece_canon, endCmdErr_canon, putUnit_canon, putPiece_canon, getPiece_canon, getAsk_canon]

theorem peerAck_canon {core slot chunk port cause detail refused data bad} (hs : s.Canon) :
    (peerAck s core slot chunk port cause detail refused data bad).Canon := by
  unfold peerAck
  grind -linarith -order [State.setCmd_canon, endCmdErr_canon]

theorem barCount_canon {w n} (hs : s.Canon) : (barCount s w n).Canon := by
  unfold barCount
  split <;> exact hs

theorem finishChunk_canon {core slot chunk c} (hs : s.Canon) : (finishChunk s core slot chunk c).Canon := by
  unfold finishChunk
  grind -linarith -order [State.setCmd_canon, deliver_canon, barCount_canon, endCmdOk_canon]

theorem execChunkFinish_canon {slot chunk} (hs : s.Canon) : NextCanon (execChunkFinish slot chunk s) := by
  unfold execChunkFinish
  grind -linarith -order [finishChunk_canon, NextCanon]

theorem execPeerTimeout_canon {slot} (hs : s.Canon) : NextCanon (execPeerTimeout slot s) := by
  unfold execPeerTimeout
  grind -linarith -order [endCmdErr_canon, NextCanon]

theorem startCmd_canon {d pm nb c} (hs : s.Canon) : NextCanon (startCmd s d pm nb c) := by
  unfold startCmd
  grind -linarith -order [raiseA_canon, waitA_canon, writeA_canon, State.setRec_canon]

theorem cmdChecks_canon {d pm empty bad n tile bar k} (hs : s.Canon) (hk : NextCanon (k s)) :
    NextCanon (cmdChecks s d pm empty bad n tile bar k) := by
  unfold cmdChecks
  grind -linarith -order [writeA_canon, raiseA_canon, waitA_canon]

theorem execHcopy_canon {h ck ts bar crc nb d a b e pm t} (hs : s.Canon) : NextCanon (execHcopy h ck ts bar crc nb d a b e pm t s) :=
  aInstr_canon hs <| by
    grind -linarith -order [cmdChecks_canon, startCmd_canon]

theorem readWordsA_canon {ea n k} (hs : s.Canon) (hk : ∀ t l, t.Canon → NextCanon (k t l)) : NextCanon (readWordsA s ea n k) := by
  induction n generalizing s ea k with
  | zero => exact hk s [] hs
  | succ n ih => exact readA_canon hs fun t _ ht => ih ht fun u l hu => hk u _ hu

theorem execHxfm_canon {h ts bar nb d a pm t} (hs : s.Canon) : NextCanon (execHxfm h ts bar nb d a pm t s) :=
  aInstr_canon hs <| by
    grind -linarith -order [raiseA_canon, readWordsA_canon, cmdChecks_canon, startCmd_canon]

theorem execHfab_canon {h ck get bar crc nb fold d a b e pm peer} (hs : s.Canon) :
    NextCanon (execHfab h ck get bar crc nb fold d a b e pm peer s) :=
  aInstr_canon hs <| by
    grind -linarith -order [cmdChecks_canon, raiseA_canon, readWordsA_canon, startCmd_canon]

theorem readProg_canon {ea n k} (hs : s.Canon) (hk : ∀ t l, t.Canon → NextCanon (k t l)) : NextCanon (readProg s ea n k) := by
  induction n generalizing s ea k with
  | zero => exact hk s [] hs
  | succ n ih =>
    refine readA_canon hs fun t v ht => ?_
    split
    · exact hk t [v] ht
    · exact ih ht fun u l hu => hk u _ hu

theorem execHprog_canon {h d a} (hs : s.Canon) : NextCanon (execHprog h d a s) :=
  aInstr_canon hs <| by
    grind -linarith -order [readProg_canon, raiseA_canon, writeA_canon]

theorem execHstatWt_canon {h d a} (hs : s.Canon) : NextCanon (execHstatWt h d a s) :=
  aInstr_canon hs <| by
    grind -linarith -order [waitA_canon, writeA_canon]

theorem leaveSlot_canon {core slot c} (hs : s.Canon) : (leaveSlot s core slot c).Canon := State.setCore_canon hs

theorem execHstatRel_canon {h d a} (hs : s.Canon) : NextCanon (execHstatRel h d a s) :=
  aInstr_canon hs <| by
    grind -linarith -order [writeA_canon, leaveSlot_canon]

theorem execHstatAbort_canon {h d a} (hs : s.Canon) : NextCanon (execHstatAbort h d a s) :=
  aInstr_canon hs <| by
    grind -linarith -order [writeA_canon, State.setCmd_canon, waitA_canon, endCmdErr_canon]

theorem execHcsumRd_canon {h d} (hs : s.Canon) : NextCanon (execHcsumRd h d s) :=
  aInstr_canon hs <| by
    grind -linarith -order [waitA_canon, writeA_canon]

theorem execHcsumSet_canon {h a} (hs : s.Canon) : NextCanon (execHcsumSet h a s) :=
  aInstr_canon hs <| by
    grind -linarith -order [waitA_canon, doneA_canon]

theorem execHcsumChk_canon {h d a} (hs : s.Canon) : NextCanon (execHcsumChk h d a s) :=
  aInstr_canon hs <| by
    grind -linarith -order [waitA_canon, writeA_canon]

/-! ## System instructions -/

theorem haltCore_canon (hs : s.Canon) : (haltCore s).Canon := by
  unfold haltCore
  grind -linarith -order

theorem trapNext_canon {cause n} (hs : s.Canon) : NextCanon (trapNext cause n s) := by
  unfold trapNext
  grind -linarith -order [waitA_canon, takeFault_canon]

theorem execBkpt_canon {h n} (hs : s.Canon) : NextCanon (execBkpt h n s) :=
  aInstr_canon hs <| by
    grind -linarith -order [waitA_canon, haltCore_canon, trapNext_canon, NextCanon]

theorem execSwr_canon {h k a} (hs : s.Canon) : NextCanon (execSwr h k a s) :=
  aInstr_canon hs <| by
    grind -linarith -order [raiseA_canon, doneA_canon]

theorem settleRec_canon {r} (hs : s.Canon) : (settleRec s r).Canon := by
  unfold settleRec
  grind -linarith -order [State.setRec_canon, completeRec_canon]

theorem execHalt_canon {h n} (hs : s.Canon) : NextCanon (execHalt h n s) :=
  aInstr_canon hs <| by
    grind -linarith -order [waitA_canon, dropEngine_canon, settleRec_canon, State.setRec_canon, NextCanon]

theorem yieldPoint_canon {stay k} (hs : s.Canon) (hk : NextCanon (k s)) : NextCanon (yieldPoint s stay k) := by
  unfold yieldPoint
  grind -linarith -order [faultA_canon, waitA_canon, NextCanon]

theorem execYield_canon {h} (hs : s.Canon) : NextCanon (execYield h s) :=
  aInstr_canon hs <| by
    grind -linarith -order [yieldPoint_canon, doneA_canon]

theorem execWfe_canon {h m d} (hs : s.Canon) : NextCanon (execWfe h m d s) :=
  aInstr_canon hs <| by
    grind -linarith -order [yieldPoint_canon, waitA_canon, writeA_canon]

theorem priv_canon {k} (hs : s.Canon) (hk : NextCanon (k s)) : NextCanon (priv s k) := by
  unfold priv
  grind -linarith -order [raiseA_canon]

theorem xinvA_canon {sel} (hs : s.Canon) : NextCanon (xinvA s sel) := by
  unfold xinvA
  split <;> exact hs

theorem execXinvPg_canon {h a b} (hs : s.Canon) : NextCanon (execXinvPg h a b s) :=
  aInstr_canon hs <| by
    grind -linarith -order [priv_canon, xinvA_canon, raiseA_canon]

theorem execXinvAll_canon {h _a} (hs : s.Canon) : NextCanon (execXinvAll h _a s) :=
  aInstr_canon hs <| by
    grind -linarith -order [priv_canon, xinvA_canon]

theorem execKeyz_canon {h a} (hs : s.Canon) : NextCanon (execKeyz h a s) :=
  aInstr_canon hs <| by
    grind -linarith -order [priv_canon, doneA_canon, raiseA_canon, waitA_canon, State.setDie_canon]

theorem serveScrub_canon {die pid rest} (hs : s.Canon) : (serveScrub s die pid rest).Canon := hs

theorem startScrub_canon {pid die} (hs : s.Canon) : (startScrub s pid die).Canon := by
  unfold startScrub
  grind -linarith -order [serveScrub_canon, State.setDie_canon]

theorem startScrubs_canon {pid} (hs : s.Canon) : (startScrubs s pid).Canon := by
  unfold startScrubs
  grind -linarith -order [foldl_canon, startScrub_canon, dropXlats_canon]

theorem execScrubSt_canon {h a} (hs : s.Canon) : NextCanon (execScrubSt h a s) :=
  aInstr_canon hs <| by
    grind -linarith -order [priv_canon, raiseA_canon, waitA_canon, doneA_canon, startScrubs_canon]

theorem execScrubRd_canon {h d a} (hs : s.Canon) : NextCanon (execScrubRd h d a s) :=
  aInstr_canon hs <| by
    grind -linarith -order [priv_canon, raiseA_canon, writeA_canon]

theorem execScrubWt_canon {h a} (hs : s.Canon) : NextCanon (execScrubWt h a s) :=
  aInstr_canon hs <| by
    grind -linarith -order [priv_canon, raiseA_canon, doneA_canon, waitA_canon]

theorem zeroRange_canon {lo n} (hs : s.Canon) : (zeroRange s lo n).Canon := by
  unfold zeroRange
  grind -linarith -order [State.putPoison_canon, Memory.cover_wf]

theorem clearPads_canon {die pid} (hs : s.Canon) : (clearPads s die pid).Canon := by
  unfold clearPads
  grind -linarith -order [foldl_canon, zeroRange_canon, State.setCore_canon]

theorem execScrubGranule_canon {die pid} (hs : s.Canon) : NextCanon (execScrubGranule die pid s) := by
  unfold execScrubGranule
  grind -linarith -order [State.setDie_canon, clearPads_canon, dropXlats_canon, zeroRange_canon, NextCanon]

theorem execScrubPendingStart_canon {die} (hs : s.Canon) : NextCanon (execScrubPendingStart die s) := by
  unfold execScrubPendingStart
  grind -linarith -order [serveScrub_canon, NextCanon]

theorem execFrqPop_canon {h d a} (hs : s.Canon) : NextCanon (execFrqPop h d a s) :=
  aInstr_canon hs <| by
    grind -linarith -order [faultA_canon, writeA_canon, accessA_canon, waitA_canon]

/-! ## Scheduling -/

theorem takeRecord_canon {q idx w} (hs : s.Canon) : (takeRecord s q idx w).Canon := by
  unfold takeRecord
  grind -linarith -order [completeRec_canon]

theorem takeRecords_canon {qn base e n} (hs : s.Canon) : (takeRecords qn base e n s).Canon := by
  induction n generalizing s with
  | zero => exact hs
  | succ n ih => unfold takeRecords; grind -linarith -order [frameReader_canon, stopQueue_canon, takeRecord_canon, State.setQueueRec_canon]

theorem readQueue_canon {q} (hs : s.Canon) : (readQueue s q).Canon := by
  unfold readQueue
  split <;> rename_i e <;> have h1 := canon_of_eq e (readHeader_canon hs)
  · exact stopQueue_canon h1
  · dsimp only
    iterate 3 refine iteInduction (motive := State.Canon) (fun _ => stopQueue_canon h1) fun _ => ?_
    exact takeRecords_canon h1

theorem execQueueTailRead_canon {q} (hs : s.Canon) : NextCanon (execQueueTailRead q s) := by
  unfold execQueueTailRead
  grind -linarith -order [readQueue_canon, NextCanon]

theorem scanTenants_canon {pid l} (hs : s.Canon) : (scanTenants pid s l).1.Canon := by
  induction l generalizing s with
  | nil => exact hs
  | cons k l ih => unfold scanTenants; grind -linarith -order [readBlock_canon]

theorem meetTenants_canon (hs : s.Canon) : (meetTenants s).1.Canon := by
  unfold meetTenants
  grind -linarith -order [foldl_canon_fst, scanTenants_canon]

theorem writeTenantWords_canon {pid l} (hs : s.Canon) : (writeTenantWords s pid l).Canon := by
  unfold writeTenantWords
  grind -linarith -order [foldl_canon, devPut_canon, readBlock_canon]

theorem refillTokens_canon (hs : s.Canon) : (refillTokens s).Canon := by
  unfold refillTokens
  grind -linarith -order [meetTenants_canon, foldl_canon, writeTenantWords_canon]

theorem borrow_canon {pid e l} (hs : s.Canon) : (borrow s pid e l).Canon := by
  induction l with
  | nil => exact hs
  | cons k l ih => unfold borrow; grind -linarith -order

theorem chargeTenant_canon {pid all e} (hs : s.Canon) : (chargeTenant pid all s e).Canon := by
  unfold chargeTenant
  grind -linarith -order [borrow_canon]

theorem chargeTokens_canon (hs : s.Canon) : (chargeTokens s).Canon := by
  unfold chargeTokens
  grind -linarith -order [meetTenants_canon, foldl_canon, writeTenantWords_canon, chargeTenant_canon]

theorem dueRefill_canon (hs : s.Canon) : (dueRefill s).Canon := by
  unfold dueRefill
  grind -linarith -order [refillTokens_canon]

theorem dueCharge_canon (hs : s.Canon) : (dueCharge s).Canon := by
  unfold dueCharge
  grind -linarith -order [chargeTokens_canon]

theorem readCands_canon {l} (hs : s.Canon) : (readCands s l).1.Canon := by
  induction l generalizing s with
  | nil => exact hs
  | cons r l ih => unfold readCands; grind -linarith -order [readRegion_canon]

theorem giveCore_canon {k r ts} (hs : s.Canon) : (giveCore s k r ts).Canon := by
  unfold giveCore
  grind -linarith -order [State.setCore_canon]

theorem deliverHeld_canon {r} (hs : s.Canon) : (deliverHeld s r).Canon := by
  unfold deliverHeld
  grind -linarith -order [foldl_canon, pushFRec_canon, State.setCore_canon]

theorem nearPlaced_canon {r k} (hs : s.Canon) : (nearPlaced s r k).Canon := by
  unfold nearPlaced
  grind -linarith -order [havoc_canon]

theorem placeRec_canon {c k} (hs : s.Canon) : (placeRec s c k).Canon := by
  unfold placeRec
  grind -linarith -order [deliverHeld_canon, giveCore_canon, nearPlaced_canon, State.setRec_canon]

theorem execRecordPlace_canon (hs : s.Canon) : NextCanon (execRecordPlace s) := by
  unfold execRecordPlace
  grind -linarith -order [meetTenants_canon, readCands_canon, completeRec_canon, placeRec_canon, NextCanon]

theorem markPre_canon {id atOnce} (hs : s.Canon) : (markPre s id atOnce).1.Canon := by
  unfold markPre
  grind -linarith -order [State.setRec_canon]

theorem execAllocPreempt_canon (hs : s.Canon) : NextCanon (execAllocPreempt s) := by
  unfold execAllocPreempt
  grind -linarith -order [meetTenants_canon, readCands_canon, markPre_canon, NextCanon]

theorem execPreemptRequest_canon {id} (hs : s.Canon) : NextCanon (execPreemptRequest id s) := by
  unfold execPreemptRequest
  grind -linarith -order [foldl_canon, State.setShuttle_canon, NextCanon]

theorem execPreemptTimeout_canon (hs : s.Canon) : NextCanon (execPreemptTimeout s) := by
  unfold execPreemptTimeout
  grind -linarith -order [NextCanon]

theorem execSaveComplete_canon {id} (hs : s.Canon) : NextCanon (execSaveComplete id s) := by
  unfold execSaveComplete
  grind -linarith -order [State.setRec_canon, clearCore_canon, NextCanon]

theorem savedShuttle_canon {old r slot pos cycle go} (hs : s.Canon) : (savedShuttle s old r slot pos cycle go).1.Canon := by
  unfold savedShuttle
  grind -linarith -order [frameReader_canon]

theorem putBack_canon {old r slot pos} (hs : s.Canon) : (putBack s old r slot pos).Canon := by
  unfold putBack
  extract_lets L k kp base t nk s1 rd bad tiles ents c1 c2 cb c3
  have h1 : s1.Canon := by
    unfold s1
    split <;> rename_i e
    · exact foldl_canon (canon_of_eq e (devSpan_canon hs)) fun t p ht => copyLines_canon (meetLatent_canon ht)
    · exact canon_of_eq e (devSpan_canon hs)
  clear_value c3
  exact State.setCore_canon h1

theorem resumeRec_canon {c k} (hs : s.Canon) : (resumeRec s c k).1.Canon := by
  have hv : ∀ {s old r slot pos cycle go}, s.Canon → (savedShuttle s old r slot pos cycle go).1.Canon := savedShuttle_canon
  unfold resumeRec
  generalize savedShuttle = saved at hv ⊢
  extract_lets
  split
  rename_i e
  have h1 := canon_of_eq e (foldl_canon_fst hs fun _ _ ha => by dsimp only; split <;> exact hv ha)
  split
  · exact h1
  extract_lets s2 s3 s4
  have h2 : s2.Canon := giveCore_canon (State.setRec_canon h1)
  have h3 : s3.Canon := foldl_canon h2 fun _ _ ht => putBack_canon ht
  have h4 : s4.Canon := foldl_canon h3 fun _ _ ht => by split; exacts [applyHeld_canon ht, ht]
  exact deliverHeld_canon (foldl_canon h4 fun _ _ ht => settleFolds_canon ht)

theorem execRecordResume_canon {id} (hs : s.Canon) : NextCanon (execRecordResume id s) := by
  unfold execRecordResume
  grind -linarith -order [meetTenants_canon, readCands_canon, endRec_canon, resumeRec_canon, NextCanon]

theorem launchRec_canon {id} (hs : s.Canon) : (launchRec s id).Canon := by
  unfold launchRec
  grind -linarith -order [foldl_canon, State.setShuttle_canon, State.setRec_canon]

theorem dueLaunch_canon {stepped} (hs : s.Canon) : (dueLaunch s stepped).Canon := by
  unfold dueLaunch
  grind -linarith -order [foldl_canon, launchRec_canon, State.setRec_canon]

theorem execKill_canon {id} (hs : s.Canon) : NextCanon (execKill id s) := by
  unfold execKill
  grind -linarith -order [completeRec_canon, endRec_canon, NextCanon]

/-! ## The ports -/

theorem reply_canon {conn cause detail data} (hs : s.Canon) : (reply s conn cause detail data).Canon := hs

theorem netSpan_canon {pid acc ecc fuel va n} (hs : s.Canon) : (netSpan pid acc ecc fuel s va n).1.Canon := by
  induction fuel generalizing s va n with
  | zero => exact hs
  | succ fuel ih => unfold netSpan; grind -linarith -order [check_canon]

theorem dropAt_canon {port} (hs : s.Canon) : (dropAt s port).Canon := by
  unfold dropAt
  split <;> exact hs

theorem enterWrites_canon {n parts bar} (hs : s.Canon) : (enterWrites s n parts bar).Canon := by
  unfold enterWrites
  grind -linarith -order [State.fresh_canon, foldl_canon, pushFab_canon]

theorem bootWrite_canon {conn off data} (hs : s.Canon) : (bootWrite s conn off data).Canon := by
  unfold bootWrite
  grind -linarith -order [Memory.writeN_wf]

theorem bootRefuse_canon {conn} (hs : s.Canon) : (bootRefuse s conn).Canon := hs

theorem execTransportWrite_canon {n data bar unit} (hs : s.Canon) : NextCanon (execTransportWrite n data bar unit s) := by
  unfold execTransportWrite
  extract_lets t body
  have ht : t.Canon := notePorts_canon hs
  have hb : body.1.Canon := by grind -linarith -order [slotStep_canon]
  clear_value body
  split
  · exact dropAt_canon hs
  split
  · grind -linarith -order [NextCanon, bootWrite_canon, bootRefuse_canon, reply_canon]
  split
  · exact reply_canon hs
  split
  · exact ht
  split
  · exact reply_canon ht
  split
  · exact reply_canon hb
  split <;> rename_i e
  · exact canon_of_eq e (netSpan_canon hb)
  · exact reply_canon (canon_of_eq e (netSpan_canon hb))
  · exact reply_canon (canon_of_eq e (netSpan_canon hb))
  · have h2 := canon_of_eq e (netSpan_canon hb)
    split
    · exact reply_canon h2
    · exact enterWrites_canon h2

theorem readUnits_canon {pid va n u} (hs : s.Canon) : (readUnits pid va n u s).1.Canon := by
  induction n generalizing s u with
  | zero => exact hs
  | succ n ih =>
    unfold readUnits
    split <;> rename_i e <;> have h1 := canon_of_eq e (slotStep_canon hs)
    · exact h1
    split <;> rename_i e <;> have h2 := canon_of_eq e (netSpan_canon h1)
    · exact h2
    dsimp only
    split
    · rename_i e; exact canon_of_eq e (ih h2)
    · exact ih h2

theorem execTransportRead_canon {n len unit} (hs : s.Canon) : NextCanon (execTransportRead n len unit s) := by
  unfold execTransportRead
  grind -linarith -order [dropAt_canon, bootRefuse_canon, reply_canon, notePorts_canon, readUnits_canon, netSpan_canon, NextCanon]

theorem execTransportAtomic_canon {n k size v c} (hs : s.Canon) : NextCanon (execTransportAtomic n k size v c s) := by
  unfold execTransportAtomic
  grind -linarith -order [bootRefuse_canon, reply_canon, notePorts_canon, netSpan_canon, State.fresh_canon, pushFab_canon, NextCanon]

theorem fabApply_canon {e} (hs : s.Canon) : (fabApply s e).Canon := by
  unfold fabApply
  grind -linarith -order [meetLatent_canon, meetPart_canon, State.linePoison_canon, Memory.writeN_wf, reply_canon, Memory.writeLe_wf]

theorem unitLine_canon {e} (hs : s.Canon) : (unitLine s e).Canon := by
  unfold unitLine
  grind -linarith -order [State.setCmd_canon, barCount_canon]

theorem fabDone_canon {e} (hs : s.Canon) : (fabDone s e).Canon := by
  unfold fabDone
  grind -linarith -order [unitLine_canon, barCount_canon, reply_canon]

theorem execFabricWritePerform_canon {die k} (hs : s.Canon) : NextCanon (execFabricWritePerform die k s) := by
  unfold execFabricWritePerform
  grind -linarith -order [State.setDie_canon, fabDone_canon, fabApply_canon, NextCanon]

theorem execPortDown_canon {port} (hs : s.Canon) : NextCanon (execPortDown port s) := by
  unfold execPortDown
  split <;> exact hs

/-! ## Timers -/

theorem execTarm_canon {h d a} (hs : s.Canon) : NextCanon (execTarm h d a s) :=
  aInstr_canon hs <| by
    grind -linarith -order [writeA_canon]

theorem fireTimers_canon (hs : s.Canon) : (fireTimers s).Canon := hs

theorem execTimerFire_canon (hs : s.Canon) : NextCanon (execTimerFire s) := by
  unfold execTimerFire
  grind -linarith -order [NextCanon]

/-! ## Management requests -/

theorem answer_canon {op m status ws} (hs : s.Canon) : NextCanon (answer s op m status ws) := hs

theorem moduleReq_canon {op m n k} (hs : s.Canon) (hk : NextCanon (k s)) : NextCanon (moduleReq s op m n k) := by
  unfold moduleReq
  grind -linarith -order [answer_canon]

theorem partReq_canon {op m n k} (hs : s.Canon) (hk : ∀ p, NextCanon (k s p)) : NextCanon (partReq s op m n k) := by
  unfold partReq
  grind -linarith -order [answer_canon]

theorem execFeatureOffer_canon {m} (hs : s.Canon) : NextCanon (execFeatureOffer m s) :=
  moduleReq_canon hs <| by
    grind -linarith -order [answer_canon]

theorem execFeatureAccept_canon {m} (hs : s.Canon) : NextCanon (execFeatureAccept m s) :=
  moduleReq_canon hs <| by
    grind -linarith -order [answer_canon]

theorem execQueueReg_canon {m} (hs : s.Canon) : NextCanon (execQueueReg m s) :=
  partReq_canon hs fun _ => by
    grind -linarith -order [answer_canon, readHeader_canon, NextCanon]

theorem execQueueDereg_canon {m} (hs : s.Canon) : NextCanon (execQueueDereg m s) :=
  partReq_canon hs fun _ => by
    grind -linarith -order [answer_canon]

theorem execFabricMap_canon {m} (hs : s.Canon) : NextCanon (execFabricMap m s) :=
  moduleReq_canon hs <| by
    grind -linarith -order [answer_canon]

theorem execXlatRoot_canon {m} (hs : s.Canon) : NextCanon (execXlatRoot m s) :=
  partReq_canon hs fun _ => by
    grind -linarith -order [answer_canon, State.setPart_canon, dropXlats_canon, NextCanon]

theorem execBarGrant_canon {m} (hs : s.Canon) : NextCanon (execBarGrant m s) :=
  partReq_canon hs fun _ => by
    grind -linarith -order [answer_canon, readRegion_canon, State.setDie_canon, NextCanon]

theorem execBarFree_canon {m} (hs : s.Canon) : NextCanon (execBarFree m s) :=
  partReq_canon hs fun _ => by
    grind -linarith -order [answer_canon, State.setBar_canon, NextCanon]

theorem readNumbers_canon {pid n va} (hs : s.Canon) : (readNumbers pid n va s).1.Canon := by
  induction n generalizing s va with
  | zero => exact hs
  | succ n ih =>
    unfold readNumbers
    split <;> rename_i e <;> have h1 := canon_of_eq e (netSpan_canon hs)
    · split
      · rename_i e; exact canon_of_eq e (ih h1)
      · exact ih h1
    · exact h1

theorem execGangReg_canon {m} (hs : s.Canon) : NextCanon (execGangReg m s) :=
  partReq_canon hs fun _ => by
    grind -linarith -order [answer_canon, readRegion_canon, readNumbers_canon, NextCanon]

theorem sendGang_canon {kind g dests} (hs : s.Canon) : (sendGang s kind g dests).Canon := hs

theorem execGangReq_canon {m} (hs : s.Canon) : NextCanon (execGangReq m s) :=
  partReq_canon hs fun _ => by
    grind -linarith -order [answer_canon, sendGang_canon]

theorem execTeleRd_canon {m} (hs : s.Canon) : NextCanon (execTeleRd m s) := by
  unfold execTeleRd
  grind -linarith -order [answer_canon, State.fresh_canon]

theorem otherRequest_canon {op m} (hs : s.Canon) : NextCanon (otherRequest op m s) := by
  unfold otherRequest
  grind -linarith -order [answer_canon]

theorem execSessionBind_canon {session src4 src6} (hs : s.Canon) : NextCanon (execSessionBind session src4 src6 s) := by
  unfold execSessionBind
  split <;> exact hs

/-! ## Gangs -/

theorem giveRegion_canon {pid slot f} (hs : s.Canon) : (giveRegion s pid slot f).Canon := by
  unfold giveRegion
  grind -linarith -order [pushFRec_canon, State.setCore_canon]

theorem State.setToken_canon {t} (hs : s.Canon) : (s.setToken t).Canon := hs

theorem State.idleToken_canon {t} (hs : s.Canon) : (s.idleToken t).Canon := hs

theorem tellCoord_canon {kind reason t} (hs : s.Canon) : (tellCoord s kind reason t).Canon := hs

theorem gangEvent_canon {g k} (hs : s.Canon) (hk : NextCanon (k s)) : NextCanon (gangEvent g s k) := by
  unfold gangEvent
  grind -linarith -order [bootRefuse_canon, NextCanon]

theorem gangMember_canon {g st k} (hs : s.Canon) (hk : NextCanon (k s)) : NextCanon (gangMember g st s k) :=
  gangEvent_canon hs <| by
    grind -linarith -order [tellCoord_canon, NextCanon]

theorem execGangSwitch_canon {g} (hs : s.Canon) : NextCanon (execGangSwitch g s) :=
  gangMember_canon hs <| by
    grind -linarith -order [tellCoord_canon, State.setToken_canon, NextCanon]

theorem execConfirm_canon {g} (hs : s.Canon) : NextCanon (execConfirm g s) :=
  gangEvent_canon hs <| by
    grind -linarith -order [tellCoord_canon, State.setToken_canon, NextCanon]

theorem saveGang_canon {gang atOnce} (hs : s.Canon) : (saveGang s gang atOnce).Canon := by
  unfold saveGang
  grind -linarith -order [foldl_canon, markPre_canon, endRec_canon]

theorem startGang_canon {gang} (hs : s.Canon) : (startGang s gang).Canon := by
  unfold startGang
  grind -linarith -order [foldl_canon, launchRec_canon]

theorem beginSwitch_canon {t} (hs : s.Canon) : (beginSwitch s t).Canon := saveGang_canon hs

theorem execGangStop_canon {g} (hs : s.Canon) : NextCanon (execGangStop g s) :=
  gangEvent_canon hs <| by
    grind -linarith -order [tellCoord_canon, State.idleToken_canon, saveGang_canon, NextCanon]

theorem execGangGo_canon {g} (hs : s.Canon) : NextCanon (execGangGo g s) :=
  gangMember_canon hs <| by
    grind -linarith -order [beginSwitch_canon, NextCanon]

theorem otherGang_canon {g} (hs : s.Canon) : (otherGang g s).Canon := hs

theorem lapseToken_canon {t} (hs : s.Canon) : (lapseToken s t).Canon := by
  unfold lapseToken
  split <;> exact hs

theorem switchToken_canon {t} (hs : s.Canon) : (switchToken s t).Canon := by
  unfold switchToken
  grind -linarith -order [beginSwitch_canon]

theorem dueTokens_canon (hs : s.Canon) : (dueTokens s).Canon := by
  unfold dueTokens
  grind -linarith -order [foldl_canon, switchToken_canon, lapseToken_canon]

theorem execGangWindowLapse_canon {k} (hs : s.Canon) : NextCanon (execGangWindowLapse k s) := by
  unfold execGangWindowLapse
  grind -linarith -order [lapseToken_canon, NextCanon]

theorem execGangSwitchTime_canon {k} (hs : s.Canon) : NextCanon (execGangSwitchTime k s) := by
  unfold execGangSwitchTime
  grind -linarith -order [switchToken_canon, NextCanon]

theorem execSwitchingDone_canon {k} (hs : s.Canon) : NextCanon (execSwitchingDone k s) := by
  unfold execSwitchingDone
  grind -linarith -order [startGang_canon, State.idleToken_canon, NextCanon]

theorem State.setCoord_canon {c} (hs : s.Canon) : (s.setCoord c).Canon := hs

theorem toCoord_canon {g k} (hs : s.Canon) (hk : ∀ c, NextCanon (k c)) : NextCanon (toCoord g s k) :=
  gangEvent_canon hs <| by
    grind -linarith -order [NextCanon]

theorem execGangAck_canon {g} (hs : s.Canon) : NextCanon (execGangAck g s) :=
  toCoord_canon hs fun _ => by
    grind -linarith -order [sendGang_canon, State.setCoord_canon, NextCanon]

theorem execGangRefuse_canon {g} (hs : s.Canon) : NextCanon (execGangRefuse g s) :=
  toCoord_canon hs fun _ => by
    grind -linarith -order [State.setCoord_canon, NextCanon]

theorem execGangSwitched_canon {g} (hs : s.Canon) : NextCanon (execGangSwitched g s) :=
  toCoord_canon hs fun _ => by
    grind -linarith -order [State.setCoord_canon, NextCanon]

theorem execGangLapsed_canon {g} (hs : s.Canon) : NextCanon (execGangLapsed g s) :=
  toCoord_canon hs fun _ => by
    grind -linarith -order [State.setCoord_canon, NextCanon]

theorem straggle_canon {c} (hs : s.Canon) : (straggle s c).Canon := by
  unfold straggle
  grind -linarith -order [foldl_canon, giveRegion_canon, sendGang_canon, State.setCoord_canon]

theorem dueStragglers_canon (hs : s.Canon) : (dueStragglers s).Canon := by
  unfold dueStragglers
  grind -linarith -order [foldl_canon, straggle_canon]

theorem execStragglerTimeout_canon {seq} (hs : s.Canon) : NextCanon (execStragglerTimeout seq s) := by
  unfold execStragglerTimeout
  grind -linarith -order [straggle_canon, NextCanon]

/-! ## Time as it passes -/

theorem instants_canon (hs : s.Canon) : (instants s).Canon := by
  unfold instants
  grind -linarith -order [dueCharge_canon, dueRefill_canon, refillBudgets_canon]

theorem reached_canon {stepped} (hs : s.Canon) : (reached s stepped).Canon := by
  unfold reached
  grind -linarith -order [dueStragglers_canon, dueLaunch_canon, dueTokens_canon, fireTimers_canon, instants_canon]

theorem dueSnap_canon (hs : s.Canon) : (dueSnap s).Canon := by
  unfold dueSnap
  split <;> exact hs

theorem passTime_canon {dt} (hs : s.Canon) : (passTime s dt).Canon := dueSnap_canon (reached_canon hs)

theorem stepTime_canon {o} (hs : s.Canon) : (stepTime s o).Canon := reached_canon hs

theorem loseLock_canon (hs : s.Canon) : (loseLock s).Canon := by
  unfold loseLock
  grind -linarith -order [foldl_canon, tellCoord_canon, State.idleToken_canon, giveRegion_canon]

theorem execPtpOffset_canon {port o} (hs : s.Canon) : NextCanon (execPtpOffset port o s) := by
  unfold execPtpOffset
  grind -linarith -order [loseLock_canon, stepTime_canon, NextCanon]

theorem enterHoldover_canon (hs : s.Canon) : (enterHoldover s).Canon := by
  unfold enterHoldover
  split <;> exact hs

theorem execAnnounceTimeout_canon {port} (hs : s.Canon) : NextCanon (execAnnounceTimeout port s) := by
  unfold execAnnounceTimeout
  grind -linarith -order [enterHoldover_canon, NextCanon]

theorem execHoldoverExpiry_canon (hs : s.Canon) : NextCanon (execHoldoverExpiry s) := by
  unfold execHoldoverExpiry
  grind -linarith -order [loseLock_canon, NextCanon]

/-! ## Partitions -/

theorem setPcb_canon {pid k v} (hs : s.Canon) : (setPcb s pid k v).Canon := by
  unfold setPcb
  grind -linarith -order [Memory.writeLe_wf]

theorem setLast_canon {pid result seq} (hs : s.Canon) : (setLast s pid result seq).Canon := by
  unfold setLast
  split <;> exact hs

theorem pcbStatus_canon {pid state result seq} (hs : s.Canon) : (pcbStatus s pid state result seq).Canon := setLast_canon (setPcb_canon hs)

theorem pcbState1_canon {pid} (hs : s.Canon) : (pcbState1 s pid).Canon := by
  unfold pcbState1
  grind -linarith -order [setPcb_canon]

theorem pcbDone_canon {pid result seq} (hs : s.Canon) : (pcbDone s pid result seq).Canon := pcbStatus_canon hs

theorem pcbCommand_canon {pid code from' run} (hs : s.Canon) (hk : ∀ q, NextCanon (run s q)) :
    NextCanon (pcbCommand s pid code from' run) := by
  unfold pcbCommand
  grind -linarith -order [pcbDone_canon, NextCanon]

theorem takeUse_canon {pid a u} (hk : a.1.Canon) : (takeUse pid a u).1.Canon := by
  unfold takeUse
  grind -linarith -order [State.setDie_canon, Memory.writeLe_wf, havoc_canon]

theorem setMeas_canon {pid m} (hs : s.Canon) : (setMeas s pid m).Canon := by
  unfold setMeas
  grind -linarith -order [foldl_canon, setPcb_canon]

theorem execCreate_canon {pid} (hs : s.Canon) : NextCanon (execCreate pid s) :=
  pcbCommand_canon hs fun _ => by
    grind -linarith -order [pcbDone_canon, foldl_canon_fst, takeUse_canon, setMeas_canon, State.setPart_canon, NextCanon]

theorem fwSpan_canon {pid va n acc} (hs : s.Canon) : (fwSpan s pid va n acc).1.Canon := by
  unfold fwSpan
  grind -linarith -order [netSpan_canon]

theorem writeParts_canon {pid ps bs} (hs : s.Canon) : (writeParts s pid ps bs).Canon := by
  unfold writeParts
  grind -linarith -order [foldl_canon, meetPart_canon, State.linePoison_canon, Memory.writeN_wf]

theorem cleanLeaf_canon {pid e} (hs : s.Canon) : (cleanLeaf pid s e).Canon := by
  unfold cleanLeaf
  grind -linarith -order [meetPart_canon, Memory.writeLe_wf]

theorem harvestRun_canon {pid t r} (hs : s.Canon) (e : harvestRun s pid = some (t, r)) : t.Canon := by
  unfold harvestRun at e
  grind -linarith -order [fwSpan_canon, foldl_canon, cleanLeaf_canon, writeParts_canon, dropXlats_canon, setPcb_canon]

theorem execHarvest_canon {pid} (hs : s.Canon) : NextCanon (execHarvest pid s) :=
  pcbCommand_canon hs fun _ => by
    grind -linarith -order [harvestRun_canon, pcbDone_canon, NextCanon]

theorem closeSessions_canon {pid} (hs : s.Canon) : (closeSessions s pid).Canon := hs

theorem setPartState_canon {pid st} (hs : s.Canon) : (setPartState s pid st).Canon := by
  unfold setPartState
  split <;> exact hs

theorem execStop_canon {pid} (hs : s.Canon) : NextCanon (execStop pid s) :=
  pcbCommand_canon hs fun _ => by
    grind -linarith -order [foldl_canon, stopQueue_canon, State.setPart_canon, markPre_canon, endRec_canon, closeSessions_canon,
      pcbState1_canon, NextCanon]

theorem execStopDrained_canon {pid} (hs : s.Canon) : NextCanon (execStopDrained pid s) := by
  unfold execStopDrained
  grind -linarith -order [harvestRun_canon, pcbStatus_canon, setPartState_canon, NextCanon]

theorem execResume_canon {pid} (hs : s.Canon) : NextCanon (execResume pid s) :=
  pcbCommand_canon hs fun _ => by
    grind -linarith -order [pcbDone_canon, setPartState_canon, NextCanon]

theorem forgetPart_canon {pid} (hs : s.Canon) : (forgetPart s pid).Canon := hs

theorem execTeardown_canon {pid} (hs : s.Canon) : NextCanon (execTeardown pid s) :=
  pcbCommand_canon hs fun _ => by
    grind -linarith -order [foldl_canon, State.setDie_canon, forgetPart_canon, startScrubs_canon, State.setPart_canon,
      closeSessions_canon, pcbState1_canon, NextCanon]

theorem execTeardownDone_canon {pid} (hs : s.Canon) : NextCanon (execTeardownDone pid s) := by
  unfold execTeardownDone
  grind -linarith -order [pcbStatus_canon, NextCanon]

theorem execMeasure_canon {pid} (hs : s.Canon) : NextCanon (execMeasure pid s) :=
  pcbCommand_canon hs fun _ => by
    grind -linarith -order [pcbDone_canon, fwSpan_canon, setMeas_canon, State.setPart_canon, writeParts_canon, NextCanon]

theorem execAttest_canon {pid} (hs : s.Canon) : NextCanon (execAttest pid s) := by
  refine pcbCommand_canon hs fun q => ?_
  dsimp only
  split
  · exact hs
  split <;> rename_i e _ <;> have h1 := canon_of_eq e (fwSpan_canon hs)
  · split <;> rename_i e <;> have h2 := canon_of_eq e (fwSpan_canon h1)
    · exact pcbDone_canon (writeParts_canon h2)
    · exact pcbDone_canon h2
  · exact pcbDone_canon h1

/-! ## Repair, reset and errors -/

theorem beginRepair_canon {d seq} (hs : s.Canon) : (beginRepair s d seq).Canon := by
  unfold beginRepair
  grind -linarith -order [State.setDie_canon, foldl_canon, pushFab_canon, markPre_canon, endRec_canon]

theorem padsKept_canon {d} (hs : s.Canon) : (padsKept s d).Canon := by
  unfold padsKept
  grind -linarith -order [foldl_canon, clearPads_canon]

theorem rejoinDie_canon {d} (hs : s.Canon) : (rejoinDie s d).Canon := padsKept_canon (havoc_canon hs)

theorem loseEntry_canon {core e} (hs : s.Canon) : (loseEntry s core e).Canon := by
  unfold loseEntry
  grind -linarith -order [foldl_canon, endCmdErr_canon, State.setShuttle_canon, countErr_canon]

theorem loseWaiting_canon {core d} (hs : s.Canon) : (loseWaiting s core d).Canon := by
  unfold loseWaiting
  grind -linarith -order [foldl_canon, loseEntry_canon, State.setCore_canon]

theorem fenceDie_canon {d} (hs : s.Canon) : (fenceDie s d).Canon := by
  unfold fenceDie
  grind -linarith -order [pcbDone_canon, State.setDie_canon, foldl_canon, loseWaiting_canon, endCmdErr_canon, reply_canon]

theorem execRepair_canon (hs : s.Canon) : NextCanon (execRepair s) := by
  unfold execRepair
  grind -linarith -order [State.fresh_canon, pcbDone_canon, rejoinDie_canon, fenceDie_canon, beginRepair_canon, NextCanon]

theorem execRepairTimeout_canon {die} (hs : s.Canon) : NextCanon (execRepairTimeout die s) := by
  unfold execRepairTimeout
  grind -linarith -order [fenceDie_canon, NextCanon]

theorem scrubbed_canon {die r} (hs : s.Canon) : (scrubbed s die r).Canon := by
  unfold scrubbed
  grind -linarith -order [clearPads_canon, zeroRange_canon]

theorem warmReset_canon {cause} (hs : s.Canon) : (warmReset s cause).Canon := by
  unfold warmReset
  grind -linarith -order [havoc_canon, foldl_canon, scrubbed_canon]

theorem execModuleReset_canon (hs : s.Canon) : NextCanon (execModuleReset s) := by
  unfold execModuleReset
  grind -linarith -order [warmReset_canon, NextCanon]

theorem execPowerOn_canon : NextCanon (execPowerOn s) := rfl

theorem setBootWord_canon {k v} (hs : s.Canon) : (setBootWord s k v).Canon := by
  unfold setBootWord
  grind -linarith -order [Memory.writeLe_wf]

theorem bootPart_canon {e} (hs : s.Canon) : (bootPart s e).Canon := by
  unfold bootPart
  grind -linarith -order [pcbState1_canon, State.setPart_canon, pcbStatus_canon]

theorem execBootGo_canon {session} (hs : s.Canon) : NextCanon (execBootGo session s) := by
  unfold execBootGo
  grind -linarith -order [setBootWord_canon, foldl_canon, bootPart_canon, pcbStatus_canon, State.setPart_canon, NextCanon]

theorem execThrottleRecover_canon {die} (hs : s.Canon) : NextCanon (execThrottleRecover die s) := by
  unfold execThrottleRecover
  grind -linarith -order [State.setDie_canon, NextCanon]

theorem deferAt_canon {pos pa} (hs : s.Canon) : (deferAt s pos pa).Canon := by
  unfold deferAt
  grind -linarith -order [pushRecord_canon]

theorem poisonMade_canon {pos pa} (hs : s.Canon) : (poisonMade s pos pa).Canon := deferAt_canon hs

theorem strike_canon {u t n} (hs : s.Canon) (e : strike u s = some (t, n)) : t.Canon := by
  unfold strike at e
  grind -linarith -order [State.setDie_canon]

theorem execSoftError_canon {u} (hs : s.Canon) : NextCanon (execSoftError u s) := by
  unfold execSoftError
  grind -linarith -order [countErr_canon, strike_canon, deferAt_canon, poisonMade_canon, NextCanon]

theorem execPatrolScrub_canon {line} (hs : s.Canon) : NextCanon (execPatrolScrub line s) := by
  unfold execPatrolScrub
  grind -linarith -order [meetPart_canon, meetLatent_canon, NextCanon]

/-! ## Compare, select and movement -/

theorem execVslide_canon {h dn vi d a b imm} (hs : s.Canon) : NextCanon (execVslide h dn vi d a b imm s) := by
  unfold execVslide
  grind -linarith -order [vecOp_canon]

theorem packOp_canon {i d a reads f} (hs : s.Canon) : NextCanon (packOp i d a reads f s) :=
  xIssue_canon hs fun _ ht => by
    grind -linarith -order [xFault_canon, XOut.Canon]

/-! ## Columns -/

theorem emitTo_canon {k cs vs t} (hs : s.Canon) (e : emitTo s k cs vs = some t) : t.Canon := by
  induction cs generalizing s vs with
  | nil => cases e; exact hs
  | cons c cs ih =>
    cases vs with
    | nil => cases e; exact hs
    | cons v vs =>
      obtain ⟨co, _, e⟩ := Option.bind_eq_some_iff.1 e
      have h : ({ s with co := co } : State).Canon := hs
      exact ih h e

theorem crun_canon {outs cap step n left} {c : CSt} (hc : c.s.Canon) (hk : ∀ t i j, t.Canon → (step t i j).1.Canon) :
    (crun outs cap step n left c).1.s.Canon := by
  induction n generalizing left c with
  | zero => exact hc
  | succ n ih => unfold crun; grind -linarith -order [emitTo_canon]

theorem cpart_canon {c r} (hk : r.s.Canon) : (cpart c r).Canon := by
  unfold cpart
  grind -linarith -order

theorem colRun_canon {c k0 fuel step fin held} (hs : s.Canon) (hk : ∀ t i j, t.Canon → (step t i j).1.Canon) :
    (colRun c k0 fuel step fin held s).Canon := by
  unfold colRun
  grind -linarith -order [crun_canon, cpart_canon, XOut.Canon]

theorem withElem_canon {c i k} (hs : s.Canon) (hk : ∀ v, (k v).1.Canon) : (withElem s c i k).1.Canon := by
  unfold withElem
  grind -linarith -order

theorem withFresh_canon {c i k} (hs : s.Canon) (hk : ∀ v, (k v).1.Canon) : (withFresh s c i k).1.Canon := by
  unfold withFresh
  grind -linarith -order [withElem_canon]

theorem colPre_canon {c ins types k} (hs : s.Canon) (hk : (k s).Canon) : (colPre c ins types s k).Canon := by
  unfold colPre
  grind -linarith -order [xFault_canon, XOut.Canon]

theorem colGo_canon {c drive fuel step} (hs : s.Canon) (hk : ∀ t i j, t.Canon → (step t i j).1.Canon) :
    (colGo c drive fuel step s).Canon := by
  unfold colGo
  grind -linarith -order [colRun_canon, XOut.Canon]

theorem execCdefArena_canon {h a b e} (hs : s.Canon) : NextCanon (execCdefArena h a b e s) :=
  xIssue_canon hs fun _ ht => by
    grind -linarith -order [xFault_canon, XOut.Canon]

theorem execCdefT_canon {h t d a b} (hs : s.Canon) : NextCanon (execCdefT h t d a b s) :=
  xIssue_canon hs fun _ ht => by
    grind -linarith -order [xFault_canon, XOut.Canon]

theorem execCdefLen_canon {h d a} (hs : s.Canon) : NextCanon (execCdefLen h d a s) :=
  xIssue_canon hs fun _ ht => by
    grind -linarith -order [xFault_canon, XOut.Canon]

theorem cldBody_canon {c d base n} (hs : s.Canon) : (cldBody c d base n s).Canon := by
  unfold cldBody
  grind -linarith -order [colPre_canon, xFault_canon, colGo_canon, check_canon]

theorem execCldSt_canon {h d a y} (hs : s.Canon) : NextCanon (execCldSt h d a y s) :=
  xIssue_canon hs fun _ ht => by
    grind -linarith -order [colPre_canon, xFault_canon, colRun_canon, withFresh_canon, check_canon, XOut.Canon]

theorem execCscat_canon {h k d a b y} (hs : s.Canon) : NextCanon (execCscat h k d a b y s) :=
  xIssue_canon hs fun _ ht => by
    grind -linarith -order [colPre_canon, colRun_canon, withFresh_canon, check_canon, XOut.Canon]

theorem cselBody_canon {c k cc d a b drive} (hs : s.Canon) : (cselBody c k cc d a b s drive).Canon := by
  unfold cselBody
  grind -linarith -order [colPre_canon, colGo_canon, withElem_canon]

theorem cselpBody_canon {c k d a b drive} (hs : s.Canon) : (cselpBody c k d a b s drive).Canon := by
  unfold cselpBody
  grind -linarith -order [colPre_canon, colGo_canon, withElem_canon]

theorem cgathBody_canon {c d a b} (hs : s.Canon) : (cgathBody c d a b s).Canon := by
  unfold cgathBody
  grind -linarith -order [colPre_canon, colGo_canon, withElem_canon]

theorem withKey_canon {c p d k} (hs : s.Canon) (hk : ∀ v, (k v).1.Canon) : (withKey s c p d k).1.Canon := by
  unfold withKey
  grind -linarith -order [withElem_canon]

theorem joinStep_canon {k ca cb i j} (hs : s.Canon) : (joinStep k ca cb s i j).1.Canon := by
  unfold joinStep
  grind -linarith -order [withKey_canon, withElem_canon]

theorem cjoinBody_canon {c k a b} (hs : s.Canon) : (cjoinBody c k a b s).Canon := by
  unfold cjoinBody
  grind -linarith -order [colPre_canon, colGo_canon, joinStep_canon]

theorem cgrpBody_canon {c pos d a} (hs : s.Canon) : (cgrpBody c pos d a s).Canon := by
  unfold cgrpBody
  grind -linarith -order [colPre_canon, colRun_canon, withElem_canon, XOut.Canon]

theorem caggBody_canon {c k sc d a b} (hs : s.Canon) : (caggBody c k sc d a b s).Canon := by
  unfold caggBody
  grind -linarith -order [colPre_canon, colGo_canon, withElem_canon]

theorem cvecAppBody_canon {c h d a} (hs : s.Canon) : (cvecAppBody c h d a s).Canon := by
  unfold cvecAppBody
  grind -linarith -order [colPre_canon, xFault_canon, colRun_canon, XOut.Canon]

theorem execCvecLd_canon {h d a b y} (hs : s.Canon) : NextCanon (execCvecLd h d a b y s) :=
  xIssue_canon hs fun _ ht => by
    grind -linarith -order [colPre_canon, xFault_canon, XOut.Canon]

theorem sortCopy_canon {cd left k l} (hs : s.Canon) : (sortCopy cd s left k l).1.Canon := by
  induction l generalizing s left k with
  | nil => exact hs
  | cons v l ih => unfold sortCopy; grind -linarith -order [emitTo_canon]

theorem sortGo_canon {cd d y n k vals} (hs : s.Canon) : (sortGo cd d y n k vals s).Canon := by
  unfold sortGo
  grind -linarith -order [sortCopy_canon, XOut.Canon]

theorem execCsort_canon {h p dn d a y} (hs : s.Canon) : NextCanon (execCsort h p dn d a y s) :=
  xIssue_canon hs fun _ ht => by
    grind -linarith -order [sortGo_canon, colPre_canon, xFault_canon, havoc_canon, XOut.Canon]

theorem execCres_canon {h o f d a b e y pp} (hs : s.Canon) : NextCanon (execCres h o f d a b e y pp s) :=
  xIssue_canon hs fun _ ht => by
    grind -linarith -order [cldBody_canon, cselBody_canon, cselpBody_canon, cgathBody_canon, cjoinBody_canon, cgrpBody_canon,
      caggBody_canon, cvecAppBody_canon, xFault_canon]

/-! ## Micro-ops -/

theorem micro_canon {body} (hs : s.Canon) (hk : ∀ slot c, (body s slot c).Canon) : NextCanon (micro s body) := by
  unfold micro
  grind -linarith -order [State.setCmd_canon, endCmdErr_canon, NextCanon, MOut.Canon]

theorem putBuf_canon {c d bs p form short} (hs : s.Canon) : (putBuf s c d bs p form short).Canon := by
  unfold putBuf
  split <;> exact hs

theorem rowAddr_canon {pid acc base stride row} (hs : s.Canon) : (rowAddr s pid acc base stride row).1.Canon := by
  unfold rowAddr
  grind -linarith -order [translate_canon, slotStep_canon]

theorem failAcc_canon {c d l ea} (hs : s.Canon) : (failAcc s c d l ea).Canon := hs

theorem readRows_canon {core c n row} (hs : s.Canon) : (readRows core c n row s).1.Canon := by
  induction n generalizing s row with
  | zero => exact hs
  | succ n ih => unfold readRows; grind -linarith -order [rowAddr_canon, engRead_canon]

theorem countHed_canon {core n} (hs : s.Canon) : (countHed s core n).Canon := State.setCore_canon hs

theorem execHrd_canon {d i} (hs : s.Canon) : NextCanon (execHrd d i s) :=
  micro_canon hs fun _ _ => by
    grind -linarith -order [readRows_canon, failAcc_canon, putBuf_canon, countHed_canon, MOut.Canon]

theorem execHcvt_canon {d sa f rm ov src} (hs : s.Canon) : NextCanon (execHcvt d sa f rm ov src s) :=
  micro_canon hs fun _ _ => by
    grind -linarith -order [putBuf_canon, MOut.Canon]

theorem execHfrm_canon {d sa f co mx} (hs : s.Canon) : NextCanon (execHfrm d sa f co mx s) :=
  micro_canon hs fun _ _ => by
    grind -linarith -order [putBuf_canon, MOut.Canon]

theorem execHqnt_canon {d sa f rm ov src mx} (hs : s.Canon) : NextCanon (execHqnt d sa f rm ov src mx s) :=
  micro_canon hs fun _ _ => by
    grind -linarith -order [putBuf_canon, MOut.Canon]

theorem execHunf_canon {d sa f rm ov run} (hs : s.Canon) : NextCanon (execHunf d sa f rm ov run s) :=
  micro_canon hs fun _ _ => by
    grind -linarith -order [putBuf_canon, MOut.Canon]

theorem execHxps_canon {d sa f i} (hs : s.Canon) : NextCanon (execHxps d sa f i s) :=
  micro_canon hs fun _ _ => by
    grind -linarith -order [putBuf_canon, MOut.Canon]

theorem execHprm_canon {d sa f i} (hs : s.Canon) : NextCanon (execHprm d sa f i s) :=
  micro_canon hs fun _ _ => by
    grind -linarith -order [putBuf_canon, MOut.Canon]

theorem execHpak_canon {d sa pad} (hs : s.Canon) : NextCanon (execHpak d sa pad s) :=
  micro_canon hs fun _ _ => by
    grind -linarith -order [putBuf_canon]

theorem execHfold_canon {d sa} (hs : s.Canon) : NextCanon (execHfold d sa s) :=
  micro_canon hs fun _ _ => by
    grind -linarith -order [putBuf_canon]

theorem execHunfold_canon {d sa} (hs : s.Canon) : NextCanon (execHunfold d sa s) :=
  micro_canon hs fun _ _ => by
    grind -linarith -order [putBuf_canon, MOut.Canon]

theorem execHcrc_canon {sa} (hs : s.Canon) : NextCanon (execHcrc sa s) :=
  micro_canon hs fun _ _ => by
    grind -linarith -order [MOut.Canon]

theorem hashRun_canon {core c base h l} (hs : s.Canon) : (hashRun core c base h s l).Canon := by
  induction l generalizing s h with
  | nil => exact hs
  | cons u l ih => unfold hashRun; grind -linarith -order [engRead_canon, failAcc_canon, MOut.Canon]

theorem execHhsh_canon {sa} (hs : s.Canon) : NextCanon (execHhsh sa s) :=
  micro_canon hs fun _ _ => by
    grind -linarith -order [hashRun_canon, MOut.Canon]

theorem wrDone_canon {core c k n wrote} (hs : s.Canon) : (wrDone s core c k n wrote).Canon := countHed_canon hs

theorem pushRuns_canon {k fb runs} (hs : s.Canon) : (pushRuns s k fb runs).Canon := by
  unfold pushRuns
  grind -linarith -order [State.setCore_canon, State.setShuttle_canon]

theorem wrFifo_canon {c rows form p short} (hs : s.Canon) : (wrFifo s c rows form p short).Canon := by
  unfold wrFifo
  grind -linarith -order [pushRuns_canon, wrDone_canon, State.setCmd_canon, MOut.Canon]

theorem destRows_canon {c row l} (hs : s.Canon) : (destRows c row s l).1.Canon := by
  induction l generalizing s row with
  | nil => exact hs
  | cons b l ih =>
    unfold destRows
    split <;> rename_i e <;> have h1 := canon_of_eq e (rowAddr_canon hs)
    · exact h1
    · split
      · rename_i e; exact canon_of_eq e (ih h1)
      · exact ih h1

theorem checkParts_canon {w l} (hs : s.Canon) : (checkParts w s l).1.Canon := by
  induction l generalizing s with
  | nil => exact hs
  | cons p l ih => unfold checkParts; grind -linarith -order [engCheck_canon]

theorem putParts_canon {core slot chunk w p l} (hs : s.Canon) : (putParts core slot chunk w p s l).1.Canon := by
  induction l generalizing s with
  | nil => exact hs
  | cons q l ih => unfold putParts; grind -linarith -order [engWrite_canon]

theorem wrMem_canon {slot c rows p} (hs : s.Canon) : (wrMem s slot c rows p).Canon := by
  unfold wrMem
  grind -linarith -order [destRows_canon, failAcc_canon, checkParts_canon, putParts_canon, wrDone_canon, State.setCmd_canon, MOut.Canon]

theorem execHwr_canon {sa i} (hs : s.Canon) : NextCanon (execHwr sa i s) :=
  micro_canon hs fun _ _ => by
    grind -linarith -order [wrFifo_canon, wrMem_canon, MOut.Canon]

theorem execHloop_canon {l n} (hs : s.Canon) : NextCanon (execHloop l n s) :=
  micro_canon hs fun _ _ => by
    grind -linarith -order [MOut.Canon]

theorem execHnop_canon (hs : s.Canon) : NextCanon (execHnop s) :=
  micro_canon hs fun _ _ => by
    grind -linarith -order [MOut.Canon]

theorem execEndPass_canon (hs : s.Canon) : NextCanon (execEndPass s) := by
  unfold execEndPass
  grind -linarith -order [State.setCmd_canon, endCmdErr_canon, endCmdOk_canon, NextCanon]

/-! ## The debugger -/

theorem execQueueDeadlock_canon (hs : s.Canon) : NextCanon (execQueueDeadlock s) := by
  unfold execQueueDeadlock
  grind -linarith -order [faultX_canon, NextCanon]

theorem execTrapEntry_canon (hs : s.Canon) : NextCanon (execTrapEntry s) := by
  unfold execTrapEntry
  grind -linarith -order [trapEntry_canon, NextCanon]

theorem execTranslationWalk_canon {pid acc va} (hs : s.Canon) : NextCanon (execTranslationWalk pid acc va s) := by
  unfold execTranslationWalk
  grind -linarith -order [translate_canon, NextCanon]

theorem execBpHit_canon (hs : s.Canon) : NextCanon (execBpHit s) := by
  unfold execBpHit
  grind -linarith -order [haltCore_canon, NextCanon]

theorem debugReq_canon {k} (hs : s.Canon) (hk : NextCanon (k s)) : NextCanon (debugReq s k) :=
  partReq_canon hs fun _ => by
    grind -linarith -order [answer_canon]

theorem haltedReq_canon {k} (hs : s.Canon) (hk : NextCanon (k s)) : NextCanon (haltedReq s k) :=
  debugReq_canon hs <| by
    grind -linarith -order [answer_canon]

theorem execDebugHalt_canon (hs : s.Canon) : NextCanon (execDebugHalt s) :=
  debugReq_canon hs <| by
    grind -linarith -order [answer_canon, haltCore_canon]

theorem execDebugResume_canon (hs : s.Canon) : NextCanon (execDebugResume s) :=
  haltedReq_canon hs <| by
    grind -linarith -order [answer_canon]

theorem stepReq_canon {isX} (hs : s.Canon) : NextCanon (stepReq s isX) :=
  haltedReq_canon hs <| by
    grind -linarith -order [answer_canon]

theorem execBp_canon {k addr} (hs : s.Canon) : NextCanon (execBp k addr s) :=
  debugReq_canon hs <| by
    grind -linarith -order [answer_canon]

theorem execDebugRead_canon {off n} (hs : s.Canon) : NextCanon (execDebugRead off n s) :=
  haltedReq_canon hs <| by
    grind -linarith -order [answer_canon]

theorem writeFrame_canon {off val} (hs : s.Canon) : (writeFrame s off val).Canon := by
  unfold writeFrame
  grind -linarith -order

theorem writeArea_canon {off val} (hs : s.Canon) : (writeArea s off val).Canon := by
  unfold writeArea
  extract_lets c r t o
  iterate 5 refine iteInduction (motive := State.Canon) (fun _ => hs) fun _ => ?_
  split
  · split
    · exact hs
    · exact State.setShuttle_canon hs
  · exact hs

theorem viewPut_canon {off val} (hs : s.Canon) : (viewPut s off val).Canon := by
  unfold viewPut
  grind -linarith -order [State.refocus_canon, writeFrame_canon, meetLatent_canon, Memory.writeLe_wf, writeArea_canon]

theorem execDebugWrite_canon {off val} (hs : s.Canon) : NextCanon (execDebugWrite off val s) :=
  haltedReq_canon hs <| by
    grind -linarith -order [answer_canon, viewPut_canon]

/-! ## The reed -/

theorem execXco_canon {h m a} (hs : s.Canon) : NextCanon (execXco h m a s) :=
  xIssue_canon hs fun _ ht => by
    grind -linarith -order [check_canon, XOut.Canon]

theorem execXnext_canon {h d b} (hs : s.Canon) : NextCanon (execXnext h d b s) :=
  xIssue_canon hs fun _ ht => by
    grind -linarith -order [xFault_canon, XOut.Canon]

/-! ## Scalar instructions -/

theorem aluRR_canon {h d a b f} (hs : s.Canon) : NextCanon (aluRR h d a b f s) := aInstr_canon hs (writeA_canon hs)

theorem aluR_canon {h d a f} (hs : s.Canon) : NextCanon (aluR h d a f s) := aInstr_canon hs (writeA_canon hs)

theorem fillPred_canon {d b} (hs : s.Canon) : NextCanon (fillPred d b s) := by
  unfold fillPred
  split <;> exact hs

/-! ## Reductions -/

theorem execVredo_canon {h d a b} (hs : s.Canon) : NextCanon (execVredo h d a b s) :=
  xIssue_canon hs fun _ ht => by
    grind -linarith -order [xFault_canon, XOut.Canon]

/-! ## Every instruction and event -/

theorem exec_canon {i} (hs : s.Canon) : NextCanon (exec i s) := by
  unfold exec
  cases i with
  | add | sub | mul | mulh | div | rem | and | or | xor | sll | srl | sra | min | max => exact aluRR_canon hs
  | clz | ctz | popc | addi | andi | ori | xori | shi | lih => exact aluR_canon hs
  | li | addpc | sel | hstatRd | tnow | tnowSt | tarmClr | srd | frqN | cnt => exact aInstr_canon hs (writeA_canon hs)
  | pcmp | pcmpi => exact aInstr_canon hs (fillPred_canon hs)
  | plog | psetAll | psetLt | psetMod | psetBits | pcnt | pfirst | mtl | clen | clenCap | clenDesc | clenArena
  | ccurClr | ccurRd | ccurWr | xcurRdl | xcurRdh | xcurWrl | xcurWrh | xcurClr => exact xPlain_canon hs
  | br => exact execBr_canon hs
  | jmp => exact aInstr_canon hs (leaveTo_canon hs)
  | call => exact aInstr_canon hs (jumpA_canon hs)
  | ret => exact execRet_canon hs
  | jr => exact execJr_canon hs
  | loop | loopx => exact aInstr_canon hs (loopStart_canon hs)
  | loopEnd => exact execLoopEnd_canon hs
  | xsync => exact execXsync_canon hs
  | xsyncI => exact execXsyncI_canon hs
  | xnop | mownRd => exact xIssue_canon hs fun _ ht => ht
  | nop => exact aInstr_canon hs (doneA_canon hs)
  | ld => exact execLd_canon hs
  | st => exact execSt_canon hs
  | stnb => exact execStnb_canon hs
  | ldq => exact execLdq_canon hs
  | ldqG => exact execLdqG_canon hs
  | ldqX => exact execLdqX_canon hs
  | ldqR => exact execLdqR_canon hs
  | qmovXq => exact execQmovXq_canon hs
  | qmovQx => exact execQmovQx_canon hs
  | qmovQq => exact execQmovQq_canon hs
  | amo | amocas => exact aInstr_canon hs (atomA_canon hs)
  | red => exact execRed_canon hs
  | fas => exact execFas_canon hs
  | fence => exact execFence_canon hs
  | fenceWl => exact execFenceWl_canon hs
  | fenceXa => exact execFenceXa_canon hs
  | barInit => exact execBarInit_canon hs
  | barArv => exact execBarArv_canon hs
  | barExp => exact execBarExp_canon hs
  | barWt => exact execBarWt_canon hs
  | barTwt => exact execBarTwt_canon hs
  | barTwtDeadline => exact execBarTwtDeadline_canon hs
  | tileStRd | tileStArm | tileStDone | tileStAbort | tileStRel => exact tileSt_canon hs
  | tileWt => exact execTileWt_canon hs
  | wlb => exact execWlb_canon hs
  | wlbWt => exact execWlbWt_canon hs
  | writeLanePerform => exact execWriteLanePerform_canon hs
  | wlbudRefill => exact refillBudgets_canon hs
  | vsetl => exact execVsetl_canon hs
  | vld => exact vldAt_canon hs
  | vlds => exact vldsAt_canon hs
  | vldx => exact vldxAt_canon hs
  | vst | vsts => exact vstore_canon hs
  | vstx => exact execVstx_canon hs
  | vldq => exact execVldq_canon hs
  | vadd | vsub | vmul | vmin | vmax | vand | vor | vxor | vmulh => exact elem2_canon hs
  | vfma | vfms => exact fused_canon hs
  | vabs | vneg | vsfu => exact elem1_canon hs
  | vsll | vsrl | vsra => exact shiftOp_canon hs
  | vdot2 | vmacw | vnarrow | vwiden | vcmp | vsel | vperm | vbcast | vbcastEl | vmovx | vmovxV | vred | vscan | viota
  | viotaIdx | vscl => exact vecOp_canon hs
  | vcvt => exact execVcvt_canon hs
  | vslide => exact execVslide_canon hs
  | vredo => exact execVredo_canon hs
  | vcompress | vexpand => exact packOp_canon hs
  | vpush => exact execVpush_canon hs
  | mbind => exact execMbind_canon hs
  | mfill => exact execMfill_canon hs
  | mma => exact execMma_canon hs
  | mzero => exact execMzero_canon hs
  | mrd => exact execMrd_canon hs
  | mwr => exact execMwr_canon hs
  | mbs => exact execMbs_canon hs
  | mbsRd => exact execMbsRd_canon hs
  | mdrain => exact execMdrain_canon hs
  | mownAcq => exact execMownAcq_canon hs
  | mownTry => exact execMownTry_canon hs
  | mownRel => exact execMownRel_canon hs
  | holdLimit => exact execHoldLimit_canon hs
  | cdefArena => exact execCdefArena_canon hs
  | cdefT => exact execCdefT_canon hs
  | cdefLen => exact execCdefLen_canon hs
  | cld => exact xIssue_canon hs fun _ ht => cldBody_canon ht
  | cldSt => exact execCldSt_canon hs
  | csel => exact xIssue_canon hs fun _ ht => cselBody_canon ht
  | cselp => exact xIssue_canon hs fun _ ht => cselpBody_canon ht
  | cgath => exact xIssue_canon hs fun _ ht => cgathBody_canon ht
  | cscat => exact execCscat_canon hs
  | cjoin => exact xIssue_canon hs fun _ ht => cjoinBody_canon ht
  | csort => exact execCsort_canon hs
  | cgrp | cuniq => exact xIssue_canon hs fun _ ht => cgrpBody_canon ht
  | cagg => exact xIssue_canon hs fun _ ht => caggBody_canon ht
  | cres => exact execCres_canon hs
  | cvecLd => exact execCvecLd_canon hs
  | cvecApp => exact xIssue_canon hs fun _ ht => cvecAppBody_canon ht
  | hcopy => exact execHcopy_canon hs
  | hxfm => exact execHxfm_canon hs
  | hprog => exact execHprog_canon hs
  | hfab => exact execHfab_canon hs
  | chunkFinish => exact execChunkFinish_canon hs
  | peerTimeout => exact execPeerTimeout_canon hs
  | hstatWt => exact execHstatWt_canon hs
  | hstatRel => exact execHstatRel_canon hs
  | hstatAbort => exact execHstatAbort_canon hs
  | hcsumRd => exact execHcsumRd_canon hs
  | hcsumSet => exact execHcsumSet_canon hs
  | hcsumChk => exact execHcsumChk_canon hs
  | xco => exact execXco_canon hs
  | xnext => exact execXnext_canon hs
  | tarm => exact execTarm_canon hs
  | timerFire => exact execTimerFire_canon hs
  | trap => exact aInstr_canon hs (trapNext_canon hs)
  | eret => exact aInstr_canon hs (trapReturn_canon hs)
  | swr => exact execSwr_canon hs
  | halt => exact execHalt_canon hs
  | bkpt => exact execBkpt_canon hs
  | yield => exact execYield_canon hs
  | xinvPg => exact execXinvPg_canon hs
  | xinvAll => exact execXinvAll_canon hs
  | keyz => exact execKeyz_canon hs
  | scrubSt => exact execScrubSt_canon hs
  | scrubRd => exact execScrubRd_canon hs
  | scrubWt => exact execScrubWt_canon hs
  | scrubGranule => exact execScrubGranule_canon hs
  | scrubPendingStart => exact execScrubPendingStart_canon hs
  | frqPop => exact execFrqPop_canon hs
  | wfe => exact execWfe_canon hs
  | hrd => exact execHrd_canon hs
  | hwr => exact execHwr_canon hs
  | hcvt => exact execHcvt_canon hs
  | hqnt => exact execHqnt_canon hs
  | hfrm => exact execHfrm_canon hs
  | hunf => exact execHunf_canon hs
  | hxps => exact execHxps_canon hs
  | hprm => exact execHprm_canon hs
  | hpak => exact execHpak_canon hs
  | hfold => exact execHfold_canon hs
  | hunfold => exact execHunfold_canon hs
  | hcrc => exact execHcrc_canon hs
  | hhsh => exact execHhsh_canon hs
  | hloop => exact execHloop_canon hs
  | endPass => exact execEndPass_canon hs
  | hnop => exact execHnop_canon hs
  | queueDeadlock => exact execQueueDeadlock_canon hs
  | trapEntry => exact execTrapEntry_canon hs
  | translationWalk => exact execTranslationWalk_canon hs
  | bpHit => exact execBpHit_canon hs
  | debugHalt => exact execDebugHalt_canon hs
  | debugResume => exact execDebugResume_canon hs
  | stepA | stepX => exact stepReq_canon hs
  | debugRead => exact execDebugRead_canon hs
  | debugWrite => exact execDebugWrite_canon hs
  | bp => exact execBp_canon hs
  | queueTailRead => exact execQueueTailRead_canon hs
  | recordPlace => exact execRecordPlace_canon hs
  | allocPreempt => exact execAllocPreempt_canon hs
  | timedLaunch => exact launchRec_canon hs
  | preemptRequest => exact execPreemptRequest_canon hs
  | preemptTimeout => exact execPreemptTimeout_canon hs
  | saveComplete => exact execSaveComplete_canon hs
  | recordResume => exact execRecordResume_canon hs
  | kill => exact execKill_canon hs
  | tokenRefill => exact dueRefill_canon hs
  | tokenCharge => exact dueCharge_canon hs
  | transportWrite => exact execTransportWrite_canon hs
  | transportRead => exact execTransportRead_canon hs
  | transportAtomic => exact execTransportAtomic_canon hs
  | fabricWritePerform => exact execFabricWritePerform_canon hs
  | portDown => exact execPortDown_canon hs
  | featureOffer => exact execFeatureOffer_canon hs
  | featureAccept => exact execFeatureAccept_canon hs
  | queueReg => exact execQueueReg_canon hs
  | queueDereg => exact execQueueDereg_canon hs
  | fabricMap => exact execFabricMap_canon hs
  | xlatRoot => exact execXlatRoot_canon hs
  | barGrant => exact execBarGrant_canon hs
  | barFree => exact execBarFree_canon hs
  | gangReg => exact execGangReg_canon hs
  | gangReq => exact execGangReq_canon hs
  | teleRd => exact execTeleRd_canon hs
  | gangSwitch => exact execGangSwitch_canon hs
  | confirm => exact execConfirm_canon hs
  | gangStop => exact execGangStop_canon hs
  | gangGo => exact execGangGo_canon hs
  | gangAck => exact execGangAck_canon hs
  | gangRefuse => exact execGangRefuse_canon hs
  | gangSwitched => exact execGangSwitched_canon hs
  | gangLapsed => exact execGangLapsed_canon hs
  | gangWindowLapse => exact execGangWindowLapse_canon hs
  | gangSwitchTime => exact execGangSwitchTime_canon hs
  | switchingDone => exact execSwitchingDone_canon hs
  | stragglerTimeout => exact execStragglerTimeout_canon hs
  | ptpOffset => exact execPtpOffset_canon hs
  | syncTimeout => exact enterHoldover_canon hs
  | announceTimeout => exact execAnnounceTimeout_canon hs
  | holdoverExpiry => exact execHoldoverExpiry_canon hs
  | patrolScrub => exact execPatrolScrub_canon hs
  | create => exact execCreate_canon hs
  | stop => exact execStop_canon hs
  | stopDrained => exact execStopDrained_canon hs
  | teardown => exact execTeardown_canon hs
  | teardownDone => exact execTeardownDone_canon hs
  | harvest => exact execHarvest_canon hs
  | measure => exact execMeasure_canon hs
  | resume => exact execResume_canon hs
  | attest => exact execAttest_canon hs
  | repair => exact execRepair_canon hs
  | repairTimeout => exact execRepairTimeout_canon hs
  | moduleReset => exact execModuleReset_canon hs
  | powerOn => exact execPowerOn_canon
  | watchdogReset | thermalReset => exact warmReset_canon hs
  | bootGo => exact execBootGo_canon hs
  | throttle => exact hs
  | throttleRecover => exact execThrottleRecover_canon hs
  | softError => exact execSoftError_canon hs
  | sessionBind => exact execSessionBind_canon hs
  | unsupportedPacket => exact dropAt_canon hs

/-! ## Turns -/

theorem fetch_canon (hs : s.Canon) : (fetch s).1.Canon := by
  have ht : ∀ {s pid va acc}, s.Canon → (translate s pid va acc).1.Canon := translate_canon
  generalize hf : fetch = f
  delta fetch at hf
  revert ht hf
  induction translate using of_forall with | _ tr
  induction windowOf using of_forall with | _ window
  induction checkPhys using of_forall with | _ phys
  induction walkMeets using of_forall with | _ meets
  intro ht hf
  subst hf
  grind -linarith -order

theorem dispatch_canon {i} (hs : s.Canon) : NextCanon (dispatch i s) := by
  unfold dispatch
  grind -linarith -order [waitA_canon, NextCanon]

theorem serve_canon {k i} (hs : s.Canon) : NextCanon (serve k i s) := by
  unfold serve
  grind -linarith -order [exec_canon, NextCanon]

theorem served_canon {k before r} (hk : NextCanon r) : NextCanon (served k before r) := by
  unfold served
  grind -linarith -order [NextCanon]

theorem execServed_canon {i} (hs : s.Canon) : NextCanon (execServed i s) := by
  unfold execServed
  grind -linarith -order [exec_canon, waitX_canon, waitA_canon, served_canon, serve_canon]

theorem execLate_canon {i} (hs : s.Canon) : NextCanon (execLate i s) := by
  unfold execLate
  grind -linarith -order [startLd_canon, startLdq_canon, startLdqG_canon, vldAt_canon, vldsAt_canon, vldxAt_canon, execServed_canon]

theorem loadReturn_canon {core k} (hs : s.Canon) : (loadReturn s core k).Canon := by
  unfold loadReturn
  grind -linarith -order [State.setCore_canon, State.setShuttle_canon]

theorem runWord_canon {late w} (hs : s.Canon) : NextCanon (runWord late w s) := by
  unfold runWord
  grind -linarith -order [dispatch_canon, raiseA_canon, execLate_canon, execServed_canon, NextCanon]

theorem aFetch_canon {late} (hs : s.Canon) : NextCanon (aFetch late s) := by
  have h := fetch_canon hs
  generalize hf : aFetch = f
  delta aFetch at hf
  revert h hf
  induction fetch using of_forall with | _ fe
  intro h hf
  subst hf
  grind -linarith -order [faultA_canon, waitA_canon, runWord_canon]

theorem passed_canon {before r} (hk : NextCanon r) : NextCanon (passed before r) := by
  unfold passed
  grind -linarith -order [NextCanon]

theorem stepEnds_canon {before isX r} (hk : NextCanon r) : NextCanon (stepEnds before isX r) := by
  unfold stepEnds
  grind -linarith -order [haltCore_canon, NextCanon]

theorem aNext_canon {late} (hs : s.Canon) : NextCanon (aNext late s) := by
  unfold aNext
  grind -linarith -order [exec_canon, waitA_canon, passed_canon, aFetch_canon]

theorem aTurn_canon {late} (hs : s.Canon) : NextCanon (aTurn late s) := by
  unfold aTurn
  grind -linarith -order [stepEnds_canon, exec_canon, haltCore_canon, trySave_canon, aNext_canon, NextCanon]

theorem xTurn_canon {late} (hs : s.Canon) : NextCanon (xTurn late s) := by
  unfold xTurn
  grind -linarith -order [waitX_canon, stepEnds_canon, execLate_canon, execServed_canon, NextCanon]

theorem xTurnPart_canon {n} (hs : s.Canon) : NextCanon (xTurnPart n s) := by
  unfold xTurnPart
  grind -linarith -order [xTurn_canon, NextCanon]

theorem heddleTurn_canon {core slot chunk} (hs : s.Canon) : NextCanon (heddleTurn s core slot chunk) := by
  unfold heddleTurn
  grind -linarith -order [State.refocus_canon, exec_canon, moveChunk_canon, NextCanon]

theorem tick_canon {k} (hs : s.Canon) : (tick s k).Canon := by
  unfold tick
  grind -linarith -order [State.setCore_canon]

theorem engineReset_canon {k} (hs : s.Canon) : (engineReset s k).Canon := by
  unfold engineReset
  grind -linarith -order [foldl_canon, endCmdErr_canon, setEntry_canon]

theorem dropXlat_canon {k} (hs : s.Canon) : (dropXlat s k).Canon := by
  unfold dropXlat
  grind -linarith -order

theorem gangArrives_canon {sender ws} (hs : s.Canon) : NextCanon (gangArrives sender ws s) := by
  unfold gangArrives
  grind -linarith -order [execGangSwitch_canon, execConfirm_canon, execGangStop_canon, execGangGo_canon, execGangAck_canon,
    execGangRefuse_canon, execGangSwitched_canon, execGangLapsed_canon, otherGang_canon, NextCanon]

theorem runTurn_canon {t} (hs : s.Canon) : NextCanon (runTurn t s) := by
  unfold runTurn
  grind -linarith -order [aTurn_canon, State.refocus_canon, loadReturn_canon, xTurn_canon, xTurnPart_canon, heddleTurn_canon, tick_canon,
    passTime_canon, engineReset_canon, dropXlat_canon, peerAck_canon, bootRefuse_canon, gangArrives_canon, otherRequest_canon,
      exec_canon, NextCanon]

theorem nextTurn_canon (hs : s.Canon) : (nextTurn s).2.Canon := by
  unfold nextTurn
  grind -linarith -order [settleMet_canon]

/-! ## The step -/

theorem step_canon (hs : s.Canon) : NextCanon (step s) :=
  runTurn_canon (nextTurn_canon hs)

/-! ## The statement -/

/-- Settles O5: a turn is made of operations that each keep the canonical form, so the state a step answers has it (R2, R263, R365). -/
theorem memoryInvariant : Obligations.MemoryInvariant := by
  unfold Obligations.MemoryInvariant
  intro s t hs e
  have h := step_canon hs
  rw [e] at h
  exact h

end Sys2Proof.Machine
end

section
/-! SUPPORT. What a ready vector instruction that acts on its shuttle alone does: the shuttle at issue, what issue leaves of the register files, the
group checks, and the element-wise instructions of one, two and three operands. -/

namespace Sys2Proof.Machine

/-! ## The shuttle at issue -/

theorem atIssue_sh (s : State) (i : Instr) :
    (s.atIssue i).sh = { s.sh with flight := (s.sh.settle (issueCycle i s)).flight, fflags := 0, sat := false } := by
  simp [State.atIssue, Shuttle.noFlags, Shuttle.settle_eq]

@[simp] theorem atIssue_et (s : State) (i : Instr) : (s.atIssue i).sh.et = s.sh.et := by rw [atIssue_sh]; rfl
@[simp] theorem atIssue_grp (s : State) (i : Instr) : (s.atIssue i).sh.grp = s.sh.grp := by rw [atIssue_sh]; rfl
@[simp] theorem atIssue_grp2 (s : State) (i : Instr) (e : EType) : (s.atIssue i).sh.grp2 e = s.sh.grp2 e := by rw [atIssue_sh]; rfl
@[simp] theorem atIssue_eper (s : State) (i : Instr) (e : EType) : (s.atIssue i).sh.eper e = s.sh.eper e := by rw [atIssue_sh]; rfl
@[simp] theorem atIssue_lanes (s : State) (i : Instr) : (s.atIssue i).sh.lanes = s.sh.lanes := by rw [atIssue_sh]
@[simp] theorem atIssue_vlen (s : State) (i : Instr) : (s.atIssue i).sh.vlen = s.sh.vlen := by rw [atIssue_sh]
@[simp] theorem atIssue_active (s : State) (i : Instr) (h : Hd) : (s.atIssue i).sh.active h = s.sh.active h := by rw [atIssue_sh]; rfl
@[simp] theorem atIssue_actives (s : State) (i : Instr) (h : Hd) : (s.atIssue i).sh.actives h = s.sh.actives h := by rw [atIssue_sh]; rfl
@[simp] theorem atIssue_elem (s : State) (i : Instr) (n : Nat) : (s.atIssue i).sh.elem n = s.sh.elem n := by rw [atIssue_sh]; rfl
@[simp] theorem atIssue_vread (s : State) (i : Instr) (n : Nat) : (s.atIssue i).sh.vread n = s.sh.vread n := by rw [atIssue_sh]; rfl
@[simp] theorem atIssue_vreg (s : State) (i : Instr) (n : Nat) : (s.atIssue i).sh.vreg n = s.sh.vreg n := by rw [atIssue_sh]; rfl
@[simp] theorem atIssue_srcB (s : State) (i : Instr) (b : Fin 64) : (s.atIssue i).sh.srcB b = s.sh.srcB b := by rw [atIssue_sh]; rfl


/-! ## What issue leaves of the registers -/

section
variable (s : State) (i : Instr) (e : State)

@[simp] theorem issued_v : (s.issued i e).sh.v = e.sh.v := by
  unfold State.issued afterIssue; dsimp only; rw [Shuttle.cleanP_eq]; simp
@[simp] theorem issued_x : (s.issued i e).sh.x = e.sh.x := by
  unfold State.issued afterIssue; dsimp only; rw [Shuttle.cleanP_eq]; simp
@[simp] theorem issued_vstart : (s.issued i e).sh.vstart = e.sh.vstart := by
  unfold State.issued afterIssue; dsimp only; rw [Shuttle.cleanP_eq]; simp
@[simp] theorem issued_redst : (s.issued i e).sh.redst = e.sh.redst := by
  unfold State.issued afterIssue; dsimp only; rw [Shuttle.cleanP_eq]; simp
@[simp] theorem issued_lanes : (s.issued i e).sh.lanes = e.sh.lanes := by
  unfold State.issued afterIssue; dsimp only; rw [Shuttle.cleanP_eq]; simp
@[simp] theorem issued_vreg (r : Nat) : (s.issued i e).sh.vreg r = e.sh.vreg r := by simp [Shuttle.vreg]
@[simp] theorem issued_elem (n j : Nat) (ty : EType) : (s.issued i e).sh.elem n j ty = e.sh.elem n j ty :=
  elem_congr (by simp) (by simp) n j ty

end

/-- The flags an effect gathers are the flags raised. -/
theorem issued_raises {s : State} {i : Instr} {e : State} {g : Nat} (hf : e.sh.flight = (s.atIssue i).sh.flight)
    (h5 : e.sh.fflags = BitVec.ofNat 5 g) (hs : e.sh.sat = bitAt g 5) : Raises s (s.issued i e) g := by
  obtain ⟨h1, h2⟩ := State.issued_flags (s := s) (i := i) hf
  exact ⟨by rw [h1, h5], by rw [h2, hs]⟩

/-- Elements of a group after the active ones are written: they hold what is written, the others keep their codes (R15, R141). -/
theorem elem_vwrites_actives {t : Shuttle} {h : Hd} {d g j : Nat} {e : EType} {v : Nat → Nat} (hl : 1 ≤ t.lanes) (hl2 : t.lanes ≤ 32)
    (hn : d + g ≤ 64) (hg : t.vlen.toNat ≤ g * t.eper e) (hj : j < g * t.eper e) :
    (t.vwrites d e ((t.actives h).map (fun k => (k, v k)))).elem d j e = if t.active h j then v j % 2 ^ e.bits else t.elem d j e := by
  rw [elem_vwrites hl hl2 hn hg hj]
  by_cases ha : t.active h j = true
  · rw [find_map_of_mem (mem_actives.2 ⟨active_lt ha, ha⟩) (active_lt ha)]
    simp [ha]
  · rw [find_map_of_not_mem (fun hm => ha (mem_actives.1 hm).2)]
    simp [ha]

/-- Any property of an instruction's effect may be exchanged for one it implies. -/
theorem Does.imp {i : Instr} {s : State} {l : List Piece} {P Q : State → Prop} (h : Does i s l P) (hpq : ∀ t, P t → Q t) : Does i s l Q := by
  obtain ⟨t, hx, hi, ho, hp⟩ := h
  exact ⟨t, hx, hi, ho, hpq t hp⟩

/-- An effect on the vector file that raises flags and sets `vstart` to 0 (R15, R141). -/
theorem does_vfile {i : Instr} {s : State} {u : Shuttle} {fl : Nat} {l : List Piece} (hu : (s.atIssue i).sh.sameButV u)
    (hx : exec i s = .next (s.issued i { s.atIssue i with sh := (u.flag fl).vdone }))
    (hp : ∀ r ∈ (xRegs s.sh (s.sh.vlmax s.sh.et s.sh.grp) i).w, ∀ n, r ≠ .p n)
    (hv : .v ∈ l) (hvs : .vstart ∈ l) (hf : .flags ∈ l ∨ fl = 0) :
    Does i s l (fun t => t.sh.vstart = 0 ∧ t.sh.v = u.v ∧ t.sh.lanes = s.sh.lanes ∧ Raises s t fl) := by
  unfold Shuttle.sameButV at hu
  generalize u.v = v, u.vdirty = vd, u.vpoison = vp at hu
  subst hu
  refine issued_does hx ?_ ?_ rfl ?_ ?_ (.inr hp) ⟨?_, ?_, ?_, ?_⟩
  · simp [atIssue_sh]
  · simp [atIssue_sh]
  · intro k hk
    cases k
    case others => exact ⟨rfl, fun k hk => List.mem_of_mem_filter hk⟩
    case flags =>
      obtain rfl := hf.resolve_left hk
      simp [Piece.same, Shuttle.landAll_eq, Shuttle.flag, bitAt, bitsAt]
    case v => exact absurd hv hk
    case vstart => exact absurd hvs hk
    all_goals simp [Piece.same]
  · exact hf.imp_right (fun h0 => by simp [h0, Shuttle.flag, atIssue_sh, bitAt, bitsAt])
  · simp
  · simp
  · simp
  · refine issued_raises ?_ ?_ ?_ <;> simp [Shuttle.flag, atIssue_sh]

/-- An effect that writes the active elements of the group of g registers at d, raises flags and sets `vstart` to 0 (R15, R141, R155). -/
theorem does_vwrites {i : Instr} {s : State} {h : Hd} {d : Fin 64} {e : EType} {g fl : Nat} {v : Nat → Nat} {l : List Piece}
    (hs : s.shaped) (hd : d.val + g ≤ 64) (hg : s.sh.vlen.toNat ≤ g * s.sh.eper e)
    (hx : exec i s = .next (s.issued i { s.atIssue i with
      sh := (((s.atIssue i).sh.vwrites d.val e ((s.sh.actives h).map (fun k => (k, v k)))).flag fl).vdone }))
    (hp : ∀ r ∈ (xRegs s.sh (s.sh.vlmax s.sh.et s.sh.grp) i).w, ∀ n, r ≠ .p n)
    (hv : .v ∈ l) (hvs : .vstart ∈ l) (hf : .flags ∈ l ∨ fl = 0) :
    Does i s l (fun t => t.sh.vstart = 0 ∧ Puts s t d e g (onActive s h (fun j => v j % 2 ^ e.bits)) ∧ Raises s t fl) := by
  obtain ⟨hl, hl2, -⟩ := hs
  have hb := vwrites_sameButV (s.atIssue i).sh d.val e ((s.sh.actives h).map (fun k => (k, v k)))
  refine (does_vfile hb hx hp hv hvs hf).imp (fun t ⟨h0, hv, hln, hr⟩ => ⟨h0, ⟨fun j hj => ?_, fun r hr => ?_⟩, hr⟩)
  · have hu := congrArg Shuttle.lanes hb
    have he := elem_vwrites_actives (t := (s.atIssue i).sh) (h := h) (v := v) (by simpa using hl) (by simpa using hl2) hd (by simpa using hg)
      (by simpa using hj)
    rw [atIssue_actives] at he
    rw [elem_congr hv (by rw [hln, hu]; simp) d.val j e, he]
    simp only [atIssue_active, atIssue_elem, onActive]
    split <;> rfl
  · rw [Shuttle.vreg, hv]
    exact (vreg_vwrites (by simpa using hl) hd (by simpa using hg) hr).trans (by simp)

/-! ## Groups of registers -/

theorem grp_cases (t : Shuttle) : t.grp = 1 ∨ t.grp = 2 ∨ t.grp = 4 ∨ t.grp = 8 := by
  have h : bitsAt t.vtype.toNat 12 2 < 4 := Nat.mod_lt _ (by decide)
  unfold Shuttle.grp
  interval_cases bitsAt t.vtype.toNat 12 2 <;> simp

theorem grp_le (t : Shuttle) : t.grp ≤ 8 := by
  rcases grp_cases t with h | h | h | h <;> omega

@[simp] theorem grp2_et (t : Shuttle) : t.grp2 t.et = t.grp := by
  unfold Shuttle.grp2
  rw [Nat.mul_div_cancel _ (EType.bits_pos _)]
  rcases grp_cases t with h | h | h | h <;> simp [h]

/-- An aligned group lies in the register file. -/
theorem aligned_fits {t : Shuttle} {d : Fin 64} (h : aligned d t.grp = true) : d.val + t.grp ≤ 64 := by
  have hd := d.isLt
  simp only [aligned, beq_iff_eq] at h
  rcases grp_cases t with hg | hg | hg | hg <;> rw [hg] at h ⊢ <;> omega

/-- An operand of some type has a group of at most 8 registers that starts at a multiple of its size (R13, R142). -/
def Shuttle.grouped (t : Shuttle) (o : Fin 64 × EType) : Prop := t.grp * o.2.bits ≤ 8 * t.et.bits ∧ aligned o.1 (t.grp2 o.2) = true

theorem grouped_et {t : Shuttle} {d : Fin 64} (h : aligned d t.grp = true) : t.grouped (d, t.et) :=
  ⟨Nat.mul_le_mul_right _ (grp_le t), by simpa using h⟩

theorem groupCheck_none {t : Shuttle} {l : List (Fin 64 × EType)} (h : ∀ o ∈ l, t.grouped o) : t.groupCheck l = none := by
  have h1 : l.any (fun o => decide (8 < t.grp * o.2.bits / t.et.bits)) = false := by
    simp only [List.any_eq_false, decide_eq_true_eq, Nat.not_lt]
    exact fun o ho => Nat.div_le_of_le_mul (by have := (h o ho).1; omega)
  have h2 : l.any (fun o => !aligned o.1 (t.grp2 o.2)) = false := by
    simp only [List.any_eq_false]
    exact fun o ho => by simp [(h o ho).2]
  cases l with
  | nil => rfl
  | cons o r => simp only [Shuttle.groupCheck, h1, h2, Bool.false_eq_true, if_false]

theorem vGroup_no_p {d : Fin 64} {g : Nat} : ∀ r ∈ vGroup d g, ∀ n, r ≠ .p n := by
  simp [vGroup]

/-! ## Vector instructions that act on the shuttle alone -/

theorem atIssue_grouped {s : State} {i : Instr} {o : Fin 64 × EType} : (s.atIssue i).sh.grouped o ↔ s.sh.grouped o := by
  simp [Shuttle.grouped]

theorem atIssue_poisonRead {s : State} {i : Instr} (h : s.sh.vpoison = []) (l : List (Nat × Nat × EType)) :
    (s.atIssue i).sh.poisonRead l = none := by
  rw [atIssue_sh]; simp [Shuttle.poisonRead, h]

section
variable {i : Instr} {s : State} {ok : Shuttle → Bool} {groups : Shuttle → List (Fin 64 × EType)}
  {reads : Shuttle → List (Nat × Nat × EType)} {f : Shuttle → Shuttle}

/-- One whose type is not accepted is refused (R142). -/
theorem vecOp_refuses (hx : exec i s = vecOp i s ok groups reads f) (hk : ok (s.atIssue i).sh = false) (hr : XReady i s) :
    Faults i s (flt 0x04 4 true) := by
  refine xIssue_faults hr ?_ rfl hx
  simp only [hk]
  rfl

/-- One that passes its checks makes its effect. -/
theorem vecOp_done (hx : exec i s = vecOp i s ok groups reads f) (hk : ok (s.atIssue i).sh = true)
    (hg : ∀ o ∈ groups (s.atIssue i).sh, s.sh.grouped o) (hp : s.sh.vpoison = []) (hr : XReady i s) :
    exec i s = .next (s.issued i { s.atIssue i with sh := f (s.atIssue i).sh }) := by
  rw [hx]
  refine xIssue_done hr ?_
  simp only [hk, groupCheck_none (fun o ho => atIssue_grouped.2 (hg o ho)), atIssue_poisonRead hp]
  rfl

end

theorem writeElems_eq (t : Shuttle) (h : Hd) (d : Nat) (e : EType) (f : Nat → CF) :
    t.writeElems h d e f = ((t.vwrites d e ((t.actives h).map (fun k => (k, (f k).1)))).flag ((t.actives h).foldr (fun j g => g ||| (f j).2) 0)).vdone := by
  simp only [Shuttle.writeElems, elemMap_fst, elemMap_snd]

/-- Only the results of active elements count. -/
theorem writeElems_congr {t : Shuttle} {h : Hd} {d : Nat} {e : EType} {f g : Nat → CF} (hfg : ∀ j, t.active h j = true → f j = g j) :
    t.writeElems h d e f = t.writeElems h d e g := by
  have hm : ∀ j ∈ t.actives h, f j = g j := fun j hj => hfg j (mem_actives.1 hj).2
  have hz : elemMap (t.actives h) f = elemMap (t.actives h) g := by
    refine Prod.ext ?_ ?_
    · rw [elemMap_fst, elemMap_fst]
      exact List.map_congr_left (fun j hj => by rw [hm j hj])
    · rw [elemMap_snd, elemMap_snd]
      exact List.foldr_ext _ _ _ (fun j hj b => by rw [hm j hj])
  simp only [Shuttle.writeElems, hz]

/-- An element below `vlen` is read from its register (R15). -/
theorem vread_active {t : Shuttle} {h : Hd} {j : Nat} (ha : t.active h j = true) (n : Nat) (e : EType) : t.vread n j e = t.elem n j e := by
  have := active_lt ha
  simp only [Shuttle.vread]
  rw [if_neg (by omega)]

/-- The second operand of an active element: a scalar's low bits or the element of a group (R154). -/
def State.operandB (s : State) (vx : Bool) (b : Fin 64) (j : Nat) : Nat :=
  if vx then (s.sh.srcB b).toNat % 2 ^ s.sh.et.bits else s.sh.elem b.val j s.sh.et

theorem opB_active {s : State} {i : Instr} {h : Hd} {j : Nat} (ha : s.sh.active h j = true) (vx : Bool) (b : Fin 64) :
    opB (s.atIssue i).sh vx b j = s.operandB vx b j := by
  simp only [opB, State.operandB, atIssue_srcB, atIssue_et, atIssue_vread, vread_active ha]

/-- What an element-wise instruction gives with its result at the group of `vtype` at d: each active element its value, and the flags of the
active elements together (R15, R18, R141, R155). -/
def Gives (i : Instr) (s : State) (h : Hd) (d : Fin 64) (f : Nat → CF) : Prop :=
  Does i s [.v, .vstart, .flags] (fun t => t.sh.vstart = 0 ∧
    Puts s t d s.sh.et s.sh.grp (onActive s h (fun j => (f j).1 % 2 ^ s.sh.et.bits)) ∧ Raises s t (flagsOf s h (fun j => (f j).2)))

/-- An instruction whose effect is element results gives them. -/
theorem gives_of_writeElems {i : Instr} {s : State} {h : Hd} {d : Fin 64} {f F : Nat → CF} (hs : s.shaped) (hd : aligned d s.sh.grp = true)
    (hx : exec i s = .next (s.issued i { s.atIssue i with sh := (s.atIssue i).sh.writeElems h d.val s.sh.et f }))
    (hw : (xRegs s.sh (s.sh.vlmax s.sh.et s.sh.grp) i).w = vGroup d s.sh.grp) (hf : ∀ j, s.sh.active h j = true → f j = F j) :
    Gives i s h d F := by
  rw [writeElems_congr (g := F) (by simpa using hf), writeElems_eq, atIssue_actives] at hx
  exact does_vwrites hs (aligned_fits hd) hs.2.2 hx (by rw [hw]; exact vGroup_no_p) (by simp) (by simp) (by simp)

section
variable {i : Instr} {s : State} {h : Hd} {vx : Bool} {d a b c : Fin 64}

theorem Gives.congr {F G : Nat → CF} (hg : Gives i s h d F) (hfg : ∀ j, F j = G j) : Gives i s h d G :=
  (funext hfg : F = G) ▸ hg

/-- A vector instruction with element results that passes its checks gives them. -/
theorem vecOp_gives {ok : Shuttle → Bool} {groups : Shuttle → List (Fin 64 × EType)} {reads : Shuttle → List (Nat × Nat × EType)}
    {u : Shuttle → Shuttle} {f F : Nat → CF} (hx : exec i s = vecOp i s ok groups reads u)
    (hw : (xRegs s.sh (s.sh.vlmax s.sh.et s.sh.grp) i).w = vGroup d s.sh.grp) (hk : ok (s.atIssue i).sh = true)
    (hg : ∀ o ∈ groups (s.atIssue i).sh, s.sh.grouped o) (hu : u (s.atIssue i).sh = (s.atIssue i).sh.writeElems h d.val s.sh.et f)
    (hf : ∀ j, s.sh.active h j = true → f j = F j) (hs : s.shaped) (hd : aligned d s.sh.grp = true) (hp : s.sh.vpoison = [])
    (hr : XReady i s) : Gives i s h d F :=
  gives_of_writeElems hs hd (hu ▸ vecOp_done hx hk hg hp hr) hw hf

theorem groups2_grouped (hd : aligned d s.sh.grp = true) (ha : aligned a s.sh.grp = true) (hb : vx = false → aligned b s.sh.grp = true) :
    ∀ o ∈ groups2 vx d a b (s.atIssue i).sh, s.sh.grouped o := by
  simp only [groups2, atIssue_et]
  cases vx <;> simp_all [grouped_et]

/-- A two-operand element instruction (R154). -/
theorem elem2_gives {ok : EType → Bool} {f : EType → Nat → Nat → CF} (hx : exec i s = elem2 i h vx d a b ok f s)
    (hw : (xRegs s.sh (s.sh.vlmax s.sh.et s.sh.grp) i).w = vGroup d s.sh.grp) (hk : ok s.sh.et = true) (hs : s.shaped)
    (hd : aligned d s.sh.grp = true) (ha : aligned a s.sh.grp = true) (hb : vx = false → aligned b s.sh.grp = true) (hp : s.sh.vpoison = [])
    (hr : XReady i s) : Gives i s h d (fun j => f s.sh.et (s.sh.elem a.val j s.sh.et) (s.operandB vx b j)) :=
  vecOp_gives hx hw (by simpa using hk) (groups2_grouped hd ha hb) (by rw [atIssue_et])
    (fun j hj => by simp only [atIssue_vread, vread_active hj, opB_active hj]) hs hd hp hr

/-- A one-operand element instruction. -/
theorem elem1_gives {ok : EType → Bool} {f : EType → Nat → CF} (hx : exec i s = elem1 i h d a ok f s)
    (hw : (xRegs s.sh (s.sh.vlmax s.sh.et s.sh.grp) i).w = vGroup d s.sh.grp) (hk : ok s.sh.et = true) (hs : s.shaped)
    (hd : aligned d s.sh.grp = true) (ha : aligned a s.sh.grp = true) (hp : s.sh.vpoison = []) (hr : XReady i s) :
    Gives i s h d (fun j => f s.sh.et (s.sh.elem a.val j s.sh.et)) :=
  vecOp_gives hx hw (by simpa using hk) (by simp [grouped_et, hd, ha]) (by rw [atIssue_et])
    (fun j hj => by simp only [atIssue_vread, vread_active hj]) hs hd hp hr

/-- A fused multiply and add (R155). -/
theorem fused_gives {rm : Rm} {neg : Bool} (hx : exec i s = fused i h vx rm d a b c neg s)
    (hw : (xRegs s.sh (s.sh.vlmax s.sh.et s.sh.grp) i).w = vGroup d s.sh.grp) (hk : floatT s.sh.et = true) (hs : s.shaped)
    (hd : aligned d s.sh.grp = true) (ha : aligned a s.sh.grp = true) (hb : vx = false → aligned b s.sh.grp = true)
    (hc : aligned c s.sh.grp = true) (hp : s.sh.vpoison = []) (hr : XReady i s) :
    Gives i s h d (fun j => fFma (EType.fmt s.sh.et) (EType.fmt s.sh.et) rm (s.sh.elem a.val j s.sh.et) (s.operandB vx b j)
      (s.sh.elem c.val j s.sh.et) neg) := by
  refine vecOp_gives hx hw (by simpa using hk) (fun o ho => ?_) (by rw [atIssue_et])
    (fun j hj => by simp only [atIssue_vread, vread_active hj, opB_active hj]) hs hd hp hr
  rcases List.mem_append.1 ho with ho | ho
  · exact groups2_grouped hd ha hb o ho
  · obtain rfl := List.mem_singleton.1 ho
    simpa using grouped_et hc

variable {ok : EType → Bool}

theorem elem2_refuses {f : EType → Nat → Nat → CF} (hx : exec i s = elem2 i h vx d a b ok f s) (hk : ok s.sh.et = false) (hr : XReady i s) :
    Faults i s (flt 0x04 4 true) := vecOp_refuses hx (by simpa using hk) hr

theorem elem1_refuses {f : EType → Nat → CF} (hx : exec i s = elem1 i h d a ok f s) (hk : ok s.sh.et = false) (hr : XReady i s) :
    Faults i s (flt 0x04 4 true) := vecOp_refuses hx (by simpa using hk) hr

end

end Sys2Proof.Machine
end

section
/-! SUPPORT. The floating element instructions (R143, R155, R170) and the functions of `vsfu` (R169). -/

namespace Sys2Proof.Machine

/-! ## Float elements (R143, R155, R169, R170) -/

/-- FP32, BF16 and FP16: the types of the floating element instructions. -/
def IsFloat (e : EType) : Prop := e = .f32 ∨ e = .bf16 ∨ e = .f16

theorem isFloat_accepted {e : EType} (he : IsFloat e) : e.isInt = false ∧ arithT e = true ∧ floatT e = true := by
  rcases he with rfl | rfl | rfl <;> decide

/-- Their sign stands above an exponent and a fraction that fill the code (R43). -/
theorem isFloat_sign {e : EType} (he : IsFloat e) :
    (EType.fmt e).eb + (EType.fmt e).mb = e.bits - 1 ∧ (EType.fmt e).sgn = true ∧ e.bits - 1 + 1 = e.bits := by
  rcases he with rfl | rfl | rfl <;> decide

/-- A value with the flags of its making, rounded once (R143). -/
def FFmt.rounded (F : FFmt) (rm : Rm) (x : FVal × Nat) : CF := ((F.arith rm x.1).1, x.2 ||| (F.arith rm x.1).2)

section
variable {e : EType} (h : e.isInt = false) (sc : Bool) (rm : Rm) (x y : Nat)
include h

theorem addE_float : addE sc rm e x y = (EType.fmt e).rounded rm (FVal.add rm ((EType.fmt e).val x) ((EType.fmt e).val y)) := if_neg (by simp [h])
theorem subE_float : subE sc rm e x y = (EType.fmt e).rounded rm (FVal.add rm ((EType.fmt e).val x) ((EType.fmt e).val y).negate) :=
  if_neg (by simp [h])
theorem mulE_float : mulE sc rm e x y = (EType.fmt e).rounded rm (((EType.fmt e).val x).mul ((EType.fmt e).val y)) := if_neg (by simp [h])
theorem minE_float : minE e x y = fMin (EType.fmt e) x y := if_neg (by simp [h])
theorem maxE_float : maxE e x y = fMax (EType.fmt e) x y := if_neg (by simp [h])

end

section
variable (h : Hd) (sc vx : Bool) (rm : Rm) (k : SfuK) (d a b c : Fin 64) (s : State)

theorem exec_vadd : exec (.vadd h sc vx rm d a b) s = elem2 (.vadd h sc vx rm d a b) h vx d a b (satOk sc) (addE sc rm) s := rfl
theorem exec_vsub : exec (.vsub h sc vx rm d a b) s = elem2 (.vsub h sc vx rm d a b) h vx d a b (satOk sc) (subE sc rm) s := rfl
theorem exec_vmul : exec (.vmul h sc vx rm d a b) s = elem2 (.vmul h sc vx rm d a b) h vx d a b (satOk sc) (mulE sc rm) s := rfl
theorem exec_vfma : exec (.vfma h vx rm d a b c) s = fused (.vfma h vx rm d a b c) h vx rm d a b c false s := rfl
theorem exec_vfms : exec (.vfms h vx rm d a b c) s = fused (.vfms h vx rm d a b c) h vx rm d a b c true s := rfl
theorem exec_vmin : exec (.vmin h vx d a b) s = elem2 (.vmin h vx d a b) h vx d a b arithT (fun t x y => (minE t x y, 0)) s := rfl
theorem exec_vmax : exec (.vmax h vx d a b) s = elem2 (.vmax h vx d a b) h vx d a b arithT (fun t x y => (maxE t x y, 0)) s := rfl
theorem exec_vabs : exec (.vabs h sc d a) s = elem1 (.vabs h sc d a) h d a (satOk sc) (absE sc) s := rfl
theorem exec_vneg : exec (.vneg h sc d a) s = elem1 (.vneg h sc d a) h d a (satOk sc) (negE sc) s := rfl
theorem exec_vmulh : exec (.vmulh h vx d a b) s = elem2 (.vmulh h vx d a b) h vx d a b (fun t => t.isInt)
    (fun t x y => (wrapInt (EType.ival t x * EType.ival t y / (2 ^ t.bits : Nat)) t.bits, 0)) s := rfl
theorem exec_vsfu : exec (.vsfu h k rm d a) s = elem1 (.vsfu h k rm d a) h d a floatT (fun t c => sfu k t rm c) s := rfl
theorem exec_vsll (src : Src2) (imm : BitVec 8) :
    exec (.vsll h src d a b imm) s = shiftOp (.vsll h src d a b imm) h src d a b imm sllE s := rfl
theorem exec_vsrl (src : Src2) (imm : BitVec 8) :
    exec (.vsrl h src d a b imm) s = shiftOp (.vsrl h src d a b imm) h src d a b imm srlE s := rfl
theorem exec_vsra (src : Src2) (r : Bool) (ir : IRm) (imm : BitVec 8) :
    exec (.vsra h src r ir d a b imm) s = shiftOp (.vsra h src r ir d a b imm) h src d a b imm (sraE r ir) s := rfl
theorem exec_vdot2 : exec (.vdot2 h sc vx d a b) s = vecOp (.vdot2 h sc vx d a b) s (fun t => t.et.isInt && t.et.bits != 8) (groups2 vx d a b)
    (fun t => reads2 h vx a b t ++ t.readsOf h [(d, t.et)])
    (fun t => t.writeElems h d.val t.et (fun k =>
      intRes t.et sc (dot2 t.et (t.vread d.val k t.et) (t.vread a.val k t.et) (opB t vx b k)))) := rfl
theorem exec_vmacw : exec (.vmacw h sc rm d a b) s = vecOp (.vmacw h sc rm d a b) s (fun t => macT sc t.et)
    (fun t => [(d, doubleType t.et), (a, t.et), (b, t.et)]) (fun t => t.readsOf h [(d, doubleType t.et), (a, t.et), (b, t.et)])
    (fun t => t.writeElems h d.val (doubleType t.et) (fun k =>
      if t.et.isInt then intRes (doubleType t.et) sc (EType.ival (doubleType t.et) (t.elem d.val k (doubleType t.et)) +
        EType.ival t.et (t.vread a.val k t.et) * EType.ival t.et (t.vread b.val k t.et))
      else fFma (EType.fmt t.et) fp32 rm (t.vread a.val k t.et) (t.vread b.val k t.et) (t.elem d.val k (doubleType t.et)) false)) := rfl
theorem exec_vscl (n : BitVec 8) : exec (.vscl h rm n d a b) s = vecOp (.vscl h rm n d a b) s (fun t => t.et == .f32)
    (fun _ => [(d, .f32), (a, .f32), (b, .bf16)])
    (fun t => t.readsOf h [(a, .f32)] ++ (t.actives h).map (fun i => (b.val, i / 2 ^ n.toNat, EType.bf16)))
    (fun t => t.writeElems h d.val .f32 (fun i =>
      fp32.rounded rm ((fp32.val (t.vread a.val i .f32)).mul (fbf16.val (t.elem b.val (i / 2 ^ n.toNat) .bf16))))) := rfl

end

/-- A fused result: the product exact, the sum rounded once (R59). -/
theorem fFma_eq (F : FFmt) (rm : Rm) (x y z : Nat) (neg : Bool) :
    fFma F F rm x y z neg =
      (let p := (F.val x).mul (F.val y)
       let r := F.rounded rm (FVal.add rm p.1 (if neg then (F.val z).negate else F.val z))
       (r.1, p.2 ||| r.2)) := by
  simp only [fFma, FFmt.rounded, Nat.or_assoc]

/-- Elements are codes of their type. -/
theorem elem_lt (t : Shuttle) (n j : Nat) (e : EType) : t.elem n j e < 2 ^ e.bits := Nat.mod_lt _ (Nat.two_pow_pos _)

theorem absE_float {e : EType} (he : IsFloat e) (sc : Bool) (x : Nat) :
    absE sc e x = (if (EType.fmt e).isNan x then (EType.fmt e).nanCode else x % 2 ^ (e.bits - 1), 0) := by
  rw [absE, if_neg (by simp [(isFloat_accepted he).1])]
  simp only [(isFloat_sign he).1]

/-- A code with its highest bit inverted. -/
theorem invert_top {x n : Nat} (hx : x < 2 ^ (n + 1)) : x % 2 ^ n + (if !bitAt x n then 2 ^ n else 0) = x ^^^ 2 ^ n := by
  have hb : bitAt x n = x.testBit n := by simp [bitAt, bitsAt, Nat.testBit_eq_decide_div_mod_eq, Bool.beq_eq_decide_eq]
  have hlow (k : Nat) : (x % 2 ^ n + (if !x.testBit n then 2 ^ n else 0)).testBit k =
      (decide (k < n) && x.testBit k || decide (n = k) && !x.testBit n) := by
    have hmod := Nat.mod_lt x (Nat.two_pow_pos n)
    cases x.testBit n
    · have ho := Nat.two_pow_add_eq_or_of_lt hmod 1
      rw [Nat.mul_one] at ho
      simp [Nat.add_comm _ (2 ^ n), ho, Nat.testBit_or, Nat.testBit_two_pow, Bool.or_comm]
    · simp
  apply Nat.eq_of_testBit_eq
  intro k
  rw [hb, hlow, Nat.testBit_xor, Nat.testBit_two_pow]
  rcases lt_trichotomy k n with hk | rfl | hk
  · simp [hk, Nat.ne_of_gt hk]
  · simp
  · have h0 : x.testBit k = false := Nat.testBit_lt_two_pow (lt_of_lt_of_le hx (Nat.pow_le_pow_right (by decide) hk))
    simp [h0, Nat.ne_of_lt hk]

theorem negE_float {e : EType} (he : IsFloat e) (sc : Bool) {x : Nat} (hx : x < 2 ^ e.bits) :
    negE sc e x = (if (EType.fmt e).isNan x then (EType.fmt e).nanCode else x ^^^ 2 ^ (e.bits - 1), 0) := by
  obtain ⟨hb, hs, h1⟩ := isFloat_sign he
  have hn : x % 2 ^ ((EType.fmt e).eb + (EType.fmt e).mb) + (EType.fmt e).signBit (!(EType.fmt e).neg x) = x ^^^ 2 ^ (e.bits - 1) := by
    rw [FFmt.signBit, FFmt.neg, hs, hb, Bool.true_and, invert_top (h1.symm ▸ hx)]
  rw [negE, if_neg (by simp [(isFloat_accepted he).1])]
  simp only [hn]

theorem shiftOp_refuses {i : Instr} {s : State} {h : Hd} {k : Src2} {d a b : Fin 64} {imm : BitVec 8} {f : EType → Nat → Nat → Nat}
    (hx : exec i s = shiftOp i h k d a b imm f s) (hk : s.sh.et.isInt = false) (hr : XReady i s) : Faults i s (flt 0x04 4 true) :=
  vecOp_refuses hx (by simpa using hk) hr

/-- `vscl` scales each element by the BF16 element of its block (R170). -/
theorem vscl_gives {h : Hd} {rm : Rm} {n : BitVec 8} {d a b : Fin 64} {s : State} (h32 : s.sh.et = .f32) (hs : s.shaped)
    (hd : aligned d s.sh.grp = true) (ha : aligned a s.sh.grp = true) (hb : aligned b (s.sh.grp2 .bf16) = true) (hp : s.sh.vpoison = [])
    (hr : XReady (.vscl h rm n d a b) s) :
    Gives (.vscl h rm n d a b) s h d (fun j => (EType.fmt s.sh.et).rounded rm
      (((EType.fmt s.sh.et).val (s.sh.elem a.val j s.sh.et)).mul ((EType.fmt .bf16).val (s.sh.elem b.val (j / 2 ^ n.toNat) .bf16)))) := by
  have hb2 : s.sh.grouped (b, .bf16) := ⟨by have := grp_le s.sh; rw [h32]; simp only [EType.bits]; omega, hb⟩
  have hd2 := grouped_et hd
  have ha2 := grouped_et ha
  rw [h32] at hd2 ha2
  refine vecOp_gives (exec_vscl ..) rfl (by simp [h32]) (by simp [hd2, ha2, hb2]) (by rw [h32]) (fun j hj => ?_) hs hd hp hr
  rw [atIssue_vread, vread_active hj, atIssue_elem, h32]
  rfl

/-! ## Integer square roots -/

/-- Bit by bit the root is found between what is set and what may still be. -/
theorem isqrtGo_bounds {n k r : Nat} (h1 : r * r ≤ n) (h2 : n < (r + 2 ^ k) * (r + 2 ^ k)) :
    isqrtGo n k r * isqrtGo n k r ≤ n ∧ n < (isqrtGo n k r + 1) * (isqrtGo n k r + 1) := by
  induction k generalizing r with
  | zero => exact ⟨h1, h2⟩
  | succ k ih =>
    rw [isqrtGo]
    split
    · rename_i h
      exact ih h (by rw [Nat.add_assoc, ← Nat.two_mul, ← Nat.pow_succ']; exact h2)
    · rename_i h
      exact ih h1 (Nat.lt_of_not_le h)

theorem isqrt_bounds (n : Nat) : isqrt n * isqrt n ≤ n ∧ n < (isqrt n + 1) * (isqrt n + 1) := by
  refine isqrtGo_bounds (Nat.zero_le _) ?_
  calc n < 2 ^ (n.log2 + 1) := Nat.lt_log2_self
    _ ≤ 2 ^ ((n.log2 / 2 + 1) + (n.log2 / 2 + 1)) := Nat.pow_le_pow_right (by decide) (by omega)
    _ = (0 + 2 ^ (n.log2 / 2 + 1)) * (0 + 2 ^ (n.log2 / 2 + 1)) := by rw [Nat.zero_add, Nat.pow_add]

/-- The root is the only number with its bounds. -/
theorem isqrt_unique {n r : Nat} (h1 : r * r ≤ n) (h2 : n < (r + 1) * (r + 1)) : isqrt n = r := by
  obtain ⟨h3, h4⟩ := isqrt_bounds n
  have ha : isqrt n < r + 1 := Nat.mul_self_lt_mul_self_iff.1 (h3.trans_lt h2)
  have hb : r < isqrt n + 1 := Nat.mul_self_lt_mul_self_iff.1 (h1.trans_lt h4)
  omega

/-! ## The functions of `vsfu` (R169) -/

section
variable {F : FFmt} {rm : Rm} {n : Bool} {m : Nat} {q : Int}

theorem arith_fin : F.arith rm (.fin n m q) = F.arithFrac rm n (frac m q).1 (frac m q).2 := rfl

theorem arith_int : F.arith rm (.fin n m 0) = F.arithFrac rm n m 1 := by
  simp [arith_fin, frac]

theorem sfu_nan {e : EType} {code : Nat} (hx : (EType.fmt e).val code = .nan) (k : SfuK) : sfu k e rm code = ((EType.fmt e).nanCode, 0) := by
  cases k <;> simp only [sfu, hx] <;> rfl

/-! Of infinities. -/

theorem sfuRsqrt_inf : sfuRsqrt F rm (.inf n) = (if n then F.nanCode else 0, if n then 16 else 0) := by cases n <;> rfl
theorem sfuSqrt_inf : sfuSqrt F rm (.inf n) = (if n then F.nanCode else F.infCode, if n then 16 else 0) := by cases n <;> rfl
theorem sfuExp2_inf : sfuExp2 F rm (.inf n) = (if n then 0 else F.infCode, 0) := by cases n <;> rfl
theorem sfuLog2_inf : sfuLog2 F rm (.inf n) = (if n then F.nanCode else F.infCode, if n then 16 else 0) := by cases n <;> rfl
theorem sfuTanh_inf : sfuTanh F rm (.inf n) = F.arith rm (.fin n 1 0) := by rw [arith_int]; rfl
theorem sfuSigm_inf : sfuSigm F rm (.inf false) = F.arith rm (.fin false 1 0) := by rw [arith_int]; rfl

/-! Of zeros. -/

theorem frac_zero : frac 0 q = (0, (frac 0 q).2) := by
  unfold frac
  split <;> simp

theorem sfuSigm_zero : sfuSigm F rm (.fin n 0 q) = F.arith rm (.fin false 1 (-1)) := by
  simp only [sfuSigm]
  rw [frac_zero]
  rfl

/-! Of negative numbers. -/

theorem sfuRsqrt_neg (hm : m ≠ 0) : sfuRsqrt F rm (.fin true m q) = (F.nanCode, 16) := by rw [sfuRsqrt, if_neg hm]; rfl
theorem sfuSqrt_neg (hm : m ≠ 0) : sfuSqrt F rm (.fin true m q) = (F.nanCode, 16) := by rw [sfuSqrt, if_neg hm]; rfl
theorem sfuLog2_neg (hm : m ≠ 0) : sfuLog2 F rm (.fin true m q) = (F.nanCode, 16) := by rw [sfuLog2, if_neg hm]; rfl

/-! Of the rest. -/

/-- 1/x of a number other than zero is its fraction turned over. -/
theorem sfuRcp_fin (hm : m ≠ 0) : sfuRcp F rm (.fin n m q) = F.arithFrac rm n (frac m q).2 (frac m q).1 := by
  simp [sfuRcp, hm]

/-- A number as an even power of two times a mantissa of which the root is taken. -/
def EvenPart (m : Nat) (q : Int) (M : Nat) (k : Int) : Prop := (q = 2 * k ∧ M = m) ∨ (q = 2 * k + 1 ∧ M = 2 * m)

theorem evenPart_eq {M : Nat} {k : Int} (h : EvenPart m q M k) :
    (if q % 2 = 0 then (m, q) else (2 * m, q - 1)) = (M, 2 * k) := by
  rcases h with ⟨rfl, rfl⟩ | ⟨rfl, rfl⟩
  · rw [if_pos (by omega)]
  · rw [if_neg (by omega), Int.add_sub_cancel]

/-- √x: from the integer root of the mantissa with 256 bits more. The kernel asked about a product with 2^256 counts it down, so that number is made
a variable first; so below with 2^512. -/
theorem sfuSqrt_pos {M r : Nat} {k : Int} (hm : m ≠ 0) (hM : EvenPart m q M k) (h1 : r * r ≤ M * 2 ^ 256) (h2 : M * 2 ^ 256 < (r + 1) * (r + 1)) :
    sfuSqrt F rm (.fin false m q) =
      if r * r = M * 2 ^ 256 then F.arith rm (.fin false r (k - 128)) else F.arith rm (.fin false (2 * r + 1) (k - 129)) := by
  have hk : 2 * k / 2 = k := by omega
  have hr := isqrt_unique h1 h2
  rw [sfuSqrt, if_neg hm, if_neg Bool.false_ne_true, evenPart_eq hM]
  clear h1 h2
  revert hr
  induction 2 ^ 256 using of_forall with | _ W
  intro hr
  simp only [hk, hr]
  by_cases h : r * r = M * W <;> simp only [h, if_true, if_false, arith_fin]

/-- 1/√x: from the integer root of 2^512 over the mantissa. -/
theorem sfuRsqrt_pos {M r : Nat} {k : Int} (hm : m ≠ 0) (hM : EvenPart m q M k) (h1 : r * r * M ≤ 2 ^ 512) (h2 : 2 ^ 512 < (r + 1) * (r + 1) * M) :
    sfuRsqrt F rm (.fin false m q) =
      if r * r * M = 2 ^ 512 then F.arith rm (.fin false r (-256 - k)) else F.arith rm (.fin false (2 * r + 1) (-257 - k)) := by
  have hk : 2 * k / 2 = k := by omega
  have hM0 : 0 < M := by rcases hM with ⟨-, rfl⟩ | ⟨-, rfl⟩ <;> omega
  have hr : isqrt (2 ^ 512 / M) = r := isqrt_unique ((Nat.le_div_iff_mul_le hM0).2 h1) ((Nat.div_lt_iff_lt_mul hM0).2 h2)
  rw [sfuRsqrt, if_neg hm, if_neg Bool.false_ne_true, evenPart_eq hM]
  clear h1 h2
  revert hr
  induction 2 ^ 512 using of_forall with | _ W
  intro hr
  simp only [hk, hr]
  by_cases h : r * r * M = W <;> simp only [h, if_true, if_false, arith_fin]

/-- 2^x of an integer is exact. -/
theorem sfuExp2_int {K : Nat} (hK : K < 4096) (hm : if 0 ≤ q then m * 2 ^ q.toNat = K else m = K * 2 ^ (-q).toNat) :
    sfuExp2 F rm (.fin n m q) = F.arith rm (.fin false 1 (if n then -(K : Int) else K)) := by
  obtain ⟨b, hb, hf⟩ : ∃ b, 0 < b ∧ frac m q = (K * b, b) := by
    unfold frac
    split at hm
    · exact ⟨1, by decide, by simp [*]⟩
    · exact ⟨2 ^ (-q).toNat, Nat.two_pow_pos _, by simp [*]⟩
  have hlt : ¬ 4096 * b ≤ K * b := Nat.not_le.2 (Nat.mul_lt_mul_of_pos_right hK hb)
  have hx : (if n then -((K * b : Nat) : Int) else ((K * b : Nat) : Int)) = (if n then -(K : Int) else K) * (b : Int) := by
    cases n <;> push_cast <;> simp
  have hb0 : (b : Int) ≠ 0 := by omega
  simp only [sfuExp2, hf, hlt, if_false, hx, Int.mul_ediv_cancel _ hb0, Int.sub_self, Int.toNat_zero, if_true]
  rfl

theorem sfuExp2_zero : sfuExp2 F rm (.fin n 0 q) = F.arith rm (.fin false 1 0) := by
  have h := sfuExp2_int (F := F) (rm := rm) (n := n) (m := 0) (q := q) (K := 0) (by decide) (by simp)
  simpa using h

/-- log₂ of a power of two is exact. -/
theorem sfuLog2_pow {l : Nat} : sfuLog2 F rm (.fin false (2 ^ l) q) = F.arith rm (.fin (decide (q + l < 0)) (q + l).natAbs 0) := by
  simp [sfuLog2, arith_int, Nat.log2_two_pow]

end

/-! ## The statement -/

/-- Settles O38: each instruction is one of the element-wise shapes, with a result that is one rounding of an exact value; a refused type is
refused before anything else is looked at; and each function of `vsfu` is taken at the value of its code. -/
theorem vectorFloats : Obligations.VectorFloats := by
  unfold Obligations.VectorFloats
  refine ⟨?_, ?_, ?_⟩
  · intro h vx rm k n d a b c s e F hs he hal hb hp A B C rounds gives refuses prod
    have he : IsFloat s.sh.et := he
    obtain ⟨hni, hat, hft⟩ := isFloat_accepted he
    have hd := hal d (by simp)
    have ha := hal a (by simp)
    have hc := hal c (by simp)
    have hi : satOk false s.sh.et = true := by simp [satOk, hat]
    refine ⟨fun hr => ?_, fun hr => ?_, fun hr => ?_, fun hr => ?_, fun hr => ?_, fun hr => ?_, fun hr => ?_, fun hr => ?_, fun hr => ?_,
      fun hr => ?_, fun h32 hb2 hr => ?_, ?_⟩
    · exact (elem2_gives (exec_vadd ..) rfl hi hs hd ha hb hp hr).congr (fun j => addE_float hni _ _ _ _)
    · exact (elem2_gives (exec_vsub ..) rfl hi hs hd ha hb hp hr).congr (fun j => subE_float hni _ _ _ _)
    · exact (elem2_gives (exec_vmul ..) rfl hi hs hd ha hb hp hr).congr (fun j => mulE_float hni _ _ _ _)
    · exact (fused_gives (exec_vfma ..) rfl hft hs hd ha hb hc hp hr).congr (fun j => fFma_eq _ _ _ _ _ _)
    · exact (fused_gives (exec_vfms ..) rfl hft hs hd ha hb hc hp hr).congr (fun j => fFma_eq _ _ _ _ _ _)
    · exact (elem2_gives (exec_vmin ..) rfl hat hs hd ha hb hp hr).congr (fun j => congrArg (·, 0) (minE_float hni _ _))
    · exact (elem2_gives (exec_vmax ..) rfl hat hs hd ha hb hp hr).congr (fun j => congrArg (·, 0) (maxE_float hni _ _))
    · exact (elem1_gives (exec_vabs ..) rfl hi hs hd ha hp hr).congr (fun j => absE_float he _ _)
    · exact (elem1_gives (exec_vneg ..) rfl hi hs hd ha hp hr).congr (fun j => negE_float he _ (elem_lt _ _ _ _))
    · exact elem1_gives (exec_vsfu ..) rfl hft hs hd ha hp hr
    · exact vscl_gives h32 hs hd ha hb2 hp hr
    · have hs : satOk true s.sh.et = false := by simp [satOk, hni]
      exact ⟨elem2_refuses (exec_vadd ..) hs, elem2_refuses (exec_vsub ..) hs, elem2_refuses (exec_vmul ..) hs,
        elem1_refuses (exec_vabs ..) hs, elem1_refuses (exec_vneg ..) hs, elem2_refuses (exec_vmulh ..) hni,
        vecOp_refuses (exec_vdot2 ..) (by simp [hni])⟩
  · intro h sc vx r rm ir k sk n imm d a b c s e refuses
    refine ⟨fun h1 h2 h3 => ?_, fun h1 hr => ?_, fun he => ?_, fun hi => ?_⟩
    · have hf : floatT s.sh.et = false := by simpa [floatT] using ⟨⟨h1, h2⟩, h3⟩
      exact ⟨vecOp_refuses (exec_vfma ..) (by simp [hf]), vecOp_refuses (exec_vfms ..) (by simp [hf]), elem1_refuses (exec_vsfu ..) hf⟩
    · exact vecOp_refuses (exec_vscl ..) (by simpa using h1) hr
    · obtain ⟨hni, hat, hm⟩ : s.sh.et.isInt = false ∧ arithT s.sh.et = false ∧ ∀ sc, macT sc s.sh.et = false := by
        simp only [e] at he
        rcases he with he | he | he <;> rw [he] <;> decide
      have hi : satOk sc s.sh.et = false := by simp [satOk, hat]
      exact ⟨elem2_refuses (exec_vadd ..) hi, elem2_refuses (exec_vsub ..) hi, elem2_refuses (exec_vmul ..) hi,
        elem2_refuses (exec_vmin ..) hat, elem2_refuses (exec_vmax ..) hat, elem1_refuses (exec_vabs ..) hi, elem1_refuses (exec_vneg ..) hi,
        elem2_refuses (exec_vmulh ..) hni, vecOp_refuses (exec_vdot2 ..) (by simp [hni]), vecOp_refuses (exec_vmacw ..) (by simp [hm])⟩
    · exact ⟨shiftOp_refuses (exec_vsll ..) hi, shiftOp_refuses (exec_vsrl ..) hi, shiftOp_refuses (exec_vsra ..) hi⟩
  · intro e rm code he F x gives sign rounded
    have hs : ∀ n, F.signBit n = sign n := fun n => by simp only [FFmt.signBit, F, sign, (isFloat_sign he).1]
    refine ⟨fun hx k => ?_, fun n hx => ?_, fun n q hx => ?_, fun m q hx hm => ?_, fun n m q hx hm => ?_, fun m q M r k hx hm hM => ⟨fun h1 h2 => ?_, fun h1 h2 => ?_⟩,
      fun n m q K hx hK hm => ?_, fun l q hx => ?_⟩
    all_goals replace hx : (EType.fmt e).val code = _ := hx
    · exact sfu_nan hx k
    · simp only [gives, rounded, sfu, hx, ← hs]
      refine ⟨rfl, sfuRsqrt_inf, sfuSqrt_inf, sfuExp2_inf, sfuLog2_inf, sfuTanh_inf, ?_, ?_⟩
      · rintro rfl
        rfl
      · rintro rfl
        exact sfuSigm_inf
    · simp only [gives, rounded, sfu, hx, ← hs]
      exact ⟨rfl, rfl, rfl, sfuExp2_zero, rfl, rfl, sfuSigm_zero⟩
    · simp only [gives, sfu, hx]
      exact ⟨sfuRsqrt_neg hm, sfuSqrt_neg hm, sfuLog2_neg hm⟩
    · simp only [sfu, hx, sfuRcp_fin hm, frac, F]
      split_ifs <;> rfl
    · have h := sfuSqrt_pos (F := F) (rm := rm) hm hM h1 h2
      simp only [rounded, sfu, hx]
      exact ⟨fun he => h.trans (if_pos he), fun he => h.trans (if_neg he)⟩
    · have h := sfuRsqrt_pos (F := F) (rm := rm) hm hM h1 h2
      simp only [rounded, sfu, hx]
      exact ⟨fun he => h.trans (if_pos he), fun he => h.trans (if_neg he)⟩
    · simp only [rounded, sfu, hx]
      exact sfuExp2_int hK hm
    · simp only [rounded, sfu, hx]
      exact sfuLog2_pow

end Sys2Proof.Machine
end

section
/-! SUPPORT. Reductions and scans (R64 to R66, R166 to R168). -/

namespace Sys2Proof.Machine

/-! ## Scalar results of vector instructions -/

theorem xDst_no_p {d : Fin 64} : ∀ r ∈ xDst d, ∀ n, r ≠ .p n := by
  unfold xDst
  split <;> simp

theorem xset_x (t u : Shuttle) (h : t.x = u.x) (d : Fin 64) (w : Word) : (t.xset d w).x = (u.xset d w).x := by
  unfold Shuttle.xset
  split <;> simp [h]

/-- An effect that writes a scalar register and the running sum, raises flags and sets `vstart` to 0 (R66, R166). -/
theorem does_scalar {i : Instr} {s : State} {d : Fin 64} {w r : Word} {fl : Nat} {l : List Piece}
    (hx : exec i s = .next (s.issued i { s.atIssue i with sh := ((({ (s.atIssue i).sh with redst := r } : Shuttle).xset d w).flag fl).vdone }))
    (hw : (xRegs s.sh (s.sh.vlmax s.sh.et s.sh.grp) i).w = xDst d)
    (hxl : .x ∈ l) (hvs : .vstart ∈ l) (hrl : .redst ∈ l ∨ r = s.sh.redst) (hf : .flags ∈ l ∨ fl = 0) :
    Does i s l (fun t => t.sh.vstart = 0 ∧ t.sh.x = (s.sh.xset d w).x ∧ Raises s t fl ∧ t.sh.redst = r) := by
  refine issued_does hx ?_ ?_ rfl ?_ ?_ (.inr (by rw [hw]; exact xDst_no_p)) ⟨?_, ?_, ?_, ?_⟩
  · simp [atIssue_sh]
  · simp [atIssue_sh]
  · intro k hk
    cases k
    case others => exact ⟨by simp, fun k hk => by simpa using (List.mem_of_mem_filter hk)⟩
    case flags =>
      obtain rfl := hf.resolve_left hk
      simp [Piece.same, Shuttle.landAll_eq, Shuttle.flag, bitAt, bitsAt]
    case redst =>
      obtain rfl := hrl.resolve_left hk
      simp [Piece.same, atIssue_sh]
    case x => exact absurd hxl hk
    case vstart => exact absurd hvs hk
    all_goals simp [Piece.same]
  · exact hf.imp_right (fun h0 => by simp [h0, Shuttle.flag, atIssue_sh, bitAt, bitsAt])
  · simp
  · simpa using xset_x _ _ (by simp [atIssue_sh]) d w
  · refine issued_raises ?_ ?_ ?_ <;> simp [Shuttle.flag, atIssue_sh]
  · simp


/-! ## Integer codes -/

/-- A code in a scalar register is its value. -/
theorem codeWord_eq (e : EType) (c : Nat) : codeWord e c = BitVec.ofInt 64 (EType.ival e c) := by
  unfold codeWord sext64 zext64 EType.ival
  split
  · rfl
  · exact (BitVec.ofInt_natCast 64 _).symm

theorem ival_mod (e : EType) (c : Nat) : EType.ival e (c % 2 ^ e.bits) = EType.ival e c := by
  unfold EType.ival toSigned
  simp only [Nat.mod_mod]

/-- The least and greatest values of an integer type have codes, and bound the value of every code (R42). -/
theorem ival_bounds {e : EType} (h : e.isInt = true) (c : Nat) :
    EType.ival e (wrapInt (intMin e.signed e.bits) e.bits) ≤ EType.ival e c ∧
      EType.ival e c ≤ EType.ival e (wrapInt (intMax e.signed e.bits) e.bits) := by
  have hlt := Nat.mod_lt c (Nat.two_pow_pos e.bits)
  rw [← ival_mod e c]
  generalize c % 2 ^ e.bits = n at hlt ⊢
  cases e <;> simp [EType.isInt] at h <;>
    simp [EType.ival, toSigned, wrapInt, intMin, intMax, EType.signed, EType.bits] at hlt ⊢ <;> omega

/-- The codes of the bounds (R42). -/
theorem wrapInt_bounds {e : EType} (h : e.isInt = true) :
    wrapInt (intMax e.signed e.bits) e.bits = (if e.signed then 2 ^ (e.bits - 1) - 1 else 2 ^ e.bits - 1) ∧
      wrapInt (intMin e.signed e.bits) e.bits = (if e.signed then 2 ^ (e.bits - 1) else 0) := by
  revert h
  cases e <;> decide

/-! ## Reductions in element order -/

section
variable {key : Nat → Int} {g : Nat → Nat → Nat}

/-- A fold that picks the operand of the lower key ends with one of its operands, of the least key. -/
theorem foldl_pick (hg : ∀ x y, (g x y = x ∨ g x y = y) ∧ key (g x y) ≤ key x ∧ key (g x y) ≤ key y) (l : List Nat) (z : Nat) :
    (l.foldl g z = z ∨ l.foldl g z ∈ l) ∧ key (l.foldl g z) ≤ key z ∧ ∀ x ∈ l, key (l.foldl g z) ≤ key x := by
  induction l generalizing z with
  | nil => simp
  | cons y r ih =>
    obtain ⟨h1, h2, h3⟩ := hg z y
    obtain ⟨i1, i2, i3⟩ := ih (g z y)
    simp only [List.foldl_cons, List.mem_cons, forall_eq_or_imp]
    refine ⟨?_, i2.trans h2, i2.trans h3, i3⟩
    rcases i1 with i1 | i1
    · rw [i1]
      tauto
    · exact .inr (.inr i1)

/-- From a start of the highest key, it ends with a key that an operand has, where there is one. -/
theorem foldl_pick_mem (hg : ∀ x y, (g x y = x ∨ g x y = y) ∧ key (g x y) ≤ key x ∧ key (g x y) ≤ key y) {l : List Nat} {z : Nat}
    (hl : l ≠ []) (hz : ∀ x ∈ l, key x ≤ key z) : ∃ m ∈ l, (∀ x ∈ l, key m ≤ key x) ∧ key (l.foldl g z) = key m := by
  obtain ⟨h1, h2, h3⟩ := foldl_pick hg l z
  rcases h1 with h1 | h1
  · obtain ⟨m, hm⟩ := List.exists_mem_of_ne_nil l hl
    have he : key (l.foldl g z) = key m := le_antisymm (h3 m hm) (by rw [h1]; exact hz m hm)
    exact ⟨m, hm, fun x hx => he ▸ h3 x hx, he⟩
  · exact ⟨_, h1, h3, rfl⟩

end

theorem minE_pick {e : EType} (h : e.isInt = true) (x y : Nat) : (minE e x y = x ∨ minE e x y = y) ∧
    EType.ival e (minE e x y) ≤ EType.ival e x ∧ EType.ival e (minE e x y) ≤ EType.ival e y := by
  simp only [minE, h, if_true]
  split <;> simp <;> omega

theorem maxE_pick {e : EType} (h : e.isInt = true) (x y : Nat) : (maxE e x y = x ∨ maxE e x y = y) ∧
    -EType.ival e (maxE e x y) ≤ -EType.ival e x ∧ -EType.ival e (maxE e x y) ≤ -EType.ival e y := by
  simp only [maxE, h, if_true]
  split <;> simp <;> omega


/-! ## `vred` (R166) -/

section
variable {h : Hd} {k : RedK} {d a b : Fin 64} {s : State}

theorem exec_vred : exec (.vred h k d a b) s = vecOp (.vred h k d a b) s (fun t => redOk k t.et)
    (fun t => (a, t.et) :: if t.et = .f4 then [(b, .i8)] else [])
    (fun t => t.readsOf h [(a, t.et)] ++
      if t.et = .f4 then ((t.actives h).map (fun i => i / 8)).eraseDups.map (fun j => (b.val, j, EType.i8)) else [])
    (fun t => ((t.xset d (redResult t h k a b).1).flag (redResult t h k a b).2).vdone) := rfl

/-- The codes of the active elements, in order. -/
def State.activeCodes (s : State) (h : Hd) (a : Fin 64) : List Nat := (s.sh.actives h).map (fun j => s.sh.elem a.val j s.sh.et)

/-- `vred` that passes its checks writes its result and raises its flags. -/
theorem vred_does {l : List Piece} (hk : redOk k s.sh.et = true) (ha : aligned a s.sh.grp = true)
    (hb : s.sh.et = .f4 → s.sh.grouped (b, .i8)) (hp : s.sh.vpoison = []) (hr : XReady (.vred h k d a b) s)
    (hxl : .x ∈ l) (hvs : .vstart ∈ l) (hf : .flags ∈ l ∨ (redResult (s.atIssue (.vred h k d a b)).sh h k a b).2 = 0) :
    Does (.vred h k d a b) s l (fun t => t.sh.vstart = 0 ∧
      t.sh.x = (s.sh.xset d (redResult (s.atIssue (.vred h k d a b)).sh h k a b).1).x ∧
      Raises s t (redResult (s.atIssue (.vred h k d a b)).sh h k a b).2) := by
  have hg : ∀ o ∈ (a, s.sh.et) :: (if s.sh.et = .f4 then [(b, EType.i8)] else []), s.sh.grouped o := by
    by_cases h4 : s.sh.et = .f4 <;> simp [h4, hb] <;> simpa [h4] using grouped_et ha
  have hx := vecOp_done exec_vred (by simpa using hk) (by simpa using hg) hp hr
  exact (does_scalar (r := s.sh.redst) (by rw [hx, atIssue_sh]) rfl hxl hvs (.inr rfl) hf).imp (fun t ⟨h0, h1, h2, _⟩ => ⟨h0, h1, h2⟩)

theorem atIssue_activeI {i : Instr} : activeI (s.atIssue i).sh h a = s.activeCodes h a := by
  simp only [activeI, State.activeCodes, atIssue_actives, atIssue_vread, atIssue_et]
  exact List.map_congr_left (fun j hj => vread_active (mem_actives.1 hj).2 _ _)

theorem atIssue_activeF {i : Instr} : activeF (s.atIssue i).sh h a = (s.activeCodes h a).map (widenF (EType.fmt s.sh.et)) := by
  simp only [activeF, State.activeCodes, atIssue_actives, atIssue_vread, atIssue_et, List.map_map]
  exact List.map_congr_left (fun j hj => congrArg _ (vread_active (mem_actives.1 hj).2 _ _))

theorem atIssue_redF {i : Instr} : redF (s.atIssue i).sh h a = laneTree s.sh.lanes ((List.range s.sh.vlen.toNat).map (fun j =>
    if s.sh.active h j then widenF (EType.fmt s.sh.et) (s.sh.elem a.val j s.sh.et) else 0x80000000)) := by
  simp only [redF, atIssue_lanes, atIssue_vlen, atIssue_active, atIssue_vread, atIssue_et]
  congr 1
  refine List.map_congr_left (fun j _ => ?_)
  split
  · rename_i hj
    rw [vread_active hj]
  · rfl

/-- The integer reduction by each operation (R166). -/
def redInt (e : EType) (k : RedK) (l : List Nat) : Nat :=
  match k with
  | .sum => wrapInt ((l.map (EType.ival e)).sum) e.bits
  | .min => l.foldl (minE e) (wrapInt (intMax e.signed e.bits) e.bits)
  | .max => l.foldl (maxE e) (wrapInt (intMin e.signed e.bits) e.bits)
  | .and => l.foldl (fun x y => x &&& y) (2 ^ e.bits - 1)
  | .or => l.foldl (fun x y => x ||| y) 0
  | .xor => l.foldl (fun x y => x ^^^ y) 0

theorem isInt_ne_f4 {e : EType} (h : e.isInt = true) : e ≠ .f4 := by
  rintro rfl
  exact absurd h (by decide)

/-- On an integer type `vred` writes the value of its result and raises no flag. -/
theorem vred_int (hi : s.sh.et.isInt = true) (ha : aligned a s.sh.grp = true) (hp : s.sh.vpoison = []) (hr : XReady (.vred h k d a b) s) :
    Does (.vred h k d a b) s [.x, .vstart] (fun t => t.sh.vstart = 0 ∧
      t.sh.x = (s.sh.xset d (codeWord s.sh.et (redInt s.sh.et k (s.activeCodes h a)))).x) := by
  have h4 := isInt_ne_f4 hi
  have he : redResult (s.atIssue (.vred h k d a b)).sh h k a b = (codeWord s.sh.et (redInt s.sh.et k (s.activeCodes h a)), 0) := by
    simp only [redResult, atIssue_et, h4, hi, if_false, if_true, atIssue_activeI]
    rfl
  have hd := vred_does (l := [.x, .vstart]) (by simp [redOk, hi]) ha (fun h => absurd h h4) hp hr (by simp) (by simp) (.inr (by rw [he]))
  rw [he] at hd
  exact hd.imp (fun t ⟨h0, h1, _⟩ => ⟨h0, h1⟩)

/-- On the floating types but FP4 the sum is the tree over lanes (R64). -/
theorem vred_floatSum (hi : s.sh.et.isInt = false) (h4 : s.sh.et ≠ .f4) (ha : aligned a s.sh.grp = true) (hp : s.sh.vpoison = [])
    (hr : XReady (.vred h .sum d a b) s) :
    let r := laneTree s.sh.lanes ((List.range s.sh.vlen.toNat).map (fun j =>
      if s.sh.active h j then widenF (EType.fmt s.sh.et) (s.sh.elem a.val j s.sh.et) else 0x80000000))
    Does (.vred h .sum d a b) s [.x, .vstart, .flags] (fun t => t.sh.vstart = 0 ∧ t.sh.x = (s.sh.xset d (BitVec.ofNat 64 r.1)).x ∧ Raises s t r.2) := by
  intro r
  have he : redResult (s.atIssue (.vred h .sum d a b)).sh h .sum a b = (BitVec.ofNat 64 r.1, r.2) := by
    simp only [redResult, atIssue_et, h4, hi, if_false, Bool.false_eq_true, atIssue_redF, r]
  have hd := vred_does (l := [.x, .vstart, .flags]) (by simp [redOk]) ha (fun h => absurd h h4) hp hr (by simp) (by simp) (.inl (by simp))
  rwa [he] at hd

/-- Their least and greatest go element by element, and raise no flag (R166). -/
theorem vred_floatPick (hk : k = .min ∨ k = .max) (hi : s.sh.et.isInt = false) (h4 : s.sh.et ≠ .f4) (ha : aligned a s.sh.grp = true)
    (hp : s.sh.vpoison = []) (hr : XReady (.vred h k d a b) s) :
    let W := (s.activeCodes h a).map (widenF (EType.fmt s.sh.et))
    Does (.vred h k d a b) s [.x, .vstart] (fun t => t.sh.vstart = 0 ∧ t.sh.x = (s.sh.xset d (BitVec.ofNat 64
      (if k = .min then W.foldl (fMin fp32) 0x7F800000 else W.foldl (fMax fp32) 0xFF800000))).x) := by
  intro W
  have he : redResult (s.atIssue (.vred h k d a b)).sh h k a b =
      (BitVec.ofNat 64 (if k = .min then W.foldl (fMin fp32) 0x7F800000 else W.foldl (fMax fp32) 0xFF800000), 0) := by
    rcases hk with rfl | rfl <;>
      · simp only [redResult, atIssue_et, h4, hi, if_false, Bool.false_eq_true, atIssue_activeF]
        rfl
  have hok : redOk k s.sh.et = true := by rcases hk with rfl | rfl <;> simp [redOk, h4]
  have hd := vred_does (l := [.x, .vstart]) hok ha (fun h => absurd h h4) hp hr (by simp) (by simp) (.inr (by rw [he]))
  rw [he] at hd
  exact hd.imp (fun t ⟨h0, h1, _⟩ => ⟨h0, h1⟩)

/-- The value of a block from its active elements (R65). -/
def blockSum (v : Nat → FVal) (ex : Int) : List Nat → CF
  | [] => (negZero, 0)
  | j :: r =>
    match r.foldl (fun x m => (FVal.add .rne x (v m)).1) (v j) with
    | .fin neg m x => fp32.arith .rne (.fin neg m (x + ex))
    | x => fp32.arith .rne x

theorem blockSum_congr {v w : Nat → FVal} {l : List Nat} (ex : Int) (hvw : ∀ j ∈ l, v j = w j) : blockSum v ex l = blockSum w ex l := by
  cases l with
  | nil => rfl
  | cons j r =>
    have hr : ∀ x, r.foldl (fun x m => (FVal.add .rne x (v m)).1) x = r.foldl (fun x m => (FVal.add .rne x (w m)).1) x :=
      fun x => List.foldl_ext _ _ _ (fun y m hm => by rw [hvw m (List.mem_cons_of_mem _ hm)])
    simp only [blockSum, hr, hvw j (List.mem_cons_self ..)]

/-- The active elements of a block of 8, in order. -/
theorem block_actives (t : Shuttle) (n : Nat) :
    ((List.range 8).map (fun j => 8 * n + j)).filter (fun i => t.active h i) = (t.actives h).filter (fun j => j / 8 = n) := by
  have hs : ((List.range 8).map (fun j => 8 * n + j)).Pairwise (· < ·) :=
    List.pairwise_map.2 (List.pairwise_lt_range.imp (fun h => by omega))
  have ha : (t.actives h).Pairwise (· < ·) := List.pairwise_lt_range.filter _
  refine List.Perm.eq_of_pairwise' (r := (· < ·)) (hs.filter _) (ha.filter _) ?_
  refine (List.perm_ext_iff_of_nodup (hs.filter _).nodup (ha.filter _).nodup).2 (fun j => ?_)
  simp only [List.mem_filter, List.mem_map, List.mem_range, mem_actives, decide_eq_true_eq]
  constructor
  · rintro ⟨⟨k, hk, rfl⟩, hj⟩
    exact ⟨⟨active_lt hj, hj⟩, by omega⟩
  · rintro ⟨⟨-, hj⟩, hn⟩
    exact ⟨⟨j % 8, by omega, by omega⟩, hj⟩

theorem atIssue_block4 {i : Instr} (n : Nat) : block4 (s.atIssue i).sh h a b n =
    blockSum (fun j => fp4.val (s.sh.elem a.val j .f4)) (toSigned (s.sh.elem b.val n .i8) 8) ((s.sh.actives h).filter (fun j => j / 8 = n)) := by
  have hb : block4 (s.atIssue i).sh h a b n = blockSum (fun j => fp4.val ((s.atIssue i).sh.vread a.val j .f4))
      (toSigned ((s.atIssue i).sh.elem b.val n .i8) 8) (((List.range 8).map (fun j => 8 * n + j)).filter (fun i' => (s.atIssue i).sh.active h i')) := rfl
  rw [hb, block_actives, atIssue_actives, atIssue_elem]
  refine blockSum_congr _ (fun j hj => ?_)
  rw [atIssue_vread, vread_active (mem_actives.1 (List.mem_of_mem_filter hj)).2]

/-- On FP4 the sum is that tree over the values of blocks of 8 (R65). -/
theorem vred_blocks (h4 : s.sh.et = .f4) (hg : s.sh.grp ≤ 4) (ha : aligned a s.sh.grp = true) (hb : aligned b (2 * s.sh.grp) = true)
    (hp : s.sh.vpoison = []) (hr : XReady (.vred h .sum d a b) s) :
    let blocks := (List.range ((s.sh.vlen.toNat + 7) / 8)).map (fun n => blockSum (fun j => fp4.val (s.sh.elem a.val j .f4))
      (toSigned (s.sh.elem b.val n .i8) 8) ((s.sh.actives h).filter (fun j => j / 8 = n)))
    let r := laneTree s.sh.lanes (blocks.map Prod.fst)
    Does (.vred h .sum d a b) s [.x, .vstart, .flags] (fun t => t.sh.vstart = 0 ∧ t.sh.x = (s.sh.xset d (BitVec.ofNat 64 r.1)).x ∧
      Raises s t ((blocks.map Prod.snd).foldl (· ||| ·) r.2)) := by
  intro blocks r
  have hgb : s.sh.grouped (b, .i8) := by
    have h2 : s.sh.grp2 .i8 = 2 * s.sh.grp := by
      rw [Shuttle.grp2, h4]
      rcases grp_cases s.sh with h | h | h | h <;> rw [h] <;> rfl
    exact ⟨by rw [h4]; simp only [EType.bits]; omega, by rw [h2]; exact hb⟩
  have he : redResult (s.atIssue (.vred h .sum d a b)).sh h .sum a b = (BitVec.ofNat 64 r.1, (blocks.map Prod.snd).foldl (· ||| ·) r.2) := by
    simp only [redResult, atIssue_et, h4, if_true, atIssue_block4, atIssue_lanes, atIssue_vlen, r, blocks, List.map_map, List.foldl_map]
    rfl
  have hd := vred_does (l := [.x, .vstart, .flags]) (by simp [redOk]) ha (fun _ => hgb) hp hr (by simp) (by simp) (.inl (by simp))
  rwa [he] at hd

/-- An operation the type does not have is refused. -/
theorem vred_refuses (hk : redOk k s.sh.et = false) (hr : XReady (.vred h k d a b) s) : Faults (.vred h k d a b) s (flt 0x04 4 true) :=
  vecOp_refuses exec_vred (by simpa using hk) hr

/-! ## `vredo` (R66, R167) -/

theorem Shuttle.redst_ite (t : Shuttle) (c : Prop) [Decidable c] (w : Word) :
    (if c then ({ t with redst := w } : Shuttle) else t) = { t with redst := if c then w else t.redst } := by
  split <;> rfl

/-- `vredo` writes the running sum, and leaves it in `redst` where an element is left to add. -/
theorem vredo_does (h4 : s.sh.et ≠ .f4) (ha : aligned a s.sh.grp = true) (hp : s.sh.vpoison = []) (hr : XReady (.vredo h d a b) s) :
    let r := redoRun s.sh.et (redoSeed s.sh.et (if s.sh.vstart = 0 then (s.sh.srcB b).toNat else s.sh.redst.toNat)) (s.activeCodes h a)
    Does (.vredo h d a b) s [.x, .vstart, .redst, .flags] (fun t => t.sh.vstart = 0 ∧
      t.sh.x = (s.sh.xset d (if s.sh.et.isInt then codeWord s.sh.et r.1 else BitVec.ofNat 64 r.1)).x ∧ Raises s t r.2 ∧
      t.sh.redst = (if s.sh.vstart.toNat < s.sh.vlen.toNat then BitVec.ofNat 64 r.1 else s.sh.redst)) := by
  intro r
  have hstart : (s.atIssue (.vredo h d a b)).sh.vstart = s.sh.vstart := by simp [atIssue_sh]
  have hsum : (s.atIssue (.vredo h d a b)).sh.redst = s.sh.redst := by simp [atIssue_sh]
  simp only [r]
  rw [← hstart, ← hsum, ← atIssue_vlen s (.vredo h d a b)]
  refine does_scalar ?_ rfl (by simp) (by simp) (.inl (by simp)) (.inl (by simp))
  change execVredo h d a b s = _
  unfold execVredo
  refine xIssue_done hr ?_
  have hg := groupCheck_none (t := (s.atIssue (.vredo h d a b)).sh) (l := [(a, s.sh.et)])
    (by simpa [atIssue_grouped] using grouped_et ha)
  simp only [atIssue_et, h4, if_false, hg, atIssue_poisonRead hp, atIssue_srcB, atIssue_activeI, Shuttle.redst_ite]

/-! ## `vscan` (R168) -/

/-- The sum of a scan and an element, with its flags. -/
def scanAdd (t : EType) (c x : Nat) : CF := if t.isInt then ((c + x) % 2 ^ t.bits, 0) else fAdd t .rne c x

/-- The running sum of the elements of a list that satisfy a condition, from a start. -/
def scanUpTo (t : EType) (z : Nat) (x : Nat → Nat) (l : List Nat) (p : Nat → Bool) : Nat :=
  (l.filter p).foldl (fun c j => (scanAdd t c (x j)).1) z

theorem scanUpTo_cons {t : EType} {z i : Nat} {x : Nat → Nat} {l : List Nat} {p : Nat → Bool} (hp : p i = true) :
    scanUpTo t z x (i :: l) p = scanUpTo t (scanAdd t z (x i)).1 x l p := by
  simp [scanUpTo, hp]

theorem scanUpTo_none {t : EType} {z : Nat} {x : Nat → Nat} {l : List Nat} {p : Nat → Bool} (hp : ∀ j ∈ l, p j = false) :
    scanUpTo t z x l p = z := by
  rw [scanUpTo, List.filter_eq_nil_iff.2 (fun j hj => by simp [hp j hj])]
  rfl

/-- A scan gives each element of a rising list the sum of those before it, with its own where it is inclusive; and it raises the flags of all
the additions. -/
theorem scanRun_eq (t : EType) (ex : Bool) (x : Nat → Nat) (z : Nat) {l : List Nat} (hl : l.Pairwise (· < ·)) :
    scanRun t ex z (l.map (fun i => (i, x i))) =
      (l.map (fun j => (j, scanUpTo t z x l (fun m => if ex then decide (m < j) else decide (m ≤ j)))),
       l.foldr (fun j g => g ||| (scanAdd t (scanUpTo t z x l (fun m => decide (m < j))) (x j)).2) 0) := by
  induction l generalizing z with
  | nil => rfl
  | cons i r ih =>
    obtain ⟨hi, hr⟩ := List.pairwise_cons.1 hl
    have hbefore : scanUpTo t z x (i :: r) (fun m => decide (m < i)) = z :=
      scanUpTo_none (by simpa using fun j hj => (hi j hj).le)
    have hown : scanUpTo t z x (i :: r) (fun m => decide (m ≤ i)) = (scanAdd t z (x i)).1 := by
      rw [scanUpTo_cons (by simp), scanUpTo_none (by simpa using hi)]
    have hrun : scanRun t ex z ((i :: r).map (fun i => (i, x i))) =
        ((i, if ex then z else (scanAdd t z (x i)).1) :: (scanRun t ex (scanAdd t z (x i)).1 (r.map (fun i => (i, x i)))).1,
          (scanAdd t z (x i)).2 ||| (scanRun t ex (scanAdd t z (x i)).1 (r.map (fun i => (i, x i)))).2) := rfl
    rw [hrun, ih _ hr]
    refine Prod.ext ?_ ?_
    · simp only [List.map_cons]
      congr 1
      · cases ex
        · simp [hown]
        · simp [hbefore]
      · refine List.map_congr_left (fun j hj => ?_)
        rw [scanUpTo_cons (by have := hi j hj; cases ex <;> simp <;> omega)]
    · simp only [List.foldr_cons, hbefore]
      rw [Nat.or_comm]
      congr 1
      refine List.foldr_ext _ _ _ (fun j hj g => ?_)
      rw [scanUpTo_cons (by simpa using hi j hj)]

theorem actives_rising (t : Shuttle) (h : Hd) : (t.actives h).Pairwise (· < ·) := List.pairwise_lt_range.filter _

/-- The sum an element of a scan takes, and the flags of its addition. -/
def State.scanned (s : State) (h : Hd) (a : Fin 64) (z : Nat) (p : Nat → Bool) : Nat :=
  scanUpTo s.sh.et z (fun j => s.sh.elem a.val j s.sh.et) (s.sh.actives h) p

theorem exec_vscan {ex : Bool} : exec (.vscan h ex d a) s = vecOp (.vscan h ex d a) s (fun t => arithT t.et)
    (fun t => [(d, t.et), (a, t.et)]) (fun t => t.readsOf h [(a, t.et)])
    (fun t =>
      let r := scanRun t.et ex (if t.et.isInt then 0 else (EType.fmt t.et).signBit true) ((t.actives h).map (fun i => (i, t.vread a.val i t.et)))
      ((t.vwrites d.val t.et r.1).flag r.2).vdone) := rfl

/-- `vscan` writes the running sums and raises the flags of its additions. -/
theorem vscan_does {ex : Bool} {l : List Piece} (hk : arithT s.sh.et = true) (hs : s.shaped) (hd : aligned d s.sh.grp = true)
    (ha : aligned a s.sh.grp = true) (hp : s.sh.vpoison = []) (hr : XReady (.vscan h ex d a) s) (hv : .v ∈ l) (hvs : .vstart ∈ l) :
    let z := if s.sh.et.isInt then 0 else (EType.fmt s.sh.et).signBit true
    let fl := flagsOf s h (fun j => (scanAdd s.sh.et (s.scanned h a z (fun m => decide (m < j))) (s.sh.elem a.val j s.sh.et)).2)
    (.flags ∈ l ∨ fl = 0) → Does (.vscan h ex d a) s l (fun t => t.sh.vstart = 0 ∧ Puts s t d s.sh.et s.sh.grp (onActive s h (fun j =>
      s.scanned h a z (fun m => if ex then decide (m < j) else decide (m ≤ j)) % 2 ^ s.sh.et.bits)) ∧ Raises s t fl) := by
  intro z fl hf
  refine does_vwrites hs (aligned_fits hd) hs.2.2 ?_ vGroup_no_p hv hvs hf
  rw [vecOp_done exec_vscan (by simpa using hk) (by simp [grouped_et, hd, ha]) hp hr]
  have hc : (s.sh.actives h).map (fun i => (i, s.sh.vread a.val i s.sh.et)) = (s.sh.actives h).map (fun i => (i, s.sh.elem a.val i s.sh.et)) :=
    List.map_congr_left (fun j hj => by rw [vread_active (mem_actives.1 hj).2])
  simp only [atIssue_et, atIssue_actives, atIssue_vread, hc, scanRun_eq _ _ _ _ (actives_rising s.sh h)]
  rfl

end


theorem foldl_add_mod (x : Nat → Nat) (M : Nat) (l : List Nat) (z : Nat) :
    l.foldl (fun c j => (c + x j) % M) z % M = (z + (l.map x).sum) % M := by
  induction l generalizing z with
  | nil => simp
  | cons j r ih =>
    rw [List.foldl_cons, ih, Nat.mod_add_mod, List.map_cons, List.sum_cons, Nat.add_assoc]

/-- On an integer type a running sum is the sum, wrapped. -/
theorem scanned_int {s : State} {h : Hd} {a : Fin 64} (hi : s.sh.et.isInt = true) (p : Nat → Bool) :
    s.scanned h a 0 p % 2 ^ s.sh.et.bits = (((s.sh.actives h).filter p).map (fun m => s.sh.elem a.val m s.sh.et)).sum % 2 ^ s.sh.et.bits := by
  have h := foldl_add_mod (fun m => s.sh.elem a.val m s.sh.et) (2 ^ s.sh.et.bits) ((s.sh.actives h).filter p) 0
  simpa [State.scanned, scanUpTo, scanAdd, hi] using h

theorem flagsOf_zero {s : State} {h : Hd} {f : Nat → Nat} (hf : ∀ j, f j = 0) : flagsOf s h f = 0 := by
  unfold flagsOf
  induction s.sh.actives h with
  | nil => rfl
  | cons j r ih => simp [hf]

theorem wideFloat {e : EType} (he : e = .f32 ∨ e = .bf16 ∨ e = .f16 ∨ e = .e4 ∨ e = .e5) : e.isInt = false ∧ e ≠ .f4 := by
  rcases he with rfl | rfl | rfl | rfl | rfl <;> decide

/-- R166's refusals. -/
theorem redOk_false {k : RedK} {e : EType} (h : e = .f4 ∧ k ≠ .sum ∨ e.isInt = false ∧ k ∈ [.and, .or, .xor]) : redOk k e = false := by
  rcases h with ⟨rfl, hk⟩ | ⟨hi, hk⟩
  · simp [redOk, hk, EType.isInt]
  · simp only [List.mem_cons, List.not_mem_nil, or_false] at hk
    rcases hk with rfl | rfl | rfl <;> simp [redOk, hi]

theorem isInt_scan {e : EType} (hi : e.isInt = true) : arithT e = true ∧ ∀ c x, (scanAdd e c x).2 = 0 := by
  simp [arithT, scanAdd, hi]

/-- A running sum of a floating scan starts at −0 and rounds each addition to nearest (R168). -/
theorem isFloat_scan {e : EType} (he : IsFloat e) (c x : Nat) :
    scanAdd e c x = (EType.fmt e).rounded .rne (FVal.add .rne ((EType.fmt e).val c) ((EType.fmt e).val x)) ∧
      (EType.fmt e).signBit true = 2 ^ (e.bits - 1) := by
  obtain ⟨hi, -, -⟩ := isFloat_accepted he
  obtain ⟨hb, -, -⟩ := isFloat_sign he
  refine ⟨?_, ?_⟩
  · simp only [scanAdd, hi]
    rfl
  · simp [FFmt.signBit, hb]

/-- Settles O41: `vred` and `vredo` write one scalar from the codes of the active elements, where a fold that picks the lower key from the
bound of the type ends at the least element; `vscan` writes, by induction on the list of active elements, the sum of those before each. -/
theorem vectorReductions : Obligations.VectorReductions := by
  unfold Obligations.VectorReductions
  intro h k ex d a b s e hs ha hp L val word gives
  have hword (c : Nat) : word c = codeWord s.sh.et c := rfl
  refine ⟨fun hi hr => ?_, fun he hk hr => ?_, fun he hk hr => ?_, fun h4 hk hg hb hr => ?_, fun hno hr => ?_, fun h4 hr => ?_,
    fun hi acc x l => ⟨rfl, ?_⟩, fun hi hd hr => ?_, fun he hd hr => ?_⟩
  · have hd : gives (word (redInt s.sh.et k L)) := vred_int hi ha hp hr
    refine ⟨?_, ?_, ?_, ?_, ?_, ?_, ?_, ?_⟩
    · rintro rfl; exact hd
    · rintro rfl; exact hd
    · rintro rfl; exact hd
    · rintro rfl; exact hd
    · rintro rfl hL
      obtain ⟨m, hm, hle, he⟩ := foldl_pick_mem (minE_pick hi) hL (fun x _ => (ival_bounds hi x).2)
      refine ⟨m, hm, hle, ?_⟩
      rw [hword, codeWord_eq, ← he, ← codeWord_eq]
      exact hd
    · rintro rfl hL
      obtain ⟨m, hm, hle, he⟩ := foldl_pick_mem (key := fun c => -EType.ival s.sh.et c) (maxE_pick hi) hL
        (fun x _ => Int.neg_le_neg (ival_bounds hi x).1)
      refine ⟨m, hm, fun x hx => Int.neg_le_neg_iff.1 (hle x hx), ?_⟩
      rw [hword, codeWord_eq, ← neg_inj.1 he, ← codeWord_eq]
      exact hd
    · rintro rfl hL
      rw [hL] at hd
      exact (wrapInt_bounds hi).1 ▸ hd
    · rintro rfl hL
      rw [hL] at hd
      exact (wrapInt_bounds hi).2 ▸ hd
  · obtain rfl := hk
    exact vred_floatSum (wideFloat he).1 (wideFloat he).2 ha hp hr
  · exact vred_floatPick hk (wideFloat he).1 (wideFloat he).2 ha hp hr
  · obtain rfl := hk
    intro F v block
    have hblock : block = fun n => blockSum v (toSigned (s.sh.elem b.val n .i8) 8) ((s.sh.actives h).filter (fun j => j / 8 = n)) := by
      funext n
      simp only [block]
      generalize (s.sh.actives h).filter _ = l
      rcases l with _ | ⟨j, r⟩
      · rfl
      · simp only [blockSum]
        generalize r.foldl _ _ = y
        cases y <;> rfl
    rw [hblock]
    exact vred_blocks h4 hg ha hb hp hr
  · exact vred_refuses (redOk_false hno) hr
  · exact vredo_does h4 ha hp hr
  · simp [redoRun, redoAdd, hi]
  · refine (vscan_does (l := [.v, .vstart]) (isInt_scan hi).1 hs hd ha hp hr (by simp) (by simp) (.inr (flagsOf_zero fun j => (isInt_scan hi).2 _ _))).imp ?_
    rintro t ⟨h0, h1, -⟩
    refine ⟨h0, ?_⟩
    simpa only [show s.sh.et.isInt = true from hi, if_true, scanned_int hi] using h1
  · obtain ⟨hi, hk, -⟩ := isFloat_accepted he
    have hadd : scanAdd s.sh.et = fun c x => (EType.fmt s.sh.et).rounded .rne (FVal.add .rne ((EType.fmt s.sh.et).val c) ((EType.fmt s.sh.et).val x)) :=
      funext₂ fun c x => (isFloat_scan he c x).1
    have hz : (EType.fmt s.sh.et).signBit true = 2 ^ (s.sh.et.bits - 1) := (isFloat_scan he 0 0).2
    have hx := vscan_does (l := [.v, .vstart, .flags]) hk hs hd ha hp hr (by simp) (by simp) (.inl (by simp))
    simp only [State.scanned, scanUpTo, hadd, show s.sh.et.isInt = false from hi, hz] at hx
    exact hx

end Sys2Proof.Machine
end

section
/-! SUPPORT. The statement on matrix operands (R183) fails in a state whose cores are listed under other numbers than their own. -/

namespace Sys2Proof.Machine

/-- A fill of one row of one INT8 element, from address 0. -/
def oneByteFill : Instr := .mfill { gd := 63, ng := false, w := 0 } false false false 1 0 0 1

/-- A state that is not `State.named`: the core listed under 5 has the number of the core in focus, 0, and a clock of its own. The record of
the core in focus stands on core 5, and the byte at address 0 holds an error not yet met. -/
def misfiled : State :=
  { State.reset with
    sh := { Shuttle.reset with x := (Vector.replicate 64 0).set 1 1, nearLen := 64 }
    co := { Core.reset 0 with recId := some 7, owner := some 0, fa := { Fifo.reset with src := .fill, ty := .i8 } }
    cores := [(5, { Core.reset 0 with cycle := 99 })]
    recs := [{ (default : Rec) with id := 7, core := 5 }]
    latent := [nearKey 0 0] }

/-- The cycle in which the shuttle in focus last issued, in the state a meaning answers. -/
def lastIssueOf : Out3 → Option Nat
  | .next t => some t.sh.lastIssue
  | _ => none

theorem xReady_misfiled : XReady oneByteFill misfiled := by
  unfold XReady
  decide

/-- The row is read whole, through the error. -/
theorem fillRows_misfiled : (fillRows false (misfiled.co.fifo false).ty (misfiled.sh.srcC 1).toNat
    (fun r => (BitVec.ofInt 64 (((misfiled.sh.srcA 0).toNat : Int) + r * (misfiled.sh.srcB 0).toInt)).toNat) (misfiled.atIssue oneByteFill)
    (List.range (misfiled.sh.srcD 1).toNat)).2.2 = ((misfiled.sh.srcD 1).toNat, none) := by
  decide

/-- Counting the record of the error (R331) puts the core listed under 5 in focus, and the issue is recorded at that core's clock. -/
theorem lastIssue_misfiled : lastIssueOf (exec oneByteFill misfiled) = some 99 ∧ issueCycle oneByteFill misfiled = 1 := by
  decide

/-- Refutes O44: its clause on the rows of a fill does not ask that every core stands under its own number (`State.named`), nor that no error
is still to be met. In `misfiled` the fill reads a byte with such an error, and setting the core that counts its record replaces the core in
focus: the fill completes, but its issue is recorded at that core's clock, 99, and not in the first cycle it could issue, 1. -/
theorem not_matrixOperands : ¬ Obligations.MatrixOperands := by
  unfold Obligations.MatrixOperands
  intro h
  obtain ⟨-, -, -, -, -, -, -, hfill⟩ := h { gd := 63, ng := false, w := 0 } false false false false 1 0 0 1 misfiled
  obtain ⟨-, -, hrow⟩ := hfill xReady_misfiled rfl rfl (by decide) (by decide)
  obtain ⟨-, hroom⟩ := hrow (by decide) (by decide) (by decide) (by decide)
  obtain ⟨hdone, -⟩ := hroom (by decide)
  obtain ⟨t, ht, hi, -⟩ := hdone _ _ (Prod.ext rfl (Prod.ext rfl fillRows_misfiled))
  obtain ⟨hlast, hcycle⟩ := lastIssue_misfiled
  have h99 : t.sh.lastIssue = 99 := Option.some.inj ((congrArg lastIssueOf ht).symm.trans hlast)
  exact absurd (h99.symm.trans (hi.cycle.trans hcycle)) (by decide)

end Sys2Proof.Machine
end

section
/-! SUPPORT. Words and instructions stand for each other (R69, R72, R79, R82): the words written out and the round trip of `encode` and `decode`. -/

namespace Sys2Proof
/-- Every instruction is coded: the laws of its own, put together. -/
theorem coded (i : Instr) : Laws.Coded.Statement i := by
  cases i with
  | add => exact Laws.Coded.add _ _ _ _
  | sub => exact Laws.Coded.sub _ _ _ _
  | mul => exact Laws.Coded.mul _ _ _ _
  | mulh => exact Laws.Coded.mulh _ _ _ _ _
  | div => exact Laws.Coded.div _ _ _ _ _
  | rem => exact Laws.Coded.rem _ _ _ _ _
  | and => exact Laws.Coded.and _ _ _ _
  | or => exact Laws.Coded.or _ _ _ _
  | xor => exact Laws.Coded.xor _ _ _ _
  | sll => exact Laws.Coded.sll _ _ _ _
  | srl => exact Laws.Coded.srl _ _ _ _
  | sra => exact Laws.Coded.sra _ _ _ _ _
  | min => exact Laws.Coded.min _ _ _ _ _
  | max => exact Laws.Coded.max _ _ _ _ _
  | clz => exact Laws.Coded.clz _ _ _
  | ctz => exact Laws.Coded.ctz _ _ _
  | popc => exact Laws.Coded.popc _ _ _
  | addi => exact Laws.Coded.addi _ _ _ _
  | andi => exact Laws.Coded.andi _ _ _ _
  | ori => exact Laws.Coded.ori _ _ _ _
  | xori => exact Laws.Coded.xori _ _ _ _
  | shi => exact Laws.Coded.shi _ _ _ _ _
  | li => exact Laws.Coded.li _ _ _ _
  | lih => exact Laws.Coded.lih _ _ _ _
  | addpc => exact Laws.Coded.addpc _ _ _
  | sel => exact Laws.Coded.sel _ _ _ _ _
  | pcmp => exact Laws.Coded.pcmp _ _ _ _ _
  | pcmpi => exact Laws.Coded.pcmpi _ _ _ _ _
  | plog => exact Laws.Coded.plog _ _ _ _ _
  | psetAll => exact Laws.Coded.psetAll _ _ _
  | psetLt => exact Laws.Coded.psetLt _ _ _ _
  | psetMod => exact Laws.Coded.psetMod _ _ _
  | psetBits => exact Laws.Coded.psetBits _ _ _
  | pcnt => exact Laws.Coded.pcnt _ _ _
  | pfirst => exact Laws.Coded.pfirst _ _ _
  | br => exact Laws.Coded.br _ _ _ _
  | jmp => exact Laws.Coded.jmp _ _
  | call => exact Laws.Coded.call _ _ _
  | ret => exact Laws.Coded.ret _ _
  | jr => exact Laws.Coded.jr _ _ _
  | loop => exact Laws.Coded.loop _ _ _ _ _
  | loopx => exact Laws.Coded.loopx _ _ _ _ _
  | xsync => exact Laws.Coded.xsync _
  | xsyncI => exact Laws.Coded.xsyncI _
  | xnop => exact Laws.Coded.xnop _ _
  | nop => exact Laws.Coded.nop _
  | ld => exact Laws.Coded.ld _ _ _ _ _ _ _
  | st => exact Laws.Coded.st _ _ _ _ _ _
  | stnb => exact Laws.Coded.stnb _ _ _ _ _
  | ldq => exact Laws.Coded.ldq _ _ _ _ _ _
  | ldqG => exact Laws.Coded.ldqG _ _ _ _
  | ldqX => exact Laws.Coded.ldqX _ _ _
  | ldqR => exact Laws.Coded.ldqR _ _ _
  | qmovXq => exact Laws.Coded.qmovXq _ _ _
  | qmovQx => exact Laws.Coded.qmovQx _ _ _
  | qmovQq => exact Laws.Coded.qmovQq _ _ _
  | amo => exact Laws.Coded.amo _ _ _ _ _ _ _ _
  | amocas => exact Laws.Coded.amocas _ _ _ _ _ _ _
  | red => exact Laws.Coded.red _ _ _ _ _ _
  | fas => exact Laws.Coded.fas _ _ _ _ _ _
  | fence => exact Laws.Coded.fence _
  | fenceWl => exact Laws.Coded.fenceWl _
  | fenceXa => exact Laws.Coded.fenceXa _
  | barInit => exact Laws.Coded.barInit _ _ _
  | barArv => exact Laws.Coded.barArv _ _ _ _ _
  | barExp => exact Laws.Coded.barExp _ _ _
  | barWt => exact Laws.Coded.barWt _ _ _ _
  | barTwt => exact Laws.Coded.barTwt _ _ _ _ _
  | tileStRd => exact Laws.Coded.tileStRd _ _ _
  | tileStArm => exact Laws.Coded.tileStArm _ _ _ _
  | tileStDone => exact Laws.Coded.tileStDone _ _ _
  | tileStAbort => exact Laws.Coded.tileStAbort _ _ _
  | tileStRel => exact Laws.Coded.tileStRel _ _ _
  | tileWt => exact Laws.Coded.tileWt _ _ _
  | wlb => exact Laws.Coded.wlb _ _ _
  | wlbWt => exact Laws.Coded.wlbWt _ _ _
  | vsetl => exact Laws.Coded.vsetl _ _ _ _ _ _ _
  | vld => exact Laws.Coded.vld _ _ _ _ _
  | vlds => exact Laws.Coded.vlds _ _ _ _ _ _
  | vldx => exact Laws.Coded.vldx _ _ _ _ _ _ _ _ _
  | vst => exact Laws.Coded.vst _ _ _ _ _
  | vsts => exact Laws.Coded.vsts _ _ _ _ _ _
  | vstx => exact Laws.Coded.vstx _ _ _ _ _ _ _ _
  | vldq => exact Laws.Coded.vldq _ _ _ _
  | vadd => exact Laws.Coded.vadd _ _ _ _ _ _ _
  | vsub => exact Laws.Coded.vsub _ _ _ _ _ _ _
  | vmul => exact Laws.Coded.vmul _ _ _ _ _ _ _
  | vfma => exact Laws.Coded.vfma _ _ _ _ _ _ _
  | vfms => exact Laws.Coded.vfms _ _ _ _ _ _ _
  | vmin => exact Laws.Coded.vmin _ _ _ _ _
  | vmax => exact Laws.Coded.vmax _ _ _ _ _
  | vabs => exact Laws.Coded.vabs _ _ _ _
  | vneg => exact Laws.Coded.vneg _ _ _ _
  | vand => exact Laws.Coded.vand _ _ _ _ _
  | vor => exact Laws.Coded.vor _ _ _ _ _
  | vxor => exact Laws.Coded.vxor _ _ _ _ _
  | vsll => exact Laws.Coded.vsll _ _ _ _ _ _
  | vsrl => exact Laws.Coded.vsrl _ _ _ _ _ _
  | vsra => exact Laws.Coded.vsra _ _ _ _ _ _ _ _
  | vmulh => exact Laws.Coded.vmulh _ _ _ _ _
  | vdot2 => exact Laws.Coded.vdot2 _ _ _ _ _ _
  | vmacw => exact Laws.Coded.vmacw _ _ _ _ _ _
  | vnarrow => exact Laws.Coded.vnarrow _ _ _ _ _ _ _
  | vwiden => exact Laws.Coded.vwiden _ _ _ _
  | vcvt => exact Laws.Coded.vcvt _ _ _ _ _ _
  | vcmp => exact Laws.Coded.vcmp _ _ _ _ _ _
  | vsel => exact Laws.Coded.vsel _ _ _ _ _
  | vslide => exact Laws.Coded.vslide _ _ _ _ _ _ _
  | vperm => exact Laws.Coded.vperm _ _ _ _ _
  | vbcast => exact Laws.Coded.vbcast _ _ _
  | vbcastEl => exact Laws.Coded.vbcastEl _ _ _ _
  | vmovx => exact Laws.Coded.vmovx _ _ _ _
  | vmovxV => exact Laws.Coded.vmovxV _ _ _ _
  | vred => exact Laws.Coded.vred _ _ _ _ _
  | vredo => exact Laws.Coded.vredo _ _ _ _
  | vscan => exact Laws.Coded.vscan _ _ _ _
  | viota => exact Laws.Coded.viota _ _ _
  | viotaIdx => exact Laws.Coded.viotaIdx _ _
  | vcompress => exact Laws.Coded.vcompress _ _ _ _
  | vexpand => exact Laws.Coded.vexpand _ _ _ _
  | vsfu => exact Laws.Coded.vsfu _ _ _ _ _
  | vscl => exact Laws.Coded.vscl _ _ _ _ _ _
  | vpush => exact Laws.Coded.vpush _ _ _ _ _
  | mtl => exact Laws.Coded.mtl _ _ _ _ _
  | mbind => exact Laws.Coded.mbind _ _ _ _ _
  | mfill => exact Laws.Coded.mfill _ _ _ _ _ _ _ _
  | mma => exact Laws.Coded.mma _ _ _ _ _ _ _ _
  | mzero => exact Laws.Coded.mzero _ _
  | mrd => exact Laws.Coded.mrd _ _ _ _ _ _
  | mwr => exact Laws.Coded.mwr _ _ _ _
  | mbs => exact Laws.Coded.mbs _ _ _
  | mbsRd => exact Laws.Coded.mbsRd _ _ _
  | mdrain => exact Laws.Coded.mdrain _ _ _ _ _ _ _ _ _
  | mownAcq => exact Laws.Coded.mownAcq _ _
  | mownTry => exact Laws.Coded.mownTry _ _
  | mownRel => exact Laws.Coded.mownRel _
  | mownRd => exact Laws.Coded.mownRd _ _
  | cdefArena => exact Laws.Coded.cdefArena _ _ _ _
  | cdefT => exact Laws.Coded.cdefT _ _ _ _ _
  | cdefLen => exact Laws.Coded.cdefLen _ _ _
  | clen => exact Laws.Coded.clen _ _ _
  | clenCap => exact Laws.Coded.clenCap _ _ _
  | clenDesc => exact Laws.Coded.clenDesc _ _ _
  | clenArena => exact Laws.Coded.clenArena _ _
  | cld => exact Laws.Coded.cld _ _ _ _ _ _
  | cldSt => exact Laws.Coded.cldSt _ _ _ _
  | csel => exact Laws.Coded.csel _ _ _ _ _ _ _ _
  | cselp => exact Laws.Coded.cselp _ _ _ _ _ _ _ _
  | cgath => exact Laws.Coded.cgath _ _ _ _ _ _
  | cscat => exact Laws.Coded.cscat _ _ _ _ _ _
  | cjoin => exact Laws.Coded.cjoin _ _ _ _ _ _ _
  | csort => exact Laws.Coded.csort _ _ _ _ _ _
  | cgrp => exact Laws.Coded.cgrp _ _ _ _ _
  | cagg => exact Laws.Coded.cagg _ _ _ _ _ _ _ _
  | cuniq => exact Laws.Coded.cuniq _ _ _ _ _ _
  | cres => exact Laws.Coded.cres _ _ _ _ _ _ _ _ _
  | ccurClr => exact Laws.Coded.ccurClr _
  | ccurRd => exact Laws.Coded.ccurRd _ _
  | ccurWr => exact Laws.Coded.ccurWr _ _
  | cvecLd => exact Laws.Coded.cvecLd _ _ _ _ _
  | cvecApp => exact Laws.Coded.cvecApp _ _ _ _ _
  | hcopy => exact Laws.Coded.hcopy _ _ _ _ _ _ _ _ _ _ _ _
  | hxfm => exact Laws.Coded.hxfm _ _ _ _ _ _ _ _
  | hprog => exact Laws.Coded.hprog _ _ _
  | hfab => exact Laws.Coded.hfab _ _ _ _ _ _ _ _ _ _ _ _ _
  | hstatRd => exact Laws.Coded.hstatRd _ _ _
  | hstatWt => exact Laws.Coded.hstatWt _ _ _
  | hstatRel => exact Laws.Coded.hstatRel _ _ _
  | hstatAbort => exact Laws.Coded.hstatAbort _ _ _
  | hcsumRd => exact Laws.Coded.hcsumRd _ _
  | hcsumSet => exact Laws.Coded.hcsumSet _ _
  | hcsumChk => exact Laws.Coded.hcsumChk _ _ _
  | xco => exact Laws.Coded.xco _ _ _
  | xnext => exact Laws.Coded.xnext _ _ _
  | xcurRdl => exact Laws.Coded.xcurRdl _ _
  | xcurRdh => exact Laws.Coded.xcurRdh _ _
  | xcurWrl => exact Laws.Coded.xcurWrl _ _
  | xcurWrh => exact Laws.Coded.xcurWrh _ _
  | xcurClr => exact Laws.Coded.xcurClr _
  | tnow => exact Laws.Coded.tnow _ _
  | tnowSt => exact Laws.Coded.tnowSt _ _
  | tarm => exact Laws.Coded.tarm _ _ _
  | tarmClr => exact Laws.Coded.tarmClr _ _
  | trap => exact Laws.Coded.trap _ _
  | eret => exact Laws.Coded.eret _
  | srd => exact Laws.Coded.srd _ _ _
  | swr => exact Laws.Coded.swr _ _ _
  | halt => exact Laws.Coded.halt _ _
  | bkpt => exact Laws.Coded.bkpt _ _
  | yield => exact Laws.Coded.yield _
  | xinvPg => exact Laws.Coded.xinvPg _ _ _
  | xinvAll => exact Laws.Coded.xinvAll _ _
  | keyz => exact Laws.Coded.keyz _ _
  | scrubSt => exact Laws.Coded.scrubSt _ _
  | scrubRd => exact Laws.Coded.scrubRd _ _ _
  | scrubWt => exact Laws.Coded.scrubWt _ _
  | frqN => exact Laws.Coded.frqN _ _
  | frqPop => exact Laws.Coded.frqPop _ _ _
  | wfe => exact Laws.Coded.wfe _ _ _
  | cnt => exact Laws.Coded.cnt _ _ _
  | hrd => exact Laws.Coded.hrd _ _
  | hwr => exact Laws.Coded.hwr _ _
  | hcvt => exact Laws.Coded.hcvt _ _ _ _ _ _
  | hqnt => exact Laws.Coded.hqnt _ _ _ _ _ _ _
  | hfrm => exact Laws.Coded.hfrm _ _ _ _ _
  | hunf => exact Laws.Coded.hunf _ _ _ _ _ _
  | hxps => exact Laws.Coded.hxps _ _ _ _
  | hprm => exact Laws.Coded.hprm _ _ _ _
  | hpak => exact Laws.Coded.hpak _ _ _
  | hfold => exact Laws.Coded.hfold _ _
  | hunfold => exact Laws.Coded.hunfold _ _
  | hcrc => exact Laws.Coded.hcrc _
  | hhsh => exact Laws.Coded.hhsh _
  | hloop => exact Laws.Coded.hloop _ _
  | endPass => exact Laws.Coded.endPass
  | hnop => exact Laws.Coded.hnop
  | _ => exact fun _ => trivial

theorem pack_lt {op d a lo : Nat} (h : Hd) (ho : op < 2 ^ 8) (hd : d < 2 ^ 6) (ha : a < 2 ^ 6) (hl : lo < 2 ^ 34) : pack op h d a lo < 2 ^ 64 := by
  have hn := Bool.toNat_lt h.ng
  unfold pack
  omega

/-- The word of an A-class instruction has 64 bits. The condition of `pcmpi` is that of `pcmp`, of which its narrower fn holds four. -/
theorem encode_aClass_lt (i : Instr) (hw : i.wf = true) (hk : i.kind = .aClass) : encode i < 2 ^ 64 := by
  cases i <;> cases hk
  case' pcmpi k _ _ _ => have : k.code < 4 := by simp_all [Instr.wf]
  case' mulh k _ _ _ | shi k _ _ _ | pcmp k _ _ _ | br k _ _ | amo k _ _ _ _ _ _ | red k _ _ _ _ => have := k.code_lt
  case' srd k _ | swr k _ | cnt k _ => have := k.sel_lt
  all_goals
    simp only [encode, loS, loI, loB, loM, loE, loY, ← BitVec.toNat_ofBool]
    apply pack_lt <;> omega

/-- The word of an X-class instruction has 64 bits. -/
theorem encode_xClass_lt (i : Instr) (hk : i.kind = .xClass) : encode i < 2 ^ 64 := by
  cases i <;> cases hk
  case' cscat k _ _ _ _ | fas k _ _ _ _ | vsetl k _ _ _ | vld k _ _ _ | vlds k _ _ _ _ | vst k _ _ _ | vsts k _ _ _ _ | vldq k _ _ |
    vwiden k _ _ | vperm k _ _ _ | cdefT k _ _ _ | vadd k _ _ _ | vsub k _ _ _ | vmul k _ _ _ | vfma k _ _ _ _ | vfms k _ _ _ _ | vmacw k _ _ _ |
    vscl k _ _ _ _ | vcmp k _ _ _ _ | csel k _ _ _ _ _ _ | cselp k _ _ _ _ _ _ | vred k _ _ _ | cjoin k _ _ _ _ _ | cagg k _ _ _ _ _ _ |
    xco k _ => have := k.code_lt
  case' vldx k m _ _ _ _ _ _ | vstx k m _ _ _ _ _ | vnarrow k m _ _ _ | vsfu k m _ _ | mbind k m _ | mma k m _ _ _ _ |
    mrd k m _ _ _ => have := k.code_lt; have := m.code_lt
  case' vsll k _ _ _ _ | vsrl k _ _ _ _ => have := src2Fn_lt k
  case' vsra k _ m _ _ _ _ => have := src2Fn_lt k; have := m.code_lt
  case' vcvt k m n _ _ | mdrain k m n _ _ _ _ _ => have := k.code_lt; have := m.code_lt; have := n.code_lt
  all_goals
    simp only [encode, loS, loI, loV, loW, loC, loE, ← BitVec.toNat_ofBool]
    apply pack_lt <;> omega

/-- The word of a micro-op has 32 bits. -/
theorem encode_micro_lt (i : Instr) (hk : i.kind = .micro) : encode i < 2 ^ 32 := by
  cases i <;> cases hk
  case' hcvt k m _ | hqnt k m _ _ | hunf k m _ => have := k.code_lt; have := m.code_lt
  all_goals simp only [encode, ← BitVec.toNat_ofBool]; omega

theorem encode_event {i : Instr} (hk : i.kind = .event) : encode i = 0 := by
  cases i <;> cases hk <;> rfl

/-- A word whose bits above the 55th are zero names an `add`. -/
theorem build_op_zero {w : Nat} (hw : w < 2 ^ 56) : ∃ h d a b, build (unpack w) = some (.add h d a b) := by
  have hop : (unpack w).op = 0 := by simp only [unpack, bitsAt]; omega
  exact ⟨(unpack w).h, reg (unpack w).d, reg (unpack w).a, reg (bitsAt (unpack w).lo 28 6), by simp [build, build0, hop]⟩

theorem decode_eq_some {w : Nat} {i : Instr} (h : decode w = some i) : build (unpack w) = some i ∧ i.wf = true ∧ encode i = w := by
  unfold decode at h
  split at h
  · next hb =>
    split_ifs at h with hc
    obtain rfl := Option.some.inj h
    exact ⟨hb, by simpa using hc⟩
  · cases h

/-- A word that decodes names no event and no micro-op: their words are short, and a short word names an `add`. -/
theorem decode_kind {w : Nat} {i : Instr} (h : decode w = some i) : i.kind = .aClass ∨ i.kind = .xClass := by
  obtain ⟨hb, -, he⟩ := decode_eq_some h
  have short (hw : w < 2 ^ 56) : i.kind = .aClass := by
    obtain ⟨h, d, a, b, hadd⟩ := build_op_zero hw
    obtain rfl : .add h d a b = i := by simpa [hadd] using hb
    rfl
  cases hk : i.kind with
  | aClass => exact .inl rfl
  | xClass => exact .inr rfl
  | micro => exact absurd (hk ▸ short (by have := encode_micro_lt i hk; omega)) (by decide)
  | event => exact absurd (hk ▸ short (by have := encode_event hk; omega)) (by decide)

/-- What is built, if anything is, is a micro-op. -/
def OnlyMicro (o : Option Instr) : Prop := ∀ i, o = some i → i.kind = .micro

theorem OnlyMicro.none : OnlyMicro none := fun _ h => absurd h (by simp)

theorem OnlyMicro.some {j : Instr} (hj : j.kind = .micro) : OnlyMicro (some j) := fun _ h => Option.some.inj h ▸ hj

theorem OnlyMicro.bind {α : Type} {o : Option α} {f : α → Option Instr} (hf : ∀ a, OnlyMicro (f a)) : OnlyMicro (o.bind f) := fun i h => by
  obtain ⟨a, -, ha⟩ := Option.bind_eq_some_iff.1 h
  exact hf a i ha

theorem OnlyMicro.ite {c : Prop} [Decidable c] {a b : Option Instr} (ha : OnlyMicro a) (hb : OnlyMicro b) : OnlyMicro (if c then a else b) := by
  split <;> assumption

theorem buildMicro_onlyMicro (w : Nat) : OnlyMicro (buildMicro w) := by
  have rounded {f : Rm → Ov → Instr} (hf : ∀ r v, (f r v).kind = .micro) :
      OnlyMicro ((Rm.ofCode (bitsAt w 14 2)).bind fun rm => (Ov.ofCode (bitsAt w 12 2)).bind fun ov => some (f rm ov)) :=
    .bind fun r => .bind fun v => .some (hf r v)
  exact .ite (.some rfl) <| .ite (.some rfl) <| .ite (rounded fun _ _ => rfl) <| .ite (rounded fun _ _ => rfl) <| .ite (.some rfl) <|
    .ite (rounded fun _ _ => rfl) <| .ite (.some rfl) <| .ite (.some rfl) <| .ite (.some rfl) <| .ite (.some rfl) <| .ite (.some rfl) <|
    .ite (.some rfl) <| .ite (.some rfl) <| .ite (.some rfl) <| .ite (.some rfl) <| .ite (.some rfl) .none

theorem decodeMicro_eq_some {w : Nat} {i : Instr} (h : decodeMicro w = some i) : buildMicro w = some i ∧ encode i = w := by
  unfold decodeMicro at h
  split at h
  · next hb =>
    split_ifs at h with hc
    obtain rfl := Option.some.inj h
    obtain ⟨he, -⟩ : encode _ = w ∧ bitsAt w 16 5 ≤ 17 := by simpa using hc
    exact ⟨hb, he⟩
  · cases h

/-- Settles O1: the words are evaluated. -/
theorem decodeWords : Obligations.DecodeWords := by
  unfold Obligations.DecodeWords
  decide

/-- Settles O2: each instruction's word packs the fields that build it; a word decodes only to what it is the word of. -/
theorem codingRoundTrip : Obligations.CodingRoundTrip := by
  unfold Obligations.CodingRoundTrip
  refine ⟨fun i hw hk => ?_, fun i hw hk => ?_, fun w i h => ?_, fun w i h => ?_⟩
  · have hc := coded i hw
    rcases hk with hk | hk
    · rw [hk] at hc
      exact ⟨hc, encode_aClass_lt i hw hk⟩
    · rw [hk] at hc
      exact ⟨hc, encode_xClass_lt i hk⟩
  · have hc := coded i hw
    rw [hk] at hc
    exact ⟨hc, encode_micro_lt i hk⟩
  · obtain ⟨-, hw, he⟩ := decode_eq_some h
    exact ⟨hw, he, decode_kind h⟩
  · obtain ⟨hb, he⟩ := decodeMicro_eq_some h
    exact ⟨he, buildMicro_onlyMicro w i hb⟩

end Sys2Proof
end

section
/-! SUPPORT. The statement on programs and status (R227) fails in a state whose cores are listed under other numbers than their own. -/

namespace Sys2Proof.Machine

/-- A running command of record 7 that has moved nothing and has no chunk to finish. -/
def idlePut : Cmd := { (default : Cmd) with kind := .put, run := true, recId := 7 }

/-- A state that is not `State.named`: the core listed under 5, on which record 7 stands, has the number of the core in focus, 0. The handle in
x2 is that of the command in slot 0 of core 0, which a shuttle of record 7 started. -/
def misnamed : State :=
  { State.reset with
    sh := Shuttle.reset
    co := { Core.reset 0 with cmds := [(0, idlePut)] }
    cores := [(5, { Core.reset 0 with recId := some 7 })]
    recs := [{ (default : Rec) with id := 7, core := 5 }] }

/-- The abort of the command whose handle x2 holds, its word to x1. -/
def abortIdle : Instr := .hstatAbort { gd := 63, ng := false, w := 0 } 1 2

/-- A scalar register in the state a meaning answers. -/
def regOf (n : Fin 64) : Out3 → Option Word
  | .next t => some (t.sh.xget n)
  | _ => none

theorem regOf_setX_past (s : State) (v : Word) : regOf 1 (.next (s.setX 1 v).past) = some v := by
  simp [regOf, State.past, State.setX, Shuttle.xset, Shuttle.xget]

theorem ready_misnamed (rs : List RegId) (hrs : aBlocked misnamed rs = none) : Ready { gd := 63, ng := false, w := 0 } rs misnamed :=
  ⟨by decide, by decide, hrs⟩

/-- Event bit 1 is set on core 5; setting that core replaces core 0, and the command with it. -/
theorem abortIdle_word : regOf 1 (exec abortIdle misnamed) = some 0 := by
  decide

/-- Refutes O32: its clause on `hstat.abort` asks that the core the handle names has its own number, but not that the core on which the
command's shuttle stands has (`State.named`). In `misnamed` the abort ends the command of core 0 and sets event bit 1 on the core listed under
5, whose number is 0 as well: that replaces core 0, no command stands for the handle any more, and the word written is 0, not that of a
command ended with err 7. -/
theorem not_programsAndStatus : ¬ Obligations.ProgramsAndStatus := by
  unfold Obligations.ProgramsAndStatus
  intro h
  obtain ⟨-, hstat⟩ := h
  obtain ⟨-, hstands, -⟩ := hstat { gd := 63, ng := false, w := 0 } 1 2 misnamed (ready_misnamed _ (by decide)) (ready_misnamed _ (by decide))
    (ready_misnamed _ (by decide))
  obtain ⟨-, hrun, -⟩ := hstands idlePut (by decide)
  obtain ⟨-, -, -, hends⟩ := hrun rfl
  obtain ⟨v, hx, hv⟩ := hends (by decide)
  have hword : some v = some 0 := (regOf_setX_past _ v).symm.trans ((congrArg (regOf 1) hx).symm.trans abortIdle_word)
  have hne : BitVec.ofNat 64 (2 * 2 ^ 62 + 7 * 2 ^ 48 + idlePut.expect % 2 ^ 16 * 2 ^ 16 + idlePut.done % 2 ^ 16) ≠ 0 := by decide
  exact hne ((hv rfl).symm.trans (Option.some.inj hword))

end Sys2Proof.Machine
end

section
/-! SUPPORT. The micro-ops of a heddle program (R233, R235, R236): what each does on a running transform command, from what its body comes to. -/

namespace Sys2Proof.Machine

/-! ## A micro-op at its turn -/

/-- The heddle of the core in focus executes a micro-op of a running transform command that is not stopped. -/
structure Transforms (s : State) (c : Cmd) : Prop where
  slot : afind? s.co.cmds s.co.hslot = some c
  run : c.run = true
  kind : c.kind = .xfm
  going : c.stop = false

/-- What a micro-op of a command answers, from what its body comes to. -/
def MOut.answer (s : State) (c : Cmd) : MOut → Out3
  | .next t c1 => .next (t.setCmd s.co.id s.co.hslot c1.advance)
  | .wait t => .next t
  | .fail t e f => .next (endCmdErr t s.co.id s.co.hslot e c.chunkNo (f.map (fun g => { g with index := c.chunkNo })))

@[simp] theorem State.core_focus (s : State) : s.core s.co.id = s.co := if_pos rfl

theorem Transforms.cmd? {s : State} {c : Cmd} (h : Transforms s c) : s.cmd? s.co.id s.co.hslot = some c := by
  rw [State.cmd?, State.core_focus, h.slot]

theorem micro_answer {s : State} {c : Cmd} (h : Transforms s c) (body : State → Nat → Cmd → MOut) :
    micro s body = (body s s.co.hslot c).answer s c := by
  have hgo : (!c.run || c.kind != .xfm || (c.stop && !c.writing)) = false := by simp [h.run, h.kind, h.going]
  simp only [micro, h.cmd?, hgo, Bool.false_eq_true, if_false]
  cases body s s.co.hslot c <;> rfl

/-- The command with a staging buffer filled. -/
def Cmd.filled (c : Cmd) (d : Fin 8) (bs : List Byte) (p : Bool) (form : Option Nat) (short : List Nat) : Cmd :=
  { c with bufs := c.bufs.set d.val bs, bpois := c.bpois.set d.val p, runFmt := c.runFmt.set d.val form,
           short := if short = [] then adel c.short d.val else aput c.short d.val short }

/-- A micro-op fills a staging buffer and goes on, or ends its command with err 10 where the buffer is too small (R236). -/
def Fills (i : Instr) (s : State) (c : Cmd) (d : Fin 8) (bs : List Byte) (p : Bool) (form : Option Nat) (short : List Nat) : Prop :=
  (bs.length ≤ 16384 → exec i s = .next (s.setCmd s.co.id s.co.hslot (c.filled d bs p form short).advance)) ∧
  (16384 < bs.length → exec i s = .next (endCmdErr s s.co.id s.co.hslot 10 c.chunkNo none))

theorem putBuf_room {bs : List Byte} (h : bs.length ≤ 16384) (s : State) (c : Cmd) (d : Fin 8) (p : Bool) (form : Option Nat) (short : List Nat) :
    putBuf s c d bs p form short = .next s (c.filled d bs p form short) := if_neg (Nat.not_lt.2 h)

theorem fills_of_putBuf {i : Instr} {s : State} {c : Cmd} {d : Fin 8} {bs : List Byte} {p : Bool} {form : Option Nat} {short : List Nat}
    (h : exec i s = (putBuf s c d bs p form short).answer s c) : Fills i s c d bs p form short :=
  ⟨fun hb => by rw [h, putBuf_room hb]; rfl, fun hb => by rw [h, putBuf, if_pos hb]; rfl⟩

/-! ## Lists of values and of bytes -/

/-- The first value that overflows under the trap policy ends a conversion (R60). -/
theorem convAll_trap {k : NKind} {rm : Rm} {ov : Ov} {vs : List FVal} {i : Nat} {x : FVal} (hx : vs[i]? = some x)
    (ht : (k.convert rm ov false x).trap = true) (hb : ∀ j y, j < i → vs[j]? = some y → (k.convert rm ov false y).trap = false) (n : Nat) :
    convAll k rm ov n vs = .error (n + i) := by
  induction vs generalizing i n with
  | nil => simp at hx
  | cons v vs ih =>
    cases i with
    | zero =>
      obtain rfl : v = x := by simpa using hx
      simp [convAll, ht]
    | succ i =>
      have hv : (k.convert rm ov false v).trap = false := hb 0 v (Nat.succ_pos i) rfl
      have hr := ih (i := i) (by simpa using hx) (fun j y hj hy => hb (j + 1) y (by omega) (by simpa using hy)) (n + 1)
      simp only [convAll, hv, hr, Bool.false_eq_true, if_false]
      congr 1
      omega

/-- As `convAll_trap`, for the codes of values converted from the first on. -/
theorem convAll_codes_trap {k : NKind} {rm : Rm} {ov : Ov} {val : Nat → FVal} {e : List Nat} {i x : Nat} (hx : e[i]? = some x)
    (ht : (k.convert rm ov false (val x)).trap = true)
    (hb : ∀ j y, j < i → e[j]? = some y → (k.convert rm ov false (val y)).trap = false) : convAll k rm ov 0 (e.map val) = .error i := by
  have hval : (e.map val)[i]? = some (val x) := by rw [List.getElem?_map, hx]; rfl
  rw [convAll_trap hval ht (fun j y hj hy => ?_), Nat.zero_add]
  rw [List.getElem?_map] at hy
  obtain ⟨z, hz, rfl⟩ := Option.map_eq_some_iff.1 hy
  exact hb j z hj hz

/-- The values of the valid elements of some blocks (R51). -/
def valuesOf (blocks : List (List Byte)) : List FVal := blocks.flatMap (fun b => (List.range (blockN b)).map (blockVal b))

/-- A buffer that another is packed onto, padded to whole blocks (R235). -/
def pakBase (bs : List Byte) (pad : Bool) : List Byte := bs ++ List.replicate (if pad then (bs.length + 63) / 64 * 64 - bs.length else 0) 0

theorem pakBase_eq (bs : List Byte) (pad : Bool) : (if pad then padTo (ceilDiv bs.length 64 * 64) bs else bs) = pakBase bs pad := by
  cases pad <;> simp [pakBase, padTo, ceilDiv]

/-- The places of the short runs of a buffer with another packed onto it. -/
def pakShorts (c : Cmd) (d a : Fin 8) (pad : Bool) : List Nat :=
  match pakForm (c.buf d) (pakBase (c.buf d) pad) (c.buf a) (c.form d) (c.form a) with
  | some f => c.shorts d ++ (c.shorts a).map (· + (pakBase (c.buf d) pad).length / runBytes f)
  | none => []

/-- A list of one value has that value alone without repeats. -/
theorem eraseDups_const {α : Type} [BEq α] [LawfulBEq α] {l : List α} {g : α} (hne : l ≠ []) (hg : ∀ x ∈ l, x = g) : l.eraseDups = [g] := by
  obtain ⟨x, r, rfl⟩ := List.exists_cons_of_ne_nil hne
  obtain rfl : x = g := hg x (by simp)
  have hr : r.filter (fun b => !b == x) = [] := List.filter_eq_nil_iff.2 fun b hb => by simp [hg b (by simp [hb])]
  rw [List.eraseDups_cons, hr, List.eraseDups_nil]

/-- Pieces of one length put together are cut apart again. -/
theorem cutN_flatten {n : Nat} (hn : 0 < n) {us : List (List Byte)} (hu : ∀ u ∈ us, u.length = n) {k : Nat} (hk : us.length ≤ k) :
    cutN n k us.flatten = us := by
  induction us generalizing k with
  | nil => cases k <;> rfl
  | cons u us ih =>
    obtain ⟨k, rfl⟩ : ∃ j, k = j + 1 := ⟨k - 1, by simp at hk; omega⟩
    have hlen : u.length = n := hu u (by simp)
    have hne : u ++ us.flatten ≠ [] := fun he => by simp [(List.append_eq_nil_iff.1 he).1] at hlen; omega
    have hr := ih (fun v hv => hu v (by simp [hv])) (k := k) (by simpa using hk)
    rw [List.flatten_cons, cutN, if_neg hne, List.take_left' hlen, List.drop_left' hlen, hr]

section
variable {s : State} {c : Cmd} (h : Transforms s c)
include h

/-! ## Reading rows -/

theorem exec_hrd_rows {d : Fin 8} {im : BitVec 12} {t : State} {bs : List Byte} {p : Bool}
    (hrow : min (im.toNat + 1) (c.rows - c.r) * c.rowBytes ≤ 16384)
    (hread : readRows s.co.id c (min (im.toNat + 1) (c.rows - c.r)) c.r s = (t, .ok bs p)) (hbs : bs.length ≤ 16384) :
    exec (.hrd d im) s = .next ((countHed t t.co.id bs.length).setCmd s.co.id s.co.hslot
      (({ c with r := c.r + min (im.toNat + 1) (c.rows - c.r) } : Cmd).filled d bs p none []).advance) := by
  simp only [exec, execHrd, micro_answer h, Nat.min_def] at hrow hread ⊢
  simp only [Nat.not_lt.2 hrow, if_false, hread, putBuf_room hbs, MOut.answer]

theorem exec_hrd_large {d : Fin 8} {im : BitVec 12} (hrow : 16384 < min (im.toNat + 1) (c.rows - c.r) * c.rowBytes) :
    exec (.hrd d im) s = .next (endCmdErr s s.co.id s.co.hslot 10 c.chunkNo none) := by
  simp only [exec, execHrd, micro_answer h, Nat.min_def] at hrow ⊢
  simp only [hrow, if_true, MOut.answer, Option.map_none]

/-! ## Elements moved and framed -/

variable {d a : Fin 8} {f : BitVec 5} {im : BitVec 12} {co : BitVec 8} {mx : Bool}

theorem exec_hfrm_whole {e : List Nat} (he : elemsOf f.toNat (c.buf a) = some e) :
    Fills (.hfrm d a f co mx) s c d ((cutL (blkMax f.toNat mx) e.length e).flatMap (fun p =>
      mkBlock f.toNat co.toNat (List.replicate ((p.length + 7) / 8) 0x90) p)) (c.pois a) none [] :=
  fills_of_putBuf (by simp only [exec, execHfrm, micro_answer h, he, ceilDiv, Nat.reduceSubDiff])

theorem exec_hprm_whole {e : List Nat} (he : elemsOf f.toNat (c.buf a) = some e) :
    Fills (.hprm d a f im) s c d (packElems f.toNat ((List.range (im.toNat + 1)).flatMap (fun j =>
      (cutL (im.toNat + 1) e.length e).flatMap (fun r => (r.drop j).take 1)))) (c.pois a) none [] :=
  fills_of_putBuf (by simp only [exec, execHprm, micro_answer h, he])

theorem exec_hxps_whole {e : List Nat} (he : elemsOf f.toNat (c.buf a) = some e) (hrow : e.length % (im.toNat + 1) = 0) :
    Fills (.hxps d a f im) s c d (packElems f.toNat ((List.range (im.toNat + 1)).flatMap (fun j =>
      (cutL (im.toNat + 1) e.length e).map (fun r => r.getD j 0)))) (c.pois a) none [] :=
  fills_of_putBuf (by simp only [exec, execHxps, micro_answer h, he, hrow, ne_eq, not_true, if_false])

theorem exec_hxps_rows {e : List Nat} (he : elemsOf f.toNat (c.buf a) = some e) (hrow : e.length % (im.toNat + 1) ≠ 0) :
    exec (.hxps d a f im) s = .next (endCmdErr s s.co.id s.co.hslot 10 c.chunkNo none) := by
  simp only [exec, execHxps, micro_answer h, he, hrow, ne_eq, not_false_eq_true, if_true, MOut.answer, Option.map_none]

/-- A buffer that holds no whole number of elements ends the command (R236). -/
theorem exec_elems_none (he : elemsOf f.toNat (c.buf a) = none) :
    exec (.hfrm d a f co mx) s = .next (endCmdErr s s.co.id s.co.hslot 10 c.chunkNo none) ∧
    exec (.hprm d a f im) s = .next (endCmdErr s s.co.id s.co.hslot 10 c.chunkNo none) ∧
    exec (.hxps d a f im) s = .next (endCmdErr s s.co.id s.co.hslot 10 c.chunkNo none) := by
  simp only [exec, execHfrm, execHprm, execHxps, micro_answer h, he, MOut.answer, Option.map_none, and_self]

/-! ## Values converted and quantised -/

variable {src : BitVec 5} {rm : Rm} {ov : Ov}

theorem exec_hcvt_whole {e r : List Nat} (he : elemsOf src.toNat (c.buf a) = some e)
    (hr : convAll (fmtKind f.toNat) rm ov 0 (e.map (fmtKind src.toNat).val) = .ok r) :
    Fills (.hcvt d a f rm ov src) s c d (packElems f.toNat r) (c.pois a) none [] :=
  fills_of_putBuf (by simp only [exec, execHcvt, micro_answer h, he, hr])

theorem exec_hcvt_trap {e : List Nat} {i : Nat} (he : elemsOf src.toNat (c.buf a) = some e)
    (hr : convAll (fmtKind f.toNat) rm ov 0 (e.map (fmtKind src.toNat).val) = .error i) :
    exec (.hcvt d a f rm ov src) s =
      .next (endCmdErr s s.co.id s.co.hslot 6 c.chunkNo (some { flt cNUMOVF i false with index := c.chunkNo })) := by
  simp only [exec, execHcvt, micro_answer h, he, hr, MOut.answer, numOvf, Option.map_some]

theorem exec_hqnt_whole {e : List Nat} {r : List Byte} (he : elemsOf src.toNat (c.buf a) = some e)
    (hr : quantRow f.toNat rm ov 0 (cutL (blkMax f.toNat mx) e.length (e.map (fmtKind src.toNat).val)) = .ok r) :
    Fills (.hqnt d a f rm ov src mx) s c d r (c.pois a) none [] :=
  fills_of_putBuf (by simp only [exec, execHqnt, micro_answer h, he, hr])

theorem exec_hqnt_trap {e : List Nat} {i : Nat} (he : elemsOf src.toNat (c.buf a) = some e)
    (hr : quantRow f.toNat rm ov 0 (cutL (blkMax f.toNat mx) e.length (e.map (fmtKind src.toNat).val)) = .error i) :
    exec (.hqnt d a f rm ov src mx) s =
      .next (endCmdErr s s.co.id s.co.hslot 6 c.chunkNo (some { flt cNUMOVF i false with index := c.chunkNo })) := by
  simp only [exec, execHqnt, micro_answer h, he, hr, MOut.answer, numOvf, Option.map_some]

theorem exec_values_none (he : elemsOf src.toNat (c.buf a) = none) :
    exec (.hcvt d a f rm ov src) s = .next (endCmdErr s s.co.id s.co.hslot 10 c.chunkNo none) ∧
    exec (.hqnt d a f rm ov src mx) s = .next (endCmdErr s s.co.id s.co.hslot 10 c.chunkNo none) := by
  simp only [exec, execHcvt, execHqnt, micro_answer h, he, MOut.answer, Option.map_none, and_self]

/-! ## Blocks taken apart -/

variable {run : Bool}

theorem exec_hunf_part (hl : (c.buf a).length % 64 ≠ 0) :
    exec (.hunf d a f rm ov run) s = .next (endCmdErr s s.co.id s.co.hslot 10 c.chunkNo none) := by
  simp only [exec, execHunf, micro_answer h, hl, ne_eq, not_false_eq_true, if_true, MOut.answer, Option.map_none]

theorem exec_hunf_bad (hl : (c.buf a).length % 64 = 0) (hb : (cutN 64 (c.buf a).length (c.buf a)).any blockBad = true) :
    exec (.hunf d a f rm ov run) s =
      .next (endCmdErr s s.co.id s.co.hslot 3 c.chunkNo (some { flt cINTEG 2 false with index := c.chunkNo })) := by
  simp only [exec, execHunf, micro_answer h, hl, hb, ne_eq, not_true, if_false, if_true, MOut.answer, Option.map_some]

theorem exec_hunf_values {r : List Nat} (hl : (c.buf a).length % 64 = 0) (hb : (cutN 64 (c.buf a).length (c.buf a)).any blockBad = false)
    (hr : convAll (fmtKind f.toNat) rm ov 0 (valuesOf (cutN 64 (c.buf a).length (c.buf a))) = .ok r) :
    Fills (.hunf d a f rm ov false) s c d (packElems f.toNat r) (c.pois a) none [] := by
  unfold valuesOf at hr
  exact fills_of_putBuf (by simp only [exec, execHunf, micro_answer h, hl, hb, hr, ne_eq, not_true, Bool.false_eq_true, if_false])

theorem exec_hunf_trap {i : Nat} (hl : (c.buf a).length % 64 = 0) (hb : (cutN 64 (c.buf a).length (c.buf a)).any blockBad = false)
    (hr : convAll (fmtKind f.toNat) rm ov 0 (valuesOf (cutN 64 (c.buf a).length (c.buf a))) = .error i) :
    exec (.hunf d a f rm ov false) s =
      .next (endCmdErr s s.co.id s.co.hslot 6 c.chunkNo (some { flt cNUMOVF i false with index := c.chunkNo })) := by
  unfold valuesOf at hr
  simp only [exec, execHunf, micro_answer h, hl, hb, hr, ne_eq, not_true, Bool.false_eq_true, if_false, MOut.answer, numOvf, Option.map_some]

theorem exec_hunf_runs {g : Nat} (hl : (c.buf a).length % 64 = 0) (hb : (cutN 64 (c.buf a).length (c.buf a)).any blockBad = false)
    (hne : cutN 64 (c.buf a).length (c.buf a) ≠ []) (hg : ∀ b ∈ cutN 64 (c.buf a).length (c.buf a), fmtOfBlk (b.getD 0 0).toNat = g) :
    Fills (.hunf d a f rm ov true) s c d ((cutN 64 (c.buf a).length (c.buf a)).flatMap (fun b =>
      (blockRuns b (blockN b) false).flatMap (fun r => packElems g r.codes ++ leBytes 2 r.scale))) (c.pois a) (some g)
      (shortRuns 0 (cutN 64 (c.buf a).length (c.buf a))) := by
  have hfs : ((cutN 64 (c.buf a).length (c.buf a)).map (fun b => fmtOfBlk (b.getD 0 0).toNat)).eraseDups = [g] :=
    eraseDups_const (by simpa using hne) (by simpa using hg)
  exact fills_of_putBuf (by
    simp only [exec, execHunf, micro_answer h, hl, hb, hfs, hne, ne_eq, not_true, Bool.false_eq_true, if_false, if_true, List.length_singleton,
      Nat.lt_irrefl, List.headD_cons])

/-! ## Buffers put together and folded -/

variable {pad : Bool}

theorem exec_hpak : ∃ form short, Fills (.hpak d a pad) s c d (pakBase (c.buf d) pad ++ c.buf a) (c.pois d || c.pois a) form short := by
  refine ⟨pakForm (c.buf d) (pakBase (c.buf d) pad) (c.buf a) (c.form d) (c.form a), pakShorts c d a pad, fills_of_putBuf ?_⟩
  simp only [exec, execHpak, micro_answer h, pakBase_eq]
  rfl

theorem exec_hfold : Fills (.hfold d a) s c d
    (((cutN 4096 (c.buf a ++ List.replicate (((c.buf a).length + 63) / 64 * 64 - (c.buf a).length) 0).length
      (c.buf a ++ List.replicate (((c.buf a).length + 63) / 64 * 64 - (c.buf a).length) 0)).map (padTo 4096)).flatMap
      (fun u => padTo 4160 (foldEnc u))) (c.pois a) none [] :=
  fills_of_putBuf (by simp only [exec, execHfold, micro_answer h, padTo, ceilDiv, Nat.reduceSubDiff, foldSlot])

theorem exec_hunfold_part (hl : (c.buf a).length % 4160 ≠ 0) :
    exec (.hunfold d a) s = .next (endCmdErr s s.co.id s.co.hslot 10 c.chunkNo none) := by
  simp only [exec, execHunfold, micro_answer h, foldSlot, hl, ne_eq, not_false_eq_true, if_true, MOut.answer, Option.map_none]

end

/-- The bytes of some fold slots decoded, none where one is malformed (R282). -/
def unfoldAll (us : List (List Byte)) : Option (List Byte) :=
  us.foldr (fun u acc => (foldDecode u).bind (fun r => acc.map (fun l => r.1 ++ l))) (some [])

theorem unfoldAll_some {us : List (List Byte)} {vs : List (List Byte × Nat)} (hv : us.map foldDecode = vs.map some) :
    unfoldAll us = some (vs.map Prod.fst).flatten := by
  induction us generalizing vs with
  | nil =>
    obtain rfl : vs = [] := by simpa using hv.symm
    rfl
  | cons u us ih =>
    cases vs with
    | nil => simp at hv
    | cons v vs =>
      simp only [List.map_cons, List.cons.injEq] at hv
      obtain ⟨hu, hr⟩ := hv
      have hrest := ih hr
      unfold unfoldAll at hrest ⊢
      simp [hu, hrest]

theorem unfoldAll_none {us : List (List Byte)} (hu : ∃ u ∈ us, foldDecode u = none) : unfoldAll us = none := by
  induction us with
  | nil => simp at hu
  | cons u us ih =>
    change (foldDecode u).bind (fun r => (unfoldAll us).map (fun l => r.1 ++ l)) = none
    obtain ⟨v, hv, hn⟩ := hu
    rcases List.mem_cons.1 hv with rfl | hv
    · rw [hn]; rfl
    · rw [ih ⟨v, hv, hn⟩]
      cases foldDecode u <;> rfl

section
variable {s : State} {c : Cmd} (h : Transforms s c) {d a : Fin 8} {us : List (List Byte)}
include h

/-- `unfold` of a buffer of whole slots comes to what its slots decode to. -/
theorem exec_hunfold_slots (ha : c.buf a = us.flatten) (hu : ∀ u ∈ us, u.length = 4160) :
    exec (.hunfold d a) s = (match unfoldAll us with
      | none => MOut.fail s 3 (some (flt cINTEG 5 false))
      | some out => putBuf s c d out (c.pois a) none).answer s c := by
  have hlen : us.flatten.length = us.length * 4160 := by
    rw [List.length_flatten, List.map_congr_left hu, List.map_const', List.sum_replicate, smul_eq_mul]
  have hcut : cutN foldSlot us.flatten.length us.flatten = us := cutN_flatten (by decide) hu (by omega)
  have hmod : ¬ us.flatten.length % foldSlot ≠ 0 := by
    rw [hlen]; simp [foldSlot]
  simp only [exec, execHunfold, micro_answer h, ha, hcut, if_neg hmod]
  rfl

theorem exec_hunfold_whole (ha : c.buf a = us.flatten) (hu : ∀ u ∈ us, u.length = 4160) {vs : List (List Byte × Nat)}
    (hv : us.map foldDecode = vs.map some) : Fills (.hunfold d a) s c d (vs.map Prod.fst).flatten (c.pois a) none [] :=
  fills_of_putBuf (by rw [exec_hunfold_slots h ha hu, unfoldAll_some hv])

theorem exec_hunfold_bad (ha : c.buf a = us.flatten) (hu : ∀ u ∈ us, u.length = 4160) (hn : ∃ u ∈ us, foldDecode u = none) :
    exec (.hunfold d a) s =
      .next (endCmdErr s s.co.id s.co.hslot 3 c.chunkNo (some { flt cINTEG 5 false with index := c.chunkNo })) := by
  rw [exec_hunfold_slots h ha hu, unfoldAll_none hn]
  rfl

end
end Sys2Proof.Machine
end

section
/-! SUPPORT. The micro-ops that read and write memory and feed the matrix engine (R233, R235, R236, R393), and the end of a program. -/

namespace Sys2Proof.Machine

/-! ## Digests -/

/-- A list of whole pieces cut into them. -/
theorem cutN_pieces {n m : Nat} (hn : 0 < n) {bs : List Byte} (hl : bs.length = m * n) {k : Nat} (hk : m ≤ k) :
    cutN n k bs = (List.range m).map (fun j => (bs.drop (n * j)).take n) := by
  induction m generalizing bs k with
  | zero =>
    obtain rfl : bs = [] := List.length_eq_zero_iff.1 (by simpa using hl)
    cases k <;> rfl
  | succ m ih =>
    obtain ⟨k, rfl⟩ : ∃ j, k = j + 1 := ⟨k - 1, by omega⟩
    have hne : bs ≠ [] := by
      rintro rfl
      simp at hl
      omega
    have hr := ih (bs := bs.drop n) (k := k) (by rw [List.length_drop, hl, Nat.succ_mul, Nat.add_sub_cancel]) (by omega)
    rw [cutN, if_neg hne, hr, List.range_succ_eq_map, List.map_cons, List.map_map]
    simp [Function.comp_def, List.drop_drop, Nat.mul_succ, Nat.add_comm n]

theorem cutN_whole {n : Nat} (hn : 0 < n) {bs : List Byte} (hl : bs.length % n = 0) :
    cutN n bs.length bs = (List.range (bs.length / n)).map (fun j => (bs.drop (n * j)).take n) :=
  cutN_pieces hn (Nat.div_mul_cancel (Nat.dvd_of_mod_eq_zero hl)).symm (Nat.div_le_self _ _)

/-- Digests compared: the command's leaf goes on by the number of units. -/
theorem hashRun_next {core : Nat} {c c1 : Cmd} {base g : Nat} {s t : State} {us : List (List Byte)}
    (h : hashRun core c base g s us = .next t c1) : c1 = { c with h := g + us.length } := by
  induction us generalizing g s with
  | nil =>
    simp only [hashRun, MOut.next.injEq] at h
    exact h.2.symm
  | cons u us ih =>
    simp only [hashRun] at h
    split at h
    · cases h
    · split at h
      · cases h
      · cases h
      · split at h
        · rw [ih h, List.length_cons, Nat.add_assoc, Nat.add_comm 1]
        · cases h

/-- Digests are compared one after another. -/
theorem hashRun_append {core : Nat} {c c1 : Cmd} {base g : Nat} {s t : State} {us vs : List (List Byte)}
    (h : hashRun core c base g s us = .next t c1) : hashRun core c base g s (us ++ vs) = hashRun core c base (g + us.length) t vs := by
  induction us generalizing g s with
  | nil =>
    simp only [hashRun, MOut.next.injEq] at h
    rw [h.1]; rfl
  | cons u us ih =>
    simp only [hashRun, List.cons_append] at h ⊢
    split at h
    · cases h
    · next hx =>
      rw [if_neg hx]
      split at h
      · cases h
      · cases h
      · split at h
        · next hu =>
          simp only [if_pos hu]
          rw [ih h, List.length_cons, Nat.add_assoc, Nat.add_comm 1]
        · cases h

section
variable {s : State} {c : Cmd} (h : Transforms s c) {a : Fin 8}
include h

theorem exec_hhsh_none (hb : (c.shape.getD 6 0).toNat = 0 ∨ (c.buf a).length % 4096 ≠ 0) :
    exec (.hhsh a) s = .next (endCmdErr s s.co.id s.co.hslot 10 c.chunkNo none) := by
  simp only [exec, execHhsh, micro_answer h, if_pos hb, MOut.answer, Option.map_none]

theorem exec_hhsh_units (hb : (c.shape.getD 6 0).toNat ≠ 0) (hl : (c.buf a).length % 4096 = 0) :
    exec (.hhsh a) s =
      (hashRun s.co.id c (c.shape.getD 6 0).toNat c.h s (cutN 4096 (c.buf a).length (c.buf a))).answer s c := by
  have hgo : ¬ ((c.shape.getD 6 0).toNat = 0 ∨ (c.buf a).length % 4096 ≠ 0) := by simp only [hb, hl, ne_eq, not_true, or_self, not_false_eq_true]
  simp only [exec, execHhsh, micro_answer h, if_neg hgo]

theorem exec_hhsh_next (hb : (c.shape.getD 6 0).toNat ≠ 0) (hl : (c.buf a).length % 4096 = 0) {t : State} {c1 : Cmd}
    (hr : hashRun s.co.id c (c.shape.getD 6 0).toNat c.h s (cutN 4096 (c.buf a).length (c.buf a)) = .next t c1) :
    exec (.hhsh a) s = .next (t.setCmd s.co.id s.co.hslot c1.advance) ∧ c1 = { c with h := c.h + (c.buf a).length / 4096 } := by
  refine ⟨by rw [exec_hhsh_units h hb hl, hr]; rfl, ?_⟩
  rw [hashRun_next hr, cutN_whole (by decide) hl, List.length_map, List.length_range]

/-- The first unit whose digest differs ends the command. -/
theorem exec_hhsh_differs (hb : (c.shape.getD 6 0).toNat ≠ 0) (hl : (c.buf a).length % 4096 = 0) {j : Nat} {s1 s2 : State} {c1 : Cmd}
    {dg : List Byte} {p : Bool} (hj : j < (c.buf a).length / 4096)
    (hr : hashRun s.co.id c (c.shape.getD 6 0).toNat c.h s ((cutN 4096 (c.buf a).length (c.buf a)).take j) = .next s1 c1)
    (hx : xAhead s1 c true (((c.shape.getD 6 0).toNat + 32 * (c.h + j)) % 2 ^ 64) 32 = false)
    (hd : engRead s.co.id (c.who s.co.id) c.recId c.pos 3 s1 (((c.shape.getD 6 0).toNat + 32 * (c.h + j)) % 2 ^ 64) 32 = (s2, .ok dg p))
    (hne : sha3 (((c.buf a).drop (4096 * j)).take 4096) ≠ dg) :
    exec (.hhsh a) s =
      .next (endCmdErr s2 s.co.id s.co.hslot 3 c.chunkNo (some { flt cINTEG 1 false with index := c.chunkNo })) := by
  have hcut := cutN_whole (n := 4096) (by decide) hl
  have hlen : ((cutN 4096 (c.buf a).length (c.buf a)).take j).length = j := by
    rw [hcut]; simp; omega
  have hsplit : cutN 4096 (c.buf a).length (c.buf a) = (cutN 4096 (c.buf a).length (c.buf a)).take j ++
      ((c.buf a).drop (4096 * j)).take 4096 :: (cutN 4096 (c.buf a).length (c.buf a)).drop (j + 1) := by
    conv_lhs => rw [← List.take_append_drop j (cutN 4096 (c.buf a).length (c.buf a))]
    rw [List.drop_eq_getElem_cons (by rw [hcut]; simpa using hj)]
    simp [hcut]
  rw [exec_hhsh_units h hb hl, hsplit, hashRun_append hr, hlen]
  simp only [hashRun, hx, hd, hne, Bool.false_eq_true, if_false, MOut.answer, Option.map_some]

end

/-! ## The end of a program -/

theorem Cmd.advance_straight {c : Cmd} (hl : c.loops = []) : c.advance = { c with pc := c.pc + 1 } := by
  simp only [Cmd.advance, hl]

theorem Cmd.advance_body {c : Cmd} {st en left : Nat} {r : List (Nat × Nat × Nat)} (hl : c.loops = (st, en, left) :: r) (hp : c.pc + 1 ≠ en) :
    c.advance = { c with pc := c.pc + 1 } := by
  simp only [Cmd.advance, hl, if_neg hp]

theorem Cmd.advance_round {c : Cmd} {st en left : Nat} {r : List (Nat × Nat × Nat)} (hl : c.loops = (st, en, left) :: r) (hp : c.pc + 1 = en)
    (h0 : left ≠ 0) : c.advance = { c with pc := st, loops := (st, en, left - 1) :: r } := by
  simp only [Cmd.advance, hl, if_pos hp, if_neg h0]

theorem Cmd.advance_over {c : Cmd} {st en left : Nat} {r : List (Nat × Nat × Nat)} (hl : c.loops = (st, en, left) :: r) (hp : c.pc + 1 = en)
    (h0 : left = 0) : c.advance = { c with pc := c.pc + 1, loops := r } := by
  simp only [Cmd.advance, hl, if_pos hp, if_pos h0]

/-- `end` of a running transform command: again, too few chunks, or left to its chunks (R233). -/
theorem exec_endPass {s : State} {c : Cmd} (h : Transforms s c) : exec .endPass s =
    if c.r < c.rows ∧ c.r ≠ c.r0 then .next (s.setCmd s.co.id s.co.hslot { c with pc := 0, loops := [], r0 := c.r })
    else if c.chunkNo < c.expect then .next (endCmdErr s s.co.id s.co.hslot 10 c.chunkNo none)
    else .next (if c.done = c.expect then endCmdOk (s.setCmd s.co.id s.co.hslot { c with pc := c.prog.length, loops := [] }) s.co.id s.co.hslot
      else s.setCmd s.co.id s.co.hslot { c with pc := c.prog.length, loops := [] }) := by
  have hgo : (!c.run || c.kind != .xfm || c.stop) = false := by simp [h.run, h.kind, h.going]
  simp only [exec, execEndPass, h.cmd?, hgo, Bool.false_eq_true, if_false]

/-! ## Writing rows -/

/-- The rows a `wr` of k rows takes from a buffer. -/
def bufRows (k : Nat) (bs : List Byte) : List (List Byte) := (List.range k).map (fun j => (bs.drop (j * (bs.length / k))).take (bs.length / k))

theorem bufRows_length (k : Nat) (bs : List Byte) : (bufRows k bs).length = k := by simp [bufRows]

theorem bufRow_length {k j : Nat} (hj : j < k) (bs : List Byte) :
    ((bs.drop (j * (bs.length / k))).take (bs.length / k)).length = bs.length / k := by
  have hend : (j + 1) * (bs.length / k) ≤ bs.length := (Nat.mul_le_mul_right _ hj).trans (Nat.mul_div_le _ _)
  rw [Nat.succ_mul] at hend
  simp only [List.length_take, List.length_drop]
  omega

theorem bufRows_bytes {k : Nat} {bs : List Byte} (hk : bs.length % k = 0) : ((bufRows k bs).map List.length).sum = bs.length := by
  have hmul : k * (bs.length / k) = bs.length := Nat.mul_div_cancel' (Nat.dvd_of_mod_eq_zero hk)
  simp only [bufRows, List.map_map, Function.comp_def]
  rw [List.map_congr_left (fun j hj => bufRow_length (List.mem_range.1 hj) bs), List.map_const', List.sum_replicate, List.length_range, smul_eq_mul,
    hmul]

section
variable {s : State} {c : Cmd} {a : Fin 8} {im : BitVec 12}

/-- What a `wr` comes to once its buffer and its chunk are in order. -/
def wrOut (s : State) (c : Cmd) (a : Fin 8) (k : Nat) : MOut :=
  if c.toFifo then wrFifo s c (bufRows k (c.buf a)) (c.form a) (c.pois a) (c.shorts a) else wrMem s s.co.hslot c (bufRows k (c.buf a)) (c.pois a)

theorem exec_hwr_fails (h : Transforms s c) (hb : (c.buf a).length % (im.toNat + 1) ≠ 0 ∨ c.expect ≤ c.chunkNo) :
    exec (.hwr a im) s = .next (endCmdErr s s.co.id s.co.hslot 10 c.chunkNo none) := by
  simp only [exec, execHwr, micro_answer h]
  split
  · rfl
  · next hw => rw [if_pos (hb.resolve_left hw)]; rfl

theorem exec_hwr_chunk (h : Transforms s c) (hl : (c.buf a).length % (im.toNat + 1) = 0) (hn : c.chunkNo < c.expect) :
    exec (.hwr a im) s = (wrOut s c a (im.toNat + 1)).answer s c := by
  have hw : ¬ (c.buf a).length % (im.toNat + 1) ≠ 0 := not_not.2 hl
  simp only [exec, execHwr, micro_answer h, if_neg hw, if_neg (Nat.not_le.2 hn)]
  rfl

/-- A `wr` that goes on has written everything. -/
theorem wrFifo_next {rows : List (List Byte)} {form : Option Nat} {p : Bool} {short : List Nat} {t : State} {c1 : Cmd}
    (h : wrFifo s c rows form p short = .next t c1) :
    ∃ u, wrDone u s.co.id c rows.length (rows.map List.length).sum c.wrote = .next t c1 := by
  unfold wrFifo at h
  simp only at h
  split at h
  · cases h
  split at h
  · cases h
  split at h
  · cases h
  split at h
  · cases h
  split at h
  · cases h
  split at h
  · exact ⟨_, h⟩
  · cases h

theorem wrMem_next {slot : Nat} {rows : List (List Byte)} {p : Bool} {t : State} {c1 : Cmd} (h : wrMem s slot c rows p = .next t c1) :
    ∃ u l, wrDone u s.co.id c rows.length (rows.map List.length).sum l = .next t c1 := by
  unfold wrMem at h
  split at h
  · cases h
  simp only at h
  split at h
  · cases h
  split at h
  · cases h
  · cases h
  split at h
  · exact ⟨_, _, h⟩
  · cases h
  · cases h

/-- A `wr` that goes on has counted its chunk. -/
theorem wrOut_next {k : Nat} (hk : (c.buf a).length % k = 0) {t : State} {c1 : Cmd} (h : wrOut s c a k = .next t c1) :
    c1.w = c.w + k ∧ c1.chunkNo = c.chunkNo + 1 ∧ c1.wrAt = 0 ∧ aget 0 c1.moved c.chunkNo = (c.buf a).length := by
  obtain ⟨u, l, hd⟩ : ∃ u l, wrDone u s.co.id c (bufRows k (c.buf a)).length ((bufRows k (c.buf a)).map List.length).sum l = .next t c1 := by
    unfold wrOut at h
    split at h
    · obtain ⟨u, hd⟩ := wrFifo_next h
      exact ⟨u, _, hd⟩
    · exact wrMem_next h
  simp only [wrDone, MOut.next.injEq, bufRows_length, bufRows_bytes hk] at hd
  obtain ⟨-, rfl⟩ := hd
  exact ⟨rfl, rfl, rfl, aget_aput_self _ _ _ _⟩

end
end Sys2Proof.Machine
end

section
/-! SUPPORT. What a `wr` that has room does (R233, R235, R236, R393): runs put into the FIFO of its tag, or rows written through the lane. -/

namespace Sys2Proof.Machine

/-! ## Into a FIFO -/

section
variable {s : State} {c : Cmd}

/-- An operand FIFO of the core in focus is bound to the heddle with the tag of a command (R182). -/
def FifoBound (s : State) (c : Cmd) (fb : Bool) : Prop := (s.co.fifo fb).src = .heddle ∧ (s.co.fifo fb).tag = c.tag

theorem fifoFor_own (hrec : s.co.recId = some c.recId) (hto : c.wrTo = none) :
    fifoFor s c = (fifoOf s.co c.tag).map (fun fb => (s.co.id, fb)) := by
  simp only [fifoFor, hrec, hto, if_true, Option.bind_some, Option.isSome_none, Bool.false_eq_true, if_false, State.core_focus]

theorem fifoFor_none (hrec : s.co.recId = some c.recId) (hto : c.wrTo = none) (ha : ¬ FifoBound s c false) (hb : ¬ FifoBound s c true) :
    fifoFor s c = none := by
  have hof : fifoOf s.co c.tag = none := (if_neg ha).trans (if_neg hb)
  rw [fifoFor_own hrec hto, hof, Option.map_none]

theorem fifoFor_bound (hrec : s.co.recId = some c.recId) (hto : c.wrTo = none) {fb : Bool} (hb : FifoBound s c fb)
    (hfirst : fb = true → ¬ FifoBound s c false) : fifoFor s c = some (s.co.id, fb) := by
  have hof : fifoOf s.co c.tag = some fb := by
    cases fb with
    | false => exact if_pos hb
    | true => exact (if_neg (hfirst rfl)).trans (if_pos hb)
  rw [fifoFor_own hrec hto, hof, Option.map_some]

/-- A shuttle of the core in focus set: neither the core's number nor its FIFOs nor memory differ. -/
theorem State.setShuttle_focus (s : State) (t : Shuttle) (fb : Bool) :
    (s.setShuttle s.co.id t).co.id = s.co.id ∧ (s.setShuttle s.co.id t).co.fifo fb = s.co.fifo fb := by
  unfold State.setShuttle
  split
  · exact ⟨rfl, rfl⟩
  · simp only [State.core_focus, State.setCore, if_true]
    exact ⟨trivial, rfl⟩

@[simp] theorem Core.setFifo_id (c : Core) (fb : Bool) (q : Fifo) : (c.setFifo fb q).id = c.id := by cases fb <;> rfl
@[simp] theorem Core.setFifo_fifo (c : Core) (fb : Bool) (q : Fifo) : (c.setFifo fb q).fifo fb = q := by cases fb <;> rfl

theorem State.setCore_focus {s : State} {k : Core} (hk : k.id = s.co.id) : s.setCore k = { s with co := k } := if_pos hk

/-- Runs put into a FIFO of the core in focus. -/
theorem pushRuns_focus (s : State) (fb : Bool) (runs : List FRun) :
    (pushRuns s s.co.id fb runs).co.id = s.co.id ∧ (pushRuns s s.co.id fb runs).mem = s.mem ∧
    (pushRuns s s.co.id fb runs).co.fifo fb = { s.co.fifo fb with runs := (s.co.fifo fb).runs ++ runs } := by
  have hset (q : Fifo) : s.setCore (s.co.setFifo fb q) = { s with co := s.co.setFifo fb q } := State.setCore_focus (by simp)
  simp only [pushRuns, State.core_focus, hset]
  split
  · simp
  · split
    · obtain ⟨hid, hq⟩ := State.setShuttle_focus { s with co := s.co.setFifo fb { s.co.fifo fb with runs := (s.co.fifo fb).runs ++ runs } } _ fb
      rw [Core.setFifo_id] at hid hq
      exact ⟨hid, State.setShuttle_mem _ _ _, hq.trans (Core.setFifo_fifo _ _ _)⟩
    · simp

variable {rows : List (List Byte)} {form : Option Nat} {p : Bool} {short : List Nat} {fb : Bool}

theorem wrFifo_unbound (hs : fifoSaved s c = false) (hf : fifoFor s c = none) : wrFifo s c rows form p short = .fail s 10 none := by
  simp only [wrFifo, hs, hf, Bool.false_eq_true, if_false]

theorem wrFifo_form (hs : fifoSaved s c = false) (hf : fifoFor s c = some (s.co.id, fb)) {g : Nat}
    (hg : g ≠ (s.co.fifo fb).ty.etype.code) : wrFifo s c rows (some g) p short = .fail s 3 (some (flt cINTEG 3 false)) := by
  have hne : (some g).any (fun f => f != (s.co.fifo fb).ty.etype.code) = true := bne_iff_ne.2 hg
  simp only [wrFifo, hs, hf, Bool.false_eq_true, if_false, State.core_focus, hne, if_true]

/-- The runs of rows of codes at scale 1.0 (R235). -/
def codeRuns (p : Bool) (es : List (List Nat)) : List FRun := es.flatMap (fun e => (List.range ((e.length + 7) / 8)).map (fun j =>
  { codes := (List.range 8).map (fun i => e.getD (8 * j + i) 0), scale := 0x7F00, poison := p }))

theorem rowRuns_codes {ty : MType} {es : List (List Nat)} (he : rows.map (elemsOf ty.etype.code) = es.map some) :
    rows.map (rowRuns none ty p) = es.map (fun e => some (runsOf e (fun _ => scaleOne) p)) :=
  calc rows.map (rowRuns none ty p) = (rows.map (elemsOf ty.etype.code)).map (Option.map (fun e => runsOf e (fun _ => scaleOne) p)) := by
        rw [List.map_map]; rfl
    _ = es.map (fun e => some (runsOf e (fun _ => scaleOne) p)) := by rw [he, List.map_map]; rfl

theorem wrFifo_codes (hs : fifoSaved s c = false) (hf : fifoFor s c = some (s.co.id, fb)) (hat : c.wrAt = 0) {es : List (List Nat)}
    (he : rows.map (elemsOf (s.co.fifo fb).ty.etype.code) = es.map some)
    (hroom : (s.co.fifo fb).runs.length + (codeRuns p es).length ≤ fifoCap fb) :
    wrFifo s c rows none p short =
      wrDone (pushRuns s s.co.id fb (codeRuns p es)) s.co.id c rows.length (rows.map List.length).sum c.wrote := by
  have hruns : ((es.map (fun e => some (runsOf e (fun _ => scaleOne) p))).filterMap id).flatten = codeRuns p es := by
    rw [List.filterMap_map]
    simp only [Function.comp_def, id, List.filterMap_eq_map']
    rw [← List.flatMap_def]
    rfl
  have hnone : (es.map (fun e => some (runsOf e (fun _ => scaleOne) p))).any Option.isNone = false := by simp
  have hfit : (codeRuns p es).length ≤ fifoCap fb - (s.co.fifo fb).runs.length := by omega
  simp only [wrFifo, hs, hf, Bool.false_eq_true, if_false, State.core_focus, Option.any_none, rowRuns_codes he, hnone, hruns, hat, List.drop_zero,
    List.take_of_length_le hfit, if_pos hfit]

/-- Bytes counted on the core in focus. -/
theorem countHed_focus {t : State} {k : Nat} (hk : t.co.id = k) (n : Nat) :
    countHed t k n = { t with co := { t.co with hedBytes := t.co.hedBytes + n } } := by
  subst hk
  rw [countHed, State.core_focus]
  exact State.setCore_focus rfl

end
end Sys2Proof.Machine
end

section
/-! SUPPORT. A `wr` of kind 0 that has room (R235, R236, R278): its rows line by line into the write lane. -/

namespace Sys2Proof.Machine

/-! ## The checks of a write, whatever the core in focus -/

section
variable {s : State} {pid va : Nat}

theorem Xlat.covers_base {t : Xlat} (hp : t.pid = pid) (hv : t.va = va / 2 ^ t.bits * 2 ^ t.bits) : t.covers pid va = true := by
  simp [Xlat.covers, hp, hv]

/-- A walk for a write that finds a page leaves a translation that covers it and permits writes. -/
theorem walk_write_installs {t : Xlat} {u : State} (h : walk s pid va .write = (u, .ok (some t))) :
    t ∈ u.tlb ∧ t.covers pid va = true ∧ t.permits .write = true := by
  unfold walk at h
  split at h
  · cases h
  simp only at h
  split at h
  · cases h
  split at h
  · cases h
  · obtain ⟨rfl, rfl⟩ := h
    exact ⟨List.mem_cons_self, Xlat.covers_base rfl rfl, rfl⟩

/-- A translation for a write that leaves the machine as it is was an installed one. -/
theorem translate_write_hit {t : Xlat} (h : translate s pid va .write = (s, .ok (some t))) :
    s.tlb.find? (fun t => t.covers pid va && t.permits .write) = some t := by
  unfold translate at h
  split at h
  next u hu =>
    cases h
    exact hu
  next hu =>
    obtain ⟨hm, hc, hp⟩ := walk_write_installs h
    exact absurd (by simp [hc, hp]) (List.find?_eq_none.1 hu t hm)

theorem check_write_focus {w : Who} {ea : Nat} {l : Loc} (h : check s w ea 1 .write true false = (s, .ok l)) (u : Core) :
    check { s with co := u } w ea 1 .write true false = ({ s with co := u }, .ok l) := by
  have hclus (off : Nat) : clusGranted { s with co := u } w.pid w.core off = clusGranted s w.pid w.core off := rfl
  have hmeets (st : Nat) : walkMeets { s with co := u } w.core w.pid ea .write st = walkMeets s w.core w.pid ea .write st := rfl
  have hacc : (Acc.write == Acc.read) = false := rfl
  simp only [check, Nat.mod_one, ne_eq, not_true_eq_false, hacc, Bool.false_and, Bool.false_eq_true, if_false] at h ⊢
  cases hw : windowOf ea with
  | none => simp [hw] at h
  | near =>
    simp only [hw] at h ⊢
    split at h
    next hin => rw [if_pos hin]; exact Prod.ext rfl (Prod.mk.inj h).2
    next => cases h
  | cluster =>
    simp only [hw, hclus] at h ⊢
    split at h
    next hin => rw [if_pos hin]; exact Prod.ext rfl (Prod.mk.inj h).2
    next => cases h
  | xlat =>
    simp only [hw, hmeets] at h ⊢
    split at h
    next => cases h
    next h1 =>
    split at h
    next => cases h
    next h2 =>
    rw [if_neg h1, if_neg h2]
    split at h
    next => cases h
    next => cases h
    next s1 t ht =>
    obtain ⟨rfl, hok⟩ := Prod.mk.inj h
    have hhit : translate { s1 with co := u } w.pid ea .write = ({ s1 with co := u }, .ok (some t)) := by
      simp only [translate, translate_write_hit ht]
    rw [hhit]
    exact Prod.ext rfl hok

end

/-! ## Rows cut into lines -/

section
variable {s : State} {c : Cmd}

/-- The address of a destination row. -/
def Cmd.rowAt (c : Cmd) (row : Nat) : Nat := (c.shape.getD 1 0 + BitVec.ofNat 64 row * c.shape.getD 3 0).toNat

theorem destRows_plain (hstr : c.shape.getD 3 0 ≠ 4160) (row : Nat) (rows : List (List Byte)) :
    destRows c row s rows = (s, .ok (rows.mapIdx (fun j bs => (c.rowAt (row + j), bs)))) := by
  induction rows generalizing row with
  | nil => rfl
  | cons bs r ih =>
    have hat : rowAddr s c.pid .write (c.shape.getD 1 0) (c.shape.getD 3 0) row = (s, .ok (c.rowAt row)) := by
      simp only [rowAddr, hstr, false_and, if_false]
      rfl
    simp only [destRows, hat, ih, List.mapIdx_cons, Nat.add_zero, Nat.succ_add_eq_add_succ]

/-- A stretch that starts a line, or lies within one, is cut every 64 bytes. -/
theorem lineParts_whole {fuel a : Nat} {bs : List Byte} (hf : (bs.length + 63) / 64 ≤ fuel) (hl : a % 64 = 0 ∨ a % 64 + bs.length ≤ 64)
    (htop : a + bs.length ≤ 2 ^ 64) :
    lineParts fuel a bs = (List.range ((bs.length + 63) / 64)).map (fun l => (a + 64 * l, (bs.drop (64 * l)).take 64)) := by
  induction fuel generalizing a bs with
  | zero =>
    have h0 : (bs.length + 63) / 64 = 0 := Nat.le_zero.1 hf
    rw [h0]
    rfl
  | succ n ih =>
    unfold lineParts
    split
    next h => subst h; rfl
    next hne =>
    have hpos : 0 < bs.length := List.length_pos_iff.2 hne
    have hmod : a % 2 ^ 64 = a := Nat.mod_eq_of_lt (by omega)
    have hrest : (bs.drop (64 - a % 64)).length = bs.length - (64 - a % 64) := List.length_drop
    have hlines : (bs.length + 63) / 64 = ((bs.drop (64 - a % 64)).length + 63) / 64 + 1 := by omega
    have htail := ih (a := a + (64 - a % 64)) (bs := bs.drop (64 - a % 64)) (by omega) (by omega) (by omega)
    have hfirst : bs.take (64 - a % 64) = bs.take 64 := by
      rcases Nat.eq_zero_or_pos (a % 64) with h0 | h0
      · rw [h0]
      · rw [List.take_of_length_le (by omega), List.take_of_length_le (by omega)]
    simp only [htail, hlines, List.range_succ_eq_map, List.map_cons, List.map_map, hmod, hfirst, Nat.mul_zero, Nat.add_zero, List.drop_zero]
    refine congrArg _ (List.map_congr_left fun l hl' => ?_)
    have hl' := List.mem_range.1 hl'
    have h0 : a % 64 = 0 := by omega
    simp only [Function.comp_apply, h0, List.drop_drop, Nat.sub_zero, Nat.mul_succ, Nat.add_assoc, Nat.add_comm 64]

/-- The line parts of k rows of a buffer. -/
def linePieces (c : Cmd) (k : Nat) (bs : List Byte) : List (Nat × List Byte) :=
  let n := bs.length / k
  (List.range k).flatMap (fun j => (List.range ((n + 63) / 64)).map (fun l =>
    (c.rowAt (c.w + j) + 64 * l, (bs.drop (j * n + 64 * l)).take (min 64 (n - 64 * l)))))

theorem bufRows_lineParts {k : Nat} {bs : List Byte} (h : ∀ j, j < k →
      (c.rowAt (c.w + j) % 64 = 0 ∨ c.rowAt (c.w + j) % 64 + bs.length / k ≤ 64) ∧ c.rowAt (c.w + j) + bs.length / k ≤ 2 ^ 64) :
    ((bufRows k bs).mapIdx (fun j r => (c.rowAt (c.w + j), r))).flatMap (fun r => lineParts (r.2.length / 64 + 2) r.1 r.2) = linePieces c k bs := by
  have hidx : (bufRows k bs).mapIdx (fun j r => (c.rowAt (c.w + j), r)) =
      (List.range k).map (fun j => (c.rowAt (c.w + j), (bs.drop (j * (bs.length / k))).take (bs.length / k))) := by
    apply List.ext_getElem <;> simp [bufRows]
  rw [hidx, List.flatMap_map]
  refine List.flatMap_congr fun j hj => ?_
  obtain ⟨hline, htop⟩ := h j (List.mem_range.1 hj)
  have hlen := bufRow_length (List.mem_range.1 hj) bs
  rw [lineParts_whole (by omega) (by rwa [hlen]) (by rwa [hlen]), hlen]
  refine List.map_congr_left fun l _ => ?_
  rw [List.drop_take, List.drop_drop, List.take_take]

theorem addPart_apart {l : List (Nat × List Byte)} {q : Nat × List Byte} (h : ∀ p ∈ l, p.1 / 64 ≠ q.1 / 64) : addPart l q = l ++ [q] := by
  induction l with
  | nil => rfl
  | cons p r ih =>
    obtain ⟨hp, hr⟩ := List.forall_mem_cons.1 h
    rw [addPart, if_neg (fun hc => hp hc.1), ih hr, List.cons_append]

theorem foldl_addPart_apart {l : List (Nat × List Byte)} (h : l.Pairwise (fun p q => p.1 / 64 ≠ q.1 / 64)) : l.foldl addPart [] = l := by
  induction l using List.reverseRecOn with
  | nil => rfl
  | append_singleton l q ih =>
    obtain ⟨hl, -, hq⟩ := List.pairwise_append.1 h
    rw [List.foldl_append, ih hl, List.foldl_cons, List.foldl_nil, addPart_apart (fun p hp => hq p hp q List.mem_cons_self)]

end

/-! ## Line parts admitted -/

section
variable {s : State} {w : Who}

theorem engCheck_ok {ea key : Nat} (h : check s w ea 1 .write true false = (s, .ok { key := key, frm := false, cmp := false })) (n : Nat) :
    engCheck w s ea n = (s, .ok key) := by
  simp only [engCheck, h, Bool.false_and, Bool.false_eq_true, if_false]

theorem checkParts_ok {ps : List (Nat × List Byte)} (h : ∀ p ∈ ps, ∃ key, ∀ n, engCheck w s p.1 n = (s, .ok key)) :
    checkParts w s ps = (s, .ok 0) := by
  induction ps with
  | nil => rfl
  | cons p r ih =>
    obtain ⟨⟨key, hp⟩, hr⟩ := List.forall_mem_cons.1 h
    simp only [checkParts, hp, ih hr]

theorem Core.plain_id {u v : Core} {key : Nat} {bs : List Byte} {p : Bool} {b : By} (h : u.plain key bs p b = some v) : v.id = u.id := by
  obtain ⟨q, -, rfl⟩ := Option.map_eq_some_iff.1 h
  cases portOf key <;> rfl

theorem putParts_ok {slot chunk : Nat} {p : Bool} {key : Nat → Nat} {ps : List (Nat × List Byte)} {u v : Core} (hid : u.id = s.co.id)
    (hc : ∀ q ∈ ps, check s w q.1 1 .write true false = (s, .ok { key := key q.1, frm := false, cmp := false }))
    (hv : ps.foldlM (fun (u : Core) q => u.plain (key q.1) q.2 p { a := [], x := [], t := [(slot, chunk)] }) u = some v) :
    v.id = s.co.id ∧ ∃ n l, putParts s.co.id slot chunk w p { s with co := u } ps = ({ s with co := v }, n, l, .ok 0) := by
  induction ps generalizing u with
  | nil =>
    obtain rfl : u = v := Option.some.inj hv
    exact ⟨hid, _, _, rfl⟩
  | cons q r ih =>
    obtain ⟨hq, hr⟩ := List.forall_mem_cons.1 hc
    rw [List.foldlM_cons] at hv
    obtain ⟨u1, h1, h2⟩ := Option.bind_eq_some_iff.1 hv
    have hid1 : u1.id = s.co.id := (Core.plain_id h1).trans hid
    obtain ⟨hvid, n, l, hput⟩ := ih hid1 hr h2
    have hcore : ({ s with co := u } : State).core s.co.id = u := hid ▸ State.core_focus { s with co := u }
    have hset : ({ s with co := u } : State).setCore u1 = { s with co := u1 } := State.setCore_focus (hid1.trans hid.symm)
    have hw : engWrite s.co.id slot chunk w { s with co := u } q.1 q.2 p = ({ s with co := u1 }, .ok (key q.1)) := by
      simp only [engWrite, engCheck_ok (check_write_focus hq u), hcore, h1, hset]
    refine ⟨hvid, n + 1, (chunk, key q.1, q.2.length) :: l, ?_⟩
    simp only [putParts, hw, hput]

theorem wrMem_lines {slot k : Nat} {c : Cmd} {bs : List Byte} {p : Bool} {key : Nat → Nat} {v : Core} (hstr : c.shape.getD 3 0 ≠ 4160)
    (hat : c.wrAt = 0) (hrows : ∀ j, j < k →
      (c.rowAt (c.w + j) % 64 = 0 ∨ c.rowAt (c.w + j) % 64 + bs.length / k ≤ 64) ∧ c.rowAt (c.w + j) + bs.length / k ≤ 2 ^ 64)
    (hap : (linePieces c k bs).Pairwise (fun p q => p.1 / 64 ≠ q.1 / 64))
    (hok : ∀ q ∈ linePieces c k bs, xAhead s c false q.1 q.2.length = false ∧
      check s (c.who s.co.id) q.1 1 .write true false = (s, .ok { key := key q.1, frm := false, cmp := false }))
    (hv : (linePieces c k bs).foldlM (fun (u : Core) q => u.plain (key q.1) q.2 p { a := [], x := [], t := [(slot, c.chunkNo)] }) s.co = some v) :
    v.id = s.co.id ∧ ∃ l, wrMem s slot c (bufRows k bs) p =
      wrDone { s with co := v } s.co.id c (bufRows k bs).length ((bufRows k bs).map List.length).sum l := by
  obtain ⟨hid, n, l, hput⟩ := putParts_ok rfl (fun q hq => (hok q hq).2) hv
  have hahead : (linePieces c k bs).any (fun q => xAhead s c false q.1 q.2.length) = false :=
    List.any_eq_false.2 fun q hq => Bool.eq_false_iff.1 (hok q hq).1
  have hparts := checkParts_ok fun q hq => ⟨_, engCheck_ok (hok q hq).2⟩
  refine ⟨hid, l ++ c.wrote, ?_⟩
  simp only [wrMem, destRows_plain hstr, bufRows_lineParts hrows, foldl_addPart_apart hap, hahead, Bool.false_eq_true, if_false, hat, if_true, hparts,
    List.drop_zero, hput]

end
end Sys2Proof.Machine
end

section
/-! The micro-ops of a heddle program, settled (R233 to R236). -/

namespace Sys2Proof.Machine

section
variable {s : State} {c : Cmd} (h : Transforms s c)
include h

/-! ## The micro-ops that move no rows -/

theorem exec_hnop : exec .hnop s = .next (s.setCmd s.co.id s.co.hslot c.advance) := by
  simp only [exec, execHnop, micro_answer h, MOut.answer]

theorem exec_hloop (l n : BitVec 6) : exec (.hloop l n) s = .next (s.setCmd s.co.id s.co.hslot
    ({ c with loops := (c.pc + 1, c.pc + 1 + l.toNat, n.toNat) :: c.loops } : Cmd).advance) := by
  simp only [exec, execHloop, micro_answer h, MOut.answer]

theorem exec_hcrc (a : Fin 8) : exec (.hcrc a) s = .next (s.setCmd s.co.id s.co.hslot
    ({ c with gather := aput c.gather 0 (aget [] c.gather 0 ++ c.buf a) } : Cmd).advance) := by
  simp only [exec, execHcrc, micro_answer h, MOut.answer]

/-! ## Rows written out -/

variable {a : Fin 8} {im : BitVec 12} (hl : (c.buf a).length % (im.toNat + 1) = 0) (hn : c.chunkNo < c.expect)
include hl hn

theorem exec_hwr_wait {t : State} (ht : wrOut s c a (im.toNat + 1) = .wait t) : exec (.hwr a im) s = .next t := by
  rw [exec_hwr_chunk h hl hn, ht]
  rfl

theorem exec_hwr_next {t : State} {c1 : Cmd} (ht : wrOut s c a (im.toNat + 1) = .next t c1) :
    exec (.hwr a im) s = .next (t.setCmd s.co.id s.co.hslot c1.advance) := by
  rw [exec_hwr_chunk h hl hn, ht]
  rfl

/-- Rows that the queues take are written line by line (R235). -/
theorem exec_hwr_lines (hto : c.toFifo = false) {key : Nat → Nat} {v : Core} (hstr : c.shape.getD 3 0 ≠ 4160) (hat : c.wrAt = 0)
    (hrows : ∀ j, j < im.toNat + 1 →
      (c.rowAt (c.w + j) % 64 = 0 ∨ c.rowAt (c.w + j) % 64 + (c.buf a).length / (im.toNat + 1) ≤ 64) ∧
        c.rowAt (c.w + j) + (c.buf a).length / (im.toNat + 1) ≤ 2 ^ 64)
    (hap : (linePieces c (im.toNat + 1) (c.buf a)).Pairwise (fun p q => p.1 / 64 ≠ q.1 / 64))
    (hok : ∀ q ∈ linePieces c (im.toNat + 1) (c.buf a), xAhead s c false q.1 q.2.length = false ∧
      check s (c.who s.co.id) q.1 1 .write true false = (s, .ok { key := key q.1, frm := false, cmp := false }))
    (hv : (linePieces c (im.toNat + 1) (c.buf a)).foldlM
      (fun (u : Core) q => u.plain (key q.1) q.2 (c.pois a) { a := [], x := [], t := [(s.co.hslot, c.chunkNo)] }) s.co = some v) :
    ∃ (t : State) (c1 : Cmd), exec (.hwr a im) s = .next (t.setCmd s.co.id s.co.hslot c1.advance) ∧ t.mem = s.mem ∧ ∀ p, t.co.queue p = v.queue p := by
  obtain ⟨hid, l, hwr⟩ := wrMem_lines hstr hat hrows hap hok hv
  have hout : wrOut s c a (im.toNat + 1) = wrMem s s.co.hslot c (bufRows (im.toNat + 1) (c.buf a)) (c.pois a) := by
    rw [wrOut, hto]
    rfl
  refine ⟨_, _, exec_hwr_next h hl hn (hout.trans hwr), ?_⟩
  rw [countHed_focus hid]
  exact ⟨rfl, fun p => by cases p <;> rfl⟩

variable (hto : c.toFifo = true) (hsv : fifoSaved s c = false)
include hto hsv

theorem exec_hwr_unbound (hf : fifoFor s c = none) : exec (.hwr a im) s = .next (endCmdErr s s.co.id s.co.hslot 10 c.chunkNo none) := by
  rw [exec_hwr_chunk h hl hn, wrOut, if_pos hto, wrFifo_unbound hsv hf]
  rfl

variable {fb : Bool} (hf : fifoFor s c = some (s.co.id, fb))
include hf

theorem exec_hwr_form {g : Nat} (hform : c.form a = some g) (hg : g ≠ (s.co.fifo fb).ty.etype.code) :
    exec (.hwr a im) s = .next (endCmdErr s s.co.id s.co.hslot 3 c.chunkNo (some { flt cINTEG 3 false with index := c.chunkNo })) := by
  rw [exec_hwr_chunk h hl hn, wrOut, if_pos hto, hform, wrFifo_form hsv hf hg]
  rfl

/-- Rows of codes become runs of the FIFO of their tag (R235, R393). -/
theorem exec_hwr_codes (hat : c.wrAt = 0) (hform : c.form a = none) {es : List (List Nat)}
    (he : (bufRows (im.toNat + 1) (c.buf a)).map (elemsOf (s.co.fifo fb).ty.etype.code) = es.map some)
    (hroom : (s.co.fifo fb).runs.length + (codeRuns (c.pois a) es).length ≤ fifoCap fb) :
    ∃ (t : State) (c1 : Cmd), exec (.hwr a im) s = .next (t.setCmd s.co.id s.co.hslot c1.advance) ∧
      t.co.fifo fb = { s.co.fifo fb with runs := (s.co.fifo fb).runs ++ codeRuns (c.pois a) es } ∧ t.mem = s.mem := by
  obtain ⟨hid, hmem, hq⟩ := pushRuns_focus s fb (codeRuns (c.pois a) es)
  have hwr := wrFifo_codes (short := c.shorts a) hsv hf hat he hroom
  have hout : wrOut s c a (im.toNat + 1) = wrFifo s c (bufRows (im.toNat + 1) (c.buf a)) none (c.pois a) (c.shorts a) := by
    rw [wrOut, if_pos hto, hform]
  refine ⟨_, _, exec_hwr_next h hl hn (hout.trans hwr), ?_⟩
  rw [countHed_focus hid]
  exact ⟨hq, hmem⟩

end

/-- Settles O33: each micro-op's body comes to a filled buffer, a chunk, a wait or a failure, and `micro` answers from that. -/
theorem microOps : Obligations.MicroOps := by
  unfold Obligations.MicroOps
  intro s c d a f src rm ov co mx run pad im l n slot goes fails failsBy filled fillsAs fills A pA k hslot hrun hkind hstop
  have h : Transforms s c := ⟨hslot, hrun, hkind, hstop⟩
  have htag : (c.shape.getD 1 0).toNat % 2 ^ 16 = c.tag := by simp [Cmd.tag, bitsAt]
  refine ⟨exec_hnop h, exec_hloop h l n, exec_hcrc h a, ?hrd, exec_hrd_large h, ?elems, fun he => exec_elems_none h he,
    fun e r he hr => exec_hcvt_whole h he hr, fun e r he hr => exec_hqnt_whole h he hr, ?cvtTrap, fun e i he hr => exec_hqnt_trap h he hr,
    fun he => exec_values_none h he, ?unf, exec_hpak h, exec_hfold h, exec_hunfold_part h,
    fun us ha hu vs hv => exec_hunfold_whole h ha hu hv, fun us ha hu hn => exec_hunfold_bad h ha hu hn, ?hsh, exec_hwr_fails h, ?wr, ?lines, ?fifo,
    ?again, ?ends, Cmd.advance_straight, ?loops⟩
  case hrd => exact fun t bs p hrow hread hbs => exec_hrd_rows h hrow hread hbs
  case elems =>
    exact fun e he => ⟨exec_hfrm_whole h he, exec_hprm_whole h he, fun hrow => exec_hxps_whole h he hrow, fun hrow => exec_hxps_rows h he hrow⟩
  case cvtTrap => exact fun e i x he hx ht hb => exec_hcvt_trap h he (convAll_codes_trap hx ht hb)
  case unf =>
    intro blocks
    refine ⟨exec_hunf_part h, ?_, exec_hunf_bad h, ?_, ?_⟩
    · rintro hl hb rfl r hr
      exact exec_hunf_values h hl hb hr
    · rintro hl hb rfl i x vs traps hx ht hbef
      exact exec_hunf_trap h hl hb ((convAll_trap hx ht hbef 0).trans (congrArg _ (Nat.zero_add i)))
    · rintro hl hb rfl g hne hg
      exact exec_hunf_runs h hl hb hne hg
  case hsh =>
    exact ⟨exec_hhsh_none h, fun hb hl t c1 hr => exec_hhsh_next h hb hl hr,
      fun hb hl j s1 s2 c1 dg p hj hr hx hd hne => exec_hhsh_differs h hb hl hj hr hx hd hne⟩
  case wr =>
    intro hl hn rows wr
    exact ⟨fun t ht => exec_hwr_wait h hl hn ht, fun t c1 ht => ⟨exec_hwr_next h hl hn ht, wrOut_next hl ht⟩⟩
  case lines =>
    intro hto hl hn hat hstr n at' pieces hrows hap key hok v hv
    exact exec_hwr_lines h hl hn hto hstr hat hrows hap hok hv
  case fifo =>
    intro hto hl hn hsv hrec hwt hat fifo bound rows form
    have hbound (fb : Bool) : bound fb ↔ FifoBound s c fb := by
      simp only [bound, htag]
      rfl
    refine ⟨fun ha hb => ?_, fun fb hb hfirst => ?_⟩
    · exact exec_hwr_unbound h hl hn hto hsv (fifoFor_none hrec hwt (mt (hbound _).2 ha) (mt (hbound _).2 hb))
    · have hf := fifoFor_bound hrec hwt ((hbound fb).1 hb) (fun h => mt (hbound _).2 (hfirst h))
      exact ⟨fun g hform hg => exec_hwr_form h hl hn hto hsv hf hform hg,
        fun es hform he hroom => exec_hwr_codes h hl hn hto hsv hf hat hform he hroom⟩
  case again =>
    intro hr hr0
    rw [exec_endPass h, if_pos ⟨hr, hr0⟩]
  case ends =>
    intro hr
    rw [exec_endPass h, if_neg hr]
    refine ⟨fun hx => if_pos hx, fun hx hd => ?_, fun hx hd => ?_⟩
    · rw [if_neg (Nat.not_lt.2 hx), if_neg hd]
    · rw [if_neg (Nat.not_lt.2 hx), if_pos hd]
  case loops =>
    exact fun st en left r hl => ⟨Cmd.advance_body hl, Cmd.advance_round hl, Cmd.advance_over hl⟩

end Sys2Proof.Machine
end
